-- ==== Sys2Proof/Word.lean ====
section
/-!
DEFINITION. The word types of the KH9 and nothing else: an instruction word and a register are 32 bits
(spec/09 R127, spec/03 R46), an address 64 bits (spec/07 R90), a byte 8 bits (spec/00 R2).
-/

namespace Sys2Proof

/-- A 32-bit word: an instruction word, one lane of a vector register, a uniform register. -/
abbrev Word := BitVec 32

/-- A global address or a program counter (spec/07 R90, spec/09 R128). -/
abbrev Addr := BitVec 64

/-- One byte of memory. -/
abbrev Byte := BitVec 8

end Sys2Proof
end

