-- ==== Sys2Proof/Syntax.lean ====
section
/-!
DEFINITION. The instructions and steps of the KH9: one constructor of Instr per row of spec/opcode_table.json. The
first 204 rows are instruction words (and the row for words that are none, spec/09 R150); the rows after them are the
steps that spec/95 lists for the other agents of the module, which no word encodes. The operand records keep the
fields of the formats of spec/09 R130 to R139 under their names.
-/

namespace Sys2Proof

/-- LR, register form (spec/09 R130). -/
structure LR where
  vd : BitVec 8
  va : BitVec 8
  g  : BitVec 3
  gn : BitVec 1
  w  : BitVec 2
  vb : BitVec 8
  vc : BitVec 8
  m  : BitVec 8
  s  : BitVec 8
  deriving DecidableEq, Repr

/-- LI, immediate form (spec/09 R132). -/
structure LI where
  vd  : BitVec 8
  va  : BitVec 8
  g   : BitVec 3
  gn  : BitVec 1
  w   : BitVec 2
  imm : Word
  deriving DecidableEq, Repr

/-- LU, short unary form (spec/09 R133); the sub-operation is the constructor. -/
structure LU where
  vd : BitVec 8
  va : BitVec 8
  deriving DecidableEq, Repr

/-- LM, memory form (spec/09 R134). For ATOM and RED bits [19:12] of off hold the operation code. -/
structure LM where
  vd    : BitVec 8
  va    : BitVec 8
  g     : BitVec 3
  gn    : BitVec 1
  sp    : BitVec 2
  size  : BitVec 3
  scope : BitVec 3
  order : BitVec 3
  hint  : BitVec 3
  off   : BitVec 20
  deriving DecidableEq, Repr

/-- LB, lane branch form (spec/09 R135): word 1 is cut at [31:14], [13:6], [5:0]. -/
structure LB where
  p   : BitVec 3
  neg : BitVec 1
  off : BitVec 18
  hi  : BitVec 18
  mid : BitVec 8
  lo  : BitVec 6
  deriving DecidableEq, Repr

/-- UR, uniform register form of one word (spec/09 R136). -/
structure UR where
  d : BitVec 6
  a : BitVec 6
  b : BitVec 6
  q : BitVec 3
  n : BitVec 1
  deriving DecidableEq, Repr

/-- UR with a 32-bit immediate in word 1 (spec/09 R136). -/
structure UI where
  d   : BitVec 6
  a   : BitVec 6
  b   : BitVec 6
  q   : BitVec 3
  n   : BitVec 1
  imm : Word
  deriving DecidableEq, Repr

/-- UB, uniform branch form (spec/09 R137). -/
structure UB where
  q   : BitVec 3
  n   : BitVec 1
  off : BitVec 18
  deriving DecidableEq, Repr

/-- UE, engine command form (spec/09 R138). -/
structure UE where
  d   : BitVec 6
  a   : BitVec 6
  b   : BitVec 6
  sub : BitVec 4
  w1  : Word
  deriving DecidableEq, Repr

/-- UW, the WAIT form (spec/09 R139). -/
structure UW where
  ld   : BitVec 5
  st   : BitVec 5
  cp   : BitVec 5
  mb   : BitVec 5
  mode : BitVec 2
  deriving DecidableEq, Repr

/-- Names one split of a resident team: the team's number in State, the warp's number in the team, and a slice
position that the split holds. -/
structure Sel where
  team  : Nat
  warp  : Nat
  slice : Nat
  deriving DecidableEq, Repr

/-- Why a word is no instruction (spec/09 R150): the fault and, for PAGE, its TRAPINFO. -/
inductive Reject where
  | illop
  | page (info : Word)
  | prot (info : Word)
  deriving DecidableEq, Repr

/-- A CXL.mem access of the host (spec/07 R126): `data` is stored little-endian, `none` for a read. -/
structure HostAccess where
  home  : Nat
  pa    : Nat
  bytes : Nat
  data  : Option (BitVec 128)
  deriving DecidableEq, Repr

/-- What arrives from a peer module (spec/01 R22, spec/07 R126; spec/23 R351, R354, R356 to R358): an access to memory;
a tile that a core of module `source` sends to a router here; a tile that a router there delivers to a core here; the
notice of an orphan; the end of a meeting there in which a send of this module took part, with the fault that it takes. -/
inductive PeerKind where
  | load
  | store
  | atomic (oc : BitVec 7)
  | send (source core ctx : Nat) (tag : Word) (op : BitVec 3) (dest : Word) (tile : List Byte)
  | deliver (ctx : Nat) (tag dest : Word) (tile : List Byte)
  | orphan (ctx : Nat) (tag dest : Word)
  | meetingEnd (ctx : Nat) (tag : Word) (fault : Option (Nat × Word))
  deriving DecidableEq, Repr

/-- An arrival from a peer module over Murus link `link` (spec/01 R22, spec/07 R126): of an access, `x` is the operand, `y`
the new value of a CAS. -/
structure PeerReq where
  link  : Nat
  kind  : PeerKind
  home  : Nat
  pa    : Nat
  bytes : Nat
  x     : BitVec 128
  y     : BitVec 128
  order : BitVec 3
  scope : BitVec 3
  deriving DecidableEq, Repr

/-- Where an uncorrectable error lies (spec/29 R404): a clean copy in an L1, a constant path, a far cache or a weight
cache, a team's state, dirty data in an L1 or a matching store, or device memory. -/
inductive EccSite where
  | cleanCopy (core line : Nat)
  | constCopy (core line : Nat)
  | farCopy (die line : Nat)
  | weightCopy (cluster ctx set ver : Nat)
  | teamState (team : Nat)
  | dirtyData (core line : Nat)
  | meeting (router ctx : Nat) (tag : Word)
  | deviceMemory (home pa : Nat)
  deriving DecidableEq, Repr

/-- A beat of a die-to-die link (spec/01 R17): the message that it belongs to, and whether its CRC is right. -/
structure Beat where
  msg   : Nat
  crcOk : Bool
  deriving DecidableEq, Repr

/-- A draw in the raster front end of a die (spec/01 R9; spec/27 R381). -/
structure FrontEnd where
  die  : Nat
  draw : Nat
  deriving DecidableEq, Repr

/-- A firmware image as the boot ROM finds it (spec/01 R24): its bytes, and the public key and signature that stand with
it. -/
structure FwImage where
  bytes : List Byte
  keyX  : BitVec 256
  keyY  : BitVec 256
  sigR  : BitVec 256
  sigS  : BitVec 256
  deriving DecidableEq, Repr

/-- One constructor per row of spec/opcode_table.json, in the table's order. -/
inductive Instr where

  /-- ILLEGAL_INSTRUCTION (R150): A fetched word or word pair that encodes no instruction raises ILLOP, ILLREG, PRIV or PAGE, chosen by the order of R151, and has no effect. -/
  | illegalInstruction (w0 : Word) (why : Reject)
  /-- IADD (R168): Integer add per element, wrapping or saturating. -/
  | iadd (f : LR)
  /-- ISUB (R168): Integer subtract per element, wrapping or saturating. -/
  | isub (f : LR)
  /-- IMUL (R168): Integer multiply per element, giving the low bits or, under HI, the high word. -/
  | imul (f : LR)
  /-- IMAD (R168): Exact integer multiply-add per element, wrapping or saturating. -/
  | imad (f : LR)
  /-- IMIN (R168): Signed or unsigned integer minimum per element. -/
  | imin (f : LR)
  /-- IMAX (R168): Signed or unsigned integer maximum per element. -/
  | imax (f : LR)
  /-- IABS (R168): Integer absolute value per element, register (LR) form. -/
  | iabs (f : LR)
  /-- IABS_LU (R168): Integer absolute value in the one-word LU form, executed as the unguarded 32-bit LR instruction. -/
  | iabsLu (f : LU)
  /-- SHL (R169): Shift left per element by a count taken from b. -/
  | shl (f : LR)
  /-- SHR (R169): Logical shift right per element. -/
  | shr (f : LR)
  /-- SAR (R169): Arithmetic shift right per element. -/
  | sar (f : LR)
  /-- BLUT (R170): Bitwise three-input function through an eight-entry truth table. -/
  | blut (f : LR)
  /-- POPC (R171): Population count, LR form. -/
  | popc (f : LR)
  /-- POPC_LU (R171): Population count, one-word LU form. -/
  | popcLu (f : LU)
  /-- CLZ (R171): Count of leading zeros, LR form. -/
  | clz (f : LR)
  /-- CLZ_LU (R171): Count of leading zeros, one-word LU form. -/
  | clzLu (f : LU)
  /-- BREV (R171): Bit reverse, LR form. -/
  | brev (f : LR)
  /-- BREV_LU (R171): Bit reverse, one-word LU form. -/
  | brevLu (f : LU)
  /-- BFE (R172): Bit-field extract, signed or unsigned. -/
  | bfe (f : LR)
  /-- BFI (R172): Bit-field insert into base c. -/
  | bfi (f : LR)
  /-- SEL (R173): Select a or b by a predicate. -/
  | sel (f : LR)
  /-- ICMP (R174): Integer compare writing a predicate, optionally combined with another predicate. -/
  | icmp (f : LR)
  /-- LEA (R175): Add a shifted operand to b, in 32 or 64 bits. -/
  | lea (f : LR)
  /-- IDOT4 (R176): Four-way 8-bit dot product with a 32-bit addend. -/
  | idot4 (f : LR)
  /-- CLMUL (R177): Carry-less 32-bit multiply, low or high half. -/
  | clmul (f : LR)
  /-- FADD (R179): Floating-point add, rounded once. -/
  | fadd (f : LR)
  /-- FSUB (R179): Floating-point subtract, rounded once. -/
  | fsub (f : LR)
  /-- FMUL (R179): Floating-point multiply, rounded once. -/
  | fmul (f : LR)
  /-- FFMA (R179): Fused floating-point multiply-add, rounded once. -/
  | ffma (f : LR)
  /-- FMIN (R181): Floating-point minimum that returns one operand bit for bit. -/
  | fmin (f : LR)
  /-- FMAX (R181): Floating-point maximum that returns one operand bit for bit. -/
  | fmax (f : LR)
  /-- FCMP (R182): Floating-point compare writing a predicate. -/
  | fcmp (f : LR)
  /-- FCLASS (R183): Writes the 10-bit class mask of a value. -/
  | fclass (f : LR)
  /-- FRND (R184): Round to an integral value in the same format. -/
  | frnd (f : LR)
  /-- FRCP (R185): Correctly rounded reciprocal, LR form. -/
  | frcp (f : LR)
  /-- FRCP_LU (R185): Correctly rounded reciprocal, LU form. -/
  | frcpLu (f : LU)
  /-- FRSQ (R185): Correctly rounded reciprocal square root, LR form. -/
  | frsq (f : LR)
  /-- FRSQ_LU (R185): Correctly rounded reciprocal square root, LU form. -/
  | frsqLu (f : LU)
  /-- FSQRT (R185): Correctly rounded square root, LR form. -/
  | fsqrt (f : LR)
  /-- FSQRT_LU (R185): Correctly rounded square root, LU form. -/
  | fsqrtLu (f : LU)
  /-- FEX2 (R185): Correctly rounded power of two, LR form. -/
  | fex2 (f : LR)
  /-- FEX2_LU (R185): Correctly rounded power of two, LU form. -/
  | fex2Lu (f : LU)
  /-- FLG2 (R185): Correctly rounded base-2 logarithm, LR form. -/
  | flg2 (f : LR)
  /-- FLG2_LU (R185): Correctly rounded base-2 logarithm, LU form. -/
  | flg2Lu (f : LU)
  /-- FSIN (R185): Correctly rounded sine, LR form. -/
  | fsin (f : LR)
  /-- FSIN_LU (R185): Correctly rounded sine, LU form. -/
  | fsinLu (f : LU)
  /-- FCOS (R185): Correctly rounded cosine, LR form. -/
  | fcos (f : LR)
  /-- FCOS_LU (R185): Correctly rounded cosine, LU form. -/
  | fcosLu (f : LU)
  /-- FTANH (R185): Correctly rounded tanh, LR form. -/
  | ftanh (f : LR)
  /-- FTANH_LU (R185): Correctly rounded tanh, LU form. -/
  | ftanhLu (f : LU)
  /-- FSGM (R185): Correctly rounded sigmoid, LR form. -/
  | fsgm (f : LR)
  /-- FSGM_LU (R185): Correctly rounded sigmoid, LU form. -/
  | fsgmLu (f : LU)
  /-- CVT (R187): Converts a group of 1, 2 or 4 elements between formats. -/
  | cvt (f : LR)
  /-- CVTN (R190): Packs FP32 sources into one narrow destination register. -/
  | cvtn (f : LR)
  /-- BLKPACK (R192): Packs lane values into a QB or MXFP4 block across lanes. -/
  | blkpack (f : LR)
  /-- BLKUNPK (R194): Unpacks a QB or MXFP4 block into FP32 lane values. -/
  | blkunpk (f : LR)
  /-- SHFL (R197): Shuffles values within a tile by IDX, UP, DOWN or XOR. -/
  | shfl (f : LR)
  /-- VOTE (R198): Tile vote: ALL, ANY, UNI or BALLOT. -/
  | vote (f : LR)
  /-- MATCH (R199): Compares keys across a tile as bit patterns. -/
  | matchLanes (f : LR)
  /-- REDUX (R200): Reduction over a tile, with a fixed tree for FADD. -/
  | redux (f : LR)
  /-- SCAN (R201): Inclusive or exclusive prefix combination over a tile. -/
  | scan (f : LR)
  /-- RDLANE (R202): Reads one named lane into a uniform register of every slice of the split. -/
  | rdlane (f : LR)
  /-- BCAST (R203): Broadcasts the lowest or highest participating lane of each tile. -/
  | bcast (f : LR)
  /-- MOV (R204): Register move, LU sub-op 0. -/
  | mov (f : LU)
  /-- MOV_UNIFORM (R204): Moves a uniform register of the lane's slice into a vector register, LU sub-op 1. -/
  | movUniform (f : LU)
  /-- MOV_B64 (R204): Moves a register pair, LU sub-op 2. -/
  | movB64 (f : LU)
  /-- MOV_IMM (R204): Guarded move of a 32-bit immediate, LI form. -/
  | movImm (f : LI)
  /-- S2V (R205): Reads a special register into a vector register. -/
  | s2v (f : LU)
  /-- PLOP (R206): Three-input predicate logic through a truth table. -/
  | plop (f : LR)
  /-- PMOV_GET (R207): Copies p0 to p6 into a vector register. -/
  | pmovGet (f : LR)
  /-- PMOV_SET (R207): Sets p0 to p6 from a vector register. -/
  | pmovSet (f : LR)
  /-- RNG (R209): Draws counter-based random words and advances RNGCTR once. -/
  | rng (f : LR)
  /-- LD (R255): Global load per participating lane. -/
  | ld (f : LM)
  /-- ST (R255): Global store per participating lane. -/
  | st (f : LM)
  /-- LDS (R255): Scratchpad load per participating lane. -/
  | lds (f : LM)
  /-- STS (R255): Scratchpad store per participating lane. -/
  | sts (f : LM)
  /-- ATOM (R260): Atomic read-modify-write that returns the old value; it commits the team. -/
  | atom (f : LM)
  /-- RED (R260): Reduction at memory with no result; it commits the team. -/
  | red (f : LM)
  /-- PREF (R257): Prefetches a line; it never faults. -/
  | pref (f : LM)
  /-- TEX (R386): Filtered texture sample. -/
  | tex (f : LR)
  /-- TFETCH (R386): Unfiltered texel fetch at an integer position. -/
  | tfetch (f : LR)
  /-- RAYQ (R391): Starts one ray traversal per participating lane. -/
  | rayq (f : LR)
  /-- RAYCONT (R391): Accepts or rejects a candidate hit and resumes traversal. -/
  | raycont (f : LR)
  /-- RAYGET (R391): Waits for the ray to stop, then writes its record. -/
  | rayget (f : LR)
  /-- NCALL (R336): Issues one neural-call row per participating lane to the regroup unit. -/
  | ncall (f : LR)
  /-- RGDISP (R344): Groups lanes by key and appends rows to per-key lists at memory. -/
  | rgdisp (f : LR)
  /-- BRX (R225): Per-lane conditional branch with a reconvergence address. -/
  | brx (f : LB)
  /-- JTABX (R226): Per-lane indirect branch through a branch-target table. -/
  | jtabx (f : LB)
  /-- RETX (R227): Branches each slice to the code address held in its lanes' registers. -/
  | retx (f : LU)
  /-- DISCARD_LU (R228): Kills every participating pixel lane. -/
  | discardLu
  /-- DISCARD (R228): Kills the participating pixel lanes whose guard is true, LR form. -/
  | discard (f : LR)
  /-- SADD (R212): Scalar add, one-word form. -/
  | sadd (f : UR)
  /-- SADD_IMM (R212): Scalar add with a 32-bit immediate. -/
  | saddImm (f : UI)
  /-- SSUB (R212): Scalar subtract, one-word form. -/
  | ssub (f : UR)
  /-- SSUB_IMM (R212): Scalar subtract with an immediate. -/
  | ssubImm (f : UI)
  /-- SMUL (R212): Scalar multiply giving the low 32 bits, one-word form. -/
  | smul (f : UR)
  /-- SMUL_IMM (R212): Scalar multiply with an immediate. -/
  | smulImm (f : UI)
  /-- SMAD (R212): Scalar multiply-add into sd, one-word form. -/
  | smad (f : UR)
  /-- SMAD_IMM (R212): Scalar multiply-add with an immediate. -/
  | smadImm (f : UI)
  /-- SMIN (R212): Scalar signed minimum, one-word form. -/
  | smin (f : UR)
  /-- SMIN_IMM (R212): Scalar signed minimum with an immediate. -/
  | sminImm (f : UI)
  /-- SMAX (R212): Scalar signed maximum, one-word form. -/
  | smax (f : UR)
  /-- SMAX_IMM (R212): Scalar signed maximum with an immediate. -/
  | smaxImm (f : UI)
  /-- SSHL (R212): Scalar shift left, one-word form. -/
  | sshl (f : UR)
  /-- SSHL_IMM (R212): Scalar shift left by an immediate. -/
  | sshlImm (f : UI)
  /-- SSHR (R212): Scalar logical shift right, one-word form. -/
  | sshr (f : UR)
  /-- SSHR_IMM (R212): Scalar logical shift right by an immediate. -/
  | sshrImm (f : UI)
  /-- SSAR (R212): Scalar arithmetic shift right, one-word form. -/
  | ssar (f : UR)
  /-- SSAR_IMM (R212): Scalar arithmetic shift right by an immediate. -/
  | ssarImm (f : UI)
  /-- SBLUT (R213): Two-input scalar bitwise truth table, one-word form. -/
  | sblut (f : UR)
  /-- SBLUT_IMM (R213): Two-input scalar bitwise truth table given as an immediate. -/
  | sblutImm (f : UI)
  /-- SPOPC (R212): Scalar population count of b, one-word form. -/
  | spopc (f : UR)
  /-- SPOPC_IMM (R212): Scalar population count of an immediate. -/
  | spopcImm (f : UI)
  /-- SCLZ (R212): Scalar count of leading zeros of b, one-word form. -/
  | sclz (f : UR)
  /-- SCLZ_IMM (R212): Scalar count of leading zeros of an immediate. -/
  | sclzImm (f : UI)
  /-- SBFE (R212): Scalar bit-field extract, one-word form. -/
  | sbfe (f : UR)
  /-- SBFE_IMM (R212): Scalar bit-field extract with an immediate control. -/
  | sbfeImm (f : UI)
  /-- SBFI (R212): Scalar bit-field insert, one-word form. -/
  | sbfi (f : UR)
  /-- SBFI_IMM (R212): Scalar bit-field insert with an immediate control. -/
  | sbfiImm (f : UI)
  /-- SSEL (R212): Conditional scalar move, one-word form. -/
  | ssel (f : UR)
  /-- SSEL_IMM (R212): Conditional scalar move with an immediate condition. -/
  | sselImm (f : UI)
  /-- SCMP (R214): Scalar compare writing a uniform predicate, one-word form. -/
  | scmp (f : UR)
  /-- SCMP_IMM (R214): Scalar compare against an immediate. -/
  | scmpImm (f : UI)
  /-- SLEA (R212): 64-bit scalar address add, one-word form. -/
  | slea (f : UR)
  /-- SLEA_IMM (R212): 64-bit scalar address add of a sign-extended immediate. -/
  | sleaImm (f : UI)
  /-- SMOV (R212): Scalar move, one-word form. -/
  | smov (f : UR)
  /-- SMOV_IMM (R212): Scalar move of an immediate. -/
  | smovImm (f : UI)
  /-- SFADD (R215): Scalar FP32 add, one-word form. -/
  | sfadd (f : UR)
  /-- SFADD_IMM (R215): Scalar FP32 add of an immediate bit pattern. -/
  | sfaddImm (f : UI)
  /-- SFMUL (R215): Scalar FP32 multiply, one-word form. -/
  | sfmul (f : UR)
  /-- SFMUL_IMM (R215): Scalar FP32 multiply by an immediate. -/
  | sfmulImm (f : UI)
  /-- SFFMA (R215): Scalar FP32 fused multiply-add into sd, one-word form. -/
  | sffma (f : UR)
  /-- SFFMA_IMM (R215): Scalar FP32 fused multiply-add with an immediate. -/
  | sffmaImm (f : UI)
  /-- SCVT (R216): Scalar conversion with its control taken from a register. -/
  | scvt (f : UR)
  /-- SCVT_IMM (R216): Scalar conversion with an immediate control word. -/
  | scvtImm (f : UI)
  /-- SLD (R263): Uniform load through the global, constant or scratchpad path. -/
  | sld (f : UE)
  /-- SST (R263): Uniform store. -/
  | sst (f : UE)
  /-- SATOM (R263): Uniform atomic, with or without a result; it commits the team. -/
  | satom (f : UE)
  /-- NOP (R149): Changes nothing but the program counter and the retired count. -/
  | nop (f : UR)
  /-- BRA (R218): Uniform branch of the whole split. -/
  | bra (f : UB)
  /-- CALL (R219): Pushes the return address in every slice, then branches. -/
  | call (f : UB)
  /-- RET (R219): Pops each slice's return stack and continues there. -/
  | ret (f : UR)
  /-- JTAB (R220): Uniform branch through a branch-target table. -/
  | jtab (f : UI)
  /-- REGANG (R39): Joins the fuse group of the split's warp, address and parent. -/
  | regang (f : UI)
  /-- EXIT (R223): Kills the active lanes of each slice of the split. -/
  | exit (f : UR)
  /-- DBNZ (R221): Decrements a uniform counter and branches while it is nonzero. -/
  | dbnz (f : UI)
  /-- WAIT (R229): Waits until the named outstanding-operation counters reach their limits. -/
  | wait (f : UW)
  /-- WAITC (R231): Waits, up to a time limit, on barrier, pipe, token or memory conditions. -/
  | waitc (f : UE)
  /-- BARI (R234): Initialises a named barrier's membership, one-word form. -/
  | bari (f : UR)
  /-- BARI_IMM (R234): Initialises a named barrier given by an immediate. -/
  | bariImm (f : UI)
  /-- BARA (R234): Arrives at a barrier and returns the phase, one-word form. -/
  | bara (f : UR)
  /-- BARA_IMM (R234): Arrives at a barrier given by an immediate. -/
  | baraImm (f : UI)
  /-- BARW (R234): Waits until the barrier phase differs from sa, one-word form. -/
  | barw (f : UR)
  /-- BARW_IMM (R234): Waits on a barrier given by an immediate. -/
  | barwImm (f : UI)
  /-- BARS (R234): Arrives, then waits for the phase to complete, one-word form. -/
  | bars (f : UR)
  /-- BARS_IMM (R234): Arrives and waits at a barrier given by an immediate. -/
  | barsImm (f : UI)
  /-- BARD (R234): Arrives at a barrier and leaves it, one-word form. -/
  | bard (f : UR)
  /-- BARD_IMM (R234): Arrives and leaves at a barrier given by an immediate. -/
  | bardImm (f : UI)
  /-- FENCE (R236): Cumulative memory fence at a scope and order. -/
  | fence (f : UR)
  /-- SRD (R237): Reads a special register into a uniform register. -/
  | srd (f : UR)
  /-- SWR (R237): Writes a special register. -/
  | swr (f : UR)
  /-- SETPART (R238): Sets the partition width PART, one-word form. -/
  | setpart (f : UR)
  /-- SETPART_IMM (R238): Sets the partition width PART from an immediate. -/
  | setpartImm (f : UI)
  /-- SETBOUND (R239): Sets the warp's VBOUND, one-word form. -/
  | setbound (f : UR)
  /-- SETBOUND_IMM (R239): Sets the warp's VBOUND from an immediate. -/
  | setboundImm (f : UI)
  /-- RNGSEED (R240): Sets the random key and clears RNGCTR in every slice. -/
  | rngseed (f : UR)
  /-- MLOOP (R287): Queues a multi-step matrix multiply-accumulate into a tile. -/
  | mloop (f : UE)
  /-- MCLR (R289): Queues clearing of a tile, optionally freeing it. -/
  | mclr (f : UE)
  /-- MANCHOR (R290): Queues a change of a tile's anchor, rescaling N. -/
  | manchor (f : UE)
  /-- MROUND (R293): Queues conversion of tile rows into vector registers. -/
  | mround (f : UE)
  /-- MLOADA (R291): Queues loading or adding vector data into tile rows. -/
  | mloada (f : UE)
  /-- MBATCH (R294): Closes the warp's open matrix batch. -/
  | mbatch (f : UE)
  /-- MXFORM (R288): Queues a transpose, permute or reduce step into a tile. -/
  | mxform (f : UE)
  /-- MESC (R295): Sets the warp's A and B stream descriptors. -/
  | mesc (f : UE)
  /-- MSTAT (R296): Queues reading a tile's saturation or NaN count. -/
  | mstat (f : UE)
  /-- CPY (R266): Queues a strided 2-D copy on a copy engine. -/
  | cpy (f : UE)
  /-- CPYG (R268): Queues a gather copy from global memory into scratchpad. -/
  | cpyg (f : UE)
  /-- CPYX (R268): Queues a transposing copy of elements. -/
  | cpyx (f : UE)
  /-- TSPAWN (R311): Copies a launch record into the context's spawn ring. -/
  | tspawn (f : UE)
  /-- TNOTIFY (R311): Decrements a dependence counter. -/
  | tnotify (f : UE)
  /-- PRSV (R317): Reserves the next free slot of a named pipe. -/
  | prsv (f : UE)
  /-- PPUT (R317): Publishes a reserved pipe slot as FULL. -/
  | pput (f : UE)
  /-- PGET (R317): Takes the next full slot of a named pipe. -/
  | pget (f : UE)
  /-- PREL (R317): Releases a taken pipe slot to FREE. -/
  | prel (f : UE)
  /-- TWTAG (R348): Allocates a Twill tag from the context's pool. -/
  | twtag (f : UE)
  /-- TWFREE (R348): Frees a Twill tag and advances its generation. -/
  | twfree (f : UE)
  /-- TWSEND (R351): Sends a 1 KiB tile to a Twill meeting; it commits the team. -/
  | twsend (f : UE)
  /-- TWRECV (R352): Registers a landing for a Twill tag. -/
  | twrecv (f : UE)
  /-- TWRECV_ST (R353): Reads the status of a Twill send or landing token. -/
  | twrecvSt (f : UE)
  /-- MBPUT (R375): Sends an action to a mailbox pair; it commits the team. -/
  | mbput (f : UE)
  /-- MBGET (R375): Registers a landing for the pair's next observation; it commits the team. -/
  | mbget (f : UE)
  /-- MBSTAT (R376): Reads a mailbox token's status or a pair's state. -/
  | mbstat (f : UE)
  /-- WPREF (R334): Loads a weight-set version into the cluster's weight cache. -/
  | wpref (f : UE)
  /-- WPIN (R334): Loads and pins a weight-set version. -/
  | wpin (f : UE)
  /-- WUNPIN (R334): Removes this instance's pin of a version. -/
  | wunpin (f : UE)
  /-- WVER (R335): Publishes a new version of a weight set; it commits the team. -/
  | wver (f : UE)
  /-- NFLUSH (R334): Dispatches every open bin of the cluster's regroup unit. -/
  | nflush (f : UE)
  /-- TRAP (R242): Retires, then enters the trap handler with TRAPCODE 0. -/
  | trap (f : UI)
  /-- BKPT (R243): Halts the team under a debugger, or else raises fault BKPT. -/
  | bkpt (f : UR)
  /-- MARK (R244): Appends a block identifier to the trace while tracing is on. -/
  | mark (f : UI)
  /-- SNAP (R244): Asserts the snapshot trigger while snapshots are armed. -/
  | snap (f : UR)
  /-- TRET (R245): Ends trap handlers and resumes each slice at its resume address. -/
  | tret (f : UR)
  /-- COMMIT (R246): Turns a flush team into a drain team. -/
  | commit (f : UR)
  /-- REGANG_TIMEOUT (R39): When a fuse group's wait in issue cycles expires, the group is released with the slices present. -/
  | regangTimeout (team warp : Nat) (pc : Addr) (parent : Nat)
  /-- WAITC_REREAD (R231): A waiting WAITC re-reads its memory conditions and retires if its mode is satisfied. -/
  | waitcReread (x : Sel)
  /-- WAITC_EXPIRY (R231): When a WAITC's time limit expires, it writes false or raises TIMEOUT. -/
  | waitcExpiry (x : Sel)
  /-- LOAD_COMPLETE (R252): Load or atomic data arrives in the destination registers and the LD counter falls. -/
  | loadComplete (id : Nat)
  /-- STORE_COMPLETE (R252): A store or reduction is performed and the ST counter falls. -/
  | storeComplete (id : Nat)
  /-- ATOMIC_AT_MEMORY (R260): An atomic or reduction executes as one step at its place of execution. -/
  | atomicAtMemory (id : Nat)
  /-- L1_WRITEBACK (R99): L1 writes back dirty bytes with their mask at a time of its choosing. -/
  | l1Writeback (core line : Nat)
  /-- XBAR_REQUEST (R13): A request is accepted at a crossbar port and arbitrated at its slice column. -/
  | xbarRequest (die port : Nat) (line : Nat)
  /-- L2_FILL_COMPLETE (R14): When a line fill completes, its wake-up tag fires. -/
  | l2FillComplete (die slice line : Nat)
  /-- COLUMN_POWER_DOWN (R15): A slice column that has been idle for 64 clocks powers down. -/
  | columnPowerDown (die slice : Nat)
  /-- COLUMN_POWER_UP_COMPLETE (R15): A woken column finishes its 8-clock power-up and arbitrates. -/
  | columnPowerUpComplete (die slice : Nat)
  /-- D2D_BEAT_RECEIVE (R17): A die-to-die beat arrives and is CRC-checked, with a link-layer retry on failure. -/
  | d2dBeatReceive (src dst : Nat) (beat : Beat)
  /-- CXL_MEM_ACCESS (R126): A host CXL.mem access is performed at the home slice as a relaxed system-scope access. -/
  | cxlMemAccess (a : HostAccess)
  /-- PEER_ACCESS (R126): An access from a peer module arrives over Murus and is performed at the home slice. -/
  | peerAccess (a : PeerReq)
  /-- MURUS_LINK_CHANGE (R23): A Murus link goes up or down, changing the port choice for peers. -/
  | murusLinkChange (link : Nat) (up : Bool)
  /-- COPY_COMPLETE (R266): A copy's last write is performed; invalidation follows, its locks are freed, CP falls and the token completes. -/
  | copyComplete (id : Nat)
  /-- COPY_ENGINE_FAULT (R267): A copy access meets a missing or refused page and the copy waits, discards or ends with error. -/
  | copyEngineFault (id : Nat)
  /-- MATRIX_STEP (R287): The sequencer runs one step of a queued matrix operation. -/
  | matrixStep (core : Nat)
  /-- TEXTURE_COMPLETE (R387): A texture read returns its result, or NaN with ILLOP for a bad descriptor. -/
  | textureComplete (id : Nat)
  /-- RAY_STOP (R389): A ray traversal stops as MISS, HIT, CANDIDATE or ERROR. -/
  | rayStop (id : Nat)
  /-- RGDISP_COMPLETE (R344): All positions and row writes of an RGDISP are performed and LD falls. -/
  | rgdispComplete (id : Nat)
  /-- NCALL_ACCEPT (R338): The regroup unit accepts one NCALL per clock once it has row places for it. -/
  | ncallAccept (cluster : Nat)
  /-- ROW_PLACE (R339): The unit resolves a row's handle and places the row in a bin. -/
  | rowPlace (cluster : Nat)
  /-- BIN_AGE_DISPATCH (R340): A bin whose oldest row has waited 256 clocks dispatches. -/
  | binAgeDispatch (cluster : Nat)
  /-- BIN_STALL_DISPATCH (R340): Bins dispatch when every calling warp is stalled on NTOK. -/
  | binStallDispatch (cluster : Nat)
  /-- WEIGHT_VERSION_LOAD (R341): A weight-set version finishes loading into the weight cache. -/
  | weightVersionLoad (cluster ctx set ver : Nat)
  /-- TILE_COMPLETE (R331): A regroup tile finishes and each row's outputs are written to its caller. -/
  | tileComplete (cluster : Nat)
  /-- TWILL_ARRIVAL (R354): A router takes a tile arrival and creates, combines, mismatches or refuses a meeting. -/
  | twillArrival (id : Nat)
  /-- TWILL_SEND_RETRY (R354): A refused sender's port retries after 16 clocks. -/
  | twillSendRetry (id : Nat)
  /-- TWILL_DELIVERY (R356): A combined tile is written into the matching landing and the token completes. -/
  | twillDelivery (router : Nat) (ctx : Nat) (tag : Word)
  /-- TWILL_DELIVERY_RETRY (R356): A refused delivery is retried every 64 clocks. -/
  | twillDeliveryRetry (router : Nat) (ctx : Nat) (tag : Word)
  /-- TWILL_ORPHAN (R357): A meeting not finished within TWORPH ticks is orphaned and its tag poisoned. -/
  | twillOrphan (router : Nat) (ctx : Nat) (tag : Word)
  /-- TWILL_LANDING_TIMEOUT (R357): A landing that has waited TWORPH ticks completes with status 4. -/
  | twillLandingTimeout (id : Nat)
  /-- QTAIL_WRITE (R20): A host write to QTAIL is accepted, or rejected with a QERR bit set. -/
  | qtailWrite (c p : Nat) (v : BitVec 64)
  /-- QUEUE_RECONFIGURE (R21): A write to QBASE or QSIZE takes effect only while the queue is idle, else it sets QERR. -/
  | queueReconfigure (c p : Nat) (isBase : Bool) (v : BitVec 64)
  /-- TAKE_LAUNCH_RECORD (R300): The serving unit takes one host or spawned record, validates it and parks it or makes it ready. -/
  | takeLaunchRecord (die : Nat)
  /-- PARKED_RECORD_READY (R308): A parked record becomes ready in the clock after its counter reaches 0. -/
  | parkedRecordReady (id : Nat)
  /-- SEND_TASK (R301): The unit sends one ready task to the cluster scheduler with a free slot. -/
  | sendTask (die : Nat)
  /-- PLACE_TASK (R312): A cluster scheduler places a task, reserves its scratchpad and queues its input copies. -/
  | placeTask (cluster : Nat)
  /-- STAGING_COPY_FAULT (R417): A staging copy that meets a missing or refused page abandons the staging or kills the task. -/
  | stagingCopyFault (task : Nat)
  /-- GANG_START (R313): A staged gang's teams start together once their inputs and resources are ready. -/
  | gangStart (task : Nat)
  /-- STEAL_REQUEST (R315): An idle scheduler sends a steal request to the next cluster in the ring. -/
  | stealRequest (cluster : Nat)
  /-- STEAL_REQUEST_ARRIVAL (R315): A cluster ships unplaced tasks to the requester or passes the request on. -/
  | stealRequestArrival (cluster : Nat)
  /-- TEAM_EXIT (R59): A team whose warps have died and whose operations have completed exits and releases its resources. -/
  | teamExit (team : Nat)
  /-- WARP_BUDGET_RETURN (R57): A dead warp's register budget returns once its asynchronous results have landed or been dropped. -/
  | warpBudgetReturn (team warp : Nat)
  /-- PRIORITY_PREEMPT (R416): A priority-3 task unplaced for 10,000 ticks pre-empts flush gangs of lower priority. -/
  | priorityPreempt (task : Nat)
  /-- PREEMPT_DRAIN_EXPIRY (R324): A drain gang not exited DRAINB ticks after pre-emption is killed with a DRAINKILL record. -/
  | preemptDrainExpiry (gang : Nat)
  /-- CTXCTL_HOLD (R416): Setting HOLD stops placement of the context's tasks and pre-empts its gangs; clearing it resumes placement. -/
  | ctxctlHold (c : Nat) (on : Bool)
  /-- CTXCTL_KILL (R416): Kills every resident gang of the context and ends its live episodes. -/
  | ctxctlKill (c : Nat)
  /-- CTXCTL_KILL_DONE (R416): KILL clears itself once every removal is done and every record written. -/
  | ctxctlKillDone (c : Nat)
  /-- DEFERRED_FAULT_TAKE (R398): At an instruction boundary a split takes one held deferred fault. -/
  | deferredFaultTake (x : Sel)
  /-- TEAM_WATCHDOG (R397): A team resident for TEAMWD ticks receives WATCHDOG in every split. -/
  | teamWatchdog (team : Nat)
  /-- FAULT_DRAIN_EXPIRY (R397): A team that took GANGKILL or WATCHDOG and has not exited in DRAINB ticks is removed. -/
  | faultDrainExpiry (team : Nat)
  /-- PAGE_WALK_COMPLETE (R399): A page walk ends with a page, a bad entry or a not-present result. -/
  | pageWalkComplete (id : Nat)
  /-- PGRESP_RETRY (R400): A VERDICT 0 answer retries every requester waiting on the request. -/
  | pgrespRetry (c : Nat) (seq : Word)
  /-- PGRESP_REFUSE_PAGE (R400): A VERDICT 1 answer refuses the request with PAGE. -/
  | pgrespRefusePage (c : Nat) (seq : Word)
  /-- PGRESP_REFUSE_PROT (R400): A VERDICT 2 answer refuses the request with PROT. -/
  | pgrespRefuseProt (c : Nat) (seq : Word)
  /-- TLBINV_PAGE (R402): Invalidates translations of one 64 KiB page. -/
  | tlbinvPage (c : Nat) (va : Addr)
  /-- TLBINV_2M (R402): Invalidates translations of a 2 MiB region. -/
  | tlbinv2m (c : Nat) (va : Addr)
  /-- TLBINV_1G (R402): Invalidates translations of a 1 GiB region. -/
  | tlbinv1g (c : Nat) (va : Addr)
  /-- TLBINV_ALL (R402): Invalidates every translation of the context. -/
  | tlbinvAll (c : Nat)
  /-- TLBINV_DONE (R402): An invalidation ends and BUSY clears. -/
  | tlbinvDone (c : Nat)
  /-- ECC_CORRECTED (R404): A corrected error raises CECNT. -/
  | eccCorrected
  /-- ECC_UNCORRECTABLE (R404): An uncorrectable error refetches, discards, kills or poisons data by where it lies. -/
  | eccUncorrectable (w : EccSite)
  /-- BREAKPOINT_HIT (R406): A split reaches an enabled breakpoint address and its team halts. -/
  | breakpointHit (x : Sel)
  /-- DBG_HALT (R406): Debug command 1 halts the named team. -/
  | dbgHalt (c : Nat)
  /-- DBG_RESUME (R406): Debug command 2 resumes every split of the team. -/
  | dbgResume (c : Nat)
  /-- DBG_STEP (R406): Debug command 3 issues one instruction of the named split. -/
  | dbgStep (c : Nat)
  /-- DBG_STOP (R407): Debug command 4 stops the team at a named position, by rollback or by running on. -/
  | dbgStop (c : Nat) (region : Bool) (target : Word)
  /-- DBG_KILL (R406): Debug command 5 kills the named team. -/
  | dbgKill (c : Nat)
  /-- DBG_HALTALL (R406): Setting HALTALL halts the context's teams. -/
  | dbgHaltall (c : Nat) (on : Bool)
  /-- STATE_WINDOW_WRITE (R408): A host write to halted state changes the named warp's registers or slice state. -/
  | stateWindowWrite (c off : Nat) (v : Word)
  /-- SAMPLE_TAKE (R409): At each sample interval a core writes a sample trace record. -/
  | sampleTake (core : Nat)
  /-- RECORD_CHUNK_LIMIT (R413): A chunk ends at 65,536 retired instructions and is logged. -/
  | recordChunkLimit (team : Nat)
  /-- SNAPSHOT_EXTERNAL_TRIGGER (R411): The external trigger input latches the snapshot registers while armed. -/
  | snapshotExternalTrigger
  /-- POWER_ON (R24): The boot ROM starts verifying the firmware image. -/
  | powerOn
  /-- FIRMWARE_VERIFY_COMPLETE (R25): Verification ends, the module leaves recovery or stays in it, and FWSTATE is set. -/
  | firmwareVerifyComplete (image : Option FwImage) (svn : BitVec 16)
  /-- FW_ATTEST (R27): Firmware mailbox command 0x01 requests a signed attestation report. -/
  | fwAttest (tag : Byte)
  /-- FW_IDKEY (R27): Firmware mailbox command 0x02 returns the public identity key. -/
  | fwIdkey (tag : Byte)
  /-- FWM_UNKNOWN_COMMAND (R27): An unknown mailbox command ends with result 1. -/
  | fwmUnknownCommand (tag cmd : Byte)
  /-- FWM_COMMAND_COMPLETE (R27): Firmware writes the output, TAG and result, then clears BUSY. -/
  | fwmCommandComplete
  /-- PWR_REQ_M0 (R29): Requests the active state M0. -/
  | pwrReqM0
  /-- PWR_REQ_M1 (R29): Requests M1, refused while the context has live work. -/
  | pwrReqM1
  /-- PWR_REQ_M2 (R29): Requests M2, refused while the context has live work. -/
  | pwrReqM2
  /-- PWR_REQ_M3 (R29): Requests M3, refused while the context has live work. -/
  | pwrReqM3
  /-- POWER_WAKE (R29): A Murus arrival or CXL.mem access wakes the module toward M0. -/
  | powerWake
  /-- POWER_EXIT_COMPLETE (R29): The exit to M0 completes after the time its state gives. -/
  | powerExitComplete
  /-- THROTTLE_LIMIT_CHANGE (R30): A power, thermal, current or external limit is exceeded or met again. -/
  | throttleLimitChange (limits : BitVec 4)
  /-- THROTTLE_STEP (R30): Every 10 ticks the core clock moves one 100 MHz step. -/
  | throttleStep
  /-- TWTAGS_WRITE (R348): A write to TWTAGS or TWTBASE resets the tag rotor. -/
  | twtagsWrite (c : Nat) (isBase : Bool) (v : BitVec 64)
  /-- EPQTAIL_WRITE (R362): A host write to EPQTAIL is accepted or rejected under the queue rules. -/
  | epqtailWrite (c : Nat) (v : Word)
  /-- EPISODE_CREATE (R364): The supervisor takes an episode descriptor and creates or refuses the episode. -/
  | episodeCreate (c : Nat)
  /-- EPKILL (R371): Ends the named episode with CLOSED. -/
  | epkill (c : Nat) (v : Word)
  /-- EPISODE_TIMESLICE (R365): A 1,000-tick time slice expires and the supervisor switches episodes. -/
  | episodeTimeslice (die core : Nat)
  /-- EPISODE_TICK_BUDGET_EXPIRY (R366): The tick budget runs out and the episode ends with TIMEOUT. -/
  | episodeTickBudgetExpiry (pair : Nat)
  /-- EPISODE_INSTR_BUDGET_EXPIRY (R366): The instruction budget runs out and the episode ends with TIMEOUT. -/
  | episodeInstrBudgetExpiry (pair : Nat)
  /-- EP_OBS_POST (R367): An environment posts an observation. -/
  | epObsPost (pair : Nat) (payload len : BitVec 64) (status : BitVec 64)
  /-- EP_ACT_WAIT (R367): An environment blocks until an action is accepted, then copies it. -/
  | epActWait (pair : Nat) (buf cap : BitVec 64)
  /-- EP_REWARD (R367): A reward check records its reward value. -/
  | epReward (pair : Nat) (v : BitVec 64)
  /-- EP_BUDGET (R367): Returns the episode's remaining budgets. -/
  | epBudget (pair : Nat)
  /-- EP_LOGVER (R367): Returns the policy version of the last accepted action. -/
  | epLogver (pair : Nat)
  /-- EPISODE_FAULT (R367): An invalid ecall, an illegal instruction or an access fault ends the episode with ENVFAULT. -/
  | episodeFault (pair : Nat)
  /-- MAILBOX_ACTION_ARRIVAL (R370): An MBPUT action reaches its pair and is accepted or refused by state. -/
  | mailboxActionArrival (id : Nat)
  /-- MAILBOX_GET_ARRIVAL (R370): An MBGET reaches its pair and is delivered, held or refused. -/
  | mailboxGetArrival (id : Nat)
  /-- PAIR_RELEASE (R370): An ENDED pair returns to FREE after 1,000 ticks. -/
  | pairRelease (pair : Nat)
  /-- DRAW_SUBMIT (R379): A draw is taken with its descriptor, or refused with a fault-queue record. -/
  | drawSubmit (c : Nat) (desc : Addr)
  /-- PRIMITIVE_RASTERISE (R381): The front end clips, snaps and rasterises a triangle and starts pixel teams. -/
  | primitiveRasterise (front : FrontEnd) (prim : Nat)
  /-- PIXEL_EXPORT_APPLY (R383): The back end applies a pixel's depth test and blend once earlier primitives are done. -/
  | pixelExportApply (cluster : Nat)
  /-- REGISTER_WRITE (R6): A write to a register with no behaviour of its own stores the value, ignoring reserved bits. -/
  | registerWrite (off : Nat) (size : Nat) (v : BitVec 64)
  /-- SORGHUM_INSTRUCTION (R361): A Sorghum core retires one user-mode RISC-V instruction of an episode, performing its strong device-scope access and counting toward the instruction budget. -/
  | sorghumInstruction (pair core : Nat)
  /-- DIAGNOSTIC_MODE_CHANGE (R114): Firmware enters or leaves diagnostic mode, enabling or disabling L1 forwarding between the cores of a cluster. -/
  | diagnosticModeChange (on : Bool)
  /-- ABANDONED_OPERATION_STOPPED (R119): An engine finishes abandoning an asynchronous operation of a discarded or killed team instance and makes no further write; its range-lock entries are then freed, and the restart that waits on it may go ahead. -/
  | abandonedOperationStopped (id : Nat)
  deriving DecidableEq, Repr

end Sys2Proof
end

