-- ==== Sys2Proof/WellFormed.lean ====
section
/-!
DEFINITION. When the fields of an instruction are legal: the ILLOP cases of spec/09 R150 that the words alone decide.
Instr.wf0 looks at the fields of word 0 only (spec/09 R151 step 2), Instr.wf1 at the rest (step 4). The ILLREG and PRIV
cases depend on the machine and belong to the meanings.
-/

namespace Sys2Proof

/-! ## Pieces of the formats -/

/-- The reserved pairing of guard 7 with its negation (spec/09 R140). -/
def guardOk (g : BitVec 3) (n : BitVec 1) : Bool := !(g == 7 && n == 1)

/-- A predicate field of eight bits: bits [7:3] zero (spec/09 R142). -/
def predField (x : BitVec 8) : Bool := x.extractLsb' 3 5 == 0

/-- A predicate with its negation in bit 3: bits [7:4] zero (spec/11 R173). -/
def predNegField (x : BitVec 8) : Bool := x.extractLsb' 4 4 == 0

def LR.guardOk (f : LR) : Bool := Sys2Proof.guardOk f.g f.gn
def LM.guardOk (f : LM) : Bool := Sys2Proof.guardOk f.g f.gn

def LR.m7 (f : LR) : Bool := f.m.getLsbD 7
def LR.m6 (f : LR) : Bool := f.m.getLsbD 6
def LR.rnd (f : LR) : BitVec 3 := f.m.extractLsb' 3 3
def LR.sat (f : LR) : Bool := f.m.getLsbD 2
def LR.hi (f : LR) : Bool := f.m.getLsbD 1
def LR.uns (f : LR) : Bool := f.m.getLsbD 0

/-- The marking v/s/i of operand b (spec/11 R162). -/
def LR.bAny (f : LR) : Bool := !(f.m7 && f.m6) && (!f.m7 || f.vb.extractLsb' 6 2 == 0)
/-- The marking v/s. -/
def LR.bReg (f : LR) : Bool := !f.m6 && (!f.m7 || f.vb.extractLsb' 6 2 == 0)
/-- The marking s/i. -/
def LR.bScalar (f : LR) : Bool := (f.m7 != f.m6) && (!f.m7 || f.vb.extractLsb' 6 2 == 0)
/-- The marking unused. -/
def LR.bNone (f : LR) : Bool := f.vb == 0 && !f.m7 && !f.m6

/-- The bits of M[5:0] outside `mask` are zero (spec/11 R163). -/
def LR.mOnly (f : LR) (mask : BitVec 8) : Bool := f.m &&& 0x3F#8 &&& ~~~mask == 0

def LR.wIn (f : LR) (ws : List (BitVec 2)) : Bool := ws.contains f.w

/-- A RND field that the instruction accepts: 0 to 4, and 5 (EF) where listed (spec/11 R163). -/
def rndOk (r : BitVec 3) (ef : Bool) : Bool := r.toNat ≤ 4 || (ef && r == 5)

/-- B must be 0 when W is not 01 (spec/11 R163). -/
def LR.bfOk (f : LR) : Bool := !f.uns || f.w == 1

/-! ## Formats (spec/05 R62) -/

/-- The formats of CVT, SCVT, MROUND and MLOADA: codes 0 to 4 and 9 to 12. -/
def cvtFormat (c : BitVec 4) : Bool := c.toNat ≤ 4 || (9 ≤ c.toNat && c.toNat ≤ 12)

def isIntFormat (c : BitVec 4) : Bool := 9 ≤ c.toNat && c.toNat ≤ 12

/-- Bits of an element of the formats 0 to 4 and 9 to 12. -/
def formatWidth (c : BitVec 4) : Nat :=
  match c.toNat with
  | 0 => 32 | 1 => 16 | 2 => 16 | 3 => 8 | 4 => 8 | 9 => 8 | 10 => 8 | 11 => 4 | 12 => 32
  | _ => 0

/-- The element class of a matrix operand (spec/17 R269): 4, 8 or 16 bits; none for a format that is no operand. -/
def operandClass (c : BitVec 4) : Option Nat :=
  match c.toNat with
  | 5 => some 4 | 6 => some 4 | 11 => some 4
  | 3 => some 8 | 4 => some 8 | 7 => some 8 | 8 => some 8 | 9 => some 8 | 10 => some 8
  | 1 => some 16 | 2 => some 16
  | _ => none

/-- The A formats that sparsity accepts (spec/17 R269). -/
def sparseFormat (c : BitVec 4) : Bool := [1, 2, 3, 4, 9, 10].contains c.toNat

/-- Rows and columns of a shape code (spec/17 R269). -/
def shapeRows (s : BitVec 2) : Nat := if s.toNat < 2 then 64 else 32
def shapeCols (s : BitVec 2) : Nat := if s.toNat % 2 = 0 then 96 else 48

/-- A group of CVT: n elements of w bits at group number g (spec/11 R187). -/
def cvtGroupOk (n w g : Nat) : Bool :=
  let b := n * w
  if b ≤ 32 then b * (g + 1) ≤ 32 else b == 64 && g == 0

/-- The element count that W gives to CVT (spec/11 R187). -/
def cvtCount (w : BitVec 2) : Nat := match w.toNat with | 0 => 1 | 1 => 2 | 3 => 4 | _ => 0

/-! ## Memory forms -/

def orderLoad (o : BitVec 3) : Bool := [0, 1, 2, 5].contains o.toNat
def orderStore (o : BitVec 3) : Bool := [0, 1, 3, 5].contains o.toNat
def orderAtomic (o : BitVec 3) : Bool := [1, 2, 3, 4, 5].contains o.toNat
def orderFence (o : BitVec 3) : Bool := [2, 3, 4, 5].contains o.toNat

/-- Size, scope and hint in range, and no scope under plain order (spec/07 R103, R104; spec/15 R250). -/
def memFields (size scope order hint : BitVec 3) : Bool :=
  size.toNat ≤ 4 && scope.toNat ≤ 4 && hint.toNat ≤ 3 && (order != 0 || scope == 0)

/-- The operation codes with the forms and sizes that they accept (spec/15 R259). -/
def atomCode (oc : BitVec 7) (isRed : Bool) (size : BitVec 3) : Bool :=
  let i := size == 2 || size == 3
  match oc.toNat with
  | 0x00 | 0x01 | 0x02 | 0x03 | 0x04 | 0x05 | 0x06 | 0x07 => i
  | 0x08 | 0x09 => i && !isRed
  | 0x0A | 0x10 | 0x11 | 0x12 | 0x13 | 0x14 => size == 2
  | 0x18 => size == 3 && isRed
  | 0x19 => size == 4 && isRed
  | _ => false

/-- The word-1 part of an atomic: order of its kind, code, size, and zero bits under XA (spec/15 R258, R261). -/
def atomFields (isRed : Bool) (size scope order hint : BitVec 3) (off : BitVec 20) : Bool :=
  memFields size scope order hint && (if isRed then orderStore order else orderAtomic order) &&
    atomCode (off.extractLsb' 12 7) isRed size && (off.extractLsb' 12 7 != 0x19 || off.extractLsb' 10 2 == 0)

/-! ## Engine forms -/

def UE.noRegs (f : UE) : Bool := f.d == 0 && f.a == 0 && f.b == 0
def UE.subOnly (f : UE) (mask : BitVec 4) : Bool := f.sub &&& ~~~mask == 0
def UE.w1Only (f : UE) (mask : Word) : Bool := f.w1 &&& ~~~mask == 0

/-- One code of WAITC (spec/13 R230): kind and register. -/
def waitcCode (c : BitVec 8) : Bool :=
  let k := c.extractLsb' 5 3
  let n := c.extractLsb' 0 5
  if k == 0 then n == 0 else if k.toNat ≥ 4 then n.getLsbD 0 == false else true

def waitcCodes (w1 : Word) : List (BitVec 8) :=
  [w1.extractLsb' 0 8, w1.extractLsb' 8 8, w1.extractLsb' 16 8, w1.extractLsb' 24 8]

def waitcKindMem (c : BitVec 8) : Bool := (c.extractLsb' 5 3).toNat ≥ 4

/-- The rows that MROUND and MLOADA name lie in the tile (spec/17 R291, R292). -/
def rowsOk (f : UE) : Bool :=
  4 * f.sub.toNat + 4 * ((f.w1.extractLsb' 6 2).toNat + 1) ≤ shapeRows (f.w1.extractLsb' 1 2)

/-- A special-register number that exists (spec/09 R144). -/
def srNumber (n : Nat) : Bool := n < 0x30

/-! ## The check of word 0 -/

def LR.f0 (f : LR) (ws : List (BitVec 2)) : Bool := f.guardOk && f.wIn ws
def UR.q0 (f : UR) : Bool := guardOk f.q f.n
def UI.q0 (f : UI) : Bool := guardOk f.q f.n && f.b == 0

/-- The ILLOP cases that word 0 alone decides (spec/09 R150, R151 step 2). Steps that no word encodes are no
instruction words. -/
def Instr.wf0 : Instr → Bool
  | .illegalInstruction _ _ => false
  | .iadd f | .isub f | .imul f | .imin f | .imax f | .iabs f | .shl f | .shr f | .sar f => f.f0 [0, 1, 2, 3]
  | .imad f => f.f0 [0, 1]
  | .blut f | .popc f | .clz f | .brev f | .bfe f | .bfi f | .sel f | .lea f => f.f0 [0, 2]
  | .icmp f => f.f0 [0, 2] && predField f.vd
  | .idot4 f => f.f0 [3]
  | .clmul f => f.f0 [0]
  | .fadd f | .fsub f | .fmul f | .ffma f | .fmin f | .fmax f | .fclass f | .frnd f => f.f0 [0, 1]
  | .frcp f | .frsq f | .fsqrt f | .fex2 f | .flg2 f | .fsin f | .fcos f | .ftanh f | .fsgm f => f.f0 [0, 1]
  | .fcmp f => f.f0 [0] && predField f.vd
  | .iabsLu _ | .popcLu _ | .clzLu _ | .brevLu _ => true
  | .frcpLu _ | .frsqLu _ | .fsqrtLu _ | .fex2Lu _ | .flg2Lu _ | .fsinLu _ | .fcosLu _ | .ftanhLu _ | .fsgmLu _ => true
  | .cvt f => f.f0 [0, 1, 3]
  | .cvtn f => f.f0 [1, 3]
  | .blkpack f | .blkunpk f => f.f0 [0]
  | .shfl f | .matchLanes f | .bcast f => f.f0 [0, 2]
  | .vote f => f.f0 [0] && predNegField f.va
  | .redux f | .scan f => f.f0 [0]
  | .rdlane f => f.f0 [0, 2] && f.vd.extractLsb' 6 2 == 0
  | .mov _ | .movB64 _ => true
  | .movUniform f => f.va.extractLsb' 6 2 == 0
  | .movImm f => guardOk f.g f.gn && f.w == 0 && f.va == 0
  | .s2v f => srNumber f.va.toNat
  | .plop f => f.f0 [0] && predField f.vd && predField f.va
  | .pmovGet f | .pmovSet f => f.f0 [0]
  | .rng f => f.f0 [0, 2] && f.va == 0
  | .ld f => f.guardOk && f.sp != 3
  | .pref f => f.guardOk && f.sp != 3 && f.vd == 0
  | .st f | .atom f | .red f => f.guardOk && f.sp != 3 && f.sp != 1
  | .lds f | .sts f => f.guardOk && f.sp == 0
  | .tex f | .tfetch f | .rayq f | .rayget f | .ncall f | .rgdisp f => f.f0 [0]
  | .raycont f => f.f0 [0] && f.vd == 0
  | .brx f | .jtabx f => guardOk f.p f.neg
  | .retx f => f.vd == 0
  | .discardLu => true
  | .discard f => f.f0 [0] && f.vd == 0 && f.va == 0
  | .sadd f | .ssub f | .smul f | .smad f | .smin f | .smax f | .sshl f | .sshr f | .ssar f | .sblut f => f.q0
  | .sbfe f | .sbfi f | .ssel f | .scmp f | .slea f | .sfadd f | .sfmul f | .sffma f | .scvt f => f.q0
  | .spopc f | .sclz f | .smov f => f.q0 && f.a == 0
  | .saddImm f | .ssubImm f | .smulImm f | .smadImm f | .sminImm f | .smaxImm f | .sshlImm f | .sshrImm f
  | .ssarImm f | .sblutImm f => f.q0
  | .sbfeImm f | .sbfiImm f | .sselImm f | .scmpImm f | .sleaImm f | .sfaddImm f | .sfmulImm f | .sffmaImm f
  | .scvtImm f => f.q0
  | .spopcImm f | .sclzImm f | .smovImm f => f.q0 && f.a == 0
  | .sld f => f.subOnly 3 && f.sub != 3 && f.b == 0
  | .sst f => f.subOnly 3 && f.sub != 3 && f.sub != 1 && f.b == 0
  | .satom f => f.subOnly 1
  | .nop f | .ret f | .exit f | .bkpt f | .snap f | .tret f | .commit f => f.q0 && f.d == 0 && f.a == 0 && f.b == 0
  | .bra f | .call f => guardOk f.q f.n
  | .jtab f => f.q0 && f.d == 0
  | .regang f | .trap f | .mark f => f.q0 && f.d == 0 && f.a == 0
  | .dbnz f => f.q0 && f.a == 0
  | .wait f => f.mode.toNat ≤ 1
  | .waitc f => f.d.extractLsb' 3 3 == 0 && f.subOnly 3
  | .bari f | .barw f => f.q0 && f.d == 0
  | .bara f => f.q0 && f.a == 0
  | .bars f | .bard f | .setpart f | .setbound f => f.q0 && f.d == 0 && f.a == 0
  | .bariImm f | .barwImm f => f.q0 && f.d == 0
  | .baraImm f => f.q0 && f.a == 0
  | .barsImm f | .bardImm f | .setpartImm f | .setboundImm f => f.q0 && f.d == 0 && f.a == 0
  | .fence f => f.q0 && f.d == 0 && f.a.toNat ≤ 4 && f.b.extractLsb' 3 3 == 0 && orderFence (f.b.extractLsb' 0 3)
  | .srd f => f.q0 && f.b == 0 && srNumber f.a.toNat && f.a != 0
  | .swr f => f.q0 && f.b == 0 && srNumber f.d.toNat
  | .rngseed f => f.q0 && f.d == 0
  | .mloop f => f.subOnly 3
  | .mclr f => f.noRegs && f.subOnly 1
  | .manchor f => f.d == 0 && f.b == 0 && f.subOnly 1 && (f.sub == 1 || f.a == 0)
  | .mround f | .mloada f => f.noRegs
  | .mbatch f => f.a == 0 && f.b == 0 && f.sub == 0
  | .mxform f => f.d == 0 && f.subOnly 1
  | .mesc f => f.d == 0 && f.subOnly 3 && (f.sub.getLsbD 0 || f.a == 0) && (f.sub.getLsbD 1 || f.b == 0)
  | .mstat f => f.a == 0 && f.b == 0 && f.subOnly 1
  | .cpy f => f.subOnly 3
  | .cpyg f => f.sub == 0
  | .cpyx f => f.sub.extractLsb' 2 2 != 3
  | .tspawn f => f.b == 0 && f.sub == 0
  | .tnotify f => f.d == 0 && f.b == 0 && f.sub == 0
  | .prsv f | .pget f => f.a == 0 && f.b == 0 && f.subOnly 1
  | .pput f | .prel f => f.d == 0 && f.b == 0 && f.sub == 0
  | .twtag f => f.a == 0 && f.b == 0 && f.sub == 0
  | .twfree f => f.d == 0 && f.b == 0 && f.sub == 0
  | .twsend f => f.sub == 0
  | .twrecv f => f.sub == 0
  | .twrecvSt f => f.sub == 1 && f.b == 0
  | .mbput f => f.subOnly 1
  | .mbget f => f.sub == 0
  | .mbstat f => f.b == 0 && f.subOnly 1
  | .wpref f | .wunpin f => f.d == 0 && f.b == 0 && f.sub == 0
  | .wpin f => f.b == 0 && f.sub == 0
  | .wver f => f.sub == 0
  | .nflush f => f.noRegs && f.sub == 0
  | _ => false

/-! ## The check of the rest -/

/-- The combine and predicate fields that ICMP and FCMP share (spec/11 R174, R182). -/
def LR.cmpFields (f : LR) : Bool :=
  f.s.extractLsb' 6 2 == 0 && predNegField f.vc && (f.s.extractLsb' 4 2 != 0 || f.vc == 0)

/-- The floating-point arithmetic rows (spec/11 R178). -/
def LR.fpFields (f : LR) : Bool := f.bReg && !f.hi && f.bfOk && rndOk f.rnd false && f.s == 0

/-- The unary floating-point rows: RND and B only. -/
def LR.fpUnary (f : LR) : Bool := f.bNone && f.vc == 0 && f.mOnly 0x39 && f.bfOk && rndOk f.rnd false && f.s == 0

/-- The fields of word 1 of CVT (spec/11 R187). -/
def LR.cvtFields (f : LR) : Bool :=
  let src := f.s.extractLsb' 0 4
  let dst := f.s.extractLsb' 4 4
  let n := cvtCount f.w
  cvtFormat src && cvtFormat dst && f.bNone && f.mOnly 0x3C && !f.vc.getLsbD 7 && !f.vc.getLsbD 3 &&
    rndOk f.rnd (f.w == 0 && !isIntFormat dst) && (!(isIntFormat src && isIntFormat dst) || f.rnd == 0) &&
    cvtGroupOk n (formatWidth src) (f.vc.extractLsb' 0 3).toNat && cvtGroupOk n (formatWidth dst) (f.vc.extractLsb' 4 3).toNat

/-- The fields of word 1 of CVTN (spec/11 R190). -/
def LR.cvtnFields (f : LR) : Bool :=
  let c := (f.s.extractLsb' 0 4).toNat
  f.s.extractLsb' 4 4 == 0 && f.mOnly 0x3C && !f.m7 && !f.m6 && rndOk f.rnd false &&
    (if f.w == 1 then c == 1 || c == 2 else [3, 4, 9, 10, 11].contains c) &&
    (f.vc == 0 || (f.vc == 1 && c == 11))

/-- The fields of word 1 of BLKPACK (spec/11 R191 to R193). -/
def LR.blkpackFields (f : LR) : Bool :=
  let c := (f.s.extractLsb' 0 4).toNat
  f.s.extractLsb' 4 4 == 0 && f.mOnly 0x3C && rndOk f.rnd true &&
    (if c == 5 then f.bScalar && f.vc == 0
     else 6 ≤ c && c ≤ 8 && f.bNone && predNegField f.vc && (f.vc.getLsbD 3 || f.vc == 0))

/-- The fields of word 1 of BLKUNPK (spec/11 R194). -/
def LR.blkunpkFields (f : LR) : Bool :=
  let c := (f.s.extractLsb' 0 4).toNat
  f.s.extractLsb' 4 4 == 0 && f.mOnly 0x3C && !f.m7 && !f.m6 && rndOk f.rnd false &&
    (if c == 5 then f.vb == 0 && f.vc == 0 else 6 ≤ c && c ≤ 8 && f.vc.toNat ≤ 32)

/-- The control word of SCVT (spec/13 R216). -/
def scvtControl (b : Word) : Bool :=
  cvtFormat (b.extractLsb' 0 4) && cvtFormat (b.extractLsb' 4 4) && rndOk (b.extractLsb' 8 3) false

/-- The fields of word 1 of MLOOP that the words decide (spec/17 R269, R285, R286). -/
def mloopFields (f : UE) : Bool :=
  let fa := f.w1.extractLsb' 28 4
  let fb := f.w1.extractLsb' 24 4
  let sp := f.w1.getLsbD 6
  f.w1Only 0xFFFFF07E && (operandClass fa).isSome && operandClass fa == operandClass fb &&
    (if sp then sparseFormat fa else f.d == 0)

/-- The ILLOP cases that need word 1 (spec/09 R150, R151 step 4). -/
def Instr.wf1 : Instr → Bool
  | .iadd f | .isub f => f.bAny && f.vc == 0 && f.mOnly 0x05 && f.s == 0
  | .imul f => f.bAny && f.vc == 0 && f.mOnly 0x03 && (!f.hi || f.w == 0) && f.s == 0
  | .imad f => f.bAny && f.mOnly 0x05 && f.s == 0
  | .imin f | .imax f => f.bAny && f.vc == 0 && f.mOnly 0x01 && f.s == 0
  | .iabs f => f.bNone && f.vc == 0 && f.mOnly 0x04 && f.s == 0
  | .shl f | .shr f | .sar f => f.bAny && f.vc == 0 && f.mOnly 0 && f.s == 0
  | .blut f => f.bAny && f.mOnly 0
  | .popc f | .clz f | .brev f => f.bNone && f.vc == 0 && f.mOnly 0 && f.s == 0
  | .bfe f => f.bAny && f.vc == 0 && f.mOnly 0x01 && f.s == 0
  | .bfi f => f.bAny && f.mOnly 0 && f.s == 0
  | .sel f => f.bAny && predNegField f.vc && f.mOnly 0 && f.s == 0
  | .icmp f => f.bAny && f.mOnly 0x01 && f.cmpFields && (f.s.extractLsb' 0 3).toNat ≤ 5 && !f.s.getLsbD 3
  | .lea f => f.bAny && f.vc == 0 && f.mOnly 0x01 && (!f.uns || f.w == 2) && f.s.extractLsb' 3 5 == 0
  | .idot4 f => f.bAny && f.mOnly 0x07 && f.s == 0
  | .clmul f => f.bAny && f.vc == 0 && f.mOnly 0x02 && f.s == 0
  | .fadd f | .fsub f | .fmul f => f.fpFields && f.vc == 0
  | .ffma f => f.fpFields
  | .fmin f | .fmax f => f.bReg && f.vc == 0 && f.mOnly 0x01 && f.bfOk && f.s == 0
  | .fcmp f => f.bReg && f.mOnly 0 && f.cmpFields && (!f.s.getLsbD 3 || (f.s.extractLsb' 0 3).toNat ≤ 5)
  | .fclass f => f.bNone && f.vc == 0 && f.mOnly 0x01 && f.bfOk && f.s == 0
  | .frnd f | .frcp f | .frsq f | .fsqrt f | .fex2 f | .flg2 f | .fsin f | .fcos f | .ftanh f | .fsgm f => f.fpUnary
  | .cvt f => f.cvtFields
  | .cvtn f => f.cvtnFields
  | .blkpack f => f.blkpackFields
  | .blkunpk f => f.blkunpkFields
  | .shfl f => f.bAny && f.mOnly 0 && predField f.vc && f.s.extractLsb' 2 6 == 0
  | .vote f => f.bNone && f.mOnly 0 && f.vc == 0 && f.s.extractLsb' 2 6 == 0 && (f.s == 3 || predField f.vd)
  | .matchLanes f => f.bNone && f.mOnly 0 && predField f.vc && f.s.toNat ≤ 1
  | .redux f =>
    f.bNone && f.vc == 0 && f.s.toNat ≤ 8 && f.mOnly (if f.s == 0 then 0x04 else if f.s == 1 || f.s == 2 then 0x01 else 0)
  | .scan f =>
    let op := f.s.extractLsb' 0 3
    f.bNone && f.vc == 0 && f.s.extractLsb' 4 4 == 0 && op.toNat ≤ 5 && f.mOnly (if op == 1 || op == 2 then 0x01 else 0)
  | .rdlane f => f.bScalar && f.vc == 0 && f.mOnly 0 && f.s == 0
  | .bcast f => f.bNone && f.vc == 0 && f.mOnly 0 && f.s.toNat ≤ 1
  | .plop f => predField f.vb && predField f.vc && f.m == 0
  | .pmovGet f => f.va == 0 && f.vb == 0 && f.vc == 0 && f.m == 0 && f.s == 0
  | .pmovSet f => f.vd == 0 && f.vb == 0 && f.vc == 0 && f.m == 0 && f.s == 1
  | .rng f => f.vb == 0 && f.vc == 0 && f.m == 0 && f.s.toNat ≤ 1 && (f.s == 0 || f.w == 0)
  | .ld f => memFields f.size f.scope f.order f.hint && orderLoad f.order && (f.sp != 1 || f.order == 0)
  | .st f => memFields f.size f.scope f.order f.hint && orderStore f.order
  | .lds f => memFields f.size f.scope f.order f.hint && orderLoad f.order
  | .sts f => memFields f.size f.scope f.order f.hint && orderStore f.order
  | .atom f =>
    atomFields false f.size f.scope f.order f.hint f.off && (!f.off.getLsbD 19 || f.sp == 0)
  | .red f =>
    atomFields true f.size f.scope f.order f.hint f.off && (!f.off.getLsbD 19 || f.sp == 0)
  | .pref f => f.size == 0 && f.scope == 0 && f.order == 0 && f.hint.toNat ≤ 2
  | .tex f =>
    f.m == 0x80 && f.vb.extractLsb' 6 2 == 0 && f.s.extractLsb' 4 4 == 0 && f.s.extractLsb' 0 2 != 3 &&
      f.s.extractLsb' 2 2 != 3 && (f.s.extractLsb' 2 2 != 0 || f.vc == 0)
  | .tfetch f => f.m == 0x80 && f.vb.extractLsb' 6 2 == 0 && f.s.toNat ≤ 2
  | .rayq f => f.m == 0x80 && f.vb.extractLsb' 6 2 == 0 && f.vc == 0 && f.s.extractLsb' 3 5 == 0
  | .raycont f => f.bNone && f.m == 0 && predField f.vc && f.s.toNat ≤ 1
  | .rayget f => f.bNone && f.m == 0 && f.vc == 0 && f.s == 0
  | .ncall f => f.vb == 0 && f.m.extractLsb' 5 3 == 0 && f.s.extractLsb' 4 4 == 0
  | .rgdisp f => f.m == 0x80 && f.vb.extractLsb' 6 2 == 0 && f.s.toNat ≤ 2
  | .brx f => f.mid == 0 && f.lo == 0
  | .jtabx f => f.hi == 0 && f.lo == 0
  | .discard f => f.vb == 0 && f.vc == 0 && f.m == 0 && f.s == 0
  | .scvtImm f => scvtControl f.imm
  | .sld f =>
    let o := f.w1.extractLsb' 23 3
    memFields (f.w1.extractLsb' 29 3) (f.w1.extractLsb' 26 3) o (f.w1.extractLsb' 20 3) && orderLoad o &&
      (f.sub != 1 || o == 0)
  | .sst f =>
    let o := f.w1.extractLsb' 23 3
    memFields (f.w1.extractLsb' 29 3) (f.w1.extractLsb' 26 3) o (f.w1.extractLsb' 20 3) && orderStore o
  | .satom f =>
    atomFields (f.sub.getLsbD 0) (f.w1.extractLsb' 29 3) (f.w1.extractLsb' 26 3) (f.w1.extractLsb' 23 3)
      (f.w1.extractLsb' 20 3) (f.w1.extractLsb' 0 20) && (f.w1.extractLsb' 12 7 == 0x09 || f.b == 0)
  | .jtab f => f.imm.extractLsb' 18 14 == 0
  | .regang f => f.imm.extractLsb' 10 22 == 0
  | .dbnz f => f.imm.extractLsb' 18 14 == 0
  | .trap f => f.imm.extractLsb' 16 16 == 0
  | .waitc f =>
    let cs := waitcCodes f.w1
    cs.all waitcCode && cs.any (· != 0) && (cs.any waitcKindMem || f.b == 0)
  | .bariImm f | .baraImm f | .barwImm f | .barsImm f | .bardImm f => f.imm.extractLsb' 10 22 == 0
  | .mloop f => mloopFields f
  | .mclr f => f.w1Only 0x3E
  | .manchor f => f.w1Only (if f.sub == 1 then 0x3E else 0xFFC0003E)
  | .mround f =>
    let c := f.w1.extractLsb' 28 4
    f.w1Only 0xFFFFFFFE && cvtFormat c && rndOk (f.w1.extractLsb' 25 3) (c.toNat ≤ 4) && rowsOk f
  | .mloada f => f.w1Only 0xF800FFFE && cvtFormat (f.w1.extractLsb' 28 4) && rowsOk f
  | .mbatch f | .mesc f => f.w1 == 0
  | .mxform f =>
    let op := f.w1.extractLsb' 22 2
    f.w1Only 0xF0C0003E && (operandClass (f.w1.extractLsb' 28 4)).isSome && op != 3 && (op == 1 || f.b == 0)
  | .mstat f => f.w1Only 0x3E
  | .cpy f | .cpyg f => f.w1.extractLsb' 0 4 == 0
  | .cpyx f => f.w1.extractLsb' 0 12 == 0
  | .tspawn f | .tnotify f => f.w1 == 0
  | .prsv f | .pput f | .pget f | .prel f => f.w1.extractLsb' 4 28 == 0
  | .twtag f | .twfree f | .twrecv f | .twrecvSt f => f.w1 == 0
  | .twsend f => f.w1.toNat ≤ 5
  | .mbput f | .mbget f | .mbstat f => f.w1 == 0
  | .wpref f | .wpin f | .wunpin f | .wver f | .nflush f => f.w1 == 0
  | _ => true

/-- An instruction whose words are legal (spec/09 R150: no ILLOP case holds). -/
def Instr.wf (i : Instr) : Bool := i.wf0 && i.wf1

end Sys2Proof
end

