-- ==== Sys2Proof/Decode.lean ====
section
/-!
DEFINITION. Decoding: the words of memory to an instruction or a named reason why they are none, and the encoder
written from the same tables (spec/09 R127 to R151).
-/

namespace Sys2Proof

def opField (w0 : Word) : BitVec 8 := w0.extractLsb' 22 8

/-! The fields of the formats (spec/09 R130 to R139), read and written. -/

def LR.ofWords (w0 w1 : Word) : LR where
  vd := w0.extractLsb' 14 8
  va := w0.extractLsb' 6 8
  g  := w0.extractLsb' 3 3
  gn := w0.extractLsb' 2 1
  w  := w0.extractLsb' 0 2
  vb := w1.extractLsb' 24 8
  vc := w1.extractLsb' 16 8
  m  := w1.extractLsb' 8 8
  s  := w1.extractLsb' 0 8

def LR.word0 (f : LR) (op : BitVec 8) : Word := 0b01#2 ++ op ++ f.vd ++ f.va ++ f.g ++ f.gn ++ f.w
def LR.word1 (f : LR) : Word := f.vb ++ f.vc ++ f.m ++ f.s

def LI.ofWords (w0 w1 : Word) : LI where
  vd  := w0.extractLsb' 14 8
  va  := w0.extractLsb' 6 8
  g   := w0.extractLsb' 3 3
  gn  := w0.extractLsb' 2 1
  w   := w0.extractLsb' 0 2
  imm := w1

def LI.word0 (f : LI) (op : BitVec 8) : Word := 0b01#2 ++ op ++ f.vd ++ f.va ++ f.g ++ f.gn ++ f.w

def LU.ofWord (w0 : Word) : LU where
  vd := w0.extractLsb' 14 8
  va := w0.extractLsb' 6 8

def LU.word0 (f : LU) (op : BitVec 8) (sub : BitVec 6) : Word := 0b00#2 ++ op ++ f.vd ++ f.va ++ sub

def LM.ofWords (w0 w1 : Word) : LM where
  vd    := w0.extractLsb' 14 8
  va    := w0.extractLsb' 6 8
  g     := w0.extractLsb' 3 3
  gn    := w0.extractLsb' 2 1
  sp    := w0.extractLsb' 0 2
  size  := w1.extractLsb' 29 3
  scope := w1.extractLsb' 26 3
  order := w1.extractLsb' 23 3
  hint  := w1.extractLsb' 20 3
  off   := w1.extractLsb' 0 20

def LM.word0 (f : LM) (op : BitVec 8) : Word := 0b01#2 ++ op ++ f.vd ++ f.va ++ f.g ++ f.gn ++ f.sp
def LM.word1 (f : LM) : Word := f.size ++ f.scope ++ f.order ++ f.hint ++ f.off

def LB.ofWords (w0 w1 : Word) : LB where
  p   := w0.extractLsb' 19 3
  neg := w0.extractLsb' 18 1
  off := w0.extractLsb' 0 18
  hi  := w1.extractLsb' 14 18
  mid := w1.extractLsb' 6 8
  lo  := w1.extractLsb' 0 6

def LB.word0 (f : LB) (op : BitVec 8) : Word := 0b01#2 ++ op ++ f.p ++ f.neg ++ f.off
def LB.word1 (f : LB) : Word := f.hi ++ f.mid ++ f.lo

def UR.ofWord (w0 : Word) : UR where
  d := w0.extractLsb' 16 6
  a := w0.extractLsb' 10 6
  b := w0.extractLsb' 4 6
  q := w0.extractLsb' 1 3
  n := w0.extractLsb' 0 1

def UR.word0 (f : UR) (op : BitVec 8) : Word := 0b10#2 ++ op ++ f.d ++ f.a ++ f.b ++ f.q ++ f.n

def UI.ofWords (w0 w1 : Word) : UI where
  d   := w0.extractLsb' 16 6
  a   := w0.extractLsb' 10 6
  b   := w0.extractLsb' 4 6
  q   := w0.extractLsb' 1 3
  n   := w0.extractLsb' 0 1
  imm := w1

def UI.word0 (f : UI) (op : BitVec 8) : Word := 0b11#2 ++ op ++ f.d ++ f.a ++ f.b ++ f.q ++ f.n

def UB.ofWord (w0 : Word) : UB where
  q   := w0.extractLsb' 19 3
  n   := w0.extractLsb' 18 1
  off := w0.extractLsb' 0 18

def UB.word0 (f : UB) (op : BitVec 8) : Word := 0b10#2 ++ op ++ f.q ++ f.n ++ f.off

def UE.ofWords (w0 w1 : Word) : UE where
  d   := w0.extractLsb' 16 6
  a   := w0.extractLsb' 10 6
  b   := w0.extractLsb' 4 6
  sub := w0.extractLsb' 0 4
  w1  := w1

def UE.word0 (f : UE) (op : BitVec 8) : Word := 0b11#2 ++ op ++ f.d ++ f.a ++ f.b ++ f.sub

def UW.ofWord (w0 : Word) : UW where
  ld   := w0.extractLsb' 17 5
  st   := w0.extractLsb' 12 5
  cp   := w0.extractLsb' 7 5
  mb   := w0.extractLsb' 2 5
  mode := w0.extractLsb' 0 2

def UW.word0 (f : UW) (op : BitVec 8) : Word := 0b10#2 ++ op ++ f.ld ++ f.st ++ f.cp ++ f.mb ++ f.mode

/-- The one-word lane forms (spec/09 R133, R146, R148). -/
def decodeLane1 (op : BitVec 8) (w0 : Word) : Option Instr :=
  let f := LU.ofWord w0
  match op.toNat with
  | 0x07 => if w0.extractLsb' 0 6 = 0 then some (.iabsLu f) else none
  | 0x0C => if w0.extractLsb' 0 6 = 0 then some (.popcLu f) else none
  | 0x0D => if w0.extractLsb' 0 6 = 0 then some (.clzLu f) else none
  | 0x0E => if w0.extractLsb' 0 6 = 0 then some (.brevLu f) else none
  | 0x29 => if w0.extractLsb' 0 6 = 0 then some (.frcpLu f) else none
  | 0x2A => if w0.extractLsb' 0 6 = 0 then some (.frsqLu f) else none
  | 0x2B => if w0.extractLsb' 0 6 = 0 then some (.fsqrtLu f) else none
  | 0x2C => if w0.extractLsb' 0 6 = 0 then some (.fex2Lu f) else none
  | 0x2D => if w0.extractLsb' 0 6 = 0 then some (.flg2Lu f) else none
  | 0x2E => if w0.extractLsb' 0 6 = 0 then some (.fsinLu f) else none
  | 0x2F => if w0.extractLsb' 0 6 = 0 then some (.fcosLu f) else none
  | 0x30 => if w0.extractLsb' 0 6 = 0 then some (.ftanhLu f) else none
  | 0x31 => if w0.extractLsb' 0 6 = 0 then some (.fsgmLu f) else none
  | 0x60 => match (w0.extractLsb' 0 6).toNat with | 0 => some (.mov f) | 1 => some (.movUniform f) | 2 => some (.movB64 f) | _ => none
  | 0x61 => if w0.extractLsb' 0 6 = 0 then some (.s2v f) else none
  | 0xAA => if w0.extractLsb' 0 6 = 0 then some (.retx f) else none
  | 0xAB => if w0.extractLsb' 0 22 = 0 then some .discardLu else none
  | _ => none

/-- The two-word lane forms (spec/09 R146, R148). -/
def decodeLane2 (op : BitVec 8) (w0 w1 : Word) : Option Instr :=
  match op.toNat with
  | 0x01 => some (.iadd (LR.ofWords w0 w1))
  | 0x02 => some (.isub (LR.ofWords w0 w1))
  | 0x03 => some (.imul (LR.ofWords w0 w1))
  | 0x04 => some (.imad (LR.ofWords w0 w1))
  | 0x05 => some (.imin (LR.ofWords w0 w1))
  | 0x06 => some (.imax (LR.ofWords w0 w1))
  | 0x07 => some (.iabs (LR.ofWords w0 w1))
  | 0x08 => some (.shl (LR.ofWords w0 w1))
  | 0x09 => some (.shr (LR.ofWords w0 w1))
  | 0x0A => some (.sar (LR.ofWords w0 w1))
  | 0x0B => some (.blut (LR.ofWords w0 w1))
  | 0x0C => some (.popc (LR.ofWords w0 w1))
  | 0x0D => some (.clz (LR.ofWords w0 w1))
  | 0x0E => some (.brev (LR.ofWords w0 w1))
  | 0x0F => some (.bfe (LR.ofWords w0 w1))
  | 0x10 => some (.bfi (LR.ofWords w0 w1))
  | 0x11 => some (.sel (LR.ofWords w0 w1))
  | 0x12 => some (.icmp (LR.ofWords w0 w1))
  | 0x13 => some (.lea (LR.ofWords w0 w1))
  | 0x14 => some (.idot4 (LR.ofWords w0 w1))
  | 0x15 => some (.clmul (LR.ofWords w0 w1))
  | 0x20 => some (.fadd (LR.ofWords w0 w1))
  | 0x21 => some (.fsub (LR.ofWords w0 w1))
  | 0x22 => some (.fmul (LR.ofWords w0 w1))
  | 0x23 => some (.ffma (LR.ofWords w0 w1))
  | 0x24 => some (.fmin (LR.ofWords w0 w1))
  | 0x25 => some (.fmax (LR.ofWords w0 w1))
  | 0x26 => some (.fcmp (LR.ofWords w0 w1))
  | 0x27 => some (.fclass (LR.ofWords w0 w1))
  | 0x28 => some (.frnd (LR.ofWords w0 w1))
  | 0x29 => some (.frcp (LR.ofWords w0 w1))
  | 0x2A => some (.frsq (LR.ofWords w0 w1))
  | 0x2B => some (.fsqrt (LR.ofWords w0 w1))
  | 0x2C => some (.fex2 (LR.ofWords w0 w1))
  | 0x2D => some (.flg2 (LR.ofWords w0 w1))
  | 0x2E => some (.fsin (LR.ofWords w0 w1))
  | 0x2F => some (.fcos (LR.ofWords w0 w1))
  | 0x30 => some (.ftanh (LR.ofWords w0 w1))
  | 0x31 => some (.fsgm (LR.ofWords w0 w1))
  | 0x40 => some (.cvt (LR.ofWords w0 w1))
  | 0x41 => some (.cvtn (LR.ofWords w0 w1))
  | 0x42 => some (.blkpack (LR.ofWords w0 w1))
  | 0x43 => some (.blkunpk (LR.ofWords w0 w1))
  | 0x50 => some (.shfl (LR.ofWords w0 w1))
  | 0x51 => some (.vote (LR.ofWords w0 w1))
  | 0x52 => some (.matchLanes (LR.ofWords w0 w1))
  | 0x53 => some (.redux (LR.ofWords w0 w1))
  | 0x54 => some (.scan (LR.ofWords w0 w1))
  | 0x62 => some (.rdlane (LR.ofWords w0 w1))
  | 0x63 => some (.bcast (LR.ofWords w0 w1))
  | 0x60 => some (.movImm (LI.ofWords w0 w1))
  | 0x64 => some (.plop (LR.ofWords w0 w1))
  | 0x65 => let f := LR.ofWords w0 w1; some (if f.s.getLsbD 0 then .pmovSet f else .pmovGet f)
  | 0x66 => some (.rng (LR.ofWords w0 w1))
  | 0x70 => some (.ld (LM.ofWords w0 w1))
  | 0x71 => some (.st (LM.ofWords w0 w1))
  | 0x72 => some (.lds (LM.ofWords w0 w1))
  | 0x73 => some (.sts (LM.ofWords w0 w1))
  | 0x74 => some (.atom (LM.ofWords w0 w1))
  | 0x75 => some (.red (LM.ofWords w0 w1))
  | 0x76 => some (.pref (LM.ofWords w0 w1))
  | 0x90 => some (.tex (LR.ofWords w0 w1))
  | 0x91 => some (.tfetch (LR.ofWords w0 w1))
  | 0x92 => some (.rayq (LR.ofWords w0 w1))
  | 0x93 => some (.raycont (LR.ofWords w0 w1))
  | 0x94 => some (.rayget (LR.ofWords w0 w1))
  | 0xA0 => some (.ncall (LR.ofWords w0 w1))
  | 0xA1 => some (.rgdisp (LR.ofWords w0 w1))
  | 0xA8 => some (.brx (LB.ofWords w0 w1))
  | 0xA9 => some (.jtabx (LB.ofWords w0 w1))
  | 0xAB => some (.discard (LR.ofWords w0 w1))
  | _ => none

/-- The one-word uniform forms (spec/09 R147, R148). -/
def decodeUni1 (op : BitVec 8) (w0 : Word) : Option Instr :=
  match op.toNat with
  | 0x01 => some (.sadd (UR.ofWord w0))
  | 0x02 => some (.ssub (UR.ofWord w0))
  | 0x03 => some (.smul (UR.ofWord w0))
  | 0x04 => some (.smad (UR.ofWord w0))
  | 0x05 => some (.smin (UR.ofWord w0))
  | 0x06 => some (.smax (UR.ofWord w0))
  | 0x07 => some (.sshl (UR.ofWord w0))
  | 0x08 => some (.sshr (UR.ofWord w0))
  | 0x09 => some (.ssar (UR.ofWord w0))
  | 0x0A => some (.sblut (UR.ofWord w0))
  | 0x0B => some (.spopc (UR.ofWord w0))
  | 0x0C => some (.sclz (UR.ofWord w0))
  | 0x0D => some (.sbfe (UR.ofWord w0))
  | 0x0E => some (.sbfi (UR.ofWord w0))
  | 0x0F => some (.ssel (UR.ofWord w0))
  | 0x10 => some (.scmp (UR.ofWord w0))
  | 0x11 => some (.slea (UR.ofWord w0))
  | 0x12 => some (.smov (UR.ofWord w0))
  | 0x20 => some (.sfadd (UR.ofWord w0))
  | 0x21 => some (.sfmul (UR.ofWord w0))
  | 0x22 => some (.sffma (UR.ofWord w0))
  | 0x23 => some (.scvt (UR.ofWord w0))
  | 0x30 => some (.nop (UR.ofWord w0))
  | 0x31 => some (.bra (UB.ofWord w0))
  | 0x32 => some (.call (UB.ofWord w0))
  | 0x33 => some (.ret (UR.ofWord w0))
  | 0x36 => some (.exit (UR.ofWord w0))
  | 0x40 => some (.wait (UW.ofWord w0))
  | 0x42 => some (.bari (UR.ofWord w0))
  | 0x43 => some (.bara (UR.ofWord w0))
  | 0x44 => some (.barw (UR.ofWord w0))
  | 0x45 => some (.bars (UR.ofWord w0))
  | 0x46 => some (.bard (UR.ofWord w0))
  | 0x47 => some (.fence (UR.ofWord w0))
  | 0x50 => some (.srd (UR.ofWord w0))
  | 0x51 => some (.swr (UR.ofWord w0))
  | 0x52 => some (.setpart (UR.ofWord w0))
  | 0x53 => some (.setbound (UR.ofWord w0))
  | 0x54 => some (.rngseed (UR.ofWord w0))
  | 0xC1 => some (.bkpt (UR.ofWord w0))
  | 0xC3 => some (.snap (UR.ofWord w0))
  | 0xC4 => some (.tret (UR.ofWord w0))
  | 0xC5 => some (.commit (UR.ofWord w0))
  | _ => none

/-- The two-word uniform forms (spec/09 R147, R148). -/
def decodeUni2 (op : BitVec 8) (w0 w1 : Word) : Option Instr :=
  match op.toNat with
  | 0x01 => some (.saddImm (UI.ofWords w0 w1))
  | 0x02 => some (.ssubImm (UI.ofWords w0 w1))
  | 0x03 => some (.smulImm (UI.ofWords w0 w1))
  | 0x04 => some (.smadImm (UI.ofWords w0 w1))
  | 0x05 => some (.sminImm (UI.ofWords w0 w1))
  | 0x06 => some (.smaxImm (UI.ofWords w0 w1))
  | 0x07 => some (.sshlImm (UI.ofWords w0 w1))
  | 0x08 => some (.sshrImm (UI.ofWords w0 w1))
  | 0x09 => some (.ssarImm (UI.ofWords w0 w1))
  | 0x0A => some (.sblutImm (UI.ofWords w0 w1))
  | 0x0B => some (.spopcImm (UI.ofWords w0 w1))
  | 0x0C => some (.sclzImm (UI.ofWords w0 w1))
  | 0x0D => some (.sbfeImm (UI.ofWords w0 w1))
  | 0x0E => some (.sbfiImm (UI.ofWords w0 w1))
  | 0x0F => some (.sselImm (UI.ofWords w0 w1))
  | 0x10 => some (.scmpImm (UI.ofWords w0 w1))
  | 0x11 => some (.sleaImm (UI.ofWords w0 w1))
  | 0x12 => some (.smovImm (UI.ofWords w0 w1))
  | 0x20 => some (.sfaddImm (UI.ofWords w0 w1))
  | 0x21 => some (.sfmulImm (UI.ofWords w0 w1))
  | 0x22 => some (.sffmaImm (UI.ofWords w0 w1))
  | 0x23 => some (.scvtImm (UI.ofWords w0 w1))
  | 0x28 => some (.sld (UE.ofWords w0 w1))
  | 0x29 => some (.sst (UE.ofWords w0 w1))
  | 0x2A => some (.satom (UE.ofWords w0 w1))
  | 0x34 => some (.jtab (UI.ofWords w0 w1))
  | 0x35 => some (.regang (UI.ofWords w0 w1))
  | 0x37 => some (.dbnz (UI.ofWords w0 w1))
  | 0x41 => some (.waitc (UE.ofWords w0 w1))
  | 0x42 => some (.bariImm (UI.ofWords w0 w1))
  | 0x43 => some (.baraImm (UI.ofWords w0 w1))
  | 0x44 => some (.barwImm (UI.ofWords w0 w1))
  | 0x45 => some (.barsImm (UI.ofWords w0 w1))
  | 0x46 => some (.bardImm (UI.ofWords w0 w1))
  | 0x52 => some (.setpartImm (UI.ofWords w0 w1))
  | 0x53 => some (.setboundImm (UI.ofWords w0 w1))
  | 0x60 => some (.mloop (UE.ofWords w0 w1))
  | 0x61 => some (.mclr (UE.ofWords w0 w1))
  | 0x62 => some (.manchor (UE.ofWords w0 w1))
  | 0x63 => some (.mround (UE.ofWords w0 w1))
  | 0x64 => some (.mloada (UE.ofWords w0 w1))
  | 0x65 => some (.mbatch (UE.ofWords w0 w1))
  | 0x66 => some (.mxform (UE.ofWords w0 w1))
  | 0x67 => some (.mesc (UE.ofWords w0 w1))
  | 0x68 => some (.mstat (UE.ofWords w0 w1))
  | 0x80 => some (.cpy (UE.ofWords w0 w1))
  | 0x81 => some (.cpyg (UE.ofWords w0 w1))
  | 0x82 => some (.cpyx (UE.ofWords w0 w1))
  | 0x90 => some (.tspawn (UE.ofWords w0 w1))
  | 0x91 => some (.tnotify (UE.ofWords w0 w1))
  | 0x92 => some (.prsv (UE.ofWords w0 w1))
  | 0x93 => some (.pput (UE.ofWords w0 w1))
  | 0x94 => some (.pget (UE.ofWords w0 w1))
  | 0x95 => some (.prel (UE.ofWords w0 w1))
  | 0xA0 => some (.twtag (UE.ofWords w0 w1))
  | 0xA1 => some (.twfree (UE.ofWords w0 w1))
  | 0xA2 => some (.twsend (UE.ofWords w0 w1))
  | 0xA3 => let f := UE.ofWords w0 w1; some (if f.sub.getLsbD 0 then .twrecvSt f else .twrecv f)
  | 0xB0 => some (.mbput (UE.ofWords w0 w1))
  | 0xB1 => some (.mbget (UE.ofWords w0 w1))
  | 0xB2 => some (.mbstat (UE.ofWords w0 w1))
  | 0xB8 => some (.wpref (UE.ofWords w0 w1))
  | 0xB9 => some (.wpin (UE.ofWords w0 w1))
  | 0xBA => some (.wunpin (UE.ofWords w0 w1))
  | 0xBB => some (.wver (UE.ofWords w0 w1))
  | 0xBC => some (.nflush (UE.ofWords w0 w1))
  | 0xC0 => some (.trap (UI.ofWords w0 w1))
  | 0xC2 => some (.mark (UI.ofWords w0 w1))
  | _ => none

/-- The instruction whose opcode and length the words have, its fields not yet checked (spec/09 R127, R146 to R148). -/
def rawDecode (w0 w1 : Word) : Option Instr :=
  if w0.getLsbD 31 then
    if w0.getLsbD 30 then decodeUni2 (opField w0) w0 w1 else decodeUni1 (opField w0) w0
  else
    if w0.getLsbD 30 then decodeLane2 (opField w0) w0 w1 else decodeLane1 (opField w0) w0

/-- Whether a word 0 says that a word 1 follows (spec/09 R127, X). -/
def twoWords (w0 : Word) : Bool := w0.getLsbD 30

/-- ILLOP decided from word 0 alone (spec/09 R151 step 2): the opcode and length exist and the fields of word 0 are
legal. Word 1 is not looked at. -/
def word0Ok (w0 : Word) : Bool :=
  match rawDecode w0 0 with
  | some i => i.wf0
  | none => false

/-- Decoding the words of an instruction (spec/09 R150, R151 steps 2 and 4); w1 is not looked at where word 0 has
X = 0. -/
def decode (w0 w1 : Word) : Except Reject Instr :=
  if word0Ok w0 then
    match rawDecode w0 w1 with
    | some i => if i.wf then .ok i else .error .illop
    | none => .error .illop
  else .error .illop

/-- A little-endian word of bytes (spec/00 R2). -/
def wordOfBytes (b0 b1 b2 b3 : Byte) : Word := b3 ++ b2 ++ b1 ++ b0

/-- Decoding from bytes: the instruction and the bytes after it, or why there is none; too few bytes read as a
word on a page that is not mapped (spec/09 R150). -/
def decodeBytes : List Byte → Except Reject (Instr × List Byte)
  | b0 :: b1 :: b2 :: b3 :: rest =>
    let w0 := wordOfBytes b0 b1 b2 b3
    if word0Ok w0 then
      if twoWords w0 then
        match rest with
        | c0 :: c1 :: c2 :: c3 :: rest' => (decode w0 (wordOfBytes c0 c1 c2 c3)).map fun i => (i, rest')
        | _ => .error (.page 0)
      else (decode w0 0).map fun i => (i, rest)
    else .error .illop
  | _ => .error (.page 0)

/-- The bytes of a word in memory order (spec/00 R2). -/
def bytesOfWord (w : Word) : List Byte :=
  [w.extractLsb' 0 8, w.extractLsb' 8 8, w.extractLsb' 16 8, w.extractLsb' 24 8]

/-- The words of an instruction (spec/09 R127 to R149): word 0 and, for the two-word forms, word 1. A step that no
word encodes gives the word of an ILL opcode, which decodes to no instruction. -/
def encode : Instr → Word × Option Word
  | .illegalInstruction w0 _ => (w0, none)
  | .iadd f => (f.word0 0x01, some f.word1)
  | .isub f => (f.word0 0x02, some f.word1)
  | .imul f => (f.word0 0x03, some f.word1)
  | .imad f => (f.word0 0x04, some f.word1)
  | .imin f => (f.word0 0x05, some f.word1)
  | .imax f => (f.word0 0x06, some f.word1)
  | .iabs f => (f.word0 0x07, some f.word1)
  | .iabsLu f => (f.word0 0x07 0, none)
  | .shl f => (f.word0 0x08, some f.word1)
  | .shr f => (f.word0 0x09, some f.word1)
  | .sar f => (f.word0 0x0A, some f.word1)
  | .blut f => (f.word0 0x0B, some f.word1)
  | .popc f => (f.word0 0x0C, some f.word1)
  | .popcLu f => (f.word0 0x0C 0, none)
  | .clz f => (f.word0 0x0D, some f.word1)
  | .clzLu f => (f.word0 0x0D 0, none)
  | .brev f => (f.word0 0x0E, some f.word1)
  | .brevLu f => (f.word0 0x0E 0, none)
  | .bfe f => (f.word0 0x0F, some f.word1)
  | .bfi f => (f.word0 0x10, some f.word1)
  | .sel f => (f.word0 0x11, some f.word1)
  | .icmp f => (f.word0 0x12, some f.word1)
  | .lea f => (f.word0 0x13, some f.word1)
  | .idot4 f => (f.word0 0x14, some f.word1)
  | .clmul f => (f.word0 0x15, some f.word1)
  | .fadd f => (f.word0 0x20, some f.word1)
  | .fsub f => (f.word0 0x21, some f.word1)
  | .fmul f => (f.word0 0x22, some f.word1)
  | .ffma f => (f.word0 0x23, some f.word1)
  | .fmin f => (f.word0 0x24, some f.word1)
  | .fmax f => (f.word0 0x25, some f.word1)
  | .fcmp f => (f.word0 0x26, some f.word1)
  | .fclass f => (f.word0 0x27, some f.word1)
  | .frnd f => (f.word0 0x28, some f.word1)
  | .frcp f => (f.word0 0x29, some f.word1)
  | .frcpLu f => (f.word0 0x29 0, none)
  | .frsq f => (f.word0 0x2A, some f.word1)
  | .frsqLu f => (f.word0 0x2A 0, none)
  | .fsqrt f => (f.word0 0x2B, some f.word1)
  | .fsqrtLu f => (f.word0 0x2B 0, none)
  | .fex2 f => (f.word0 0x2C, some f.word1)
  | .fex2Lu f => (f.word0 0x2C 0, none)
  | .flg2 f => (f.word0 0x2D, some f.word1)
  | .flg2Lu f => (f.word0 0x2D 0, none)
  | .fsin f => (f.word0 0x2E, some f.word1)
  | .fsinLu f => (f.word0 0x2E 0, none)
  | .fcos f => (f.word0 0x2F, some f.word1)
  | .fcosLu f => (f.word0 0x2F 0, none)
  | .ftanh f => (f.word0 0x30, some f.word1)
  | .ftanhLu f => (f.word0 0x30 0, none)
  | .fsgm f => (f.word0 0x31, some f.word1)
  | .fsgmLu f => (f.word0 0x31 0, none)
  | .cvt f => (f.word0 0x40, some f.word1)
  | .cvtn f => (f.word0 0x41, some f.word1)
  | .blkpack f => (f.word0 0x42, some f.word1)
  | .blkunpk f => (f.word0 0x43, some f.word1)
  | .shfl f => (f.word0 0x50, some f.word1)
  | .vote f => (f.word0 0x51, some f.word1)
  | .matchLanes f => (f.word0 0x52, some f.word1)
  | .redux f => (f.word0 0x53, some f.word1)
  | .scan f => (f.word0 0x54, some f.word1)
  | .rdlane f => (f.word0 0x62, some f.word1)
  | .bcast f => (f.word0 0x63, some f.word1)
  | .mov f => (f.word0 0x60 0, none)
  | .movUniform f => (f.word0 0x60 1, none)
  | .movB64 f => (f.word0 0x60 2, none)
  | .movImm f => (f.word0 0x60, some f.imm)
  | .s2v f => (f.word0 0x61 0, none)
  | .plop f => (f.word0 0x64, some f.word1)
  | .pmovGet f => (f.word0 0x65, some f.word1)
  | .pmovSet f => (f.word0 0x65, some f.word1)
  | .rng f => (f.word0 0x66, some f.word1)
  | .ld f => (f.word0 0x70, some f.word1)
  | .st f => (f.word0 0x71, some f.word1)
  | .lds f => (f.word0 0x72, some f.word1)
  | .sts f => (f.word0 0x73, some f.word1)
  | .atom f => (f.word0 0x74, some f.word1)
  | .red f => (f.word0 0x75, some f.word1)
  | .pref f => (f.word0 0x76, some f.word1)
  | .tex f => (f.word0 0x90, some f.word1)
  | .tfetch f => (f.word0 0x91, some f.word1)
  | .rayq f => (f.word0 0x92, some f.word1)
  | .raycont f => (f.word0 0x93, some f.word1)
  | .rayget f => (f.word0 0x94, some f.word1)
  | .ncall f => (f.word0 0xA0, some f.word1)
  | .rgdisp f => (f.word0 0xA1, some f.word1)
  | .brx f => (f.word0 0xA8, some f.word1)
  | .jtabx f => (f.word0 0xA9, some f.word1)
  | .retx f => (f.word0 0xAA 0, none)
  | .discardLu => (LU.word0 ⟨0, 0⟩ 0xAB 0, none)
  | .discard f => (f.word0 0xAB, some f.word1)
  | .sadd f => (f.word0 0x01, none)
  | .saddImm f => (f.word0 0x01, some f.imm)
  | .ssub f => (f.word0 0x02, none)
  | .ssubImm f => (f.word0 0x02, some f.imm)
  | .smul f => (f.word0 0x03, none)
  | .smulImm f => (f.word0 0x03, some f.imm)
  | .smad f => (f.word0 0x04, none)
  | .smadImm f => (f.word0 0x04, some f.imm)
  | .smin f => (f.word0 0x05, none)
  | .sminImm f => (f.word0 0x05, some f.imm)
  | .smax f => (f.word0 0x06, none)
  | .smaxImm f => (f.word0 0x06, some f.imm)
  | .sshl f => (f.word0 0x07, none)
  | .sshlImm f => (f.word0 0x07, some f.imm)
  | .sshr f => (f.word0 0x08, none)
  | .sshrImm f => (f.word0 0x08, some f.imm)
  | .ssar f => (f.word0 0x09, none)
  | .ssarImm f => (f.word0 0x09, some f.imm)
  | .sblut f => (f.word0 0x0A, none)
  | .sblutImm f => (f.word0 0x0A, some f.imm)
  | .spopc f => (f.word0 0x0B, none)
  | .spopcImm f => (f.word0 0x0B, some f.imm)
  | .sclz f => (f.word0 0x0C, none)
  | .sclzImm f => (f.word0 0x0C, some f.imm)
  | .sbfe f => (f.word0 0x0D, none)
  | .sbfeImm f => (f.word0 0x0D, some f.imm)
  | .sbfi f => (f.word0 0x0E, none)
  | .sbfiImm f => (f.word0 0x0E, some f.imm)
  | .ssel f => (f.word0 0x0F, none)
  | .sselImm f => (f.word0 0x0F, some f.imm)
  | .scmp f => (f.word0 0x10, none)
  | .scmpImm f => (f.word0 0x10, some f.imm)
  | .slea f => (f.word0 0x11, none)
  | .sleaImm f => (f.word0 0x11, some f.imm)
  | .smov f => (f.word0 0x12, none)
  | .smovImm f => (f.word0 0x12, some f.imm)
  | .sfadd f => (f.word0 0x20, none)
  | .sfaddImm f => (f.word0 0x20, some f.imm)
  | .sfmul f => (f.word0 0x21, none)
  | .sfmulImm f => (f.word0 0x21, some f.imm)
  | .sffma f => (f.word0 0x22, none)
  | .sffmaImm f => (f.word0 0x22, some f.imm)
  | .scvt f => (f.word0 0x23, none)
  | .scvtImm f => (f.word0 0x23, some f.imm)
  | .sld f => (f.word0 0x28, some f.w1)
  | .sst f => (f.word0 0x29, some f.w1)
  | .satom f => (f.word0 0x2A, some f.w1)
  | .nop f => (f.word0 0x30, none)
  | .bra f => (f.word0 0x31, none)
  | .call f => (f.word0 0x32, none)
  | .ret f => (f.word0 0x33, none)
  | .jtab f => (f.word0 0x34, some f.imm)
  | .regang f => (f.word0 0x35, some f.imm)
  | .exit f => (f.word0 0x36, none)
  | .dbnz f => (f.word0 0x37, some f.imm)
  | .wait f => (f.word0 0x40, none)
  | .waitc f => (f.word0 0x41, some f.w1)
  | .bari f => (f.word0 0x42, none)
  | .bariImm f => (f.word0 0x42, some f.imm)
  | .bara f => (f.word0 0x43, none)
  | .baraImm f => (f.word0 0x43, some f.imm)
  | .barw f => (f.word0 0x44, none)
  | .barwImm f => (f.word0 0x44, some f.imm)
  | .bars f => (f.word0 0x45, none)
  | .barsImm f => (f.word0 0x45, some f.imm)
  | .bard f => (f.word0 0x46, none)
  | .bardImm f => (f.word0 0x46, some f.imm)
  | .fence f => (f.word0 0x47, none)
  | .srd f => (f.word0 0x50, none)
  | .swr f => (f.word0 0x51, none)
  | .setpart f => (f.word0 0x52, none)
  | .setpartImm f => (f.word0 0x52, some f.imm)
  | .setbound f => (f.word0 0x53, none)
  | .setboundImm f => (f.word0 0x53, some f.imm)
  | .rngseed f => (f.word0 0x54, none)
  | .mloop f => (f.word0 0x60, some f.w1)
  | .mclr f => (f.word0 0x61, some f.w1)
  | .manchor f => (f.word0 0x62, some f.w1)
  | .mround f => (f.word0 0x63, some f.w1)
  | .mloada f => (f.word0 0x64, some f.w1)
  | .mbatch f => (f.word0 0x65, some f.w1)
  | .mxform f => (f.word0 0x66, some f.w1)
  | .mesc f => (f.word0 0x67, some f.w1)
  | .mstat f => (f.word0 0x68, some f.w1)
  | .cpy f => (f.word0 0x80, some f.w1)
  | .cpyg f => (f.word0 0x81, some f.w1)
  | .cpyx f => (f.word0 0x82, some f.w1)
  | .tspawn f => (f.word0 0x90, some f.w1)
  | .tnotify f => (f.word0 0x91, some f.w1)
  | .prsv f => (f.word0 0x92, some f.w1)
  | .pput f => (f.word0 0x93, some f.w1)
  | .pget f => (f.word0 0x94, some f.w1)
  | .prel f => (f.word0 0x95, some f.w1)
  | .twtag f => (f.word0 0xA0, some f.w1)
  | .twfree f => (f.word0 0xA1, some f.w1)
  | .twsend f => (f.word0 0xA2, some f.w1)
  | .twrecv f => (f.word0 0xA3, some f.w1)
  | .twrecvSt f => (f.word0 0xA3, some f.w1)
  | .mbput f => (f.word0 0xB0, some f.w1)
  | .mbget f => (f.word0 0xB1, some f.w1)
  | .mbstat f => (f.word0 0xB2, some f.w1)
  | .wpref f => (f.word0 0xB8, some f.w1)
  | .wpin f => (f.word0 0xB9, some f.w1)
  | .wunpin f => (f.word0 0xBA, some f.w1)
  | .wver f => (f.word0 0xBB, some f.w1)
  | .nflush f => (f.word0 0xBC, some f.w1)
  | .trap f => (f.word0 0xC0, some f.imm)
  | .bkpt f => (f.word0 0xC1, none)
  | .mark f => (f.word0 0xC2, some f.imm)
  | .snap f => (f.word0 0xC3, none)
  | .tret f => (f.word0 0xC4, none)
  | .commit f => (f.word0 0xC5, none)
  | _ => (0, none)

/-- The instruction that the decoder reads from an instruction whose bits are w, bit 0 the least significant bit of
word 0 and word 1 from bit 32 on; bits above nbits are 0. -/
def decodeTableWord (nbits w : Nat) : Option Instr :=
  let v := w % 2 ^ nbits
  let w0 := BitVec.ofNat 32 v
  let w1 := BitVec.ofNat 32 (v / 2 ^ 32)
  match decodeBytes (bytesOfWord w0 ++ bytesOfWord w1) with
  | .ok (i, _) => some i
  | .error _ => none

end Sys2Proof
end

