-- ==== Sys2Proof/Config.lean ====
section
/-!
DEFINITION. What an implementation fixes and the spec leaves open: constants with no body, so that no proof can
lean on a value. The log entries of notes/assumptions name each.
-/

namespace Sys2Proof

/-- Which of the enabled completions of asynchronous work an otherwise idle slot of a clock takes: the manual
gives no order (spec/15 R252, R266; spec/17 R277). Applied to State.freeCtr (log 4). -/
opaque Config.freeChoice : Nat → Nat

/-- GANGID values are opaque but differ (spec/09 R145): the number of the gang's start, exclusive-or this (log 6). -/
opaque Config.gangMask : Word

/-- Tokens of copies, rays, sends and mailbox requests are opaque but name one operation (spec/15 R266): the number of
the operation, exclusive-or this (log 6). -/
opaque Config.tokenMask : Word

/-- The silicon stepping of KHID (spec/01 R28: "per part") (log 7). -/
opaque Config.stepping : BitVec 4

/-- The boot ROM's version (spec/01 R26), to which the manual gives no value (log 8). -/
opaque Config.bootRomVersion : Word

/-- What is fused into die 0: the SHA-256 digest of the key that signs firmware, and the least security version
(spec/01 R24; log 8). -/
opaque Config.fusedKeyDigest : Nat → Byte
opaque Config.fusedVersion : BitVec 16

/-- The private device identity key, and the secret number that a signature over a digest takes, with its tries
(spec/01 R26, R27; log 8). -/
opaque Config.identityKey : BitVec 256
opaque Config.signSecret : List Byte → Nat → BitVec 256

/-- The module number that firmware writes to KHMOD (spec/01 R22, R28) (log 8). -/
opaque Config.moduleNumber : BitVec 6

/-- A byte on which the manual gives both outcomes ("the old bytes or the new ones", "performed or not"):
true takes the new one. Applied to State.freeCtr (log 9). -/
opaque Config.freeBit : Nat → Bool

/-- Whether a word of code that has been stored to since it was first fetched is fetched as it was (spec/09 R129: "each
fetched word is independently the old word or the new one"). Applied to its place, the clock and State.freeCtr (log 43). -/
opaque Config.oldCode : Nat → Nat → Nat → Bool

/-- The integer N of an accumulator element that MLOADA loads with an infinity or a NaN: spec/17 R291 states none.
Applied to State.freeCtr (log 17). -/
opaque Config.freeAcc : Nat → BitVec 128

/-- What EP_BUDGET returns for a budget that is none, and EP_LOGVER before any action: spec/25 R367 states neither.
Applied to State.freeCtr (log 22). -/
opaque Config.freeResult : Nat → BitVec 64

/-- The satp under which the supervisor runs an episode, by its number: spec/25 gives it no value (log 60). -/
opaque Config.episodeSatp : Nat → BitVec 64

/-- Where the output blocks of a draw's vertex teams lie (spec/27 R380 gives no place), by the draw's number (log 24). -/
opaque Config.vertexBlock : Nat → BitVec 64

/-- Conventions of the view volume and the viewport that spec/27 R381 leaves open (log 25): whether y grows down the
screen as in clip space, and whether the near plane is z = −w and not z = 0. -/
opaque Config.viewYDown : Bool
opaque Config.viewNearNeg : Bool

/-- Which winding of a triangle shows its back to a ray (spec/27 R390, R391; log 26). -/
opaque Config.backWhenAligned : Bool

end Sys2Proof
end

