-- ==== Sys2Proof/Machine/State.lean ====
section
/-!
DEFINITION. The state of the module as plain data: every piece of state the spec gives it (INVENTORY.md, State), and
State.reset. A bank of like things is a list sorted by key in which an unlisted key holds the bank's default
(Machine/Tab.lean reads and writes it).
-/

namespace Sys2Proof.Machine

/-- Why the machine stops outside the traps of the KH9. Every fault of the spec is taken by the machine itself
(spec/29 R396) and is a next state. -/
inductive Fault where
  /-- Raised by an instruction when State.cur names no split of a resident team; no hardware state is like that, so
  stopping is safe. -/
  | noSplit
  deriving DecidableEq, Repr

/-- Why an instruction has no meaning. -/
inductive Refusal where
  /-- Raised by an arm of exec whose instruction has no meaning yet; safe, since nothing is claimed of it. -/
  | notModelled (mnemonic : String)
  deriving DecidableEq, Repr

/-! ## Slices, splits, warps (spec/03) -/

/-- An entry of a slice's deferral stack (spec/03 R36, R37; spec/13 R226). -/
structure DefEntry where
  lanes    : BitVec 4 := 0
  addr     : Addr := 0
  reconv   : Addr := 0
  deferred : Bool := false
  recorded : BitVec 4 := 0
  deriving DecidableEq, Repr

/-- What each slice holds (spec/03 R31, R41, R42). -/
structure Slice where
  live      : BitVec 4 := 15
  act       : BitVec 4 := 15
  dstack    : List DefEntry := []
  sregs     : List (Nat × Word) := []
  q         : BitVec 7 := 0
  part      : Nat := 32
  rstack    : List Addr := []
  rngLo     : Word := 0
  rngHi     : Word := 0
  rngCtr    : Word := 0
  trapCode  : Word := 0
  trapPc    : Word := 0
  trapInfo  : Word := 0
  inHandler : Bool := false
  /-- The handler in force was entered for GANGKILL or WATCHDOG (spec/29 R396, TRET). -/
  lastRites : Bool := false
  resume    : Addr := 0
  retired   : Word := 0
  clockHi   : Option Word := none
  rtickHi   : Option Word := none
  /-- What a debugger has put into entries of the two stacks beyond their depth (spec/29 R408). -/
  rspare    : List (Nat × Addr) := []
  dspare    : List (Nat × DefEntry) := []
  deriving DecidableEq, Repr, Inhabited

/-- A deferred fault held by a split (spec/29 R398): what it will show, the clock it was detected in, whether every
split of the warp or the team takes it (spec/29 R415), and the value of MB at a matrix fault, whose batch a WAIT for a
lower one covers (spec/17 R283). -/
structure Deferred where
  code  : Nat
  info  : Word
  lane  : Nat
  clock : Nat
  all   : Bool
  mb    : Nat := 0
  deriving DecidableEq, Repr

/-- What keeps a split from issuing (spec/03 R50). -/
inductive Wait where
  | none
  /-- Held back with a stall reason of spec/03 R55. -/
  | stall (reason : Nat)
  /-- Joined a fuse group (spec/03 R39). -/
  | regang
  /-- In BARS, which has arrived, or in BARW at a barrier whose phase has not completed, with the address after it
  (spec/13 R234). -/
  | barrier (n : Nat) (next : Addr) (arrived : Bool)
  /-- A WAITC in progress, between two evaluations (spec/13 R231). -/
  | waitc
  /-- A translation is being walked (spec/29 R400), with the stall reason of the access. -/
  | walk (reason : Nat)
  /-- Parked until the page service answers a request (spec/29 R400), with the stall reason of the access. -/
  | parked (req reason : Nat)
  deriving DecidableEq, Repr

/-- A WAITC that has issued (spec/13 R231): its fields, the tick of its issue, the clock in which its memory conditions
were last read, and which of its codes held then. -/
structure WaitcRun where
  f     : UE
  start : Nat
  last  : Nat
  seen  : List Bool
  deriving DecidableEq, Repr

/-- An entry of a split table (spec/03 R33) with its held faults. -/
structure Split where
  mask      : BitVec 8
  pc        : Addr
  parent    : Nat
  lastIssue : Nat
  wait      : Wait := .none
  /-- The WAITC at which the split stands, from its issue until it retires. -/
  waitc     : Option WaitcRun := none
  deferred  : List Deferred := []
  deriving DecidableEq, Repr

/-- A divergence record (spec/03 R34); the root has no outer identifier. -/
structure DivRec where
  id    : Nat
  mask  : BitVec 8
  outer : Option Nat
  deriving DecidableEq, Repr

/-- A fuse group at a REGANG (spec/03 R39): the clock of its first arrival and the wait of the immediate. -/
structure FuseGroup where
  pc     : Addr
  parent : Nat
  mask   : BitVec 8
  first  : Nat
  limit  : Nat
  deriving DecidableEq, Repr

/-- Registers held by the scoreboard for an operation (spec/03 R50, spec/17 R279): `src` holds may be read. -/
structure Hold where
  id     : Nat
  vregs  : List Nat
  sregs  : List Nat
  src    : Bool
  reason : Nat
  deriving DecidableEq, Repr

/-- The class of an accumulator element with its infinity notes (spec/05 R77); `pinned` marks an element that
ignores finite contributions (spec/05 R76). -/
inductive AccClass where
  | finite
  | posInf
  | negInf
  | nan
  deriving DecidableEq, Repr

structure AccElem where
  cls     : AccClass := .finite
  posNote : Bool := false
  negNote : Bool := false
  pinned  : Bool := false
  deriving DecidableEq, Repr

/-- The state that the matrix unit keeps beside a slot (spec/17 R271). -/
structure Slot where
  anchor : Int := 0
  elems  : List (Nat × AccElem) := []
  sat    : Word := 0
  live   : Bool := false
  deriving DecidableEq, Repr

/-- A split that has exited: its lowest slice, the address of its EXIT, the clock. -/
structure Exited where
  slice : Nat
  pc    : Addr
  clock : Nat
  deriving DecidableEq, Repr

/-- A warp (spec/03 R34, R44 to R46; spec/15 R252; spec/17 R271, R276, R278). Entries are keyed 32·entry + lane. -/
structure Warp where
  num     : Nat
  iu      : Nat
  role    : Nat
  budget  : Nat
  vbound  : Nat
  entries : List (Nat × Word) := []
  preds   : List (Nat × BitVec 32) := []
  slices  : List Slice
  splits  : List Split
  recs    : List DivRec
  idCtr   : Nat := 1
  groups  : List FuseGroup := []
  ld      : Nat := 0
  st      : Nat := 0
  cp      : Nat := 0
  mb      : Nat := 0
  ntok    : Nat := 0
  holds   : List Hold := []
  slots   : List (Nat × Slot) := []
  /-- Matrix operations of the open batch, and of each closed one with its number (spec/17 R278). -/
  openOps : List Nat := []
  closed  : List (Nat × List Nat) := []
  batchNo : BitVec 8 := 0
  /-- Slots that an MCLR.FREE of the open batch frees when the batch closes (spec/17 R289). -/
  freeing : List Nat := []
  descA   : Option Word := none
  descB   : Option Word := none
  /-- The register budget has returned to the pool (spec/03 R57). -/
  returned : Bool := false
  /-- The splits that have exited in the clock of the last EXIT (spec/29 R409). -/
  exits    : List Exited := []
  deriving DecidableEq, Repr

/-! ## Teams, gangs, tasks (spec/03, spec/13, spec/19) -/

/-- A named barrier (spec/13 R232). `byLeave` and `byStay` name the warps with a slice that arrived in this phase
by BARD, and by BARA or BARS (spec/13 R235 case 6). -/
structure Barrier where
  init    : Bool := false
  members : BitVec 32 := 0
  arrived : BitVec 32 := 0
  slices  : List (Nat × BitVec 8) := []
  leaving : BitVec 32 := 0
  phase   : BitVec 16 := 0
  byLeave : BitVec 32 := 0
  byStay  : BitVec 32 := 0
  deriving DecidableEq, Repr

/-- What a team is started for (spec/27 R380, R381): for a pixel team the pixel of each lane of each warp, keyed
32·warp + lane, with its coverage, and the lane's v2 onward. -/
inductive TeamKind where
  | compute
  | vertex (draw first : Nat)
  | pixel (draw prim : Nat) (pixels : List (Nat × (Nat × Nat × Bool))) (inputs : List (Nat × List Word))
  deriving DecidableEq, Repr

structure Team where
  uid       : Nat
  ctx       : Nat
  inst      : Word
  core      : Nat
  gang      : Nat
  num       : Nat
  taskIdx   : Nat
  prod      : Nat
  warps     : List Warp
  scrBase   : Nat
  scrBytes  : Nat
  entry     : Addr
  kind      : TeamKind := .compute
  flags     : Word := 0
  /-- The flags raised in clock raisedAt: an SWR of FLAGS in that clock keeps them (spec/05 R86). -/
  raised    : Word := 0
  raisedAt  : Nat := 0
  fctl      : Word := 0
  tbase     : Word := 0xFFFFFFFF
  stalls    : List (Nat × Word) := []
  bars      : List Barrier
  preempt   : Bool := false
  halted    : Bool := false
  /-- A step of the debugger is in force for this split (spec/29 R406). -/
  stepping  : Option Sel := none
  startTick : Nat
  /-- The clock in which a warp of the team last issued (spec/03 R55). -/
  issuedAt  : Nat := 0
  watched   : Bool := false
  removeAt  : Option Nat := none
  exited    : Bool := false
  /-- The team runs in chunks under RECORD, or under REPLAY as the log has them (spec/29 R413, R414). -/
  recorded  : Bool := false
  replayed  : Bool := false
  chunk     : Nat := 0
  deriving DecidableEq, Repr

/-- A pipe slot's state with the team that last changed it (spec/19 R316). -/
inductive PipeSt where
  | free
  | reserved
  | full
  | taken
  deriving DecidableEq, Repr

structure Pipe where
  num     : Nat
  durable : Bool
  sbytes  : Nat
  base    : Nat
  slots   : List (PipeSt × Option Nat)
  prod    : Nat := 0
  cons    : Nat := 0
  deriving DecidableEq, Repr

structure Gang where
  uid      : Nat
  ctx      : Nat
  gangId   : Word
  cluster  : Nat
  task     : Nat
  prio     : Nat
  teams    : List Nat
  pipes    : List Pipe := []
  drain    : Bool
  started  : Nat
  /-- Tick at which the drain bound of a pre-emption runs out (spec/19 R324); a halted gang defers it. -/
  drainAt  : Option Nat := none
  pending  : Bool := false
  /-- A team of the gang has been killed: the task is never complete and never restarts (spec/03 R61, spec/19 R310). -/
  killed   : Bool := false
  deriving DecidableEq, Repr

/-- A kernel descriptor (spec/19 R305). -/
structure KernelDesc where
  entry : Addr
  bars  : Nat
  prod  : Nat
  warps : Nat
  cvb   : Nat
  pvb   : Nat
  cbud  : Nat
  pbud  : Nat
  scr   : Nat
  deriving DecidableEq, Repr

/-- An input descriptor (spec/19 R306). -/
structure InputDesc where
  addr    : Addr
  team    : Nat
  pipe    : Option Nat
  rowb    : Nat
  rows    : Nat
  pitch   : Nat
  doff    : Nat
  tstride : Addr
  deriving DecidableEq, Repr

/-- A word of the pipe table (spec/19 R306). -/
structure PipeDesc where
  num     : Nat
  durable : Bool
  slots   : Nat
  sbytes  : Nat
  deriving DecidableEq, Repr

/-- A launch record taken from a queue, with the descriptors it names (spec/19 R304, R308, R310). -/
structure Record where
  uid       : Nat
  ctx       : Nat
  prio      : Nat
  addr      : Addr
  drain     : Bool
  count     : Nat
  wait      : Option Nat
  notify    : List Nat
  kernels   : List KernelDesc
  inputs    : List InputDesc
  pipes     : List PipeDesc
  args      : List Word
  ready     : Bool
  /-- Tasks sent to a scheduler, and tasks not yet complete. -/
  sent      : Nat := 0
  left      : Nat
  deriving DecidableEq, Repr

/-- Where a task stands (spec/19 R312, R313, R417). -/
inductive TaskSt where
  | unplaced
  /-- Waiting for the answer to a page request (spec/19 R417, spec/29 R400). -/
  | held (req : Nat)
  /-- Placed: c0, base of each team's allocation, base of each pipe, and the staging copies not yet complete. -/
  | staged (c0 : Nat) (scr pipes : List Nat) (copies : List Nat)
  | running (gang : Nat)
  deriving DecidableEq, Repr

structure Task where
  uid      : Nat
  record   : Nat
  idx      : Nat
  ctx      : Nat
  prio     : Nat
  cluster  : Nat
  arrival  : Nat
  tick     : Nat
  bypassed : Nat := 0
  /-- A durable pipe's slots kept across a discard (spec/19 R318). -/
  kept     : List Pipe := []
  /-- Discarded instances whose operations must have stopped before the gang restarts (spec/07 R119). -/
  oldTeams : List Nat := []
  work     : TeamKind := .compute
  st       : TaskSt := .unplaced
  deriving DecidableEq, Repr

/-! ## Asynchronous operations -/

/-- A byte in an L1 (spec/07 R99), with the team that wrote it last (spec/29 R413). -/
structure L1Byte where
  data  : Byte
  dirty : Bool
  owner : Nat
  deriving DecidableEq, Repr

/-- One lane's atomic on its way to the place of execution (spec/07 R120, spec/15 R260). `key` is the physical key,
or the scratchpad key; results go to lane `lane` of vector registers, or to uniform registers. -/
structure AtomReq where
  scratch : Bool
  key     : Nat
  bytes   : Nat
  oc      : BitVec 7
  x       : BitVec 128
  y       : BitVec 128
  order   : BitVec 3
  scope   : BitVec 3
  lane    : Nat
  vd      : Nat
  ret     : Bool
  deriving DecidableEq, Repr

/-- A load, atomic, store or reduction in flight (spec/15 R252). `dest` is the mask of slices whose uniform registers
it writes: a fuse carries it along (spec/03 R42). -/
structure MemOp where
  id      : Nat
  x       : Sel
  mask    : BitVec 8
  core    : Nat
  isLoad  : Bool
  uniform : Bool
  vwrites : List (Nat × Nat × Word) := []
  swrites : List (Nat × Word) := []
  dest    : BitVec 8 := 0
  atoms   : List AtomReq := []
  /-- Bytes a weak store wrote, each with what L1 held before: a discard may leave it unperformed (spec/19 R322). -/
  stored  : List (Nat × Byte × Option L1Byte) := []
  /-- The granules that it asks for below L1 (spec/01 R10, R12). -/
  lines   : List Nat := []
  /-- The lowest lane whose returned bits decide INV (spec/15 R260). -/
  retInv  : Option Nat := none
  /-- FCTL as read at issue (spec/05 R87). -/
  fctl    : Word := 0
  deriving DecidableEq, Repr

/-- Which copy (spec/15 R264). `scratch` flags name the sides that lie in scratchpad. -/
inductive CopyKind where
  | cpy (srcScr dstScr : Bool) (rows rowBytes : Nat)
  | cpyg (rows rowBytes : Nat)
  | cpyx (srcScr dstScr : Bool) (r c e : Nat)
  deriving DecidableEq, Repr

structure CopyOp where
  id      : Nat
  core    : Nat
  engine  : Nat
  ctx     : Nat
  x       : Sel
  token   : Word
  kind    : CopyKind
  src     : Nat
  dst     : Nat
  /-- The index list of CPYG (spec/15 R268). -/
  ix      : Nat
  spitch  : Nat
  dpitch  : Nat
  rot     : Nat
  staging : Option Nat
  /-- Waits for the page service (spec/15 R267). -/
  waitFor : Option Nat := none
  /-- Ends with this fault (spec/15 R267). -/
  failed  : Option (Nat × Word) := none
  dead    : Bool := false
  deriving DecidableEq, Repr

/-- An operand of a matrix operation, its registers read at issue (spec/17 R273, R274). -/
inductive MatOperand where
  | scratch (base tpitch lpitch rot : Nat)
  | regs (v : Nat)
  deriving DecidableEq, Repr

inductive MatKind where
  | mloop (fa fb : BitVec 4) (a b : MatOperand) (steps : Nat) (sparse : Option Nat) (descA descB : Option Word)
  | mxform (fx : BitVec 4) (op : Nat) (x : MatOperand) (ix : Nat) (descB : Option Word)
  | mclr (free : Bool)
  | manchor (anchor : Int)
  | mloada (f : BitVec 4) (add : Bool) (va row0 rows : Nat)
  | mround (f : BitVec 4) (rnd : BitVec 3) (sat : Bool) (shift : Int) (vd row0 rows : Nat)
  | mstat (nanCount : Bool) (sd : Nat)
  deriving DecidableEq, Repr

structure MatOp where
  id    : Nat
  core  : Nat
  x     : Sel
  mask  : BitVec 8
  slot  : Nat
  shape : BitVec 2
  kind  : MatKind
  dest  : BitVec 8
  /-- FCTL as read at issue (spec/05 R87). -/
  fctl  : Word
  step  : Nat := 0
  deriving DecidableEq, Repr

/-- A range-lock entry (spec/07 R115, R119): bytes lo to hi − 1; scratch ranges are counted in offsets. -/
structure RLock where
  op      : Nat
  core    : Nat
  scratch : Bool
  lo      : Nat
  hi      : Nat
  write   : Bool
  dead    : Bool := false
  deriving DecidableEq, Repr

/-- A token of a team (spec/15 R266, spec/23 R353, spec/25 R376): none is pending. A WAITC that observes the completion of
a landing is an acquire at device scope (spec/23 R356, spec/25 R375). -/
structure Token where
  val      : Word
  team     : Nat
  status   : Option Nat
  acquires : Bool
  deriving DecidableEq, Repr

/-- A texture read in flight (spec/27 R386, R387): the values are what the reads gave at issue; `bad` is the address
of a bad descriptor. -/
structure TexOp where
  id      : Nat
  x       : Sel
  mask    : BitVec 8
  vwrites : List (Nat × Nat × Word)
  bad     : Option Word
  deriving DecidableEq, Repr

/-- How a ray stands (spec/27 R391). -/
inductive RaySt where
  | running
  | miss
  | hit
  | candidate
  | error
  deriving DecidableEq, Repr

/-- A hit's record: distance, barycentrics, primitive, back face. -/
structure RayHit where
  t    : Word
  b1   : Word
  b2   : Word
  prim : Word
  back : Bool
  deriving DecidableEq, Repr

structure Ray where
  id      : Nat
  core    : Nat
  x       : Sel
  mask    : BitVec 8
  token   : Word
  ctx     : Nat
  /-- origin, tmin, direction, tmax: eight FP32 words. -/
  geom    : List Word
  root    : Nat
  first   : Bool
  cull    : Bool
  opq     : Bool
  st      : RaySt := .running
  best    : Option RayHit := none
  /-- The candidate offered, and how many candidates have been decided: the traversal up to it is fixed
  (spec/27 R389), so the list of decisions stands for the traversal's state. -/
  cand    : Option RayHit := none
  decided : List Bool := []
  ended   : Bool := false
  /-- The lane that started it; the visits that one step of the unit makes at most, doubled when they do not suffice. -/
  lane    : Nat := 0
  visits  : Nat := 65536
  deriving DecidableEq, Repr

/-- A RAYQ or RAYCONT outstanding on LD, with the rays it names (spec/27 R391). -/
structure RayOp where
  id   : Nat
  x    : Sel
  rays : List Nat
  deriving DecidableEq, Repr

/-- An NCALL not all of whose rows are written (spec/21 R336 to R338). -/
structure NCall where
  id       : Nat
  x        : Sel
  mask     : BitVec 8
  core     : Nat
  ctx      : Nat
  vd       : Nat
  no       : Nat
  /-- Rows not yet placed: lane, inputs, handle. -/
  rows     : List (Nat × List Word × Word)
  accepted : Bool := false
  clock    : Nat
  left     : Nat
  faulted  : Bool := false
  deriving DecidableEq, Repr

/-- A row in a bin or a tile (spec/21 R339), with the clock in which it was placed. -/
structure Row where
  call   : Nat
  lane   : Nat
  handle : Word
  inputs : List Word
  placed : Nat
  deriving DecidableEq, Repr

/-- A version's key: context, set, version (spec/21 R333). -/
structure VerKey where
  ctx : Nat
  set : Nat
  ver : Nat
  deriving DecidableEq, Repr

structure Bin where
  key    : VerKey
  rows   : List Row
  oldest : Nat
  deriving DecidableEq, Repr

/-- A tile in the pipe queue (spec/21 R340): its rows, when the oldest was placed, and the clock of its dispatch. -/
structure Tile where
  key    : VerKey
  rows   : List Row
  oldest : Nat
  clock  : Nat
  deriving DecidableEq, Repr

/-- A version in a weight cache (spec/21 R333): its bytes, or bad (spec/21 R329). -/
structure WVersion where
  key   : VerKey
  bytes : List Byte
  bad   : Bool
  used  : Nat
  pins  : List Nat
  deriving DecidableEq, Repr

/-- A load of a version in progress (spec/21 R334, R341). The version is that of a handle until the descriptor is
known; `early` loads are those of WPREF and WPIN. WPINs that wait write their register: split, slices, register, hold. -/
structure WLoad where
  id     : Nat
  key    : VerKey
  desc   : Option Nat
  early  : Bool
  pins   : List (Sel × BitVec 8 × Nat × Nat) := []
  unpins : List Nat := []
  deriving DecidableEq, Repr

/-- The regroup unit and weight cache of a cluster (spec/21 R333, R339). Bins are in ascending bin number. -/
structure Regroup where
  queue : List Nat := []
  bins  : List (Nat × Bin) := []
  tiles : List Tile := []
  lastCore : List Nat := []
  cache : List WVersion := []
  loads : List WLoad := []
  deriving DecidableEq, Repr

/-- An RGDISP in flight (spec/21 R344): lane, key, payload words. -/
structure RgOp where
  id    : Nat
  x     : Sel
  mask  : BitVec 8
  ctx   : Nat
  table : Nat
  vd    : Nat
  rows  : List (Nat × Word × List Word)
  deriving DecidableEq, Repr

/-- A Twill send at a core's port (spec/23 R350, R351, R354): `next` is the clock in which its tile reaches the router, 0
while it travels; `again` after a refusal; `peer` is the module of a core of another module. -/
structure TwSend where
  id    : Nat
  core  : Nat
  ctx   : Nat
  x     : Sel
  mask  : BitVec 8
  tag   : Word
  op    : Nat
  dest  : Word
  tile  : List Byte
  token : Word
  tries : Nat := 0
  next  : Nat := 0
  again : Bool := false
  peer  : Option Nat := none
  deriving DecidableEq, Repr

structure Landing where
  id    : Nat
  core  : Nat
  ctx   : Nat
  x     : Sel
  tag   : Word
  off   : Nat
  token : Word
  tick  : Nat
  deriving DecidableEq, Repr

/-- An entry of a matching store, or a spill record, whose tile then lies in its slot (spec/23 R354, R355); `senders`
are those whose tiles it has taken. -/
structure Meeting where
  id       : Nat
  router   : Nat
  ctx      : Nat
  tag      : Word
  combined : Bool
  op       : Nat
  dest     : Word
  tile     : List Byte
  tick     : Nat
  senders  : List (Sel × BitVec 8)
  spilled  : Bool
  retryAt  : Nat := 0
  deriving DecidableEq, Repr

/-- A mailbox request not yet answered (spec/25 R374, R375). -/
structure MbReq where
  id      : Nat
  core    : Nat
  ctx     : Nat
  x       : Sel
  mask    : BitVec 8
  put     : Bool
  header  : BitVec 64
  payload : List Byte
  pair    : Nat
  sd      : Nat
  token   : Word
  off     : Nat
  trap    : Bool
  deriving DecidableEq, Repr

/-- The state of a mailbox pair (spec/25 R370). -/
inductive PairSt where
  | free
  | obsWait
  | obsReady
  | actWait
  | ended
  deriving DecidableEq, Repr

structure Pair where
  st       : PairSt := .free
  step     : Nat := 0
  owner    : Nat := 0
  episode  : Nat := 0
  last     : Nat := 0
  /-- The terminal status posted, if any. -/
  terminal : Option Nat := none
  obsPver  : Nat := 0
  obs      : List Byte := []
  /-- The action accepted and not yet copied by EP_ACT_WAIT: header and payload. -/
  action   : Option (BitVec 64 × List Byte) := none
  landing  : Option MbReq := none
  endTick  : Nat := 0
  deriving DecidableEq, Repr

/-- An entry of physical memory protection of a Sorghum core (spec/25 R359). -/
structure PmpEntry where
  cfg  : Byte
  addr : BitVec 64
  deriving DecidableEq, Repr

/-- An episode (spec/25 R363 to R368): descriptor fields, budgets left, its user state. -/
structure Episode where
  pair    : Nat
  ctx     : Nat
  num     : Nat
  wbase   : Nat
  wsize   : Nat
  entry   : Nat
  /-- Ticks and retired user instructions left; none is no budget. -/
  tbud    : Option Nat
  ibud    : Option Nat
  reward  : Bool
  follow  : Bool
  pver    : Nat
  result  : Nat
  /-- The version that WSH binds. -/
  bound   : Option VerKey
  /-- The version of the last accepted action. -/
  lastPver : Option Nat := none
  value   : BitVec 64 := 0
  /-- Buffer and capacity of an EP_ACT_WAIT that has not returned. -/
  waiting : Option (Nat × Nat) := none
  /-- The episode is stopped and its end record is to be written: the terminal status, with a payload where the
  environment posted one. -/
  ending  : Option (Nat × Option (List Byte)) := none
  /-- Its terminal observation is posted but not delivered (EP_OBS_POST with DONE). -/
  posted  : Bool := false
  /-- Sorghum core of the pair's die that runs it, and the tick at which its time slice ends (spec/25 R365). -/
  core    : Option Nat := none
  sliceEnd : Nat := 0
  order   : Nat := 0
  /-- The user state (spec/25 R359, R365): the integer and floating-point registers, fcsr, the pc, the root of the Sv39
  tables, and the reservation of an LR with the bytes it read: the home key of each piece. -/
  xs      : List (BitVec 64) := List.replicate 32 0
  fs      : List (BitVec 64) := List.replicate 32 0
  fcsr    : Byte := 0
  pc      : BitVec 64 := 0
  satp    : BitVec 64 := 0
  resv    : Option (Nat × List Byte) := none
  deriving DecidableEq, Repr

/-- A draw (spec/27 R379, R381): its kernels, its target's base, width and height, the block that its vertex teams
write, the first vertex of each vertex team that has exited, and the next primitive of each die's front end (spec/01 R9). -/
structure Draw where
  id     : Nat
  ctx    : Nat
  vkern  : KernelDesc
  pkern  : KernelDesc
  nattr  : Nat
  dfunc  : Nat
  dwr    : Bool
  zout   : Bool
  blend  : Nat
  recb   : Nat
  nprim  : Nat
  base   : Nat
  width  : Nat
  height : Nat
  block  : Nat
  done   : List Nat := []
  next   : List Nat := [0, 0, 0, 0]
  deriving DecidableEq, Repr

/-- The export of a pixel by its team (spec/27 R382); a killed lane exports nothing. -/
inductive PixelSt where
  | running
  | dropped
  | exported (rgba : List Word) (depth : Word)
  deriving DecidableEq, Repr

/-- A pixel that a primitive covers, from rasterisation until the back end has applied or dropped it
(spec/27 R381 to R383); `depth` is the interpolated depth. -/
structure PixelWork where
  cluster : Nat
  draw    : Nat
  prim    : Nat
  x       : Nat
  y       : Nat
  task    : Nat
  depth   : Word
  /-- The team in force; 0 before one starts. -/
  team    : Nat := 0
  /-- The team has exited: the export may be applied. -/
  final   : Bool := false
  st      : PixelSt := .running
  deriving DecidableEq, Repr

/-! ## Memory side (spec/01, spec/07, spec/29) -/

/-- A byte in a far cache with the generation of its fill (spec/07 R101). -/
structure FarByte where
  data : Byte
  gen  : Nat
  deriving DecidableEq, Repr

/-- A cached page entry (spec/29 R399, R400): unit is the core, or 128 + cluster. -/
structure TlbEntry where
  unit  : Nat
  ctx   : Nat
  base  : Nat
  size  : Nat
  entry : BitVec 64
  deriving DecidableEq, Repr

/-- What an access asks of a page (spec/29 R399). -/
inductive Access where
  | load
  | store
  | fetch
  deriving DecidableEq, Repr

/-- A word in the instruction buffer of a core, as a context's splits first fetched it (spec/09 R129). -/
structure CodeWord where
  core : Nat
  ctx  : Nat
  key  : Nat
  word : Word
  deriving DecidableEq, Repr

/-- The use of a scratchpad bank (spec/07 R97): the clock in which its present accesses came, and the first in which it is
free again. -/
structure BankUse where
  since : Nat := 0
  till  : Nat := 0
  deriving DecidableEq, Repr

/-- An access that waits for a page walk (spec/29 R400): of a split, with its lane. -/
structure Waiter where
  x    : Sel
  core : Nat
  lane : Nat
  va   : Nat
  kind : Access
  deriving DecidableEq, Repr

/-- A page walk in progress of a die's walker (spec/29 R400), for a page of a context: the accesses that have merged onto
it, of splits, and of copies by their numbers and cores. -/
structure Walk where
  id     : Nat
  die    : Nat
  ctx    : Nat
  va     : Nat
  who    : List Waiter
  copies : List (Nat × Nat) := []
  deriving DecidableEq, Repr

/-- Who waits for a page request (spec/29 R400). -/
inductive Requester where
  | split (x : Sel) (lane va : Nat)
  /-- A flush gang was discarded; its task waits (its record of the kill names the team). -/
  | task (uid : Nat) (inst core : Word) (va : Nat)
  | staging (uid va : Nat)
  | copy (id va : Nat)
  /-- A ray, a texture read, an RGDISP, a version load, a Twill delivery, by the number of the operation. -/
  | unit (id : Nat)
  /-- The serving unit at queue p of context c (p = 4 to 7: spawned records of priority p − 4), or at EPQ (8). -/
  | queue (c p : Nat)
  /-- A decrement of a counter of context c (spec/19 R309). -/
  | counter (c idx : Nat)
  /-- A Sorghum core that runs the episode of a pair. -/
  | episode (pair : Nat)
  deriving DecidableEq, Repr

/-- A refusal by the page service that a unit has not yet acted on: its region and the fault's code. -/
structure Refused where
  who  : Requester
  lo   : Nat
  size : Nat
  code : Nat
  deriving DecidableEq, Repr

/-- An open page request (spec/29 R400): the region, and what its PAGEREQ record holds. -/
structure PageReq where
  id    : Nat
  /-- None while its record waits for room in the fault ring (spec/29 R401). -/
  seq   : Option Word
  lo    : Nat
  size  : Nat
  va    : Nat
  inst  : Word
  core  : Word
  info  : Word
  /-- The tick of the event (spec/29 R401). -/
  tick  : Nat
  who   : List Requester
  deriving DecidableEq, Repr

/-- A TLBINV in progress (spec/29 R402). -/
structure TlbInv where
  lo  : Nat
  len : Nat
  deriving DecidableEq, Repr

/-- Power of a slice column (spec/01 R15): off since a clock, or waking until one. -/
inductive ColPower where
  | on
  | off (since : Nat)
  | waking (ready : Nat)
  deriving DecidableEq, Repr

/-- What asks for lines: the units behind the requester ports of a crossbar (spec/01 R10). -/
inductive XSource where
  | core (core : Nat)
  | engine (cluster engine : Nat)
  | regroup (cluster : Nat)
  | weights (cluster : Nat)
  | atomics (cluster : Nat)
  | pixels (cluster : Nat)
  | murus (link : Nat)
  | sorghum (die core : Nat)
  | taskUnit (die : Nat)
  | raster (die : Nat)
  | walker (die : Nat)
  | cxl
  | housekeeping
  deriving DecidableEq, Repr

/-- A request for the line of a 64-byte granule: its source, the operation that waits for it (0: none does), the
granule's physical key, whether it carries data to it, and the clock in which its requester port accepted it. -/
structure XReq where
  src   : XSource
  op    : Nat
  key   : Nat
  write : Bool
  at'   : Nat := 0
  deriving DecidableEq, Repr

/-- A requester port (spec/01 R11): the requests that wait at it, and the sources it has granted, the one granted
longest ago first. -/
structure Port where
  waiting : List XReq := []
  served  : List XSource := []
  deriving DecidableEq, Repr

/-- One slice column of a crossbar with its slice (spec/01 R13 to R15): ports from highest to lowest priority, requests
held at their crosspoints, the clock since which it is idle, its power; the replay queue, whose entries re-enter once
their line is there; the lines that the slice caches and those being filled; the last grant. -/
structure Column where
  prio    : List Nat := List.range 64
  held    : List XReq := []
  idleAt  : Nat := 0
  power   : ColPower := .on
  replay  : List XReq := []
  lines   : List Nat := []
  filling : List Nat := []
  granted : Option XReq := none
  deriving DecidableEq, Repr

/-- What a die-to-die link carries (spec/01 R16): a request on its way to the home of its line, or to the die of the port
that leads there; its answer on the way back; a tile of the send of this number, or one that a router delivers; a request
for work by a cluster, or the work. -/
inductive Cargo where
  | request (r : XReq)
  | answer (r : XReq)
  | tile (send : Nat)
  | delivery
  | steal (thief : Nat)
  | work (task : Nat)
  deriving DecidableEq, Repr

/-- A message on a link: what it is, and the bytes of it that have not been received. -/
structure LinkMsg where
  cargo : Cargo
  data  : List Byte
  deriving DecidableEq, Repr

/-- A die-to-die link (spec/01 R17): its messages, in the order in which they were sent; the beats delivered, and whether
a damaged one is to be sent again. -/
structure Link where
  msgs      : List LinkMsg := []
  delivered : Nat := 0
  retrying  : Bool := false
  deriving DecidableEq, Repr

/-! ## Register window (spec/01, 19, 21, 23, 25, 29) -/

structure Queue where
  base : BitVec 64 := 0
  size : BitVec 64 := 0
  head : Word := 0
  tail : Word := 0
  deriving DecidableEq, Repr

/-- A stop in force (spec/29 R407). -/
structure StopReq where
  inst    : Word
  team    : Option Nat
  task    : Nat
  num     : Nat
  warp    : Nat
  slice   : Nat
  target  : Word
  deriving DecidableEq, Repr

/-- The registers and device-kept values of a context. -/
structure Ctx where
  q0 : Queue := {}
  q1 : Queue := {}
  q2 : Queue := {}
  q3 : Queue := {}
  qerr    : Word := 0
  depBase : BitVec 64 := 0
  depSize : Word := 0
  spBase  : BitVec 64 := 0
  spSize  : Word := 0
  spHead  : Word := 0
  spTail  : Word := 0
  /-- For each spawned record not yet taken: the QTAILs of the four host queues when it was copied (R300). -/
  spMarks : List (List Word) := []
  drainB  : Word := 0
  hold    : Bool := false
  kill    : Bool := false
  wsBase  : BitVec 64 := 0
  wsSize  : Word := 0
  twtBase : BitVec 64 := 0
  twOvBase : BitVec 64 := 0
  twTags  : Word := 0
  twOrph  : Word := 0xFFFFFFFF
  twSpill : Word := 0
  twOrphN : Word := 0
  rotor   : Nat := 0
  epqBase : BitVec 64 := 0
  epqSize : Word := 0
  epqHead : Word := 0
  epqTail : Word := 0
  epNext  : Nat := 0
  ptRoot  : BitVec 64 := 0
  fqBase  : BitVec 64 := 0
  fqSize  : Word := 0
  fqHead  : Word := 0
  fqTail  : Word := 0
  fqLost  : Word := 0
  fqSeq   : Word := 0
  teamWd  : Word := 0xFFFFFFFF
  tlbInv  : Option TlbInv := none
  reqs    : List PageReq := []
  instCtr : Word := 0
  dbgCtl  : BitVec 64 := 0
  dbgPos  : BitVec 64 := 0
  dbgStat : BitVec 64 := 0
  bpAddr  : List (BitVec 64) := [0, 0, 0, 0]
  trBase  : BitVec 64 := 0
  trSize  : Word := 0
  trHead  : Word := 0
  trTail  : Word := 0
  trLost  : Word := 0
  rlBase  : BitVec 64 := 0
  rlSize  : Word := 0
  rlHead  : Word := 0
  rlTail  : Word := 0
  /-- Log entries that wait for room in the ring (spec/29 R413). -/
  rlWait  : List (List Byte) := []
  stop    : Option StopReq := none
  deriving DecidableEq, Repr, Inhabited

/-- What the agents of the module do of themselves, when the step that begins a clock finds it due. Each is the step
of the same name of Instr, which holds its meaning. -/
inductive Ev where
  | regangTimeout (team warp : Nat) (pc : Addr) (parent : Nat)
  | waitcReread (x : Sel)
  | waitcExpiry (x : Sel)
  | loadComplete (id : Nat)
  | storeComplete (id : Nat)
  | atomicAtMemory (id : Nat)
  | l1Writeback (core line : Nat)
  | xbarRequest (die port line : Nat)
  | d2dBeatReceive (src dst : Nat) (beat : Beat)
  | l2FillComplete (die slice line : Nat)
  | columnPowerDown (die slice : Nat)
  | columnPowerUpComplete (die slice : Nat)
  | copyComplete (id : Nat)
  | copyEngineFault (id : Nat)
  | matrixStep (core : Nat)
  | textureComplete (id : Nat)
  | rayStop (id : Nat)
  | rgdispComplete (id : Nat)
  | ncallAccept (cluster : Nat)
  | rowPlace (cluster : Nat)
  | binAgeDispatch (cluster : Nat)
  | binStallDispatch (cluster : Nat)
  | weightVersionLoad (cluster ctx set ver : Nat)
  | tileComplete (cluster : Nat)
  | twillArrival (id : Nat)
  | twillSendRetry (id : Nat)
  | twillDelivery (router ctx : Nat) (tag : Word)
  | twillDeliveryRetry (router ctx : Nat) (tag : Word)
  | twillLandingTimeout (id : Nat)
  | takeLaunchRecord (die : Nat)
  | parkedRecordReady (id : Nat)
  | sendTask (die : Nat)
  | placeTask (cluster : Nat)
  | stagingCopyFault (task : Nat)
  | gangStart (task : Nat)
  | stealRequest (cluster : Nat)
  | stealRequestArrival (cluster : Nat)
  | teamExit (team : Nat)
  | warpBudgetReturn (team warp : Nat)
  | priorityPreempt (task : Nat)
  | preemptDrainExpiry (gang : Nat)
  | ctxctlKillDone (c : Nat)
  | teamWatchdog (team : Nat)
  | faultDrainExpiry (team : Nat)
  | pageWalkComplete (id : Nat)
  | tlbinvDone (c : Nat)
  | sampleTake (core : Nat)
  | recordChunkLimit (team : Nat)
  | fwmCommandComplete
  | powerExitComplete
  | throttleStep
  | episodeCreate (c : Nat)
  | episodeTimeslice (die core : Nat)
  | episodeTickBudgetExpiry (pair : Nat)
  | episodeInstrBudgetExpiry (pair : Nat)
  | mailboxActionArrival (id : Nat)
  | mailboxGetArrival (id : Nat)
  | pairRelease (pair : Nat)
  | sorghumInstruction (pair core : Nat)
  | primitiveRasterise (front : FrontEnd) (prim : Nat)
  | pixelExportApply (cluster : Nat)
  | abandonedOperationStopped (id : Nat)
  deriving DecidableEq, Repr

/-- What moves next (log 3). -/
inductive Pick where
  | issue (x : Sel)
  | event (e : Ev)
  /-- The barriers of every team see the arrivals and the deaths of the clock (spec/13 R234). -/
  | barriers
  /-- The last clock of a tick ends, and with it the tick (spec/23 R357). -/
  | tickEnd
  /-- The outside world acts: the first pending input, at the end of the clock (log 4). -/
  | input
  deriving DecidableEq, Repr

/-- The firmware mailbox (spec/01 R27). -/
structure FwMail where
  cmd    : Byte := 0
  tag    : Byte := 0
  busy   : Bool := false
  done   : Byte := 0
  result : Byte := 0
  buf    : List (Nat × Byte) := []
  deriving DecidableEq, Repr

/-! ## The state -/

structure State where
  -- time, power, identity, firmware
  clock    : Nat
  tick     : Nat
  subClock : Nat
  clkMHz   : Nat
  limits   : BitVec 4
  thSeen   : BitVec 4
  throttleAt : Nat
  pwrRefused : Bool
  pwrState : BitVec 2
  pwrExit  : Option Nat
  khmod    : BitVec 6
  fwState  : Byte
  fwSvn    : BitVec 16
  /-- The SHA-256 digest of the running image (spec/01 R26). -/
  fwMeasure : List Byte
  verifying : Bool
  fwm      : FwMail
  peerMap  : List (Nat × (Bool × Byte))
  linkUp   : BitVec 8
  diagMode : Bool
  cecnt    : Word
  snapArm  : Bool
  snapExten : Bool
  snapFired : Bool
  snap     : List (Nat × Word)
  seqNo    : BitVec 64
  -- contexts
  ctxs     : List (Nat × Ctx)
  -- memory
  mem      : List Host.Cell
  poison   : List (Nat × Bool)
  scratch  : List Host.Cell
  /-- Keyed 64·cluster + bank. -/
  banks    : List (Nat × BankUse)
  l1       : List (Nat × List (Nat × L1Byte))
  far      : List (Nat × List (Nat × FarByte))
  farGen   : List (Nat × Nat)
  constK   : List (Nat × List (Nat × Byte))
  ibuf     : List CodeWord
  rlocks   : List RLock
  tlb      : List TlbEntry
  walks    : List Walk
  refused  : List Refused
  cols     : List (Nat × Column)
  /-- Requester ports, keyed 64·die + port. -/
  ports    : List (Nat × Port)
  /-- Requests at the banks of the far caches, keyed 64·die + bank (spec/01 R12). -/
  farBanks : List (Nat × List XReq)
  /-- Keyed 4·source + destination. -/
  links    : List (Nat × Link)
  /-- Requests made and not yet at a port or a bank. -/
  asks     : List XReq
  /-- The operations with a number below this one have made their requests. -/
  routed   : Nat
  /-- The Murus port that a granule of a peer keeps to, by granule (spec/01 R23). -/
  routes   : List (Nat × Nat)
  /-- Accesses from outside that have woken the module, to be performed when it is in M0 (spec/01 R29). -/
  waking   : List Instr
  -- teams and tasks
  teams    : List Team
  gangs    : List Gang
  records  : List Record
  tasks    : List Task
  steals   : List (Nat × Nat)
  qServed  : List (Nat × Nat)
  sServed  : List (Nat × Nat)
  -- asynchronous work
  memOps   : List MemOp
  copies   : List CopyOp
  matOps   : List MatOp
  texOps   : List TexOp
  rays     : List Ray
  rayOps   : List RayOp
  ncalls   : List NCall
  regroups : List (Nat × Regroup)
  rgOps    : List RgOp
  tokens   : List Token
  sends    : List TwSend
  /-- Sends that a router of another module accepted, whose meetings may still fail there. -/
  abroad   : List TwSend
  landings : List Landing
  meetings : List Meeting
  mbReqs   : List MbReq
  pairs    : List (Nat × Pair)
  episodes : List Episode
  /-- Physical memory protection, keyed 16·die + core. -/
  pmp      : List (Nat × List PmpEntry)
  draws    : List Draw
  pixels   : List PixelWork
  /-- Where the round robin of samples stands, keyed 64·core + context (spec/29 R409). -/
  sampleAt : List (Nat × Nat)
  /-- Bits [31:0] of the pc of the split last issued in the lane pipe, keyed 8·core + IU (spec/29 R412). -/
  iuPc     : List (Nat × Word)
  -- the model's own
  cur      : Sel
  plan     : List Pick
  inputs   : List Instr
  freeCtr  : Nat
  nextId   : Nat
  deriving DecidableEq, Repr

/-- The module right after reset: recovery, before any image is verified (spec/01 R25); every register at the value
the spec gives, or the one that log 1 names. -/
def State.reset : State where
  clock    := 0
  tick     := 0
  subClock := 0
  clkMHz   := 0x4B0
  limits   := 0
  thSeen   := 0
  throttleAt := 0
  pwrRefused := false
  pwrState := 0
  pwrExit  := none
  khmod    := 0
  fwState  := 0
  fwSvn    := 0
  fwMeasure := List.replicate 32 0
  verifying := false
  fwm      := {}
  peerMap  := []
  linkUp   := 0
  diagMode := false
  cecnt    := 0
  snapArm  := false
  snapExten := false
  snapFired := false
  snap     := []
  seqNo    := 0
  ctxs     := []
  mem      := []
  poison   := []
  scratch  := []
  banks    := []
  l1       := []
  far      := []
  farGen   := []
  constK   := []
  ibuf     := []
  rlocks   := []
  tlb      := []
  walks    := []
  refused  := []
  cols     := []
  ports    := []
  farBanks := []
  links    := []
  asks     := []
  routed   := 0
  routes   := []
  waking   := []
  teams    := []
  gangs    := []
  records  := []
  tasks    := []
  steals   := []
  qServed  := []
  sServed  := []
  memOps   := []
  copies   := []
  matOps   := []
  texOps   := []
  rays     := []
  rayOps   := []
  ncalls   := []
  regroups := []
  rgOps    := []
  tokens   := []
  sends    := []
  abroad   := []
  landings := []
  meetings := []
  mbReqs   := []
  pairs    := []
  episodes := []
  pmp      := []
  draws    := []
  pixels   := []
  sampleAt := []
  iuPc     := []
  cur      := ⟨0, 0, 0⟩
  plan     := []
  inputs   := []
  freeCtr  := 0
  nextId   := 1
end Sys2Proof.Machine
end

