-- ==== Sys2Proof/Machine/Tab.lean ====
section
/-!
DEFINITION. Sorted tables of key and value: how every bank of like things in State is read and written. A table is in
canonical form when its keys rise strictly; a bank with a default lists no entry equal to it.
-/

namespace Sys2Proof.Machine

def Tab.find? {α : Type} : List (Nat × α) → Nat → Option α
  | [], _ => none
  | (k, v) :: t, q => if q = k then some v else Tab.find? t q

def Tab.ins {α : Type} : List (Nat × α) → Nat → α → List (Nat × α)
  | [], q, x => [(q, x)]
  | (k, v) :: t, q, x =>
    if q < k then (q, x) :: (k, v) :: t else if q = k then (q, x) :: t else (k, v) :: Tab.ins t q x

def Tab.del {α : Type} : List (Nat × α) → Nat → List (Nat × α)
  | [], _ => []
  | (k, v) :: t, q => if q = k then Tab.del t q else (k, v) :: Tab.del t q

/-- The value of key q in a bank whose unlisted keys hold d. -/
def Tab.get {α : Type} (d : α) (t : List (Nat × α)) (q : Nat) : α := (Tab.find? t q).getD d

/-- Writing the default removes the entry. -/
def Tab.put {α : Type} [DecidableEq α] (d : α) (t : List (Nat × α)) (q : Nat) (x : α) : List (Nat × α) :=
  if x = d then Tab.del t q else Tab.ins t q x

def Tab.upd {α : Type} [DecidableEq α] (d : α) (t : List (Nat × α)) (q : Nat) (f : α → α) : List (Nat × α) :=
  Tab.put d t q (f (Tab.get d t q))

/-- Keys rise strictly from lo on, and no entry holds the default. -/
def Tab.wfFrom {α : Type} [DecidableEq α] (d : α) : Nat → List (Nat × α) → Bool
  | _, [] => true
  | lo, (k, v) :: t => decide (lo ≤ k) && decide (v ≠ d) && Tab.wfFrom d (k + 1) t

def Tab.wf {α : Type} [DecidableEq α] (d : α) (t : List (Nat × α)) : Bool := Tab.wfFrom d 0 t

/-! ## Bytes, little-endian -/

def bytesOfNat : Nat → Nat → List Byte
  | 0, _ => []
  | n + 1, v => BitVec.ofNat 8 v :: bytesOfNat n (v / 256)

def natOfBytes : List Byte → Nat
  | [] => 0
  | b :: bs => b.toNat + 256 * natOfBytes bs

/-- n consecutive entries of a bank, from key q up. -/
def Tab.getRange {α : Type} (d : α) (t : List (Nat × α)) (q : Nat) : Nat → List α
  | 0 => []
  | n + 1 => Tab.get d t q :: Tab.getRange d t (q + 1) n

def Tab.putRange {α : Type} [DecidableEq α] (d : α) (t : List (Nat × α)) (q : Nat) : List α → List (Nat × α)
  | [] => t
  | x :: xs => Tab.putRange d (Tab.put d t q x) (q + 1) xs

/-! ## Lists of records with a number -/

/-- Replace the first element that p holds of. -/
def modFirst {α : Type} (p : α → Bool) (f : α → α) : List α → List α
  | [] => []
  | a :: l => if p a then f a :: l else a :: modFirst p f l

/-- Insert before the first element that a does not follow. -/
def insertBy {α : Type} (le : α → α → Bool) (a : α) : List α → List α
  | [] => [a]
  | b :: l => if le a b then a :: b :: l else b :: insertBy le a l

/-- A stable sort: elements that le holds of both ways keep their order. -/
def sortBy {α : Type} (le : α → α → Bool) : List α → List α
  | [] => []
  | a :: l => insertBy le a (sortBy le l)

/-- Low n bits of v as a signed number. -/
def signedOf (n v : Nat) : Int := if v % 2 ^ n < 2 ^ (n - 1) then (v % 2 ^ n : Nat) else (v % 2 ^ n : Nat) - (2 ^ n : Nat)

/-- The number v modulo 2^n. -/
def wrapNat (n : Nat) (v : Int) : Nat := (v % (2 ^ n : Nat)).toNat

/-- Bits [lo + n − 1 : lo] of v. -/
def bitsOf (v lo n : Nat) : Nat := v / 2 ^ lo % 2 ^ n

end Sys2Proof.Machine
end

