-- ==== Sys2Proof/Machine/Mem.lean ====
section
/-!
DEFINITION. The memory side: what a physical byte is, the caches of a core and of a die (spec/07 R99 to R105), the
travel of releases and the action of acquires (R112, R113), the translation table and the TLBs (spec/29 R399, R400).
A physical key is home · 2^52 + physical address: homes 0 to 3 are this module's dies, 4 is the host, 8 + 4m + d is
die d of peer module m (log 10).
-/

namespace Sys2Proof.Machine

/-! ## Places (spec/01 R8, R9) -/

def dieOfCore (core : Nat) : Nat := core / 32
def clusterOfCore (core : Nat) : Nat := core / 4
def dieOfCluster (cl : Nat) : Nat := cl / 8

def physKey (home pa : Nat) : Nat := home * 2 ^ 52 + pa
def keyHome (key : Nat) : Nat := key / 2 ^ 52
def hostHome : Nat := 4
def peerHome (m d : Nat) : Nat := 8 + 4 * m + d

/-- The line lies in this module's device memory. -/
def keyOnDevice (key : Nat) : Bool := keyHome key < 4

/-- 64-byte granule of L1 and far-cache fills (spec/07 R99). -/
def granule (key : Nat) : Nat := key / 64 * 64

/-- The memory of a die: 192 GiB (spec/01 R8). -/
def dieCapacity : Nat := 192 * 2 ^ 30

/-! ## Requests for lines (spec/01 R10) -/

/-- The granules of 64 bytes that n bytes touch. -/
def granules (key n : Nat) : List Nat := (List.range ((key % 64 + n + 63) / 64)).map fun i => granule key + 64 * i

/-- A source asks for the lines of n bytes; no operation waits for them. -/
def State.ask (s : State) (src : XSource) (write : Bool) (key n : Nat) : State :=
  { s with asks := s.asks ++ (granules key n).map fun k => ⟨src, 0, k, write, 0⟩ }

/-! ## Die-to-die links (spec/01 R16, R17) -/

def State.link (s : State) (src dst : Nat) : Link := Tab.get {} s.links (4 * src + dst)
def State.modLink (s : State) (src dst : Nat) (f : Link → Link) : State :=
  { s with links := Tab.upd {} s.links (4 * src + dst) f }

/-- A message from die to die; within a die nothing travels. -/
def State.sendOver (s : State) (src dst : Nat) (m : LinkMsg) : State :=
  if src = dst then s else s.modLink src dst fun l => { l with msgs := l.msgs ++ [m] }

/-! ## Home memory -/

/-- What an unlisted byte of memory reads as: the spec gives no power-on contents (log 2). -/
def Memory.unwritten : Byte := 0

def Memory.read (m : List Host.Cell) (key : Nat) : Byte := Tab.get Memory.unwritten m key
def Memory.write (m : List Host.Cell) (key : Nat) (b : Byte) : List Host.Cell := Tab.put Memory.unwritten m key b
def Memory.wf (m : List Host.Cell) : Bool := Tab.wf Memory.unwritten m

def State.homeBytes (s : State) (key n : Nat) : List Byte := Tab.getRange Memory.unwritten s.mem key n

/-- A write at the home slice; overwritten bytes are poisoned no longer (spec/29 R404; log 11). -/
def State.writeHome (s : State) (key : Nat) (bs : List Byte) : State :=
  { s with mem := Tab.putRange Memory.unwritten s.mem key bs
           poison := if s.poison.isEmpty then s.poison else Tab.putRange false s.poison key (bs.map fun _ => false) }

def State.poisoned (s : State) (key n : Nat) : Bool :=
  !s.poison.isEmpty && (Tab.getRange false s.poison key n).any id

/-! ## Far cache (spec/07 R101) -/

def State.farOf (s : State) (die : Nat) : List (Nat × FarByte) := Tab.get [] s.far die
def State.farGenOf (s : State) (die : Nat) : Nat := Tab.get 0 s.farGen die

/-- The line's accesses from this die go through its far cache. -/
def remoteTo (die key : Nat) : Bool := keyOnDevice key && keyHome key != die

def State.farHit? (s : State) (die key : Nat) : Option Byte :=
  match Tab.find? (s.farOf die) key with
  | some b => if b.gen = s.farGenOf die then some b.data else none
  | none => none

/-- Fill the bytes of a granule that the far cache lacks. -/
def State.farFill (s : State) (die key : Nat) : State :=
  let g := granule key
  let t := (List.range 64).foldl (fun t i =>
    if (s.farHit? die (g + i)).isSome then t
    else Tab.ins t (g + i) ⟨Memory.read s.mem (g + i), s.farGenOf die⟩) (s.farOf die)
  { s with far := Tab.put [] s.far die t }

/-- Bring the copies that the far cache holds of n bytes to what the home holds. -/
def State.farRefresh (s : State) (die key n : Nat) : State :=
  let t := (List.range n).foldl (fun t i =>
    if (Tab.find? t (key + i)).isSome then
      Tab.ins t (key + i) ⟨Memory.read s.mem (key + i), s.farGenOf die⟩ else t) (s.farOf die)
  { s with far := Tab.put [] s.far die t }

/-- A write on its way from a die to the home slice updates the die's far-cache copy. -/
def State.writeThrough (s : State) (die key : Nat) (bs : List Byte) : State :=
  let s := s.writeHome key bs
  if remoteTo die key then s.farRefresh die key bs.length else s

/-- The byte below L1, and the state after a fill of its granule in the far cache. -/
def State.below (s : State) (die key : Nat) : Byte :=
  if remoteTo die key then (s.farHit? die key).getD (Memory.read s.mem key) else Memory.read s.mem key

def State.fillBelow (s : State) (die key : Nat) : State := if remoteTo die key then s.farFill die key else s

/-! ## Device-scope accesses of engines and units -/

/-- A relaxed device-scope write at the home slice by a unit of `die`. -/
def State.engineWrite (s : State) (die key : Nat) (bs : List Byte) : State := s.writeThrough die key bs

/-! ## Scratchpad (spec/07 R96, R98) -/

def scrKey (cluster off : Nat) : Nat := cluster * 2 ^ 22 + off

def State.scrBytes (s : State) (cluster off n : Nat) : List Byte :=
  Tab.getRange Memory.unwritten s.scratch (scrKey cluster off) n

/-- The distinct 16-byte units that n bytes at each key touch (spec/07 R97). -/
def bankUnits (keys : List Nat) (n : Nat) : List Nat :=
  (keys.flatMap fun k => (List.range n).map fun i => (k + i) / 16).eraseDups

/-- The bank of a unit of the scratchpads: unit number u lies in bank u mod 64 of its cluster. -/
def bankOf (u : Nat) : Nat := u / 262144 * 64 + u % 64

/-- A bank that the units need still serves accesses of an earlier clock. -/
def State.banksBusy (s : State) (units : List Nat) : Bool :=
  units.any fun u => let b := Tab.get {} s.banks (bankOf u); decide (b.since < s.clock) && decide (s.clock < b.till)

/-- An instruction occupies its banks for as many clocks as the most units it touches in one of them, after what the
clock has brought them already. -/
def State.useBanks (s : State) (units : List Nat) : State :=
  let n := ((units.map fun u => (units.filter fun x => bankOf x == bankOf u).length).max?).getD 0
  { s with banks := ((units.map bankOf).eraseDups).foldl (fun t k =>
      let b := Tab.get {} t k
      Tab.put {} t k ⟨s.clock, (if b.since = s.clock then max b.till s.clock else s.clock) + n⟩) s.banks }

def State.scrWrite (s : State) (cluster off : Nat) (bs : List Byte) : State :=
  { s with scratch := Tab.putRange Memory.unwritten s.scratch (scrKey cluster off) bs }

/-- Byte j of operand row i with base b, pitch p and rotation code c. -/
def bankAddr (b p c i j : Nat) : Nat :=
  let o := b + i * p + j
  o / 1024 * 1024 + ((o / 16) % 64 + i * c) % 64 * 16 + o % 16

/-! ## Translation (spec/29 R399) -/

/-- An address whose bits [63:56] all equal bit 55 (spec/07 R90). -/
def canonical (va : Nat) : Bool := bitsOf va 55 9 == 0 || bitsOf va 55 9 == 511

abbrev Pte := BitVec 64
def Pte.v (e : Pte) : Bool := e.getLsbD 0
def Pte.leaf (e : Pte) : Bool := e.getLsbD 5
def Pte.h (e : Pte) : Bool := e.getLsbD 63
def Pte.mod (e : Pte) : Nat := (e.extractLsb' 57 6).toNat
def Pte.die (e : Pte) : Nat := (e.extractLsb' 55 2).toNat
def Pte.addr (e : Pte) : Nat := (e.extractLsb' 8 44).toNat * 256
def Pte.reserved (e : Pte) : Bool := e.extractLsb' 52 3 != 0 || e.extractLsb' 6 2 != 0 || e.getLsbD 1

def Pte.allows (e : Pte) : Access → Bool
  | .load => e.getLsbD 2
  | .store => e.getLsbD 3
  | .fetch => e.getLsbD 4

/-- Shift and index width of each level. -/
def walkLevels : List (Nat × Nat) := [(47, 9), (38, 9), (30, 8), (21, 9), (16, 5)]

inductive WalkRes where
  | page (e : BitVec 64) (size : Nat)
  | bad
  | notPresent (level : Nat)
  deriving DecidableEq, Repr

/-- The walk from an entry; `level` is where that entry was read (7 for PTROOT), `next` the number of the next level. -/
def walkFrom (mem : List Host.Cell) (self : Nat) (va : Nat) : List (Nat × Nat) → Nat → Nat → Pte → WalkRes
  | [], level, _, e => if e.v then .bad else .notPresent level
  | (shift, width) :: rest, level, next, e =>
    if !e.v then .notPresent level
    else if e.leaf || e.h || e.reserved || e.mod != self then .bad
    else
      let size := 8 * 2 ^ width
      let base := e.addr / size * size
      let key := physKey e.die (base + 8 * bitsOf va shift width)
      let e' : Pte := BitVec.ofNat 64 (natOfBytes (Tab.getRange Memory.unwritten mem key 8))
      if e'.v && e'.leaf then
        if next < 2 || e'.reserved || e'.addr % 2 ^ shift != 0 then .bad else .page e' (2 ^ shift)
      else walkFrom mem self va rest next (next + 1) e'

def State.walk (s : State) (root : BitVec 64) (va : Nat) : WalkRes :=
  walkFrom s.mem s.khmod.toNat va walkLevels 7 0 root

/-- The region that an entry read with V = 0 at this level would map (spec/29 R400). -/
def regionOf (va level : Nat) : Nat × Nat :=
  match walkLevels[level]? with
  | some (shift, _) => (va % 2 ^ 56 / 2 ^ shift * 2 ^ shift, 2 ^ shift)
  | none => (0, 2 ^ 56)

/-- An open link of a port that PEERMAP allows for module m (spec/01 R23). -/
def State.peerPort? (s : State) (m : Nat) : Option Nat :=
  let e := Tab.get (false, (0 : Byte)) s.peerMap m
  if e.1 then (List.range 8).find? fun i => e.2.getLsbD i && s.linkUp.getLsbD i else none

/-- TRAPINFO of a PAGE fault with a cause 0 to 2 (spec/29 R394). -/
def pageInfo (cause va : Nat) : Word := BitVec.ofNat 32 (cause * 2 ^ 29 + bitsOf va 16 29)

/-- What a page entry makes of an access: the physical key, or a fault code and its TRAPINFO. An entry for memory that the
die does not have is malformed (log 5). -/
def State.usePage (s : State) (e : Pte) (size va : Nat) (kind : Access) : Except (Nat × Word) Nat :=
  let pa := e.addr / size * size + va % size
  if !e.allows kind then .error (0x05, BitVec.ofNat 32 va)
  else if e.h then .ok (physKey hostHome pa)
  else if e.mod = s.khmod.toNat then
    if pa < dieCapacity then .ok (physKey e.die pa) else .error (0x04, pageInfo 2 va)
  else if (s.peerPort? e.mod).isNone then .error (0x04, BitVec.ofNat 32 (3 * 2 ^ 29 + e.mod))
  else .ok (physKey (peerHome e.mod e.die) pa)

/-- TRAPINFO where the page service refuses an address: PAGE with cause 0, else PROT (spec/29 R394, R400). -/
def refusalInfo (code va : Nat) : Word := if code = 0x04 then pageInfo 0 va else BitVec.ofNat 32 va

def State.ctxOf (s : State) (c : Nat) : Ctx := Tab.get {} s.ctxs c
def State.setCtx (s : State) (c : Nat) (x : Ctx) : State := { s with ctxs := Tab.put {} s.ctxs c x }
def State.modCtx (s : State) (c : Nat) (f : Ctx → Ctx) : State := s.setCtx c (f (s.ctxOf c))

/-- A cached translation: the core's own TLB, or its cluster's. -/
def State.tlbFind? (s : State) (core ctx va : Nat) : Option TlbEntry :=
  s.tlb.find? fun e =>
    e.ctx == ctx && (e.unit == core || e.unit == 128 + clusterOfCore core) &&
      decide (e.base ≤ va % 2 ^ 56) && decide (va % 2 ^ 56 < e.base + e.size)

inductive Xlate where
  | ok (key : Nat)
  | fault (code : Nat) (info : Word)
  | miss
  deriving DecidableEq, Repr

/-- Translation of a core's access through the TLBs. -/
def State.xlate (s : State) (core ctx va : Nat) (kind : Access) : Xlate :=
  match s.tlbFind? core ctx va with
  | none => .miss
  | some e =>
    match s.usePage e.entry e.size va kind with
    | .ok key => .ok key
    | .error (c, i) => .fault c i

inductive NowRes where
  | ok (key : Nat)
  | fault (code : Nat) (info : Word)
  | notPresent (level : Nat)
  deriving DecidableEq, Repr

/-- Translation by an engine or unit, which walks at once (log 12). -/
def State.xlateNow (s : State) (ctx va : Nat) (kind : Access) : NowRes :=
  if !canonical va then .fault 0x04 (pageInfo 1 va)
  else
    match s.walk (s.ctxOf ctx).ptRoot va with
    | .bad => .fault 0x04 (pageInfo 2 va)
    | .notPresent l => .notPresent l
    | .page e size =>
      match s.usePage e size va kind with
      | .ok key => .ok key
      | .error (c, i) => .fault c i

/-- The addresses of a run of bytes, cut at 64 KiB boundaries. -/
def runPieces : Nat → Nat → Nat → List (Nat × Nat)
  | 0, _, _ => []
  | fuel + 1, va, n =>
    if n = 0 then []
    else
      let a := min n (65536 - va % 65536)
      (va % 2 ^ 64, a) :: runPieces fuel (va + a) (n - a)

/-- A source asks for the lines of n bytes of a context. -/
def State.askSpan (s : State) (src : XSource) (write : Bool) (c va n : Nat) : State :=
  (runPieces (n / 65536 + 2) va n).foldl (fun s p =>
    match s.xlateNow c p.1 (if write then .store else .load) with
    | .ok key => s.ask src write key p.2
    | _ => s) s

/-- Put a page in the TLBs of a core and its cluster, which keep the newest 128 and 4,096 (spec/29 R400). -/
def State.tlbInsert (s : State) (core ctx base size : Nat) (e : BitVec 64) : State :=
  let keep := fun (unit n : Nat) (l : List TlbEntry) =>
    let mine := (l.filter fun t => t.unit == unit).take (n - 1)
    ⟨unit, ctx, base, size, e⟩ :: mine ++ l.filter fun t => t.unit != unit
  let cl := 128 + clusterOfCore core
  { s with tlb := keep core 128 (keep cl 4096 (s.tlb.filter fun t =>
      !((t.unit == core || t.unit == cl) && t.ctx == ctx && t.base == base && t.size == size))) }

/-! ## Walks (spec/29 R400) -/

/-- The accesses that wait in the miss-merge table of a die. -/
def State.merged (s : State) (die : Nat) : Nat :=
  (s.walks.filter (·.die == die)).foldl (fun n w => n + (w.who.length + w.copies.length)) 0

def State.mergeFull (s : State) (die : Nat) : Bool := decide (s.merged die ≥ 8192)

/-- The accesses that f adds merge onto the walk of their page of the die, which begins if there is none. -/
def State.joinWalk (s : State) (die ctx va : Nat) (f : Walk → Walk) : State :=
  let same := fun (w : Walk) => w.die == die && w.ctx == ctx && w.va % 2 ^ 56 / 65536 == va % 2 ^ 56 / 65536
  if s.walks.any same then { s with walks := modFirst same f s.walks }
  else { s with walks := s.walks ++ [f ⟨s.nextId, die, ctx, va, [], []⟩], nextId := s.nextId + 1 }

/-! ## The fault ring (spec/29 R401, R418) -/

def pow2In (lo hi v : Nat) : Bool := (List.range 25).any fun i => v == 2 ^ i && decide (lo ≤ v) && decide (v ≤ hi)

/-- Write bytes of a context as relaxed device-scope stores; none where translation refuses a byte of them. -/
def State.ctxWrite? (s : State) (ctx va : Nat) (bs : List Byte) : Option State :=
  match s.xlateNow ctx va .store with
  | .ok key => some (s.engineWrite 0 key bs)
  | _ => none

/-- Read bytes of a context at the home slice. -/
def State.ctxRead (s : State) (ctx va n : Nat) : NowRes × List Byte :=
  match s.xlateNow ctx va .load with
  | .ok key => (.ok key, s.homeBytes key n)
  | r => (r, [])

def faultBytes (kind code ctx : Nat) (seq inst core : Word) (addr : Nat) (info : Word) (tick : Nat) : List Byte :=
  bytesOfNat 4 (kind * 2 ^ 24 + code * 2 ^ 16 + ctx) ++ bytesOfNat 4 seq.toNat ++ bytesOfNat 4 inst.toNat ++
    bytesOfNat 4 core.toNat ++ bytesOfNat 8 addr ++ bytesOfNat 4 info.toNat ++ bytesOfNat 4 tick

def Ctx.fqRoom (x : Ctx) : Bool :=
  pow2In 16 65536 x.fqSize.toNat && decide ((x.fqTail - x.fqHead).toNat < x.fqSize.toNat)

/-- Write a record under the SEQ given: its slot must translate, else the record is lost. -/
def State.fqPut (s : State) (c : Nat) (bs : List Byte) : State :=
  let x := s.ctxOf c
  let slot := x.fqTail.toNat % x.fqSize.toNat
  match s.ctxWrite? c (x.fqBase.toNat + 32 * slot) bs with
  | some s => s.modCtx c fun x => { x with fqTail := x.fqTail + 1 }
  | none => s.modCtx c fun x => { x with fqLost := x.fqLost + 1 }

/-- Produce a record other than PAGEREQ. -/
def State.faultRecord (s : State) (c kind code : Nat) (inst core : Word) (addr : Nat) (info : Word) : State :=
  let x := s.ctxOf c
  let bs := faultBytes kind code c x.fqSeq inst core addr info s.tick
  let s := s.modCtx c fun x => { x with fqSeq := x.fqSeq + 1 }
  if x.fqRoom then s.fqPut c bs else s.modCtx c fun x => { x with fqLost := x.fqLost + 1 }

/-- Write the PAGEREQ records that wait, in order, while the ring has room. -/
def State.pageRecords (s : State) (c : Nat) : State :=
  (s.ctxOf c).reqs.foldl (fun s r =>
    let x := s.ctxOf c
    if r.seq.isSome || !x.fqRoom then s
    else
      let s := s.modCtx c fun x => { x with
        fqSeq := x.fqSeq + 1
        reqs := modFirst (·.id == r.id) (fun r => { r with seq := some x.fqSeq }) x.reqs }
      s.fqPut c (faultBytes 2 0 c x.fqSeq r.inst r.core r.va r.info r.tick)) s

/-- A not-present result: join the open request of the region, or open one (spec/29 R400). Answers the request's
number. -/
def State.requestPage (s : State) (c va level : Nat) (inst core : Word) (info : Word) (who : Requester) : State × Nat :=
  let (lo, size) := regionOf va level
  match (s.ctxOf c).reqs.find? fun r => r.lo == lo && r.size == size with
  | some r =>
    (s.modCtx c fun x => { x with
      reqs := modFirst (·.id == r.id) (fun r => { r with who := r.who ++ [who] }) x.reqs }, r.id)
  | none =>
    let id := s.nextId
    let s := { s with nextId := id + 1 }
    let s := s.modCtx c fun x => { x with
      reqs := x.reqs ++ [⟨id, none, lo, size, va, inst, core, info ||| BitVec.ofNat 32 (level * 16), s.tick, [who]⟩] }
    (s.pageRecords c, id)

/-- The request that a requester waits for, if it waits. -/
def State.asked (s : State) (c : Nat) (who : Requester) : Bool := (s.ctxOf c).reqs.any fun r => r.who.contains who

inductive UnitRes where
  | ok (key : Nat)
  | fault (code : Nat) (info : Word)
  | waits
  deriving DecidableEq, Repr

/-- The unit has ended what met a refusal. -/
def State.unrefuse (s : State) (who : Requester) : State := { s with refused := s.refused.filter (·.who != who) }

/-- Translation for a unit that waits for the page service (spec/29 R400): a refusal it has been given for the address,
else the address, else a request that it waits for. -/
def State.unitXlate (s : State) (c va : Nat) (kind : Access) (who : Requester) (inst core : Word) : State × UnitRes :=
  match s.refused.find? fun r => r.who == who && decide (r.lo ≤ va % 2 ^ 56) && decide (va % 2 ^ 56 < r.lo + r.size) with
  | some r => (s, .fault r.code (refusalInfo r.code va))
  | none =>
    if s.asked c who then (s, .waits)
    else
      match s.xlateNow c va kind with
      | .ok key => (s, .ok key)
      | .fault code info => (s, .fault code info)
      | .notPresent level =>
        ((s.requestPage c va level inst core (4 + if kind = .store then 1 else 0) who).1, .waits)

/-! ## The replay log (spec/29 R413) -/

def State.team? (s : State) (uid : Nat) : Option Team := s.teams.find? (·.uid == uid)

def State.modTeam (s : State) (uid : Nat) (f : Team → Team) : State :=
  { s with teams := modFirst (·.uid == uid) f s.teams }

def Ctx.logFull (x : Ctx) : Bool :=
  x.rlSize == 0 || decide ((x.rlTail - x.rlHead).toNat ≥ x.rlSize.toNat) || !x.rlWait.isEmpty

/-- Put an entry into the next slot of the replay log. -/
def State.logPut (s : State) (c : Nat) (bs : List Byte) : State :=
  let x := s.ctxOf c
  match s.ctxWrite? c (x.rlBase.toNat + 16 * (x.rlTail.toNat % x.rlSize.toNat)) bs with
  | some s => s.modCtx c fun x => { x with rlTail := x.rlTail + 1 }
  | none => s

/-- Append an entry to the replay log, taking the next number of the module-wide sequence. Where the log is full it waits
for room (log 30). -/
def State.logEntry (s : State) (c : Nat) (inst third : Word) : State :=
  let x := s.ctxOf c
  let bs := bytesOfNat 8 s.seqNo.toNat ++ bytesOfNat 4 inst.toNat ++ bytesOfNat 4 third.toNat
  let s := { s with seqNo := s.seqNo + 1 }
  if x.rlSize == 0 then s
  else if x.logFull then s.modCtx c fun x => { x with rlWait := x.rlWait ++ [bs] }
  else s.logPut c bs

/-- Entries that wait go into the log while it has room. -/
def State.logDrain : Nat → Nat → State → State
  | 0, _, s => s
  | n + 1, c, s =>
    let x := s.ctxOf c
    match x.rlWait with
    | bs :: rest =>
      if x.rlSize == 0 || decide ((x.rlTail - x.rlHead).toNat ≥ x.rlSize.toNat) then s
      else State.logDrain n c ((s.modCtx c fun x => { x with rlWait := rest }).logPut c bs)
    | [] => s

/-! ## L1 (spec/07 R99) -/

def State.l1Of (s : State) (core : Nat) : List (Nat × L1Byte) := Tab.get [] s.l1 core
def State.setL1 (s : State) (core : Nat) (t : List (Nat × L1Byte)) : State := { s with l1 := Tab.put [] s.l1 core t }

/-- The dirty bytes that p selects go to their home, with their mask; they stay in L1, clean. -/
def State.writeBack (s : State) (core : Nat) (p : Nat × L1Byte → Bool) : State :=
  ((s.l1Of core).filter fun e => e.2.dirty && p e).foldl (fun s e =>
    (s.writeThrough (dieOfCore core) e.1 [e.2.data]).setL1 core (Tab.ins (s.l1Of core) e.1 { e.2 with dirty := false })) s

/-- End the team's chunk, if it holds any instruction: its dirty bytes are written back, so that the log tells when its
stores are seen (log 30). -/
def State.endChunk (s : State) (uid : Nat) : State :=
  match s.team? uid with
  | some t =>
    if t.recorded && t.chunk != 0 then
      ((s.writeBack t.core (·.2.owner == uid)).logEntry t.ctx t.inst
        (BitVec.ofNat 32 ((t.chunk - 1) % 65536 + t.core * 65536))).modTeam uid fun t => { t with chunk := 0 }
    else s
  | none => s

/-- Write back the dirty bytes of the core at the keys that p selects; the chunks of the teams that wrote them end. -/
def State.flushIf (s : State) (core : Nat) (p : Nat → Bool) : State :=
  let owners := (((s.l1Of core).filter fun e => e.2.dirty && p e.1).map (·.2.owner)).eraseDups
  owners.foldl State.endChunk (s.writeBack core fun e => p e.1)

def State.flushRange (s : State) (core key n : Nat) : State := s.flushIf core fun k => key ≤ k && k < key + n
def State.flushCore (s : State) (core : Nat) : State := s.flushIf core fun _ => true

/-- Drop the clean bytes that p selects. -/
def State.dropClean (s : State) (core : Nat) (p : Nat → Bool) : State :=
  s.setL1 core ((s.l1Of core).filter fun e => e.2.dirty || !p e.1)

/-- A byte that another core of the cluster forwards from its L1, in diagnostic mode (spec/07 R114). -/
def State.forwarded? (s : State) (core key : Nat) : Option Byte :=
  if s.diagMode then
    ((List.range 4).map (clusterOfCore core * 4 + ·)).findSome? fun c =>
      if c = core then none else (Tab.find? (s.l1Of c) key).map (·.data)
  else none

/-- The byte that a core's L1 is filled with. -/
def State.under (s : State) (core key : Nat) : Byte := (s.forwarded? core key).getD (s.below (dieOfCore core) key)

/-- A weak load: L1, filled from below where bytes are missing. -/
def State.loadWeak (s : State) (core key n : Nat) (alloc : Bool) : State × List Byte :=
  let l1 := s.l1Of core
  let die := dieOfCore core
  if (List.range n).all fun i => (Tab.find? l1 (key + i)).isSome then
    (s, (List.range n).map fun i => ((Tab.find? l1 (key + i)).map (·.data)).getD 0)
  else
    let s := s.fillBelow die key
    let get := fun k => ((Tab.find? l1 k).map (·.data)).getD (s.under core k)
    let bs := (List.range n).map fun i => get (key + i)
    if alloc then
      let g := granule key
      (s.setL1 core ((List.range 64).foldl (fun t i =>
        if (Tab.find? t (g + i)).isSome then t else Tab.ins t (g + i) ⟨s.under core (g + i), false, 0⟩) l1), bs)
    else (s, bs)

def dirtyBytes (t : List (Nat × L1Byte)) (owner key : Nat) : List Byte → List (Nat × L1Byte)
  | [] => t
  | b :: bs => dirtyBytes (Tab.ins t key ⟨b, true, owner⟩) owner (key + 1) bs

/-- L1 holds bytes of the 256-byte line. -/
def State.holdsLine (s : State) (core key : Nat) : Bool := (s.l1Of core).any fun e => e.1 / 256 == key / 256

/-- A weak store of a team: the bytes lie dirty in L1. Under .NOL1 a line that L1 does not hold is not allocated, and the
bytes go on to the home (spec/15 R250). -/
def State.storeWeak (s : State) (core owner key : Nat) (bs : List Byte) (alloc : Bool) : State :=
  if alloc || s.holdsLine core key then s.setL1 core (dirtyBytes (s.l1Of core) owner key bs)
  else s.writeThrough (dieOfCore core) key bs

/-! ## Releases and acquires (spec/07 R112, R113) -/

/-- The dirty bytes of the core have travelled as far as the scope asks. -/
def State.release (s : State) (core scope : Nat) : State := if scope = 0 then s else s.flushCore core

def State.bumpFar (s : State) (die : Nat) : State :=
  let g := (s.farGenOf die + 1) % 2 ^ 16
  { s with farGen := Tab.put 0 s.farGen die g, far := if g = 0 then Tab.put [] s.far die [] else s.far }

def State.acquire (s : State) (core scope : Nat) : State :=
  if scope = 0 then s
  else
    let s := s.dropClean core fun _ => true
    if scope ≤ 2 then s else s.bumpFar (dieOfCore core)

def isAcquire (order : Nat) : Bool := order == 2 || order == 4 || order == 5
def isRelease (order : Nat) : Bool := order == 3 || order == 4 || order == 5

/-! ## Strong accesses at the point of spec/07 R105 -/

/-- The core keeps no copy older than what it reads now (spec/07 R106). -/
def State.strongLoad (s : State) (core scope key n : Nat) (alloc : Bool := true) : State × List Byte :=
  if scope = 0 then s.loadWeak core key n alloc
  else
    let die := dieOfCore core
    let s := s.flushRange core key n
    let s := s.dropClean core fun k => key ≤ k && k < key + n
    if scope ≤ 2 then
      let s := s.fillBelow die key
      (s, (List.range n).map fun i => s.under core (key + i))
    else
      let s := if remoteTo die key then s.farRefresh die key n else s
      (s, s.homeBytes key n)

def State.strongStore (s : State) (core owner scope key : Nat) (bs : List Byte) (alloc : Bool := true) : State :=
  if scope = 0 then s.storeWeak core owner key bs alloc
  else
    let l1 := (List.range bs.length).foldl (fun t i =>
      if (Tab.find? t (key + i)).isSome then Tab.ins t (key + i) ⟨bs.getD i 0, false, owner⟩ else t) (s.l1Of core)
    (s.setL1 core l1).writeThrough (dieOfCore core) key bs

/-- A load of a lane or split with its scope and order (spec/15 R255). -/
def State.loadBytes (s : State) (core scope order key n : Nat) (alloc : Bool) : State × List Byte :=
  if order = 0 then s.loadWeak core key n alloc
  else
    let (s, bs) := s.strongLoad core scope key n alloc
    (if isAcquire order then s.acquire core scope else s, bs)

def State.storeBytes (s : State) (core owner scope order key : Nat) (bs : List Byte) (alloc : Bool) : State :=
  if order = 0 then s.storeWeak core owner key bs alloc
  else (if isRelease order then s.release core scope else s).strongStore core owner scope key bs alloc

/-- The constant path of a core (spec/07 R95): bytes once read stay until the next team start. -/
def State.loadConst (s : State) (core key n : Nat) : State × List Byte :=
  let t := Tab.get [] s.constK core
  let s := s.fillBelow (dieOfCore core) key
  let g := granule key
  let t := (List.range 64).foldl (fun t i =>
    if (Tab.find? t (g + i)).isSome then t else Tab.ins t (g + i) (s.below (dieOfCore core) (g + i))) t
  ({ s with constK := Tab.put [] s.constK core t },
    (List.range n).map fun i => (Tab.find? t (key + i)).getD (s.below (dieOfCore core) (key + i)))

end Sys2Proof.Machine
end

