-- ==== Sys2Proof/Machine/Ops.lean ====
section
/-!
DEFINITION. The named operations over the state: finding teams, warps and splits; registers; retiring an instruction
(reconvergence, division, resolution: spec/03 R34 to R37); fusing (R39, R42); barriers (spec/13 R234); discards and
kills (spec/03 R60, R61; spec/19 R322); taking a fault and returning from one (spec/29 R396), and held faults (R398).
-/

namespace Sys2Proof.Machine

/-! ## Finding and updating -/

def State.gang? (s : State) (uid : Nat) : Option Gang := s.gangs.find? (·.uid == uid)
def State.task? (s : State) (uid : Nat) : Option Task := s.tasks.find? (·.uid == uid)
def Team.warp? (t : Team) (n : Nat) : Option Warp := t.warps.find? (·.num == n)
def Warp.splitOf? (w : Warp) (k : Nat) : Option Split := w.splits.find? (·.mask.getLsbD k)

def State.modGang (s : State) (uid : Nat) (f : Gang → Gang) : State :=
  { s with gangs := modFirst (·.uid == uid) f s.gangs }

def State.modTask (s : State) (uid : Nat) (f : Task → Task) : State :=
  { s with tasks := modFirst (·.uid == uid) f s.tasks }

def Team.modWarp (t : Team) (n : Nat) (f : Warp → Warp) : Team :=
  { t with warps := modFirst (·.num == n) f t.warps }

def State.modWarp (s : State) (uid n : Nat) (f : Warp → Warp) : State := s.modTeam uid (·.modWarp n f)

/-- What an issuing instruction sees: its team, its warp and its split. -/
structure View where
  team  : Team
  warp  : Warp
  split : Split
  deriving DecidableEq, Repr

def State.viewOf? (s : State) (x : Sel) : Option View := do
  let t ← s.team? x.team
  let w ← t.warp? x.warp
  let sp ← w.splitOf? x.slice
  return ⟨t, w, sp⟩

def State.view? (s : State) : Option View := s.viewOf? s.cur

def lowestBit (n : Nat) (m : Nat) : Nat := ((List.range n).find? fun i => m.testBit i).getD 0

/-- The split of a view, named by its lowest slice. -/
def View.sel (v : View) : Sel := ⟨v.team.uid, v.warp.num, lowestBit 8 v.split.mask.toNat⟩

def View.core (v : View) : Nat := v.team.core
def View.ctx (v : View) : Nat := v.team.ctx
def View.pc (v : View) : Addr := v.split.pc

def State.setWarp (s : State) (v : View) (w : Warp) : State := s.modWarp v.team.uid v.warp.num fun _ => w

/-- COREID (spec/09 R145). -/
def State.coreId (s : State) (core : Nat) : Word := BitVec.ofNat 32 (s.khmod.toNat * 2 ^ 16 + core)

def State.fresh (s : State) : State × Nat := ({ s with nextId := s.nextId + 1 }, s.nextId)

/-- A free choice of two outcomes (log 9). -/
def State.flip (s : State) : State × Bool := ({ s with freeCtr := s.freeCtr + 1 }, Config.freeBit s.freeCtr)

def modNth {α : Type} (f : α → α) : Nat → List α → List α
  | _, [] => []
  | 0, a :: l => f a :: l
  | n + 1, a :: l => a :: modNth f n l

/-! ## Slices and lanes -/

def Warp.sl (w : Warp) (k : Nat) : Slice := w.slices.getD k {}

/-- As modNth, on a list whose missing elements hold d. -/
def padNth {α : Type} (d : α) (f : α → α) : Nat → List α → List α
  | 0, [] => [f d]
  | 0, a :: l => f a :: l
  | n + 1, [] => d :: padNth d f n []
  | n + 1, a :: l => a :: padNth d f n l

def Warp.modSl (w : Warp) (k : Nat) (f : Slice → Slice) : Warp := { w with slices := padNth {} f k w.slices }
def slicesOf (mask : BitVec 8) : List Nat := (List.range 8).filter fun k => mask.getLsbD k
def maskOf (ks : List Nat) : BitVec 8 := ks.foldl (fun m k => m ||| BitVec.ofNat 8 (2 ^ k)) 0

/-- The same change in every slice of a mask. -/
def Warp.modSls (w : Warp) (mask : BitVec 8) (f : Slice → Slice) : Warp :=
  (slicesOf mask).foldl (fun w k => w.modSl k f) w

def Warp.liveSlices (w : Warp) : BitVec 8 := maskOf ((List.range 8).filter fun k => (w.sl k).live != 0)
def Warp.dead (w : Warp) : Bool := w.liveSlices == 0

/-- The lane is live and active in a slice of the mask (spec/13 R224). -/
def Warp.laneOn (w : Warp) (mask : BitVec 8) (l : Nat) : Bool :=
  mask.getLsbD (l / 4) && ((w.sl (l / 4)).act &&& (w.sl (l / 4)).live).getLsbD (l % 4)

def View.laneOn (v : View) (l : Nat) : Bool := v.warp.laneOn v.split.mask l

/-- The active lanes of the split, in ascending order. -/
def View.lanes (v : View) : List Nat := (List.range 32).filter v.laneOn

/-! ## Registers (spec/03 R41, R46; spec/09 R140 to R142) -/

def Warp.v (w : Warp) (r l : Nat) : Word := Tab.get 0 w.entries (32 * r + l)
def Warp.setV (w : Warp) (r l : Nat) (x : Word) : Warp := { w with entries := Tab.put 0 w.entries (32 * r + l) x }

/-- Lane predicate p0 to p6; 7 means always. -/
def Warp.p (w : Warp) (n l : Nat) : Bool := n == 7 || (Tab.get 0 w.preds n).getLsbD l

/-- A write of p7 is ignored. -/
def Warp.setP (w : Warp) (n l : Nat) (b : Bool) : Warp :=
  if n == 7 then w
  else { w with preds := Tab.upd 0 w.preds n fun m =>
    if b then m ||| BitVec.ofNat 32 (2 ^ l) else m &&& ~~~(BitVec.ofNat 32 (2 ^ l)) }

def Slice.s (sl : Slice) (n : Nat) : Word := Tab.get 0 sl.sregs n
def Slice.setS (sl : Slice) (n : Nat) (x : Word) : Slice := { sl with sregs := Tab.put 0 sl.sregs n x }
def Slice.getQ (sl : Slice) (n : Nat) : Bool := n == 7 || sl.q.getLsbD n

/-- A write of q7 is ignored. -/
def Slice.setQ (sl : Slice) (n : Nat) (b : Bool) : Slice :=
  if n == 7 then sl
  else { sl with q := if b then sl.q ||| BitVec.ofNat 7 (2 ^ n) else sl.q &&& ~~~(BitVec.ofNat 7 (2 ^ n)) }

def Warp.setS (w : Warp) (mask : BitVec 8) (n : Nat) (x : Word) : Warp := w.modSls mask (·.setS n x)
def Warp.setQ (w : Warp) (mask : BitVec 8) (n : Nat) (b : Bool) : Warp := w.modSls mask (·.setQ n b)

/-- The lowest slice of the split, whose uniform copies the split reads. -/
def View.low (v : View) : Slice := v.warp.sl (lowestBit 8 v.split.mask.toNat)
def View.s (v : View) (n : Nat) : Word := v.low.s n
def View.s64 (v : View) (n : Nat) : BitVec 64 := v.s (n + 1) ++ v.s n
def View.q (v : View) (n : Nat) : Bool := v.low.getQ n

/-- A uniform guard q, qn (spec/09 R140). -/
def View.qGuard (v : View) (q : BitVec 3) (n : BitVec 1) : Bool := v.q q.toNat != (n == 1)

/-- A lane guard g, gn, or a branch predicate. -/
def View.pGuard (v : View) (g : BitVec 3) (n : BitVec 1) (l : Nat) : Bool := v.warp.p g.toNat l != (n == 1)

/-! ## Deferral stack (spec/03 R36, R37; spec/13 R226) -/

/-- Let a slice that stands at pc act on its deferral stack until its top entry has nothing to do. -/
def followStack : Nat → Slice → Addr → Slice × Addr
  | 0, sl, pc => (sl, pc)
  | fuel + 1, sl, pc =>
    match sl.dstack with
    | [] => (sl, pc)
    | e :: rest =>
      if sl.act &&& sl.live == 0 || pc == e.reconv then
        if !e.deferred && e.lanes &&& sl.live != 0 then
          followStack fuel { sl with act := e.lanes &&& sl.live, dstack := { e with deferred := true } :: rest } e.addr
        else
          followStack fuel { sl with act := e.recorded &&& sl.live, dstack := rest } e.reconv
      else (sl, pc)

def Slice.settle (sl : Slice) (pc : Addr) : Slice × Addr := followStack (2 * sl.dstack.length) sl pc

/-- A lane's death (spec/03 R56): it leaves the active mask and every entry of the stack. -/
def Slice.kill (sl : Slice) (lanes : BitVec 4) : Slice :=
  let keep := ~~~lanes
  { sl with
    live := sl.live &&& keep
    act := sl.act &&& keep
    dstack := sl.dstack.map fun e => { e with lanes := e.lanes &&& keep, recorded := e.recorded &&& keep } }

/-! ## Splits (spec/03 R32 to R36) -/

/-- One resolution of R34: a split that covers the live slices of its record takes the outer identifier. -/
def Warp.resolve1 (w : Warp) : Option Warp :=
  let live := w.liveSlices
  let hit := w.splits.findSome? fun sp =>
    if sp.parent = 0 then none
    else (w.recs.find? fun r => r.id == sp.parent && r.mask &&& live == sp.mask).map fun r => (sp, r)
  hit.map fun (sp, r) =>
    { w with
      splits := modFirst (·.mask == sp.mask) (fun sp => { sp with parent := r.outer.getD 0 }) w.splits
      recs := w.recs.filter (·.id != r.id) }

def Warp.resolveLoop : Nat → Warp → Warp
  | 0, w => w
  | fuel + 1, w =>
    match w.resolve1 with
    | some w' => Warp.resolveLoop fuel w'
    | none => w

/-- Records with no live slice are freed, dead slices leave the fuse groups, and resolution runs up the chain. -/
def Warp.resolve (w : Warp) : Warp :=
  let live := w.liveSlices
  let w := { w with
    recs := w.recs.filter fun r => r.id == 0 || r.mask &&& live != 0
    groups := (w.groups.map fun g => { g with mask := g.mask &&& live }).filter (·.mask != 0) }
  Warp.resolveLoop w.recs.length w

/-- The next identifier from 1 to 255 that no record holds. -/
def Warp.newId (w : Warp) : Nat :=
  ((List.range 255).map fun i => (w.idCtr - 1 + i) % 255 + 1).find? (fun n => w.recs.all (·.id != n)) |>.getD 1

def distinct {α : Type} [DecidableEq α] : List α → List α
  | [] => []
  | a :: l => a :: (distinct l).filter (· ≠ a)

/-- The slices of split sp continue at the addresses next gives. Slices that disagree divide under a new record (R36,
R34); a slice that then changes address through its own stack (R37) forms a split of its own under the same parent, with
no record. A fault that every split takes stays held in each part, any other with the lowest slice (spec/29 R415). -/
def Warp.place (w : Warp) (clock : Nat) (sp : Split) (next : Nat → Addr) : Warp :=
  let ks := (slicesOf sp.mask).filter fun k => (w.sl k).live != 0
  let moved : List (Nat × Slice × Addr) := ks.map fun k => (k, (w.sl k).settle (next k))
  let w := moved.foldl (fun w m => w.modSl m.1 fun _ => m.2.1) w
  let others := w.splits.filter (·.mask &&& sp.mask == 0)
  let diverges := decide ((distinct (ks.map next)).length > 1)
  let d := w.newId
  let parent := if diverges then d else sp.parent
  let places := distinct (moved.map fun m => (next m.1, m.2.2))
  let news := (places.zip (List.range places.length)).map fun (a, i) =>
    { mask := maskOf ((moved.filter fun m => (next m.1, m.2.2) == a).map Prod.fst), pc := a.2, parent
      lastIssue := if places.length = 1 then sp.lastIssue else clock
      deferred := if i = 0 then sp.deferred else sp.deferred.filter (·.all) : Split }
  let recs := if diverges then w.recs ++ [⟨d, maskOf ks, some sp.parent⟩] else w.recs
  { w with splits := others ++ news, recs, idCtr := if diverges then d % 255 + 1 else w.idCtr }.resolve

/-- Keep the split where it is with a reason to wait. -/
def State.waitWith (s : State) (v : View) (wt : Wait) : State :=
  s.setWarp v { v.warp with splits := modFirst (·.mask == v.split.mask) (fun sp => { sp with wait := wt }) v.warp.splits }

/-- The instruction does not issue; its stall reason is that of spec/03 R55. -/
def State.stall (s : State) (v : View) (reason : Nat) : State := s.waitWith v (.stall reason)

/-! ## Retirement -/

/-- Halt a team (spec/29 R406): every warp stops at its next boundary. -/
def State.haltTeam (s : State) (uid : Nat) : State := s.modTeam uid fun t => { t with halted := true, stepping := none }

/-- Entry i of a context's replay log (spec/29 R413): SEQ, INSTANCE and the third word. -/
def State.logAt? (s : State) (c : Nat) (i : Word) : Option (Nat × Word × Word) :=
  let x := s.ctxOf c
  if x.rlSize = 0 || i = x.rlTail then none
  else
    match s.ctxRead c (x.rlBase.toNat + 16 * (i.toNat % x.rlSize.toNat)) 16 with
    | (.ok _, bs) => some (natOfBytes (bs.take 8), BitVec.ofNat 32 (natOfBytes ((bs.drop 8).take 4)), BitVec.ofNat 32 (natOfBytes ((bs.drop 12).take 4)))
    | _ => none

/-- The next chunk that the log has for an instance: how far from RLHEAD it stands, and its size (spec/29 R414). -/
def State.nextChunk? (s : State) (c : Nat) (inst : Word) : Option (Nat × Nat) :=
  let x := s.ctxOf c
  (List.range (x.rlTail - x.rlHead).toNat).findSome? fun i =>
    match s.logAt? c (x.rlHead + BitVec.ofNat 32 i) with
    | some (_, who, w) => if who = inst && !w.getLsbD 31 then some (i, (w.extractLsb' 0 16).toNat + 1) else none
    | none => none

def Ctx.replaying (x : Ctx) : Bool := x.dbgCtl.getLsbD 4

/-- No log of another replaying context has an entry with a lower SEQ left (spec/29 R414). -/
def State.logTurn (s : State) (c : Nat) : Bool :=
  match s.logAt? c (s.ctxOf c).rlHead with
  | none => true
  | some (seq, _) => s.ctxs.all fun o => o.1 == c || !o.2.replaying ||
      ((s.logAt? o.1 o.2.rlHead).map fun e => decide (seq ≤ e.1)).getD true

/-- Under REPLAY a chunk has its logged size, and ends only when every entry with a lower SEQ is done. -/
def State.replayHolds (s : State) (t : Team) : Bool :=
  t.replayed && match s.nextChunk? t.ctx t.inst with
    | some (i, size) => !(decide (t.chunk + 1 < size) || (i == 0 && s.logTurn t.ctx))
    | none => true

/-- A replayed team's chunk has one more instruction; at its logged size it ends. -/
def State.replayRetire (s : State) (t : Team) : State :=
  match s.nextChunk? t.ctx t.inst with
  | some (0, size) =>
    if t.chunk + 1 ≥ size then (s.modCtx t.ctx fun x => { x with rlHead := x.rlHead + 1 }).modTeam t.uid fun t => { t with chunk := 0 }
    else s.modTeam t.uid fun t => { t with chunk := t.chunk + 1 }
  | _ => s.modTeam t.uid fun t => { t with chunk := t.chunk + 1 }

/-- DBGSTAT after an operation on a team (spec/29 R406); its halted teams are counted when it is read. -/
def State.dbgResult (s : State) (c : Nat) (inst : Word) (result : Nat) : State :=
  s.modCtx c fun x => { x with dbgStat := BitVec.ofNat 64 (inst.toNat * 2 ^ 32 + result * 2 ^ 28) }

/-- The split of a view has been stepped by the debugger: the team halts again (spec/29 R406). -/
def State.endStep (s : State) (v : View) : State :=
  match v.team.stepping with
  | some x =>
    if x.warp = v.warp.num && v.split.mask.getLsbD x.slice then (s.haltTeam v.team.uid).dbgResult v.team.ctx v.team.inst 0 else s
  | none => s

/-- The count of a stop in force is reached: the team halts (spec/29 R407). -/
def State.endStop (s : State) (v : View) : State :=
  let t := v.team
  match (s.ctxOf t.ctx).stop with
  | some q =>
    if q.team = some t.uid && q.warp = v.warp.num && v.split.mask.getLsbD q.slice && (v.warp.sl q.slice).retired + 1 == q.target then
      ((s.haltTeam t.uid).modCtx t.ctx fun x => { x with stop := none }).dbgResult t.ctx t.inst 0
    else s
  | none => s

/-- The next instruction of a replayed team is the last of its chunk. -/
def State.replayEnds (s : State) (t : Team) : Bool :=
  match s.nextChunk? t.ctx t.inst with
  | some (0, size) => decide (t.chunk + 1 ≥ size)
  | _ => false

/-- A recorded or replayed team's chunk has one more instruction (spec/29 R413, R414); where it ends of itself, its end
follows. -/
def State.countChunk (s : State) (v : View) : State :=
  let t := v.team
  if t.recorded then
    let s := s.modTeam t.uid fun t => { t with chunk := t.chunk + 1 }
    if t.chunk + 1 ≥ 65536 then { s with plan := .event (.recordChunkLimit t.uid) :: s.plan } else s
  else if t.replayed then
    if s.replayEnds t then { s.replayRetire t with plan := .event (.recordChunkLimit t.uid) :: (s.replayRetire t).plan }
    else s.replayRetire t
  else s

/-- What the debugger, the record and the replay make of a retirement (spec/29 R406, R407, R413). -/
def State.afterRetire (s : State) (v : View) : State := ((s.endStep v).endStop v).countChunk v

/-- Raise flags of a team (spec/05 R86). -/
def Team.raise (t : Team) (clock : Nat) (f : Word) : Team :=
  if f = 0 then t
  else { t with flags := t.flags ||| f, raisedAt := clock, raised := if t.raisedAt = clock then t.raised ||| f else f }

/-- Write warp w for the view's warp and retire the instruction: RETIRED rises in every slice of the split
(spec/29 R405), flags are ORed into FLAGS (spec/05 R86), and slice k continues at next k. -/
def State.retireTo (s : State) (v : View) (w : Warp) (flags : Word) (next : Nat → Addr) : State :=
  let w := (w.modSls v.split.mask fun sl => { sl with retired := sl.retired + 1 }).place s.clock v.split next
  let s := s.modTeam v.team.uid fun t => (t.modWarp v.warp.num fun _ => w).raise s.clock flags
  s.afterRetire v

/-- Retire to the next instruction, len bytes on. -/
def State.retire (s : State) (v : View) (w : Warp) (flags : Word) (len : Nat) : State :=
  s.retireTo v w flags fun _ => v.pc + BitVec.ofNat 64 len

/-! ## Fusing (spec/03 R39, R42) -/

/-- The faults that a fused split holds: those of both, one that every split takes once (spec/29 R415). -/
def mergeHeld (a b : List Deferred) : List Deferred :=
  a ++ b.filter (!·.all) ++ (a.filter (·.all)).foldl List.erase (b.filter (·.all))

/-- Fuse the splits of a warp whose masks lie in mask: the copied state comes from the lowest slice, part where given;
the parent is `parent`. Answers the warp and whether a copied value differed. -/
def Warp.fuse (w : Warp) (mask : BitVec 8) (parent : Nat) (part : Option Nat) : Warp × Bool :=
  let parts : List Split := w.splits.filter fun sp => sp.mask &&& mask == sp.mask
  let low := w.sl (lowestBit 8 mask.toNat)
  let p := part.getD low.part
  let differs := (slicesOf mask).any fun k =>
    let sl := w.sl k
    sl.sregs != low.sregs || sl.q != low.q || sl.part != p || sl.rstack != low.rstack || sl.rngLo != low.rngLo ||
      sl.rngHi != low.rngHi || sl.rngCtr != low.rngCtr
  let w := w.modSls mask fun sl => { sl with
    sregs := low.sregs, q := low.q, part := p, rstack := low.rstack, rngLo := low.rngLo, rngHi := low.rngHi
    rngCtr := low.rngCtr }
  match parts with
  | [] => (w, false)
  | a :: rest =>
    let fused : Split := {
      mask, pc := a.pc, parent
      lastIssue := rest.foldl (fun m sp => min m sp.lastIssue) a.lastIssue
      deferred := rest.foldl (fun l sp => mergeHeld l sp.deferred) a.deferred }
    let others : List Split := w.splits.filter fun sp => !(sp.mask &&& mask == sp.mask)
    ({ w with splits := others ++ [fused] }.resolve, differs)

def flagUDIFF : Word := 0x100

/-- The slices an operation in flight writes after a fuse: every fused slice holds the lowest one's copies, so a result
due to the lowest goes to all of them and one due to another is overwritten (R42). -/
def fusedDest (fused m : BitVec 8) : BitVec 8 :=
  if m.getLsbD (lowestBit 8 fused.toNat) then m ||| fused else m &&& ~~~fused

/-- Fuse splits of a warp in the state: UDIFF where a copied value differed. -/
def State.fuseWarp (s : State) (uid warp : Nat) (w : Warp) (mask : BitVec 8) (parent : Nat) (part : Option Nat) : State × Bool :=
  let (w, differs) := w.fuse mask parent part
  let mine := fun (x : Sel) => x.team == uid && x.warp == warp
  let s := s.modTeam uid fun t => t.modWarp warp fun _ => w
  ({ s with
    memOps := s.memOps.map fun m => if mine m.x then { m with dest := fusedDest mask m.dest } else m
    matOps := s.matOps.map fun m => if mine m.x then { m with dest := fusedDest mask m.dest } else m
    mbReqs := s.mbReqs.map fun m => if mine m.x then { m with mask := fusedDest mask m.mask } else m
    regroups := s.regroups.map fun (n, r) => (n, { r with
      loads := r.loads.map fun l => { l with
        pins := l.pins.map fun p => if mine p.1 then (p.1, fusedDest mask p.2.1, p.2.2) else p } }) }, differs)

/-! ## Barriers (spec/13 R232 to R235) -/

/-- Bring a barrier up to date with arrivals and deaths; true when the phase completes. -/
def Barrier.update (b : Barrier) (warps : List Warp) : Barrier × Bool :=
  if !b.init then (b, false)
  else
    let alive := fun n => warps.any fun w => w.num == n && !w.dead
    let live := fun n => ((warps.find? (·.num == n)).map Warp.liveSlices).getD 0
    let members := (List.range 32).foldl (fun m n =>
      if m.getLsbD n && !alive n then m &&& ~~~(BitVec.ofNat 32 (2 ^ n)) else m) b.members
    let came := fun n =>
      let sl := Tab.get (0 : BitVec 8) b.slices n
      members.getLsbD n && sl != 0 && live n &&& sl == live n
    let arrived := (List.range 32).foldl (fun m n => if came n then m ||| BitVec.ofNat 32 (2 ^ n) else m) (b.arrived &&& members)
    let leaving := (List.range 32).foldl (fun m n =>
      if came n && b.byLeave.getLsbD n then m ||| BitVec.ofNat 32 (2 ^ n) else m) (b.leaving &&& members)
    if members != 0 && arrived == members then
      ({ init := true, members := members &&& ~~~leaving, phase := b.phase + 1 }, true)
    else ({ b with members, arrived, leaving }, false)

/-- The splits of a team that wait at barrier n, with the address after it. -/
def Team.waitingAt (t : Team) (n : Nat) : List (Sel × Addr) :=
  t.warps.flatMap fun w => w.splits.filterMap fun sp =>
    match sp.wait with
    | .barrier m next _ => if m = n then some (⟨t.uid, w.num, lowestBit 8 sp.mask.toNat⟩, next) else none
    | _ => none

/-- Update barrier n of a team; a completed phase releases and retires the splits that wait in it. -/
def State.updateBarrier (s : State) (uid n : Nat) : State :=
  match s.team? uid with
  | none => s
  | some t =>
    match t.bars[n]? with
    | none => s
    | some b =>
      let (b', done) := b.update t.warps
      let s := s.modTeam uid fun t => { t with bars := modNth (fun _ => b') n t.bars }
      if done then
        (t.waitingAt n).foldl (fun s x =>
          match s.viewOf? x.1 with
          | some v => (s.retireTo v v.warp 0 fun _ => x.2).endChunk uid
          | none => s) s
      else s

/-- The end of a clock: the barriers of every team see its arrivals and its deaths (R234, Order within a clock). -/
def State.updateBarriers (s : State) : State :=
  s.teams.foldl (fun s t => (List.range t.bars.length).foldl (fun s n => s.updateBarrier t.uid n) s) s

/-! ## Trace and replay rings (spec/29 R410, R413) -/

/-- Append a trace record; a full ring drops it, and no ring at all writes and counts nothing. -/
def State.traceRecord (s : State) (c : Nat) (bs : List Byte) : State :=
  let x := s.ctxOf c
  let size := x.trSize.toNat
  if !pow2In 16 (2 ^ 24) size then s
  else
    let units := bs.length / 16
    if (x.trTail - x.trHead).toNat + units > size then s.modCtx c fun x => { x with trLost := x.trLost + 1 }
    else
      let s? := (List.range units).foldl (fun (s? : Option State) i =>
        s?.bind fun s => s.ctxWrite? c (x.trBase.toNat + 16 * ((x.trTail.toNat + i) % size)) ((bs.drop (16 * i)).take 16)) (some s)
      match s? with
      | some s => s.modCtx c fun x => { x with trTail := x.trTail + BitVec.ofNat 32 units }
      | none => s.modCtx c fun x => { x with trLost := x.trLost + 1 }

/-! ## Dependence counters (spec/19 R309) -/

/-- A decrement that is not applied. -/
def State.decrementLost (s : State) (c idx : Nat) : State :=
  s.faultRecord c 10 0 0 0 ((s.ctxOf c).depBase.toNat + 4 * idx) (BitVec.ofNat 32 idx)

/-- A decrement by the serving unit. -/
def State.decrement (s : State) (c idx : Nat) : State :=
  let va := (s.ctxOf c).depBase.toNat + 4 * idx
  match s.xlateNow c va .store with
  | .fault _ _ => s.decrementLost c idx
  | .notPresent level => (s.requestPage c va level 0 0 5 (.counter c idx)).1
  | .ok key =>
    if s.poisoned key 4 then s.decrementLost c idx
    else
      let m := natOfBytes (s.homeBytes key 4)
      if m = 0 then s.modCtx c fun x => { x with qerr := x.qerr ||| 0x100 }
      else s.engineWrite (c % 4) key (bytesOfNat 4 (m - 1))

/-! ## Memory operations in flight (spec/15 R252) -/

/-- One more outstanding operation of a counter. -/
def Warp.addLd (w : Warp) (d : Int) : Warp := { w with ld := (w.ld + d).toNat }
def Warp.addSt (w : Warp) (d : Int) : Warp := { w with st := (w.st + d).toNat }
def Warp.addCp (w : Warp) (d : Int) : Warp := { w with cp := (w.cp + d).toNat }

/-! ## Discard and kill (spec/03 R60, R61; spec/19 R322) -/

/-- A weak store still in flight may stay unperformed, byte by byte. -/
def State.undoStore (s : State) (m : MemOp) : State :=
  m.stored.foldl (fun s e =>
    let (s, keep) := s.flip
    if keep || Tab.find? (s.l1Of m.core) e.1 != some ⟨e.2.1, true, m.x.team⟩ then s
    else
      match e.2.2 with
      | some old => s.setL1 m.core (Tab.ins (s.l1Of m.core) e.1 old)
      | none => s.setL1 m.core (Tab.del (s.l1Of m.core) e.1)) s

/-- Abandon what the unit of a cluster holds for a team (spec/21 R342, R334). -/
def Regroup.abandon (r : Regroup) (uid : Nat) (calls : List Nat) : Regroup :=
  { r with
    queue := r.queue.filter (!calls.contains ·)
    bins := (r.bins.map fun (n, b) =>
      let rows := b.rows.filter fun w => !calls.contains w.call
      (n, { b with rows, oldest := (rows.head?.map (·.placed)).getD b.oldest })).filter fun e => !e.2.rows.isEmpty
    cache := r.cache.map fun v => { v with pins := v.pins.filter (· != uid) }
    loads := r.loads.map fun l => { l with pins := l.pins.filter fun p => p.1.team != uid } }

/-- Abandon every asynchronous operation of a team instance (R119, R281, R322, R342, R358, R377). Copies, and calls
with rows in a tile, stay until their engine has stopped; atomics on their way still execute. -/
def State.abandon (s : State) (uid : Nat) : State :=
  let mine := fun (x : Sel) => x.team == uid
  let s := (s.memOps.filter fun m => mine m.x && !m.stored.isEmpty).foldl State.undoStore s
  let calls := (s.ncalls.filter fun c => mine c.x).map (·.id)
  let queued := s.regroups.flatMap fun e => e.2.tiles.flatMap fun t => t.rows.map (·.call)
  let dropped := fun id => (s.matOps.any fun m => m.id == id && mine m.x) ||
    (s.sends.any fun m => m.id == id && mine m.x) || (s.landings.any fun m => m.id == id && mine m.x) ||
    (s.mbReqs.any fun m => m.id == id && mine m.x) ||
    s.pairs.any fun p => (p.2.landing.map fun m => m.id == id && mine m.x).getD false
  let copying := fun id => s.copies.any fun c => c.id == id && mine c.x
  { s with
    memOps := s.memOps.filter fun m => !mine m.x || !m.atoms.isEmpty
    copies := s.copies.map fun c => if mine c.x then { c with dead := true } else c
    rlocks := (s.rlocks.filter fun r => !dropped r.op).map fun r => if copying r.op then { r with dead := true } else r
    matOps := s.matOps.filter fun m => !mine m.x
    texOps := s.texOps.filter fun m => !mine m.x
    rays := s.rays.filter fun m => !mine m.x
    rayOps := s.rayOps.filter fun m => !mine m.x
    rgOps := s.rgOps.filter fun m => !mine m.x
    ncalls := (s.ncalls.filter fun c => !mine c.x || queued.contains c.id).map fun c =>
      if mine c.x then { c with rows := [], left := (queued.filter (· == c.id)).length } else c
    regroups := s.regroups.map fun (n, r) => (n, r.abandon uid calls)
    tokens := s.tokens.filter (·.team != uid)
    sends := s.sends.filter fun m => !mine m.x
    abroad := s.abroad.filter fun m => !mine m.x
    landings := s.landings.filter fun m => !mine m.x
    mbReqs := s.mbReqs.filter fun m => !mine m.x
    pairs := s.pairs.map fun (n, p) =>
      (n, if (p.landing.map fun m => mine m.x).getD false then { p with landing := none } else p)
    walks := s.walks.map fun w => { w with who := w.who.filter fun e => !mine e.x } }

/-- Remove a team at once. -/
def State.removeTeam (s : State) (uid : Nat) : State :=
  let s := s.abandon uid
  { s with teams := s.teams.filter (·.uid != uid) }

/-- Requests of a core's mailbox port that have no answer yet. -/
def State.mailboxLoad (s : State) (core : Nat) : Nat :=
  s.mbReqs.countP (fun m => m.core == core) +
    s.pairs.countP fun p => (p.2.landing.map fun m => m.core == core).getD false

/-- Nothing of the team's old instance is still in an engine (spec/07 R119, spec/21 R342). -/
def State.opsStopped (s : State) (uid : Nat) : Bool :=
  !(s.copies.any (·.x.team == uid)) && !(s.ncalls.any (·.x.team == uid))

/-- A task is gone, and with it a record all of whose tasks are. -/
def State.dropTask (s : State) (uid : Nat) : State :=
  let s := { s with tasks := s.tasks.filter (·.uid != uid) }
  { s with records := s.records.filter fun r => !r.ready || decide (r.sent < r.count) || s.tasks.any (·.record == r.uid) }

/-- The gang has no resident team left: it and its task are gone, and its notify list is never processed (R310). -/
def State.endGang (s : State) (gang : Nat) : State :=
  match s.gang? gang with
  | none => s
  | some g =>
    if s.teams.any (·.gang == gang) then s
    else { s with gangs := s.gangs.filter (·.uid != gang) }.dropTask g.task

/-- Discard a whole flush gang; its task returns to its scheduler in its arrival order, staged afresh later. -/
def State.discardGang (s : State) (gang : Nat) (st : TaskSt) : State :=
  match s.gang? gang with
  | none => s
  | some g =>
    let ts := s.teams.filter (·.gang == gang)
    let s := ts.foldl (fun s t =>
      let s := if t.halted then s.faultRecord t.ctx 7 0 t.inst (s.coreId t.core) 0 0 else s
      s.removeTeam t.uid) s
    let s := { s with gangs := s.gangs.filter (·.uid != gang) }
    if g.killed then s.dropTask g.task
    else s.modTask g.task fun k => { k with
      st, tick := s.tick, kept := g.pipes.filter (·.durable), oldTeams := k.oldTeams ++ ts.map (·.uid) }

/-! ## Deferred faults (spec/29 R398, R415) -/

def Split.hold (sp : Split) (d : Deferred) : Split := { sp with deferred := sp.deferred ++ [d] }

/-- Hold a fault for the split of x. -/
def State.deferTo (s : State) (x : Sel) (d : Deferred) : State :=
  match s.viewOf? x with
  | none => s
  | some v => s.setWarp v { v.warp with
      splits := modFirst (·.mask == v.split.mask) (·.hold d) v.warp.splits }

def Warp.sels (w : Warp) (uid : Nat) : List Sel := w.splits.map fun sp => ⟨uid, w.num, lowestBit 8 sp.mask.toNat⟩

/-- Every split of a warp (spec/29 R415). -/
def State.deferWarp (s : State) (uid warp : Nat) (code : Nat) (info : Word) (lane : Nat := 0) : State :=
  match (s.team? uid).bind (·.warp? warp) with
  | none => s
  | some w => (w.sels uid).foldl (fun s x => s.deferTo x ⟨code, info, lane, s.clock, true, 0⟩) s

/-- Every split of a team. -/
def State.deferTeam (s : State) (uid code : Nat) (info : Word) : State :=
  match s.team? uid with
  | none => s
  | some t => (t.warps.flatMap (·.sels uid)).foldl (fun s x => s.deferTo x ⟨code, info, 0, s.clock, true, 0⟩) s

/-! ## Faults (spec/29 R395, R396) -/

/-- A fault of an instruction: CODE, TRAPINFO, LANE and the flags set with it (spec/05 R88). -/
structure Trap where
  code  : Nat
  info  : Word
  lane  : Nat := 0
  flags : Word := 0
  deriving DecidableEq, Repr

def fILLOP : Nat := 0x01
def fILLREG : Nat := 0x02
def fMISALIGN : Nat := 0x03
def fPAGE : Nat := 0x04
def fPROT : Nat := 0x05
def fRLOCK : Nat := 0x06
def fDIVDEPTH : Nat := 0x07
def fRETSTK : Nat := 0x08
def fDIVRET : Nat := 0x09
def fSPARSEMETA : Nat := 0x0A
def fSCALEMIS : Nat := 0x0B
def fESCX : Nat := 0x0C
def fNANTRAP : Nat := 0x0D
def fBARMISUSE : Nat := 0x0E
def fPIPEMISUSE : Nat := 0x0F
def fTWPOISON : Nat := 0x10
def fTWMISMATCH : Nat := 0x11
def fMBSEQ : Nat := 0x12
def fWSBAD : Nat := 0x13
def fJTAB : Nat := 0x14
def fTIMEOUT : Nat := 0x15
def fSOFT : Nat := 0x16
def fBKPT : Nat := 0x17
def fECC : Nat := 0x18
def fWATCHDOG : Nat := 0x19
def fPRIV : Nat := 0x1A
def fGANGKILL : Nat := 0x1B

/-- Kill one team (R61): a KILL record, its removal, and GANGKILL in the other teams of its gang. -/
def State.killTeam (s : State) (uid code : Nat) (info : Word) (resume : Addr) : State :=
  match s.team? uid with
  | none => s
  | some t =>
    let s := s.faultRecord t.ctx 1 code t.inst (s.coreId t.core) resume.toNat info
    let s := (s.removeTeam uid).modGang t.gang fun g => { g with killed := true }
    let s := (s.teams.filter (·.gang == t.gang)).foldl (fun s o => s.deferTeam o.uid fGANGKILL t.inst) s
    s.endGang t.gang

/-- Remove every resident team of a gang at once, with no GANGKILL. -/
def State.killGang (s : State) (gang : Nat) : State :=
  let s := (s.teams.filter (·.gang == gang)).foldl (fun s t => s.removeTeam t.uid) s
  s.endGang gang

/-- No handler: TBASE at team start. -/
def noHandler : Word := 0xFFFFFFFF

/-- The state of a slice that enters the handler. -/
def Slice.enter (sl : Slice) (t : Trap) (pc : Addr) : Slice :=
  { sl with
    trapCode := BitVec.ofNat 32 (t.lane * 2 ^ 16 + t.code), trapPc := pc.truncate 32, trapInfo := t.info
    resume := pc, inHandler := true, lastRites := t.code == fGANGKILL || t.code == fWATCHDOG }

def View.inHandler (v : View) : Bool := (slicesOf v.split.mask).any fun k => (v.warp.sl k).inHandler

/-- The team of a split that takes GANGKILL or WATCHDOG has from now the drain bound of its context to exit (R397). -/
def State.startBound (s : State) (uid code c : Nat) : State :=
  let bound := (s.ctxOf c).drainB
  if (code = fGANGKILL || code = fWATCHDOG) && bound != 0xFFFFFFFF then
    s.modTeam uid fun t => { t with removeAt := some (t.removeAt.getD (s.tick + bound.toNat)) }
  else s

/-- TAKING A FAULT: split v takes t; pc is the address of the instruction at which it is taken, where TRET resumes. -/
def State.takeFault (s : State) (v : View) (t : Trap) (pc : Addr) : State :=
  let s := (s.modTeam v.team.uid (·.raise s.clock t.flags)).endStep v
  if v.team.tbase == noHandler || v.inHandler then s.killTeam v.team.uid t.code t.info pc
  else
    let w := v.warp.modSls v.split.mask fun sl => sl.enter t pc
    let sp := fun (sp : Split) => { sp with
      pc := v.team.entry + (v.team.tbase &&& 0xFFFFFFFC).zeroExtend 64, wait := .none, waitc := none }
    (s.setWarp v { w with splits := modFirst (fun sp : Split => sp.mask == v.split.mask) sp w.splits }).startBound
      v.team.uid t.code v.ctx

/-- Of the faults a split holds, the one it takes next (R398). -/
def pickDeferred (l : List Deferred) : Option Deferred :=
  match l.find? (·.code == fGANGKILL) with
  | some d => some d
  | none =>
    match l.find? (·.code == fWATCHDOG) with
    | some d => some d
    | none => l.foldl (fun b d =>
        match b with
        | none => some d
        | some b => if d.clock < b.clock || (d.clock = b.clock && d.code < b.code) then some d else some b) none

def removeFirst {α : Type} (p : α → Bool) : List α → List α
  | [] => []
  | a :: l => if p a then l else a :: removeFirst p l

/-- At an instruction boundary the split takes one held fault; the instruction there is neither checked nor retired. -/
def State.takeDeferred (s : State) (v : View) : State :=
  match pickDeferred v.split.deferred with
  | none => s
  | some d =>
    if v.inHandler then s
    else
      let drop := fun (sp : Split) => { sp with deferred := removeFirst (· == d) sp.deferred }
      let splits := modFirst (fun sp => sp.mask == v.split.mask) drop v.warp.splits
      let s := s.setWarp v { v.warp with splits }
      match s.viewOf? v.sel with
      | some v => s.takeFault v ⟨d.code, d.info, d.lane, 0⟩ v.pc
      | none => s

/-- The split that holds the lowest live slice of `mask`, else the warp's lowest; with no live lane the team is killed
(spec/17 R283; spec/29 R415). -/
def State.deferLowest (s : State) (x : Sel) (mask : BitVec 8) (code : Nat) (info : Word) (lane mb : Nat := 0) : State :=
  match (s.team? x.team).bind (·.warp? x.warp) with
  | none => s
  | some w =>
    let live := w.liveSlices
    let m := if live &&& mask != 0 then live &&& mask else live
    if m = 0 then s.killTeam x.team code info 0
    else s.deferTo ⟨x.team, x.warp, lowestBit 8 m.toNat⟩ ⟨code, info, lane, s.clock, false, mb⟩

/-! ## Deaths of lanes (spec/03 R56, R57) -/

/-- A pixel lane's export at its EXIT: colour from v0 to v3 and depth from v4 (spec/27 R382). A helper lane exports
nothing, and a killed lane drops its pixel. -/
def State.exportLanes (s : State) (v : View) (lanes : List Nat) (exports : Bool) : State :=
  match v.team.kind with
  | .pixel draw prim pixels _ =>
    let zout := ((s.draws.find? (·.id == draw)).map (·.zout)).getD false
    { s with pixels := s.pixels.map fun p =>
        if p.team = v.team.uid && p.draw = draw && p.prim = prim && !p.final then
          match lanes.find? fun l => Tab.find? pixels (32 * v.warp.num + l) == some (p.x, p.y, true) with
          | none => p
          | some l =>
            if exports then
              { p with st := .exported ((List.range 4).map fun r => v.warp.v r l)
                                       (if zout then v.warp.v 4 l else p.depth) }
            else { p with st := .dropped }
        else p }
  | _ => s

/-- Kill lanes of the split. -/
def Warp.killLanes (w : Warp) (lanes : List Nat) : Warp :=
  lanes.foldl (fun w l => w.modSl (l / 4) (·.kill (BitVec.ofNat 4 (2 ^ (l % 4))))) w

/-- Deaths have happened in a team: a stop whose slice died reports it (spec/29 R407). Its barriers see them at the end
of the clock. -/
def State.afterDeaths (s : State) (v : View) : State :=
  match (s.ctxOf v.team.ctx).stop with
  | some q =>
    let gone := ((s.team? v.team.uid).bind (·.warp? q.warp)).map fun w => (w.sl q.slice).live == 0
    if q.team = some v.team.uid && gone.getD false then
      ((s.haltTeam v.team.uid).modCtx v.team.ctx fun x => { x with stop := none }).dbgResult v.team.ctx v.team.inst 4
    else s
  | none => s

/-- RETURNING FROM A HANDLER (spec/29 R396, spec/13 R245): a slice in its handler leaves it for its resume address,
or loses its active lanes when the handler was that of GANGKILL or WATCHDOG; another goes to the next instruction. -/
def State.leaveHandler (s : State) (v : View) : State :=
  let ks := slicesOf v.split.mask
  let dying := (List.range 32).filter fun l => v.laneOn l && (v.warp.sl (l / 4)).inHandler && (v.warp.sl (l / 4)).lastRites
  let s := s.exportLanes v dying true
  let next := fun k => if (v.warp.sl k).inHandler then (v.warp.sl k).resume else v.pc + 4
  let w := ks.foldl (fun w k => w.modSl k fun sl => { sl with inHandler := false, lastRites := false }) (v.warp.killLanes dying)
  let s := s.retireTo v w 0 next
  if dying.isEmpty then s else s.afterDeaths v

/-! ## Issue -/

/-- The shape of every meaning of an instruction: with no split in State.cur the machine stops; a Trap is taken as a
precise fault at the instruction's address. -/
def State.issue (s : State) (body : View → Except Trap State) : Host.Outcome State Fault Refusal :=
  match s.view? with
  | none => .fault .noSplit
  | some v =>
    match body v with
    | .ok s' => .next s'
    | .error t => .next (s.takeFault v t v.pc)

end Sys2Proof.Machine
end

