-- ==== Sys2Proof/Machine/Fetch.lean ====
section
/-!
DEFINITION. Fetching an instruction (spec/09 R127 to R129, R151): each word translates with the fetch permission and is
read at its home, through a path that is not coherent with stores.
-/

namespace Sys2Proof.Machine

inductive FetchRes where
  | word (w : Word)
  | reject (r : Reject)
  | ecc (info : Word)
  | miss
  deriving DecidableEq, Repr

/-- The word at a place of code, for a core and context: what the home holds, or, where a store has changed it since the
instruction buffer took it, either (R129). -/
def State.codeWord (s : State) (core ctx key : Nat) : Word :=
  let new : Word := BitVec.ofNat 32 (natOfBytes (s.homeBytes key 4))
  match s.ibuf.find? fun c => c.core == core && c.ctx == ctx && c.key == key with
  | some c => if c.word != new && Config.oldCode key s.clock s.freeCtr then c.word else new
  | none => new

/-- The word at an instruction address for a core and context. -/
def State.fetchWord (s : State) (core ctx : Nat) (pc : Addr) : FetchRes :=
  if !canonical pc.toNat then .reject (.page (pageInfo 1 pc.toNat))
  else
    match s.xlate core ctx pc.toNat .fetch with
    | .miss => .miss
    | .fault code info => .reject (if code = fPROT then .prot info else .page info)
    | .ok key =>
      if s.poisoned key 4 then .ecc (pc.truncate 32)
      else .word (s.codeWord core ctx key)

/-- The instruction buffer keeps the word at an address, if it has none there. -/
def State.keepWord (s : State) (core ctx : Nat) (pc : Addr) : State :=
  match s.xlate core ctx pc.toNat .fetch with
  | .ok key =>
    if s.ibuf.any fun c => c.core == core && c.ctx == ctx && c.key == key then s
    else { s with ibuf := ⟨core, ctx, key, s.codeWord core ctx key⟩ :: s.ibuf }
  | _ => s

/-- A fetched instruction, or why there is none; `miss` carries the address whose translation must be walked. -/
inductive Fetched where
  | instr (i : Instr)
  | ecc (info : Word)
  | miss (va : Addr)
  deriving DecidableEq, Repr

/-- The instruction buffer keeps the words of the instruction at an address. -/
def State.keepCode (s : State) (core ctx : Nat) (pc : Addr) : State :=
  match s.fetchWord core ctx pc with
  | .word w0 => if twoWords w0 then (s.keepWord core ctx pc).keepWord core ctx (pc + 4) else s.keepWord core ctx pc
  | _ => s

def rejected (w0 : Word) : FetchRes → Addr → Fetched
  | .word _, _ => .instr (.illegalInstruction w0 .illop)
  | .reject r, _ => .instr (.illegalInstruction w0 r)
  | .ecc i, _ => .ecc i
  | .miss, va => .miss va

/-- Fetch and decode at pc, in the order of spec/09 R151 steps 1 to 4. -/
def State.fetch (s : State) (core ctx : Nat) (pc : Addr) : Fetched :=
  match s.fetchWord core ctx pc with
  | .word w0 =>
    if !word0Ok w0 then .instr (.illegalInstruction w0 .illop)
    else
      let second := if twoWords w0 then s.fetchWord core ctx (pc + 4) else .word 0
      match second with
      | .word w1 =>
        match decode w0 w1 with
        | .ok i => .instr i
        | .error r => .instr (.illegalInstruction w0 r)
      | r => rejected w0 r (pc + 4)
  | r => rejected 0 r pc

/-- The stall reason of an access that waits for its translation (spec/29 R400). -/
def Access.stallReason : Access → Nat
  | .fetch => 0
  | .load => 2
  | .store => 3

/-- Start, or join, the walk that an access of a split needs; the split waits for it (spec/29 R400). While the die's
miss-merge table holds 8,192 accesses, the access does not issue. -/
def State.startWalk (s : State) (v : View) (va : Nat) (kind : Access) (lane : Nat) : State :=
  let die := dieOfCore v.core
  if s.mergeFull die then s.stall v kind.stallReason
  else
    (s.waitWith v (.walk kind.stallReason)).joinWalk die v.ctx va fun w =>
      { w with who := w.who ++ [⟨v.sel, v.core, lane, va, kind⟩] }

end Sys2Proof.Machine
end

