-- ==== Sys2Proof/Machine/Num.lean ====
section
/-!
DEFINITION. Numbers (spec/05): the binary formats, exact values m · 2^e, rounding with overflow and its flags, the
arithmetic of spec/11 R179 and the conversions of R188. A rounding gets an exact value, or one with a sticky last bit
far below the precision of the target, so that it rounds as the exact value does.
-/

namespace Sys2Proof.Machine

/-! ## Flags (spec/05 R86) -/

def flagINV : Word := 0x001
def flagDZ : Word := 0x002
def flagOVF : Word := 0x004
def flagUNF : Word := 0x008
def flagINX : Word := 0x010
def flagSAT : Word := 0x020
def flagALIGN : Word := 0x040
def flagESCX : Word := 0x080
def flagNANM : Word := 0x200

def flagIf (b : Bool) (f : Word) : Word := if b then f else 0

/-! ## Exact values -/

/-- (−1)^neg · m · 2^e. -/
structure Dy where
  neg : Bool
  m   : Nat
  e   : Int
  deriving DecidableEq, Repr

/-- A number with its specials (spec/05 R63, R64). -/
inductive FVal where
  | nan (signalling : Bool)
  | inf (neg : Bool)
  | num (d : Dy)
  deriving DecidableEq, Repr

def FVal.isNan : FVal → Bool
  | .nan _ => true
  | _ => false

def FVal.isSnan : FVal → Bool
  | .nan s => s
  | _ => false

def pow2 (k : Nat) : Nat := 2 ^ k

/-- m · 2^sh as an integer, dropping nothing when sh ≥ 0. -/
def shiftUp (m : Nat) (sh : Int) : Nat := m * pow2 sh.toNat

/-- Bring a value to exponent e ≤ its own. -/
def Dy.intAt (d : Dy) (e : Int) : Int :=
  let n : Int := shiftUp d.m (d.e - e)
  if d.neg then -n else n

def Dy.ofInt (n : Int) (e : Int) : Dy := ⟨decide (n < 0), n.natAbs, e⟩

def Dy.add (a b : Dy) : Dy :=
  let e := min a.e b.e
  Dy.ofInt (a.intAt e + b.intAt e) e

def Dy.mul (a b : Dy) : Dy := ⟨a.neg != b.neg, a.m * b.m, a.e + b.e⟩

/-- Compare by value: −0 equals +0. -/
def Dy.cmp (a b : Dy) : Ordering :=
  let e := min a.e b.e
  compare (a.intAt e) (b.intAt e)

/-- The exponent of the leading bit of a value that is not zero. -/
def Dy.top (d : Dy) : Int := d.e + (Nat.log2 d.m : Nat)

/-! ## Formats (spec/05 R62 to R65) -/

/-- A binary format: `maxM` · 2^`maxE` is its largest finite value; `ieee` says that an exponent of all ones holds
infinities and NaNs. -/
structure Fmt where
  eb   : Nat
  mb   : Nat
  bias : Nat
  maxM : Nat
  maxE : Nat
  ieee : Bool
  deriving DecidableEq, Repr

def fp32 : Fmt := ⟨8, 23, 127, 2 ^ 24 - 1, 104, true⟩
def bf16 : Fmt := ⟨8, 7, 127, 2 ^ 8 - 1, 120, true⟩
def fp16 : Fmt := ⟨5, 10, 15, 2 ^ 11 - 1, 5, true⟩
def e4m3 : Fmt := ⟨4, 3, 7, 14, 5, false⟩
def e5m2 : Fmt := ⟨5, 2, 15, 7, 13, true⟩
def e2m1 : Fmt := ⟨2, 1, 1, 3, 1, false⟩

def Fmt.width (f : Fmt) : Nat := 1 + f.eb + f.mb
def Fmt.signBit (f : Fmt) (neg : Bool) : Nat := if neg then 2 ^ (f.eb + f.mb) else 0
/-- Exponent of the least significant bit of a subnormal. -/
def Fmt.emin (f : Fmt) : Int := 1 - (f.bias : Int) - f.mb

def Fmt.infBits (f : Fmt) (neg : Bool) : Nat := f.signBit neg + (2 ^ f.eb - 1) * 2 ^ f.mb

/-- The canonical NaN, with sign 0 (spec/05 R64, R65). -/
def Fmt.nanBits (f : Fmt) : Nat :=
  if f.ieee then (2 ^ f.eb - 1) * 2 ^ f.mb + 2 ^ (f.mb - 1) else 2 ^ (f.eb + f.mb) - 1

def Fmt.maxBits (f : Fmt) (neg : Bool) : Nat :=
  f.signBit neg + (f.maxE + f.mb + f.bias) * 2 ^ f.mb + (f.maxM - 2 ^ f.mb)

/-- What a code means. -/
def Fmt.decode (f : Fmt) (bits : Nat) : FVal :=
  let neg := bitsOf bits (f.eb + f.mb) 1 == 1
  let e := bitsOf bits f.mb f.eb
  let m := bitsOf bits 0 f.mb
  if f.ieee && e == 2 ^ f.eb - 1 then
    if m = 0 then .inf neg else .nan (m < 2 ^ (f.mb - 1))
  else if f == e4m3 && bitsOf bits 0 7 == 127 then .nan false
  else if e = 0 then .num ⟨neg, m, f.emin⟩
  else .num ⟨neg, m + 2 ^ f.mb, f.emin + (e - 1 : Nat)⟩

/-- Formats 0 to 4 of R62. -/
def fmtOf (code : Nat) : Fmt :=
  match code with
  | 0 => fp32
  | 1 => bf16
  | 2 => fp16
  | 3 => e4m3
  | _ => e5m2

/-! ## Rounding (spec/05 R79 to R85) -/

/-- A rounding mode: 0 RNE, 1 RZ, 2 RD, 3 RU, 4 EF, which rounds as RNE; 5, of the Sorghum cores alone, ties away. -/
abbrev RMode := Nat

/-- Whether a value with integer part q and remainder r of 2^k moves away from zero. -/
def roundsAway (mode : RMode) (neg : Bool) (q r k : Nat) : Bool :=
  match mode with
  | 1 => false
  | 2 => neg && r != 0
  | 3 => !neg && r != 0
  | 5 => decide (2 * r ≥ 2 ^ k)
  | _ => decide (2 * r > 2 ^ k) || (2 * r == 2 ^ k && q % 2 == 1)

/-- |v| = m · 2^sh rounded to an integer, and whether that is inexact. -/
def roundNat (mode : RMode) (neg : Bool) (m : Nat) (sh : Int) : Nat × Bool :=
  if 0 ≤ sh then (shiftUp m sh, false)
  else
    let k := (-sh).toNat
    let q := m / pow2 k
    let r := m % pow2 k
    (if roundsAway mode neg q r k then q + 1 else q, r != 0)

/-- Compare |d| with n · 2^e. -/
def Dy.magCmp (d : Dy) (n : Nat) (e : Int) : Ordering :=
  let k := min d.e e
  compare (shiftUp d.m (d.e - k)) (shiftUp n (e - k))

def atLeast (o : Ordering) : Bool := o != .lt
def above (o : Ordering) : Bool := o == .gt

/-- The overflow thresholds of R81. -/
def Fmt.overflows (f : Fmt) (mode : RMode) (d : Dy) : Bool :=
  let full := atLeast (d.magCmp (f.maxM + 1) f.maxE)
  let past := above (d.magCmp f.maxM f.maxE)
  match mode with
  | 1 => full
  | 2 => if d.neg then past else full
  | 3 => if d.neg then full else past
  | _ => atLeast (d.magCmp (2 * f.maxM + 1) (f.maxE - 1 : Int))

/-- The result of an overflow without saturation (R81): infinity, or NaN for E4M3, in the directions the mode rounds
away from zero, else the largest value. -/
def Fmt.overflowBits (f : Fmt) (mode : RMode) (neg : Bool) : Nat :=
  let big := if f.ieee then f.infBits neg else f.nanBits
  match mode with
  | 1 => f.maxBits neg
  | 2 => if neg then big else f.maxBits neg
  | 3 => if neg then f.maxBits neg else big
  | _ => big

/-- Round a finite value once to a format: the code and the flags INX, UNF, OVF, SAT. -/
def Fmt.round (f : Fmt) (mode : RMode) (sat : Bool) (d : Dy) : Nat × Word :=
  if d.m = 0 then (f.signBit d.neg, 0)
  else if f.overflows mode d then
    if sat then (f.maxBits d.neg, flagSAT ||| flagINX) else (f.overflowBits mode d.neg, flagOVF ||| flagINX)
  else
    let q := max (d.top - f.mb) f.emin
    let (n, inexact) := roundNat mode d.neg d.m (d.e - q)
    let free := roundNat mode d.neg d.m (d.e - (d.top - f.mb))
    let tiny := (Dy.mk d.neg free.1 (d.top - f.mb)).magCmp 1 (f.emin + f.mb) == .lt
    let bits := if n < 2 ^ f.mb then n else (q - f.emin).toNat * 2 ^ f.mb + n
    (f.signBit d.neg + bits, flagIf inexact flagINX ||| flagIf (tiny && inexact) flagUNF)

/-- A result that is exactly infinite because of an operand is that infinity, whatever saturation holds (R179). -/
def Fmt.finish (f : Fmt) (mode : RMode) (sat : Bool) : FVal → Nat × Word
  | .nan _ => (f.nanBits, 0)
  | .inf neg => (f.infBits neg, 0)
  | .num d => f.round mode sat d

/-! ## Arithmetic (spec/11 R179) -/

/-- A sum; mode 2 (RD) gives −0 for an exact zero sum of opposite signs. -/
def fAdd (mode : RMode) (a b : FVal) : FVal × Word :=
  let inv := flagIf (a.isSnan || b.isSnan) flagINV
  match a, b with
  | .nan _, _ => (.nan false, inv)
  | _, .nan _ => (.nan false, inv)
  | .inf x, .inf y => if x == y then (.inf x, 0) else (.nan false, flagINV)
  | .inf x, _ => (.inf x, 0)
  | _, .inf y => (.inf y, 0)
  | .num x, .num y =>
    let r := x.add y
    if r.m = 0 then (.num ⟨if x.neg == y.neg then x.neg else mode == 2, 0, 0⟩, 0) else (.num r, 0)

def fMul (a b : FVal) : FVal × Word :=
  let inv := flagIf (a.isSnan || b.isSnan) flagINV
  match a, b with
  | .nan _, _ => (.nan false, inv)
  | _, .nan _ => (.nan false, inv)
  | .inf x, .inf y => (.inf (x != y), 0)
  | .inf x, .num y => if y.m = 0 then (.nan false, flagINV) else (.inf (x != y.neg), 0)
  | .num x, .inf y => if x.m = 0 then (.nan false, flagINV) else (.inf (x.neg != y), 0)
  | .num x, .num y => (.num (x.mul y), 0)

def fNeg : FVal → FVal
  | .nan s => .nan s
  | .inf n => .inf (!n)
  | .num d => .num { d with neg := !d.neg }

/-- a · b + c, exact. -/
def fMulAdd (mode : RMode) (a b c : FVal) : FVal × Word :=
  let (p, f) := fMul a b
  let (r, g) := fAdd mode p c
  (r, f ||| g)

/-- Flush a subnormal input under FTZ (R84). -/
def ftzIn (f : Fmt) (ftz : Bool) (bits : Nat) : Nat :=
  if ftz && bitsOf bits f.mb f.eb == 0 then f.signBit (bitsOf bits (f.eb + f.mb) 1 == 1) else bits

/-- Flush a subnormal result under FTZ, setting UNF and INX. -/
def ftzOut (f : Fmt) (ftz : Bool) (r : Nat × Word) : Nat × Word :=
  if ftz && bitsOf r.1 f.mb f.eb == 0 && bitsOf r.1 0 f.mb != 0 then
    (f.signBit (bitsOf r.1 (f.eb + f.mb) 1 == 1), r.2 ||| flagUNF ||| flagINX)
  else r

/-- How the rounding of one instruction goes. -/
structure RCtl where
  mode : RMode := 0
  sat  : Bool := false
  ftz  : Bool := false
  deriving DecidableEq, Repr

def Fmt.opAdd (f : Fmt) (c : RCtl) (a b : Nat) : Nat × Word :=
  let (r, g) := fAdd c.mode (f.decode (ftzIn f c.ftz a)) (f.decode (ftzIn f c.ftz b))
  let (x, h) := ftzOut f c.ftz (f.finish c.mode c.sat r)
  (x, g ||| h)

def Fmt.opSub (f : Fmt) (c : RCtl) (a b : Nat) : Nat × Word :=
  let (r, g) := fAdd c.mode (f.decode (ftzIn f c.ftz a)) (fNeg (f.decode (ftzIn f c.ftz b)))
  let (x, h) := ftzOut f c.ftz (f.finish c.mode c.sat r)
  (x, g ||| h)

def Fmt.opMul (f : Fmt) (c : RCtl) (a b : Nat) : Nat × Word :=
  let (r, g) := fMul (f.decode (ftzIn f c.ftz a)) (f.decode (ftzIn f c.ftz b))
  let (x, h) := ftzOut f c.ftz (f.finish c.mode c.sat r)
  (x, g ||| h)

def Fmt.opFma (f : Fmt) (c : RCtl) (a b d : Nat) : Nat × Word :=
  let (r, g) := fMulAdd c.mode (f.decode (ftzIn f c.ftz a)) (f.decode (ftzIn f c.ftz b)) (f.decode (ftzIn f c.ftz d))
  let (x, h) := ftzOut f c.ftz (f.finish c.mode c.sat r)
  (x, g ||| h)

/-- round_fp32 of the pseudocode: RNE, no saturation, no FTZ, no flags. -/
def add32 (a b : Nat) : Nat := (fp32.opAdd {} a b).1
def sub32 (a b : Nat) : Nat := (fp32.opSub {} a b).1
def mul32 (a b : Nat) : Nat := (fp32.opMul {} a b).1

/-- FMIN and FMAX (spec/11 R181, spec/07 R125): one operand bit for bit. −0 lies below +0. -/
def Fmt.opMinMax (f : Fmt) (isMax : Bool) (a b : Nat) : Nat × Word :=
  let x := f.decode a
  let y := f.decode b
  let inv := flagIf (x.isSnan || y.isSnan) flagINV
  let key := fun (bits : Nat) => -- ascending with the value, −0 below +0
    let mag : Int := bitsOf bits 0 (f.eb + f.mb)
    if bitsOf bits (f.eb + f.mb) 1 == 1 then -mag - 1 else mag
  if x.isNan && y.isNan then (f.nanBits, inv)
  else if x.isNan then (b, inv)
  else if y.isNan then (a, inv)
  else if isMax then (if key a < key b then b else a, inv)
  else (if key b < key a then b else a, inv)

/-- Order of two numbers; none when unordered. -/
def fCmp (a b : FVal) : Option Ordering :=
  match a, b with
  | .nan _, _ | _, .nan _ => none
  | .inf x, .inf y => some (if x == y then .eq else if x then .lt else .gt)
  | .inf x, .num _ => some (if x then .lt else .gt)
  | .num _, .inf y => some (if y then .gt else .lt)
  | .num x, .num y => some (x.cmp y)

/-- The class mask of spec/11 R183. -/
def Fmt.classBits (f : Fmt) (bits : Nat) : Nat :=
  match f.decode bits with
  | .nan true => 2 ^ 8
  | .nan false => 2 ^ 9
  | .inf true => 2 ^ 0
  | .inf false => 2 ^ 7
  | .num d =>
    let sub := bitsOf bits f.mb f.eb == 0
    if d.m = 0 then (if d.neg then 2 ^ 3 else 2 ^ 4)
    else if d.neg then (if sub then 2 ^ 2 else 2 ^ 1)
    else if sub then 2 ^ 5 else 2 ^ 6

/-- FRND (spec/11 R184): an integral value of the same format, never INX. -/
def Fmt.opRnd (f : Fmt) (c : RCtl) (a : Nat) : Nat × Word :=
  match f.decode (ftzIn f c.ftz a) with
  | .nan s => (f.nanBits, flagIf s flagINV)
  | .inf n => (f.infBits n, 0)
  | .num d =>
    let n := (roundNat c.mode d.neg d.m d.e).1
    ((f.round 0 false ⟨d.neg, n, 0⟩).1, 0)

/-! ## Conversions (spec/05 R74, R82; spec/11 R188) -/

/-- Width and signedness of the integer formats 9 to 12. -/
def intFormat (code : Nat) : Nat × Bool :=
  match code with
  | 9 => (8, true)
  | 10 => (8, false)
  | 11 => (4, true)
  | _ => (32, true)

def intMin (fmt : Nat × Bool) : Int := if fmt.2 then -(2 ^ (fmt.1 - 1) : Nat) else 0
def intMax (fmt : Nat × Bool) : Int := if fmt.2 then (2 ^ (fmt.1 - 1) : Nat) - 1 else (2 ^ fmt.1 : Nat) - 1
def intRead (fmt : Nat × Bool) (bits : Nat) : Int := if fmt.2 then signedOf fmt.1 bits else (bits % 2 ^ fmt.1 : Nat)

def toIntFormat (fmt : Nat × Bool) (mode : RMode) : FVal → Nat × Word
  | .nan _ => (0, flagINV)
  | .inf neg => (wrapNat fmt.1 (if neg then intMin fmt else intMax fmt), flagSAT)
  | .num d =>
    let (n, inexact) := roundNat mode d.neg d.m d.e
    let x : Int := if d.neg then -n else n
    if x > intMax fmt then (wrapNat fmt.1 (intMax fmt), flagSAT)
    else if x < intMin fmt then (wrapNat fmt.1 (intMin fmt), flagSAT)
    else (wrapNat fmt.1 x, flagIf inexact flagINX)

/-- A floating-point value to a floating-point format, with the special inputs of R82. -/
def Fmt.narrow (f : Fmt) (mode : RMode) (sat : Bool) : FVal → Nat × Word
  | .nan s => (f.nanBits, flagIf s flagINV)
  | .inf neg =>
    if sat then (f.maxBits neg, flagSAT)
    else if f.ieee then (f.infBits neg, 0) else (f.nanBits, flagOVF)
  | .num d => f.round mode sat d

def isIntCode (code : Nat) : Bool := 9 ≤ code && code ≤ 12

/-- One element from format src to format dst (codes 0 to 4 and 9 to 12). -/
def convert (src dst : Nat) (c : RCtl) (bits : Nat) : Nat × Word :=
  if isIntCode src then
    let x := intRead (intFormat src) bits
    if isIntCode dst then
      let fmt := intFormat dst
      if intMin fmt ≤ x && x ≤ intMax fmt then (wrapNat fmt.1 x, 0)
      else if c.sat then (wrapNat fmt.1 (if x < 0 then intMin fmt else intMax fmt), flagSAT)
      else (wrapNat fmt.1 x, 0)
    else (fmtOf dst).round c.mode c.sat (Dy.ofInt x 0)
  else
    let v := (fmtOf src).decode bits
    if isIntCode dst then toIntFormat (intFormat dst) c.mode v else (fmtOf dst).narrow c.mode c.sat v

/-- Bits of an element of a format. -/
def formatBits (code : Nat) : Nat :=
  if isIntCode code then (intFormat code).1 else (fmtOf code).width

/-- Any of the formats 0 to 4 widened to FP32: exact but for a signalling NaN (R82). -/
def widen32 (code bits : Nat) : Nat × Word := (fp32.narrow 0 false ((fmtOf code).decode bits))

end Sys2Proof.Machine
end

