-- ==== Sys2Proof/Machine/Operands.lean ====
section
/-!
DEFINITION. Operands: which registers each instruction names, with the alignment and VBOUND checks that raise ILLREG
(spec/09 R141, R142) and the scoreboard (spec/03 R50, spec/17 R279); operand b of the LR format and packed elements.
-/

namespace Sys2Proof.Machine

inductive Bank where
  | vec
  | uni
  deriving DecidableEq, Repr

/-- A run of registers that an instruction names: where it must start and whether it is written. -/
structure Opd where
  bank  : Bank
  first : Nat
  count : Nat
  align : Nat
  write : Bool
  deriving DecidableEq, Repr

def vr (r : BitVec 8) (count : Nat := 1) (align : Nat := 1) : Opd := ⟨.vec, r.toNat, count, align, false⟩
def vw (r : BitVec 8) (count : Nat := 1) (align : Nat := 1) : Opd := ⟨.vec, r.toNat, count, align, true⟩
def sr (r : BitVec 6) (count : Nat := 1) (align : Nat := 1) : Opd := ⟨.uni, r.toNat, count, align, false⟩
def sw (r : BitVec 6) (count : Nat := 1) (align : Nat := 1) : Opd := ⟨.uni, r.toNat, count, align, true⟩

/-- One register, or an even pair under W = 10. -/
def LR.n (f : LR) : Nat := if f.w = 2 then 2 else 1
def LR.su (f : LR) : BitVec 6 := f.vb.extractLsb' 0 6

def LR.dOpd (f : LR) : Opd := vw f.vd (LR.n f) (LR.n f)
def LR.aOpd (f : LR) : Opd := vr f.va (LR.n f) (LR.n f)
def LR.cOpd (f : LR) : Opd := vr f.vc (LR.n f) (LR.n f)
def LR.bOpd (f : LR) : List Opd :=
  if f.m7 then [sr (LR.su f) (LR.n f) (LR.n f)] else if f.m6 then [] else [vr f.vb (LR.n f) (LR.n f)]

/-- Registers of an access of a size (spec/15 R249). -/
def sizeRegs (size : BitVec 3) : Nat := if size = 4 then 4 else if size = 3 then 2 else 1

/-- Registers, and their alignment, of an atomic's operand (spec/15 R259): code and size. -/
def atomRegs (oc : BitVec 7) (size : BitVec 3) : Nat :=
  if oc = 0x18 || oc = 0x19 then 1
  else if oc = 0x09 then (if size = 3 then 4 else 2) else if size = 3 then 2 else 1

def LM.oc (f : LM) : BitVec 7 := f.off.extractLsb' 12 7
def LM.atomScratch (f : LM) : Bool := f.off.getLsbD 19

/-- Registers of a CVT group (spec/11 R187). -/
def cvtRun (w : BitVec 2) (fmt : BitVec 4) : Nat := if cvtCount w * formatWidth fmt = 64 then 2 else 1

/-- Registers of the image of MROUND and MLOADA (spec/17 R293). -/
def imageRegs (f : UE) : Nat :=
  let rows := 4 * ((f.w1.extractLsb' 6 2).toNat + 1)
  (rows * shapeCols (f.w1.extractLsb' 1 2) * formatWidth (f.w1.extractLsb' 28 4) + 1023) / 1024

/-- Registers named by one code of WAITC (spec/13 R230). -/
def waitcOpd (c : BitVec 8) : List Opd :=
  let n : BitVec 6 := (c.extractLsb' 0 5).zeroExtend 6
  let k := (c.extractLsb' 5 3).toNat
  if k = 0 then [] else if k ≥ 4 then [sr n 2] else [sr n]

/-- The registers that an instruction's words name. -/
def Instr.operands : Instr → List Opd
  | .iadd f | .isub f | .imul f | .imin f | .imax f | .shl f | .shr f | .sar f | .bfe f | .sel f
  | .fadd f | .fsub f | .fmul f | .fmin f | .fmax f | .shfl f => [LR.dOpd f, LR.aOpd f] ++ LR.bOpd f
  | .imad f | .blut f | .bfi f | .idot4 f | .ffma f => [LR.dOpd f, LR.aOpd f, LR.cOpd f] ++ LR.bOpd f
  | .iabs f | .popc f | .clz f | .brev f | .fclass f | .frnd f | .frcp f | .frsq f | .fsqrt f | .fex2 f | .flg2 f
  | .fsin f | .fcos f | .ftanh f | .fsgm f | .matchLanes f | .redux f | .scan f | .bcast f => [LR.dOpd f, LR.aOpd f]
  | .icmp f | .fcmp f => LR.aOpd f :: LR.bOpd f
  | .lea f => [LR.dOpd f, vr f.va] ++ LR.bOpd f
  | .clmul f => [vw f.vd, vr f.va] ++ LR.bOpd f
  | .iabsLu f | .popcLu f | .clzLu f | .brevLu f | .frcpLu f | .frsqLu f | .fsqrtLu f | .fex2Lu f | .flg2Lu f
  | .fsinLu f | .fcosLu f | .ftanhLu f | .fsgmLu f | .mov f => [vw f.vd, vr f.va]
  | .movUniform f => [vw f.vd, sr (f.va.extractLsb' 0 6)]
  | .movB64 f => [vw f.vd 2 2, vr f.va 2 2]
  | .movImm f => [vw f.vd]
  | .s2v f => [vw f.vd]
  | .cvt f =>
    let s := cvtRun f.w (f.s.extractLsb' 0 4)
    let d := cvtRun f.w (f.s.extractLsb' 4 4)
    [vw f.vd d d, vr f.va s s]
  | .cvtn f => let n := if f.w = 3 then 2 else 1; [vw f.vd, vr f.va n n, vr f.vb n n]
  | .blkpack f => [vw f.vd, vr f.va] ++ (if f.s.extractLsb' 0 4 = 5 then LR.bOpd f else [])
  | .blkunpk f => [vw f.vd, vr f.va] ++ (if f.s.extractLsb' 0 4 = 5 then [] else [vr f.vb])
  | .vote f => if f.s = 3 then [vw f.vd] else []
  | .rdlane f => [sw (f.vd.extractLsb' 0 6) (LR.n f) (LR.n f), LR.aOpd f] ++ LR.bOpd f
  | .plop _ => []
  | .pmovGet f => [vw f.vd]
  | .pmovSet f => [vr f.va]
  | .rng f => [LR.dOpd f]
  | .ld f => let n := sizeRegs f.size; [vw f.vd n n, vr f.va 2 2]
  | .st f => let n := sizeRegs f.size; [vr f.vd n n, vr f.va 2 2]
  | .lds f => let n := sizeRegs f.size; [vw f.vd n n, vr f.va]
  | .sts f => let n := sizeRegs f.size; [vr f.vd n n, vr f.va]
  | .atom f =>
    let n := atomRegs (LM.oc f) f.size
    [vw f.vd n n, if LM.atomScratch f then vr f.va else vr f.va 2 2]
  | .red f =>
    let n := atomRegs (LM.oc f) f.size
    [vr f.vd n n, if LM.atomScratch f then vr f.va else vr f.va 2 2]
  | .pref f => [vr f.va 2 2]
  | .tex f =>
    [vw f.vd 4, vr f.va (if f.s.extractLsb' 0 2 = 0 then 2 else 3), sr (LR.su f) 4 2] ++
      (if f.s.extractLsb' 2 2 = 0 then [] else [vr f.vc])
  | .tfetch f => [vw f.vd 4, vr f.va (if f.s = 0 then 2 else 3), sr (LR.su f) 2 2, vr f.vc]
  | .rayq f => [vw f.vd, vr f.va 8, sr (LR.su f) 2 2]
  | .raycont f => [vr f.va]
  | .rayget f => [vw f.vd 5, vr f.va]
  | .ncall f => [vw f.vd ((f.s.extractLsb' 0 4).toNat + 1), vr f.va ((f.m.extractLsb' 0 5).toNat + 1), vr f.vc]
  | .rgdisp f => [vw f.vd, vr f.va, sr (LR.su f) 2 2, vr f.vc (2 ^ f.s.toNat)]
  | .jtabx f => [vr f.mid]
  | .retx f => [vr f.va 2 2]
  | .sadd f | .ssub f | .smul f | .smin f | .smax f | .sshl f | .sshr f | .ssar f | .sbfe f | .sfadd f | .sfmul f
  | .scvt f | .ssel f | .smad f | .sblut f | .sbfi f | .sffma f => [sw f.d, sr f.a, sr f.b]
  | .saddImm f | .ssubImm f | .smulImm f | .sminImm f | .smaxImm f | .sshlImm f | .sshrImm f | .ssarImm f
  | .sbfeImm f | .sfaddImm f | .sfmulImm f | .scvtImm f | .sselImm f | .smadImm f | .sblutImm f | .sbfiImm f
  | .sffmaImm f => [sw f.d, sr f.a]
  | .spopc f | .sclz f | .smov f => [sw f.d, sr f.b]
  | .spopcImm f | .sclzImm f | .smovImm f => [sw f.d]
  | .scmp f => [sr f.a, sr f.b]
  | .scmpImm f => [sr f.a]
  | .slea f => [sw f.d 2 2, sr f.a 2 2, sr f.b]
  | .sleaImm f => [sw f.d 2 2, sr f.a 2 2]
  | .sld f =>
    let n := sizeRegs (f.w1.extractLsb' 29 3)
    [sw f.d n n, if f.sub.extractLsb' 0 2 = 2 then sr f.a else sr f.a 2 2]
  | .sst f =>
    let n := sizeRegs (f.w1.extractLsb' 29 3)
    [sr f.d n n, if f.sub.extractLsb' 0 2 = 2 then sr f.a else sr f.a 2 2]
  | .satom f =>
    let oc : BitVec 7 := f.w1.extractLsb' 12 7
    let size : BitVec 3 := f.w1.extractLsb' 29 3
    let n := if oc = 0x18 || oc = 0x19 then 1 else if size = 3 then 2 else 1
    [sw f.d n n, if f.w1.getLsbD 19 then sr f.a else sr f.a 2 2] ++ (if oc = 0x09 then [sr f.b n n] else [])
  | .jtab f => [sr f.a]
  | .dbnz f => [sw f.d]
  | .waitc f =>
    let cs := waitcCodes f.w1
    sr f.a :: (if cs.any waitcKindMem then [sr f.b] else []) ++ cs.flatMap waitcOpd
  | .bari f | .barw f => [sr f.a, sr f.b]
  | .bariImm f | .barwImm f => [sr f.a]
  | .bara f => [sw f.d, sr f.b]
  | .baraImm f => [sw f.d]
  | .bars f | .bard f | .setpart f | .setbound f => [sr f.b]
  | .srd f => [sw f.d]
  | .swr f => [sr f.a]
  | .rngseed f => [sr f.a, sr f.b]
  | .mloop f =>
    [if f.sub.getLsbD 0 then sr f.a else sr f.a 2 2, if f.sub.getLsbD 1 then sr f.b else sr f.b 2 2] ++
      (if f.w1.getLsbD 6 then [sr f.d] else [])
  | .mxform f =>
    (if f.sub.getLsbD 0 then sr f.a else sr f.a 2 2) :: (if f.w1.extractLsb' 22 2 = 1 then [sr f.b] else [])
  | .manchor f => if f.sub.getLsbD 0 then [sr f.a] else []
  | .mround f => [vw (f.w1.extractLsb' 8 8) (imageRegs f)]
  | .mloada f => [vr (f.w1.extractLsb' 8 8) (imageRegs f)]
  | .mbatch f | .mstat f | .prsv f | .pget f | .twtag f => [sw f.d]
  | .mesc f => (if f.sub.getLsbD 0 then [sr f.a] else []) ++ (if f.sub.getLsbD 1 then [sr f.b] else [])
  | .cpy f | .cpyg f | .cpyx f => [sw f.d, sr f.a 4 4, sr f.b 2 2]
  | .tspawn f => [sw f.d, sr f.a 2 2]
  | .tnotify f | .pput f | .prel f | .twfree f | .wpref f | .wunpin f => [sr f.a]
  | .twsend f => [sw f.d, sr f.a, sr f.b 2]
  | .twrecv f | .mbget f => [sw f.d, sr f.a, sr f.b]
  | .twrecvSt f | .mbstat f | .wpin f => [sw f.d, sr f.a]
  | .mbput f => [sw f.d, sr f.a 2 2, sr f.b 2 2]
  | .wver f => [sw f.d, sr f.a, sr f.b 2 2]
  | _ => []

/-- A run starts where it must and ends below the bound: VBOUND, or s63. -/
def Opd.ok (o : Opd) (vbound : Nat) : Bool :=
  o.first % o.align == 0 &&
    (match o.bank with
     | .vec => decide (o.first + o.count ≤ vbound)
     | .uni => decide (o.first + o.count ≤ 64))

def View.operandsOk (v : View) (i : Instr) : Bool := (Instr.operands i).all (·.ok v.warp.vbound)

/-- Word 0 of an instruction: TRAPINFO of ILLOP, ILLREG and PRIV (spec/09 R150). -/
def Instr.word0 (i : Instr) : Word := (encode i).1

/-- The shape of every meaning: ILLREG comes first, whatever the guard (spec/09 R151 step 5). -/
def State.run (s : State) (i : Instr) (body : View → Except Trap State) : Host.Outcome State Fault Refusal :=
  s.issue fun v => if v.operandsOk i then body v else .error ⟨fILLREG, Instr.word0 i, 0, 0⟩

/-- The split of the view has retired its instruction: RETIRED of its lowest slice has risen. -/
def State.hasRetired (s : State) (v : View) : Bool :=
  ((s.team? v.team.uid).bind (·.warp? v.warp.num)).any fun w => (w.sl v.sel.slice).retired != v.low.retired

/-- The instruction ends a chunk of the record when it retires (spec/29 R413). -/
def State.chunkAfter (s : State) (v : View) : State := if s.hasRetired v then s.endChunk v.team.uid else s

/-- An instruction of a kind that ends a chunk. -/
def State.runSync (s : State) (i : Instr) (body : View → Except Trap State) : Host.Outcome State Fault Refusal :=
  s.run i fun v => (body v).map fun s => s.chunkAfter v

/-! ## The scoreboard (spec/03 R50, spec/17 R279) -/

def overlaps (a n b m : Nat) : Bool := decide (a < b + m) && decide (b < a + n)

/-- The hold keeps the operand from being used. -/
def Hold.blocks (h : Hold) (o : Opd) : Bool :=
  let regs := match o.bank with
    | .vec => h.vregs
    | .uni => h.sregs
  regs.any (fun r => overlaps o.first o.count r 1) && (o.write || !h.src)

/-- The registers that an EXIT of a pixel team exports: v0 to v3, and v4 when its draw has ZOUT (spec/27 R382). -/
def State.exitReads (s : State) (v : View) : Instr → List Opd
  | .exit _ =>
    match v.team.kind with
    | .pixel draw _ _ _ => [⟨.vec, 0, if s.draws.any fun d => d.id == draw && d.zout then 5 else 4, 1, false⟩]
    | _ => []
  | _ => []

/-- Stall reason of the first hold of the warp that blocks one of these operands. -/
def Warp.blocked? (w : Warp) (os : List Opd) : Option Nat :=
  (w.holds.filter fun h => os.any h.blocks).map (·.reason) |>.min?

def Warp.addHold (w : Warp) (h : Hold) : Warp := { w with holds := w.holds ++ [h] }
def Warp.dropHold (w : Warp) (id : Nat) : Warp := { w with holds := w.holds.filter (·.id != id) }

/-! ## Reading operands (spec/11 R162) -/

/-- The lanes that participate (spec/11 R161). -/
def View.part (v : View) (g : BitVec 3) (gn : BitVec 1) : List Nat := v.lanes.filter (v.pGuard g gn)

/-- A vector register, or a uniform one through the copy of the lane's slice. -/
def View.vec (v : View) (r : BitVec 8) (l : Nat) : Word := v.warp.v r.toNat l
def View.vec64 (v : View) (r : BitVec 8) (l : Nat) : BitVec 64 := v.warp.v (r.toNat + 1) l ++ v.warp.v r.toNat l
def View.sOf (v : View) (n l : Nat) : Word := (v.warp.sl (l / 4)).s n

/-- The 8-bit immediate of operand b. -/
def LR.imm (f : LR) : Int := f.vb.toInt

/-- Operand b as 32 bits, its low register under W = 10. -/
def View.b32 (v : View) (f : LR) (l : Nat) : Word :=
  if f.m7 then v.sOf (LR.su f).toNat l
  else if f.m6 then BitVec.ofInt 32 (LR.imm f) else v.vec f.vb l

def View.b64 (v : View) (f : LR) (l : Nat) : BitVec 64 :=
  if f.m7 then v.sOf ((LR.su f).toNat + 1) l ++ v.sOf (LR.su f).toNat l
  else if f.m6 then BitVec.ofInt 64 (LR.imm f) else v.vec64 f.vb l

/-- Element width and count of W (spec/09 R141). -/
def elemBits (w : BitVec 2) : Nat := match w.toNat with | 0 => 32 | 1 => 16 | 2 => 64 | _ => 8
def elemCount (w : BitVec 2) : Nat := match w.toNat with | 1 => 2 | 3 => 4 | _ => 1

/-- Element i of a register operand. -/
def View.elem (v : View) (w : BitVec 2) (r : BitVec 8) (l i : Nat) : Nat :=
  if w = 2 then (v.vec64 r l).toNat else bitsOf (v.vec r l).toNat (elemBits w * i) (elemBits w)

/-- Element i of operand b: an immediate is sign-extended to every element. -/
def View.elemB (v : View) (f : LR) (l i : Nat) : Nat :=
  let n := elemBits f.w
  if f.m6 && !f.m7 then wrapNat n (LR.imm f)
  else if f.w = 2 then (v.b64 f l).toNat else bitsOf (v.b32 f l).toNat (n * i) n

/-- Pack elements of n bits, the first lowest. -/
def packElems (n : Nat) : List Nat → Nat
  | [] => 0
  | x :: xs => x % 2 ^ n + 2 ^ n * packElems n xs

/-- The writes of a result of one register, or of a pair under W = 10. -/
def writesOf (w : BitVec 2) (r : BitVec 8) (x : Nat) : List (Nat × Word) :=
  if w = 2 then [(r.toNat, BitVec.ofNat 32 x), (r.toNat + 1, BitVec.ofNat 32 (x / 2 ^ 32))]
  else [(r.toNat, BitVec.ofNat 32 x)]

end Sys2Proof.Machine
end

