-- ==== Sys2Proof/Machine/Flags.lean ====
section
/-!
DEFINITION. Flags, rounding control and numeric traps (spec/05 R79, R81, R86 to R88), and the shape that the lane
instructions share: each participating lane gives its writes and flags, and all of them take effect together or none
(spec/11 R161, R165).
-/

namespace Sys2Proof.Machine

/-! ## FCTL (spec/05 R87) -/

def fctlRM (fctl : Word) : RMode := (fctl.extractLsb' 0 2).toNat
def fctlFTZ (fctl : Word) : Bool := fctl.getLsbD 2
def fctlSATDEF (fctl : Word) : Bool := fctl.getLsbD 3
def fctlTRAPNAN (fctl : Word) : Bool := fctl.getLsbD 4
def fctlTRAPINV (fctl : Word) : Bool := fctl.getLsbD 5
def fctlTRAPOVF (fctl : Word) : Bool := fctl.getLsbD 6
def fctlESCTRAP (fctl : Word) : Bool := fctl.getLsbD 7

/-- The mode that a RND field selects (spec/11 R163); EF rounds as mode 4. -/
def rndMode (fctl : Word) (rnd : BitVec 3) : RMode :=
  if rnd = 0 then fctlRM fctl else rnd.toNat - 1

/-- Rounding control of an instruction with a RND field and a SAT bit; `vec32` says that FTZ applies. -/
def rctl (fctl : Word) (rnd : BitVec 3) (sat vec32 : Bool) : RCtl :=
  ⟨rndMode fctl rnd, sat || fctlSATDEF fctl, vec32 && fctlFTZ fctl⟩

/-- The numeric trap that flags raise under FCTL (spec/05 R88): ESCX before the causes of NANTRAP. -/
def trapOf (fctl flags : Word) : Option Trap :=
  if fctlESCTRAP fctl && flags &&& flagESCX != 0 then some ⟨fESCX, 0, 0, flags⟩
  else if fctlTRAPINV fctl && flags &&& flagINV != 0 then some ⟨fNANTRAP, 1, 0, flags⟩
  else if fctlTRAPOVF fctl && flags &&& flagOVF != 0 then some ⟨fNANTRAP, 2, 0, flags⟩
  else none

/-! ## Lane results -/

/-- What one lane writes: vector registers, predicates and flags. -/
structure LaneOut where
  vs    : List (Nat × Word) := []
  ps    : List (Nat × Bool) := []
  flags : Word := 0
  deriving DecidableEq, Repr

def Warp.writeLane (w : Warp) (l : Nat) (o : LaneOut) : Warp :=
  let w := o.vs.foldl (fun w x => w.setV x.1 l x.2) w
  o.ps.foldl (fun w x => w.setP x.1 l x.2) w

def Warp.writeLanes (w : Warp) (outs : List (Nat × LaneOut)) : Warp :=
  outs.foldl (fun w x => w.writeLane x.1 x.2) w

def outFlags (outs : List (Nat × LaneOut)) : Word := outs.foldl (fun a x => a ||| x.2.flags) 0

/-- Commit the lanes' results and retire, or take the trap that their flags raise. -/
def State.commitLanes (s : State) (v : View) (len : Nat) (outs : List (Nat × LaneOut)) : Except Trap State :=
  let flags := outFlags outs
  match trapOf v.team.fctl flags with
  | some t => .error t
  | none => .ok (s.retire v (v.warp.writeLanes outs) flags len)

/-- A lane instruction with a guard whose lanes work alone. -/
def State.laneOp (s : State) (i : Instr) (g : BitVec 3) (gn : BitVec 1) (len : Nat) (f : View → Nat → LaneOut) :
    Host.Outcome State Fault Refusal :=
  s.run i fun v => s.commitLanes v len ((v.part g gn).map fun l => (l, f v l))

/-- An LR instruction of this kind. -/
def State.lrOp (s : State) (i : Instr) (f : LR) (g : View → Nat → LaneOut) : Host.Outcome State Fault Refusal :=
  s.laneOp i f.g f.gn 8 g

/-- An LU instruction: unguarded and one word long. -/
def State.luOp (s : State) (i : Instr) (g : View → Nat → LaneOut) : Host.Outcome State Fault Refusal :=
  s.laneOp i 7 0 4 g

/-! ## Uniform results (spec/13 R210) -/

/-- What a uniform instruction writes, in every slice of the split: registers, predicates and flags. -/
structure UOut where
  ss    : List (Nat × Word) := []
  qs    : List (Nat × Bool) := []
  flags : Word := 0
  deriving DecidableEq, Repr

def Warp.writeUni (w : Warp) (mask : BitVec 8) (o : UOut) : Warp :=
  let w := o.ss.foldl (fun w x => w.setS mask x.1 x.2) w
  o.qs.foldl (fun w x => w.setQ mask x.1 x.2) w

/-- Write a uniform result and retire, or take the trap that its flags raise. -/
def State.commitUni (s : State) (v : View) (len : Nat) (o : UOut) : Except Trap State :=
  match trapOf v.team.fctl o.flags with
  | some t => .error t
  | none => .ok (s.retire v (v.warp.writeUni v.split.mask o) o.flags len)

/-- A false guard changes nothing but the program counter and the retired count (spec/09 R140). -/
def State.skip (s : State) (v : View) (len : Nat) : State := s.retire v v.warp 0 len

/-- A guarded uniform instruction. -/
def State.uniOp (s : State) (i : Instr) (q : BitVec 3) (n : BitVec 1) (len : Nat) (g : View → Except Trap UOut) :
    Host.Outcome State Fault Refusal :=
  s.run i fun v => if v.qGuard q n then (g v).bind (s.commitUni v len) else .ok (s.skip v len)

/-- The LR instruction that an LU word stands for (spec/09 R133): W = 00, no modifier, always. -/
def LU.asLR (f : LU) : LR := ⟨f.vd, f.va, 7, 0, 0, 0, 0, 0, 0⟩

end Sys2Proof.Machine
end

