-- ==== Sys2Proof/Machine/Access.lean ====
section
/-!
DEFINITION. The checks that every access of lanes or of a split passes (spec/15 R248, R251), range locks (spec/07 R115
to R117, R119), and the atomic operations (spec/07 R120 to R125; spec/15 R259, R260).
-/

namespace Sys2Proof.Machine

/-! ## Range locks -/

/-- The lowest byte of the span on which an entry of the core refuses an access. -/
def State.lockConflict? (s : State) (core : Nat) (scratch : Bool) (lo n : Nat) (write : Bool) : Option Nat :=
  ((s.rlocks.filter fun r => r.core == core && r.scratch == scratch && !r.dead && (write || r.write) &&
      decide (lo < r.hi) && decide (r.lo < lo + n)).map fun r => max lo r.lo).min?

/-- Entries of an operation: the first conflict with a live entry of the core or with one another (R117). -/
def State.rangesConflict? (s : State) (rs : List RLock) : Option Nat :=
  let own := (rs.zip (List.range rs.length)).flatMap fun (a, i) => (rs.drop (i + 1)).filterMap fun b =>
    if a.scratch == b.scratch && (a.write || b.write) && decide (a.lo < b.hi) && decide (b.lo < a.hi) then
      some (max a.lo b.lo) else none
  let old := rs.filterMap fun r => s.lockConflict? r.core r.scratch r.lo (r.hi - r.lo) r.write
  (old ++ own).min?

/-- Entries of abandoned operations that R117 would refuse hold the operation back (R119). -/
def State.deadConflict (s : State) (rs : List RLock) : Bool :=
  rs.any fun r => s.rlocks.any fun d => d.dead && d.core == r.core && d.scratch == r.scratch && (d.write || r.write) &&
    decide (r.lo < d.hi) && decide (d.lo < r.hi)

/-- The 64 entries of the core's table have room. -/
def State.lockRoom (s : State) (core n : Nat) : Bool :=
  decide ((s.rlocks.filter (·.core == core)).length + n ≤ 64)

/-! ## Scratchpad ranges (spec/07 R96; spec/19 R316) -/

def Pipe.bytes (p : Pipe) : Nat := (p.slots.length * p.sbytes + 1023) / 1024 * 1024

/-- Bytes lo to hi − 1 lie in the union of the regions (base and length). -/
def covered (regions : List (Nat × Nat)) : Nat → Nat → Nat → Bool
  | 0, lo, hi => decide (hi ≤ lo)
  | fuel + 1, lo, hi =>
    decide (hi ≤ lo) ||
      match regions.find? fun r => decide (r.1 ≤ lo) && decide (lo < r.1 + r.2) with
      | some r => covered regions fuel (r.1 + r.2) hi
      | none => false

/-- The bytes lie in the team's allocation and the pipe regions of its gang. -/
def State.scrAllowed (s : State) (t : Team) (off : Int) (n : Nat) : Bool :=
  let regions := (t.scrBase, t.scrBytes) :: (((s.gang? t.gang).map (·.pipes)).getD []).map fun p => (p.base, p.bytes)
  decide (0 ≤ off) && covered regions (regions.length + 1) off.toNat (off.toNat + n)

/-! ## Checks (spec/15 R251) -/

/-- Where an access goes: a global address, or a scratchpad offset before its check. -/
inductive Place where
  | glob (va : Nat)
  | scr (off : Int)
  deriving DecidableEq, Repr

/-- A checked access: a physical key, or a key of the scratchpads. -/
structure Loc where
  scratch : Bool
  key     : Nat
  deriving DecidableEq, Repr

def Place.misaligned (p : Place) (n : Nat) : Bool :=
  match p with
  | .glob va => va % n != 0
  | .scr off => off % (n : Int) != 0

/-- Bits [31:0] of the address. -/
def Place.word : Place → Word
  | .glob va => BitVec.ofNat 32 va
  | .scr off => BitVec.ofInt 32 off

def Place.va : Place → Nat
  | .glob va => va
  | .scr _ => 0

/-- The home of a page, where the translation gives one: a device, the host or a peer. -/
def State.onDevice (s : State) (v : View) (va : Nat) : Bool :=
  match s.tlbFind? v.core v.ctx va with
  | some e => !Pte.h e.entry && Pte.mod e.entry == s.khmod.toNat
  | none =>
    match s.walk (s.ctxOf v.ctx).ptRoot va with
    | .page e _ => !Pte.h e && Pte.mod e == s.khmod.toNat
    | _ => true

/-- An access that reads poisoned bytes of its home (spec/29 R404). -/
def State.consumesPoison (s : State) (core : Nat) (l : Loc) (n : Nat) : Bool :=
  !l.scratch && !s.poison.isEmpty && (List.range n).any fun i =>
    Tab.get false s.poison (l.key + i) && (Tab.find? (s.l1Of core) (l.key + i)).isNone

/-- How an access is made: its size, whether it writes or reads, the scope of an atomic, the permission it needs. -/
structure Acc where
  bytes  : Nat
  write  : Bool
  reads  : Bool
  atomic : Option Nat := none
  lane   : Bool := true
  deriving DecidableEq, Repr

def Acc.kind (a : Acc) : Access := if a.write then .store else .load

/-- Translate the accesses in order; the first that does not hit decides. -/
def State.translateAll (s : State) (v : View) (a : Acc) :
    List (Nat × Place) → List (Nat × Loc) → (List (Nat × Loc) → Except Trap State) → Except Trap State
  | [], acc, k => k acc
  | (l, .scr off) :: ps, acc, k =>
    s.translateAll v a ps (acc ++ [(l, ⟨true, scrKey (clusterOfCore v.core) off.toNat⟩)]) k
  | (l, .glob va) :: ps, acc, k =>
    match s.xlate v.core v.ctx va a.kind with
    | .ok key => s.translateAll v a ps (acc ++ [(l, ⟨false, key⟩)]) k
    | .fault code info => .error ⟨code, info, if a.lane then l else 0, 0⟩
    | .miss => .ok (s.startWalk v va a.kind (if a.lane then l else 0))

/-- The scratchpad units that accesses of n bytes touch. -/
def scrUnits (locs : List (Nat × Loc)) (n : Nat) : List Nat :=
  bankUnits ((locs.filter (·.2.scratch)).map (·.2.key)) n

/-- The checks of R251, each over every access before the next: the first check that fails names its lowest lane. An
access that passes them waits for its scratchpad banks, and then occupies them (spec/07 R97). -/
def State.checked (s : State) (v : View) (i : Instr) (a : Acc) (ps : List (Nat × Place))
    (k : State → List (Nat × Loc) → Except Trap State) : Except Trap State :=
  let stop := fun code (info : Word) l => Except.error (⟨code, info, if a.lane then l else 0, 0⟩ : Trap)
  let bad := fun (f : Place → Bool) => ps.find? fun p => f p.2
  let nonCanon := fun (p : Place) => match p with | .glob va => !canonical va | .scr _ => false
  let outside := fun (p : Place) => match p with | .glob _ => false | .scr off => !s.scrAllowed v.team off a.bytes
  let locked : Place → Option Nat := fun p => match p with
    | .glob va => s.lockConflict? v.core false va a.bytes a.write
    | .scr off => s.lockConflict? v.core true off.toNat a.bytes a.write
  let forbidden := fun (p : Place) => match p with
    | .glob va => (match a.atomic with | some sc => decide (sc < 2) && !s.onDevice v va | none => false)
    | .scr _ => false
  match bad (·.misaligned a.bytes), bad nonCanon, bad outside, bad fun p => (locked p).isSome, bad forbidden with
  | some (l, p), _, _, _, _ => stop fMISALIGN p.word l
  | _, some (l, p), _, _, _ => stop fPAGE (pageInfo 1 p.va) l
  | _, _, some (l, p), _, _ => stop fPROT p.word l
  | _, _, _, some (l, p), _ => stop fRLOCK (BitVec.ofNat 32 ((locked p).getD 0)) l
  | _, _, _, _, some (l, _) => stop fILLOP (Instr.word0 i) l
  | _, _, _, _, _ =>
    s.translateAll v a ps [] fun locs =>
      match locs.find? fun x => a.reads && s.consumesPoison v.core x.2 a.bytes with
      | some (l, _) => stop fECC (((ps.find? (·.1 == l)).map (·.2.word)).getD 0) l
      | none =>
        let units := scrUnits locs a.bytes
        if s.banksBusy units then .ok (s.stall v 10) else k (s.useBanks units) locs

/-! ## Loads and stores at a checked place: in scratchpad every scope acts as cluster (spec/07 R103, spec/15 R255) -/

def State.loadLoc (s : State) (core scope order : Nat) (l : Loc) (n : Nat) (alloc : Bool) : State × List Byte :=
  if l.scratch then
    (if isAcquire order then s.acquire core 1 else s, Tab.getRange Memory.unwritten s.scratch l.key n)
  else s.loadBytes core scope order l.key n alloc

def State.storeLoc (s : State) (core owner scope order : Nat) (l : Loc) (bs : List Byte) (alloc : Bool) : State :=
  if l.scratch then
    let s := if isRelease order then s.release core 1 else s
    { s with scratch := Tab.putRange Memory.unwritten s.scratch l.key bs }
  else s.storeBytes core owner scope order l.key bs alloc

/-- The granules that a load of n bytes at each place asks for below L1: those of which L1 lacks a byte, and all where the
load is performed further out. -/
def State.loadLines (s : State) (core scope order n : Nat) (locs : List (Nat × Loc)) : List Nat :=
  let out := fun (key : Nat) => (order != 0 && scope != 0) ||
    (List.range n).any fun i => (Tab.find? (s.l1Of core) (key + i)).isNone
  ((locs.filter fun x => !x.2.scratch && out x.2.key).map fun x => granule x.2.key).eraseDups

/-- The granules that a store asks for: it goes beyond L1 where its scope does, or where L1 takes no line for it. -/
def State.storeLines (s : State) (core scope order : Nat) (alloc : Bool) (locs : List (Nat × Loc)) : List Nat :=
  let out := fun (key : Nat) => (order != 0 && scope != 0) || !(alloc || s.holdsLine core key)
  ((locs.filter fun x => !x.2.scratch && out x.2.key).map fun x => granule x.2.key).eraseDups

/-- The registers that hold n bytes, the first lowest (spec/15 R249). -/
def wordsOf : List Byte → List Word
  | a :: b :: c :: d :: rest => BitVec.ofNat 32 (natOfBytes [a, b, c, d]) :: wordsOf rest
  | [] => []
  | bs => [BitVec.ofNat 32 (natOfBytes bs)]

def bytesOfWords (n : Nat) (ws : List Word) : List Byte := (ws.flatMap fun w => bytesOfNat 4 w.toNat).take n

def numbered {α : Type} (r : Nat) (l : List α) : List (Nat × α) := (List.range l.length).zip l |>.map fun (i, x) => (r + i, x)

/-! ## Atomic operations -/

/-- Two halves, each a sum of its own. -/
def addHalves (f : Fmt) (m x : Nat) : Nat :=
  packElems 16 ((List.range 2).map fun i => (f.opAdd {} (bitsOf m (16 * i) 16) (bitsOf x (16 * i) 16)).1)

/-- FMIN and FMAX at memory (R125). -/
def atomMinMax (isMax : Bool) (m x : Nat) : Nat :=
  if (fp32.decode x).isNan then m else if (fp32.decode m).isNan then x else (fp32.opMinMax isMax m x).1

/-- The pair s, e after x (R123). -/
def compensated (s e x : Nat) : Nat × Nat :=
  let exact := (fAdd 0 (fp32.decode s) (fp32.decode x)).1
  let sNew := (fp32.finish 0 false exact).1
  match exact, fp32.decode sNew with
  | .num r, .num d =>
    let t := (fAdd 0 (.num r) (fNeg (.num d))).1
    (sNew, (fp32.finish 0 false (fAdd 0 (fp32.decode e) t).1).1)
  | _, _ => (sNew, 0)

/-- What an atomic leaves in memory, from the old value m and operands x, y (y: the new value of a CAS). -/
def atomEval (oc : BitVec 7) (bytes m x y : Nat) : Nat :=
  let w := 8 * bytes
  match oc.toNat with
  | 0x00 => (m + x) % 2 ^ w
  | 0x01 => if signedOf w m ≤ signedOf w x then m else x
  | 0x02 => if signedOf w m ≤ signedOf w x then x else m
  | 0x03 => min m x
  | 0x04 => max m x
  | 0x05 => m &&& x
  | 0x06 => m ||| x
  | 0x07 => m ^^^ x
  | 0x08 => x
  | 0x09 => if m = x then y else m
  | 0x0A => if x ≤ m then 0 else m + 1
  | 0x10 => (fp32.opAdd {} m x).1
  | 0x11 => atomMinMax false m x
  | 0x12 => atomMinMax true m x
  | 0x13 => addHalves fp16 m x
  | 0x14 => addHalves bf16 m x
  | 0x18 =>
    let r := compensated (m % 2 ^ 32) (m / 2 ^ 32) x
    r.1 + 2 ^ 32 * r.2
  | 0x19 => (m + x) % 2 ^ 128
  | _ => m

/-- The count of RED.XA: units of 2^(A − 64), toward zero, with the flags of R124. -/
def xaCount (a : Int) (x : Nat) : Nat × Word :=
  match fp32.decode x with
  | .nan _ => (0, flagINV)
  | .inf _ => (0, flagOVF)
  | .num d =>
    let sh := d.e - (a - 64)
    let mag := if 0 ≤ sh then d.m * 2 ^ sh.toNat else d.m / 2 ^ (-sh).toNat
    let lost := decide (sh < 0) && d.m % 2 ^ (-sh).toNat != 0
    let n : Int := if d.neg then -mag else mag
    let out := decide (n < -(2 ^ 127 : Nat)) || decide (n > (2 ^ 127 : Nat) - 1)
    (wrapNat 128 n, flagIf lost flagALIGN ||| flagIf out flagOVF)

/-- Flags that the operand alone decides (R260, R124). -/
def atomOperandFlags (oc : BitVec 7) (a : Int) (x : Nat) : Word :=
  match oc.toNat with
  | 0x10 | 0x11 | 0x12 | 0x18 => flagIf (fp32.decode (x % 2 ^ 32)).isSnan flagINV
  | 0x13 => flagIf ((List.range 2).any fun i => (fp16.decode (bitsOf x (16 * i) 16)).isSnan) flagINV
  | 0x14 => flagIf ((List.range 2).any fun i => (bf16.decode (bitsOf x (16 * i) 16)).isSnan) flagINV
  | 0x19 => (xaCount a (x % 2 ^ 32)).2
  | _ => 0

/-- INV that the returned bits decide (R125). -/
def atomReturnedInv (oc : BitVec 7) (m : Nat) : Bool := (oc == 0x11 || oc == 0x12) && (fp32.decode m).isSnan

/-- One atomic at its place (R120): the release before it, the step, and the acquire after it. -/
def State.atomStep (s : State) (core owner : Nat) (r : AtomReq) : State × Nat :=
  let order := r.order.toNat
  let scope := r.scope.toNat
  if r.scratch then
    let s := if isRelease order then s.release core (min scope 1) else s
    let m := natOfBytes (Tab.getRange Memory.unwritten s.scratch r.key r.bytes)
    let x := atomEval r.oc r.bytes m r.x.toNat r.y.toNat
    let s := { s with scratch := Tab.putRange Memory.unwritten s.scratch r.key (bytesOfNat r.bytes x) }
    (if isAcquire order then s.acquire core (min scope 1) else s, m)
  else
    let place := if scope < 2 then scope else 3
    let s := if isRelease order then s.release core scope else s
    let (s, bs) := s.strongLoad core place r.key r.bytes true
    let m := natOfBytes bs
    let s := s.strongStore core owner place r.key (bytesOfNat r.bytes (atomEval r.oc r.bytes m r.x.toNat r.y.toNat)) true
    (if isAcquire order then s.acquire core scope else s, m)

/-- The next lane's atomic of operation m executes; its old value is kept for the destination. -/
def State.atomNext (s : State) (m : MemOp) : State :=
  match m.atoms with
  | [] => s
  | r :: rest =>
    let (s, old) := s.atomStep m.core m.x.team r
    let ws := if r.ret then wordsOf (bytesOfNat r.bytes old) else []
    let m' := { m with
      atoms := rest
      vwrites := if m.uniform then m.vwrites else m.vwrites ++ (numbered r.vd ws).map fun (n, w) => (n, r.lane, w)
      swrites := if m.uniform then m.swrites ++ numbered r.vd ws else m.swrites
      retInv := m.retInv.or (if r.ret && atomReturnedInv r.oc old then some r.lane else none) }
    { s with memOps := modFirst (·.id == m.id) (fun _ => m') s.memOps }

/-- Every atomic of operation id executes, in ascending lane order. -/
def State.atomAll : Nat → Nat → State → State
  | 0, _, s => s
  | fuel + 1, id, s =>
    match s.memOps.find? (·.id == id) with
    | some m => if m.atoms.isEmpty then s else State.atomAll fuel id (s.atomNext m)
    | none => s

/-- The warp's own atomics on their way execute before its later accesses and releases (spec/07 R106, R107, R111). -/
def State.settleAtoms (s : State) (team warp : Nat) : State :=
  (s.memOps.filter fun m => m.x.team == team && m.x.warp == warp && !m.atoms.isEmpty).foldl
    (fun s m => State.atomAll m.atoms.length m.id s) s

end Sys2Proof.Machine
end

