-- ==== Sys2Proof/Machine/MemOps.lean ====
section
/-!
DEFINITION. Loads, stores, prefetch, atomics and reductions of lanes and of splits (spec/15 R248 to R263), their
completion (R252) and the write-back of L1 (spec/07 R99). A load reads memory when it issues, and its registers are
written when it completes; an atomic travels and executes later (log 15).
-/

namespace Sys2Proof.Machine

/-- A strong access ends a chunk of the record (spec/29 R413). -/
def State.runMem (s : State) (i : Instr) (strong : Bool) (body : View → Except Trap State) :
    Host.Outcome State Fault Refusal :=
  if strong then s.runSync i body else s.run i body

/-- Commit a team: its gang drains (spec/19 R319, R320). -/
def State.commitTeam (s : State) (v : View) : State := s.modGang v.team.gang fun g => { g with drain := true }

def sizeBytes (size : BitVec 3) : Nat := 2 ^ size.toNat

/-- A new operation of the warp: its number, the registers it holds until it completes, and its counter. -/
def State.startOp (s : State) (v : View) (op : Nat → MemOp) (vregs sregs : List Nat) : State × Warp :=
  let (s, id) := s.fresh
  let m := op id
  let w := if m.isLoad then (v.warp.addLd 1).addHold ⟨id, vregs, sregs, false, 2⟩ else v.warp.addSt 1
  ({ s with memOps := s.memOps ++ [m] }, w)

/-- Counters stop at 1,023: the reason of an operation that does not issue (R252). -/
def Warp.full? (w : Warp) (isLoad : Bool) : Option Nat :=
  if isLoad then (if w.ld ≥ 1023 then some 2 else none) else if w.st ≥ 1023 then some 3 else none

/-! ## Lane loads and stores (R254, R255) -/

/-- The address of a lane (R248). -/
def LM.place (f : LM) (v : View) (scr : Bool) (l : Nat) : Place :=
  if scr then .scr ((v.vec f.va l).toNat + f.off.toInt) else .glob (v.vec64 f.va l + f.off.signExtend 64).toNat

def State.laneLoad (s : State) (i : Instr) (f : LM) (scr : Bool) : Host.Outcome State Fault Refusal :=
  s.runMem i (f.order != 0) fun v =>
    let ls := v.part f.g f.gn
    let n := sizeBytes f.size
    if ls.isEmpty then .ok (s.skip v 8)
    else
      match v.warp.full? true with
      | some r => .ok (s.stall v r)
      | none =>
        s.checked v i { bytes := n, write := false, reads := true } (ls.map fun l => (l, LM.place f v scr l)) fun s locs =>
          let s := s.settleAtoms v.team.uid v.warp.num
          let lines := s.loadLines v.core f.scope.toNat f.order.toNat n locs
          let (s, ws) := locs.foldl (fun (acc : State × List (Nat × Nat × Word)) x =>
            let (s, bs) := acc.1.loadLoc v.core f.scope.toNat f.order.toNat x.2 n (f.hint != 1)
            (s, acc.2 ++ (numbered f.vd.toNat (wordsOf bs)).map fun (r, w) => (r, x.1, w))) (s, [])
          let op := fun id => { id, x := v.sel, mask := v.split.mask, core := v.core, isLoad := true, uniform := false
                                vwrites := ws, lines : MemOp }
          let (s, w) := s.startOp v op ((List.range (sizeRegs f.size)).map (f.vd.toNat + ·)) []
          .ok (s.retire v w 0 8)

def execLd (f : LM) (s : State) := s.laneLoad (.ld f) f false
def execLds (f : LM) (s : State) := s.laneLoad (.lds f) f true

/-- One lane's store; a weak one into L1 is remembered, since a discard may leave it unperformed. -/
def State.storeLane (s : State) (v : View) (scope order : Nat) (l : Loc) (bs : List Byte) (alloc : Bool) :
    State × List (Nat × Byte × Option L1Byte) :=
  let olds := if order = 0 && !l.scratch then
      (numbered l.key bs).map fun (k, b) => (k, b, Tab.find? (s.l1Of v.core) k)
    else []
  (s.storeLoc v.core v.team.uid scope order l bs alloc, olds)

def State.laneStore (s : State) (i : Instr) (f : LM) (scr : Bool) : Host.Outcome State Fault Refusal :=
  s.runMem i (f.order != 0) fun v =>
    let ls := v.part f.g f.gn
    let n := sizeBytes f.size
    if ls.isEmpty then .ok (s.skip v 8)
    else
      match v.warp.full? false with
      | some r => .ok (s.stall v r)
      | none =>
        s.checked v i { bytes := n, write := true, reads := false } (ls.map fun l => (l, LM.place f v scr l)) fun s locs =>
          let s := s.settleAtoms v.team.uid v.warp.num
          let lines := s.storeLines v.core f.scope.toNat f.order.toNat (f.hint != 1) locs
          let data := fun l => bytesOfWords n ((List.range (sizeRegs f.size)).map fun r => v.warp.v (f.vd.toNat + r) l)
          let (s, olds) := locs.foldl (fun (acc : State × List (Nat × Byte × Option L1Byte)) x =>
            let (s, o) := acc.1.storeLane v f.scope.toNat f.order.toNat x.2 (data x.1) (f.hint != 1)
            (s, acc.2 ++ o)) (s, [])
          let op := fun id => { id, x := v.sel, mask := v.split.mask, core := v.core, isLoad := false, uniform := false
                                stored := olds, lines : MemOp }
          let (s, w) := s.startOp v op [] []
          .ok (s.retire v w 0 8)

def execSt (f : LM) (s : State) := s.laneStore (.st f) f false
def execSts (f : LM) (s : State) := s.laneStore (.sts f) f true

/-! ## PREF (R257) -/

/-- Bring the 256-byte line closer where the access could be made; otherwise do nothing. -/
def State.prefetch (s : State) (v : View) (va : Nat) (intoL1 : Bool) : State :=
  if !canonical va || (s.lockConflict? v.core false va 1 true).isSome then s
  else
    match s.xlateNow v.ctx va .load with
    | .ok key =>
      let line := key / 256 * 256
      (List.range 4).foldl (fun s j =>
        let g := line + 64 * j
        if s.poisoned g 64 then s
        else if intoL1 then (s.loadWeak v.core g 64 true).1 else s.fillBelow (dieOfCore v.core) g) s
    | _ => s

def execPref (f : LM) (s : State) :=
  s.run (.pref f) fun v =>
    let s' := (v.part f.g f.gn).foldl (fun s l => s.prefetch v (v.vec64 f.va l + f.off.signExtend 64).toNat (f.hint != 1)) s
    .ok (s'.skip v 8)

/-! ## Atomics and reductions of lanes (R258 to R261) -/

def LM.atomPlace (f : LM) (v : View) (l : Nat) : Place :=
  let off : BitVec 12 := f.off.extractLsb' 0 12
  if LM.oc f = 0x19 then (if LM.atomScratch f then .scr (v.vec f.va l).toNat else .glob (v.vec64 f.va l).toNat)
  else if LM.atomScratch f then .scr ((v.vec f.va l).toNat + off.toInt)
  else .glob (v.vec64 f.va l + off.signExtend 64).toNat

/-- The anchor of RED.XA. -/
def LM.anchor (f : LM) : Int := (f.off.extractLsb' 0 10).toInt

/-- Operands x and y from the registers that hold them; for XA x is the count (R124). -/
def atomOperands (oc : BitVec 7) (bytes : Nat) (a : Int) (ws : List Word) : Nat × Nat :=
  let num := fun (l : List Word) => packElems 32 (l.map BitVec.toNat)
  let n := bytes / 4
  if oc = 0x09 then (num (ws.take n), num ((ws.drop n).take n))
  else if oc = 0x18 then (num (ws.take 1), 0)
  else if oc = 0x19 then ((xaCount a (num (ws.take 1))).1, 0)
  else (num (ws.take n), 0)

/-- The trap that operand flags raise names the lowest lane whose flags raise it. -/
def atomTrap (fctl : Word) (flags : List (Nat × Word)) : Option Trap :=
  let all := flags.foldl (fun a x => a ||| x.2) 0
  (trapOf fctl all).map fun t =>
    { t with lane := ((flags.find? fun x => ((trapOf fctl x.2).map (·.info)) == some t.info).map (·.1)).getD 0 }

def State.laneAtom (s : State) (i : Instr) (f : LM) (ret : Bool) : Host.Outcome State Fault Refusal :=
  s.runSync i fun v =>
    let ls := v.part f.g f.gn
    let n := sizeBytes f.size
    let oc := LM.oc f
    if ls.isEmpty then .ok (s.skip v 8)
    else
      match v.warp.full? ret with
      | some r => .ok (s.stall v r)
      | none =>
        s.checked v i { bytes := n, write := true, reads := true, atomic := some f.scope.toNat }
            (ls.map fun l => (l, LM.atomPlace f v l)) fun s locs =>
          let regs := fun l => (List.range (atomRegs oc f.size)).map fun r => v.warp.v (f.vd.toNat + r) l
          let flags := ls.map fun l => (l, atomOperandFlags oc (LM.anchor f) ((regs l).headD 0).toNat)
          match atomTrap v.team.fctl flags with
          | some t => .error t
          | none =>
            let s := (s.commitTeam v).settleAtoms v.team.uid v.warp.num
            let atoms := locs.map fun (l, loc) =>
              let (x, y) := atomOperands oc n (LM.anchor f) (regs l)
              { scratch := loc.scratch, key := loc.key, bytes := n, oc, x := BitVec.ofNat 128 x, y := BitVec.ofNat 128 y
                order := f.order, scope := f.scope, lane := l, vd := f.vd.toNat, ret : AtomReq }
            let op := fun id => { id, x := v.sel, mask := v.split.mask, core := v.core, isLoad := ret, uniform := false
                                  atoms, fctl := v.team.fctl : MemOp }
            let (s, w) := s.startOp v op (if ret then (List.range (n / 4)).map (f.vd.toNat + ·) else []) []
            .ok (s.retire v w (flags.foldl (fun a x => a ||| x.2) 0) 8)

def execAtom (f : LM) (s : State) := s.laneAtom (.atom f) f true
def execRed (f : LM) (s : State) := s.laneAtom (.red f) f false

/-! ## Uniform accesses (R262, R263) -/

def UE.size (f : UE) : BitVec 3 := f.w1.extractLsb' 29 3
def UE.scope (f : UE) : Nat := (f.w1.extractLsb' 26 3).toNat
def UE.order (f : UE) : Nat := (f.w1.extractLsb' 23 3).toNat
def UE.hint (f : UE) : BitVec 3 := f.w1.extractLsb' 20 3

/-- The address of a uniform access: sa with an offset. -/
def UE.place (f : UE) (v : View) (scr : Bool) (off : Int) : Place :=
  if scr then .scr ((v.s f.a.toNat).toNat + off) else .glob (v.s64 f.a.toNat + BitVec.ofInt 64 off).toNat

def UE.off20 (f : UE) : Int := (f.w1.extractLsb' 0 20).toInt

def execSld (f : UE) (s : State) :=
  s.runMem (.sld f) ((UE.order f) != 0) fun v =>
    let n := sizeBytes (UE.size f)
    let path := (f.sub.extractLsb' 0 2).toNat
    match v.warp.full? true with
    | some r => .ok (s.stall v r)
    | none =>
      s.checked v (.sld f) { bytes := n, write := false, reads := true, lane := false }
          [(0, UE.place f v (path == 2) (UE.off20 f))] fun s locs =>
        let loc := (locs.headD (0, ⟨false, 0⟩)).2
        let s := s.settleAtoms v.team.uid v.warp.num
        let lines := s.loadLines v.core (UE.scope f) (UE.order f) n locs
        let (s, bs) := if path = 1 then s.loadConst v.core loc.key n
          else s.loadLoc v.core (UE.scope f) (UE.order f) loc n (UE.hint f != 1)
        let op := fun id => { id, x := v.sel, mask := v.split.mask, core := v.core, isLoad := true, uniform := true
                              swrites := numbered f.d.toNat (wordsOf bs), dest := v.split.mask, lines : MemOp }
        let (s, w) := s.startOp v op [] ((List.range (sizeRegs (UE.size f))).map (f.d.toNat + ·))
        .ok (s.retire v w 0 8)

def execSst (f : UE) (s : State) :=
  s.runMem (.sst f) ((UE.order f) != 0) fun v =>
    let n := sizeBytes (UE.size f)
    match v.warp.full? false with
    | some r => .ok (s.stall v r)
    | none =>
      s.checked v (.sst f) { bytes := n, write := true, reads := false, lane := false }
          [(0, UE.place f v (f.sub.extractLsb' 0 2 == 2) (UE.off20 f))] fun s locs =>
        let loc := (locs.headD (0, ⟨false, 0⟩)).2
        let s := s.settleAtoms v.team.uid v.warp.num
        let lines := s.storeLines v.core (UE.scope f) (UE.order f) (UE.hint f != 1) locs
        let bs := bytesOfWords n ((List.range (sizeRegs (UE.size f))).map fun r => v.s (f.d.toNat + r))
        let (s, olds) := s.storeLane v (UE.scope f) (UE.order f) loc bs (UE.hint f != 1)
        let op := fun id => { id, x := v.sel, mask := v.split.mask, core := v.core, isLoad := false, uniform := true
                              stored := olds, lines : MemOp }
        let (s, w) := s.startOp v op [] []
        .ok (s.retire v w 0 8)

def execSatom (f : UE) (s : State) :=
  s.runSync (.satom f) fun v =>
    let n := sizeBytes (UE.size f)
    let oc : BitVec 7 := f.w1.extractLsb' 12 7
    let scr := f.w1.getLsbD 19
    let ret := !f.sub.getLsbD 0
    let off : Int := if oc = 0x19 then 0 else (f.w1.extractLsb' 0 12).toInt
    let anchor := (f.w1.extractLsb' 0 10).toInt
    match v.warp.full? ret with
    | some r => .ok (s.stall v r)
    | none =>
      s.checked v (.satom f) { bytes := n, write := true, reads := true, atomic := some (UE.scope f), lane := false }
          [(0, UE.place f v scr off)] fun s locs =>
        let loc := (locs.headD (0, ⟨false, 0⟩)).2
        let words := fun (r : Nat) => (List.range (max 1 (n / 4))).map fun i => v.s (r + i)
        let regs := if oc = 0x09 then words f.d.toNat ++ words f.b.toNat else words f.d.toNat
        let flags := atomOperandFlags oc anchor (v.s f.d.toNat).toNat
        match trapOf v.team.fctl flags with
        | some t => .error t
        | none =>
          let s := (s.commitTeam v).settleAtoms v.team.uid v.warp.num
          let (x, y) := atomOperands oc n anchor regs
          let r : AtomReq := {
            scratch := loc.scratch, key := loc.key, bytes := n, oc, x := BitVec.ofNat 128 x, y := BitVec.ofNat 128 y
            order := BitVec.ofNat 3 (UE.order f), scope := BitVec.ofNat 3 (UE.scope f), lane := 0, vd := f.d.toNat, ret }
          let op := fun id => { id, x := v.sel, mask := v.split.mask, core := v.core, isLoad := ret, uniform := true
                                atoms := [r], dest := v.split.mask, fctl := v.team.fctl : MemOp }
          let (s, w) := s.startOp v op [] (if ret then (List.range (n / 4)).map (f.d.toNat + ·) else [])
          .ok (s.retire v w flags 8)

/-! ## Completion (R252) -/

/-- Data arrives: registers are written, the counter falls, and INV of the returned bits is raised (R260), a trap under
the FCTL of the issue (spec/05 R87). -/
def execLoadComplete (id : Nat) (s : State) : Host.Outcome State Fault Refusal :=
  match s.memOps.find? fun m => m.id == id && m.isLoad && m.atoms.isEmpty with
  | none => .next s
  | some m =>
    let s := { s with memOps := s.memOps.filter (·.id != id) }
    let s := s.modWarp m.x.team m.x.warp fun w =>
      let w := m.vwrites.foldl (fun w (r, l, x) => w.setV r l x) w
      let w := m.swrites.foldl (fun w (r, x) => w.setS m.dest r x) w
      (w.addLd (-1)).dropHold id
    match m.retInv with
    | some lane =>
      let s := s.modTeam m.x.team (·.raise s.clock flagINV)
      .next (if fctlTRAPINV m.fctl then s.deferLowest m.x m.mask fNANTRAP 1 lane else s)
    | none => .next s

/-- A store or reduction is performed and the counter falls. -/
def execStoreComplete (id : Nat) (s : State) : Host.Outcome State Fault Refusal :=
  match s.memOps.find? fun m => m.id == id && !m.isLoad && m.atoms.isEmpty with
  | none => .next s
  | some m =>
    let s := { s with memOps := s.memOps.filter (·.id != id) }
    .next (s.modWarp m.x.team m.x.warp fun w => (w.addSt (-1)).dropHold id)

/-- One atomic of the operation executes as one step at its place (R120, R260). -/
def execAtomicAtMemory (id : Nat) (s : State) : Host.Outcome State Fault Refusal :=
  match s.memOps.find? (·.id == id) with
  | none => .next s
  | some m => .next (s.atomNext m)

/-- L1 writes back the dirty bytes of a 256-byte line, at a time of its choosing (spec/07 R99). -/
def execL1Writeback (core line : Nat) (s : State) : Host.Outcome State Fault Refusal :=
  .next ((s.flushIf core fun k => k / 256 == line).ask (.core core) true (256 * line) 256)

end Sys2Proof.Machine
end

