-- ==== Sys2Proof/Machine/Barriers.lean ====
section
/-!
DEFINITION. WAIT, WAITC, the named barriers and FENCE (spec/13 R229 to R236).
-/

namespace Sys2Proof.Machine

/-! ## WAIT (R229) -/

/-- Batches that a WAIT on MB counts: those outstanding, and those of a matrix fault that no split has yet taken
(spec/17 R283). -/
def Warp.batches (w : Warp) : Nat :=
  w.mb + (w.splits.flatMap (·.deferred)).foldl (fun n d => max n d.mb) 0

/-- The counters a WAIT names: count in use, limit, stall reason. -/
def UW.conds (f : UW) (w : Warp) : List (Nat × Nat × Nat) :=
  [(w.ld, f.ld.toNat, 2), (w.st, f.st.toNat, 3), (w.cp, f.cp.toNat, 4), (w.batches, f.mb.toNat, 5)].filter (·.2.1 != 31)

def execWait (f : UW) (s : State) :=
  s.runSync (.wait f) fun v =>
    let cs := UW.conds f v.warp
    let unmet := cs.filter fun c => decide (c.1 > c.2.1)
    let go := if f.mode = 0 then unmet.isEmpty else cs.isEmpty || decide (unmet.length < cs.length)
    if go then .ok (s.skip v 4) else .ok (s.stall v ((unmet.map (·.2.2)).min?.getD 15))

/-! ## Barriers (R233 to R235) -/

/-- BARMISUSE of barrier n: the lowest case that applies. -/
def barTrap (n : Nat) (cases : List (Nat × Bool)) : Option Trap :=
  (cases.find? (·.2)).map fun c => ⟨fBARMISUSE, BitVec.ofNat 32 (n + 1024 * c.1), 0, 0⟩

def barNumber (b : Word) : Nat := (b.extractLsb' 0 10).toNat

/-- A barrier of the team, uninitialised where the team has none of that number. -/
def Team.bar (t : Team) (n : Nat) : Barrier := t.bars.getD n {}

def Team.setBar (t : Team) (n : Nat) (b : Barrier) : Team := { t with bars := modNth (fun _ => b) n t.bars }

/-- The warps that a mask names. -/
def warpsOf (m : Word) : List Nat := (List.range 32).filter fun n => m.getLsbD n

def State.bari (s : State) (v : View) (mask b : Word) (len : Nat) : Except Trap State :=
  let n := barNumber b
  let t := v.team
  let live := (warpsOf mask).filter fun k => t.warps.any fun w => w.num == k && !w.dead
  let arrived := (t.bar n).slices.any fun e => (t.warps.find? (·.num == e.1)).any fun w => e.2 &&& w.liveSlices != 0
  match barTrap n [(0, decide (n ≥ t.bars.length)), (4, arrived),
      (5, live.isEmpty || (warpsOf mask).any fun k => decide (k ≥ t.warps.length))] with
  | some e => .error e
  | none =>
    let members := live.foldl (fun m k => m ||| BitVec.ofNat 32 (2 ^ k)) (0 : Word)
    let s := s.modTeam t.uid fun t => t.setBar n { init := true, members, phase := (t.bar n).phase }
    .ok (s.retire v v.warp 0 len)

/-- The cases that refuse an arrival of the split; `leaves` says that it arrives by BARD. -/
def View.arrivalTrap (v : View) (n : Nat) (leaves : Bool) : Option Trap :=
  let b := v.team.bar n
  let k := v.warp.num
  let other := if leaves then b.byStay else b.byLeave
  barTrap n [(0, decide (n ≥ v.team.bars.length)), (1, !b.init), (2, !b.members.getLsbD k),
    (3, Tab.get (0 : BitVec 8) b.slices k &&& v.split.mask != 0), (6, other.getLsbD k)]

/-- The split's slices join SLICES of their warp; the atomics of the warp on their way come first. -/
def State.arrive (s : State) (v : View) (n : Nat) (leaves : Bool) : State :=
  let bit := BitVec.ofNat 32 (2 ^ v.warp.num)
  (s.settleAtoms v.team.uid v.warp.num).modTeam v.team.uid fun t =>
    let b := t.bar n
    t.setBar n { b with
      slices := Tab.upd 0 b.slices v.warp.num (· ||| v.split.mask)
      byLeave := if leaves then b.byLeave ||| bit else b.byLeave
      byStay := if leaves then b.byStay else b.byStay ||| bit }

/-- BARA: arrive; sd takes the phase at arrival. Whether the phase is complete is seen at the end of the clock. -/
def State.bara (s : State) (v : View) (d : BitVec 6) (b : Word) (len : Nat) : Except Trap State :=
  let n := barNumber b
  match v.arrivalTrap n false with
  | some e => .error e
  | none =>
    let w := v.warp.setS v.split.mask d.toNat ((v.team.bar n).phase.zeroExtend 32)
    .ok ((s.arrive v n false).retire v w 0 len)

/-- BARD: arrive and leave. -/
def State.bard (s : State) (v : View) (b : Word) (len : Nat) : Except Trap State :=
  let n := barNumber b
  match v.arrivalTrap n true with
  | some e => .error e
  | none => .ok ((s.arrive v n true).retire v v.warp 0 len)

/-- BARS: arrive, then wait for this phase to complete; the completion retires it. -/
def State.bars (s : State) (v : View) (b : Word) (len : Nat) : Except Trap State :=
  let n := barNumber b
  match v.arrivalTrap n false with
  | some e => .error e
  | none =>
    .ok ((s.arrive v n false).waitWith v (.barrier n (v.pc + BitVec.ofNat 64 len) true))

/-- BARW: wait until PHASE ≠ sa[15:0]. -/
def State.barw (s : State) (v : View) (phase b : Word) (len : Nat) : Except Trap State :=
  let n := barNumber b
  match barTrap n [(0, decide (n ≥ v.team.bars.length)), (1, !(v.team.bar n).init)] with
  | some e => .error e
  | none =>
    if (v.team.bar n).phase != phase.truncate 16 then .ok (s.retire v v.warp 0 len)
    else .ok (s.waitWith v (.barrier n (v.pc + BitVec.ofNat 64 len) false))

/-- A guarded instruction that ends a chunk. -/
def State.syncOp (s : State) (i : Instr) (q : BitVec 3) (n : BitVec 1) (len : Nat) (g : View → Except Trap State) :
    Host.Outcome State Fault Refusal :=
  s.runSync i fun v => if v.qGuard q n then g v else .ok (s.skip v len)

def execBari (f : UR) (s : State) := s.syncOp (.bari f) f.q f.n 4 fun v => s.bari v (v.s f.a.toNat) (v.s f.b.toNat) 4
def execBariImm (f : UI) (s : State) := s.syncOp (.bariImm f) f.q f.n 8 fun v => s.bari v (v.s f.a.toNat) f.imm 8
def execBara (f : UR) (s : State) := s.syncOp (.bara f) f.q f.n 4 fun v => s.bara v f.d (v.s f.b.toNat) 4
def execBaraImm (f : UI) (s : State) := s.syncOp (.baraImm f) f.q f.n 8 fun v => s.bara v f.d f.imm 8
def execBarw (f : UR) (s : State) := s.syncOp (.barw f) f.q f.n 4 fun v => s.barw v (v.s f.a.toNat) (v.s f.b.toNat) 4
def execBarwImm (f : UI) (s : State) := s.syncOp (.barwImm f) f.q f.n 8 fun v => s.barw v (v.s f.a.toNat) f.imm 8
def execBars (f : UR) (s : State) := s.syncOp (.bars f) f.q f.n 4 fun v => s.bars v (v.s f.b.toNat) 4
def execBarsImm (f : UI) (s : State) := s.syncOp (.barsImm f) f.q f.n 8 fun v => s.bars v f.imm 8
def execBard (f : UR) (s : State) := s.syncOp (.bard f) f.q f.n 4 fun v => s.bard v (v.s f.b.toNat) 4
def execBardImm (f : UI) (s : State) := s.syncOp (.bardImm f) f.q f.n 8 fun v => s.bard v f.imm 8

/-! ## FENCE (R236) -/

def execFence (f : UR) (s : State) :=
  s.syncOp (.fence f) f.q f.n 4 fun v =>
    let scope := (f.a.extractLsb' 0 3).toNat
    let order := (f.b.extractLsb' 0 3).toNat
    let s := s.settleAtoms v.team.uid v.warp.num
    let s := if isRelease order then s.release v.core scope else s
    let s := if isAcquire order then s.acquire v.core scope else s
    .ok (s.skip v 4)

/-! ## WAITC (R230, R231) -/

def codeReg (c : BitVec 8) : Nat := (c.extractLsb' 0 5).toNat
def codeKind (c : BitVec 8) : Nat := (c.extractLsb' 5 3).toNat

/-- The pipe of the gang with this number. -/
def State.pipe? (s : State) (gang n : Nat) : Option Pipe := (s.gang? gang).bind fun g => g.pipes.find? (·.num == n)

def pipeTrap (n c : Nat) : Trap := ⟨fPIPEMISUSE, BitVec.ofNat 32 (n + 16 * c), 0, 0⟩

/-- The fault of a barrier or pipe code, checked at issue. -/
def State.codeTrap (s : State) (v : View) (c : BitVec 8) : Option Trap :=
  let x := v.s (codeReg c)
  if codeKind c = 1 then
    let n := barNumber x
    barTrap n [(0, decide (n ≥ v.team.bars.length)), (1, !(v.team.bar n).init)]
  else if codeKind c = 2 then
    let n := (x.extractLsb' 0 4).toNat
    if (s.pipe? v.team.gang n).isNone then some (pipeTrap n 0) else none
  else none

/-- The token of the team that a register names; one that names no operation of it counts as completed. -/
def State.tokenOf? (s : State) (v : View) (x : Word) : Option Token := s.tokens.find? fun t => t.val == x && t.team == v.team.uid

/-- A condition that needs no memory. -/
def State.codeHolds (s : State) (v : View) (c : BitVec 8) : Bool :=
  let x := v.s (codeReg c)
  match codeKind c with
  | 1 => (v.team.bar (barNumber x)).phase != x.extractLsb' 16 16
  | 2 =>
    match s.pipe? v.team.gang (x.extractLsb' 0 4).toNat with
    | some p =>
      if x.getLsbD 4 then (p.slots.getD p.prod (.taken, none)).1 == .free else (p.slots.getD p.cons (.taken, none)).1 == .full
    | none => false
  | _ => ((s.tokenOf? v x).map (·.status.isSome)).getD true

/-- The code names a landing whose completion is observed (spec/23 R356, spec/25 R375). -/
def State.codeAcquires (s : State) (v : View) (c : BitVec 8) : Bool :=
  codeKind c == 3 && (s.tokenOf? v (v.s (codeReg c))).any fun t => t.acquires && t.status.isSome

/-- What a memory condition of kind k asks of the word m, x being sb. -/
def memHolds (k m x : Nat) : Bool :=
  match k with
  | 4 => m == x
  | 5 => m != x
  | 6 => decide (m ≥ x)
  | _ => decide (m < x)

/-- Evaluate codes in order, each with what it last held; a memory condition is an acquire load at device scope, and
where memory is not read it holds as it last did. -/
def State.waitcEval (s : State) (v : View) (f : UE) (reads : Bool) :
    List (BitVec 8 × Bool) → List Bool → (State → List Bool → Except Trap State) → Except Trap State
  | [], acc, k => k s acc
  | (c, seen) :: cs, acc, k =>
    if codeKind c < 4 then s.waitcEval v f reads cs (acc ++ [s.codeHolds v c]) k
    else if !reads then s.waitcEval v f reads cs (acc ++ [seen]) k
    else
      s.checked v (.waitc f) { bytes := 4, write := false, reads := true, lane := false }
          [(0, .glob (v.s64 (codeReg c)).toNat)] fun s locs =>
        let s := s.settleAtoms v.team.uid v.warp.num
        let (s, bs) := s.loadLoc v.core 3 2 (locs.headD (0, ⟨false, 0⟩)).2 4 true
        State.waitcEval s v f reads cs (acc ++ [memHolds (codeKind c) (natOfBytes bs) (v.s f.b.toNat).toNat]) k

/-- The mode is satisfied by the codes that count. -/
def waitcSatisfied (f : UE) (hs : List Bool) : Bool :=
  let used := ((waitcCodes f.w1).zip hs).filter fun x => codeKind x.1 != 0
  if f.sub.getLsbD 0 then used.all (·.2) else used.any (·.2)

/-- The time limit T of a WAITC. -/
def WaitcRun.limit (r : WaitcRun) (v : View) : Nat := (v.s r.f.a.toNat).toNat

/-- T ticks have elapsed; or more, so that it is too late to be satisfied (T = 0 evaluates once, whenever it can). -/
def WaitcRun.elapsed (r : WaitcRun) (v : View) (tick : Nat) : Bool :=
  r.limit v != 0xFFFFFFFF && decide (tick ≥ r.start + r.limit v)
def WaitcRun.late (r : WaitcRun) (v : View) (tick : Nat) : Bool :=
  r.limit v != 0xFFFFFFFF && r.limit v != 0 && decide (tick > r.start + r.limit v)

/-- Memory conditions are read again no sooner than 16 clocks after the last read. -/
def WaitcRun.rests (r : WaitcRun) (clock : Nat) : Bool := !r.seen.isEmpty && decide (clock < r.last + 16)

/-- The codes with what each last held. -/
def WaitcRun.codes (r : WaitcRun) : List (BitVec 8 × Bool) :=
  (waitcCodes r.f.w1).zip (r.seen ++ List.replicate 4 false)

/-- The WAITC of a split goes on, or is forgotten. -/
def State.setWaitc (s : State) (v : View) (wt : Wait) (r : Option WaitcRun) : State :=
  s.setWarp v { v.warp with
    splits := modFirst (fun sp : Split => sp.mask == v.split.mask) (fun sp => { sp with wait := wt, waitc := r }) v.warp.splits }

/-- The WAITC retires with this predicate, an acquire at device scope where it observes a landing. -/
def State.waitcRetire (s : State) (v : View) (f : UE) (b : Bool) : State :=
  let s := if (waitcCodes f.w1).any (s.codeAcquires v) then s.acquire v.core 3 else s
  s.retire v (v.warp.setQ v.split.mask (f.d.extractLsb' 0 3).toNat b) 0 8

/-- T has elapsed: the predicate is false, or TIMEOUT names the codes that hold. -/
def State.waitcEnd (s : State) (v : View) (f : UE) (hs : List Bool) : Except Trap State :=
  if f.sub.getLsbD 1 then
    let used := ((waitcCodes f.w1).zip hs).map fun x => codeKind x.1 != 0 && x.2
    .error ⟨fTIMEOUT, BitVec.ofNat 32 (packElems 1 (used.map Bool.toNat)), 0, 0⟩
  else .ok (s.waitcRetire v f false)

/-- Evaluate a WAITC that has issued: retire, end at its time limit, or wait on. -/
def State.waitcTry (s : State) (v : View) (r : WaitcRun) : Except Trap State :=
  let reads := !r.late v s.tick && !r.rests s.clock
  s.waitcEval v r.f reads r.codes [] fun s hs =>
    if !r.late v s.tick && waitcSatisfied r.f hs then .ok (s.waitcRetire v r.f true)
    else if r.elapsed v s.tick then s.waitcEnd v r.f hs
    else .ok (s.setWaitc v .waitc (some { r with last := if reads then s.clock else r.last, seen := hs }))

def execWaitc (f : UE) (s : State) :=
  s.runSync (.waitc f) fun v =>
    match (waitcCodes f.w1).findSome? (s.codeTrap v) with
    | some t => .error t
    | none =>
      let r := v.split.waitc.getD ⟨f, s.tick, 0, []⟩
      let s := s.setWaitc v v.split.wait (some r)
      match s.viewOf? v.sel with
      | some v => s.waitcTry v r
      | none => .ok s

/-- A WAITC that has issued and not retired at split x. -/
def State.waitcOf? (s : State) (x : Sel) : Option (View × WaitcRun) :=
  (s.viewOf? x).bind fun v => v.split.waitc.map fun r => (v, r)

/-- What a WAITC makes of its split, in whose name it acts; a fault is taken at the WAITC. -/
def State.waitcAct (s : State) (v : View) (r : Except Trap State) : State :=
  match r with
  | .ok s => s.chunkAfter v
  | .error t => s.takeFault v t v.pc

/-- Between two evaluations: the other conditions in every clock, memory no sooner than it may be read. -/
def execWaitcReread (x : Sel) (s : State) : Host.Outcome State Fault Refusal :=
  match s.waitcOf? x with
  | some (v, r) => .next (if v.split.wait == .waitc then s.waitcAct v (s.waitcTry v r) else s)
  | none => .next s

/-- The access of a split that waits for a translation or a page is given up. -/
def State.dropAccess (s : State) (x : Sel) : State :=
  let mine := fun (q : Requester) => match q with
    | .split y _ _ => y == x
    | _ => false
  { s with
    walks := s.walks.map fun w => { w with who := w.who.filter (·.x != x) }
    ctxs := s.ctxs.map fun c => (c.1, { c.2 with reqs := c.2.reqs.map fun r => { r with who := r.who.filter (!mine ·) } }) }

/-- T has elapsed while the split waits: for its next evaluation, or for the translation of a memory condition, which
then does not hold. -/
def execWaitcExpiry (x : Sel) (s : State) : Host.Outcome State Fault Refusal :=
  match s.waitcOf? x with
  | some (v, r) =>
    match v.split.wait with
    | .waitc => .next (if r.elapsed v s.tick then s.waitcAct v (s.waitcTry v r) else s)
    | .walk _ | .parked _ _ =>
      if r.elapsed v s.tick && r.limit v != 0 then
        let s := s.dropAccess v.sel
        .next (s.waitcAct v (s.waitcEval v r.f false r.codes [] fun s hs => s.waitcEnd v r.f hs))
      else .next s
    | _ => .next s
  | none => .next s

end Sys2Proof.Machine
end

