-- ==== Sys2Proof/Machine/Control.lean ====
section
/-!
DEFINITION. Branches, calls, returns, REGANG, EXIT and DISCARD (spec/13 R217 to R228; spec/03 R34 to R39; spec/09 R149,
R159).
-/

namespace Sys2Proof.Machine

/-- An address at a signed count of words from `base` (spec/09 R128). -/
def wordsFrom (base : Addr) (off : BitVec 18) : Addr := base + off.signExtend 64 * 4

def execNop (f : UR) (s : State) := s.run (.nop f) fun v => .ok (s.skip v 4)

def execBra (f : UB) (s : State) :=
  s.run (.bra f) fun v =>
    if v.qGuard f.q f.n then .ok (s.retireTo v v.warp 0 fun _ => wordsFrom v.pc f.off) else .ok (s.skip v 4)

/-! ## Calls and returns (R219) -/

def execCall (f : UB) (s : State) :=
  s.run (.call f) fun v =>
    if v.qGuard f.q f.n then
      if (slicesOf v.split.mask).any fun k => decide ((v.warp.sl k).rstack.length ≥ 16) then .error ⟨fRETSTK, 1, 0, 0⟩
      else
        let w := v.warp.modSls v.split.mask fun sl => { sl with rstack := (v.pc + 4) :: sl.rstack }
        .ok (s.retireTo v w 0 fun _ => wordsFrom v.pc f.off)
    else .ok (s.skip v 4)

def execRet (f : UR) (s : State) :=
  s.run (.ret f) fun v =>
    if v.qGuard f.q f.n then
      if (slicesOf v.split.mask).any fun k => (v.warp.sl k).rstack.isEmpty then .error ⟨fRETSTK, 0, 0, 0⟩
      else
        let w := v.warp.modSls v.split.mask fun sl => { sl with rstack := sl.rstack.drop 1 }
        .ok (s.retireTo v w 0 fun k => (v.warp.sl k).rstack.headD 0)
    else .ok (s.skip v 4)

/-! ## Branch-target tables (spec/09 R159) -/

/-- Read a word of a table as an instruction word, through the instruction buffer, with the faults of that read; a miss
is walked and the instruction runs again. -/
def State.tableWord (s : State) (v : View) (va : Addr) (k : State → Word → Except Trap State) : Except Trap State :=
  match s.fetchWord v.core v.ctx va with
  | .word w => k (s.keepWord v.core v.ctx va) w
  | .reject (.page info) => .error ⟨fPAGE, info, 0, 0⟩
  | .reject (.prot info) => .error ⟨fPROT, info, 0, 0⟩
  | .reject .illop => .error ⟨fILLOP, va.truncate 32, 0, 0⟩
  | .ecc info => .error ⟨fECC, info, 0, 0⟩
  | .miss => .ok (s.startWalk v va.toNat .fetch 0)

def headerBad (h : Word) : Bool := h.extractLsb' 12 2 != 0
def headerLast (h : Word) : Nat := (h.extractLsb' 0 12).toNat
def entryBad (e : Word) : Bool := e.extractLsb' 18 14 != 0
def entryTarget (table : Addr) (e : Word) : Addr := wordsFrom table (e.extractLsb' 0 18)
def entryAt (table : Addr) (k : Nat) : Addr := table + BitVec.ofNat 64 (4 * (k + 1))

def execJtab (f : UI) (s : State) :=
  s.run (.jtab f) fun v =>
    if v.qGuard f.q f.n then
      let table := wordsFrom v.pc (f.imm.extractLsb' 0 18)
      let k := v.s f.a.toNat
      s.tableWord v table fun s h =>
        if headerBad h || decide (k.toNat > headerLast h) then .error ⟨fJTAB, k, 0, 0⟩
        else s.tableWord v (entryAt table k.toNat) fun s e =>
          if entryBad e then .error ⟨fJTAB, k, 0, 0⟩
          else .ok (s.retireTo v v.warp 0 fun _ => entryTarget table e)
    else .ok (s.skip v 8)

/-- DBNZ (R221). -/
def execDbnz (f : UI) (s : State) :=
  s.run (.dbnz f) fun v =>
    if v.qGuard f.q f.n then
      let x := v.s f.d.toNat - 1
      let w := v.warp.setS v.split.mask f.d.toNat x
      .ok (s.retireTo v w 0 fun _ => if x ≠ 0 then wordsFrom v.pc (f.imm.extractLsb' 0 18) else v.pc + 8)
    else .ok (s.skip v 8)

/-! ## Branches per lane (R36, R225, R226) -/

/-- The lanes of slice k that participate. -/
def View.sliceLanes (v : View) (k : Nat) : List Nat := (List.range 32).filter fun l => l / 4 == k && v.laneOn l

def laneMask (ls : List Nat) : BitVec 4 := BitVec.ofNat 4 (ls.foldl (fun m l => m ||| 2 ^ (l % 4)) 0)

/-- A slice whose lanes choose the addresses `dest`: it goes to the first lane's, and pushes an entry for each other
one, the next at the top (R226). None when the stack would hold more than 8 entries. -/
def sliceBranch (sl : Slice) (lanes : List Nat) (dest : Nat → Addr) (stay reconv : Addr) : Option (Slice × Addr) :=
  match distinct (lanes.map dest) with
  | [] => some (sl, stay)
  | a :: rest =>
    let of' := fun x => laneMask (lanes.filter fun l => dest l == x)
    let push := fun (acc : BitVec 4 × List DefEntry) x =>
      (acc.1 ||| of' x, acc.2 ++ [⟨of' x, x, reconv, false, acc.1 ||| of' x⟩])
    let entries := (rest.foldl push (of' a, [])).2
    if sl.dstack.length + entries.length > 8 then none
    else if rest.isEmpty then some (sl, a)
    else some ({ sl with act := of' a, dstack := entries ++ sl.dstack }, a)

/-- Branch every slice of the split; DIVDEPTH names the lowest slice whose stack is full. -/
def State.branchLanes (s : State) (v : View) (dest : Nat → Addr) (reconv : Addr) : Except Trap State :=
  let go := (slicesOf v.split.mask).map fun k =>
    (k, sliceBranch (v.warp.sl k) (v.sliceLanes k) dest (v.pc + 8) reconv)
  match go.find? (·.2.isNone) with
  | some (k, _) => .error ⟨fDIVDEPTH, BitVec.ofNat 32 k, 0, 0⟩
  | none =>
    let w := go.foldl (fun w x => match x.2 with | some (sl, _) => w.modSl x.1 fun _ => sl | none => w) v.warp
    .ok (s.retireTo v w 0 fun k =>
      match go.find? (·.1 == k) with
      | some (_, some (_, a)) => a
      | _ => v.pc)

/-- BRX: a slice that divides goes to the taken target first, whichever lane is lowest (R36). -/
def execBrx (f : LB) (s : State) :=
  s.run (.brx f) fun v =>
    let taken := fun l => v.pGuard f.p f.neg l
    let tgt := wordsFrom v.pc f.off
    let ntgt := v.pc + 8
    let reconv := wordsFrom v.pc f.hi
    let go := (slicesOf v.split.mask).map fun k =>
      let sl := v.warp.sl k
      let ls := v.sliceLanes k
      let yes := laneMask (ls.filter taken)
      let no := laneMask (ls.filter fun l => !taken l)
      if no = 0 then (k, some (sl, if yes = 0 then ntgt else tgt))
      else if yes = 0 then (k, some (sl, ntgt))
      else if sl.dstack.length ≥ 8 then (k, none)
      else (k, some ({ sl with act := yes, dstack := ⟨no, ntgt, reconv, false, yes ||| no⟩ :: sl.dstack }, tgt))
    match go.find? (·.2.isNone) with
    | some (k, _) => .error ⟨fDIVDEPTH, BitVec.ofNat 32 k, 0, 0⟩
    | none =>
      let w := go.foldl (fun w x => match x.2 with | some (sl, _) => w.modSl x.1 fun _ => sl | none => w) v.warp
      .ok (s.retireTo v w 0 fun k =>
        match go.find? (·.1 == k) with
        | some (_, some (_, a)) => a
        | _ => v.pc)

/-- Read the entries of the lanes in ascending order; the lowest failing lane raises JTAB. -/
def State.tableLanes (s : State) (v : View) (table : Addr) (last : Nat) (idx : Nat → Nat) :
    List Nat → List (Nat × Addr) → (State → List (Nat × Addr) → Except Trap State) → Except Trap State
  | [], acc, k => k s acc
  | l :: ls, acc, k =>
    if idx l > last then .error ⟨fJTAB, BitVec.ofNat 32 l, 0, 0⟩
    else s.tableWord v (entryAt table (idx l)) fun s e =>
      if entryBad e then .error ⟨fJTAB, BitVec.ofNat 32 l, 0, 0⟩
      else s.tableLanes v table last idx ls (acc ++ [(l, entryTarget table e)]) k

def execJtabx (f : LB) (s : State) :=
  s.run (.jtabx f) fun v =>
    let table := wordsFrom v.pc f.off
    let yes := v.lanes.filter fun l => v.pGuard f.p f.neg l
    s.tableWord v table fun s h =>
      if headerBad h && !yes.isEmpty then .error ⟨fJTAB, BitVec.ofNat 32 (yes.headD 0), 0, 0⟩
      else s.tableLanes v table (headerLast h) (fun l => (v.vec f.mid l).toNat) yes [] fun s ts =>
        s.branchLanes v (fun l => (Tab.find? ts l).getD (v.pc + 8)) (wordsFrom table (h.extractLsb' 14 18))

/-- RETX (R227). -/
def execRetx (f : LU) (s : State) :=
  s.run (.retx f) fun v =>
    let goal := fun k => distinct ((v.sliceLanes k).map fun l => v.vec64 f.va l)
    let ks := slicesOf v.split.mask
    match ks.find? fun k => decide ((goal k).length > 1) with
    | some k => .error ⟨fDIVRET, BitVec.ofNat 32 k, 0, 0⟩
    | none =>
      match (ks.flatMap goal).find? fun a => a.extractLsb' 0 2 != 0 with
      | some a => .error ⟨fMISALIGN, a.truncate 32, 0, 0⟩
      | none => .ok (s.retireTo v v.warp 0 fun k => (goal k).headD (v.pc + 4))

/-! ## EXIT and DISCARD (R223, R228; spec/03 R56) -/

/-- The warp keeps where a split exits (spec/29 R409). -/
def Warp.exitAt (w : Warp) (v : View) (clock : Nat) : Warp :=
  { w with exits := w.exits.filter (·.clock == clock) ++ [⟨v.sel.slice, v.pc, clock⟩] }

/-- Kill lanes of the split and retire. -/
def State.killRetire (s : State) (v : View) (lanes : List Nat) (exports : Bool) (len : Nat) : State :=
  ((s.exportLanes v lanes exports).retire v (v.warp.killLanes lanes |>.exitAt v s.clock) 0 len).afterDeaths v

def execExit (f : UR) (s : State) :=
  s.runSync (.exit f) fun v =>
    if v.qGuard f.q f.n then .ok (s.killRetire v v.lanes true 4) else .ok (s.skip v 4)

/-- DISCARD outside a pixel team raises ILLOP. -/
def State.discardLanes (s : State) (i : Instr) (v : View) (lanes : List Nat) (len : Nat) : Except Trap State :=
  match v.team.kind with
  | .pixel _ _ _ _ => .ok (s.killRetire v lanes false len)
  | _ => .error ⟨fILLOP, Instr.word0 i, 0, 0⟩

def execDiscardLu (s : State) := s.run .discardLu fun v => s.discardLanes .discardLu v v.lanes 4
def execDiscard (f : LR) (s : State) := s.run (.discard f) fun v => s.discardLanes (.discard f) v (v.part f.g f.gn) 8

/-! ## REGANG (spec/03 R39) -/

/-- A group's slices are all the live slices of its record (which resolution may have freed). -/
def Warp.groupFull (w : Warp) (g : FuseGroup) : Bool :=
  match w.recs.find? (·.id == g.parent) with
  | some r => r.mask &&& w.liveSlices == g.mask
  | none => true

def Warp.groupDue (w : Warp) (clock : Nat) (g : FuseGroup) : Bool := w.groupFull g || decide (g.first + g.limit ≤ clock)

/-- Release a group: its splits fuse and the REGANG retires. -/
def State.releaseGroup (s : State) (uid warp : Nat) (g : FuseGroup) : State :=
  match (s.team? uid).bind (·.warp? warp) with
  | none => s
  | some w =>
    let w := { w with groups := w.groups.filter (· != g) }
    let parent := ((w.splitOf? (lowestBit 8 g.mask.toNat)).map (·.parent)).getD g.parent
    let (s, differs) := s.fuseWarp uid warp w g.mask parent none
    match s.viewOf? ⟨uid, warp, lowestBit 8 g.mask.toNat⟩ with
    | some v => s.retire v v.warp (flagIf differs flagUDIFF) 8
    | none => s

/-- The split joins a fuse group at this instruction: a split that reaches a REGANG arrives, and issues nothing. -/
def View.joins (v : View) : Instr → Bool
  | .regang f => v.qGuard f.q f.n
  | _ => false

/-- REGANG: join the group of the warp, address and parent; a full group is released at once, and one whose wait is 0
at the end of this clock. -/
def execRegang (f : UI) (s : State) :=
  s.run (.regang f) fun v =>
    if v.qGuard f.q f.n then
      let key := fun (g : FuseGroup) => g.pc == v.pc && g.parent == v.split.parent
      let limit := (f.imm.extractLsb' 0 10).toNat
      let g := (v.warp.groups.find? key).getD ⟨v.pc, v.split.parent, 0, s.clock, limit⟩
      let g := { g with mask := g.mask ||| v.split.mask }
      let s := s.modWarp v.team.uid v.warp.num fun w => { w with
        groups := w.groups.filter (!key ·) ++ [g]
        splits := modFirst (·.mask == v.split.mask) (fun sp => { sp with wait := .regang }) w.splits }
      if v.warp.groupFull g then .ok (s.releaseGroup v.team.uid v.warp.num g)
      else if limit = 0 then
        .ok { s with plan := s.plan ++ [.event (.regangTimeout v.team.uid v.warp.num v.pc v.split.parent)] }
      else .ok s
    else .ok (s.skip v 8)

def execRegangTimeout (team warp : Nat) (pc : Addr) (parent : Nat) (s : State) : Host.Outcome State Fault Refusal :=
  match (s.team? team).bind (·.warp? warp) with
  | none => .next s
  | some w =>
    match w.groups.find? fun g => g.pc == pc && g.parent == parent && w.groupDue s.clock g with
    | some g => .next (s.releaseGroup team warp g)
    | none => .next s

end Sys2Proof.Machine
end

