-- ==== Sys2Proof/Machine/LaneInt.lean ====
section
/-!
DEFINITION. The integer lane instructions (spec/11 R167 to R177).
-/

namespace Sys2Proof.Machine

/-! ## Arithmetic on elements (R168) -/

def intVal (uns : Bool) (w x : Nat) : Int := if uns then (x % 2 ^ w : Nat) else signedOf w x

/-- Narrow an exact result to w bits: saturating, with SAT, or wrapping. -/
def narrowInt (sat uns : Bool) (w : Nat) (x : Int) : Nat × Word :=
  let fmt := (w, !uns)
  if sat && decide (x > intMax fmt) then (wrapNat w (intMax fmt), flagSAT)
  else if sat && decide (x < intMin fmt) then (wrapNat w (intMin fmt), flagSAT)
  else (wrapNat w x, 0)

inductive IntOp where
  | add | sub | mul | mad | min | max | abs
  deriving DecidableEq, Repr

def IntOp.eval : IntOp → Int → Int → Int → Int
  | .add, a, b, _ => a + b
  | .sub, a, b, _ => a - b
  | .mul, a, b, _ => a * b
  | .mad, a, b, c => a * b + c
  | .min, a, b, _ => if a ≤ b then a else b
  | .max, a, b, _ => if a ≤ b then b else a
  | .abs, a, _, _ => if a < 0 then -a else a

/-- One lane: every element of the width that W selects. -/
def intLane (op : IntOp) (f : LR) (v : View) (l : Nat) : LaneOut :=
  let w := elemBits f.w
  let outs := (List.range (elemCount f.w)).map fun i =>
    let a := intVal f.uns w (v.elem f.w f.va l i)
    let b := if op = .abs then 0 else intVal f.uns w (v.elemB f l i)
    let c := if op = .mad then intVal f.uns w (v.elem f.w f.vc l i) else 0
    let x := op.eval a b c
    if op = .mul && f.hi then (wrapNat 32 (x / (2 ^ 32 : Nat)), 0) else narrowInt f.sat f.uns w x
  { vs := writesOf f.w f.vd (packElems w (outs.map (·.1))), flags := outs.foldl (fun g o => g ||| o.2) 0 }

def execIadd (f : LR) (s : State) := s.lrOp (.iadd f) f (intLane .add f)
def execIsub (f : LR) (s : State) := s.lrOp (.isub f) f (intLane .sub f)
def execImul (f : LR) (s : State) := s.lrOp (.imul f) f (intLane .mul f)
def execImad (f : LR) (s : State) := s.lrOp (.imad f) f (intLane .mad f)
def execImin (f : LR) (s : State) := s.lrOp (.imin f) f (intLane .min f)
def execImax (f : LR) (s : State) := s.lrOp (.imax f) f (intLane .max f)
def execIabs (f : LR) (s : State) := s.lrOp (.iabs f) f (intLane .abs f)
def execIabsLu (f : LU) (s : State) := s.luOp (.iabsLu f) (intLane .abs (LU.asLR f))

/-! ## Shifts (R169) -/

inductive ShiftOp where
  | shl | shr | sar
  deriving DecidableEq, Repr

/-- Shift a w-bit value by a count; a count of w or more leaves zero or the sign. -/
def ShiftOp.eval (op : ShiftOp) (w a n : Nat) : Nat :=
  match op with
  | .shl => if n < w then a * 2 ^ n % 2 ^ w else 0
  | .shr => if n < w then a % 2 ^ w / 2 ^ n else 0
  | .sar => wrapNat w (signedOf w a / (2 ^ min n w : Nat))

def shiftLane (op : ShiftOp) (f : LR) (v : View) (l : Nat) : LaneOut :=
  let w := elemBits f.w
  let outs := (List.range (elemCount f.w)).map fun i =>
    op.eval w (v.elem f.w f.va l i) (v.elemB f l i % 256)
  { vs := writesOf f.w f.vd (packElems w outs) }

def execShl (f : LR) (s : State) := s.lrOp (.shl f) f (shiftLane .shl f)
def execShr (f : LR) (s : State) := s.lrOp (.shr f) f (shiftLane .shr f)
def execSar (f : LR) (s : State) := s.lrOp (.sar f) f (shiftLane .sar f)

/-! ## Bits (R170 to R173) -/

/-- 32-bit or 64-bit operands a, b and c. -/
def View.wideA (v : View) (f : LR) (l : Nat) : Nat := v.elem f.w f.va l 0
def View.wideB (v : View) (f : LR) (l : Nat) : Nat := v.elemB f l 0
def View.wideC (v : View) (f : LR) (l : Nat) : Nat := v.elem f.w f.vc l 0

/-- A number of n bits from a function of the bit position. -/
def bitsFrom (n : Nat) (f : Nat → Bool) : Nat := (List.range n).foldl (fun x j => if f j then x + 2 ^ j else x) 0

/-- The three-input table of R170. -/
def lut3 (table : Nat) (a b c : Bool) : Bool := table.testBit (4 * c.toNat + 2 * b.toNat + a.toNat)

def blutLane (f : LR) (v : View) (l : Nat) : LaneOut :=
  let a := v.wideA f l
  let b := v.wideB f l
  let c := v.wideC f l
  { vs := writesOf f.w f.vd (bitsFrom (elemBits f.w) fun j => lut3 f.s.toNat (a.testBit j) (b.testBit j) (c.testBit j)) }

def execBlut (f : LR) (s : State) := s.lrOp (.blut f) f (blutLane f)

def popCount (w a : Nat) : Nat := ((List.range w).filter fun j => a.testBit j).length
def leadingZeros (w a : Nat) : Nat := if a % 2 ^ w = 0 then w else w - 1 - Nat.log2 (a % 2 ^ w)
def bitReverse (w a : Nat) : Nat := bitsFrom w fun j => a.testBit (w - 1 - j)

inductive BitOp where
  | popc | clz | brev
  deriving DecidableEq, Repr

def BitOp.eval : BitOp → Nat → Nat → Nat
  | .popc, w, a => popCount w a
  | .clz, w, a => leadingZeros w a
  | .brev, w, a => bitReverse w a

def bitLane (op : BitOp) (f : LR) (v : View) (l : Nat) : LaneOut :=
  { vs := writesOf f.w f.vd (op.eval (elemBits f.w) (v.wideA f l)) }

def execPopc (f : LR) (s : State) := s.lrOp (.popc f) f (bitLane .popc f)
def execPopcLu (f : LU) (s : State) := s.luOp (.popcLu f) (bitLane .popc (LU.asLR f))
def execClz (f : LR) (s : State) := s.lrOp (.clz f) f (bitLane .clz f)
def execClzLu (f : LU) (s : State) := s.luOp (.clzLu f) (bitLane .clz (LU.asLR f))
def execBrev (f : LR) (s : State) := s.lrOp (.brev f) f (bitLane .brev f)
def execBrevLu (f : LU) (s : State) := s.luOp (.brevLu f) (bitLane .brev (LU.asLR f))

/-- BFE of a w-bit value: a field of min(len, w) bits at pos, whose bits beyond w are zero or the sign. -/
def bfe (w a pos len : Nat) (uns : Bool) : Nat :=
  let n := min len w
  if n = 0 then 0
  else
    let fld := bitsFrom n fun k => if pos + k < w then a.testBit (pos + k) else !uns && a.testBit (w - 1)
    if uns then fld else wrapNat w (signedOf n fld)

/-- BFI of the low bits of a into base c at pos; bits beyond w are dropped. -/
def bfi (w a c pos len : Nat) : Nat :=
  let n := min len w
  bitsFrom w fun j => if pos ≤ j && j < pos + n then a.testBit (j - pos) else c.testBit j

def bfeLane (f : LR) (v : View) (l : Nat) : LaneOut :=
  let ctl := (v.b32 f l).toNat
  { vs := writesOf f.w f.vd (bfe (elemBits f.w) (v.wideA f l) (ctl % 256) (ctl / 256 % 256) f.uns) }

def bfiLane (f : LR) (v : View) (l : Nat) : LaneOut :=
  let ctl := (v.b32 f l).toNat
  { vs := writesOf f.w f.vd (bfi (elemBits f.w) (v.wideA f l) (v.wideC f l) (ctl % 256) (ctl / 256 % 256)) }

def execBfe (f : LR) (s : State) := s.lrOp (.bfe f) f (bfeLane f)
def execBfi (f : LR) (s : State) := s.lrOp (.bfi f) f (bfiLane f)

/-- A predicate in bits [2:0] with its negation in bit 3. -/
def View.pField (v : View) (x : BitVec 8) (l : Nat) : Bool :=
  v.warp.p (x.extractLsb' 0 3).toNat l != x.getLsbD 3

def selLane (f : LR) (v : View) (l : Nat) : LaneOut :=
  { vs := writesOf f.w f.vd (if v.pField f.vc l then v.wideA f l else v.wideB f l) }

def execSel (f : LR) (s : State) := s.lrOp (.sel f) f (selLane f)

/-! ## Compare (R174) -/

/-- Relations 0 to 5: EQ, NE, LT, LE, GT, GE. -/
def relOf (rel : Nat) (o : Ordering) : Bool :=
  match rel with
  | 0 => o == .eq
  | 1 => o != .eq
  | 2 => o == .lt
  | 3 => o != .gt
  | 4 => o == .gt
  | _ => o != .lt

/-- The combine field: none, AND, OR, XOR with the predicate. -/
def combine (mode : Nat) (x p : Bool) : Bool :=
  match mode with
  | 0 => x
  | 1 => x && p
  | 2 => x || p
  | _ => x != p

def icmpLane (f : LR) (v : View) (l : Nat) : LaneOut :=
  let w := elemBits f.w
  let r := relOf (f.s.extractLsb' 0 3).toNat (compare (intVal f.uns w (v.wideA f l)) (intVal f.uns w (v.wideB f l)))
  { ps := [((f.vd.extractLsb' 0 3).toNat, combine (f.s.extractLsb' 4 2).toNat r (v.pField f.vc l))] }

def execIcmp (f : LR) (s : State) := s.lrOp (.icmp f) f (icmpLane f)

/-! ## LEA, IDOT4, CLMUL (R175 to R177) -/

def leaLane (f : LR) (v : View) (l : Nat) : LaneOut :=
  let sh := 2 ^ (f.s.extractLsb' 0 3).toNat
  let a := (v.vec f.va l).toNat
  let x : Int := if f.uns || f.w != 2 then a else signedOf 32 a
  { vs := writesOf f.w f.vd (wrapNat (elemBits f.w) ((v.wideB f l : Nat) + x * (sh : Nat))) }

def execLea (f : LR) (s : State) := s.lrOp (.lea f) f (leaLane f)

def idot4Lane (f : LR) (v : View) (l : Nat) : LaneOut :=
  let x := (List.range 4).foldl (fun x i =>
    x + intVal f.uns 8 (v.elem 3 f.va l i) * intVal f.hi 8 (v.elemB f l i)) (signedOf 32 (v.vec f.vc l).toNat)
  let r := narrowInt f.sat false 32 x
  { vs := writesOf 0 f.vd r.1, flags := r.2 }

def execIdot4 (f : LR) (s : State) := s.lrOp (.idot4 f) f (idot4Lane f)

/-- The carry-less product of two 32-bit values. -/
def clmul (a b : Nat) : Nat := (List.range 32).foldl (fun x i => if b.testBit i then x ^^^ (a * 2 ^ i) else x) 0

def clmulLane (f : LR) (v : View) (l : Nat) : LaneOut :=
  let x := clmul (v.vec f.va l).toNat (v.b32 f l).toNat
  { vs := writesOf 0 f.vd (if f.hi then x / 2 ^ 32 else x) }

def execClmul (f : LR) (s : State) := s.lrOp (.clmul f) f (clmulLane f)

end Sys2Proof.Machine
end

