-- ==== Sys2Proof/Machine/Trans.lean ====
section
/-!
DEFINITION. The functions of spec/11 R185, correctly rounded. A result that is no dyadic number is held as a surrogate:
its value cut below 2^-640, or after about a hundred significant bits, with the last bit set. The surrogate lies between
the same two rounding boundaries as the exact value, so it rounds the same way and is inexact (log 14).
-/

namespace Sys2Proof.Machine

/-- Fraction bits of the fixed-point series. -/
def fixP : Nat := 640

/-- π at 640+192 fraction bits, ln 2 and log2 e at 640. -/
def piFix : Nat := 0x3243f6a8885a308d313198a2e03707344a4093822299f31d0082efa98ec4e6c89452821e638d01377be5466cf34e90c6cc0ac29b7c97c50dd3f84d5b5b54709179216d5d98979fb1bd1310ba698dfb5ac2ffd72dbd01adfb7b8e1afed6a267e96ba7c9045f12c7f99
def ln2Fix : Nat := 0xb17217f7d1cf79abc9e3b39803f2f6af40f343267298b62d8a0d175b8baafa2be7b876206debac98559552fb4afa1b10ed2eae35c138214427573b291169b8253e96ca16224ae8c51acbda11317c387e
def log2eFix : Nat := 0x171547652b82fe1777d0ffda0d23a7d11d6aef551bad2b4b1164a2cd9a342648fbc3887eeaa2ed9ac49b25eeb82d7c167d52173cc1895213f897f5e06a7be73665fc529264c2fb3ab643687aaf3ab440d

/-- A fixed-point value that is not exact, as a surrogate. -/
def sticky (neg : Bool) (x : Nat) (p : Nat := fixP) : FVal := .num ⟨neg, if x % 2 = 0 then x + 1 else x, -(p : Int)⟩

/-- floor of the square root of n < 4^k. -/
def isqrt (n : Nat) : Nat → Nat → Nat
  | 0, r => r
  | k + 1, r => if (r + 2 ^ k) * (r + 2 ^ k) ≤ n then isqrt n k (r + 2 ^ k) else isqrt n k r

def bitLen (n : Nat) : Nat := if n = 0 then 0 else Nat.log2 n + 1

/-- √(m · 2^e) for m ≠ 0. -/
def sqrtVal (d : Dy) : FVal :=
  let odd := d.e % 2 != 0
  let m := if odd then 2 * d.m else d.m
  let e := if odd then d.e - 1 else d.e
  let n := m * pow2 200
  let r := isqrt n (bitLen n / 2 + 1) 0
  let r' := if r * r = n || r % 2 = 1 then r else r + 1
  .num ⟨false, r', e / 2 - 100⟩

/-- 1 / √(m · 2^e) for m ≠ 0. -/
def rsqrtVal (d : Dy) : FVal :=
  let odd := d.e % 2 != 0
  let m := if odd then 2 * d.m else d.m
  let e := if odd then d.e - 1 else d.e
  let t := pow2 300 / m
  let r := isqrt t 151 0
  let exact := r * r * m = pow2 300
  .num ⟨false, if exact || r % 2 = 1 then r else r + 1, -(e / 2) - 150⟩

/-- 1 / (±m · 2^e) for m ≠ 0. -/
def recipVal (d : Dy) : FVal :=
  let q := pow2 200 / d.m
  .num ⟨d.neg, if q * d.m = pow2 200 || q % 2 = 1 then q else q + 1, -d.e - 200⟩

/-! ## Series -/

/-- Σ t^k / k! from k on, with term the current term; t and the sum at fixP. -/
def expSeries (t : Nat) : Nat → Nat → Nat → Nat → Nat
  | 0, _, _, acc => acc
  | fuel + 1, k, term, acc =>
    let term' := term * t / (k * pow2 fixP)
    expSeries t fuel (k + 1) term' (acc + term')

/-- e^t for 0 ≤ t < 1 at fixP. -/
def expFix (t : Nat) : Nat := expSeries t 140 1 (pow2 fixP) (pow2 fixP)

/-- Alternating series with factors (k)(k+1): sine from x, cosine from 1; t2 = x². -/
def altSeries (t2 : Nat) : Nat → Nat → Nat → Int → Bool → Int
  | 0, _, _, acc, _ => acc
  | fuel + 1, k, term, acc, plus =>
    let term' := term * t2 / (pow2 fixP * (k * (k + 1)))
    altSeries t2 fuel (k + 2) term' (if plus then acc + term' else acc - term') (!plus)

def sinFix (x : Nat) : Int := altSeries (x * x / pow2 fixP) 90 2 x x false
def cosFix (x : Nat) : Int := altSeries (x * x / pow2 fixP) 90 1 (pow2 fixP) (pow2 fixP) false

/-- Σ z^(2k+1) / (2k+1), that is atanh z. -/
def atanhSeries (z2 : Nat) : Nat → Nat → Nat → Nat → Nat
  | 0, _, _, acc => acc
  | fuel + 1, k, pw, acc =>
    let pw' := pw * z2 / pow2 fixP
    atanhSeries z2 fuel (k + 2) pw' (acc + pw' / k)

/-- ln of a fixed-point value from 1 to 2. -/
def lnFix (x : Nat) : Nat :=
  let one := pow2 fixP
  let z := (x - one) * one / (x + one)
  2 * atanhSeries (z * z / one) 210 3 z z

/-- Floor of a value at 2^-p. -/
def Dy.fixAt (d : Dy) (p : Nat) : Int :=
  let sh := d.e + p
  let n : Nat := if 0 ≤ sh then shiftUp d.m sh else d.m / pow2 (-sh).toNat
  if d.neg then -n else n

/-- 2^y for a fixed-point y. -/
def exp2Fix (y : Int) : FVal :=
  let one : Int := pow2 fixP
  let n := y / one
  let f := (y % one).toNat
  match sticky false (expFix (f * ln2Fix / pow2 fixP)) with
  | .num d => .num { d with e := d.e + n }
  | v => v

/-- Values too far out for the series: beyond every format, or below every format. -/
def huge (neg : Bool) : FVal := .num ⟨neg, 1, 4000⟩
def tiny (neg : Bool) : FVal := .num ⟨neg, 1, -4000⟩

/-- |d| ≥ n. -/
def Dy.magGe (d : Dy) (n : Nat) : Bool := atLeast (d.magCmp n 0)

def exp2Val (d : Dy) : FVal :=
  if d.magGe 1024 then (if d.neg then tiny false else huge false)
  else if 0 ≤ d.e || d.m % pow2 (-d.e).toNat = 0 then .num ⟨false, 1, d.fixAt 0⟩
  else exp2Fix (d.fixAt fixP)

def log2Val (d : Dy) : FVal :=
  let k := d.top
  let len := Nat.log2 d.m
  if d.m = pow2 len then .num (Dy.ofInt k 0)
  else
    let x := d.m * pow2 fixP / pow2 len
    let r : Int := k * (pow2 fixP : Nat) + (lnFix x * log2eFix / pow2 fixP : Nat)
    sticky (decide (r < 0)) r.natAbs

/-- Quadrant and remainder of |d| modulo π/2, the remainder at fixP. -/
def reduceHalfPi (d : Dy) : Nat × Nat :=
  let x := (d.fixAt (fixP + 191)).natAbs
  let q := x / (piFix / 4)
  (q, (x - q * (piFix / 4)) / pow2 191)

def sinVal (d : Dy) : FVal :=
  let (q, r) := reduceHalfPi d
  let v := if q % 2 = 0 then sinFix r else cosFix r
  let neg := d.neg != (q % 4 ≥ 2)
  sticky neg v.natAbs

def cosVal (d : Dy) : FVal :=
  let (q, r) := reduceHalfPi d
  let v := if q % 2 = 0 then cosFix r else sinFix r
  sticky (q % 4 == 1 || q % 4 == 2) v.natAbs

/-- e^x for |x| < 512, at fixP; x at fixP. -/
def expAt (x : Int) : Nat :=
  let y := x * (log2eFix : Nat) / (pow2 fixP : Nat)
  let one : Int := pow2 fixP
  let n := y / one
  let m := expFix ((y % one).toNat * ln2Fix / pow2 fixP)
  if 0 ≤ n then m * pow2 n.toNat else m / pow2 (-n).toNat

def tanhVal (d : Dy) : FVal :=
  let one := pow2 fixP
  if d.magGe 200 then sticky d.neg (one - 1)
  else
    let e := expAt (2 * (d.fixAt fixP).natAbs)
    sticky d.neg ((e - one) * one / (e + one))

def sigmoidVal (d : Dy) : FVal :=
  let one := pow2 fixP
  if d.magGe 200 then (if d.neg then tiny false else sticky false (one - 1))
  else
    let e := expAt (-(d.fixAt fixP))
    sticky false (one * one / (one + e))

/-- The functions of spec/11 R185. -/
inductive UFun where
  | rcp | rsq | sqrt | ex2 | lg2 | sin | cos | tanh | sgm
  deriving DecidableEq, Repr

/-- The value of a function at a number or an infinity, with DZ and INV. -/
def UFun.eval : UFun → FVal → FVal × Word
  | _, .nan s => (.nan false, flagIf s flagINV)
  | .rcp, .inf n => (.num ⟨n, 0, 0⟩, 0)
  | .rcp, .num d => if d.m = 0 then (.inf d.neg, flagDZ) else (recipVal d, 0)
  | .rsq, .inf n => if n then (.nan false, flagINV) else (.num ⟨false, 0, 0⟩, 0)
  | .rsq, .num d =>
    if d.m = 0 then (.inf d.neg, flagDZ) else if d.neg then (.nan false, flagINV) else (rsqrtVal d, 0)
  | .sqrt, .inf n => if n then (.nan false, flagINV) else (.inf false, 0)
  | .sqrt, .num d => if d.m = 0 then (.num d, 0) else if d.neg then (.nan false, flagINV) else (sqrtVal d, 0)
  | .ex2, .inf n => (if n then .num ⟨false, 0, 0⟩ else .inf false, 0)
  | .ex2, .num d => if d.m = 0 then (.num ⟨false, 1, 0⟩, 0) else (exp2Val d, 0)
  | .lg2, .inf n => if n then (.nan false, flagINV) else (.inf false, 0)
  | .lg2, .num d => if d.m = 0 then (.inf true, flagDZ) else if d.neg then (.nan false, flagINV) else (log2Val d, 0)
  | .sin, .inf _ => (.nan false, flagINV)
  | .sin, .num d => if d.m = 0 then (.num d, 0) else (sinVal d, 0)
  | .cos, .inf _ => (.nan false, flagINV)
  | .cos, .num d => if d.m = 0 then (.num ⟨false, 1, 0⟩, 0) else (cosVal d, 0)
  | .tanh, .inf n => (.num ⟨n, 1, 0⟩, 0)
  | .tanh, .num d => if d.m = 0 then (.num d, 0) else (tanhVal d, 0)
  | .sgm, .inf n => (if n then .num ⟨false, 0, 0⟩ else .num ⟨false, 1, 0⟩, 0)
  | .sgm, .num d => if d.m = 0 then (.num ⟨false, 1, -1⟩, 0) else (sigmoidVal d, 0)

def Fmt.opFun (f : Fmt) (u : UFun) (c : RCtl) (a : Nat) : Nat × Word :=
  let (v, g) := u.eval (f.decode (ftzIn f c.ftz a))
  let (x, h) := ftzOut f c.ftz (f.finish c.mode c.sat v)
  (x, g ||| h)

end Sys2Proof.Machine
end

