-- ==== Sys2Proof/Machine/LaneFp.lean ====
section
/-!
DEFINITION. The floating-point lane instructions (spec/11 R178 to R186).
-/

namespace Sys2Proof.Machine

/-- FP32 under W = 00; FP16 or, under B, BF16 halves under W = 01 (R180). -/
def lrFmt (f : LR) : Fmt := if f.w = 0 then fp32 else if f.uns then bf16 else fp16

/-- Rounding control of a floating-point lane instruction; FTZ acts under W = 00 alone (R186). -/
def View.lrCtl (v : View) (f : LR) : RCtl := rctl v.team.fctl f.rnd f.sat (f.w == 0)

/-- One lane: a function of the elements of a, b and c for each element. -/
def fpLane (f : LR) (v : View) (l : Nat) (g : Nat → Nat → Nat → Nat × Word) (useB useC : Bool) : LaneOut :=
  let n := elemBits f.w
  let outs := (List.range (elemCount f.w)).map fun i =>
    g (v.elem f.w f.va l i) (if useB then v.elemB f l i else 0) (if useC then v.elem f.w f.vc l i else 0)
  { vs := writesOf f.w f.vd (packElems n (outs.map (·.1))), flags := outs.foldl (fun a o => a ||| o.2) 0 }

def execFadd (f : LR) (s : State) :=
  s.lrOp (.fadd f) f fun v l => fpLane f v l (fun a b _ => (lrFmt f).opAdd (v.lrCtl f) a b) true false
def execFsub (f : LR) (s : State) :=
  s.lrOp (.fsub f) f fun v l => fpLane f v l (fun a b _ => (lrFmt f).opSub (v.lrCtl f) a b) true false
def execFmul (f : LR) (s : State) :=
  s.lrOp (.fmul f) f fun v l => fpLane f v l (fun a b _ => (lrFmt f).opMul (v.lrCtl f) a b) true false
def execFfma (f : LR) (s : State) :=
  s.lrOp (.ffma f) f fun v l => fpLane f v l (fun a b c => (lrFmt f).opFma (v.lrCtl f) a b c) true true
def execFmin (f : LR) (s : State) :=
  s.lrOp (.fmin f) f fun v l => fpLane f v l (fun a b _ => (lrFmt f).opMinMax false a b) true false
def execFmax (f : LR) (s : State) :=
  s.lrOp (.fmax f) f fun v l => fpLane f v l (fun a b _ => (lrFmt f).opMinMax true a b) true false
def execFclass (f : LR) (s : State) :=
  s.lrOp (.fclass f) f fun v l => fpLane f v l (fun a _ _ => ((lrFmt f).classBits a, 0)) false false
def execFrnd (f : LR) (s : State) :=
  s.lrOp (.frnd f) f fun v l => fpLane f v l (fun a _ _ => (lrFmt f).opRnd (v.lrCtl f) a) false false

/-! ## Compare (R182) -/

/-- The result of a relation and whether it sets INV. -/
def fcmpRel (rel : Nat) (unord : Bool) (a b : FVal) : Bool × Word :=
  let snan := a.isSnan || b.isSnan
  let nan := a.isNan || b.isNan
  match rel with
  | 6 => (!nan, flagIf snan flagINV)
  | 7 => (nan, flagIf snan flagINV)
  | _ =>
    match fCmp a b with
    | some o => (relOf rel o, 0)
    | none => (unord, flagIf (snan || (decide (2 ≤ rel) && !unord)) flagINV)

def fcmpLane (f : LR) (v : View) (l : Nat) : LaneOut :=
  let r := fcmpRel (f.s.extractLsb' 0 3).toNat (f.s.getLsbD 3) (fp32.decode (v.wideA f l)) (fp32.decode (v.wideB f l))
  { ps := [((f.vd.extractLsb' 0 3).toNat, combine (f.s.extractLsb' 4 2).toNat r.1 (v.pField f.vc l))], flags := r.2 }

def execFcmp (f : LR) (s : State) := s.lrOp (.fcmp f) f (fcmpLane f)

/-! ## The functions of R185 -/

def funLane (u : UFun) (f : LR) (v : View) (l : Nat) : LaneOut :=
  fpLane f v l (fun a _ _ => (lrFmt f).opFun u (v.lrCtl f) a) false false

def execFrcp (f : LR) (s : State) := s.lrOp (.frcp f) f (funLane .rcp f)
def execFrcpLu (f : LU) (s : State) := s.luOp (.frcpLu f) (funLane .rcp (LU.asLR f))
def execFrsq (f : LR) (s : State) := s.lrOp (.frsq f) f (funLane .rsq f)
def execFrsqLu (f : LU) (s : State) := s.luOp (.frsqLu f) (funLane .rsq (LU.asLR f))
def execFsqrt (f : LR) (s : State) := s.lrOp (.fsqrt f) f (funLane .sqrt f)
def execFsqrtLu (f : LU) (s : State) := s.luOp (.fsqrtLu f) (funLane .sqrt (LU.asLR f))
def execFex2 (f : LR) (s : State) := s.lrOp (.fex2 f) f (funLane .ex2 f)
def execFex2Lu (f : LU) (s : State) := s.luOp (.fex2Lu f) (funLane .ex2 (LU.asLR f))
def execFlg2 (f : LR) (s : State) := s.lrOp (.flg2 f) f (funLane .lg2 f)
def execFlg2Lu (f : LU) (s : State) := s.luOp (.flg2Lu f) (funLane .lg2 (LU.asLR f))
def execFsin (f : LR) (s : State) := s.lrOp (.fsin f) f (funLane .sin f)
def execFsinLu (f : LU) (s : State) := s.luOp (.fsinLu f) (funLane .sin (LU.asLR f))
def execFcos (f : LR) (s : State) := s.lrOp (.fcos f) f (funLane .cos f)
def execFcosLu (f : LU) (s : State) := s.luOp (.fcosLu f) (funLane .cos (LU.asLR f))
def execFtanh (f : LR) (s : State) := s.lrOp (.ftanh f) f (funLane .tanh f)
def execFtanhLu (f : LU) (s : State) := s.luOp (.ftanhLu f) (funLane .tanh (LU.asLR f))
def execFsgm (f : LR) (s : State) := s.lrOp (.fsgm f) f (funLane .sgm f)
def execFsgmLu (f : LU) (s : State) := s.luOp (.fsgmLu f) (funLane .sgm (LU.asLR f))

end Sys2Proof.Machine
end

