-- ==== Sys2Proof/Machine/Cross.lean ====
section
/-!
DEFINITION. Wide extents (spec/03 R40, spec/11 R195) and the cross-lane instructions (spec/11 R196 to R203).
-/

namespace Sys2Proof.Machine

/-! ## Waiting for an extent, and the fuse -/

/-- The slices of the extents of `width` lanes that a mask touches. -/
def extentSlices (width : Nat) (mask : BitVec 8) : BitVec 8 :=
  let n := width / 4
  maskOf ((List.range 8).filter fun k => (slicesOf mask).any fun j => j / n == k / n)

def maskUnion (ps : List Split) : BitVec 8 := ps.foldl (fun m sp => m ||| sp.mask) 0

/-- Of splits that stand at one instruction, those whose extents are complete among them: a split that lacks a live slice
of an extent is left out, and with it every split that shares an extent with it. -/
def completeSplits (width : Nat) (live : BitVec 8) : Nat → List Split → List Split
  | 0, ps => ps
  | fuel + 1, ps =>
    completeSplits width live fuel (ps.filter fun sp => extentSlices width sp.mask &&& live &&& ~~~(maskUnion ps) == 0)

/-- The splits that fuse at the wide instruction at pc: every live slice of each extent that they touch is among them. -/
def Warp.readySplits (w : Warp) (width : Nat) (pc : Addr) : List Split :=
  completeSplits width w.liveSlices w.splits.length (w.splits.filter fun sp => sp.pc == pc)

/-- The instruction is ready for a split at pc. -/
def Warp.extentReady (w : Warp) (width : Nat) (pc : Addr) (sp : Split) : Bool :=
  (w.readySplits width pc).any fun a => a.mask == sp.mask

/-- The pick would issue a split within a mask of a warp. -/
def Pick.within (uid warp : Nat) (mask : BitVec 8) : Pick → Bool
  | .issue x => x.team == uid && x.warp == warp && mask.getLsbD x.slice
  | _ => false

/-- A fused split issues now, in its members' stead. -/
def State.issueFused (s : State) (uid warp : Nat) (mask : BitVec 8) : State :=
  let s := { s with plan := s.plan.filter fun p => !p.within uid warp mask }
  s.modWarp uid warp fun w => { w with
    splits := modFirst (fun sp : Split => sp.mask == mask) (fun sp => { sp with lastIssue := s.clock }) w.splits }

/-- Wait until the extents are complete, fuse the splits that wait there, and go on with the fused split; `part` is the
width that every fused slice takes at a tile collective (spec/03 R42, R43). -/
def State.gather (s : State) (v : View) (width : Nat) (part : Option Nat)
    (k : State → View → Except Trap State) : Except Trap State :=
  if width ≤ 4 then k s v
  else if !v.warp.extentReady width v.pc v.split then .ok (s.stall v 15)
  else
    let mask := maskUnion (v.warp.readySplits width v.pc)
    if mask = v.split.mask then k s v
    else
      let low := (v.warp.splitOf? (lowestBit 8 mask.toNat)).getD v.split
      let (s, differs) := s.fuseWarp v.team.uid v.warp.num v.warp mask low.parent part
      let s := (s.issueFused v.team.uid v.warp.num mask).modTeam v.team.uid (·.raise s.clock (flagIf differs flagUDIFF))
      match s.viewOf? ⟨v.team.uid, v.warp.num, lowestBit 8 mask.toNat⟩ with
      | some v => k s v
      | none => .ok s

/-- The tile width of a collective: PART of the lowest live slice of the warp (spec/03 R43). -/
def Warp.tileWidth (w : Warp) : Nat := (w.sl (lowestBit 8 w.liveSlices.toNat)).part

/-- A trap of the instruction after its fuse: the fuse stands (spec/11 R165), so the trap is taken here. -/
def State.trapHere (s : State) (v : View) (r : Except Trap State) : Except Trap State :=
  match r with
  | .ok s' => .ok s'
  | .error t => .ok (s.takeFault v t v.pc)

/-- A collective over tiles: `f` gives each participating lane's result from the lanes that participate in its tile. -/
def State.tileOp (s : State) (i : Instr) (g : LR) (collective : Bool)
    (f : View → Nat → List Nat → Nat → LaneOut) : Host.Outcome State Fault Refusal :=
  s.run i fun v =>
    let w := v.warp.tileWidth
    s.gather v w (if collective then some w else none) fun s v =>
      let part := v.part g.g g.gn
      s.trapHere v (s.commitLanes v 8 (part.map fun l => (l, f v w (part.filter fun m => m / w == l / w) l)))

/-! ## SHFL, VOTE, MATCH, BCAST (R197 to R199, R203) -/

/-- The lane a SHFL names: whether it lies in the tile, and which it is. -/
def shflSrc (mode w l j : Nat) : Bool × Nat :=
  let k := l % w
  let base := l - k
  match mode with
  | 0 => (true, base + j % w)
  | 1 => (decide (j ≤ k), l - j)
  | 2 => (decide (k + j < w), l + j)
  | _ => (true, base + (k ^^^ (j % w)))

def shflLane (f : LR) (v : View) (w : Nat) (tile : List Nat) (l : Nat) : LaneOut :=
  let (ok, src) := shflSrc (f.s.extractLsb' 0 2).toNat w l (v.b32 f l).toNat
  let valid := ok && tile.contains src
  { vs := writesOf f.w f.vd (v.wideA f (if valid then src else l)), ps := [((f.vc.extractLsb' 0 3).toNat, valid)] }

def execShfl (f : LR) (s : State) := s.tileOp (.shfl f) f true (shflLane f)

def maskLanes (ls : List Nat) : Nat := ls.foldl (fun m l => m + 2 ^ l) 0

def voteLane (f : LR) (v : View) (_w : Nat) (tile : List Nat) (_l : Nat) : LaneOut :=
  let p := v.pField f.va
  let pd := (f.vd.extractLsb' 0 3).toNat
  match f.s.toNat with
  | 0 => { ps := [(pd, tile.all p)] }
  | 1 => { ps := [(pd, tile.any p)] }
  | 2 => { ps := [(pd, tile.all p || !tile.any p)] }
  | _ => { vs := [(f.vd.toNat, BitVec.ofNat 32 (maskLanes (tile.filter p)))] }

def execVote (f : LR) (s : State) := s.tileOp (.vote f) f true (voteLane f)

def matchLane (f : LR) (v : View) (_w : Nat) (tile : List Nat) (l : Nat) : LaneOut :=
  let key := v.wideA f
  let same := tile.filter fun m => key m == key l
  let all := same.length == tile.length
  let x := if f.s = 0 then maskLanes same else if all then maskLanes tile else 0
  { vs := writesOf f.w f.vd x, ps := [((f.vc.extractLsb' 0 3).toNat, all)] }

def execMatchLanes (f : LR) (s : State) := s.tileOp (.matchLanes f) f true (matchLane f)

def bcastLane (f : LR) (v : View) (_w : Nat) (tile : List Nat) (l : Nat) : LaneOut :=
  let src := if f.s = 0 then tile.headD l else tile.getLastD l
  { vs := writesOf f.w f.vd (v.wideA f src) }

def execBcast (f : LR) (s : State) := s.tileOp (.bcast f) f false (bcastLane f)

/-! ## REDUX and SCAN (R200, R201) -/

/-- The fixed tree of FADD over positions lo to lo + 2^d − 1. -/
def faddTree (ftz : Bool) (t : Nat → Nat) : Nat → Nat → Nat × Word
  | 0, lo => (t lo, 0)
  | d + 1, lo =>
    let (a, g) := faddTree ftz t d lo
    let (b, h) := faddTree ftz t d (lo + 2 ^ d)
    let (x, k) := fp32.opAdd ⟨0, false, ftz⟩ a b
    (x, g ||| h ||| k)

/-- FMIN and FMAX over a list: numbers win over NaNs. -/
def minMaxAll (isMax : Bool) (xs : List Nat) : Nat × Word :=
  let inv := flagIf (xs.any fun x => (fp32.decode x).isSnan) flagINV
  match xs.filter fun x => !(fp32.decode x).isNan with
  | [] => (fp32.nanBits, inv)
  | a :: rest => (rest.foldl (fun m x => (fp32.opMinMax isMax m x).1) a, inv)

def reduxLane (f : LR) (v : View) (w : Nat) (tile : List Nat) (l : Nat) : LaneOut :=
  let x := fun m => (v.vec f.va m).toNat
  let ints := tile.map fun m => intVal f.uns 32 (x m)
  let fold := fun (g : Nat → Nat → Nat) (z : Nat) => tile.foldl (fun a m => g a (x m)) z
  let r : Nat × Word :=
    match f.s.toNat with
    | 0 => narrowInt f.sat false 32 (tile.foldl (fun a m => a + signedOf 32 (x m)) 0)
    | 1 => (wrapNat 32 (ints.foldl min (ints.headD 0)), 0)
    | 2 => (wrapNat 32 (ints.foldl max (ints.headD 0)), 0)
    | 3 => (fold (· &&& ·) (2 ^ 32 - 1), 0)
    | 4 => (fold (· ||| ·) 0, 0)
    | 5 => (fold (· ^^^ ·) 0, 0)
    | 6 =>
      let base := l / w * w
      faddTree (fctlFTZ v.team.fctl) (fun k => if tile.contains k then x k else 2 ^ 31) (Nat.log2 w) base
    | 7 => minMaxAll false (tile.map x)
    | _ => minMaxAll true (tile.map x)
  { vs := [(f.vd.toNat, BitVec.ofNat 32 r.1)], flags := r.2 }

def execRedux (f : LR) (s : State) := s.tileOp (.redux f) f true (reduxLane f)

/-- The operation and identity of a SCAN. -/
def scanOp (op : Nat) (uns : Bool) : (Nat → Nat → Nat) × Nat :=
  match op with
  | 0 => (fun a b => (a + b) % 2 ^ 32, 0)
  | 1 => (fun a b => if intVal uns 32 a ≤ intVal uns 32 b then a else b, if uns then 2 ^ 32 - 1 else 2 ^ 31 - 1)
  | 2 => (fun a b => if intVal uns 32 a ≤ intVal uns 32 b then b else a, if uns then 0 else 2 ^ 31)
  | 3 => ((· &&& ·), 2 ^ 32 - 1)
  | 4 => ((· ||| ·), 0)
  | _ => ((· ^^^ ·), 0)

def scanLane (f : LR) (v : View) (_w : Nat) (tile : List Nat) (l : Nat) : LaneOut :=
  let (g, z) := scanOp (f.s.extractLsb' 0 3).toNat f.uns
  let upTo := tile.filter fun m => if f.s.getLsbD 3 then m < l else m ≤ l
  { vs := [(f.vd.toNat, BitVec.ofNat 32 (upTo.foldl (fun a m => g a (v.vec f.va m).toNat) z))] }

def execScan (f : LR) (s : State) := s.tileOp (.scan f) f true (scanLane f)

/-! ## RDLANE (R202) -/

def execRdlane (f : LR) (s : State) :=
  s.run (.rdlane f) fun v => s.gather v 32 none fun s v =>
    let d := (f.vd.extractLsb' 0 6).toNat
    let src := (v.b32 f (4 * lowestBit 8 v.split.mask.toNat)).toNat % 32
    let x := v.wideA f src
    let w :=
      if (v.part f.g f.gn).isEmpty then v.warp
      else (writesOf f.w (BitVec.ofNat 8 d) x).foldl (fun w e => w.setS v.split.mask e.1 e.2) v.warp
    .ok (s.retire v w 0 8)

end Sys2Proof.Machine
end

