-- ==== Sys2Proof/Machine/Convert.lean ====
section
/-!
DEFINITION. CVT and CVTN with error feedback (spec/05 R83, spec/11 R187 to R190), and the block instructions BLKPACK
and BLKUNPK (spec/05 R66 to R72, spec/11 R191 to R194).
-/

namespace Sys2Proof.Machine

/-! ## Error feedback (spec/05 R83) -/

/-- One element of a block: its value, or none where the lane does not take part. The target gives a code, flags,
whether saturation was applied and the value of the code (none where it is not finite). -/
structure EfTarget where
  round   : FVal → Nat × Word × Option Dy
  special : FVal → Nat × Word

/-- Run the residual over a block, element by element; specials reset it. -/
def efRun (t : EfTarget) : FVal → List (Option (FVal × Bool)) → List (Option (Nat × Word))
  | _, [] => []
  | e, none :: rest => none :: efRun t e rest
  | e, some (x, escape) :: rest =>
    match x, escape with
    | .num d, false =>
      let y := fp32.decode (fp32.finish 0 false (fAdd 0 (.num d) e).1).1
      let (q, g, val) := t.round y
      let e' := match y, val with
        | .num yd, some qd => fp32.decode (fp32.finish 0 false (fAdd 0 (.num yd) (fNeg (.num qd))).1).1
        | _, _ => .num ⟨false, 0, 0⟩
      some (q, g) :: efRun t e' rest
    | _, _ => some (t.special x) :: efRun t (.num ⟨false, 0, 0⟩) rest

def zeroVal : FVal := .num ⟨false, 0, 0⟩

/-- A binary format as a target: under RNE, with or without saturation. -/
def fmtTarget (f : Fmt) (sat : Bool) : EfTarget where
  round y :=
    let (q, g) := f.narrow 0 sat y
    (q, g, if g &&& flagSAT != 0 then none else match f.decode q with | .num d => some d | _ => none)
  special x := f.narrow 0 sat x

/-! ## CVT (spec/11 R187, R188) -/

/-- The value of a source element as a number. -/
def sourceVal (code bits : Nat) : FVal :=
  if isIntCode code then .num (Dy.ofInt (intRead (intFormat code) bits) 0) else (fmtOf code).decode bits

/-- Group `grp` of g bits of a register, or the pair. -/
def readGroup (v : View) (r : BitVec 8) (l g grp : Nat) : Nat :=
  if g = 64 then (v.vec64 r l).toNat else bitsOf (v.vec r l).toNat (g * grp) g

/-- Write a group; the bits outside it keep their value. -/
def groupWrites (v : View) (r : BitVec 8) (l g grp x : Nat) : List (Nat × Word) :=
  if g = 64 then [(r.toNat, BitVec.ofNat 32 x), (r.toNat + 1, BitVec.ofNat 32 (x / 2 ^ 32))]
  else
    let old := (v.vec r l).toNat
    [(r.toNat, BitVec.ofNat 32 (old - bitsOf old (g * grp) g * 2 ^ (g * grp) + x % 2 ^ g * 2 ^ (g * grp)))]

def cvtSrc (f : LR) : Nat := (f.s.extractLsb' 0 4).toNat
def cvtDst (f : LR) : Nat := (f.s.extractLsb' 4 4).toNat

/-- The elements of a lane's source group. -/
def cvtElems (f : LR) (v : View) (l : Nat) : List Nat :=
  let n := cvtCount f.w
  let w := formatBits (cvtSrc f)
  let x := readGroup v f.va l (n * w) (f.vc.extractLsb' 0 3).toNat
  (List.range n).map fun i => bitsOf x (w * i) w

/-- What a lane writes once its elements are converted. -/
def cvtOut (f : LR) (v : View) (l : Nat) (outs : List (Nat × Word)) : LaneOut :=
  let w := formatBits (cvtDst f)
  { vs := groupWrites v f.vd l (cvtCount f.w * w) (f.vc.extractLsb' 4 3).toNat (packElems w (outs.map (·.1)))
    flags := outs.foldl (fun a o => a ||| o.2) 0 }

def cvtLane (f : LR) (v : View) (l : Nat) : LaneOut :=
  cvtOut f v l ((cvtElems f v l).map (convert (cvtSrc f) (cvtDst f) (rctl v.team.fctl f.rnd f.sat false)))

/-- Under EF, blocks of 16 lanes pass the residual on (R189). -/
def cvtEf (f : LR) (v : View) (part : List Nat) : List (Nat × LaneOut) :=
  let sat := f.sat || fctlSATDEF v.team.fctl
  let block := fun b =>
    let ins := (List.range 16).map fun i =>
      if part.contains (16 * b + i) then some (sourceVal (cvtSrc f) ((cvtElems f v (16 * b + i)).headD 0), false) else none
    (efRun (fmtTarget (fmtOf (cvtDst f)) sat) zeroVal ins).zip (List.range 16) |>.filterMap fun (o, i) =>
      o.map fun r => (16 * b + i, cvtOut f v (16 * b + i) [r])
  block 0 ++ block 1

def execCvt (f : LR) (s : State) :=
  s.run (.cvt f) fun v =>
    if f.rnd = 5 then
      s.gather v 16 none fun s v => s.trapHere v (s.commitLanes v 8 (cvtEf f v (v.part f.g f.gn)))
    else s.commitLanes v 8 ((v.part f.g f.gn).map fun l => (l, cvtLane f v l))

/-! ## CVTN (R190) -/

def cvtnLane (f : LR) (v : View) (l : Nat) : LaneOut :=
  let code := (f.s.extractLsb' 0 4).toNat
  let c := rctl v.team.fctl f.rnd f.sat false
  let srcs := if f.w = 3 then [v.vec f.va l, v.vec (f.va + 1) l, v.vec f.vb l, v.vec (f.vb + 1) l]
    else [v.vec f.va l, v.vec f.vb l]
  let outs := srcs.map fun x => convert 0 code c x.toNat
  let n := formatBits code
  let x := packElems n (outs.map (·.1))
  let flags := outs.foldl (fun a o => a ||| o.2) 0
  if code = 11 then { vs := groupWrites v f.vd l 16 (f.vc.toNat % 2) x, flags }
  else { vs := [(f.vd.toNat, BitVec.ofNat 32 x)], flags }

def execCvtn (f : LR) (s : State) := s.lrOp (.cvtn f) f (cvtnLane f)

/-! ## QB blocks (spec/05 R69 to R72) -/

/-- Magnitude bits of QB4, QB6 and QB9. -/
def qbMag (code : Nat) : Nat := if code = 6 then 2 else if code = 7 then 4 else 7

/-- Halfwords of a block in memory. -/
def blockHalfwords (code : Nat) : Nat := if code = 6 then 4 else if code = 7 then 6 else if code = 8 then 9 else 8

/-- Exponent of the grid of an element (spec/05 R70). -/
def qbGrid (e mu k : Nat) : Int := (e : Int) - 127 - mu - ((k : Int) - 1)

/-- Round a value onto a grid: the field, the flags and the value written. -/
def qbRound (mode : RMode) (k : Nat) (grid : Int) (d : Dy) : Nat × Word × Option Dy :=
  let (n, inexact) := roundNat mode d.neg d.m (d.e - grid)
  let m := min n (2 ^ k - 1)
  if m = 0 then (0, if d.m = 0 then 0 else flagUNF ||| flagINX, some ⟨false, 0, 0⟩)
  else
    ((if d.neg then 2 ^ k else 0) + m, flagIf (inexact || n != m) flagINX, some ⟨d.neg, m, grid⟩)

/-- A block: shared exponent, micro-exponents and sixteen fields. -/
structure QbBlock where
  e  : Nat
  mu : Nat
  fs : List Nat
  deriving DecidableEq, Repr

def QbBlock.image (b : QbBlock) (k : Nat) : Nat := b.e + 256 * b.mu + 65536 * packElems (k + 1) b.fs

/-- Largest finite QB value. -/
def qbLargest (k : Nat) : Dy := ⟨false, 2 ^ k - 1, qbGrid 254 0 k⟩

def Dy.abs (d : Dy) : Dy := { d with neg := false }
def Dy.lt (a b : Dy) : Bool := a.cmp b == .lt

/-- Narrow sixteen values to a block (R72); an element is none where its lane does not participate, and marked where
it escapes. -/
def qbPack (k : Nat) (mode : RMode) (sat : Bool) (xs : List (Option (FVal × Bool))) : QbBlock × Word :=
  let vals : List FVal := xs.map fun x => match x with | some (v, false) => v | _ => zeroVal
  let escs := xs.map fun x => match x with | some (_, true) => true | _ => false
  let zeros := escs.map fun b => if b then 2 ^ k else 0
  if vals.any FVal.isNan then (⟨255, 0, List.replicate 16 0⟩, flagIf (vals.any FVal.isSnan) flagINV)
  else
    let isInf := fun (v : FVal) => match v with | .inf _ => true | _ => false
    if vals.any isInf && !sat then (⟨255, 0, List.replicate 16 0⟩, flagOVF ||| flagINX)
    else
      let mags := vals.map fun v => match v with | .num d => d.abs | _ => qbLargest k
      let big : Dy := mags.foldl (fun a b => if a.lt b then b else a) ⟨false, 0, 0⟩
      if big.m = 0 then (⟨0, 0, zeros⟩, 0)
      else
        let emax := big.top
        let e := (emax + 127).toNat
        let small := mags.map fun d => d.lt ⟨false, 1, emax⟩
        let mus := (List.range 8).map fun j => small.getD (2 * j) true && small.getD (2 * j + 1) true
        let mu := bitsFrom 8 fun j => mus.getD j false
        let grid := fun i => qbGrid e (mus.getD (i / 2) false).toNat k
        let infinite := fun (v : FVal) => match v with
          | .inf neg => ((if neg then 2 ^ k else 0) + 2 ^ k - 1, flagSAT)
          | _ => (0, 0)
        let outs : List (Nat × Word) :=
          if mode = 4 then qbEf k grid zeroVal 0 xs
          else (vals.zip (List.range 16)).map fun (v, i) =>
            match v with
            | .num d => let r := qbRound mode k (grid i) d; (r.1, r.2.1)
            | v => infinite v
        let fs := (outs.zip escs).map fun (o, esc) => if esc then 2 ^ k else o.1
        (⟨e, mu, fs⟩, outs.foldl (fun a o => a ||| o.2) 0)
where
  /-- The residual of EF over a block whose exponents are fixed. -/
  qbEf (k : Nat) (grid : Nat → Int) : FVal → Nat → List (Option (FVal × Bool)) → List (Nat × Word)
    | _, _, [] => []
    | e, i, none :: rest => (0, 0) :: qbEf k grid e (i + 1) rest
    | e, i, some (x, esc) :: rest =>
      match x, esc with
      | .num d, false =>
        match fp32.decode (fp32.finish 0 false (fAdd 0 (.num d) e).1).1 with
        | .num y =>
          let r := qbRound 0 k (grid i) y
          let q := r.2.2.getD ⟨false, 0, 0⟩
          let e' := fp32.decode (fp32.finish 0 false (fAdd 0 (.num y) (fNeg (.num q))).1).1
          (r.1, r.2.1) :: qbEf k grid e' (i + 1) rest
        | .inf neg => ((if neg then 2 ^ k else 0) + 2 ^ k - 1, flagSAT) :: qbEf k grid zeroVal (i + 1) rest
        | .nan _ => (0, 0) :: qbEf k grid zeroVal (i + 1) rest
      | .inf neg, false => ((if neg then 2 ^ k else 0) + 2 ^ k - 1, flagSAT) :: qbEf k grid zeroVal (i + 1) rest
      | _, _ => (0, 0) :: qbEf k grid zeroVal (i + 1) rest

/-- The halfword that lane j of a block receives. -/
def halfword (code image j : Nat) : Nat := if j < blockHalfwords code then bitsOf image (16 * j) 16 else 0

def blkpackCode (f : LR) : Nat := (f.s.extractLsb' 0 4).toNat

/-- BLKPACK to a QB format (spec/11 R192). -/
def blkpackQb (f : LR) (v : View) (part : List Nat) : List (Nat × LaneOut) :=
  let code := blkpackCode f
  let k := qbMag code
  let c := rctl v.team.fctl f.rnd f.sat false
  let val := fun l => fp32.decode (v.vec f.va l).toNat
  let esc := fun l => f.vc.getLsbD 3 && v.warp.p (f.vc.extractLsb' 0 3).toNat l
  let block := fun b =>
    let lanes := (List.range 16).map fun i => 16 * b + i
    let (blk, flags) := qbPack k c.mode c.sat (lanes.map fun l => if part.contains l then some (val l, esc l) else none)
    let image := blk.image k
    (lanes.filter part.contains).map fun l =>
      let side := if esc l then bf16.narrow (if c.mode = 4 then 0 else c.mode) c.sat (val l) else (0, 0)
      (l, { vs := [(f.vd.toNat, BitVec.ofNat 32 (halfword code image (l % 16) + 65536 * side.1))]
            flags := flags ||| side.2 : LaneOut })
  block 0 ++ block 1

/-! ## MXFP4 (spec/05 R66, R67; spec/11 R193) -/

def dyScale (d : Dy) (k : Int) : Dy := { d with e := d.e + k }

def mxTarget (scale : Int) : EfTarget where
  round y :=
    match y with
    | .num d =>
      let (q, g) := e2m1.round 0 true (dyScale d (-scale))
      (q, g, if g &&& flagSAT != 0 then none else match e2m1.decode q with | .num r => some (dyScale r scale) | _ => none)
    | v => let r := e2m1.narrow 0 true v; (r.1, r.2, none)
  special x := e2m1.narrow 0 true x

def blkpackMx (f : LR) (v : View) (part : List Nat) : List (Nat × LaneOut) :=
  let c := rctl v.team.fctl f.rnd f.sat false
  let val := fun l => fp32.decode (v.vec f.va l).toNat
  let vals := part.map val
  let seq := (v.b32 f (part.headD 0)).toNat % 256
  let mags := vals.filterMap fun x => match x with | .num d => some d.abs | _ => none
  let m : Dy := mags.foldl (fun a b => if a.lt b then b else a) ⟨false, 0, 0⟩
  let nan := vals.any FVal.isNan
  let scale : Nat :=
    if nan then 255 else if m.m = 0 then 0 else (max (-127) (min 127 (m.top - 2)) + 127).toNat
  let sh : Int := (scale : Int) - 127
  let codes : List (Option (Nat × Word)) :=
    if nan then (List.range 32).map fun l => if part.contains l then some (0, flagIf (vals.any FVal.isSnan) flagINV) else none
    else
      let ins := (List.range 32).map fun l => if part.contains l then some (val l, false) else none
      if c.mode = 4 then efRun (mxTarget sh) zeroVal (ins.take 16) ++ efRun (mxTarget sh) zeroVal (ins.drop 16)
      else ins.map fun x => x.map fun (x, _) =>
        match x with
        | .num d => e2m1.round c.mode true (dyScale d (-sh))
        | x => e2m1.narrow c.mode true x
  let image := packElems 4 (codes.map fun o => (o.map (·.1)).getD 0)
  part.map fun l =>
    (l, { vs := [(f.vd.toNat, BitVec.ofNat 32 (halfword 5 image l + 65536 * (scale + 256 * seq)))]
          flags := ((codes.getD l none).map (·.2)).getD 0 : LaneOut })

def execBlkpack (f : LR) (s : State) :=
  s.run (.blkpack f) fun v =>
    let mx := blkpackCode f = 5
    s.gather v (if mx then 32 else 16) none fun s v =>
      let part := v.part f.g f.gn
      s.trapHere v (s.commitLanes v 8 (if mx then blkpackMx f v part else blkpackQb f v part))

/-! ## BLKUNPK (spec/11 R194) -/

/-- The value of a QB element with field x, or none for an escape. -/
def qbValue (k e mu x : Nat) : Option Dy :=
  let mag := x % 2 ^ k
  let neg := x / 2 ^ k % 2 == 1
  if neg && mag = 0 then none else some ⟨neg, mag, qbGrid e mu k⟩

/-- Element j of a block image: its micro-exponent and field. -/
def qbField (k image j : Nat) : Nat × Nat := (bitsOf image (8 + j / 2) 1, bitsOf image (16 + (k + 1) * j) (k + 1))

def blkunpkQb (f : LR) (v : View) (part : List Nat) : List (Nat × LaneOut) :=
  let code := blkpackCode f
  let k := qbMag code
  let image := fun b => packElems 16 ((List.range (blockHalfwords code)).map fun h => (v.vec f.va (16 * b + h)).toNat % 65536)
  let touched := fun b => (slicesOf v.split.mask).any fun i => i / 4 == b
  let images := [image 0, image 1]
  let img := fun l => images.getD (l / 16) 0
  let isEsc := fun l =>
    touched (l / 16) && img l % 256 != 255 && (qbValue k (img l % 256) 0 (qbField k (img l) (l % 16)).2).isNone
  let escs := (List.range 32).filter isEsc
  part.map fun l =>
    let e := img l % 256
    let (mu, x) := qbField k (img l) (l % 16)
    let r : Nat × Word :=
      if e = 255 then (fp32.nanBits, 0)
      else
        match qbValue k e mu x with
        | some d => fp32.round (rndMode v.team.fctl f.rnd) (f.sat || fctlSATDEF v.team.fctl) d
        | none =>
          let n := escs.idxOf l
          if n < f.vc.toNat then widen32 1 ((v.vec f.vb n).toNat % 65536) else (0, flagESCX)
    (l, { vs := [(f.vd.toNat, BitVec.ofNat 32 r.1)], flags := r.2 : LaneOut })

def blkunpkMx (f : LR) (v : View) (part : List Nat) : List (Nat × LaneOut) :=
  let image := packElems 16 ((List.range 8).map fun h => (v.vec f.va h).toNat % 65536)
  let scale := (v.vec f.va 0).toNat / 65536 % 256
  part.map fun l =>
    let r : Nat × Word :=
      if scale = 255 then (fp32.nanBits, 0)
      else
        match e2m1.decode (bitsOf image (4 * l) 4) with
        | .num d => fp32.round (rndMode v.team.fctl f.rnd) (f.sat || fctlSATDEF v.team.fctl) (dyScale d ((scale : Int) - 127))
        | _ => (fp32.nanBits, 0)
    (l, { vs := [(f.vd.toNat, BitVec.ofNat 32 r.1)], flags := r.2 : LaneOut })

def execBlkunpk (f : LR) (s : State) :=
  s.run (.blkunpk f) fun v =>
    let mx := blkpackCode f = 5
    s.gather v (if mx then 32 else 16) none fun s v =>
      let part := v.part f.g f.gn
      s.trapHere v (s.commitLanes v 8 (if mx then blkunpkMx f v part else blkunpkQb f v part))

end Sys2Proof.Machine
end

