-- ==== Sys2Proof/Machine/Riscv.lean ====
section
/-!
DEFINITION. The user-mode instructions of a Sorghum core (spec/25 R359): RV64IMAFDC with Zicsr, Zifencei, Zba and Zbb, as
the RISC-V manuals give them (log 60). An instruction is worked out on the registers alone; what it asks of memory or of
the supervisor is an RvAct.
-/

namespace Sys2Proof.Machine

/-- A double-word register. -/
abbrev DWord := BitVec 64

/-! ## Registers -/

/-- An integer register: x0 reads 0 and discards writes. -/
def Episode.x (e : Episode) (r : Nat) : DWord := if r = 0 then 0 else e.xs.getD r 0
def Episode.setX (e : Episode) (r : Nat) (v : DWord) : Episode :=
  if r = 0 then e else { e with xs := modNth (fun _ => v) r e.xs }

/-- A floating-point register; a single is boxed in ones. -/
def Episode.f (e : Episode) (r : Nat) : DWord := e.fs.getD r 0
def Episode.setF (e : Episode) (r : Nat) (v : DWord) : Episode := { e with fs := modNth (fun _ => v) r e.fs }

def boxed (v : Nat) : DWord := BitVec.ofNat 64 (0xFFFFFFFF * 2 ^ 32 + v % 2 ^ 32)

/-- A register read in a format: a single that is not boxed is the canonical NaN. -/
def Episode.fread (e : Episode) (double : Bool) (r : Nat) : Nat :=
  let v := (e.f r).toNat
  if double then v else if v / 2 ^ 32 = 0xFFFFFFFF then v % 2 ^ 32 else fp32.nanBits

def Episode.fwrite (e : Episode) (double : Bool) (r v : Nat) : Episode :=
  e.setF r (if double then BitVec.ofNat 64 v else boxed v)

/-! ## Integer operations -/

/-- A word result, sign-extended. -/
def sextW (v : DWord) : DWord := (v.truncate 32).signExtend 64

def divS (w : Nat) (a b : Int) : Int := if b = 0 then -1 else if a = -(2 ^ (w - 1) : Nat) && b == -1 then a else Int.tdiv a b
def remS (a b : Int) : Int := if b = 0 then a else Int.tmod a b

/-- The M operations on w-bit numbers. -/
def mulDiv (w f3 a b : Nat) : Nat :=
  let sa := signedOf w a
  let sb := signedOf w b
  match f3 with
  | 0 => a * b % 2 ^ w
  | 1 => wrapNat w (sa * sb / (2 ^ w : Nat))
  | 2 => wrapNat w (sa * (b : Int) / (2 ^ w : Nat))
  | 3 => a * b / 2 ^ w
  | 4 => wrapNat w (divS w sa sb)
  | 5 => if b = 0 then 2 ^ w - 1 else a / b
  | 6 => wrapNat w (remS sa sb)
  | _ => if b = 0 then a else a % b

/-- Set bits, leading zeros and trailing zeros of a w-bit number. -/
def popcount : Nat → Nat → Nat
  | 0, _ => 0
  | w + 1, v => v % 2 + popcount w (v / 2)

def trailingZeros : Nat → Nat → Nat
  | 0, _ => 0
  | w + 1, v => if v % 2 = 1 then 0 else 1 + trailingZeros w (v / 2)

/-- Register operations of 64 bits: f7, f3. -/
def rvOp (f7 f3 : Nat) (a b : DWord) : Option DWord :=
  let sh := b.toNat % 64
  match f7, f3 with
  | 0x00, 0 => some (a + b)
  | 0x00, 1 => some (a <<< sh)
  | 0x00, 2 => some (if a.slt b then 1 else 0)
  | 0x00, 3 => some (if a.ult b then 1 else 0)
  | 0x00, 4 => some (a ^^^ b)
  | 0x00, 5 => some (a >>> sh)
  | 0x00, 6 => some (a ||| b)
  | 0x00, 7 => some (a &&& b)
  | 0x20, 0 => some (a - b)
  | 0x20, 4 => some (~~~(a ^^^ b))
  | 0x20, 5 => some (a.sshiftRight sh)
  | 0x20, 6 => some (a ||| ~~~b)
  | 0x20, 7 => some (a &&& ~~~b)
  | 0x01, _ => some (BitVec.ofNat 64 (mulDiv 64 f3 a.toNat b.toNat))
  | 0x10, 2 => some ((a <<< 1) + b)
  | 0x10, 4 => some ((a <<< 2) + b)
  | 0x10, 6 => some ((a <<< 3) + b)
  | 0x05, 4 => some (if b.slt a then b else a)
  | 0x05, 5 => some (if b.ult a then b else a)
  | 0x05, 6 => some (if a.slt b then b else a)
  | 0x05, 7 => some (if a.ult b then b else a)
  | 0x30, 1 => some (a.rotateLeft sh)
  | 0x30, 5 => some (a.rotateRight sh)
  | _, _ => none

/-- Register operations on words; those of Zba that zero-extend the first operand give 64 bits. -/
def rvOpW (f7 f3 rs2 : Nat) (a b : DWord) : Option DWord :=
  let x : Word := a.truncate 32
  let sh := b.toNat % 32
  let uw : DWord := x.zeroExtend 64
  match f7, f3 with
  | 0x00, 0 => some (sextW (a + b))
  | 0x00, 1 => some ((x <<< sh).signExtend 64)
  | 0x00, 5 => some ((x >>> sh).signExtend 64)
  | 0x20, 0 => some (sextW (a - b))
  | 0x20, 5 => some ((x.sshiftRight sh).signExtend 64)
  | 0x01, _ =>
    if f3 = 0 || f3 ≥ 4 then some (sextW (BitVec.ofNat 64 (mulDiv 32 f3 x.toNat (b.toNat % 2 ^ 32)))) else none
  | 0x04, 0 => some (uw + b)
  | 0x04, 4 => if rs2 = 0 then some (BitVec.ofNat 64 (a.toNat % 2 ^ 16)) else none
  | 0x10, 2 => some ((uw <<< 1) + b)
  | 0x10, 4 => some ((uw <<< 2) + b)
  | 0x10, 6 => some ((uw <<< 3) + b)
  | 0x30, 1 => some ((x.rotateLeft sh).signExtend 64)
  | 0x30, 5 => some ((x.rotateRight sh).signExtend 64)
  | _, _ => none

/-- The operations of Zbb on one operand of w bits, by the low bits of their immediate. -/
def rvUnary (w n v : Nat) : Option Nat :=
  match n with
  | 0 => some (w - bitLen v)
  | 1 => some (trailingZeros w v)
  | 2 => some (popcount w v)
  | 4 => if w = 64 then some (wrapNat 64 (signedOf 8 v)) else none
  | 5 => if w = 64 then some (wrapNat 64 (signedOf 16 v)) else none
  | _ => none

/-- Each byte that is not zero becomes all ones; the bytes reversed. -/
def orcB (v : DWord) : DWord := BitVec.ofNat 64 (natOfBytes ((bytesOfNat 8 v.toNat).map fun b => if b = 0 then 0 else 0xFF))
def rev8 (v : DWord) : DWord := BitVec.ofNat 64 (natOfBytes (bytesOfNat 8 v.toNat).reverse)

/-- Immediate operations of 64 bits: f3 and the twelve immediate bits. -/
def rvImm (f3 imm : Nat) (a : DWord) : Option DWord :=
  let i : DWord := BitVec.ofInt 64 (signedOf 12 imm)
  let sh := imm % 64
  match f3 with
  | 0 => some (a + i)
  | 2 => some (if a.slt i then 1 else 0)
  | 3 => some (if a.ult i then 1 else 0)
  | 4 => some (a ^^^ i)
  | 6 => some (a ||| i)
  | 7 => some (a &&& i)
  | 1 =>
    if imm / 64 = 0 then some (a <<< sh)
    else if imm / 32 = 0x30 then (rvUnary 64 (imm % 32) a.toNat).map (BitVec.ofNat 64)
    else none
  | _ =>
    if imm = 0x287 then some (orcB a)
    else if imm = 0x6B8 then some (rev8 a)
    else
      match imm / 64 with
      | 0x00 => some (a >>> sh)
      | 0x10 => some (a.sshiftRight sh)
      | 0x18 => some (a.rotateRight sh)
      | _ => none

def rvImmW (f3 imm : Nat) (a : DWord) : Option DWord :=
  let x : Word := a.truncate 32
  let sh := imm % 32
  match f3, imm / 32 with
  | 0, _ => some (sextW (a + BitVec.ofInt 64 (signedOf 12 imm)))
  | 1, 0x00 => some ((x <<< sh).signExtend 64)
  | 1, 0x30 => (rvUnary 32 sh x.toNat).map fun n => BitVec.ofNat 64 n
  | 1, k => if k / 2 = 2 then some ((x.zeroExtend 64 : DWord) <<< (imm % 64)) else none
  | 5, 0x00 => some ((x >>> sh).signExtend 64)
  | 5, 0x20 => some ((x.sshiftRight sh).signExtend 64)
  | 5, 0x30 => some ((x.rotateRight sh).signExtend 64)
  | _, _ => none

/-! ## Floating-point operations -/

def fp64 : Fmt := ⟨11, 52, 1023, 2 ^ 53 - 1, 971, true⟩
def rvFmt (double : Bool) : Fmt := if double then fp64 else fp32

/-- NV, DZ, OF, UF and NX of a flag word. -/
def rvFlags (g : Word) : Byte :=
  let bit := fun (k n : Nat) => if g.getLsbD k then 2 ^ n else 0
  BitVec.ofNat 8 (bit 0 4 + bit 1 3 + bit 2 2 + bit 3 1 + bit 4 0)

def Episode.raise (e : Episode) (g : Word) : Episode := { e with fcsr := e.fcsr ||| rvFlags g }

/-- The rounding mode of an instruction: its own, or the one of frm. -/
def Episode.rounding (e : Episode) (rm : Nat) : Option RMode :=
  match if rm = 7 then e.fcsr.toNat / 32 else rm with
  | 0 => some 0
  | 1 => some 1
  | 2 => some 2
  | 3 => some 3
  | 4 => some 5
  | _ => none

/-- A quotient; what does not end is cut far below the last bit of the target, with the last bit set. -/
def fDiv (a b : FVal) : FVal × Word :=
  let inv := flagIf (a.isSnan || b.isSnan) flagINV
  match a, b with
  | .nan _, _ => (.nan false, inv)
  | _, .nan _ => (.nan false, inv)
  | .inf _, .inf _ => (.nan false, flagINV)
  | .inf x, .num y => (.inf (x != y.neg), 0)
  | .num x, .inf y => (.num ⟨x.neg != y, 0, 0⟩, 0)
  | .num x, .num y =>
    if y.m = 0 then if x.m = 0 then (.nan false, flagINV) else (.inf (x.neg != y.neg), flagDZ)
    else
      let n := x.m * 2 ^ 128
      (.num ⟨x.neg != y.neg, 2 * (n / y.m) + (if n % y.m = 0 then 0 else 1), x.e - y.e - 129⟩, 0)

def fSqrt (a : FVal) : FVal × Word :=
  match a with
  | .nan s => (.nan false, flagIf s flagINV)
  | .inf neg => if neg then (.nan false, flagINV) else (.inf false, 0)
  | .num x => if x.m = 0 then (.num x, 0) else if x.neg then (.nan false, flagINV) else (sqrtVal x, 0)

/-- A number to an integer of w bits: a number out of range, an infinity or a NaN gives the nearest bound and NV. -/
def fToInt (w : Nat) (signed : Bool) (mode : RMode) (v : FVal) : Nat × Word :=
  let fmt := (w, signed)
  match v with
  | .nan _ => (wrapNat w (intMax fmt), flagINV)
  | .inf neg => (wrapNat w (if neg then intMin fmt else intMax fmt), flagINV)
  | .num d =>
    let r := roundNat mode d.neg d.m d.e
    let n : Int := if d.neg then -r.1 else r.1
    if n > intMax fmt then (wrapNat w (intMax fmt), flagINV)
    else if n < intMin fmt then (wrapNat w (intMin fmt), flagINV)
    else (wrapNat w n, flagIf r.2 flagINX)

/-- A result with its rounding, written to a register. -/
def Episode.fput (e : Episode) (double : Bool) (rd : Nat) (mode : RMode) (r : FVal × Word) : Episode :=
  let (v, g) := (rvFmt double).finish mode false r.1
  (e.fwrite double rd v).raise (r.2 ||| g)

/-- A word or a double word as an integer register holds it. -/
def intReg (w v : Nat) : DWord := if w = 32 then sextW (BitVec.ofNat 64 v) else BitVec.ofNat 64 v

/-- The operations of OP-FP: f5, the format, rm, rd, rs1, rs2. -/
def Episode.opFp (e : Episode) (f5 : Nat) (double : Bool) (rm rd rs1 rs2 : Nat) : Option Episode :=
  let fmt := rvFmt double
  let a := e.fread double rs1
  let b := e.fread double rs2
  let va := fmt.decode a
  let vb := fmt.decode b
  let sign := 2 ^ (fmt.width - 1)
  let fput := fun (r : RMode → FVal × Word) => (e.rounding rm).map fun m => e.fput double rd m (r m)
  match f5 with
  | 0x00 => fput fun m => fAdd m va vb
  | 0x01 => fput fun m => fAdd m va (fNeg vb)
  | 0x02 => fput fun _ => fMul va vb
  | 0x03 => fput fun _ => fDiv va vb
  | 0x0B => if rs2 = 0 then fput fun _ => fSqrt va else none
  | 0x04 =>
    let s := b / sign % 2
    match rm with
    | 0 => some (e.fwrite double rd (a % sign + s * sign))
    | 1 => some (e.fwrite double rd (a % sign + (1 - s) * sign))
    | 2 => some (e.fwrite double rd (a % sign + (a / sign % 2 + s) % 2 * sign))
    | _ => none
  | 0x05 =>
    if rm > 1 then none
    else
      let r := fmt.opMinMax (rm == 1) a b
      some ((e.fwrite double rd r.1).raise r.2)
  | 0x08 =>
    if rs2 = (if double then 0 else 1) then
      (e.rounding rm).map fun m =>
        let r := fmt.narrow m false ((rvFmt (!double)).decode (e.fread (!double) rs1))
        (e.fwrite double rd r.1).raise r.2
    else none
  | 0x14 =>
    let nan := va.isNan || vb.isNan
    let inv := flagIf (if rm = 2 then va.isSnan || vb.isSnan else nan) flagINV
    let o := fCmp va vb
    let put := fun (b : Bool) => some ((e.setX rd (if b then 1 else 0)).raise inv)
    match rm with
    | 0 => put (o == some .lt || o == some .eq)
    | 1 => put (o == some .lt)
    | 2 => put (o == some .eq)
    | _ => none
  | 0x18 =>
    if rs2 > 3 then none
    else
      (e.rounding rm).map fun m =>
        let w := if rs2 < 2 then 32 else 64
        let r := fToInt w (rs2 % 2 == 0) m va
        (e.setX rd (intReg w r.1)).raise r.2
  | 0x1A =>
    if rs2 > 3 then none
    else
      (e.rounding rm).map fun m =>
        let w := if rs2 < 2 then 32 else 64
        let n := (e.x rs1).toNat % 2 ^ w
        let r := fmt.round m false (Dy.ofInt (if rs2 % 2 = 0 then signedOf w n else n) 0)
        (e.fwrite double rd r.1).raise r.2
  | 0x1C =>
    if rs2 ≠ 0 then none
    else
      match rm with
      | 0 => some (e.setX rd (intReg (if double then 64 else 32) (e.f rs1).toNat))
      | 1 => some (e.setX rd (BitVec.ofNat 64 (fmt.classBits a)))
      | _ => none
  | 0x1E => if rs2 = 0 && rm = 0 then some (e.fwrite double rd (e.x rs1).toNat) else none
  | _ => none

/-- FMADD, FMSUB, FNMSUB and FNMADD: ±(a · b) ± c. -/
def Episode.opFma (e : Episode) (op : Nat) (double : Bool) (rm rd rs1 rs2 rs3 : Nat) : Option Episode :=
  let get := fun r => (rvFmt double).decode (e.fread double r)
  let a := if op = 0x4B || op = 0x4F then fNeg (get rs1) else get rs1
  let c := if op = 0x47 || op = 0x4F then fNeg (get rs3) else get rs3
  (e.rounding rm).map fun m => e.fput double rd m (fMulAdd m a (get rs2) c)

/-! ## Control and status registers: fflags, frm and fcsr -/

def Episode.csr? (e : Episode) (n : Nat) : Option Nat :=
  match n with
  | 1 => some (e.fcsr.toNat % 32)
  | 2 => some (e.fcsr.toNat / 32)
  | 3 => some e.fcsr.toNat
  | _ => none

def Episode.setCsr (e : Episode) (n v : Nat) : Episode :=
  match n with
  | 1 => { e with fcsr := BitVec.ofNat 8 (e.fcsr.toNat / 32 * 32 + v % 32) }
  | 2 => { e with fcsr := BitVec.ofNat 8 (v % 8 * 32 + e.fcsr.toNat % 32) }
  | _ => { e with fcsr := BitVec.ofNat 8 v }

/-- CSRRW, CSRRS, CSRRC and their immediate forms; a set or clear of rs1 = 0 writes nothing. -/
def Episode.opCsr (e : Episode) (f3 csr rd rs1 : Nat) : Option Episode :=
  (e.csr? csr).map fun old =>
    let src := if f3 ≥ 4 then rs1 else (e.x rs1).toNat
    let e' := match f3 % 4 with
      | 1 => e.setCsr csr src
      | 2 => if rs1 = 0 then e else e.setCsr csr (old ||| src)
      | _ => if rs1 = 0 then e else e.setCsr csr (old - (old &&& src))
    e'.setX rd (BitVec.ofNat 64 old)

/-! ## One instruction -/

/-- What a load does with its bytes. -/
inductive RvDest where
  | signed (rd : Nat)
  | unsigned (rd : Nat)
  | float (double : Bool) (rd : Nat)
  deriving DecidableEq, Repr

/-- What an instruction does: it ends with these registers, or asks for an access, or for the supervisor. -/
inductive RvAct where
  | done (e : Episode)
  | load (va n : Nat) (dest : RvDest)
  | store (va n data : Nat)
  | amo (f5 va n src rd : Nat)
  | loadReserved (va n rd : Nat)
  | storeCond (va n src rd : Nat)
  | fence
  | ecall
  | illegal
  deriving DecidableEq, Repr

/-- The registers with the pc past the instruction. -/
def Episode.after (e : Episode) (len : Nat) : Episode := { e with pc := e.pc + BitVec.ofNat 64 len }

def rvDone (len : Nat) : Option Episode → RvAct
  | some e => .done (e.after len)
  | none => .illegal

/-- Is the branch of f3 taken; none for a reserved f3. -/
def rvBranch (f3 : Nat) (a b : DWord) : Option Bool :=
  match f3 with
  | 0 => some (a == b)
  | 1 => some (a != b)
  | 4 => some (a.slt b)
  | 5 => some (!a.slt b)
  | 6 => some (a.ult b)
  | 7 => some (!a.ult b)
  | _ => none

/-- The effect of a 32-bit instruction w of `len` bytes on the registers of an episode. -/
def Episode.rvStep (e : Episode) (w len : Nat) : RvAct :=
  let rd := bitsOf w 7 5
  let f3 := bitsOf w 12 3
  let rs1 := bitsOf w 15 5
  let rs2 := bitsOf w 20 5
  let f7 := bitsOf w 25 7
  let f5 := bitsOf w 27 5
  let a := e.x rs1
  let b := e.x rs2
  let double := bitsOf w 25 2 == 1
  let immI : DWord := BitVec.ofInt 64 (signedOf 12 (bitsOf w 20 12))
  let immS : DWord := BitVec.ofInt 64 (signedOf 12 (bitsOf w 25 7 * 32 + rd))
  let immU : DWord := BitVec.ofInt 64 (signedOf 32 (bitsOf w 12 20 * 4096))
  let immB : DWord := BitVec.ofInt 64
    (signedOf 13 (bitsOf w 31 1 * 2 ^ 12 + bitsOf w 7 1 * 2 ^ 11 + bitsOf w 25 6 * 2 ^ 5 + bitsOf w 8 4 * 2))
  let immJ : DWord := BitVec.ofInt 64
    (signedOf 21 (bitsOf w 31 1 * 2 ^ 20 + bitsOf w 12 8 * 2 ^ 12 + bitsOf w 20 1 * 2 ^ 11 + bitsOf w 21 10 * 2))
  let link := e.pc + BitVec.ofNat 64 len
  let put := fun (v : Option DWord) => rvDone len (v.map (e.setX rd))
  match w % 128 with
  | 0x37 => put (some immU)
  | 0x17 => put (some (e.pc + immU))
  | 0x6F => .done { e.setX rd link with pc := e.pc + immJ }
  | 0x67 => if f3 = 0 then .done { e.setX rd link with pc := (a + immI) &&& ~~~1#64 } else .illegal
  | 0x63 =>
    match rvBranch f3 a b with
    | some true => .done { e with pc := e.pc + immB }
    | some false => .done (e.after len)
    | none => .illegal
  | 0x03 =>
    if f3 = 7 then .illegal
    else .load (a + immI).toNat (2 ^ (f3 % 4)) (if f3 < 4 then .signed rd else .unsigned rd)
  | 0x23 => if f3 < 4 then .store (a + immS).toNat (2 ^ f3) b.toNat else .illegal
  | 0x13 => put (rvImm f3 (bitsOf w 20 12) a)
  | 0x1B => put (rvImmW f3 (bitsOf w 20 12) a)
  | 0x33 => put (rvOp f7 f3 a b)
  | 0x3B => put (rvOpW f7 f3 rs2 a b)
  | 0x0F => if f3 = 0 || f3 = 1 then .fence else .illegal
  | 0x73 =>
    if f3 % 4 = 0 then if w = 0x73 then .ecall else .illegal
    else rvDone len (e.opCsr f3 (bitsOf w 20 12) rd rs1)
  | 0x2F =>
    let n := 2 ^ f3
    if f3 = 2 || f3 = 3 then
      match f5 with
      | 0x02 => if rs2 = 0 then .loadReserved a.toNat n rd else .illegal
      | 0x03 => .storeCond a.toNat n b.toNat rd
      | _ => if [0x00, 0x01, 0x04, 0x08, 0x0C, 0x10, 0x14, 0x18, 0x1C].contains f5 then .amo f5 a.toNat n b.toNat rd else .illegal
    else .illegal
  | 0x07 => if f3 = 2 || f3 = 3 then .load (a + immI).toNat (2 ^ f3) (.float (f3 == 3) rd) else .illegal
  | 0x27 => if f3 = 2 || f3 = 3 then .store (a + immS).toNat (2 ^ f3) (e.f rs2).toNat else .illegal
  | 0x53 => if bitsOf w 25 2 < 2 then rvDone len (e.opFp f5 double f3 rd rs1 rs2) else .illegal
  | op =>
    if (op = 0x43 || op = 0x47 || op = 0x4B || op = 0x4F) && bitsOf w 25 2 < 2 then
      rvDone len (e.opFma op double f3 rd rs1 rs2 f5)
    else .illegal

/-- What an AMO stores. -/
def rvAmo (f5 n old src : Nat) : Nat :=
  let w := 8 * n
  let m := src % 2 ^ w
  match f5 with
  | 0x00 => (old + m) % 2 ^ w
  | 0x01 => m
  | 0x04 => old ^^^ m
  | 0x08 => old ||| m
  | 0x0C => old &&& m
  | 0x10 => if signedOf w old ≤ signedOf w m then old else m
  | 0x14 => if signedOf w old ≤ signedOf w m then m else old
  | 0x18 => min old m
  | _ => max old m

/-- The registers after a load of these bytes. -/
def Episode.loaded (e : Episode) (dest : RvDest) (bs : List Byte) : Episode :=
  let v := natOfBytes bs
  match dest with
  | .signed rd => e.setX rd (BitVec.ofInt 64 (signedOf (8 * bs.length) v))
  | .unsigned rd => e.setX rd (BitVec.ofNat 64 v)
  | .float double rd => e.fwrite double rd v

/-! ## Compressed instructions -/

def encI (op f3 rd rs1 imm : Nat) : Nat := imm % 4096 * 2 ^ 20 + rs1 * 2 ^ 15 + f3 * 2 ^ 12 + rd * 2 ^ 7 + op
def encR (op f3 f7 rd rs1 rs2 : Nat) : Nat := f7 * 2 ^ 25 + rs2 * 2 ^ 20 + rs1 * 2 ^ 15 + f3 * 2 ^ 12 + rd * 2 ^ 7 + op
def encS (op f3 rs1 rs2 imm : Nat) : Nat :=
  bitsOf imm 5 7 * 2 ^ 25 + rs2 * 2 ^ 20 + rs1 * 2 ^ 15 + f3 * 2 ^ 12 + imm % 32 * 2 ^ 7 + op
def encB (f3 rs1 imm : Nat) : Nat :=
  bitsOf imm 12 1 * 2 ^ 31 + bitsOf imm 5 6 * 2 ^ 25 + rs1 * 2 ^ 15 + f3 * 2 ^ 12 + bitsOf imm 1 4 * 2 ^ 8 +
    bitsOf imm 11 1 * 2 ^ 7 + 0x63
def encJ (rd imm : Nat) : Nat :=
  bitsOf imm 20 1 * 2 ^ 31 + bitsOf imm 1 10 * 2 ^ 21 + bitsOf imm 11 1 * 2 ^ 20 + bitsOf imm 12 8 * 2 ^ 12 + rd * 2 ^ 7 + 0x6F

/-- A signed field of n bits as a field of 12, 13 or 21 bits. -/
def widenField (n w v : Nat) : Nat := wrapNat w (signedOf n v)

/-- Quadrant 0: addresses relative to a register of the eight. -/
def expandC0 (h : Nat) : Nat :=
  let rd := 8 + bitsOf h 2 3
  let rs1 := 8 + bitsOf h 7 3
  let off4 := bitsOf h 5 1 * 64 + bitsOf h 10 3 * 8 + bitsOf h 6 1 * 4
  let off8 := bitsOf h 5 2 * 64 + bitsOf h 10 3 * 8
  let offSp := bitsOf h 7 4 * 64 + bitsOf h 11 2 * 16 + bitsOf h 5 1 * 8 + bitsOf h 6 1 * 4
  match bitsOf h 13 3 with
  | 0 => if offSp = 0 then 0 else encI 0x13 0 rd 2 offSp
  | 1 => encI 0x07 3 rd rs1 off8
  | 2 => encI 0x03 2 rd rs1 off4
  | 3 => encI 0x03 3 rd rs1 off8
  | 5 => encS 0x27 3 rs1 rd off8
  | 6 => encS 0x23 2 rs1 rd off4
  | 7 => encS 0x23 3 rs1 rd off8
  | _ => 0

/-- Quadrant 1: immediates, arithmetic on the eight, jumps and branches. -/
def expandC1 (h : Nat) : Nat :=
  let rd := bitsOf h 7 5
  let rc := 8 + bitsOf h 7 3
  let r2 := 8 + bitsOf h 2 3
  let imm6 := bitsOf h 12 1 * 32 + bitsOf h 2 5
  let imm := widenField 6 12 imm6
  let sp := bitsOf h 12 1 * 512 + bitsOf h 3 2 * 128 + bitsOf h 5 1 * 64 + bitsOf h 2 1 * 32 + bitsOf h 6 1 * 16
  let jump := bitsOf h 12 1 * 2048 + bitsOf h 8 1 * 1024 + bitsOf h 9 2 * 256 + bitsOf h 6 1 * 128 + bitsOf h 7 1 * 64 +
    bitsOf h 2 1 * 32 + bitsOf h 11 1 * 16 + bitsOf h 3 3 * 2
  let branch := bitsOf h 12 1 * 256 + bitsOf h 5 2 * 64 + bitsOf h 2 1 * 32 + bitsOf h 10 2 * 8 + bitsOf h 3 2 * 2
  match bitsOf h 13 3 with
  | 0 => encI 0x13 0 rd rd imm
  | 1 => if rd = 0 then 0 else encI 0x1B 0 rd rd imm
  | 2 => encI 0x13 0 rd 0 imm
  | 3 =>
    if imm6 = 0 then 0
    else if rd = 2 then encI 0x13 0 2 2 (widenField 10 12 sp)
    else widenField 6 20 imm6 * 2 ^ 12 + rd * 2 ^ 7 + 0x37
  | 4 =>
    match bitsOf h 10 2 with
    | 0 => encI 0x13 5 rc rc imm6
    | 1 => encI 0x13 5 rc rc (0x400 + imm6)
    | 2 => encI 0x13 7 rc rc imm
    | _ =>
      match bitsOf h 12 1, bitsOf h 5 2 with
      | 0, 0 => encR 0x33 0 0x20 rc rc r2
      | 0, 1 => encR 0x33 4 0 rc rc r2
      | 0, 2 => encR 0x33 6 0 rc rc r2
      | 0, _ => encR 0x33 7 0 rc rc r2
      | _, 0 => encR 0x3B 0 0x20 rc rc r2
      | _, 1 => encR 0x3B 0 0 rc rc r2
      | _, _ => 0
  | 5 => encJ 0 (widenField 12 21 jump)
  | 6 => encB 0 rc (widenField 9 13 branch)
  | _ => encB 1 rc (widenField 9 13 branch)

/-- Quadrant 2: addresses relative to the stack pointer, moves and register jumps. -/
def expandC2 (h : Nat) : Nat :=
  let rd := bitsOf h 7 5
  let rs2 := bitsOf h 2 5
  let load4 := bitsOf h 2 2 * 64 + bitsOf h 12 1 * 32 + bitsOf h 4 3 * 4
  let load8 := bitsOf h 2 3 * 64 + bitsOf h 12 1 * 32 + bitsOf h 5 2 * 8
  let store4 := bitsOf h 7 2 * 64 + bitsOf h 9 4 * 4
  let store8 := bitsOf h 7 3 * 64 + bitsOf h 10 3 * 8
  match bitsOf h 13 3 with
  | 0 => encI 0x13 1 rd rd (bitsOf h 12 1 * 32 + rs2)
  | 1 => encI 0x07 3 rd 2 load8
  | 2 => if rd = 0 then 0 else encI 0x03 2 rd 2 load4
  | 3 => if rd = 0 then 0 else encI 0x03 3 rd 2 load8
  | 4 =>
    if bitsOf h 12 1 = 0 then
      if rs2 ≠ 0 then encR 0x33 0 0 rd 0 rs2 else if rd = 0 then 0 else encI 0x67 0 0 rd 0
    else if rs2 ≠ 0 then encR 0x33 0 0 rd rd rs2
    else if rd = 0 then 0x00100073
    else encI 0x67 0 1 rd 0
  | 5 => encS 0x27 3 2 rs2 store8
  | 6 => encS 0x23 2 2 rs2 store4
  | _ => encS 0x23 3 2 rs2 store8

/-- The 32-bit instruction that a 16-bit one stands for; 0, which is illegal, where it stands for none. -/
def expandC (h : Nat) : Nat :=
  match h % 4 with
  | 0 => expandC0 h
  | 1 => expandC1 h
  | _ => expandC2 h

end Sys2Proof.Machine
end

