-- ==== Sys2Proof/Machine/UserMem.lean ====
section
/-!
DEFINITION. How a user-mode access of a Sorghum core reaches memory (spec/25 R359 to R361): Sv39, physical memory
protection, the episode window, the context's translation, and the home slice. Sv39 and PMP are those of the RISC-V
privileged manual (log 60).
-/

namespace Sys2Proof.Machine

/-- What an access of a user meets: it is made, it is an access fault, or it waits for the page service. -/
inductive UserRes (α : Type) where
  | ok (a : α)
  | bad
  | waits
  deriving Repr

/-- The die of a pair. -/
def dieOfPair (pair : Nat) : Nat := pair / 4096

/-! ## Physical memory protection -/

def State.pmpOf (s : State) (core : Nat) : List PmpEntry := Tab.get [] s.pmp core

/-- Bytes [lo, hi) that an entry covers; `below` is the address register of the entry before it. -/
def PmpEntry.range (p : PmpEntry) (below : Nat) : Nat × Nat :=
  let a := p.addr.toNat
  match bitsOf p.cfg.toNat 3 2 with
  | 1 => (4 * below, 4 * a)
  | 2 => (4 * a, 4 * a + 4)
  | 3 =>
    let ones := trailingZeros 54 (a + 1)
    (a / 2 ^ ones * 2 ^ ones * 4, (a / 2 ^ ones + 1) * 2 ^ ones * 4)
  | _ => (0, 0)

def PmpEntry.grants (p : PmpEntry) (kind : Access) : Bool :=
  match kind with
  | .load => p.cfg.getLsbD 0
  | .store => p.cfg.getLsbD 1
  | .fetch => p.cfg.getLsbD 2

/-- The first entry that meets a byte of the access decides, and it must hold all of them; none refuses user mode. -/
def pmpAllows (kind : Access) (a n : Nat) : Nat → List PmpEntry → Bool
  | _, [] => false
  | below, p :: rest =>
    let r := p.range below
    if r.1 < a + n && a < r.2 then decide (r.1 ≤ a) && decide (a + n ≤ r.2) && p.grants kind
    else pmpAllows kind a n p.addr.toNat rest

/-! ## Sv39 -/

/-- n bytes at va lie wholly within the window. -/
def Episode.inWindow (e : Episode) (va n : Nat) : Bool := decide (e.wbase ≤ va) && decide (va + n ≤ e.wbase + e.wsize)

/-- The PMP of the core that runs the episode grants an access. Where no core runs it, the supervisor acts for it in machine
mode, which the PMP does not bind (log 60). -/
def State.pmpGrants (s : State) (e : Episode) (kind : Access) (a n : Nat) : Bool :=
  match e.core with
  | some core => pmpAllows kind a n 0 (s.pmpOf (16 * dieOfPair e.pair + core))
  | none => true

/-- A leaf of the tables serves the access in user mode: V, U, the permission, A, and D for a store. -/
def sv39Leaf (kind : Access) (pte : Nat) : Bool :=
  let bit := fun k => bitsOf pte k 1 == 1
  bit 4 && bit 6 && (bit 1 || !bit 2) &&
    match kind with
    | .load => bit 1
    | .store => bit 2 && bit 7
    | .fetch => bit 3

/-- A 56-bit context address as a canonical global address. -/
def globalAddr (a : Nat) : Nat := wrapNat 64 (signedOf 56 a)

/-- The walk from the table at page `ppn` down, at levels 2, 1 and 0. -/
def State.sv39Walk (s : State) (e : Episode) (va : Nat) (kind : Access) : Nat → Nat → State × UserRes Nat
  | 0, _ => (s, .bad)
  | level + 1, ppn =>
    let at' := ppn * 4096 + 8 * bitsOf va (12 + 9 * level) 9
    if !s.pmpGrants e .load at' 8 then (s, .bad)
    else
      match s.unitXlate e.ctx (globalAddr at') .load (.episode e.pair) 0 0 with
      | (s, .waits) => (s, .waits)
      | (s, .fault _ _) => (s, .bad)
      | (s, .ok key) =>
        let pte := natOfBytes (s.homeBytes key 8)
        let next := bitsOf pte 10 44
        let size := 4096 * 512 ^ level
        if s.poisoned key 8 || pte % 2 = 0 || bitsOf pte 54 10 ≠ 0 then (s, .bad)
        else if bitsOf pte 1 3 = 0 then s.sv39Walk e va kind level next
        else if sv39Leaf kind pte && (next * 4096) % size = 0 then (s, .ok (globalAddr (next * 4096 + va % size)))
        else (s, .bad)

/-- The context address of a user address: itself where satp gives no translation. -/
def State.sv39 (s : State) (e : Episode) (va : Nat) (kind : Access) : State × UserRes Nat :=
  match (e.satp.extractLsb' 60 4).toNat with
  | 0 => (s, .ok va)
  | 8 => if signedOf 39 va = signedOf 64 va then s.sv39Walk e va kind 3 (e.satp.extractLsb' 0 44).toNat else (s, .bad)
  | _ => (s, .bad)

/-! ## Accesses -/

/-- An access cut at the pages of Sv39. -/
def userPieces : Nat → Nat → Nat → List (Nat × Nat)
  | 0, _, _ => []
  | fuel + 1, va, n =>
    if n = 0 then []
    else
      let k := min n (4096 - va % 4096)
      (va, k) :: userPieces fuel ((va + k) % 2 ^ 64) (n - k)

/-- The home key of one piece. -/
def State.userKey (s : State) (e : Episode) (kind : Access) (va n : Nat) : State × UserRes Nat :=
  match s.sv39 e va kind with
  | (s, .ok a) =>
    if !s.pmpGrants e kind (a % 2 ^ 56) n || !e.inWindow a n then (s, .bad)
    else
      match s.unitXlate e.ctx a kind (.episode e.pair) 0 0 with
      | (s, .waits) => (s, .waits)
      | (s, .fault _ _) => (s, .bad)
      | (s, .ok key) =>
        if s.poisoned key n && kind != .store then (s, .bad)
        else (s.ask (.sorghum (dieOfPair e.pair) (e.core.getD 0)) (kind == .store) key n, .ok key)
  | r => r

/-- The home keys and lengths of the pieces; the first that fails decides. -/
def State.userKeys (s : State) (e : Episode) (kind : Access) : List (Nat × Nat) → State × UserRes (List (Nat × Nat))
  | [] => (s, .ok [])
  | (va, n) :: rest =>
    match s.userKey e kind va n with
    | (s, .ok key) =>
      match s.userKeys e kind rest with
      | (s, .ok more) => (s, .ok ((key, n) :: more))
      | r => r
    | (s, .bad) => (s, .bad)
    | (s, .waits) => (s, .waits)

/-- The pieces of an access of n bytes at va. -/
def State.userAccess (s : State) (e : Episode) (kind : Access) (va n : Nat) : State × UserRes (List (Nat × Nat)) :=
  s.userKeys e kind (userPieces (n / 4096 + 2) va n)

/-- The bytes at the pieces of an access, at home. -/
def State.readKeys (s : State) (keys : List (Nat × Nat)) : List Byte := keys.flatMap fun k => s.homeBytes k.1 k.2

/-- Write bytes to the pieces of an access, at home. -/
def State.writeKeys (s : State) (die : Nat) : List (Nat × Nat) → List Byte → State
  | [], _ => s
  | (key, n) :: rest, bs => (s.engineWrite die key (bs.take n)).writeKeys die rest (bs.drop n)

/-- A named buffer lies wholly within the window (R367). -/
def State.bufferOk (s : State) (e : Episode) (kind : Access) : List (Nat × Nat) → State × UserRes Unit
  | [] => (s, .ok ())
  | (va, n) :: rest =>
    match s.sv39 e va kind with
    | (s, .ok a) => if e.inWindow a n then s.bufferOk e kind rest else (s, .bad)
    | (s, .bad) => (s, .bad)
    | (s, .waits) => (s, .waits)

end Sys2Proof.Machine
end

