-- ==== Sys2Proof/Machine/Pairs.lean ====
section
/-!
DEFINITION. Mailbox pairs and the ends of episodes (spec/25 R365, R368 to R371): what the supervisor does at a pair,
whoever causes it.
-/

namespace Sys2Proof.Machine

def State.pair (s : State) (n : Nat) : Pair := Tab.get {} s.pairs n
def State.setPair (s : State) (n : Nat) (p : Pair) : State := { s with pairs := Tab.put {} s.pairs n p }

def State.episode? (s : State) (pair : Nat) : Option Episode := s.episodes.find? (·.pair == pair)
def State.modEpisode (s : State) (pair : Nat) (f : Episode → Episode) : State :=
  { s with episodes := modFirst (·.pair == pair) f s.episodes }

/-! ## The Sorghum cores (R365) -/

/-- An episode that a core may run. -/
def Episode.runnable (e : Episode) : Bool := e.waiting.isNone && e.ending.isNone && !e.posted

/-- What the supervisor sets in a core's PMP before it runs an episode: one entry that grants every address, so that the
window alone restricts it (log 60). -/
def openPmp : List PmpEntry := [⟨0x1F, 0x3FFFFFFFFFFFFF⟩]

/-- Give the idle cores of a die to runnable episodes, first come, first served. -/
def State.assignCore (s : State) (die core : Nat) : State :=
  if s.episodes.any fun e => dieOfPair e.pair == die && e.core == some core then s
  else
    let ready := s.episodes.filter fun e => dieOfPair e.pair == die && e.runnable && e.core.isNone
    match (sortBy (fun (a b : Episode) => decide (a.order ≤ b.order)) ready).head? with
    | some e =>
      { s with pmp := Tab.put [] s.pmp (16 * die + core) openPmp }.modEpisode e.pair fun e =>
        { e with core := some core, sliceEnd := s.tick + 1000 }
    | none => s

def State.assignCores (s : State) (die : Nat) : State := (List.range 16).foldl (fun s c => s.assignCore die c) s

/-- The episode is the last in line of those that may run. -/
def State.lineUp (s : State) (pair : Nat) : State :=
  { s with nextId := s.nextId + 1 }.modEpisode pair fun e => { e with order := s.nextId }

/-- The episode leaves its core, with its user state and without its reservation. -/
def State.leaveCore (s : State) (pair : Nat) : State :=
  (s.lineUp pair).modEpisode pair fun e => { e with core := none, resv := none }

/-! ## Answers at a pair (R375) -/

def headerOf (episode step pver status : Nat) : BitVec 64 :=
  BitVec.ofNat 64 (episode % 2 ^ 20 * 2 ^ 44 + step % 2 ^ 24 * 2 ^ 20 + pver % 2 ^ 16 * 2 ^ 4 + status % 16)

/-- The token of an MBGET completes, and its lock is freed. -/
def State.endGet (s : State) (m : MbReq) (status : Nat) : State :=
  { s with
    mbReqs := s.mbReqs.filter (·.id != m.id)
    rlocks := s.rlocks.filter (·.op != m.id)
    tokens := modFirst (fun t => t.val == m.token && t.status.isNone) (fun t => { t with status := some status }) s.tokens }

/-- Write the observation of a pair into a landing, whose token completes. -/
def State.writeLanding (s : State) (p : Pair) (m : MbReq) (status : Nat) : State :=
  let bs := bytesOfNat 8 (headerOf p.episode p.step p.obsPver status).toNat ++ bytesOfNat 4 p.obs.length ++ bytesOfNat 52 0 ++ p.obs
  (s.scrWrite (clusterOfCore m.core) m.off bs).endGet m status

/-- Deliver the posted observation: ACTWAIT, or ENDED after a terminal one, when the episode is gone. -/
def State.deliverObs (s : State) (n : Nat) (m : MbReq) : State :=
  let p := s.pair n
  match p.terminal with
  | none => (s.writeLanding p m 0).setPair n { p with st := .actWait, landing := none }
  | some status =>
    let s := (s.writeLanding p m status).setPair n { p with st := .ended, landing := none, endTick := s.tick }
    { s with episodes := s.episodes.filter (·.pair != n) }

/-- The supervisor posts observation n of the pair's state; a held landing receives it at once. -/
def State.postObs (s : State) (n : Nat) (terminal : Option Nat) (payload : List Byte) : State :=
  let p := s.pair n
  let s := s.setPair n { p with st := .obsReady, terminal, last := terminal.getD 0, obs := payload }
  match p.landing with
  | some m => s.deliverObs n m
  | none => s

/-! ## The end of an episode (R366, R368, R371) -/

/-- The end applies to the pair as it stands. -/
def Pair.canEnd (p : Pair) : Bool :=
  match p.st with
  | .obsWait | .actWait => true
  | .obsReady => p.terminal.isNone
  | .free | .ended => false

/-- The terminal observation: with the payload the environment posted, or by the table of R371. -/
def State.postTerminal (s : State) (n status : Nat) (payload : Option (List Byte)) : State :=
  let p := s.pair n
  match p.st with
  | .obsReady => s.setPair n { p with terminal := some status, last := status }
  | _ => s.postObs n (some status) (payload.getD [])

/-- Write the end record, wait for its page, or go on without it when it is refused (log 23); then post. -/
def State.tryEnd (s : State) (n : Nat) : State :=
  match s.episode? n with
  | none => s
  | some e =>
    match e.ending with
    | none => s
    | some (status, payload) =>
      let p := s.pair n
      let after := fun (s : State) =>
        let s := s.unrefuse (.episode n)
        -- an episode that its environment ended stays until delivery
        let s := if payload.isSome then s.modEpisode n fun e => { e with ending := none, posted := true }
          else { s with episodes := s.episodes.filter (·.pair != n) }
        (s.postTerminal n status payload).assignCores (dieOfPair n)
      if !p.canEnd then { s with episodes := s.episodes.filter (·.pair != n) }
      else
        match s.unitXlate e.ctx e.result .store (.episode n) 0 0 with
        | (s, .waits) => s
        | (s, .fault _ _) => after s
        | (s, .ok key) =>
          let bs := bytesOfNat 8 (headerOf p.episode p.step p.obsPver status).toNat ++ bytesOfNat 8 e.value.toNat
          after (s.engineWrite (dieOfPair n) key bs)

/-- The supervisor stops the episode of a pair and ends it with a status. -/
def State.endEpisode (s : State) (n status : Nat) (payload : Option (List Byte)) : State :=
  match s.episode? n with
  | none => s
  | some e =>
    if e.posted || e.ending.isSome then s
    else
      (s.modEpisode n fun e => { e with ending := some (status, payload), waiting := none, core := none }).tryEnd n

/-! ## EP_ACT_WAIT (R367) -/

/-- The environment faults: its access is refused, or what it does is no call or instruction. -/
def State.envFault (s : State) (n : Nat) : State := (s.unrefuse (.episode n)).endEpisode n 6 none

/-- An EP_ACT_WAIT returns, and its episode is the last in line. -/
def State.actDone (s : State) (n : Nat) (a0 a1 : BitVec 64) : State :=
  let s := (s.unrefuse (.episode n)).modEpisode n fun e => { (e.setX 10 a0).setX 11 a1 with waiting := none }
  (s.lineUp n).assignCores (dieOfPair n)

/-- An action is pending and the environment waits: copy it, or answer −3 when it is longer than the buffer. -/
def State.tryActWait (s : State) (n : Nat) : State :=
  match s.episode? n with
  | none => s
  | some e =>
    match e.waiting, (s.pair n).action with
    | some (buf, cap), some (header, payload) =>
      if payload.length > cap then s.actDone n (BitVec.ofInt 64 (-3)) (e.x 11)
      else
        match s.userAccess e .store buf payload.length with
        | (s, .waits) => s
        | (s, .bad) => s.envFault n
        | (s, .ok keys) =>
          let s := s.writeKeys (dieOfPair n) keys payload
          (s.setPair n { s.pair n with action := none }).actDone n (BitVec.ofNat 64 payload.length) header
    | _, _ => s

/-- What an episode of a pair waits for may go on. -/
def State.resumeEpisode (s : State) (n : Nat) : State := (s.tryEnd n).tryActWait n

end Sys2Proof.Machine
end

