-- ==== Sys2Proof/Machine/Snapshot.lean ====
section
/-!
DEFINITION. The snapshot registers (spec/29 R411, R412): what a trigger latches, as words keyed by their offset in the
register window; an unlisted word is zero.
-/

namespace Sys2Proof.Machine

/-- The warps that stay on a core, in team and warp order. -/
def State.coreWarps (s : State) (core : Nat) : List (Team × Warp) :=
  (s.teams.filter (·.core == core)).flatMap fun t => t.warps.map fun w => (t, w)

/-- Warp slots are counted 8 per issue unit, in order of arrival (log 16). -/
def State.warpSlots (s : State) (core : Nat) : Nat :=
  (List.range 8).foldl (fun m u =>
    let n := ((s.coreWarps core).filter fun x => x.2.iu == u && !x.2.returned).length
    m + (2 ^ n - 1) * 2 ^ (8 * u)) 0

def putWords (l : List (Nat × Word)) (off : Nat) (ws : List Nat) : List (Nat × Word) :=
  Tab.putRange 0 l (off / 4) (ws.map (BitVec.ofNat 32)) 

def State.snapCore (s : State) (l : List (Nat × Word)) (core : Nat) : List (Nat × Word) :=
  let base := 0x80000 + 0x100 * core
  let ws := s.coreWarps core
  let n := fun {α : Type} (xs : List α) (p : α → Bool) => (xs.filter p).length
  let l := putWords l base [s.clock, s.clock / 2 ^ 32, s.warpSlots core, s.warpSlots core / 2 ^ 32]
  let l := (List.range 8).foldl (fun l u =>
    let sps := (ws.filter (·.2.iu == u)).flatMap fun x => x.2.splits.map fun sp => (x.1.halted, sp)
    let ready := n sps fun x => !x.1 && x.2.wait == .none
    putWords l (base + 0x10 + 8 * u) [(Tab.get 0 s.iuPc (8 * core + u)).toNat, sps.length + 256 * ready]) l
  putWords l (base + 0x50)
    [n s.matOps (·.core == core) + 2 ^ 8 * n s.rlocks (·.core == core) + 2 ^ 16 * n s.rays (fun r => r.core == core && !r.ended),
     n s.landings (·.core == core) + 2 ^ 8 * s.mailboxLoad core +
       2 ^ 16 * n s.sends (fun m => m.core == core && m.peer.isNone)]

/-- Row places of a regroup unit in use: rows in bins and tiles, and those of accepted calls not yet placed. -/
def State.rowPlaces (s : State) (cl : Nat) : Nat :=
  let r := Tab.get ({} : Regroup) s.regroups cl
  let waiting := (s.ncalls.filter fun c => c.accepted && clusterOfCore c.core == cl).foldl (fun a c => a + c.rows.length) 0
  r.bins.foldl (fun a b => a + b.2.rows.length) 0 + r.tiles.foldl (fun a t => a + t.rows.length) 0 + waiting

def WVersion.pinned (v : WVersion) : Bool := !v.pins.isEmpty

def State.snapCluster (s : State) (l : List (Nat × Word)) (cl : Nat) : List (Nat × Word) :=
  let base := 0x88000 + 0x40 * cl
  let r := Tab.get ({} : Regroup) s.regroups cl
  let pinned := (r.cache.filter WVersion.pinned).foldl (fun a v => a + (v.bytes.length + 63) / 64) 0
  let cq := fun e => (s.copies.filter fun c => clusterOfCore c.core == cl && c.engine == e).length
  let held := (s.tasks.filter fun t => t.cluster == cl && (match t.st with | .running _ => false | _ => true)).length
  putWords l base [s.rowPlaces cl + 2 ^ 12 * r.bins.length, pinned, cq 0 + 2 ^ 8 * cq 1, held]

def State.snapDie (s : State) (l : List (Nat × Word)) (die : Nat) : List (Nat × Word) :=
  let base := 0x89000 + 0x40 * die
  let cols := (List.range 96).map fun c => Tab.get ({} : Column) s.cols (96 * die + c)
  let powered := (cols.filter fun c => match c.power with | .off _ => false | _ => true).length
  let replay := cols.foldl (fun a c => a + c.replay.length) 0
  let half := (s.meetings.filter fun m => m.router / 16 == die && !m.spilled).length
  let walks := s.walks.filter (·.die == die)
  let parked := (s.records.filter fun r => r.ctx % 4 == die && !r.ready).length
  putWords l base [powered, replay, s.farGenOf die, half, min walks.length 64 + 2 ^ 16 * s.merged die, parked]

/-- A trigger: while armed and not fired, latch every unit and set FIRED. -/
def State.latchSnapshot (s : State) : State :=
  if s.snapArm && !s.snapFired then
    let l := (List.range 128).foldl s.snapCore []
    let l := (List.range 32).foldl s.snapCluster l
    { s with snap := (List.range 4).foldl s.snapDie l, snapFired := true }
  else s

end Sys2Proof.Machine
end

