-- ==== Sys2Proof/Machine/Traps.lean ====
section
/-!
DEFINITION. Traps, held faults, watchdogs, page walks and the page service, TLB invalidation, errors, and the system
instructions (spec/13 R241 to R246; spec/29 R396 to R404; spec/09 R150).
-/

namespace Sys2Proof.Machine

/-! ## Words that are no instruction (spec/09 R150) -/

def execIllegalInstruction (w0 : Word) (why : Reject) (s : State) : Host.Outcome State Fault Refusal :=
  s.issue fun _ =>
    match why with
    | .illop => .error ⟨fILLOP, w0, 0, 0⟩
    | .page info => .error ⟨fPAGE, info, 0, 0⟩
    | .prot info => .error ⟨fPROT, info, 0, 0⟩

/-! ## TRAP, BKPT, MARK, SNAP, TRET, COMMIT -/

/-- Retire, then take a fault whose resume address is the next instruction's (R242, R243). -/
def State.retireThenTrap (s : State) (v : View) (t : Trap) (len : Nat) : State :=
  let s := s.setWarp v (v.warp.modSls v.split.mask fun sl => { sl with retired := sl.retired + 1 })
  let s := s.afterRetire v
  match s.viewOf? v.sel with
  | some v => s.takeFault v t (v.pc + BitVec.ofNat 64 len)
  | none => s

def execTrap (f : UI) (s : State) :=
  s.run (.trap f) fun v =>
    if v.qGuard f.q f.n then .ok (s.retireThenTrap v ⟨0, f.imm &&& 0xFFFF, 0, 0⟩ 8) else .ok (s.skip v 8)

/-- ATTACH of the context's DBGCTL (spec/29 R406). -/
def Ctx.attached (x : Ctx) : Bool := x.dbgCtl.getLsbD 1
def Ctx.tracing (x : Ctx) : Bool := x.dbgCtl.getLsbD 2

def execBkpt (f : UR) (s : State) :=
  s.run (.bkpt f) fun v =>
    if v.qGuard f.q f.n then
      if (s.ctxOf v.ctx).attached then .ok ((s.skip v 4).haltTeam v.team.uid)
      else .ok (s.retireThenTrap v ⟨fBKPT, 0, 0, 0⟩ 4)
    else .ok (s.skip v 4)

/-- MARK: a trace record of kind 1 under TRACE (spec/29 R410). -/
def execMark (f : UI) (s : State) :=
  s.run (.mark f) fun v =>
    let s' := if v.qGuard f.q f.n && (s.ctxOf v.ctx).tracing then
        s.traceRecord v.ctx (bytesOfNat 4 1 ++ bytesOfNat 4 v.team.inst.toNat ++ bytesOfNat 4 f.imm.toNat ++ bytesOfNat 4 0)
      else s
    .ok (s'.skip v 8)

def execSnap (f : UR) (s : State) :=
  s.run (.snap f) fun v => .ok ((if v.qGuard f.q f.n then s.latchSnapshot else s).skip v 4)

/-- TRET: PRIV when no slice of the split is in its handler. -/
def execTret (f : UR) (s : State) :=
  s.run (.tret f) fun v =>
    if v.qGuard f.q f.n then
      if v.inHandler then .ok (s.leaveHandler v) else .error ⟨fPRIV, Instr.word0 (.tret f), 0, 0⟩
    else .ok (s.skip v 4)

def execCommit (f : UR) (s : State) :=
  s.runSync (.commit f) fun v => .ok ((if v.qGuard f.q f.n then s.commitTeam v else s).skip v 4)

def execSnapshotExternalTrigger (s : State) : Host.Outcome State Fault Refusal :=
  .next (if s.snapExten then s.latchSnapshot else s)

/-! ## Held faults and watchdogs (spec/29 R397, R398) -/

/-- The split stands at an instruction boundary: what it waits to issue, or waits in, has had no effect yet. A BARS that
has arrived, a fuse group and a page are waited out. -/
def Wait.atBoundary : Wait → Bool
  | .none | .stall _ | .waitc | .barrier _ _ false => true
  | _ => false

/-- A held fault that the split takes where it stands. -/
def View.faultDue (v : View) : Bool := v.split.wait.atBoundary && !v.split.deferred.isEmpty && !v.inHandler

def execDeferredFaultTake (x : Sel) (s : State) : Host.Outcome State Fault Refusal :=
  match s.viewOf? x with
  | some v => .next (if v.faultDue then s.takeDeferred v else s)
  | none => .next s

def execTeamWatchdog (team : Nat) (s : State) : Host.Outcome State Fault Refusal :=
  match s.team? team with
  | none => .next s
  | some t =>
    let wd := (s.ctxOf t.ctx).teamWd
    if wd != 0xFFFFFFFF && !t.watched && s.tick ≥ t.startTick + wd.toNat then
      .next ((s.deferTeam team fWATCHDOG wd).modTeam team fun t => { t with watched := true })
    else .next s

/-- The first slice of a team that runs the handler of GANGKILL or WATCHDOG. -/
def Team.lastRites? (t : Team) : Option Slice := (t.warps.flatMap (·.slices)).find? (·.lastRites)

/-- GANGKILL or WATCHDOG where a split still holds it. -/
def Team.lastHeld? (t : Team) : Option (Deferred × Addr) :=
  (t.warps.flatMap (·.splits)).findSome? fun sp =>
    (sp.deferred.find? fun d => d.code == fGANGKILL || d.code == fWATCHDOG).map fun d => (d, sp.pc)

/-- A team that took GANGKILL or WATCHDOG and has not exited by its bound is removed (R397). -/
def execFaultDrainExpiry (team : Nat) (s : State) : Host.Outcome State Fault Refusal :=
  match s.team? team with
  | none => .next s
  | some t =>
    match t.removeAt with
    | some at' =>
      if at' ≤ s.tick && !t.exited then
        match t.lastRites?, t.lastHeld? with
        | some sl, _ => .next (s.killTeam team (sl.trapCode.toNat % 256) sl.trapInfo sl.resume)
        | none, some (d, pc) => .next (s.killTeam team d.code d.info pc)
        | none, none => .next (s.killTeam team (if t.watched then fWATCHDOG else fGANGKILL) 0 0)
      else .next s
    | none => .next s

/-! ## Page walks (spec/29 R399, R400) -/

/-- What an access asks, as INFO of a PAGEREQ. -/
def accessInfo : Access → Word
  | .load => 0
  | .store => 1
  | .fetch => 2

/-- Let a split try its access again. -/
def State.unwait (s : State) (x : Sel) : State :=
  match s.viewOf? x with
  | some v => s.waitWith v .none
  | none => s

/-- A precise fault of a split whose access waited. -/
def State.faultSplit (s : State) (x : Sel) (t : Trap) : State :=
  match s.viewOf? x with
  | some v => s.takeFault v t v.pc
  | none => s

/-- A not-present result of a split: a flush gang is discarded, a drain team's access is parked. -/
def State.notPresent (s : State) (c level : Nat) (a : Waiter) : State :=
  match s.viewOf? a.x with
  | none => s
  | some v =>
    let g := s.gang? v.team.gang
    let info := accessInfo a.kind
    let core := s.coreId v.core
    if (g.map (·.drain)).getD true then
      let (s, id) := s.requestPage c a.va level v.team.inst core info (.split a.x a.lane a.va)
      s.waitWith v (.parked id a.kind.stallReason)
    else
      let task := (g.map (·.task)).getD 0
      let (s, id) := s.requestPage c a.va level v.team.inst core info (.task task v.team.inst core a.va)
      s.discardGang v.team.gang (.held id)

/-- The cores that wait for a walk: their TLBs take its page. -/
def Walk.cores (w : Walk) : List Nat := distinct (w.who.map (·.core) ++ w.copies.map (·.2))

/-- PAGE_WALK_COMPLETE: splits try again with the page in their TLBs, take the fault of a bad entry, or meet a page that
is not present; a copy meets it when its engine runs. -/
def execPageWalkComplete (id : Nat) (s : State) : Host.Outcome State Fault Refusal :=
  match s.walks.find? (·.id == id) with
  | none => .next s
  | some w =>
    let s := { s with walks := s.walks.filter (·.id != id) }
    match s.walk (s.ctxOf w.ctx).ptRoot w.va with
    | .page e size =>
      let s := w.cores.foldl (fun s core => s.tlbInsert core w.ctx (w.va % 2 ^ 56 / size * size) size e) s
      .next (w.who.foldl (fun s a => s.unwait a.x) s)
    | .bad => .next (w.who.foldl (fun s a => s.faultSplit a.x ⟨fPAGE, pageInfo 2 a.va, a.lane, 0⟩) s)
    | .notPresent level => .next (w.who.foldl (fun s a => s.notPresent w.ctx level a) s)

/-! ## Answers of the page service (R400, R402) -/

/-- Remove the open request of context c with this SEQ. -/
def State.closeReq (s : State) (c : Nat) (seq : Word) : Option (State × PageReq) :=
  ((s.ctxOf c).reqs.find? fun r => r.seq == some seq).map fun r =>
    (s.modCtx c fun x => { x with reqs := x.reqs.filter (·.id != r.id) }, r)

/-- VERDICT 0: every requester tries again. -/
def State.retryOne (s : State) : Requester → State
  | .split x _ _ => s.unwait x
  | .task uid _ _ _ | .staging uid _ => s.modTask uid fun t => { t with st := .unplaced, tick := s.tick }
  | .copy id _ => { s with copies := modFirst (·.id == id) (fun c => { c with waitFor := none }) s.copies }
  | .counter c idx => s.decrement c idx
  | .episode n => s.resumeEpisode n
  | .unit _ | .queue _ _ => s

def execPgrespRetry (c : Nat) (seq : Word) (s : State) : Host.Outcome State Fault Refusal :=
  match s.closeReq c seq with
  | some (s, r) => .next (r.who.foldl State.retryOne s)
  | none => .next s

/-- A task whose page is refused is killed: a record, and no notify (R310). -/
def State.killTask (s : State) (uid c code : Nat) (inst core : Word) (addr : Nat) (info : Word) : State :=
  let s := s.faultRecord c 1 code inst core addr info
  s.dropTask uid

/-- VERDICT 1 or 2: the requester meets the refusal with this fault. -/
def State.refuseOne (s : State) (c : Nat) (r : PageReq) (code : Nat) : Requester → State
  | .split x lane va => s.faultSplit x ⟨code, refusalInfo code va, lane, 0⟩
  | .task uid inst core va => s.killTask uid c fPAGE inst core va (pageInfo 0 va)
  | .staging uid va => s.killTask uid c code 0 0 va (refusalInfo code va)
  | .copy id va =>
    let stop := fun (k : CopyOp) => { k with waitFor := none, failed := some (code, refusalInfo code va) }
    { s with copies := modFirst (·.id == id) stop s.copies }
  | .counter c idx => s.decrementLost c idx
  | who =>
    let s := { s with refused := s.refused ++ [⟨who, r.lo, r.size, code⟩] }
    match who with
    | .episode n => s.resumeEpisode n
    | _ => s

def State.refusePage (s : State) (c : Nat) (seq : Word) (code : Nat) : State :=
  match s.closeReq c seq with
  | some (s, r) => r.who.foldl (fun s who => s.refuseOne c r code who) s
  | none => s

def execPgrespRefusePage (c : Nat) (seq : Word) (s : State) : Host.Outcome State Fault Refusal :=
  .next (s.refusePage c seq fPAGE)

def execPgrespRefuseProt (c : Nat) (seq : Word) (s : State) : Host.Outcome State Fault Refusal :=
  .next (s.refusePage c seq fPROT)

/-! ## TLB invalidation (R402) -/

/-- A TLBINV written while one is in progress is ignored and sets QERR bit 11. -/
def State.tlbinvWrite (s : State) (c lo len : Nat) : State :=
  s.modCtx c fun x =>
    if x.tlbInv.isSome then { x with qerr := x.qerr ||| 0x800 } else { x with tlbInv := some ⟨lo, len⟩ }

/-- The region of 2^k bytes that holds an address. -/
def regionBase (va : Addr) (k : Nat) : Nat := va.toNat % 2 ^ 56 / 2 ^ k * 2 ^ k

def execTlbinvPage (c : Nat) (va : Addr) (s : State) : Host.Outcome State Fault Refusal :=
  .next (s.tlbinvWrite c (regionBase va 16) (2 ^ 16))
def execTlbinv2m (c : Nat) (va : Addr) (s : State) : Host.Outcome State Fault Refusal :=
  .next (s.tlbinvWrite c (regionBase va 21) (2 ^ 21))
def execTlbinv1g (c : Nat) (va : Addr) (s : State) : Host.Outcome State Fault Refusal :=
  .next (s.tlbinvWrite c (regionBase va 30) (2 ^ 30))
def execTlbinvAll (c : Nat) (s : State) : Host.Outcome State Fault Refusal := .next (s.tlbinvWrite c 0 (2 ^ 56))

/-- The invalidation ends: no TLB holds a translation that it covers. -/
def execTlbinvDone (c : Nat) (s : State) : Host.Outcome State Fault Refusal :=
  match (s.ctxOf c).tlbInv with
  | some i =>
    let covered := fun (e : TlbEntry) => e.ctx == c && decide (e.base < i.lo + i.len) && decide (i.lo < e.base + e.size)
    .next ({ s with tlb := s.tlb.filter fun e => !covered e }.modCtx c fun x => { x with tlbInv := none })
  | none => .next s

/-! ## Errors (R404) -/

def execEccCorrected (s : State) : Host.Outcome State Fault Refusal := .next { s with cecnt := s.cecnt + 1 }

/-- A soft error takes a team: a KILL record of code SOFT. -/
def State.softError (s : State) (uid : Nat) : State :=
  match s.team? uid with
  | none => s
  | some t => s.killTeam uid fSOFT 0 (((t.warps.flatMap (·.splits)).map (·.pc)).headD 0)

def execEccUncorrectable (w : EccSite) (s : State) : Host.Outcome State Fault Refusal :=
  match w with
  | .cleanCopy core line => .next (s.dropClean core fun k => k / 256 == line)
  | .constCopy core line =>
    .next { s with constK := Tab.put [] s.constK core ((Tab.get [] s.constK core).filter fun e => e.1 / 256 != line) }
  | .farCopy die line => .next { s with far := Tab.put [] s.far die ((s.farOf die).filter fun e => e.1 / 256 != line) }
  -- a version's bytes are those at its home: fetched again, the copy is as it was
  | .weightCopy _ _ _ _ => .next s
  | .teamState uid =>
    match s.team? uid with
    | none => .next s
    | some t =>
      if ((s.gang? t.gang).map (·.drain)).getD true then .next (s.softError uid)
      else .next ((s.faultRecord t.ctx 8 0 t.inst (s.coreId t.core) 0 0).discardGang t.gang .unplaced)
  | .dirtyData core line =>
    let hit := (s.l1Of core).filter fun e => e.2.dirty && e.1 / 256 == line
    let s := s.setL1 core ((s.l1Of core).filter fun e => !(e.2.dirty && e.1 / 256 == line))
    .next ((distinct (hit.map (·.2.owner))).foldl (fun s uid => s.softError uid) s)
  | .meeting router c tag =>
    match s.meetings.find? fun m => m.router == router && m.ctx == c && m.tag == tag && !m.spilled with
    | none => .next s
    | some m =>
      let s := { s with meetings := s.meetings.filter (·.id != m.id) }
      .next ((distinct (m.senders.map (·.1.team))).foldl (fun s uid => s.softError uid) s)
  | .deviceMemory home pa =>
    .next { s with poison := Tab.putRange false s.poison (granule (physKey home pa)) (List.replicate 64 true) }

end Sys2Proof.Machine
end

