-- ==== Sys2Proof/Machine/Copies.lean ====
section
/-!
DEFINITION. The copy instructions and the copy engines (spec/15 R264 to R268; spec/07 R115 to R119).
-/

namespace Sys2Proof.Machine

/-! ## What a copy touches -/

/-- One side of a copy: rows of bytes at a pitch, in scratchpad with rotation or in global memory. -/
structure Side where
  scratch : Bool
  base    : Nat
  pitch   : Nat
  rot     : Nat
  rows    : Nat
  len     : Nat
  deriving DecidableEq, Repr

/-- The bounding span of the bytes, rotated offsets included (R266). -/
def Side.span (d : Side) : Nat × Nat :=
  if d.scratch && d.rot != 0 then
    let units := (List.range d.rows).flatMap fun i => (List.range (d.len / 16)).map fun u =>
      bankAddr d.base d.pitch d.rot i (16 * u)
    ((units.min?).getD d.base, (units.max?).getD d.base + 16)
  else (d.base, d.base + (d.rows - 1) * d.pitch + d.len)

def CopyOp.source (c : CopyOp) : Side :=
  match c.kind with
  | .cpy srcScr _ rows n => ⟨srcScr, c.src, c.spitch, c.rot, rows, n⟩
  | .cpyg rows n => ⟨false, c.src, c.spitch, c.rot, rows, n⟩
  | .cpyx srcScr _ r k e => ⟨srcScr, c.src, c.spitch, c.rot, r, k * e⟩

def CopyOp.target (c : CopyOp) : Side :=
  match c.kind with
  | .cpy _ dstScr rows n => ⟨dstScr, c.dst, c.dpitch, c.rot, rows, n⟩
  | .cpyg rows n => ⟨true, c.dst, c.dpitch, c.rot, rows, n⟩
  | .cpyx _ dstScr r k e => ⟨dstScr, c.dst, c.dpitch, c.rot, k, r * e⟩

def CopyOp.gathers (c : CopyOp) : Bool := match c.kind with | .cpyg _ _ => true | _ => false

/-- The index list of CPYG. -/
def CopyOp.index (c : CopyOp) : Side := ⟨true, c.ix, 4, 0, c.target.rows, 4⟩

def CopyOp.lock (c : CopyOp) (d : Side) (write : Bool) : RLock :=
  ⟨c.id, c.core, d.scratch, d.span.1, d.span.2, write, false⟩

/-- The ranges that the copy registers (spec/07 R115). -/
def CopyOp.locks (c : CopyOp) : List RLock :=
  [c.lock (if c.gathers then c.index else c.source) false, c.lock c.target true]

/-! ## The checks at issue (R265) -/

def sideBad (d : Side) (addr pitch : Word) : List (Bool × Word) :=
  if d.scratch then [] else [(d.base % 16 != 0, addr), (d.pitch % 16 != 0, pitch)]

def rotBad (d : Side) (pitch : Word) : List (Bool × Word) :=
  if d.scratch && d.rot != 0 then [(d.pitch % 1024 != 0 || decide (d.len > 1024), pitch)] else []

def scrMisaligned (d : Side) (addr pitch : Word) : List (Bool × Word) :=
  if d.scratch then [(d.base % 16 != 0, addr), (d.pitch % 16 != 0, pitch)] else []

/-- The first fault of the issue checks; registers are source and destination low, the two pitches, the index list. -/
def State.copyTrap (s : State) (v : View) (i : Instr) (c : CopyOp) (src dst spitch dpitch ix : Word) : Option Trap :=
  let a := c.source
  let b := c.target
  let shape : List (Bool × Word) :=
    match c.kind with
    | .cpyx _ _ r k e => [(r * e % 16 != 0 || k * e % 16 != 0, Instr.word0 i)]
    | _ => []
  let list : List (Bool × Word) := if c.gathers then [(c.ix % 16 != 0, ix)] else []
  let first := fun (l : List (Bool × Word)) => (l.find? (·.1)).map (·.2)
  let canon := fun (d : Side) => !d.scratch && !canonical d.base
  let outside := fun (d : Side) => d.scratch && !s.scrAllowed v.team d.span.1 (d.span.2 - d.span.1)
  let spans := (if c.gathers then [(c.index, ix)] else [(a, src)]) ++ [(b, dst)]
  match first (sideBad a src spitch ++ sideBad b dst dpitch ++ rotBad a spitch ++ rotBad b dpitch ++ shape),
      first (scrMisaligned a src spitch ++ scrMisaligned b dst dpitch ++ list) with
  | some x, _ => some ⟨fILLOP, x, 0, 0⟩
  | none, some x => some ⟨fMISALIGN, x, 0, 0⟩
  | none, none =>
    match [a, b].find? canon, spans.find? (outside ·.1), s.rangesConflict? c.locks with
    | some d, _, _ => some ⟨fPAGE, pageInfo 1 d.base, 0, 0⟩
    | none, some (_, x), _ => some ⟨fPROT, x, 0, 0⟩
    | none, none, some x => some ⟨fRLOCK, BitVec.ofNat 32 x, 0, 0⟩
    | none, none, none => none

/-- Cut a run of bytes at 64 KiB boundaries. -/
def pieces (va n : Nat) : List (Nat × Nat) :=
  let a := min n (65536 - va % 65536)
  if a < n then [(va, a), ((va + a) % 2 ^ 64, n - a)] else [(va, n)]

/-- The pages of one side in global memory that the TLBs of the core do not hold; those of a gather are not known. -/
def State.sideMisses (s : State) (core ctx : Nat) (d : Side) : List Nat :=
  if d.scratch then []
  else
    let pages := (List.range d.rows).flatMap fun i => (pieces ((d.base + i * d.pitch) % 2 ^ 64) d.len).map fun p => p.1 / 65536 * 65536
    pages.eraseDups.filter fun va => canonical va && (s.tlbFind? core ctx va).isNone

def State.copyMisses (s : State) (c : CopyOp) : List Nat :=
  ((if c.gathers then [] else s.sideMisses c.core c.ctx c.source) ++ s.sideMisses c.core c.ctx c.target).eraseDups

/-- The engine's walks begin (spec/29 R400). -/
def State.walkFor (s : State) (c : CopyOp) (vas : List Nat) : State :=
  vas.foldl (fun s va => s.joinWalk (dieOfCore c.core) c.ctx va fun w => { w with copies := w.copies ++ [(c.id, c.core)] }) s

/-- Walks of a copy are under way. -/
def State.copyWalks (s : State) (id : Nat) : Bool := s.walks.any fun w => w.copies.any (·.1 == id)

/-- Issue a copy, or wait for room in the counter, the engine's queue, the miss-merge table or the lock table. -/
def State.issueCopy (s : State) (i : Instr) (v : View) (f : UE) (kind : CopyKind) (srcScr dstScr : Bool) (rot : Nat) :
    Except Trap State :=
  let src := if srcScr then (v.s f.a.toNat).toNat else (v.s64 f.a.toNat).toNat
  let lo := v.s (f.a.toNat + 2)
  let gather := match kind with | .cpyg _ _ => true | _ => false
  let dreg := if gather then v.s (f.a.toNat + 3) else lo
  let dst := if dstScr then dreg.toNat else (v.s64 (f.a.toNat + 2)).toNat
  let engine := v.core % 2
  let c : CopyOp := {
    id := s.nextId, core := v.core, engine, ctx := v.ctx, x := v.sel, token := BitVec.ofNat 32 s.nextId ^^^ Config.tokenMask
    kind, src, dst, ix := if gather then lo.toNat else 0, spitch := (v.s f.b.toNat).toNat
    dpitch := (v.s (f.b.toNat + 1)).toNat, rot, staging := none }
  match s.copyTrap v i c (v.s f.a.toNat) dreg (v.s f.b.toNat) (v.s (f.b.toNat + 1)) lo with
  | some t => .error t
  | none =>
    let queued := (s.copies.filter fun k => clusterOfCore k.core == clusterOfCore v.core && k.engine == engine).length
    let misses := s.copyMisses c
    if v.warp.cp ≥ 1023 || queued ≥ 64 || (!misses.isEmpty && s.mergeFull (dieOfCore v.core)) then .ok (s.stall v 4)
    else if s.deadConflict c.locks || !s.lockRoom v.core 2 then .ok (s.stall v 12)
    else
      let s := s.settleAtoms v.team.uid v.warp.num
      let w := (v.warp.setS v.split.mask f.d.toNat c.token).addCp 1
      let s := { s with
        nextId := s.nextId + 1
        copies := s.copies ++ [c]
        rlocks := s.rlocks ++ c.locks
        tokens := s.tokens ++ [(⟨c.token, v.team.uid, none, false⟩ : Token)] }
      .ok ((s.walkFor c misses).retire v w 0 8)

def rowsField (f : UE) : Nat := (f.w1.extractLsb' 20 12).toNat + 1
def rotField (f : UE) : Nat := (f.w1.extractLsb' 16 4).toNat
def rowBytesField (f : UE) : Nat := 16 * ((f.w1.extractLsb' 4 12).toNat + 1)

/-- The direction codes: global or scratchpad source and destination. -/
def srcScrOf (d : Nat) : Bool := d == 1 || d == 3
def dstScrOf (d : Nat) : Bool := d == 0 || d == 3

def execCpy (f : UE) (s : State) :=
  s.run (.cpy f) fun v =>
    let d := (f.sub.extractLsb' 0 2).toNat
    s.issueCopy (.cpy f) v f (.cpy (srcScrOf d) (dstScrOf d) (rowsField f) (rowBytesField f)) (srcScrOf d) (dstScrOf d) (rotField f)

def execCpyg (f : UE) (s : State) :=
  s.run (.cpyg f) fun v => s.issueCopy (.cpyg f) v f (.cpyg (rowsField f) (rowBytesField f)) false true (rotField f)

def execCpyx (f : UE) (s : State) :=
  s.run (.cpyx f) fun v =>
    let d := (f.sub.extractLsb' 0 2).toNat
    let e := 2 ^ (f.sub.extractLsb' 2 2).toNat
    let r := (f.w1.extractLsb' 24 8).toNat + 1
    let k := (f.w1.extractLsb' 16 8).toNat + 1
    s.issueCopy (.cpyx f) v f (.cpyx (srcScrOf d) (dstScrOf d) r k e) (srcScrOf d) (dstScrOf d) (f.w1.extractLsb' 12 4).toNat

/-! ## The engines -/

/-- Why an engine stops: a fault, or a page that is not present. -/
inductive EngineStop where
  | fault (code : Nat) (info : Word) (va : Nat)
  | notPresent (va level : Nat) (write : Bool)
  deriving DecidableEq, Repr

/-- Read bytes of a context at the home slices, after the issuing core's dirty bytes there have gone home. -/
def State.engineRead (s : State) (ctx : Nat) (core : Option Nat) (va n : Nat) : Except EngineStop (State × List Byte) :=
  (pieces va n).foldlM (fun (acc : State × List Byte) p =>
    match acc.1.xlateNow ctx p.1 .load with
    | .fault code info => .error (.fault code info p.1)
    | .notPresent l => .error (.notPresent p.1 l false)
    | .ok key =>
      if acc.1.poisoned key p.2 then .error (.fault fECC (BitVec.ofNat 32 p.1) p.1)
      else
        let s := match core with | some c => acc.1.flushRange c key p.2 | none => acc.1
        .ok (s, acc.2 ++ s.homeBytes key p.2)) (s, [])

/-- Write bytes of a context at the home slices, and drop the copies that the issuing core holds. -/
def State.enginePut (s : State) (ctx core va : Nat) (own : Bool) (bs : List Byte) : Except EngineStop State :=
  let put := fun (acc : State × List Byte) (p : Nat × Nat) =>
    match acc.1.xlateNow ctx p.1 .store with
    | .fault code info => Except.error (EngineStop.fault code info p.1)
    | .notPresent l => .error (.notPresent p.1 l true)
    | .ok key =>
      let s := acc.1.engineWrite (dieOfCore core) key (acc.2.take p.2)
      let s := if own then s.setL1 core ((s.l1Of core).filter fun e => !(key ≤ e.1 && e.1 < key + p.2)) else s
      .ok (s, acc.2.drop p.2)
  ((pieces va bs.length).foldlM put (s, bs)).map (·.1)

/-- Row i of a side in scratchpad. -/
def State.scrRow (s : State) (cluster : Nat) (d : Side) (i : Nat) : List Byte :=
  if d.rot = 0 then s.scrBytes cluster (d.base + i * d.pitch) d.len
  else (List.range d.len).map fun j => Memory.read s.scratch (scrKey cluster (bankAddr d.base d.pitch d.rot i j))

def State.scrRowPut (s : State) (cluster : Nat) (d : Side) (i : Nat) (bs : List Byte) : State :=
  if d.rot = 0 then s.scrWrite cluster (d.base + i * d.pitch) bs
  else { s with scratch := ((List.range bs.length).zip bs).foldl (fun m (j, b) =>
    Memory.write m (scrKey cluster (bankAddr d.base d.pitch d.rot i j)) b) s.scratch }

/-- Read row i of a copy's source; a gathered row of index 0xFFFF_FFFF is zero bytes (R268). -/
def State.copyRow (s : State) (c : CopyOp) (i : Nat) : Except EngineStop (State × List Byte) :=
  let d := c.source
  let cl := clusterOfCore c.core
  let core := if c.staging.isSome then none else some c.core
  if c.gathers then
    let k := natOfBytes (s.scrBytes cl (c.ix + 4 * i) 4)
    if k = 0xFFFFFFFF then .ok (s, List.replicate d.len 0)
    else s.engineRead c.ctx core ((d.base + k * d.pitch) % 2 ^ 64) d.len
  else if d.scratch then .ok (s, s.scrRow cl d i)
  else s.engineRead c.ctx core ((d.base + i * d.pitch) % 2 ^ 64) d.len

def State.copyPut (s : State) (c : CopyOp) (i : Nat) (bs : List Byte) : Except EngineStop State :=
  let d := c.target
  if d.scratch then .ok (s.scrRowPut (clusterOfCore c.core) d i bs)
  else s.enginePut c.ctx c.core ((d.base + i * d.pitch) % 2 ^ 64) c.staging.isNone bs

/-- Destination row k of a transposing copy: element k of every source row. -/
def column (rows : List (List Byte)) (e k : Nat) : List Byte := rows.flatMap fun r => (r.drop (k * e)).take e

/-- Run a copy from its first row: the state as far as it came, and why it stopped if it did. -/
def State.copyRun (s : State) (c : CopyOp) : State × Option EngineStop :=
  match c.kind with
  | .cpyx _ _ r k e =>
    let read := (List.range r).foldlM (fun (acc : State × List (List Byte)) i =>
      (acc.1.copyRow c i).map fun (s, bs) => (s, acc.2 ++ [bs])) (s, [])
    match read with
    | .error x => (s, some x)
    | .ok (s, rows) =>
      (List.range k).foldl (fun (acc : State × Option EngineStop) i =>
        match acc.2 with
        | some _ => acc
        | none =>
          match acc.1.copyPut c i (column rows e i) with
          | .ok s => (s, none)
          | .error x => (acc.1, some x)) (s, none)
  | _ =>
    (List.range c.target.rows).foldl (fun (acc : State × Option EngineStop) i =>
      match acc.2 with
      | some _ => acc
      | none =>
        match acc.1.copyRow c i with
        | .error x => (acc.1, some x)
        | .ok (s, bs) =>
          match s.copyPut c i bs with
          | .ok s => (s, none)
          | .error x => (s, some x)) (s, none)

/-- The pages of a span of a context that translate: the key of each page and the part of it that the span covers. -/
def State.spanPages (s : State) (ctx lo hi : Nat) : List (Nat × Nat × Nat) :=
  (List.range (hi / 65536 - lo / 65536 + 1)).filterMap fun i =>
    let p := (lo / 65536 + i) * 65536
    match s.xlateNow ctx (p % 2 ^ 64) .store with
    | .ok key => some (key, max lo p - p, min hi (p + 65536) - p)
    | _ => none

/-- The destination range of a copy leaves the issuing core's L1 and the far cache of its die (R266); dirty bytes between
the rows stay. -/
def State.dropTarget (s : State) (c : CopyOp) : State :=
  let d := c.target
  if d.scratch then s
  else
    let ps := s.spanPages c.ctx d.span.1 d.span.2
    let inside := fun k => ps.any fun x => decide (x.1 + x.2.1 ≤ k) && decide (k < x.1 + x.2.2)
    let die := dieOfCore c.core
    let s := s.dropClean c.core inside
    { s with far := Tab.put [] s.far die ((s.farOf die).filter fun e => !inside e.1) }

/-- The copy is over: its destination leaves the caches, its locks go, its counter falls and its token completes. -/
def State.endCopy (s : State) (c : CopyOp) (status : Nat) : State :=
  let s := s.dropTarget c
  let s := { s with
    copies := s.copies.filter (·.id != c.id)
    rlocks := s.rlocks.filter (·.op != c.id)
    tokens := modFirst (fun t => t.val == c.token && t.team == c.x.team) (fun t => { t with status := some status }) s.tokens }
  if c.staging.isSome then s else s.modWarp c.x.team c.x.warp (·.addCp (-1))

/-- A copy that may run: not abandoned, and not waiting for the page service. -/
def CopyOp.runs (c : CopyOp) : Bool := !c.dead && c.waitFor.isNone && c.failed.isNone

/-- COPY_COMPLETE: the last write is performed (R266); a copy that a page stops does not complete so. -/
def execCopyComplete (id : Nat) (s : State) : Host.Outcome State Fault Refusal :=
  match s.copies.find? fun c => c.id == id && c.runs with
  | none => .next s
  | some c =>
    match s.copyRun c with
    | (s', none) =>
      let s' := match c.staging with
        | some uid => s'.modTask uid fun t => { t with st := match t.st with
            | .staged c0 scr ps cs => .staged c0 scr ps (cs.filter (· != id))
            | st => st }
        | none => s'
      .next (s'.endCopy c 0)
    | _ => .next s

/-- An error ends the copy: every split of the issuing warp takes the fault at its next boundary (R267). -/
def State.failCopy (s : State) (c : CopyOp) (code : Nat) (info : Word) : State :=
  (s.endCopy c 1).deferWarp c.x.team c.x.warp code info

/-- COPY_ENGINE_FAULT: a page stops the copy; a flush gang is discarded, a drain team's engine waits, a refusal ends the
copy with error. Bytes already written stay. -/
def execCopyEngineFault (id : Nat) (s : State) : Host.Outcome State Fault Refusal :=
  match s.copies.find? fun c => c.id == id && !c.dead && c.staging.isNone && c.waitFor.isNone with
  | none => .next s
  | some c =>
    match c.failed with
    | some (code, info) => .next (s.failCopy c code info)
    | none =>
      match s.copyRun c with
      | (_, none) => .next s
      | (s', some (.fault code info _)) => .next (s'.failCopy c code info)
      | (s', some (.notPresent va level write)) =>
        match s'.team? c.x.team with
        | none => .next s'
        | some t =>
          let g := s'.gang? t.gang
          let info : Word := if write then 5 else 4
          if (g.map (·.drain)).getD true then
            let (s', r) := s'.requestPage c.ctx va level t.inst (s'.coreId c.core) info (.copy id va)
            .next { s' with copies := modFirst (·.id == id) (fun c => { c with waitFor := some r }) s'.copies }
          else
            let (s', r) := s'.requestPage c.ctx va level t.inst (s'.coreId c.core) info
              (.task ((g.map (·.task)).getD 0) t.inst (s'.coreId c.core) va)
            .next (s'.discardGang t.gang (.held r))

/-- An engine has stopped an abandoned copy: each row it had not reached stays as it was (spec/07 R119; log 9). -/
def State.stopCopy (s : State) (c : CopyOp) : State :=
  let s := match c.kind with
    | .cpyx _ _ _ _ _ =>
      let (s, go) := s.flip
      if go then (s.copyRun c).1 else s
    | _ =>
      (List.range c.target.rows).foldl (fun s i =>
        let (s, go) := s.flip
        if go then
          match s.copyRow c i with
          | .ok (s', bs) => (match s'.copyPut c i bs with | .ok s'' => s'' | .error _ => s')
          | .error _ => s
        else s) s
  { s with copies := s.copies.filter (·.id != c.id), rlocks := s.rlocks.filter (·.op != c.id) }

end Sys2Proof.Machine
end

