-- ==== Sys2Proof/Machine/Crypto.lean ====
section
/-!
DEFINITION. SHA-256 (FIPS 180-4) and ECDSA over P-256 (FIPS 186-5), which the firmware's verification and its reports use
(spec/01 R24, R26, R27; log 8).
-/

namespace Sys2Proof.Machine

/-! ## SHA-256 -/

/-- The largest number of k bits whose power of degree d is at most n. -/
def rootBits (d n : Nat) : Nat → Nat → Nat
  | 0, r => r
  | k + 1, r => rootBits d n k (if (r + 2 ^ k) ^ d ≤ n then r + 2 ^ k else r)

/-- The first 64 primes. -/
def shaPrimes : List Nat := (List.range 312).filter fun n => decide (2 ≤ n) && (List.range 16).all fun i => n % (i + 2) != 0 || n == i + 2

/-- The first 32 bits of the fraction of a prime's root of degree d. -/
def shaFraction (d p : Nat) : Word := BitVec.ofNat 32 (rootBits d (p * 2 ^ (32 * d)) 40 0)

/-- The constants of the rounds come from cube roots, the first hash value from the square roots of the first eight. -/
def shaK : List Word := shaPrimes.map (shaFraction 3)
def shaInit : List Word := (shaPrimes.take 8).map (shaFraction 2)

def shaSigma (a b c : Nat) (x : Word) : Word := x.rotateRight a ^^^ x.rotateRight b ^^^ x.rotateRight c
def shaSchedSigma (a b c : Nat) (x : Word) : Word := x.rotateRight a ^^^ x.rotateRight b ^^^ x >>> c

/-- The number of a list of bytes, the first the most significant. -/
def beNat (bs : List Byte) : Nat := bs.foldl (fun n b => n * 256 + b.toNat) 0

/-- A number in n bytes, the most significant first. -/
def beBytes (n x : Nat) : List Byte := (bytesOfNat n x).reverse

/-- The message schedule, newest word first, extended by n words. -/
def shaExtend : Nat → List Word → List Word
  | 0, w => w
  | n + 1, w =>
    let at' := fun i => w.getD (i - 1) 0
    shaExtend n ((shaSchedSigma 17 19 10 (at' 2) + at' 7 + shaSchedSigma 7 18 3 (at' 15) + at' 16) :: w)

/-- One round on the eight working variables. -/
def shaRound (v : List Word) (kw : Word) : List Word :=
  match v with
  | [a, b, c, d, e, f, g, h] =>
    let t1 := h + shaSigma 6 11 25 e + ((e &&& f) ^^^ (~~~e &&& g)) + kw
    let t2 := shaSigma 2 13 22 a + ((a &&& b) ^^^ (a &&& c) ^^^ (b &&& c))
    [t1 + t2, a, b, c, d + t1, e, f, g]
  | v => v

/-- One block of 16 words. -/
def shaBlock (h block : List Word) : List Word :=
  let w := (shaExtend 48 block.reverse).reverse
  let v := (w.zip shaK).foldl (fun v x => shaRound v (x.1 + x.2)) h
  List.zipWith (· + ·) h v

/-- The padded message. -/
def shaPad (m : List Byte) : List Byte :=
  m ++ [0x80] ++ List.replicate ((119 - m.length % 64) % 64) 0 ++ beBytes 8 (8 * m.length)

/-- Word i of a padded message. -/
def shaWord (p : List Byte) (i : Nat) : Word := BitVec.ofNat 32 (beNat ((p.drop (4 * i)).take 4))

def sha256 (m : List Byte) : List Byte :=
  let p := shaPad m
  let h := (List.range (p.length / 64)).foldl (fun h i => shaBlock h ((List.range 16).map fun j => shaWord p (16 * i + j))) shaInit
  h.flatMap fun w => beBytes 4 w.toNat

/-! ## The curve P-256 -/

def p256P : Nat := 0xffffffff00000001000000000000000000000000ffffffffffffffffffffffff
def p256N : Nat := 0xffffffff00000000ffffffffffffffffbce6faada7179e84f3b9cac2fc632551
def p256B : Nat := 0x5ac635d8aa3a93e7b3ebbd55769886bc651d06b0cc53b0f63bce3c3e27d2604b

/-- A point; none is the point at infinity. -/
abbrev CurvePoint := Option (Nat × Nat)

def p256G : CurvePoint :=
  some (0x6b17d1f2e12c4247f8bce6e563a440f277037d812deb33a0f4a13945d898c296,
        0x4fe342e2fe1a7f9b8ee7eb4a7c0f9e162bce33576b315ececbb6406837bf51f5)

/-- x to the power of the number whose lowest k bits e has, modulo m. -/
def powMod (m : Nat) : Nat → Nat → Nat → Nat
  | 0, _, _ => 1
  | k + 1, x, e =>
    let y := powMod m k (x * x % m) (e / 2)
    if e % 2 = 1 then x * y % m else y

/-- The inverse modulo a prime. -/
def invMod (m x : Nat) : Nat := powMod m 256 (x % m) (m - 2)

def subMod (m a b : Nat) : Nat := (a + (m - b % m)) % m

def curveAdd : CurvePoint → CurvePoint → CurvePoint
  | none, b => b
  | a, none => a
  | some (x1, y1), some (x2, y2) =>
    let third := fun l =>
      let x3 := subMod p256P (subMod p256P (l * l) x1) x2
      some (x3, subMod p256P (l * subMod p256P x1 x3) y1)
    if x1 = x2 then
      if (y1 + y2) % p256P = 0 then none
      else third (subMod p256P (3 * x1 * x1) 3 * invMod p256P (2 * y1) % p256P)
    else third (subMod p256P y2 y1 * invMod p256P (subMod p256P x2 x1) % p256P)

/-- The multiple of a point by a number of k bits. -/
def curveMul : Nat → Nat → CurvePoint → CurvePoint
  | 0, _, _ => none
  | k + 1, e, p =>
    let r := curveMul k (e / 2) (curveAdd p p)
    if e % 2 = 1 then curveAdd p r else r

def onCurve (x y : Nat) : Bool :=
  decide (x < p256P) && decide (y < p256P) && (y * y) % p256P == (x * x * x + (p256P - 3) * x + p256B) % p256P

/-! ## ECDSA -/

/-- The signature r, s of a digest under private key d and secret k; none where the standard asks for another secret. -/
def ecdsaSign (d k : Nat) (digest : List Byte) : Option (Nat × Nat) :=
  match curveMul 256 k p256G with
  | none => none
  | some (x, _) =>
    let r := x % p256N
    let s := invMod p256N k * (beNat digest + r * d) % p256N
    if r = 0 || s = 0 then none else some (r, s)

def ecdsaVerify (qx qy : Nat) (digest : List Byte) (r s : Nat) : Bool :=
  let inRange := fun n => decide (0 < n) && decide (n < p256N)
  inRange r && inRange s && onCurve qx qy &&
    let w := invMod p256N s
    match curveAdd (curveMul 256 (beNat digest * w % p256N) p256G) (curveMul 256 (r * w % p256N) (some (qx, qy))) with
    | some (x, _) => x % p256N == r
    | none => false

/-- The public key of a private key. -/
def publicKey (d : Nat) : Nat × Nat := (curveMul 256 d p256G).getD (0, 0)

end Sys2Proof.Machine
end

