-- ==== Sys2Proof/Machine/Matrix.lean ====
section
/-!
DEFINITION. The matrix unit (spec/17): tiles and their elements (R270, R271; spec/05 R75 to R77), operands (R272 to
R276), the issue checks (R282), the sequencer (R277 to R280) and matrix faults (R283, R284).
-/

namespace Sys2Proof.Machine

/-! ## Accumulator elements -/

/-- Slots of a shape (R269). -/
def shapeSlots (sh : BitVec 2) : Nat := shapeRows sh * shapeCols sh / 1536

/-- An element while contributions are made to it: N, its class, the flags raised, and how often it was pinned. -/
structure AccSt where
  n     : Int
  el    : AccElem
  flags : Word := 0
  sats  : Nat := 0
  deriving DecidableEq, Repr

/-- What a product contributes (spec/05 R77). -/
inductive Contrib where
  | nan (signalling : Bool)
  | invalid
  | inf (neg : Bool)
  | num (d : Dy)
  deriving DecidableEq, Repr

def contribOf (a b : FVal) : Contrib :=
  match a, b with
  | .nan s, y => .nan (s || y.isSnan)
  | _, .nan s => .nan s
  | .inf x, .inf y => .inf (x != y)
  | .inf x, .num d => if d.m = 0 then .invalid else .inf (x != d.neg)
  | .num d, .inf y => if d.m = 0 then .invalid else .inf (d.neg != y)
  | .num x, .num y => .num (x.mul y)

/-- A number as a count of units of 2^(A − 64), toward zero, and whether bits were lost (spec/05 R76). -/
def unitsOf (anchor : Int) (d : Dy) : Int × Bool :=
  let sh := d.e - (anchor - 64)
  let mag := if 0 ≤ sh then shiftUp d.m sh else d.m / pow2 (-sh).toNat
  (if d.neg then -(mag : Int) else mag, decide (sh < 0) && d.m % pow2 (-sh).toNat != 0)

def accMax : Int := 2 ^ 127 - 1
def accMin : Int := -2 ^ 127

/-- N becomes x, or the element is pinned at the bound of its sign. -/
def AccSt.setN (t : AccSt) (x : Int) : AccSt :=
  if accMin ≤ x && x ≤ accMax then { t with n := x }
  else { t with
    n := if x < 0 then accMin else accMax, el := { t.el with pinned := true }
    flags := t.flags ||| flagOVF ||| flagALIGN, sats := t.sats + 1 }

/-- The class becomes NaN. -/
def AccSt.toNan (t : AccSt) (inv : Bool) : AccSt :=
  { t with
    el := { t.el with cls := .nan }
    flags := t.flags ||| flagIf (t.el.cls != .nan) flagNANM ||| flagIf inv flagINV }

/-- One contribution (spec/05 R76, R77). A finite one adds to N whatever the class (log 18). -/
def AccSt.contribute (anchor : Int) (t : AccSt) : Contrib → AccSt
  | .nan s => t.toNan s
  | .invalid => t.toNan true
  | .inf neg =>
    let (mine, other) := if neg then (t.el.negNote, t.el.posNote) else (t.el.posNote, t.el.negNote)
    let inv := other && !mine
    let cls := if neg then AccClass.negInf else .posInf
    let t := if t.el.cls = .finite || t.el.cls = cls then
        { t with el := { t.el with cls }, flags := t.flags ||| flagIf inv flagINV }
      else t.toNan inv
    { t with el := if neg then { t.el with negNote := true } else { t.el with posNote := true } }
  | .num d =>
    if t.el.pinned then t
    else
      let (x, lost) := unitsOf anchor d
      AccSt.setN { t with flags := t.flags ||| flagIf lost flagALIGN } (t.n + x)

/-- Register entry and first lane of element e of the tile that begins at slot k (R270), as a key of entries. -/
def Warp.accKey (w : Warp) (k e : Nat) : Nat :=
  32 * (w.vbound + 192 * (k + e / 1536) + e % 1536 / 8) + 4 * (e % 8)

def Warp.accN (w : Warp) (k e : Nat) : Int :=
  signedOf 128 (packElems 32 ((Tab.getRange 0 w.entries (w.accKey k e) 4).map BitVec.toNat))

/-- Words of a number, the lowest first. -/
def wordsOfNat (n x : Nat) : List Word := (List.range n).map fun i => BitVec.ofNat 32 (x / 2 ^ (32 * i))

def Warp.setAccN (w : Warp) (k e : Nat) (n : Int) : Warp :=
  { w with entries := Tab.putRange 0 w.entries (w.accKey k e) (wordsOfNat 4 (wrapNat 128 n)) }

def Warp.slot (w : Warp) (n : Nat) : Slot := Tab.get {} w.slots n
def Warp.modSlot (w : Warp) (n : Nat) (f : Slot → Slot) : Warp := { w with slots := Tab.upd {} w.slots n f }

/-- Raise a saturation count (spec/05 R89). -/
def Slot.count (sl : Slot) (n : Nat) : Slot := { sl with sat := BitVec.ofNat 32 (min (sl.sat.toNat + n) 0xFFFFFFFF) }

/-- Change element e of the tile at slot k; f is given the slot's anchor. Answers the flags raised. -/
def Warp.updElem (w : Warp) (k e : Nat) (f : Int → AccSt → AccSt) : Warp × Word :=
  let sl := w.slot (k + e / 1536)
  let old : AccSt := ⟨w.accN k e, Tab.get {} sl.elems (e % 1536), 0, 0⟩
  let t := f sl.anchor old
  let w := if t.n = old.n then w else w.setAccN k e t.n
  let w := if t.el = old.el && t.sats = 0 then w
    else w.modSlot (k + e / 1536) fun sl => ({ sl with elems := Tab.put {} sl.elems (e % 1536) t.el }).count t.sats
  (w, t.flags)

/-- Change elements in order. -/
def Warp.updElems (w : Warp) (k : Nat) (es : List (Nat × (Int → AccSt → AccSt))) : Warp × Word :=
  es.foldl (fun (acc : Warp × Word) e =>
    let (w, fl) := acc.1.updElem k e.1 e.2
    (w, acc.2 ||| fl)) (w, 0)

/-! ## Operands (R272 to R276) -/

/-- Logical K of a step (R269). -/
def stepK (fmt : Nat) (sp : Bool) : Nat :=
  match operandClass (BitVec.ofNat 4 fmt) with
  | some c => (256 / c) * (if sp then 2 else 1)
  | none => 0

/-- Bytes of a line of n stored elements. -/
def lineBytes (fmt n : Nat) : Nat :=
  if 6 ≤ fmt && fmt ≤ 8 then n / 16 * (2 * blockHalfwords fmt)
  else match operandClass (BitVec.ofNat 4 fmt) with
    | some c => n * c / 8
    | none => 0

/-- Elements of a line; none is an escape. MXFP4 elements are not scaled yet. -/
def lineElems (fmt n : Nat) (bs : List Byte) : List (Option FVal) :=
  let image := natOfBytes bs
  if 6 ≤ fmt && fmt ≤ 8 then
    let k := qbMag fmt
    let size := 16 * blockHalfwords fmt
    (List.range n).map fun j =>
      let b := bitsOf image (size * (j / 16)) size
      let (mu, x) := qbField k b (j % 16)
      if b % 256 = 255 then some (.nan false) else (qbValue k (b % 256) mu x).map .num
  else if fmt = 5 then (List.range n).map fun j => some (e2m1.decode (bitsOf image (4 * j) 4))
  else if isIntCode fmt then
    let f := intFormat fmt
    (List.range n).map fun j => some (.num (Dy.ofInt (intRead f (bitsOf image (f.1 * j) f.1)) 0))
  else
    let f := fmtOf fmt
    (List.range n).map fun j => some (f.decode (bitsOf image (f.width * j) f.width))

/-- Registers of one step of a register operand (R274). -/
def stepRegs (lines bytes : Nat) : Nat := (lines * bytes + 127) / 128

/-- Line l of step s. -/
def State.readLine (s : State) (w : Warp) (core : Nat) (o : MatOperand) (lines bytes step l : Nat) : List Byte :=
  match o with
  | .scratch base tp lp rot => s.scrRow (clusterOfCore core) ⟨true, base + 64 * tp * step, lp, rot, lines, bytes⟩ l
  | .regs v =>
    let key := 32 * (v + stepRegs lines bytes * step) + l * bytes / 4
    (Tab.getRange 0 w.entries key (bytes / 4)).flatMap fun x => bytesOfNat 4 x.toNat

/-- A stop of the unit: code and TRAPINFO (R284). -/
structure MatStop where
  code : Nat
  info : Word
  deriving DecidableEq, Repr

def matInfo (step operand line low : Nat) : Word :=
  BitVec.ofNat 32 (step % 4096 * 2 ^ 20 + operand * 2 ^ 19 + line * 256 + low)

/-- Scale words of line l: SEQ must be the K-block index (spec/05 R67, R68). Answers the scales, or the index expected. -/
def State.scales (s : State) (core d lines step k l : Nat) : Except Nat (List Nat) :=
  (List.range (k / 32)).mapM fun t =>
    let x := natOfBytes (s.scrBytes (clusterOfCore core) (d + 2 * (k / 32) * (step * lines + l) + 2 * t) 2)
    let want := ((k / 32) * step + t) % 256
    if x / 256 = want then .ok (x % 256) else .error want

/-- Scale an E2M1 element. -/
def mxScaled (scale : Nat) : FVal → FVal
  | .num d => if scale = 255 then .nan false else .num (dyScale d ((scale : Int) - 127))
  | v => v

/-- Replace escapes by side-list entries, slab by slab (R276); answers the elements and the first slab with an excess. -/
def resolveEscapes (side : Nat → Nat → Option FVal) : Nat → Nat → Option Nat → List (Option FVal) →
    List FVal × Option Nat
  | _, _, bad, [] => ([], bad)
  | p, n, bad, x :: xs =>
    let n := if p % 2048 = 0 then 0 else n
    match x with
    | some v =>
      let r := resolveEscapes side (p + 1) n bad xs
      (v :: r.1, r.2)
    | none =>
      match side (p / 2048) n with
      | some v =>
        let r := resolveEscapes side (p + 1) (n + 1) bad xs
        (v :: r.1, r.2)
      | none =>
        let r := resolveEscapes side (p + 1) (n + 1) (some (bad.getD (p / 2048))) xs
        (zeroVal :: r.1, r.2)

def slabsOf (lines k : Nat) : Nat := (lines * k + 2047) / 2048

/-- Cut a list into pieces of n. -/
def chunksOf {α : Type} (n : Nat) : Nat → List α → List (List α)
  | 0, _ => []
  | fuel + 1, l => l.take n :: chunksOf n fuel (l.drop n)

/-- An operand of a step as read: its lines of elements before escapes and scales. -/
structure StepIn where
  which : Nat
  fmt   : Nat
  lines : Nat
  k     : Nat
  desc  : Option Word
  rows  : List (List (Option FVal))
  deriving DecidableEq, Repr

def State.stepIn (s : State) (w : Warp) (core which fmt : Nat) (o : MatOperand) (desc : Option Word)
    (lines k step : Nat) : StepIn :=
  let bytes := lineBytes fmt k
  ⟨which, fmt, lines, k, desc,
    (List.range lines).map fun l => lineElems fmt k (s.readLine w core o lines bytes step l)⟩

/-- The scales of every line, or SCALEMIS at the lowest line. -/
def State.stepScales (s : State) (core step : Nat) (x : StepIn) : Except MatStop (List (List Nat)) :=
  if x.fmt = 5 then
    let d := (x.desc.getD 0).toNat
    (List.range x.lines).mapM fun l =>
      match s.scales core d x.lines step x.k l with
      | .ok r => .ok r
      | .error want => .error ⟨fSCALEMIS, matInfo step x.which l want⟩
  else .ok []

/-- Escapes resolved and scales applied. The second part is the first slab with an excess. -/
def State.stepValues (s : State) (core step : Nat) (x : StepIn) (scales : List (List Nat)) :
    List (List FVal) × Option Nat :=
  if x.fmt = 5 then
    ((x.rows.zip scales).map fun (r, sc) => (r.zip (List.range x.k)).map fun (e, j) =>
      mxScaled (sc.getD (j / 32) 0) (e.getD zeroVal), none)
  else
    let side := fun z n =>
      match x.desc with
      | some d =>
        if n < 32 then
          let at' := d.toNat + 64 * (step * slabsOf x.lines x.k + z) + 2 * n
          some (bf16.decode (natOfBytes (s.scrBytes (clusterOfCore core) at' 2)))
        else none
      | none => none
    let (vs, bad) := resolveEscapes side 0 0 none x.rows.flatten
    (chunksOf x.k x.lines vs, bad)

/-! ## 2:4 sparsity (R275) -/

def validNibble (n : Nat) : Bool := n % 4 < n / 4

/-- The nibbles of line i of a step. -/
def State.nibbles (s : State) (core m rows k step i : Nat) : List Nat :=
  let x := natOfBytes (s.scrBytes (clusterOfCore core) (m + (step * rows + i) * (k / 8)) (k / 8))
  (List.range (k / 4)).map fun q => bitsOf x (4 * q) 4

/-- The lowest line and group with an invalid nibble. -/
def badNibble? (ns : List (List Nat)) : Option (Nat × Nat) :=
  (ns.zip (List.range ns.length)).findSome? fun (l, i) => (l.findIdx? (!validNibble ·)).map fun q => (i, q)

/-- Kept elements at their logical positions. -/
def expandLine : List Nat → List FVal → List FVal
  | [], _ => []
  | n :: ns, vs =>
    (List.range 4).map (fun p =>
      if p = n % 4 then vs.headD zeroVal else if p = n / 4 then (vs.drop 1).headD zeroVal else zeroVal) ++
      expandLine ns (vs.drop 2)

/-! ## Steps -/

/-- What a step answers: the warp, the flags, and a stop. -/
structure MatRes where
  w     : Warp
  flags : Word := 0
  stop  : Option MatStop := none
  deriving DecidableEq, Repr

/-- The numeric trap of a step (spec/05 R88): NaN before INV before OVF. -/
def matTrap (fctl flags : Word) (step : Nat) : Option MatStop :=
  if fctlTRAPNAN fctl && flags &&& flagNANM != 0 then some ⟨fNANTRAP, matInfo step 0 0 0⟩
  else if fctlTRAPINV fctl && flags &&& flagINV != 0 then some ⟨fNANTRAP, matInfo step 0 0 1⟩
  else if fctlTRAPOVF fctl && flags &&& flagOVF != 0 then some ⟨fNANTRAP, matInfo step 0 0 2⟩
  else none

def MatRes.numeric (r : Warp × Word) (fctl : Word) (step : Nat) : MatRes :=
  ⟨r.1, r.2, matTrap fctl r.2 step⟩

def escStop (fctl : Word) (step : Nat) (bad : List (Nat × Option Nat)) : Option MatStop :=
  if fctlESCTRAP fctl then
    bad.findSome? fun x => x.2.map fun slab => ⟨fESCX, matInfo step x.1 slab 0⟩
  else none

def escFlags (bad : List (Option Nat)) : Word := flagIf (bad.any Option.isSome) flagESCX

/-- Every product of row i of A and column j of B into element (i, j) (R287). -/
def Warp.mulStep (w : Warp) (k cols : Nat) (as bs : List (List FVal)) : Warp × Word :=
  w.updElems k ((as.zip (List.range as.length)).flatMap fun (la, i) => (bs.zip (List.range bs.length)).map fun (lb, j) =>
    (i * cols + j, fun anchor (t : AccSt) => (la.zip lb).foldl (fun t p => t.contribute anchor (contribOf p.1 p.2)) t))

/-- One step of MLOOP, with its checks in the order of R283. -/
def State.mloopStep (s : State) (w : Warp) (op : MatOp) (fa fb : BitVec 4) (a b : MatOperand) (sparse : Option Nat)
    (descA descB : Option Word) : MatRes :=
  let rows := shapeRows op.shape
  let cols := shapeCols op.shape
  let k := stepK fa.toNat sparse.isSome
  let xa := s.stepIn w op.core 0 fa.toNat a descA rows (if sparse.isSome then k / 2 else k) op.step
  let xb := s.stepIn w op.core 1 fb.toNat b descB cols k op.step
  match s.stepScales op.core op.step xa, s.stepScales op.core op.step xb with
  | .error e, _ => ⟨w, 0, some e⟩
  | _, .error e => ⟨w, 0, some e⟩
  | .ok sa, .ok sb =>
    let nibs := match sparse with
      | some m => (List.range rows).map (s.nibbles op.core m rows k op.step)
      | none => []
    match badNibble? nibs with
    | some (i, q) => ⟨w, 0, some ⟨fSPARSEMETA, matInfo op.step 0 i q⟩⟩
    | none =>
      let (va, ea) := s.stepValues op.core op.step xa sa
      let (vb, eb) := s.stepValues op.core op.step xb sb
      match escStop op.fctl op.step [(0, ea), (1, eb)] with
      | some e => ⟨w, flagESCX, some e⟩
      | none =>
        let va := if sparse.isSome then (nibs.zip va).map fun (n, l) => expandLine n l else va
        let r := w.mulStep op.slot cols va vb
        MatRes.numeric (r.1, r.2 ||| escFlags [ea, eb]) op.fctl op.step

/-- The elements of X that MXFORM adds into row i of column j (R288). -/
def mxformPick (op k i : Nat) (xi : Nat) (col : List FVal) : List FVal :=
  if op = 0 then (if i < k then [col.getD i zeroVal] else [])
  else if op = 1 then (if xi < k then [col.getD xi zeroVal] else [])
  else col

def State.mxformStep (s : State) (w : Warp) (op : MatOp) (fx : BitVec 4) (code : Nat) (x : MatOperand) (ix : Nat)
    (descB : Option Word) : MatRes :=
  let rows := shapeRows op.shape
  let cols := shapeCols op.shape
  let k := stepK fx.toNat false
  let xb := s.stepIn w op.core 1 fx.toNat x descB cols k 0
  match s.stepScales op.core 0 xb with
  | .error e => ⟨w, 0, some e⟩
  | .ok sb =>
    let (vb, eb) := s.stepValues op.core 0 xb sb
    match escStop op.fctl 0 [(1, eb)] with
    | some e => ⟨w, flagESCX, some e⟩
    | none =>
      let xs := s.scrBytes (clusterOfCore op.core) ix rows
      let one : FVal := .num ⟨false, 1, 0⟩
      let r := w.updElems op.slot ((List.range rows).flatMap fun i => (vb.zip (List.range cols)).map fun (col, j) =>
        (i * cols + j, fun anchor (t : AccSt) =>
          (mxformPick code k i (xs.getD i 0).toNat col).foldl (fun t v => t.contribute anchor (contribOf one v)) t))
      MatRes.numeric (r.1, r.2 ||| escFlags [eb]) op.fctl 0

/-- The slots of a tile. -/
def tileSlots (op : MatOp) : List Nat := (List.range (shapeSlots op.shape)).map (op.slot + ·)

/-- MCLR (R289): N, class, notes and count; the anchor stays. -/
def Warp.clearSlot (w : Warp) (n : Nat) : Warp :=
  let key := 32 * (w.vbound + 192 * n)
  { w.modSlot n fun sl => { sl with elems := [], sat := 0 } with
    entries := Tab.putRange 0 w.entries key (List.replicate 6144 0) }

/-- MANCHOR of one finite element (R290). -/
def AccSt.reanchor (d : Int) (t : AccSt) : AccSt :=
  if t.el.pinned || t.el.cls != .finite then t
  else if 0 < d then
    let p : Int := pow2 d.toNat
    { t with n := t.n / p, flags := t.flags ||| flagIf (t.n % p != 0) flagALIGN }
  else t.setN (t.n * pow2 (-d).toNat)

def Warp.anchorSlot (w : Warp) (n : Nat) (anchor : Int) : Warp × Word :=
  let d := anchor - (w.slot n).anchor
  let r := if d = 0 then (w, 0) else w.updElems n ((List.range 1536).map fun e => (e, fun _ t => t.reanchor d))
  (r.1.modSlot n fun sl => { sl with anchor }, r.2)

/-- MLOADA replaces an element (R291); N of an infinity or a NaN is not stated. -/
def AccSt.replace (anchor : Int) (free : BitVec 128) (t : AccSt) (v : FVal) : AccSt :=
  match v with
  | .num d =>
    let (x, lost) := unitsOf anchor d
    AccSt.setN { t with el := {}, flags := t.flags ||| flagIf lost flagALIGN } x
  | .inf neg =>
    { t with n := free.toInt
             el := if neg then { cls := .negInf, negNote := true } else { cls := .posInf, posNote := true } }
  | .nan s => { t with n := free.toInt, el := { cls := .nan }, flags := t.flags ||| flagNANM ||| flagIf s flagINV }

/-- The image of the elements of rows, in registers from r on (R293). -/
def Warp.imageAt (w : Warp) (r regs : Nat) : Nat :=
  packElems 32 ((Tab.getRange 0 w.entries (32 * r) (32 * regs)).map BitVec.toNat)

def Warp.setImage (w : Warp) (r regs x : Nat) : Warp :=
  { w with entries := Tab.putRange 0 w.entries (32 * r) (wordsOfNat (32 * regs) x) }

def imageCount (f : BitVec 4) (rows cols : Nat) : Nat := (rows * cols * formatWidth f + 1023) / 1024

def Warp.mloada (w : Warp) (op : MatOp) (f : BitVec 4) (add : Bool) (va row0 rows freeCtr : Nat) : Warp × Word :=
  let cols := shapeCols op.shape
  let n := formatWidth f
  let image := w.imageAt va (imageCount f rows cols)
  let one : FVal := .num ⟨false, 1, 0⟩
  w.updElems op.slot ((List.range (rows * cols)).map fun p =>
    let v := sourceVal f.toNat (bitsOf image (n * p) n)
    (row0 * cols + p, fun anchor (t : AccSt) =>
      if add then t.contribute anchor (contribOf one v) else t.replace anchor (Config.freeAcc (freeCtr + p)) v))

/-- The value that MROUND converts (R293). -/
def Warp.roundValue (w : Warp) (k e : Nat) (shift : Int) : FVal :=
  let sl := w.slot (k + e / 1536)
  match (Tab.get {} sl.elems (e % 1536)).cls with
  | .nan => .nan false
  | .posInf => .inf false
  | .negInf => .inf true
  | .finite => .num (Dy.ofInt (w.accN k e) (sl.anchor - 64 + shift))

/-- Conversion of one row (spec/05 R78 to R83). -/
def roundRow (f : BitVec 4) (rnd : BitVec 3) (mode : RMode) (sat : Bool) (xs : List FVal) : List (Nat × Word) :=
  let code := f.toNat
  if isIntCode code then xs.map (toIntFormat (intFormat code) mode)
  else if rnd = 5 then
    (chunksOf 16 (xs.length / 16) xs).flatMap fun b =>
      (efRun (fmtTarget (fmtOf code) sat) zeroVal (b.map fun x => some (x, false))).map (·.getD (0, 0))
  else xs.map ((fmtOf code).narrow mode sat)

/-- MROUND: a saturated element sets INX beside SAT and counts once (R298; log 19). -/
def Warp.mround (w : Warp) (op : MatOp) (f : BitVec 4) (rnd : BitVec 3) (satBit : Bool) (shift : Int)
    (vd row0 rows : Nat) : MatRes :=
  let cols := shapeCols op.shape
  let sat := satBit || fctlSATDEF op.fctl
  let outs := (List.range rows).flatMap fun i =>
    roundRow f rnd (rndMode op.fctl rnd) sat ((List.range cols).map fun j =>
      w.roundValue op.slot ((row0 + i) * cols + j) shift)
  let isSat := fun (g : Word) => g &&& flagSAT != 0
  let flags := outs.foldl (fun a o => a ||| o.2 ||| flagIf (isSat o.2) flagINX) 0
  let counts := (outs.zip (List.range outs.length)).foldl (fun w (o, p) =>
    if isSat o.2 then w.modSlot (op.slot + (row0 * cols + p) / 1536) (·.count 1) else w) w
  match matTrap op.fctl flags 0 with
  | some t => ⟨counts, flags, some t⟩
  | none => ⟨counts.setImage vd (imageCount f rows cols) (packElems (formatWidth f) (outs.map (·.1))), flags, none⟩

/-- MSTAT's value (R296). -/
def Warp.mstat (w : Warp) (op : MatOp) (nanCount : Bool) : Word :=
  let sls := (tileSlots op).map w.slot
  BitVec.ofNat 32 (if nanCount then (sls.flatMap (·.elems)).countP fun e => e.2.cls == .nan
    else min ((sls.map (·.sat.toNat)).sum) 0xFFFFFFFF)

/-- One step of an operation. -/
def State.matStep (s : State) (w : Warp) (op : MatOp) : MatRes :=
  match op.kind with
  | .mloop fa fb a b _ sparse da db => s.mloopStep w op fa fb a b sparse da db
  | .mxform fx code x ix db => s.mxformStep w op fx code x ix db
  | .mclr _ => ⟨(tileSlots op).foldl Warp.clearSlot w, 0, none⟩
  | .manchor a =>
    MatRes.numeric ((tileSlots op).foldl (fun (acc : Warp × Word) n =>
      let r := acc.1.anchorSlot n a
      (r.1, acc.2 ||| r.2)) (w, 0)) op.fctl 0
  | .mloada f add va row0 rows => MatRes.numeric (w.mloada op f add va row0 rows s.freeCtr) op.fctl 0
  | .mround f rnd sat shift vd row0 rows => w.mround op f rnd sat shift vd row0 rows
  | .mstat nanCount sd => ⟨w.setS op.dest sd (w.mstat op nanCount), 0, none⟩

def MatOp.steps (op : MatOp) : Nat :=
  match op.kind with
  | .mloop _ _ _ _ n _ _ _ => n
  | _ => 1

/-- Values of the free stream that a step may have used. -/
def MatOp.drawn (op : MatOp) : Nat :=
  match op.kind with
  | .mloada _ false _ _ rows => rows * shapeCols op.shape
  | _ => 0

/-- Registers that steps after this one still read (R279). -/
def MatOp.laterRegs (op : MatOp) : List Nat :=
  match op.kind with
  | .mloop fa fb a b steps sparse _ _ =>
    let k := stepK fa.toNat sparse.isSome
    let from' := fun (o : MatOperand) (lines bytes : Nat) =>
      match o with
      | .scratch _ _ _ _ => []
      | .regs v =>
        let n := stepRegs lines bytes
        (List.range (n * (steps - (op.step + 1)))).map (v + n * (op.step + 1) + ·)
    from' a (shapeRows op.shape) (lineBytes fa.toNat (if sparse.isSome then k / 2 else k)) ++
      from' b (shapeCols op.shape) (lineBytes fb.toNat k)
  | _ => []

/-! ## Batches (R278) -/

/-- Closed batches that are complete leave, in order, and MB falls. -/
def Warp.settleBatches (w : Warp) : Warp :=
  let left := w.closed.dropWhile (·.2.isEmpty)
  { w with closed := left, mb := w.mb - (w.closed.length - left.length) }

/-- Operations of the warp are complete or abandoned. -/
def Warp.endMat (w : Warp) (ids : List Nat) : Warp :=
  { w with
    holds := w.holds.filter fun h => !ids.contains h.id
    openOps := w.openOps.filter (!ids.contains ·)
    closed := w.closed.map fun (b : Nat × List Nat) => (b.1, b.2.filter (!ids.contains ·)) }.settleBatches

def State.endMat (s : State) (x : Sel) (ids : List Nat) : State :=
  { s with
    matOps := s.matOps.filter fun m => !ids.contains m.id
    rlocks := s.rlocks.filter fun r => !ids.contains r.op }.modWarp x.team x.warp (·.endMat ids)

/-- A matrix fault (R283): the operation and every later one of the warp are abandoned; the fault waits for a split, and
with it the WAITs that cover its batch. -/
def State.matrixFault (s : State) (op : MatOp) (e : MatStop) : State :=
  let later := s.matOps.filter fun m => m.x.team == op.x.team && m.x.warp == op.x.warp
  let mb := (((s.team? op.x.team).bind (·.warp? op.x.warp)).map (·.mb)).getD 0
  (s.endMat op.x (later.map (·.id))).deferLowest op.x op.mask e.code e.info 0 mb

def State.matrixRun (s : State) (op : MatOp) : State :=
  match (s.team? op.x.team).bind (·.warp? op.x.warp) with
  | none => { s with matOps := s.matOps.filter (·.id != op.id) }
  | some w =>
    let r := s.matStep w op
    let s := { s with freeCtr := s.freeCtr + op.drawn }
    let s := s.modTeam op.x.team fun t => (t.modWarp op.x.warp fun _ => r.w).raise s.clock r.flags
    match r.stop with
    | some e => s.matrixFault op e
    | none =>
      if op.step + 1 < op.steps then
        let s := s.modWarp op.x.team op.x.warp fun w => { w with
          holds := modFirst (·.id == op.id) (fun h => { h with vregs := op.laterRegs }) w.holds }
        { s with matOps := modFirst (·.id == op.id) (fun m => { m with step := m.step + 1 }) s.matOps }
      else s.endMat op.x [op.id]

/-- MATRIX_STEP: the unit of a core runs the next step of its first operation. -/
def execMatrixStep (core : Nat) (s : State) : Host.Outcome State Fault Refusal :=
  match s.matOps.find? (·.core == core) with
  | some op => .next (s.matrixRun op)
  | none => .next s

/-! ## Issue (R282) -/

/-- What an input of an operation asks of the issue checks: registers read, a run that reaches VBOUND, ILLOP cases with
their register values, offsets that must be multiples of 16, and a scratchpad range. -/
structure MatIn where
  vregs : List Nat := []
  bad   : Bool := false
  ill   : List (Bool × Word) := []
  mis   : Option Word := none
  range : Option (Nat × Nat) := none
  deriving DecidableEq, Repr

/-- The operand that a register or a pair names, with its checks (R273, R274). -/
def View.matOperand (v : View) (r : BitVec 6) (isReg : Bool) (lines bytes steps : Nat) : MatOperand × MatIn :=
  let lo := v.s r.toNat
  if isReg then
    let first := lo.toNat % 256
    let n := stepRegs lines bytes * steps
    (.regs first, {
      vregs := (List.range n).map (first + ·), bad := decide (first + n > v.warp.vbound)
      ill := [(lo.extractLsb' 8 24 != 0, lo)] })
  else
    let hi := v.s (r.toNat + 1)
    let base := lo.toNat % 2 ^ 22
    let rot := (hi.extractLsb' 28 4).toNat
    let tp := (hi.extractLsb' 16 12).toNat
    let lp := (hi.extractLsb' 0 16).toNat
    (.scratch base tp lp rot, {
      ill := [(lo.extractLsb' 22 10 != 0, lo), (lp % 16 != 0, hi), (rot != 0 && (lp % 1024 != 0 || decide (bytes > 1024)), hi)]
      mis := some ((lo.extractLsb' 0 22).zeroExtend 32)
      range := some (base, base + 64 * tp * (steps - 1) + (lines - 1) * lp + bytes) })

/-- An offset in a uniform register with n bytes there (R275, R276, R288). -/
def offsetIn (x : Word) (n : Nat) : MatIn :=
  { ill := [(x.extractLsb' 22 10 != 0, x)], mis := some ((x.extractLsb' 0 22).zeroExtend 32)
    range := some (x.toNat % 2 ^ 22, x.toNat % 2 ^ 22 + n) }

/-- The stream that a format takes through its descriptor (R276). -/
def descIn (fmt : Nat) (d : Option Word) (lines k steps : Nat) : List MatIn :=
  if fmt = 5 then
    match d with
    | some x => [offsetIn x (2 * (k / 32) * lines * steps)]
    | none => [{ ill := [(true, 0)] }]
  else if 6 ≤ fmt && fmt ≤ 8 then
    match d with
    | some x => [offsetIn x (64 * slabsOf lines k * steps)]
    | none => []
  else []

/-- Widen to whole bank rows (R280). -/
def widen (r : Nat × Nat) : Nat × Nat := (r.1 / 1024 * 1024, (r.2 + 1023) / 1024 * 1024)

/-- The reason of a pending write to registers that the operation reads (R279). -/
def Warp.pendingOn (w : Warp) (regs : List Nat) : Option Nat :=
  ((w.holds.filter fun h => !h.src && h.vregs.any regs.contains).map (·.reason)).min?

/-- Word 1's tile: first slot and shape. -/
def UE.slot (f : UE) : Nat := (f.w1.extractLsb' 3 3).toNat
def UE.shape (f : UE) : BitVec 2 := f.w1.extractLsb' 1 2

/-- The slots of the tile exist (spec/03 R46). -/
def View.tileOk (v : View) (f : UE) : Bool :=
  decide (v.warp.vbound + 192 * (UE.slot f + shapeSlots (UE.shape f)) ≤ v.warp.budget)

/-- The checks of R282, first to last; then the operation is queued, or its split waits. -/
def State.issueMat (s : State) (v : View) (i : Instr) (f : UE) (kind : MatKind) (ins : List MatIn) (vdest sdest : List Nat)
    (lives : Bool) : Except Trap State :=
  let regs := ins.flatMap (·.vregs)
  let id := s.nextId
  let core := v.core
  let spans := ins.filterMap fun x => x.range.map fun r => (x.mis.getD 0, widen r)
  let locks : List RLock := spans.map fun x => ⟨id, core, true, x.2.1, x.2.2, false, false⟩
  let full := decide ((s.matOps.filter (·.core == core)).length ≥ 32)
  match v.warp.pendingOn regs with
  | some r => .ok (s.stall v (if full then min r 5 else r))
  | none =>
    if !v.tileOk f || ins.any (·.bad) then .error ⟨fILLREG, Instr.word0 i, 0, 0⟩
    else
      match (ins.flatMap (·.ill)).find? (·.1), (ins.filterMap (·.mis)).find? (fun x => x.toNat % 16 != 0),
          spans.find? (fun x => !s.scrAllowed v.team x.2.1 (x.2.2 - x.2.1)), s.rangesConflict? locks with
      | some x, _, _, _ => .error ⟨fILLOP, x.2, 0, 0⟩
      | none, some x, _, _ => .error ⟨fMISALIGN, x, 0, 0⟩
      | none, none, some x, _ => .error ⟨fPROT, x.1, 0, 0⟩
      | none, none, none, some x => .error ⟨fRLOCK, BitVec.ofNat 32 x, 0, 0⟩
      | none, none, none, none =>
        if full then .ok (s.stall v 5)
        else if s.deadConflict locks || !s.lockRoom core locks.length then .ok (s.stall v 12)
        else
          let s := s.settleAtoms v.team.uid v.warp.num
          let op : MatOp := {
            id, core, x := v.sel, mask := v.split.mask, slot := UE.slot f, shape := UE.shape f, kind
            dest := v.split.mask, fctl := v.team.fctl }
          let src := vdest.isEmpty && sdest.isEmpty
          let w := if regs.isEmpty && src then v.warp
            else v.warp.addHold ⟨id, if src then regs else vdest, sdest, src, 5⟩
          let w := { w with openOps := w.openOps ++ [id] }
          let w := if lives then
              (tileSlots op).foldl (fun w n => { w.modSlot n fun sl => { sl with live := true } with
                freeing := w.freeing.filter (· != n) }) w
            else if kind = .mclr true then { w with freeing := w.freeing ++ tileSlots op }
            else w
          let s := { s with nextId := id + 1, matOps := s.matOps ++ [op], rlocks := s.rlocks ++ locks }
          .ok (s.retire v w 0 8)

def execMloop (f : UE) (s : State) :=
  s.run (.mloop f) fun v =>
    let fa : BitVec 4 := f.w1.extractLsb' 28 4
    let fb : BitVec 4 := f.w1.extractLsb' 24 4
    let steps := (f.w1.extractLsb' 12 12).toNat + 1
    let sp := f.w1.getLsbD 6
    let rows := shapeRows (UE.shape f)
    let cols := shapeCols (UE.shape f)
    let k := stepK fa.toNat sp
    let ka := if sp then k / 2 else k
    let (a, ia) := v.matOperand f.a (f.sub.getLsbD 0) rows (lineBytes fa.toNat ka) steps
    let (b, ib) := v.matOperand f.b (f.sub.getLsbD 1) cols (lineBytes fb.toNat k) steps
    let m := v.s f.d.toNat
    let meta' := if sp then [offsetIn m (steps * rows * (k / 8))] else []
    let descs := descIn fa.toNat v.warp.descA rows ka steps ++ descIn fb.toNat v.warp.descB cols k steps
    s.issueMat v (.mloop f) f
      (.mloop fa fb a b steps (if sp then some (m.toNat % 2 ^ 22) else none) v.warp.descA v.warp.descB)
      ([ia, ib] ++ meta' ++ descs) [] [] true

def execMxform (f : UE) (s : State) :=
  s.run (.mxform f) fun v =>
    let fx : BitVec 4 := f.w1.extractLsb' 28 4
    let code := (f.w1.extractLsb' 22 2).toNat
    let k := stepK fx.toNat false
    let cols := shapeCols (UE.shape f)
    let (x, ix) := v.matOperand f.a (f.sub.getLsbD 0) cols (lineBytes fx.toNat k) 1
    let n := v.s f.b.toNat
    let index := if code = 1 then [offsetIn n (shapeRows (UE.shape f))] else []
    s.issueMat v (.mxform f) f (.mxform fx code x (n.toNat % 2 ^ 22) v.warp.descB)
      ([ix] ++ descIn fx.toNat v.warp.descB cols k 1 ++ index) [] [] true

def execMclr (f : UE) (s : State) :=
  s.run (.mclr f) fun v => s.issueMat v (.mclr f) f (.mclr (f.sub.getLsbD 0)) [] [] [] (!f.sub.getLsbD 0)

def execManchor (f : UE) (s : State) :=
  s.run (.manchor f) fun v =>
    let a : BitVec 10 := if f.sub.getLsbD 0 then (v.s f.a.toNat).extractLsb' 0 10 else f.w1.extractLsb' 22 10
    s.issueMat v (.manchor f) f (.manchor a.toInt) [] [] [] true

/-- Rows named by MROUND and MLOADA. -/
def UE.row0 (f : UE) : Nat := 4 * f.sub.toNat
def UE.rows (f : UE) : Nat := 4 * ((f.w1.extractLsb' 6 2).toNat + 1)
def UE.image (f : UE) : Nat := (f.w1.extractLsb' 8 8).toNat

def execMloada (f : UE) (s : State) :=
  s.run (.mloada f) fun v =>
    s.issueMat v (.mloada f) f
      (.mloada (f.w1.extractLsb' 28 4) (f.w1.getLsbD 27) (UE.image f) (UE.row0 f) (UE.rows f))
      [{ vregs := (List.range (imageRegs f)).map (UE.image f + ·) }] [] [] true

def execMround (f : UE) (s : State) :=
  s.run (.mround f) fun v =>
    s.issueMat v (.mround f) f
      (.mround (f.w1.extractLsb' 28 4) (f.w1.extractLsb' 25 3) (f.w1.getLsbD 24) (f.w1.extractLsb' 16 8).toInt
        (UE.image f) (UE.row0 f) (UE.rows f))
      [] ((List.range (imageRegs f)).map (UE.image f + ·)) [] false

def execMstat (f : UE) (s : State) :=
  s.run (.mstat f) fun v =>
    s.issueMat v (.mstat f) f (.mstat (f.sub.getLsbD 0) f.d.toNat) [] [] [f.d.toNat] false

/-- MBATCH: the open batch is closed; its slots named by MCLR.FREE are no longer live (R289, R294). -/
def execMbatch (f : UE) (s : State) :=
  s.run (.mbatch f) fun v =>
    if v.warp.mb ≥ 1023 then .ok (s.stall v 5)
    else
      let w := v.warp.freeing.foldl (fun w n => w.modSlot n fun sl => { sl with live := false }) v.warp
      let w := w.setS v.split.mask f.d.toNat (w.batchNo.zeroExtend 32)
      let w := { w with
        freeing := [], openOps := [], closed := w.closed ++ [(w.batchNo.toNat, w.openOps)], mb := w.mb + 1
        batchNo := w.batchNo + 1 }.settleBatches
      .ok (s.retire v w 0 8)

/-- MESC sets the warp's stream descriptors (R295). -/
def execMesc (f : UE) (s : State) :=
  s.run (.mesc f) fun v =>
    let w := { v.warp with
      descA := if f.sub.getLsbD 0 then some (v.s f.a.toNat) else none
      descB := if f.sub.getLsbD 1 then some (v.s f.b.toNat) else none }
    .ok (s.retire v w 0 8)

end Sys2Proof.Machine
end

