-- ==== Sys2Proof/Machine/Tasks.lean ====
section
/-!
DEFINITION. Launch queues, records, schedulers and gangs (spec/01 R19 to R21; spec/19 R299 to R315, R417; spec/03 R44,
R48, R57, R59).
-/

namespace Sys2Proof.Machine

/-! ## Queues (spec/01 R19 to R21) -/

def Ctx.queue (x : Ctx) (p : Nat) : Queue :=
  match p with
  | 0 => x.q0
  | 1 => x.q1
  | 2 => x.q2
  | _ => x.q3

def Ctx.setQueue (x : Ctx) (p : Nat) (q : Queue) : Ctx :=
  match p with
  | 0 => { x with q0 := q }
  | 1 => { x with q1 := q }
  | 2 => { x with q2 := q }
  | _ => { x with q3 := q }

def Queue.enabled (q : Queue) : Bool := pow2In 16 65536 q.size.toNat

/-- Set bits of QERR. -/
def Ctx.err (x : Ctx) (bit : Nat) : Ctx := { x with qerr := x.qerr ||| BitVec.ofNat 32 (2 ^ bit) }

/-- Ticks that the exit to M0 takes (spec/01 R29). -/
def exitTicks (st : BitVec 2) : Nat :=
  match st.toNat with
  | 1 => 10
  | 2 => 2000
  | 3 => 500000
  | _ => 0

/-- Wake the module toward M0. -/
def State.wake (s : State) : State :=
  if s.pwrState = 0 || s.pwrExit.isSome then s else { s with pwrExit := some (s.tick + exitTicks s.pwrState) }

def execQtailWrite (c p : Nat) (v : BitVec 64) (s : State) : Host.Outcome State Fault Refusal :=
  let s := s.wake
  let q := (s.ctxOf c).queue p
  let tail : Word := v.truncate 32
  if q.enabled && decide ((tail - q.head).toNat ≤ q.size.toNat) then
    .next (s.modCtx c fun x => x.setQueue p { q with tail })
  else .next (s.modCtx c (·.err p))

/-- A record of the queue is being read. -/
def State.queueReading (s : State) (c p : Nat) : Bool := s.asked c (.queue c p)

def execQueueReconfigure (c p : Nat) (isBase : Bool) (v : BitVec 64) (s : State) : Host.Outcome State Fault Refusal :=
  let q := (s.ctxOf c).queue p
  if q.head = q.tail && !s.queueReading c p then
    .next (s.modCtx c fun x => x.setQueue p (if isBase then { q with base := v &&& ~~~0x7F#64 } else { q with size := v }))
  else .next (s.modCtx c (·.err (4 + p)))

/-! ## Reading records (R304 to R307) -/

/-- n bytes at offset o, little-endian. -/
def fieldAt (bs : List Byte) (o n : Nat) : Nat := natOfBytes ((bs.drop o).take n)

inductive UnitRead where
  | ok (bs : List Byte)
  | bad
  | waits
  deriving DecidableEq, Repr

/-- A read by a unit at the home slice; refused and poisoned bytes are unreadable. -/
def State.unitRead (s : State) (c va n : Nat) (who : Requester) : State × UnitRead :=
  match s.unitXlate c va .load who 0 0 with
  | (s, .ok key) => (s, if s.poisoned key n then .bad else .ok (s.homeBytes key n))
  | (s, .fault _ _) => (s, .bad)
  | (s, .waits) => (s, .waits)

/-- Reads in order, joined; the first that fails decides. -/
def State.unitReads (s : State) (c : Nat) (who : Requester) : List (Nat × Nat) → State × UnitRead
  | [] => (s, .ok [])
  | (va, n) :: rest =>
    match s.unitRead c va n who with
    | (s, .ok bs) =>
      match s.unitReads c who rest with
      | (s, .ok more) => (s, .ok (bs ++ more))
      | r => r
    | r => r

def recTeams (bs : List Byte) : Nat := bitsOf (fieldAt bs 0 4) 26 3 + 1
def recInputs (bs : List Byte) : Nat := bitsOf (fieldAt bs 0 4) 22 4
def recPrio (bs : List Byte) : Nat := bitsOf (fieldAt bs 0 4) 30 2
def recCount (bs : List Byte) : Nat := fieldAt bs 0 2 + 1
def recWait (bs : List Byte) : Option Nat :=
  if bitsOf (fieldAt bs 4 4) 31 1 = 1 then some (bitsOf (fieldAt bs 4 4) 0 20) else none
def recNotify (bs : List Byte) : List Nat :=
  (List.range 4).filterMap fun i =>
    let w := fieldAt bs (8 + 4 * i) 4
    if bitsOf w 31 1 = 1 then some (bitsOf w 0 20) else none
def recData (bs : List Byte) : Nat := fieldAt bs 0x18 8
def recTeamAt (bs : List Byte) (t : Nat) : Nat := fieldAt bs (0x28 + 4 * t) 4
def recInputAt (bs : List Byte) (i : Nat) : Nat := fieldAt bs (0x48 + 4 * i) 4
def recPipeTab (bs : List Byte) : Nat := fieldAt bs 0x20 4
def recArgs (bs : List Byte) : List Word := (List.range 6).map fun a => BitVec.ofNat 32 (fieldAt bs (0x68 + 4 * a) 4)

/-- The checks that the record alone decides (R304, R307); `prio` is the queue's, for a host record. -/
def recordOk (bs : List Byte) (depSize : Nat) (prio : Option Nat) : Bool :=
  bitsOf (fieldAt bs 0 4) 16 6 == 0 && bitsOf (fieldAt bs 4 4) 20 11 == 0 &&
    (List.range 4).all (fun i => bitsOf (fieldAt bs (8 + 4 * i) 4) 20 11 == 0) && fieldAt bs 0x24 4 == 0 &&
    decide (recInputs bs ≤ 8) && (prio.isNone || prio == some (recPrio bs)) &&
    canonical (recData bs) && recData bs % 64 == 0 &&
    (List.range 8).all (fun t => decide (t < recTeams bs) || recTeamAt bs t == 0) &&
    (List.range 8).all (fun i => decide (i < recInputs bs) || recInputAt bs i == 0) &&
    (recWait bs).all (fun i => decide (i < depSize)) && (recNotify bs).all fun i => decide (i < depSize)

/-- Addresses and sizes of the descriptors that a record names: kernels, inputs, then the pipe table. -/
def descReads (bs : List Byte) : List (Nat × Nat) :=
  let at' := fun v => (recData bs + 32 * v) % 2 ^ 64
  (List.range (recTeams bs)).map (fun t => (at' (recTeamAt bs t), 32)) ++
    (List.range (recInputs bs)).map (fun i => (at' (recInputAt bs i), 32)) ++
    (if recPipeTab bs = 0 then [] else [(at' (recPipeTab bs), 32), (at' (recPipeTab bs + 1), 32)])

/-- A kernel descriptor (R305) with its reserved bits and its own limits. -/
def kernelOf (bs : List Byte) : KernelDesc × Bool :=
  let a := fieldAt bs 8 4
  let b := fieldAt bs 12 4
  let c := fieldAt bs 16 4
  let k : KernelDesc := {
    entry := BitVec.ofNat 64 (fieldAt bs 0 8), bars := bitsOf a 11 7, prod := bitsOf a 5 6, warps := bitsOf a 0 5 + 1
    cvb := 8 * (bitsOf b 13 5 + 1), pvb := 8 * (bitsOf b 8 5 + 1), cbud := 64 * (bitsOf b 4 4 + 1)
    pbud := 64 * (bitsOf b 0 4 + 1), scr := 1024 * bitsOf c 0 13 }
  (k, canonical (fieldAt bs 0 8) && fieldAt bs 0 8 % 4 == 0 && bitsOf a 18 14 == 0 && bitsOf b 18 14 == 0 &&
    bitsOf c 13 19 == 0 && fieldAt bs 0x14 12 == 0 && decide (k.prod ≤ k.warps) && decide (k.cvb ≤ k.cbud) &&
    decide (k.pvb ≤ k.pbud))

def inputOf (bs : List Byte) : InputDesc × Bool :=
  let a := fieldAt bs 8 4
  let d := fieldAt bs 16 4
  let i : InputDesc := {
    addr := BitVec.ofNat 64 (fieldAt bs 0 8), team := bitsOf a 29 3
    pipe := if bitsOf a 28 1 = 1 then some (bitsOf a 24 4) else none
    rowb := 16 * (bitsOf a 12 12 + 1), rows := bitsOf a 0 12 + 1, pitch := fieldAt bs 12 4, doff := bitsOf d 0 22
    tstride := BitVec.ofNat 64 (fieldAt bs 24 8) }
  (i, canonical (fieldAt bs 0 8) && fieldAt bs 0 8 % 16 == 0 && i.pitch % 16 == 0 && bitsOf d 22 10 == 0 &&
    fieldAt bs 20 4 == 0 && (i.pipe.isSome || i.doff % 16 == 0))

def InputDesc.size (i : InputDesc) : Nat := i.rows * i.rowb

/-- The declared pipes of a pipe table, and that its reserved bits are zero. -/
def pipesOf (bs : List Byte) : List PipeDesc × Bool :=
  let words := (List.range (bs.length / 4)).map fun n => (n, fieldAt bs (4 * n) 4)
  (words.filterMap fun (n, w) =>
    if bitsOf w 31 1 = 1 then
      some ({ num := n, durable := bitsOf w 30 1 == 1, slots := bitsOf w 12 8 + 1, sbytes := 16 * (bitsOf w 0 12 + 1) } : PipeDesc)
    else none,
    words.all fun (_, w) => bitsOf w 20 10 == 0)

def PipeDesc.bytes (p : PipeDesc) : Nat := (p.slots * p.sbytes + 1023) / 1024 * 1024

def KernelDesc.entries (k : KernelDesc) : Nat := k.prod * k.pbud + (k.warps - k.prod) * k.cbud

/-- Cores that a gang of n teams takes, and the core of a team (spec/03 R48), counted from 0. -/
def gangCores (n : Nat) : Nat := min n 4
def coreOfTeam (c0 n t : Nat) : Nat := (c0 + t % gangCores n) % 4

/-- Teams of a record with their number. -/
def Record.teams (r : Record) : List (Nat × KernelDesc) := (List.range r.kernels.length).zip r.kernels

/-- The kernels that run on core j of the gang. -/
def Record.onCore (r : Record) (j : Nat) : List KernelDesc :=
  (r.teams.filter fun t => coreOfTeam 0 r.kernels.length t.1 == j).map (·.2)

/-- The gang fits an empty cluster (R307). -/
def Record.fits (r : Record) : Bool :=
  (List.range 4).all (fun j =>
    let ks := r.onCore j
    decide ((ks.map (·.warps)).sum ≤ 64) && decide ((ks.map (·.entries)).sum ≤ 16384) &&
      decide ((ks.map (·.bars)).sum ≤ 1024)) &&
    decide ((r.kernels.map (·.scr)).sum + (r.pipes.map (·.bytes)).sum ≤ 2 ^ 22)

/-- Every input tile names a team and fits its destination (R307, R316). -/
def Record.inputsFit (r : Record) : Bool :=
  r.inputs.all (fun i => decide (i.team < r.kernels.length) &&
    match i.pipe with
    | some n => r.pipes.any fun p => p.num == n && decide (i.size ≤ p.sbytes)
    | none => ((r.kernels[i.team]?).map fun k => decide (i.doff + i.size ≤ k.scr)).getD false) &&
    r.pipes.all fun p => decide (r.inputs.countP (fun i => i.pipe == some p.num) ≤ p.slots)

/-- Build a record from its bytes and the bytes of its descriptors; none where a check of R307 fails. -/
def recordOf (uid ctx addr : Nat) (bs ds : List Byte) : Option Record :=
  let nt := recTeams bs
  let ni := recInputs bs
  let ks := (List.range nt).map fun t => kernelOf ((ds.drop (32 * t)).take 32)
  let ins := (List.range ni).map fun i => inputOf ((ds.drop (32 * (nt + i))).take 32)
  let ps := pipesOf (ds.drop (32 * (nt + ni)))
  let r : Record := {
    uid, ctx, prio := recPrio bs, addr, drain := bitsOf (fieldAt bs 0 4) 29 1 == 1, count := recCount bs
    wait := recWait bs, notify := recNotify bs, kernels := ks.map (·.1), inputs := ins.map (·.1), pipes := ps.1
    args := recArgs bs, ready := true, left := recCount bs }
  if ks.all (·.2) && ins.all (·.2) && ps.2 && r.fits && r.inputsFit then some r else none

/-! ## Taking a record (R300, R307, R308) -/

/-- Where a record comes from. -/
inductive Source where
  | host (p : Nat)
  | spawned
  deriving DecidableEq, Repr

/-- The spawn ring is usable. -/
def Ctx.spawnRing (x : Ctx) : Bool := pow2In 16 65536 x.spSize.toNat

/-- A spawned record's priority and the index its host queue had reached (R300). -/
def markPrio (m : List Word) : Nat := (m.headD 0).toNat
def markTail (m : List Word) : Word := (m.drop 1).headD 0

/-- What context c offers at priority p: a host record unless a spawned one must come first. -/
def Ctx.offer (x : Ctx) (p : Nat) : Option Source :=
  if !Pte.v x.ptRoot then none
  else
    let q := x.queue p
    if q.enabled && q.head != q.tail && !(x.spMarks.any fun m => markPrio m == p && markTail m == q.head) then some (.host p)
    else
      match x.spMarks with
      | m :: _ => if markPrio m == p && markTail m == q.head then some .spawned else none
      | [] => none

/-- Address of the next record of a source. -/
def Ctx.recordAddr (x : Ctx) : Source → Nat
  | .host p => ((x.queue p).base.toNat + 128 * ((x.queue p).head.toNat % (x.queue p).size.toNat)) % 2 ^ 64
  | .spawned => (x.spBase.toNat + 128 * (x.spHead.toNat % x.spSize.toNat)) % 2 ^ 64

/-- The record has been taken. -/
def Ctx.advance (x : Ctx) : Source → Ctx
  | .host p => x.setQueue p { x.queue p with head := (x.queue p).head + 1 }
  | .spawned => { x with spHead := x.spHead + 1, spMarks := x.spMarks.drop 1 }

/-- Records parked on a die. -/
def State.parked (s : State) (die : Nat) : Nat := s.records.countP fun r => !r.ready && r.ctx % 4 == die

/-- The record is refused: BADREC and a record in the fault queue. -/
def State.refuseRecord (s : State) (c : Nat) (src : Source) : State :=
  let addr := (s.ctxOf c).recordAddr src
  (s.modCtx c fun x => (x.advance src).err 9).faultRecord c 3 0 0 0 addr 0

/-- The base of the ring lies in the address space: under another QBASE every record is unreadable (spec/01 R21). -/
def Ctx.baseOk (x : Ctx) : Source → Bool
  | .host p => canonical (x.queue p).base.toNat
  | .spawned => true

/-- Try to take the next record of a source at priority p: true when one was taken (or refused). -/
def State.tryRecord (s : State) (c p : Nat) (src : Source) : State × Bool :=
  let x := s.ctxOf c
  let addr := x.recordAddr src
  let who := Requester.queue c (match src with | .host p => p | .spawned => 4 + p)
  let prio := match src with | .host p => some p | .spawned => none
  match if x.baseOk src then s.unitRead c addr 128 who else (s, .bad) with
  | (s, .waits) => (s, false)
  | (s, .bad) => (s.refuseRecord c src, true)
  | (s, .ok bs) =>
    if !recordOk bs x.depSize.toNat prio then (s.refuseRecord c src, true)
    else
      match s.unitReads c who (descReads bs) with
      | (s, .waits) => (s, false)
      | (s, .bad) => (s.refuseRecord c src, true)
      | (s, .ok ds) =>
        match recordOf s.nextId c addr bs ds with
        | none => (s.refuseRecord c src, true)
        | some r =>
          let counter := (recWait bs).map fun i => (x.depBase.toNat + 4 * i, 4)
          match s.unitReads c who counter.toList with
          | (s, .waits) => (s, false)
          | (s, .bad) => (s.refuseRecord c src, true)
          | (s, .ok cs) =>
            let ready := natOfBytes cs == 0
            if !ready && s.parked (c % 4) ≥ 1024 then (s, false)
            else
              ({ s with records := s.records ++ [{ r with ready }] }.modCtx c (·.advance src), true)

/-- A record taken, be it refused, is the last that its bank has given at this priority; a refusal that its reading met
ends with it. -/
def State.takeRecord (s : State) (c p : Nat) (src : Source) : State × Bool :=
  match s.tryRecord c p src with
  | (t, true) =>
    ({ t with nextId := t.nextId + 1, qServed := Tab.put 0 t.qServed (4 * c + p) t.nextId }.unrefuse
      (.queue c (match src with | .host p => p | .spawned => 4 + p)) |>.askSpan (.taskUnit (c % 4)) false c
        ((s.ctxOf c).recordAddr src) 128, true)
  | r => r

/-- What a die's unit may take, in the order of R300. -/
def State.offers (s : State) (die : Nat) : List (Nat × Nat × Source) :=
  [3, 2, 1, 0].flatMap fun p =>
    let at' := (List.range 16).filterMap fun b => ((s.ctxOf (4 * b + die)).offer p).map fun o => (4 * b + die, p, o)
    sortBy (fun a b => decide (Tab.get 0 s.qServed (4 * a.1 + p) ≤ Tab.get 0 s.qServed (4 * b.1 + p))) at'

def State.takeFirst (s : State) : List (Nat × Nat × Source) → State
  | [] => s
  | (c, p, src) :: rest =>
    match s.takeRecord c p src with
    | (s, true) => s
    | (s, false) => s.takeFirst rest

def execTakeLaunchRecord (die : Nat) (s : State) : Host.Outcome State Fault Refusal := .next (s.takeFirst (s.offers die))

/-- A parked record's counter reads 0. -/
def State.counterZero (s : State) (r : Record) : Bool :=
  match r.wait with
  | none => true
  | some i =>
    match s.xlateNow r.ctx ((s.ctxOf r.ctx).depBase.toNat + 4 * i) .load with
    | .ok key => natOfBytes (s.homeBytes key 4) == 0
    | _ => false

def execParkedRecordReady (id : Nat) (s : State) : Host.Outcome State Fault Refusal :=
  match s.records.find? fun r => r.uid == id && !r.ready with
  | some r =>
    .next (if s.counterZero r then { s with records := modFirst (·.uid == id) (fun r => { r with ready := true }) s.records }
      else s)
  | none => .next s

/-! ## Sending tasks (R301) -/

def TaskSt.started : TaskSt → Bool
  | .running _ => true
  | _ => false

/-- Free record slots of a cluster: its tasks that have not started hold them (log 20). -/
def State.freeSlots (s : State) (cl : Nat) : Nat := 16 - s.tasks.countP fun t => t.cluster == cl && !t.st.started && t.work == .compute

/-- The cluster of a die with the most free slots, the lowest of those. -/
def State.bestCluster (s : State) (die : Nat) : Nat :=
  (List.range 8).foldl (fun b k => if s.freeSlots (8 * die + k) > s.freeSlots b then 8 * die + k else b) (8 * die)

/-- The record whose task is next: by priority, then the bank least recently served, then record order. -/
def State.nextReady (s : State) (die : Nat) : Option Record :=
  let has := fun (r : Record) => r.ready && decide (r.sent < r.count) && r.ctx % 4 == die
  let rs := s.records.filter has
  [3, 2, 1, 0].findSome? fun p =>
    let mine := rs.filter (·.prio == p)
    mine.foldl (fun (b : Option Record) r =>
      match b with
      | none => some r
      | some x => if Tab.get 0 s.sServed (4 * r.ctx + p) < Tab.get 0 s.sServed (4 * x.ctx + p) then some r else b) none

def execSendTask (die : Nat) (s : State) : Host.Outcome State Fault Refusal :=
  let cl := s.bestCluster die
  if s.freeSlots cl = 0 then .next s
  else
    match s.nextReady die with
    | none => .next s
    | some r =>
      let t : Task := {
        uid := s.nextId, record := r.uid, idx := r.sent, ctx := r.ctx, prio := r.prio, cluster := cl, arrival := s.nextId
        tick := s.tick }
      .next { s with
        nextId := s.nextId + 1, tasks := s.tasks ++ [t], sServed := Tab.put 0 s.sServed (4 * r.ctx + r.prio) s.nextId
        records := modFirst (·.uid == r.uid) (fun r => { r with sent := r.sent + 1 }) s.records }

/-! ## Placement (R312) -/

def State.record? (s : State) (uid : Nat) : Option Record := s.records.find? (·.uid == uid)

/-- Scratchpad regions of a cluster that are taken. -/
def State.scrTaken (s : State) (cl : Nat) : List (Nat × Nat) :=
  let ofPipe := fun (p : Pipe) => (p.base, p.bytes)
  (s.teams.filter fun t => clusterOfCore t.core == cl).map (fun t => (t.scrBase, t.scrBytes)) ++
    (s.gangs.filter (·.cluster == cl)).flatMap (fun g => g.pipes.map ofPipe) ++
    (s.tasks.filter (·.cluster == cl)).flatMap fun t =>
      (if t.st.started then [] else t.kept.map ofPipe) ++
        match t.st, s.record? t.record with
        | .staged _ scr pipes _, some r =>
          scr.zip (r.kernels.map (·.scr)) ++
            pipes.zip ((r.pipes.filter fun p => !(t.kept.any (·.num == p.num))).map (·.bytes))
        | _, _ => []

/-- The lowest 1 KiB boundary at which n bytes are free (log 20). -/
def firstFit (taken : List (Nat × Nat)) (n : Nat) : Option Nat :=
  if n = 0 then some 0
  else
    let ends := 0 :: taken.map fun r => r.1 + r.2
    let free := fun b => decide (b + n ≤ 2 ^ 22) && taken.all fun r => r.2 == 0 || decide (b + n ≤ r.1) || decide (r.1 + r.2 ≤ b)
    (ends.filter free).min?

/-- Reserve regions of the given sizes one after another. -/
def reserve (taken : List (Nat × Nat)) : List Nat → Option (List Nat)
  | [] => some []
  | n :: ns =>
    match firstFit taken n with
    | none => none
    | some b => (reserve ((b, n) :: taken) ns).map (b :: ·)

/-- Bases of consecutive regions. -/
def consecutive (base : Nat) : List Nat → List Nat
  | [] => []
  | n :: ns => base :: consecutive (base + n) ns

/-- Prefetch entries in use on core j of a cluster. -/
def State.prefetched (s : State) (cl j : Nat) : Nat :=
  s.tasks.countP fun t => t.cluster == cl &&
    match t.st, s.record? t.record with
    | .staged c0 _ _ _, some r => (List.range (gangCores r.kernels.length)).any fun i => (c0 + i) % 4 == j
    | _, _ => false

/-- The pipes of a record that a task has not kept. -/
def Task.newPipes (t : Task) (r : Record) : List PipeDesc := r.pipes.filter fun p => !(t.kept.any (·.num == p.num))

/-- Where a task would be placed: c0, the bases of its allocations and of its new pipes. -/
def State.placement? (s : State) (t : Task) (r : Record) : Option (Nat × List Nat × List Nat) :=
  let k := gangCores r.kernels.length
  let room := fun c0 => (List.range k).all fun i => decide (s.prefetched t.cluster ((c0 + i) % 4) < 2)
  match (List.range 4).find? room, reserve (s.scrTaken t.cluster) (r.kernels.map (·.scr)) with
  | some c0, some scr =>
    let taken := scr.zip (r.kernels.map (·.scr)) ++ s.scrTaken t.cluster
    let sizes := (t.newPipes r).map (·.bytes)
    (firstFit taken sizes.sum).map fun b => (c0, scr, consecutive b sizes)
  | _, _ => none

/-- The task waits in its scheduler and may be placed: not held, and nothing of an old instance still at work. -/
def State.waiting (s : State) (cl : Nat) (t : Task) : Bool :=
  t.cluster == cl && t.st == .unplaced && !(s.ctxOf t.ctx).hold && t.oldTeams.all s.opsStopped &&
    !(s.copies.any (·.staging == some t.uid))

/-- Unstarted tasks of a cluster in the order in which they are considered. -/
def State.waitingTasks (s : State) (cl : Nat) : List Task :=
  sortBy (fun a b => decide (a.prio > b.prio) || (a.prio == b.prio && decide (a.arrival ≤ b.arrival))) (s.tasks.filter (s.waiting cl))

/-- The base of pipe n of a placed task. -/
def pipeBase (t : Task) (r : Record) (bases : List Nat) (n : Nat) : Nat :=
  match t.kept.find? (·.num == n) with
  | some p => p.base
  | none => (((t.newPipes r).zip bases).find? (·.1.num == n)).map (·.2) |>.getD 0

/-- Input tiles of a task with their scratchpad destination; a tile of a kept pipe is not placed again (R318). -/
def Task.tiles (t : Task) (r : Record) (scr pipes : List Nat) : List (InputDesc × Nat) :=
  ((List.range r.inputs.length).zip r.inputs).filterMap fun (j, i) =>
    match i.pipe with
    | none => some (i, scr.getD i.team 0 + i.doff)
    | some n =>
      if t.kept.any (·.num == n) then none
      else
        let before := (r.inputs.take j).countP fun x => x.pipe == some n
        let sb := ((r.pipes.find? (·.num == n)).map (·.sbytes)).getD 0
        some (i, pipeBase t r pipes n + before * sb)

/-- The staging copy of a tile. -/
def Task.copyOf (t : Task) (id core engine : Nat) (i : InputDesc) (dst : Nat) : CopyOp := {
  id, core, engine, ctx := t.ctx, x := ⟨0, 0, 0⟩, token := 0
  kind := .cpy false true i.rows i.rowb, src := (i.addr + i.tstride * BitVec.ofNat 64 t.idx).toNat, dst, ix := 0
  spitch := i.pitch, dpitch := i.rowb, rot := 0, staging := some t.uid }

/-- Place a task: reservations, prefetch entries, input copies. -/
def State.place (s : State) (t : Task) (r : Record) (c0 : Nat) (scr pipes : List Nat) : State :=
  let tiles := t.tiles r scr pipes
  let n := tiles.length
  let copies := ((List.range n).zip tiles).map fun (j, i, dst) =>
    t.copyOf (s.nextId + j) (4 * t.cluster + coreOfTeam c0 r.kernels.length i.team) (j % 2) i dst
  let t' := { t with st := .staged c0 scr pipes (copies.map (·.id)), bypassed := 0, oldTeams := [] }
  { s with
    nextId := s.nextId + n, copies := s.copies ++ copies
    tasks := s.tasks.filter (·.uid != t.uid) ++ [t'] }

/-- Consider tasks in order: the first that fits is placed; those before it that do not fit are bypassed. -/
def State.placeFirst (s : State) (bypassed : List Nat) : List Task → State
  | [] => s
  | t :: rest =>
    match (s.record? t.record).bind fun r => (s.placement? t r).map fun p => (r, p) with
    | some (r, c0, scr, pipes) =>
      let s := { s with tasks := s.tasks.map fun (u : Task) => if bypassed.contains u.uid then { u with bypassed := u.bypassed + 1 } else u }
      s.place t r c0 scr pipes
    | none => s.placeFirst (t.uid :: bypassed) rest

/-- Once a task of the cluster has been bypassed 64 times, none but such a task is placed. -/
def execPlaceTask (cluster : Nat) (s : State) : Host.Outcome State Fault Refusal :=
  let ts := s.waitingTasks cluster
  let stuck := ts.filter fun t => decide (t.bypassed ≥ 64)
  .next (s.placeFirst [] (if stuck.isEmpty then ts else stuck.take 1))

/-- The staging of a task is abandoned: its copies stop, its reservations and entries go (R416, R417). -/
def State.unstage (s : State) (t : Task) (st : TaskSt) : State :=
  { s with
    copies := s.copies.map fun c => if c.staging == some t.uid then { c with dead := true } else c
    tasks := modFirst (·.uid == t.uid) (fun t => { t with st, tick := s.tick }) s.tasks }

/-- A staging copy that meets a page that is missing or refused (R417). -/
def execStagingCopyFault (task : Nat) (s : State) : Host.Outcome State Fault Refusal :=
  match s.task? task with
  | none => .next s
  | some t =>
    let stop := (s.copies.filter fun c => c.staging == some task && c.runs).findSome? fun c =>
      match s.copyRun c with
      | (s', some e) => some (s', e)
      | _ => none
    match stop with
    | none => .next s
    | some (s, .fault code info va) =>
      .next ((s.unstage t .unplaced).killTask task t.ctx code 0 0 va info)
    | some (s, .notPresent va level _) =>
      let (s, r) := s.requestPage t.ctx va level 0 0 4 (.staging task va)
      .next (s.unstage t (.held r))

/-! ## Starting a gang (R313, R314; spec/03 R44, R45, R48) -/

def State.warpsOn (s : State) (core : Nat) : List Warp := (s.teams.filter (·.core == core)).flatMap (·.warps)

/-- Warps of an issue unit: a dead warp keeps its slot until its budget returns. -/
def State.iuLoad (s : State) (core iu : Nat) : Nat := (s.warpsOn core).countP fun w => w.iu == iu && !w.returned
def State.poolUsed (s : State) (core : Nat) : Nat := (((s.warpsOn core).filter (!·.returned)).map (·.budget)).sum
def State.barsUsed (s : State) (core : Nat) : Nat := ((s.teams.filter (·.core == core)).map (·.bars.length)).sum

/-- Each core of the gang has warp slots, register budgets and barriers for its teams. -/
def State.roomFor (s : State) (t : Task) (r : Record) (c0 : Nat) : Bool :=
  (List.range 4).all fun j =>
    let ks := r.onCore j
    let core := 4 * t.cluster + (c0 + j) % 4
    ks.isEmpty ||
      (decide (((List.range 8).map (s.iuLoad core)).sum + (ks.map (·.warps)).sum ≤ 64) &&
        decide (s.poolUsed core + (ks.map (·.entries)).sum ≤ 16384) &&
        decide (s.barsUsed core + (ks.map (·.bars)).sum ≤ 1024))

/-- The gang's entries are the oldest on each of its cores: tasks are listed in the order of their placement. -/
def State.oldest (s : State) (t : Task) (r : Record) (c0 : Nat) : Bool :=
  let mine := (List.range (gangCores r.kernels.length)).map fun i => (c0 + i) % 4
  (s.tasks.takeWhile (·.uid != t.uid)).all fun u => u.cluster != t.cluster ||
    match u.st, s.record? u.record with
    | .staged d0 _ _ _, some q => (List.range (gangCores q.kernels.length)).all fun i => !mine.contains ((d0 + i) % 4)
    | _, _ => true

/-- The issue unit with the most free warp slots, given the loads. -/
def emptiest (loads : List Nat) : Nat :=
  (List.range 8).foldl (fun b k => if loads.getD k 0 < loads.getD b 0 then k else b) 0

def placeWarps : Nat → List Nat → List Nat
  | 0, _ => []
  | n + 1, loads =>
    let u := emptiest loads
    u :: placeWarps n (modNth (· + 1) u loads)

/-- A warp at its start (R314). -/
def startWarp (k : KernelDesc) (args : List Word) (num iu clock : Nat) : Warp :=
  let producer := decide (num < k.prod)
  let sl : Slice := (numbered 0 args).foldl (fun sl x => sl.setS x.1 x.2) {}
  { num, iu, role := if producer then 0 else 1
    budget := if producer then k.pbud else k.cbud, vbound := if producer then k.pvb else k.cvb
    slices := List.replicate 8 sl, splits := [{ mask := 0xFF, pc := k.entry, parent := 0, lastIssue := clock }]
    recs := [⟨0, 0xFF, none⟩] }

/-- The next INSTANCE value of a context (spec/29 R403): it skips 0. -/
def nextInstance (x : Word) : Word := if x + 1 = 0 then 1 else x + 1


/-- A team at its start. -/
def startTeam (s : State) (uid gang num core : Nat) (t : Task) (k : KernelDesc) (args : List Word) (inst : Word)
    (scrBase : Nat) : Team :=
  let ius := placeWarps k.warps ((List.range 8).map (s.iuLoad core))
  { uid, ctx := t.ctx, inst, core, gang, num, taskIdx := t.idx, prod := k.prod
    warps := ((List.range k.warps).zip ius).map fun (n, iu) => startWarp k args n iu s.clock
    scrBase, scrBytes := k.scr, entry := k.entry, bars := List.replicate k.bars {}, startTick := s.tick, issuedAt := s.clock
    recorded := (s.ctxOf t.ctx).dbgCtl.getLsbD 3 && !(s.ctxOf t.ctx).replaying, replayed := (s.ctxOf t.ctx).replaying }

/-- The third word of the log entry of a team start. -/
def startWord (task team : Nat) : Word := BitVec.ofNat 32 (2 ^ 31 + team * 2 ^ 16 + task % 65536)

/-- The INSTANCEs that the replay log gives to the n teams of a task, when its next entries start them (spec/29 R414). -/
def State.loggedStarts? (s : State) (c task n : Nat) : Option (List Word) :=
  (List.range n).mapM fun t =>
    match s.logAt? c ((s.ctxOf c).rlHead + BitVec.ofNat 32 t) with
    | some (_, inst, w) => if w = startWord task t && s.logTurn c then some inst else none
    | none => none

/-- Lanes that start dead: they have no vertex or no quad (log 24). -/
def Warp.without (w : Warp) (dead : List Nat) : Warp :=
  let w := dead.foldl (fun w l => w.modSl (l / 4) (·.kill (BitVec.ofNat 4 (2 ^ (l % 4))))) w
  { w with splits := (w.splits.map fun sp => { sp with mask := w.liveSlices }).filter (·.mask != 0) }

/-- The start of a vertex warp: its vertices in v0, the address of its output block in s6:s7 (spec/27 R380). -/
def Warp.asVertex (w : Warp) (d : Draw) (first : Nat) : Warp :=
  let from' := first + 32 * w.num
  let at' := BitVec.ofNat 64 (d.block + 16 * (d.recb + 1) * from')
  let w := (List.range 32).foldl (fun w l => w.setV 0 l (BitVec.ofNat 32 (from' + l))) w
  let w := (w.setS 0xFF 6 (at'.truncate 32)).setS 0xFF 7 (at'.extractLsb' 32 32)
  w.without ((List.range 32).filter fun l => decide (from' + l ≥ 3 * d.nprim))

/-- The start of a pixel warp: pixel, inputs and coverage of each lane (spec/27 R381). -/
def Warp.asPixel (w : Warp) (pixels : List (Nat × (Nat × Nat × Bool))) (inputs : List (Nat × List Word)) : Warp :=
  (List.range 32).foldl (fun w l =>
    match Tab.find? pixels (32 * w.num + l) with
    | some (x, y, covered) =>
      let w := ((w.setV 0 l (BitVec.ofNat 32 x)).setV 1 l (BitVec.ofNat 32 y)).setP 0 l covered
      (numbered 2 ((Tab.find? inputs (32 * w.num + l)).getD [])).foldl (fun w i => w.setV i.1 l i.2) w
    | none => w.without [l]) w

/-- What a team of the raster front end finds in its registers. -/
def Team.dress (t : Team) (draws : List Draw) (work : TeamKind) : Team :=
  match work with
  | .compute => t
  | .vertex draw first =>
    match draws.find? (·.id == draw) with
    | some d => { t with kind := work, warps := t.warps.map (·.asVertex d first) }
    | none => { t with kind := work }
  | .pixel _ _ pixels inputs => { t with kind := work, warps := t.warps.map (·.asPixel pixels inputs) }

/-- A stop that waits for the restart of its team is bound to the new instance; a count of 0 is reached at once
(spec/29 R407). -/
def State.bindStop (s : State) (c task num uid : Nat) (inst : Word) : State :=
  match (s.ctxOf c).stop with
  | some q =>
    if q.team.isNone && q.task = task && q.num = num then
      if q.target = 0 then ((s.haltTeam uid).modCtx c fun x => { x with stop := none }).dbgResult c inst 0
      else (s.modCtx c fun x => { x with stop := some { q with team := some uid, inst } }).dbgResult c inst 1
    else s
  | none => s

/-- Start team number j of a gang. -/
def State.startOne (s : State) (t : Task) (r : Record) (gang c0 : Nat) (scr : List Nat) (logged : Option (List Word))
    (j : Nat) : State :=
  match r.kernels[j]? with
  | none => s
  | some k =>
    let core := 4 * t.cluster + coreOfTeam c0 r.kernels.length j
    let inst := match logged with
      | some l => l.getD j 1
      | none => nextInstance (s.ctxOf t.ctx).instCtr
    let uid := s.nextId
    let team := (startTeam s uid gang j core t k r.args inst (scr.getD j 0)).dress s.draws t.work
    let begun := fun (p : PixelWork) => if p.task = t.uid then { p with team := uid, st := .running } else p
    let s := { s with nextId := uid + 1, teams := s.teams ++ [team], pixels := s.pixels.map begun }
    let s := s.modCtx t.ctx fun x => { x with
      instCtr := if logged.isSome then x.instCtr else inst
      rlHead := if logged.isSome then x.rlHead + 1 else x.rlHead }
    let s := { s.acquire core 3 with constK := Tab.put [] s.constK core [] }
    let s := { s with ibuf := s.ibuf.filter fun w => !(w.core == core && w.ctx == t.ctx) }
    let s := s.modGang gang fun g => { g with teams := g.teams ++ [uid] }
    let s := s.bindStop t.ctx t.uid j uid inst
    if team.recorded && logged.isNone then s.logEntry t.ctx inst (startWord t.idx j) else s

/-- The pipes of a gang at its start: kept ones go on; a new one is empty but for its input tiles (R316). -/
def startPipes (t : Task) (r : Record) (bases : List Nat) : List Pipe :=
  r.pipes.map fun p =>
    match t.kept.find? (·.num == p.num) with
    | some k => k
    | none =>
      let full := r.inputs.countP fun i => i.pipe == some p.num
      { num := p.num, durable := p.durable, sbytes := p.sbytes, base := pipeBase t r bases p.num
        slots := (List.range p.slots).map fun i => (if i < full then .full else .free, none)
        prod := full % p.slots, cons := 0 }

def State.startGang (s : State) (t : Task) (r : Record) (c0 : Nat) (scr pipes : List Nat) (logged : Option (List Word)) :
    State :=
  let gang := s.nextId
  let g : Gang := {
    uid := gang, ctx := t.ctx, gangId := BitVec.ofNat 32 gang ^^^ Config.gangMask, cluster := t.cluster, task := t.uid
    prio := t.prio, teams := [], pipes := startPipes t r pipes, drain := r.drain, started := gang }
  let s := { s with
    nextId := gang + 1, gangs := s.gangs ++ [g]
    tasks := modFirst (·.uid == t.uid) (fun t => { t with st := .running gang, kept := [] }) s.tasks }
  (List.range r.kernels.length).foldl (fun s j => s.startOne t r gang c0 scr logged j) s

/-- GANG_START. -/
def execGangStart (task : Nat) (s : State) : Host.Outcome State Fault Refusal :=
  match s.task? task with
  | none => .next s
  | some t =>
    match t.st, s.record? t.record with
    | .staged c0 scr pipes [], some r =>
      let x := s.ctxOf t.ctx
      let logged := if x.replaying then s.loggedStarts? t.ctx t.idx r.kernels.length else none
      if !x.hold && s.oldest t r c0 && s.roomFor t r c0 && (!x.replaying || logged.isSome) then
        .next (s.startGang t r c0 scr pipes logged)
      else .next s
    | _, _ => .next s

/-! ## Stealing (R315) -/

/-- The request of a cluster goes on to the next cluster of the ring, on another die over the link (spec/01 R16). -/
def State.stealTo (s : State) (thief from' : Nat) : State :=
  let to' := (from' + 1) % 32
  { s with steals := s.steals ++ [(thief, to')] }.sendOver (dieOfCluster from') (dieOfCluster to') ⟨.steal thief, []⟩

/-- A scheduler with nothing unstarted and no request of its own asks the next cluster of the ring. -/
def execStealRequest (cluster : Nat) (s : State) : Host.Outcome State Fault Refusal :=
  let idle := !(s.tasks.any fun t => t.cluster == cluster && !t.st.started)
  if idle && !(s.steals.any (·.1 == cluster)) then .next (s.stealTo cluster cluster)
  else .next s

/-- Tasks that a cluster can ship, the youngest first; one with a kept pipe stays. -/
def State.shippable (s : State) (cl : Nat) : List Task :=
  sortBy (fun a b => decide (a.arrival ≥ b.arrival)) (s.tasks.filter fun t => t.cluster == cl && t.st == .unplaced && t.kept.isEmpty && t.work == .compute)

/-- A request that stands at this cluster is served or passed on. -/
def execStealRequestArrival (cluster : Nat) (s : State) : Host.Outcome State Fault Refusal :=
  match s.steals.find? (·.2 == cluster) with
  | none => .next s
  | some (thief, _) =>
    let n := s.tasks.countP fun t => t.cluster == cluster && t.st == .unplaced && t.work == .compute
    if cluster = thief then .next { s with steals := removeFirst (· == (thief, cluster)) s.steals }
    else if n = 0 then
      .next ({ s with steals := removeFirst (· == (thief, cluster)) s.steals }.stealTo thief cluster)
    else
      let go := ((s.shippable cluster).take (min ((n + 1) / 2) (s.freeSlots thief))).map (·.uid)
      .next { go.foldl (fun s uid => s.sendOver (dieOfCluster cluster) (dieOfCluster thief) ⟨.work uid, []⟩) s with
        steals := removeFirst (· == (thief, cluster)) s.steals
        tasks := s.tasks.map fun t => if go.contains t.uid then { t with cluster := thief, tick := s.tick, bypassed := 0 } else t }

/-! ## The end of warps and teams (spec/03 R57, R59; R310) -/

/-- A WPIN whose status is to be written still waits for its version (spec/21 R334). -/
def State.pinning (s : State) (mine : Sel → Bool) : Bool :=
  s.regroups.any fun r => r.2.loads.any fun l => l.pins.any fun p => mine p.1

/-- Something asynchronous still belongs to the warp's registers. -/
def State.warpBusy (s : State) (team warp : Nat) : Bool :=
  let mine := fun (x : Sel) => x.team == team && x.warp == warp
  (s.memOps.any fun m => mine m.x && m.isLoad) || (s.texOps.any fun m => mine m.x) || (s.rayOps.any fun m => mine m.x) ||
    (s.ncalls.any fun m => mine m.x) || (s.rgOps.any fun m => mine m.x) || (s.matOps.any fun m => mine m.x) ||
    (s.mbReqs.any fun m => mine m.x) || s.pinning mine

def execWarpBudgetReturn (team warp : Nat) (s : State) : Host.Outcome State Fault Refusal :=
  match (s.team? team).bind (·.warp? warp) with
  | some w =>
    if w.dead && !s.warpBusy team warp then .next (s.modWarp team warp fun w => { w with returned := true }) else .next s
  | none => .next s

/-- An asynchronous operation of the team is not complete. -/
def State.teamBusy (s : State) (team : Nat) : Bool :=
  let mine := fun (x : Sel) => x.team == team
  (s.memOps.any fun m => mine m.x) || (s.copies.any fun m => mine m.x) || (s.matOps.any fun m => mine m.x) ||
    (s.texOps.any fun m => mine m.x) || (s.rayOps.any fun m => mine m.x) || (s.rgOps.any fun m => mine m.x) ||
    (s.ncalls.any fun m => mine m.x) || (s.sends.any fun m => mine m.x) || (s.landings.any fun m => mine m.x) ||
    (s.mbReqs.any fun m => mine m.x) || (s.pairs.any fun p => (p.2.landing.map fun m => mine m.x).getD false) ||
    s.pinning mine

/-- The trace record of a team's exit (spec/29 R410). -/
def stallRecord (t : Team) : List Byte :=
  bytesOfNat 4 (2 + 256 * 4) ++ bytesOfNat 4 t.inst.toNat ++ bytesOfNat 8 0 ++
    (List.range 16).flatMap fun i => bytesOfNat 4 (Tab.get 0 t.stalls i).toNat

/-- A task is complete; with the last of a record, its notify list is processed (R310). -/
def State.completeTask (s : State) (task : Nat) : State :=
  match s.task? task with
  | none => s
  | some t =>
    match s.record? t.record with
    | none => s.dropTask task
    | some r =>
      let s := { s with records := modFirst (·.uid == r.uid) (fun r => { r with left := r.left - 1 }) s.records }.dropTask task
      if r.left ≤ 1 then r.notify.foldl (fun s i => s.decrement r.ctx i) s else s

/-- The gang's last team has left: its pipes go with it, and its task is complete unless a team was killed. -/
def State.finishGang (s : State) (gang : Nat) : State :=
  match s.gang? gang with
  | none => s
  | some g =>
    if s.teams.any (·.gang == gang) then s
    else if g.killed then s.endGang gang
    else { s with gangs := s.gangs.filter (·.uid != gang) }.completeTask g.task

/-- What the raster units make of a team's exit: a vertex team's block may be read, a pixel team's exports applied. -/
def State.rasterExit (s : State) (t : Team) : State :=
  let final := fun (p : PixelWork) => if p.team = t.uid then { p with final := true } else p
  match t.kind with
  | .compute => s
  | .vertex draw first => { s with draws := modFirst (·.id == draw) (fun d => { d with done := d.done ++ [first] }) s.draws }
  | .pixel _ _ _ _ => { s with pixels := s.pixels.map final }

/-- TEAM_EXIT: all its warps have died and nothing it issued is outstanding. -/
def execTeamExit (team : Nat) (s : State) : Host.Outcome State Fault Refusal :=
  match s.team? team with
  | none => .next s
  | some t =>
    if t.warps.all Warp.dead && !s.teamBusy team then
      let s := (s.release t.core 3).endChunk team
      let s := s.traceRecord t.ctx (stallRecord t)
      .next (((s.rasterExit t).removeTeam team).finishGang t.gang)
    else .next s

end Sys2Proof.Machine
end

