-- ==== Sys2Proof/Machine/Pipes.lean ====
section
/-!
DEFINITION. TSPAWN, TNOTIFY and the named pipes (spec/19 R311, R316 to R318), and pre-emption (R323, R324, R416).
-/

namespace Sys2Proof.Machine

/-! ## TSPAWN and TNOTIFY (R311) -/

/-- One access of a split at a canonical address, after its own checks: its key, or the fault or walk of R251 step 6. -/
def State.splitAccess (s : State) (v : View) (va : Nat) (kind : Access) (k : Nat → Except Trap State) : Except Trap State :=
  if !canonical va then .error ⟨fPAGE, pageInfo 1 va, 0, 0⟩
  else
    match s.xlate v.core v.ctx va kind with
    | .ok key => k key
    | .fault code info => .error ⟨code, info, 0, 0⟩
    | .miss => .ok (s.startWalk v va kind 0)

/-- The fault of reading poisoned bytes. -/
def State.eccAt (s : State) (key n va : Nat) : Option Trap :=
  if s.poisoned key n then some ⟨fECC, BitVec.ofNat 32 va, 0, 0⟩ else none

/-- The team commits at issue, whatever becomes of the instruction's accesses. -/
def State.committing (s : State) (v : View) (body : State → Except Trap State) : Except Trap State := body (s.commitTeam v)

/-- A fault of a committed instruction: the commit stands. -/
def State.settleFault (s : State) (v : View) (r : Except Trap State) : Except Trap State :=
  match r with
  | .ok s => .ok s
  | .error t => .ok ((s.commitTeam v).takeFault v t v.pc)

/-- The 128 bytes have been copied to the ring (R300, R311). -/
def State.spawned (s : State) (c : Nat) (bs : List Byte) : State :=
  let p := recPrio bs
  s.modCtx c fun x => { x with
    spTail := x.spTail + 1, spMarks := x.spMarks ++ [[BitVec.ofNat 32 p, (x.queue p).tail]] }

def execTspawn (f : UE) (s : State) :=
  s.runSync (.tspawn f) fun v =>
    let addr := (v.s64 f.a.toNat).toNat
    if addr % 128 ≠ 0 then .error ⟨fMISALIGN, v.s f.a.toNat, 0, 0⟩
    else if !canonical addr then .error ⟨fPAGE, pageInfo 1 addr, 0, 0⟩
    else
      let x := s.ctxOf v.ctx
      s.settleFault v (s.committing v fun s =>
        let s' := (s.settleAtoms v.team.uid v.warp.num).release v.core 3
        let retire := fun (s : State) (r : Word) => s.retire v (v.warp.setS v.split.mask f.d.toNat r) 0 8
        if !x.spawnRing || decide ((x.spTail - x.spHead).toNat ≥ x.spSize.toNat) then .ok (retire s' 1)
        else
          let slot := (x.spBase.toNat + 128 * (x.spTail.toNat % x.spSize.toNat)) % 2 ^ 64
          s.splitAccess v addr .load fun src => s.splitAccess v slot .store fun dst =>
            match s'.eccAt src 128 addr with
            | some t => .error t
            | none =>
              let (s, bs) := s'.strongLoad v.core 3 src 128
              .ok (retire ((s.strongStore v.core v.team.uid 3 dst bs).spawned v.ctx bs) 0))

def execTnotify (f : UE) (s : State) :=
  s.runSync (.tnotify f) fun v =>
    let idx := v.s f.a.toNat
    let x := s.ctxOf v.ctx
    if idx.toNat ≥ x.depSize.toNat then .error ⟨fPROT, idx, 0, 0⟩
    else
      let va := (x.depBase.toNat + 4 * idx.toNat) % 2 ^ 64
      s.settleFault v (s.committing v fun s => s.splitAccess v va .store fun key =>
        match s.eccAt key 4 va with
        | some t => .error t
        | none =>
          let s := (s.settleAtoms v.team.uid v.warp.num).release v.core 3
          let (s, bs) := s.strongLoad v.core 3 key 4
          let m := natOfBytes bs
          let s := if m = 0 then s.modCtx v.ctx (·.err 8)
            else s.strongStore v.core v.team.uid 3 key (bytesOfNat 4 (m - 1))
          .ok (s.skip v 8))

/-! ## Named pipes (R317) -/

def UE.pipe (f : UE) : Nat := (f.w1.extractLsb' 0 4).toNat

/-- A pipe instruction on a declared pipe. -/
def State.pipeOp (s : State) (i : Instr) (f : UE) (body : View → Pipe → Except Trap State) : Host.Outcome State Fault Refusal :=
  s.runSync i fun v =>
    match s.pipe? v.team.gang (UE.pipe f) with
    | none => .error (pipeTrap (UE.pipe f) 0)
    | some p => body v p

def State.setPipe (s : State) (gang : Nat) (p : Pipe) : State :=
  s.modGang gang fun g => { g with pipes := modFirst (·.num == p.num) (fun _ => p) g.pipes }

/-- Slot k changes state in the name of team number t. -/
def Pipe.setSlot (p : Pipe) (k : Nat) (st : PipeSt) (t : Nat) : Pipe :=
  { p with slots := modNth (fun _ => (st, some t)) k p.slots }

def Pipe.stateAt (p : Pipe) (k : Nat) : PipeSt := (p.slots.getD k (.taken, none)).1
def Pipe.offsetOf (p : Pipe) (k : Nat) : Nat := p.base + k * p.sbytes

/-- The slot whose base is a given offset, when it is in this state for this team. -/
def Pipe.heldSlot? (p : Pipe) (off : Word) (st : PipeSt) (team : Nat) : Option Nat :=
  (List.range p.slots.length).find? fun k => p.offsetOf k == off.toNat && p.slots.getD k (.free, none) == (st, some team)

/-- PRSV and PGET: take the slot at an index when it is in the state wanted, else wait, or answer at once under NW. -/
def State.pipeTake (s : State) (v : View) (f : UE) (p : Pipe) (k : Nat) (want : PipeSt) (p' : Pipe) : Except Trap State :=
  if p.stateAt k = want then
    .ok ((s.setPipe v.team.gang p').retire v (v.warp.setS v.split.mask f.d.toNat (BitVec.ofNat 32 (p.offsetOf k))) 0 8)
  else if f.sub.getLsbD 0 then .ok (s.retire v (v.warp.setS v.split.mask f.d.toNat 0xFFFFFFFF) 0 8)
  else .ok (s.stall v 8)

def execPrsv (f : UE) (s : State) :=
  s.pipeOp (.prsv f) f fun v p =>
    s.pipeTake v f p p.prod .free { p.setSlot p.prod .reserved v.team.num with prod := (p.prod + 1) % p.slots.length }

def execPget (f : UE) (s : State) :=
  s.pipeOp (.pget f) f fun v p =>
    let s := if p.stateAt p.cons = .full then s.acquire v.core 1 else s
    s.pipeTake v f p p.cons .full { p.setSlot p.cons .taken v.team.num with cons := (p.cons + 1) % p.slots.length }

def execPput (f : UE) (s : State) :=
  s.pipeOp (.pput f) f fun v p =>
    match p.heldSlot? (v.s f.a.toNat) .reserved v.team.num with
    | none => .error (pipeTrap p.num 1)
    | some k =>
      let s := if p.durable then s.commitTeam v else s
      let s := (s.settleAtoms v.team.uid v.warp.num).release v.core 1
      .ok ((s.setPipe v.team.gang (p.setSlot k .full v.team.num)).skip v 8)

def execPrel (f : UE) (s : State) :=
  s.pipeOp (.prel f) f fun v p =>
    match p.heldSlot? (v.s f.a.toNat) .taken v.team.num with
    | none => .error (pipeTrap p.num 2)
    | some k => .ok ((s.setPipe v.team.gang (p.setSlot k .free v.team.num)).skip v 8)

/-! ## Pre-emption (R323, R324, R416) -/

def State.gangHalted (s : State) (gang : Nat) : Bool := s.teams.any fun t => t.gang == gang && t.halted

/-- The tick at which a gang's drain bound ends, counted from now. -/
def State.drainLimit (s : State) (c : Nat) : Option Nat :=
  let b := (s.ctxOf c).drainB
  if b = 0xFFFFFFFF then none else some (s.tick + b.toNat)

/-- Pre-empt a resident gang: flush is discarded, drain is asked to leave; a halted one is asked when its halt ends. -/
def State.preemptGang (s : State) (g : Gang) : State :=
  if !g.drain then s.discardGang g.uid .unplaced
  else if s.gangHalted g.uid then s.modGang g.uid fun g => { g with pending := true }
  else
    let s := { s with teams := s.teams.map fun (t : Team) => if t.gang = g.uid then { t with preempt := true } else t }
    s.modGang g.uid fun g' => { g' with drainAt := s.drainLimit g.ctx, pending := false }

/-- CTXCTL.HOLD written. -/
def execCtxctlHold (c : Nat) (on : Bool) (s : State) : Host.Outcome State Fault Refusal :=
  if on then
    if (s.ctxOf c).hold then .next s
    else
      let s := s.modCtx c fun x => { x with hold := true }
      let staged := s.tasks.filter fun t => t.ctx == c && (match t.st with | .staged _ _ _ _ => true | _ => false)
      let s := staged.foldl (fun s t => s.unstage t .unplaced) s
      .next ((s.gangs.filter (·.ctx == c)).foldl (fun s g => s.preemptGang g) s)
  else .next (s.modCtx c fun x => { x with hold := false })

/-- A drain gang's bound has run out: one DRAINKILL record, and its teams are removed. -/
def State.drainKill (s : State) (g : Gang) : State :=
  let ts := sortBy (fun (a b : Team) => decide (a.num ≤ b.num)) (s.teams.filter (·.gang == g.uid))
  match ts with
  | t :: _ => (s.faultRecord g.ctx 9 0 t.inst (s.coreId t.core) 0 0).killGang g.uid
  | [] => s.killGang g.uid

def execPreemptDrainExpiry (gang : Nat) (s : State) : Host.Outcome State Fault Refusal :=
  match s.gang? gang with
  | none => .next s
  | some g =>
    match g.drainAt with
    | some at' => .next (if at' ≤ s.tick && !s.gangHalted gang then s.drainKill g else s)
    | none => .next s

/-- A task fits its cluster now. -/
def State.taskFits (s : State) (task : Nat) : Bool :=
  match s.task? task with
  | none => true
  | some t => ((s.record? t.record).bind fun r => s.placement? t r).isSome

/-- A priority-3 task that has waited 10,000 ticks: flush gangs of lower priority go, the youngest first, until it fits. -/
def execPriorityPreempt (task : Nat) (s : State) : Host.Outcome State Fault Refusal :=
  match s.task? task with
  | none => .next s
  | some t =>
    if t.prio = 3 && t.st == .unplaced && !(s.ctxOf t.ctx).hold && s.tick ≥ t.tick + 10000 then
      let victims := sortBy (fun (a b : Gang) => decide (a.started ≥ b.started))
        (s.gangs.filter fun g => g.cluster == t.cluster && !g.drain && decide (g.prio < 3))
      .next (victims.foldl (fun s g => if s.taskFits task then s else s.discardGang g.uid .unplaced) s)
    else .next s

/-- KILL clears itself: the step that set it has made every removal and every record (R416). -/
def execCtxctlKillDone (c : Nat) (s : State) : Host.Outcome State Fault Refusal :=
  .next (s.modCtx c fun x => { x with kill := false })

end Sys2Proof.Machine
end

