-- ==== Sys2Proof/Machine/Neural.lean ====
section
/-!
DEFINITION. Neural calls, the regroup unit, weight sets and RGDISP (spec/21 R325 to R344).
-/

namespace Sys2Proof.Machine

/-! ## Descriptors and their data (R327 to R329) -/

/-- A layer: widths, activation, weight format, and where its pieces lie, counted from the descriptor. -/
structure NLayer where
  inW   : Nat
  outW  : Nat
  act   : Nat
  wf    : Nat
  bias  : Bool
  wOff  : Nat
  sOff  : Nat
  bOff  : Nat
  deriving DecidableEq, Repr

def align64 (n : Nat) : Nat := (n + 63) / 64 * 64

/-- Bytes of a line of weights. -/
def weightLine (wf inW : Nat) : Nat := match wf with | 1 => 2 * inW | 3 => inW | _ => inW / 2

def layerWord (bs : List Byte) (l : Nat) : Nat := fieldAt bs (8 + 4 * l) 4
def netLayers (bs : List Byte) : Nat := bitsOf (fieldAt bs 0 4) 0 3 + 1
def netFmt (bs : List Byte) : Nat := bitsOf (fieldAt bs 0 4) 4 4
def netDsize (bs : List Byte) : Nat := fieldAt bs 4 4

/-- The slope of leaky ReLU; +0 selects 0.0625. -/
def netSlope (bs : List Byte) : Nat := if fieldAt bs 0x28 4 = 0 then 0x3D800000 else fieldAt bs 0x28 4

/-- A layer whose first piece starts at or after offset `at'`, and where its last piece ends. -/
def layerAt (w at' : Nat) : NLayer × Nat :=
  let inW := 4 * (bitsOf w 0 4 + 1)
  let outW := 4 * (bitsOf w 4 4 + 1)
  let wf := bitsOf w 16 4
  let bias := bitsOf w 23 1 == 1
  let wOff := align64 at'
  let e1 := wOff + outW * weightLine wf inW
  let sOff := align64 e1
  let e2 := if wf = 5 then sOff + outW * (inW / 32) else e1
  let bOff := align64 e2
  (⟨inW, outW, bitsOf w 20 3, wf, bias, wOff, sOff, bOff⟩, if bias then bOff + 4 * outW else e2)

def layersFrom : Nat → List Nat → List NLayer × Nat
  | at', [] => ([], at')
  | at', w :: ws =>
    let (l, e) := layerAt w at'
    let (ls, e') := layersFrom e ws
    (l :: ls, e')

/-- The layers of a descriptor, and where its data ends, counted from the descriptor. -/
def layout (bs : List Byte) : List NLayer × Nat := layersFrom 64 ((List.range (netLayers bs)).map (layerWord bs))

def chained : List NLayer → Bool
  | a :: b :: rest => a.outW == b.inW && chained (b :: rest)
  | _ => true

/-- The conditions of R329 that the 64 bytes of a descriptor decide. -/
def netOk (bs : List Byte) : Bool :=
  let ls := (layout bs).1
  bitsOf (fieldAt bs 0 4) 8 24 == 0 && bitsOf (fieldAt bs 0 4) 3 1 == 0 && decide (netFmt bs ≤ 3) &&
    (List.range 8).all (fun l => if l < netLayers bs then bitsOf (layerWord bs l) 24 8 == 0 && bitsOf (layerWord bs l) 8 8 == 0
      else layerWord bs l == 0) &&
    fieldAt bs 0x2C 20 == 0 &&
    ls.all (fun l => l.act != 7 && (l.wf == 1 || l.wf == 3 || (l.wf == 5 && l.inW % 32 == 0))) && chained ls &&
    decide ((layout bs).2 ≤ 64 + netDsize bs)

/-! ## Evaluation of a row (R330, R331) -/

/-- Weight from input i to output o of a layer. -/
def weightAt (bs : List Byte) (l : NLayer) (o i : Nat) : FVal :=
  let line := l.wOff + o * weightLine l.wf l.inW
  match l.wf with
  | 1 => bf16.decode (fieldAt bs (line + 2 * i) 2)
  | 3 => e4m3.decode (fieldAt bs (line + i) 1)
  | _ => mxScaled (fieldAt bs (l.sOff + o * (l.inW / 32) + i / 32) 1) (e2m1.decode (bitsOf (fieldAt bs (line + i / 2) 1) (4 * (i % 2)) 4))

def FVal.isPosInf : FVal → Bool | .inf n => !n | _ => false
def FVal.isNegInf : FVal → Bool | .inf n => n | _ => false
def FVal.isNegZero : FVal → Bool | .num d => d.neg && d.m == 0 | _ => false
def FVal.dyadic : FVal → Dy | .num d => d | _ => ⟨false, 0, 0⟩

/-- The exact sum of terms. -/
def exactSum (ts : List FVal) : FVal :=
  if ts.any FVal.isNan || (ts.any FVal.isPosInf && ts.any FVal.isNegInf) then .nan false
  else if ts.any FVal.isPosInf then .inf false
  else if ts.any FVal.isNegInf then .inf true
  else
    let d := ts.foldl (fun a t => a.add t.dyadic) (⟨false, 0, 0⟩ : Dy)
    .num (if d.m = 0 then ⟨ts.all FVal.isNegZero, 0, 0⟩ else d)

/-- An activation of an FP32 value. -/
def activate (act slope y : Nat) : Nat :=
  let v := fp32.decode y
  let neg := match v with | .num d => d.neg && d.m != 0 | .inf n => n | .nan _ => false
  let zero := match v with | .num d => d.m == 0 | _ => false
  if v.isNan then fp32.nanBits
  else
    match act with
    | 1 => if neg || zero then 0 else y
    | 2 => if neg then mul32 y slope else y
    | 3 => (fp32.opFun .tanh {} y).1
    | 4 => (fp32.opFun .sgm {} y).1
    | 5 => if v.isNegInf then fp32.signBit true else (fp32.finish 0 false (fMul v (UFun.eval .sgm v).1).1).1
    | 6 => (fp32.opFun .sin {} y).1
    | _ => y

/-- Round an FP32 value to the format between layers: the code and SAT. -/
def narrowTo (fmt x : Nat) : Nat × Word :=
  if fmt = 0 then (x, 0)
  else
    let r := (fmtOf fmt).narrow 0 true (fp32.decode x)
    (r.1, r.2 &&& flagSAT)

/-- Outputs of a layer as FP32, before narrowing. -/
def layerOut (bs : List Byte) (fmt : Nat) (l : NLayer) (a : List Nat) : List Nat :=
  (List.range l.outW).map fun o =>
    let products := (List.range l.inW).map fun i => (fMul (weightAt bs l o i) ((fmtOf fmt).decode (a.getD i 0))).1
    let terms := if l.bias then fp32.decode (fieldAt bs (l.bOff + 4 * o) 4) :: products else products
    activate l.act (netSlope bs) (fp32.finish 0 false (exactSum terms)).1

def runLayers (bs : List Byte) (fmt : Nat) : List NLayer → List Nat → Word → List Nat × Word
  | [], a, f => (a, f)
  | [l], a, f => (layerOut bs fmt l a, f)
  | l :: ls, a, f =>
    let ns := (layerOut bs fmt l a).map (narrowTo fmt)
    runLayers bs fmt ls (ns.map (·.1)) (ns.foldl (fun f n => f ||| n.2) f)

/-- A row's NO outputs and its flags (R331, R332). -/
def evalRow (bs : List Byte) (no : Nat) (xs : List Word) : List Word × Word :=
  let ls := (layout bs).1
  let inW := (ls.headD ⟨0, 0, 0, 0, false, 0, 0, 0⟩).inW
  let fmt := netFmt bs
  let ns := (List.range inW).map fun i => narrowTo fmt ((xs.getD i 0).toNat)
  let (out, f) := runLayers bs fmt ls (ns.map (·.1)) (ns.foldl (fun f n => f ||| n.2) 0)
  let out := (List.range no).map fun o => BitVec.ofNat 32 (out.getD o 0)
  (out, f ||| flagIf (out.any fun o => (fp32.decode o.toNat).isNan) flagNANM)

/-! ## Handles (R325, R326, R337) -/

def State.regroup (s : State) (cl : Nat) : Regroup := Tab.get {} s.regroups cl
def State.modRegroup (s : State) (cl : Nat) (f : Regroup → Regroup) : State :=
  { s with regroups := Tab.upd {} s.regroups cl f }

def handleSet (h : Word) : Nat := (h.extractLsb' 16 16).toNat
def handleVer (h : Word) : Nat := (h.extractLsb' 8 8).toNat

inductive Resolved where
  | ok (key : VerKey) (desc : Nat)
  | bad
  | waits
  deriving DecidableEq, Repr

/-- The version is in the cache, whole. -/
def Regroup.resident (r : Regroup) (k : VerKey) : Bool := r.cache.any fun v => v.key == k && !v.bad

/-- Resolve a handle, where `resident` names the versions at hand. A resident version needs no descriptor. -/
def State.resolveHandle (s : State) (resident : VerKey → Bool) (c : Nat) (h : Word) (who : Requester) : State × Resolved :=
  let x := s.ctxOf c
  let set := handleSet h
  let ver := handleVer h
  if h.extractLsb' 0 8 != 0 || set ≥ x.wsSize.toNat then (s, .bad)
  else
    match s.unitRead c ((x.wsBase.toNat + 16 * set) % 2 ^ 64) 16 who with
    | (s, .waits) => (s, .waits)
    | (s, r) =>
      let s := s.unrefuse who
      let bs := match r with | .ok bs => bs | _ => []
      let cur := fieldAt bs 8 1
      let current := bitsOf (fieldAt bs 8 4) 31 1 == 1 && (ver == 0 || ver == cur)
      if current then (s, .ok ⟨c, set, cur⟩ (fieldAt bs 0 8))
      else if ver != 0 && !bs.isEmpty && resident ⟨c, set, ver⟩ then (s, .ok ⟨c, set, ver⟩ 0)
      else (s, .bad)

/-! ## NCALL (R336, R338) -/

/-- Row places of a cluster that calls have taken, those of calls not yet accepted among them. -/
def State.placesTaken (s : State) (cl : Nat) : Nat :=
  s.rowPlaces cl + ((s.ncalls.filter fun c => !c.accepted && clusterOfCore c.core == cl).map (·.rows.length)).sum

def execNcall (f : LR) (s : State) :=
  s.run (.ncall f) fun v =>
    let ls := v.part f.g f.gn
    let ni := (f.m.extractLsb' 0 5).toNat + 1
    let no := (f.s.extractLsb' 0 4).toNat + 1
    if ls.isEmpty then .ok (s.skip v 8)
    else if v.warp.ntok ≥ 63 || s.placesTaken (clusterOfCore v.core) + ls.length > 2048 then .ok (s.stall v 6)
    else
      let c : NCall := {
        id := s.nextId, x := v.sel, mask := v.split.mask, core := v.core, ctx := v.ctx, vd := f.vd.toNat, no
        rows := ls.map fun l => (l, (List.range ni).map fun i => v.warp.v (f.va.toNat + i) l, v.vec f.vc l)
        clock := s.clock, left := ls.length }
      let w := v.warp.addHold ⟨c.id, (List.range no).map (c.vd + ·), [], false, 6⟩
      .ok ({ s with nextId := s.nextId + 1, ncalls := s.ncalls ++ [c] }.retire v { w with ntok := w.ntok + 1 } 0 8)

/-- A cluster's unit accepts the oldest call of the core that it has accepted least recently. -/
def execNcallAccept (cluster : Nat) (s : State) : Host.Outcome State Fault Refusal :=
  let waiting := s.ncalls.filter fun c => !c.accepted && clusterOfCore c.core == cluster
  let last := (s.regroup cluster).lastCore
  let order := ((List.range 4).map (4 * cluster + ·)).filter (!last.contains ·) ++ last
  match order.findSome? fun core => waiting.find? (·.core == core) with
  | none => .next s
  | some c =>
    let s := { s with ncalls := modFirst (·.id == c.id) (fun c => { c with accepted := true }) s.ncalls }
    .next (s.modRegroup cluster fun r => { r with
      queue := r.queue ++ [c.id], lastCore := r.lastCore.filter (· != c.core) ++ [c.core] })

/-! ## Rows come back (R332, R337, R338) -/

/-- A call has no row left to be written. -/
def State.callDone (s : State) (c : NCall) : State :=
  { s with ncalls := s.ncalls.filter (·.id != c.id) }.modWarp c.x.team c.x.warp fun w =>
    { w.dropHold c.id with ntok := w.ntok - 1 }

/-- A row of a call returns with its outputs; one of a team that is gone is dropped. -/
def State.rowBack (s : State) (call lane : Nat) (outs : List Word) (flags : Word) : State :=
  match s.ncalls.find? (·.id == call) with
  | none => s
  | some c =>
    let s := s.modTeam c.x.team fun t => (t.modWarp c.x.warp fun w =>
      (numbered c.vd outs).foldl (fun w x => w.setV x.1 lane x.2) w).raise s.clock flags
    if c.left ≤ 1 then s.callDone c
    else { s with ncalls := modFirst (·.id == call) (fun c => { c with left := c.left - 1 }) s.ncalls }

/-- A row completes with error; the first of its call makes the warp take WSBAD. -/
def State.rowBad (s : State) (call lane : Nat) (h : Word) : State :=
  match s.ncalls.find? (·.id == call) with
  | none => s
  | some c =>
    let s := { s with ncalls := modFirst (·.id == call) (fun c => { c with faulted := true }) s.ncalls }
    let s := s.rowBack call lane (List.replicate c.no (BitVec.ofNat 32 fp32.nanBits)) flagNANM
    if c.faulted || (s.team? c.x.team).isNone then s else s.deferLowest c.x c.mask fWSBAD h

/-! ## The regroup unit (R339, R340) -/

/-- A tile stands in the queue before another: of an earlier clock, or of the same clock with the older row. -/
def Tile.before (a b : Tile) : Bool := decide (a.clock < b.clock) || (a.clock == b.clock && decide (a.oldest ≤ b.oldest))

/-- Rows of a bin go to the pipe as one tile, and the bin is empty. -/
def Regroup.dispatch (r : Regroup) (clock n : Nat) : Regroup :=
  match Tab.find? r.bins n with
  | none => r
  | some b =>
    let t : Tile := ⟨b.key, b.rows, b.oldest, clock⟩
    { r with bins := Tab.del r.bins n, tiles := r.tiles.takeWhile (·.before t) ++ t :: r.tiles.dropWhile (·.before t) }

/-- Bins that p selects dispatch. -/
def Regroup.dispatchIf (r : Regroup) (clock : Nat) (p : Bin → Bool) : Regroup :=
  (r.bins.filter fun b => p b.2).foldl (fun r b => r.dispatch clock b.1) r

/-- An empty bin, made by a forced dispatch where there is none. -/
def Regroup.emptyBin (r : Regroup) (clock : Nat) : Regroup × Nat :=
  match (List.range 32).find? fun n => (Tab.find? r.bins n).isNone with
  | some n => (r, n)
  | none =>
    match (sortBy (fun (a b : Nat × Bin) => decide (a.2.oldest ≤ b.2.oldest)) r.bins).head? with
    | some b => (r.dispatch clock b.1, b.1)
    | none => (r, 0)

/-- Place a resolved row in its bin. -/
def Regroup.placeRow (r : Regroup) (k : VerKey) (row : Row) : Regroup :=
  match r.bins.find? fun b => b.2.key == k with
  | some (n, b) =>
    let r := { r with bins := Tab.ins r.bins n { b with rows := b.rows ++ [row] } }
    if b.rows.length + 1 ≥ 64 then r.dispatch row.placed n else r
  | none =>
    let (r, n) := r.emptyBin row.placed
    { r with bins := Tab.ins r.bins n ⟨k, [row], row.placed⟩ }

/-- The version of a placed row is in the cache, or a load of it is pending. -/
def State.needVersion (s : State) (cl : Nat) (k : VerKey) (desc : Nat) : State :=
  let r := s.regroup cl
  if r.cache.any (·.key == k) then
    s.modRegroup cl fun r => { r with cache := r.cache.map fun v => if v.key == k then { v with used := s.clock } else v }
  else if r.loads.any fun l => l.key == k && l.desc.isSome then s
  else
    let l : WLoad := { id := s.nextId, key := k, desc := some desc, early := false }
    { s with nextId := s.nextId + 1 }.modRegroup cl fun r => { r with loads := r.loads ++ [l] }

/-- The unit places the next row of the oldest accepted call. -/
def execRowPlace (cluster : Nat) (s : State) : Host.Outcome State Fault Refusal :=
  let call := (s.regroup cluster).queue.findSome? fun id => s.ncalls.find? fun c => c.id == id && !c.rows.isEmpty
  match call with
  | none => .next s
  | some c =>
    match c.rows with
    | [] => .next s
    | (lane, xs, h) :: rest =>
      match s.resolveHandle (s.regroup cluster).resident c.ctx h (.unit c.id) with
      | (s, .waits) => .next s
      | (s, r) =>
        let s := { s with ncalls := modFirst (·.id == c.id) (fun c => { c with rows := rest }) s.ncalls }
        let s := if rest.isEmpty then s.modRegroup cluster fun r => { r with queue := r.queue.filter (· != c.id) } else s
        match r with
        | .ok k desc =>
          .next ((s.needVersion cluster k desc).modRegroup cluster fun r => r.placeRow k ⟨c.id, lane, h, xs, s.clock⟩)
        | _ => .next (s.rowBad c.id lane h)

def execBinAgeDispatch (cluster : Nat) (s : State) : Host.Outcome State Fault Refusal :=
  .next (s.modRegroup cluster fun r => r.dispatchIf s.clock fun b => decide (b.oldest + 256 ≤ s.clock))

/-- A warp with calls outstanding that has no ready split and one that stalls NTOK. -/
def Warp.stalledNtok (w : Warp) : Bool := w.splits.all (·.wait != .none) && w.splits.any (·.wait == .stall 6)

def execBinStallDispatch (cluster : Nat) (s : State) : Host.Outcome State Fault Refusal :=
  let ws := ((s.teams.filter fun t => clusterOfCore t.core == cluster).flatMap (·.warps)).filter fun w => w.ntok != 0
  .next (if !ws.isEmpty && ws.all Warp.stalledNtok then s.modRegroup cluster fun r => r.dispatchIf s.clock fun _ => true else s)

def execNflush (f : UE) (s : State) :=
  s.runSync (.nflush f) fun v =>
    .ok ((s.modRegroup (clusterOfCore v.core) fun r => r.dispatchIf s.clock fun _ => true).skip v 8)

/-! ## The weight cache (R333, R334, R341) -/

/-- A row in the unit names the version. -/
def Regroup.named (r : Regroup) (k : VerKey) : Bool :=
  r.bins.any (fun b => b.2.key == k) || r.tiles.any fun t => t.key == k

/-- An episode has bound the version (spec/25 R364). -/
def State.bound (s : State) (k : VerKey) : Bool := s.episodes.any fun e => e.bound == some k

def State.referenced (s : State) (r : Regroup) (v : WVersion) : Bool := !v.pins.isEmpty || s.bound v.key || r.named v.key

def Regroup.cached (r : Regroup) : Nat := (r.cache.map (·.bytes.length)).sum
def Regroup.pinnedBytes (r : Regroup) : Nat := ((r.cache.filter WVersion.pinned).map (·.bytes.length)).sum

/-- Capacity of a weight cache (spec/01 R7) and the limit on pinned bytes. -/
def cacheBytes : Nat := 2 ^ 23
def pinBytes : Nat := 6 * 2 ^ 20

/-- Evict versions that are not referenced, the least recently used first, until n bytes have room. -/
def State.makeRoom (s : State) : Nat → Regroup → Nat → Regroup
  | 0, r, _ => r
  | fuel + 1, r, n =>
    if r.cached + n ≤ cacheBytes then r
    else
      match (sortBy (fun (a b : WVersion) => decide (a.used ≤ b.used)) (r.cache.filter fun v => !s.referenced r v)).head? with
      | some v => s.makeRoom fuel { r with cache := r.cache.filter (·.key != v.key) } n
      | none => r

/-- A bad version is kept only while something names it. -/
def State.dropBad (s : State) (cl : Nat) : State :=
  s.modRegroup cl fun r => { r with cache := r.cache.filter fun v => !v.bad || s.referenced r v }

/-- A WPIN ends: it writes its register. -/
def State.endPin (s : State) (p : Sel × BitVec 8 × Nat × Nat) (status : Word) : State :=
  s.modWarp p.1.team p.1.warp fun w => (w.setS p.2.1 p.2.2.1 status).dropHold p.2.2.2

/-- A WPIN whose version is in the cache. -/
def State.tryPin (s : State) (cl : Nat) (k : VerKey) (p : Sel × BitVec 8 × Nat × Nat) : State :=
  let r := s.regroup cl
  match r.cache.find? (·.key == k) with
  | none => s.endPin p 1
  | some v =>
    if v.bad || (v.pins.isEmpty && r.pinnedBytes + v.bytes.length > pinBytes) then s.endPin p 1
    else
      let pin := fun (v : WVersion) => if v.pins.contains p.1.team then v else { v with pins := v.pins ++ [p.1.team] }
      (s.modRegroup cl fun r => { r with cache := modFirst (·.key == k) pin r.cache }).endPin p 0

def State.dropLoad (s : State) (cl id : Nat) : State :=
  s.modRegroup cl fun r => { r with loads := r.loads.filter (·.id != id) }

/-- A load's handle has resolved: pins that WUNPIN removes, a version already there or on its way, or a load to make. -/
def State.loadResolved (s : State) (cl : Nat) (l : WLoad) (k : VerKey) (desc : Nat) : State :=
  let s := s.modRegroup cl fun r => { r with
    cache := r.cache.map fun v => if v.key == k then { v with pins := v.pins.filter (!l.unpins.contains ·), used := s.clock } else v }
  let r := s.regroup cl
  if !l.unpins.isEmpty then s.dropLoad cl l.id
  else if r.cache.any (·.key == k) then l.pins.foldl (fun s p => s.tryPin cl k p) (s.dropLoad cl l.id)
  else if r.loads.any fun o => o.key == k && o.desc.isSome then
    (s.dropLoad cl l.id).modRegroup cl fun r => { r with
      loads := modFirst (fun o => o.key == k && o.desc.isSome) (fun o => { o with early := true, pins := o.pins ++ l.pins }) r.loads }
  else s.modRegroup cl fun r => { r with
    loads := modFirst (·.id == l.id) (fun l => { l with key := k, desc := some desc }) r.loads }

/-- Read a version: its descriptor, then its data. -/
def State.readVersion (s : State) (c desc : Nat) (who : Requester) : State × UnitRead :=
  match s.unitReads c who (runPieces 2 desc 64) with
  | (s, .ok bs) => s.unitReads c who (runPieces (netDsize bs / 65536 + 2) desc (64 + netDsize bs))
  | r => r

/-- The load of a version ends with its bytes, or with none when the descriptor is bad. -/
def State.versionLoaded (s : State) (cl : Nat) (l : WLoad) (bs : Option (List Byte)) : State :=
  let n := (bs.getD []).length
  let s := (s.dropLoad cl l.id).modRegroup cl fun r =>
    let r := s.makeRoom r.cache.length r n
    { r with cache := r.cache ++ [⟨l.key, bs.getD [], bs.isNone, s.clock, []⟩] }
  (l.pins.foldl (fun s p => s.tryPin cl l.key p) s).dropBad cl

def execWeightVersionLoad (cluster ctx set ver : Nat) (s : State) : Host.Outcome State Fault Refusal :=
  let mine := (s.regroup cluster).loads.filter (·.key == ⟨ctx, set, ver⟩)
  match (mine.find? (·.desc.isNone)).or mine.head? with
  | none => .next s
  | some l =>
    match l.desc with
    | none =>
      match s.resolveHandle (s.regroup cluster).resident ctx (BitVec.ofNat 32 (set * 65536 + ver * 256)) (.unit l.id) with
      | (s, .waits) => .next s
      | (s, .bad) => .next (l.pins.foldl (fun s p => s.endPin p 1) (s.dropLoad cluster l.id))
      | (s, .ok k desc) => .next (s.loadResolved cluster l k desc)
    | some desc =>
      if !l.early && ((s.regroup cluster).tiles.head?.map (·.key)) != some l.key then .next s
      else
        match s.readVersion ctx desc (.unit l.id) with
        | (s, .waits) => .next s
        | (s, .bad) => .next ((s.unrefuse (.unit l.id)).versionLoaded cluster l none)
        | (s, .ok bs) =>
          let s := s.askSpan (.weights cluster) false ctx desc bs.length
          .next ((s.unrefuse (.unit l.id)).versionLoaded cluster l (if netOk bs then some bs else none))

/-- The head tile's version is in the cache and its rows come back, the lowest lane of a call first. -/
def execTileComplete (cluster : Nat) (s : State) : Host.Outcome State Fault Refusal :=
  let r := s.regroup cluster
  match r.tiles with
  | [] => .next s
  | tile :: rest =>
    match r.cache.find? (·.key == tile.key) with
    | none => .next s
    | some v =>
      let no := fun (w : Row) => ((s.ncalls.find? (·.id == w.call)).map (·.no)).getD 0
      let back := fun (s : State) (w : Row) =>
        if v.bad then s.rowBad w.call w.lane w.handle
        else
          let (outs, flags) := evalRow v.bytes (no w) w.inputs
          s.rowBack w.call w.lane outs flags
      let s := s.modRegroup cluster fun r => { r with
        tiles := rest, cache := modFirst (·.key == tile.key) (fun v => { v with used := s.clock }) r.cache }
      .next ((tile.rows.foldl back s).dropBad cluster)

/-! ## WPREF, WPIN, WUNPIN, WVER (R334, R335) -/

/-- A handle that no table entry can resolve. -/
def State.hopeless (s : State) (c : Nat) (h : Word) : Bool :=
  h.extractLsb' 0 8 != 0 || decide (handleSet h ≥ (s.ctxOf c).wsSize.toNat)

/-- Load number id of the version that a handle names, whose table entry is still to be read. -/
def State.addLoad (s : State) (v : View) (id : Nat) (h : Word) (pins : List (Sel × BitVec 8 × Nat × Nat)) (unpins : List Nat) :
    State :=
  let l : WLoad := { id, key := ⟨v.ctx, handleSet h, handleVer h⟩, desc := none, early := true, pins, unpins }
  s.modRegroup (clusterOfCore v.core) fun r => { r with loads := r.loads ++ [l] }

def execWpref (f : UE) (s : State) :=
  s.runSync (.wpref f) fun v =>
    let h := v.s f.a.toNat
    let (t, id) := s.fresh
    .ok ((if s.hopeless v.ctx h then s else t.addLoad v id h [] []).skip v 8)

def execWpin (f : UE) (s : State) :=
  s.runSync (.wpin f) fun v =>
    let h := v.s f.a.toNat
    if s.hopeless v.ctx h then .ok (s.retire v (v.warp.setS v.split.mask f.d.toNat 1) 0 8)
    else
      let (s, id) := s.fresh
      let w := v.warp.addHold ⟨id, [], [f.d.toNat], false, 1⟩
      .ok ((s.addLoad v id h [(v.sel, v.split.mask, f.d.toNat, id)] []).retire v w 0 8)

/-- WUNPIN resolves its handle as a row would: at once, or when the page of the table entry has come. -/
def execWunpin (f : UE) (s : State) :=
  s.runSync (.wunpin f) fun v =>
    let h := v.s f.a.toNat
    let cl := clusterOfCore v.core
    let (s, id) := s.fresh
    match s.resolveHandle (s.regroup cl).resident v.ctx h (.unit id) with
    | (s, .waits) => .ok ((s.addLoad v id h [] [v.team.uid]).skip v 8)
    | (s, .bad) => .ok (s.skip v 8)
    | (s, .ok k _) =>
      let unpin := fun (w : WVersion) => if w.key == k then { w with pins := w.pins.filter (· != v.team.uid) } else w
      .ok ((s.modRegroup cl fun r => { r with cache := r.cache.map unpin }).skip v 8)

/-- A version is resident and referenced somewhere in the module. -/
def State.versionInUse (s : State) (k : VerKey) : Bool :=
  (List.range 32).any fun cl => (s.regroup cl).cache.any fun v => v.key == k && s.referenced (s.regroup cl) v

/-- Stale copies go, and loads of the version not yet made read the new descriptor. -/
def State.publish (s : State) (k : VerKey) (desc : Nat) : State :=
  (List.range 32).foldl (fun s cl => s.modRegroup cl fun r => { r with
    cache := r.cache.filter (·.key != k)
    loads := r.loads.map fun l => if l.key == k && l.desc.isSome then { l with desc := some desc } else l }) s

def execWver (f : UE) (s : State) :=
  s.runSync (.wver f) fun v =>
    let n := v.s f.a.toNat
    let desc := (v.s64 f.b.toNat).toNat
    let x := s.ctxOf v.ctx
    if n.toNat ≥ x.wsSize.toNat then .error ⟨fPROT, n, 0, 0⟩
    else if desc % 64 ≠ 0 then .error ⟨fMISALIGN, v.s f.b.toNat, 0, 0⟩
    else if !canonical desc then .error ⟨fPAGE, pageInfo 1 desc, 0, 0⟩
    else
      let va := (x.wsBase.toNat + 16 * n.toNat) % 2 ^ 64
      s.settleFault v (s.committing v fun s => s.splitAccess v va .store fun key =>
        match s.eccAt key 16 va with
        | some t => .error t
        | none =>
          let s := (s.settleAtoms v.team.uid v.warp.num).release v.core 3
          let (s, bs) := s.strongLoad v.core 3 key 16
          let word := fieldAt bs 8 4
          let ver := if bitsOf word 31 1 = 1 then bitsOf word 0 8 % 255 + 1 else 1
          let k : VerKey := ⟨v.ctx, n.toNat, ver⟩
          let retire := fun (s : State) (r : Word) => s.retire v (v.warp.setS v.split.mask f.d.toNat r) 0 8
          if s.versionInUse k then .ok (retire s 0xFFFFFFFF)
          else
            let entry := bytesOfNat 8 desc ++ bytesOfNat 4 (2 ^ 31 + bitsOf word 8 23 * 256 + ver)
            .ok (retire ((s.publish k desc).strongStore v.core v.team.uid 3 key entry)
              (BitVec.ofNat 32 (n.toNat * 65536 + ver * 256))))

/-! ## RGDISP (R343, R344) -/

def execRgdisp (f : LR) (s : State) :=
  s.run (.rgdisp f) fun v =>
    let ls := v.part f.g f.gn
    let table := (v.s64 (LR.su f).toNat).toNat
    let drain := ((s.gang? v.team.gang).map (·.drain)).getD true
    if !drain then .error ⟨fPRIV, Instr.word0 (.rgdisp f), 0, 0⟩
    else if ls.isEmpty then .ok (s.skip v 8)
    else if table % 16 ≠ 0 then .error ⟨fMISALIGN, v.s (LR.su f).toNat, 0, 0⟩
    else if !canonical table then .error ⟨fPAGE, pageInfo 1 table, 0, 0⟩
    else if v.warp.ld ≥ 1023 then .ok (s.stall v 2)
    else
      let words := 2 ^ (f.s.extractLsb' 0 2).toNat
      let op : RgOp := {
        id := s.nextId, x := v.sel, mask := v.split.mask, ctx := v.ctx, table, vd := f.vd.toNat
        rows := ls.map fun l => (l, v.vec f.va l, (List.range words).map fun i => v.warp.v (f.vc.toNat + i) l) }
      let w := (v.warp.addLd 1).addHold ⟨op.id, [op.vd], [], false, 1⟩
      let s := s.settleAtoms v.team.uid v.warp.num
      .ok ({ s with nextId := s.nextId + 1, rgOps := s.rgOps ++ [op] }.retire v w 0 8)

/-- The home bytes, once the core's own dirty ones have gone home. -/
def State.unitLoad (s : State) (core key n : Nat) : State × Nat :=
  let s := s.flushRange core key n
  (s, natOfBytes (s.homeBytes key n))

/-- A write at home; the core keeps no copy. -/
def State.unitStore (s : State) (core key : Nat) (bs : List Byte) : State :=
  let s := s.engineWrite (dieOfCore core) key bs
  s.setL1 core ((s.l1Of core).filter fun e => !(key ≤ e.1 && e.1 < key + bs.length))

/-- What RGDISP has done so far: the lanes' positions, and the first refusal. A dry run writes nothing: it finds the
pages that must be waited for. -/
structure RgRun where
  st     : State
  dry    : Bool
  out    : List (Nat × Word) := []
  fault  : Option (Nat × Word) := none
  waits  : Bool := false
  deriving DecidableEq, Repr

def RgRun.store (r : RgRun) (core key : Nat) (bs : List Byte) : RgRun :=
  if r.dry then r else { r with st := r.st.unitStore core key bs }

/-- An access at device scope by the regroup unit for a core: its key, unless it waits or is refused. -/
def RgRun.access (r : RgRun) (op : RgOp) (core va n : Nat) (kind : Access) (refused : List Nat)
    (k : RgRun → Nat → RgRun) : RgRun :=
  let deny := fun (r : RgRun) code info => { r with
    out := r.out ++ refused.map fun l => (l, (0xFFFFFFFD : Word)), fault := some (r.fault.getD (code, info)) }
  let inst := ((r.st.team? op.x.team).map (·.inst)).getD 0
  match r.st.unitXlate op.ctx va kind (.unit op.id) inst (r.st.coreId core) with
  | (s, .waits) => { r with st := s, waits := true }
  | (s, .fault code info) => deny { r with st := s } code info
  | (s, .ok key) =>
    if kind != .store && s.poisoned key n then deny { r with st := s } fECC (BitVec.ofNat 32 va)
    else k { r with st := if r.dry then s else s.ask (.regroup (clusterOfCore core)) (kind == .store) key n } key

/-- One lane's row at its position. -/
def RgRun.writeRow (r : RgRun) (op : RgOp) (core base cap pos lane : Nat) (bs : List Byte) : RgRun :=
  if pos ≥ cap then { r with out := r.out ++ [(lane, 0xFFFFFFFF)] }
  else
    let va := (base + pos * bs.length) % 2 ^ 64
    let first := min bs.length (65536 - va % 65536)
    r.access op core va first .store [lane] fun r key =>
      let done := fun (r : RgRun) => { r with out := r.out ++ [(lane, BitVec.ofNat 32 pos)] }
      if first = bs.length then done (r.store core key bs)
      else
        r.access op core ((va + first) % 2 ^ 64) (bs.length - first) .store [lane] fun r key2 =>
          done ((r.store core key (bs.take first)).store core key2 (bs.drop first))

/-- The lanes of one key: its COUNT step, then their rows. -/
def RgRun.doKey (r : RgRun) (op : RgOp) (core key : Nat) : RgRun :=
  let mine := op.rows.filter fun w => w.2.1.toNat == key
  let lanes := mine.map (·.1)
  let entry := (op.table + 16 + 16 * key) % 2 ^ 64
  r.access op core entry 16 .load lanes fun r pk =>
    r.access op core ((entry + 8) % 2 ^ 64) 4 .store lanes fun r ck =>
      let (s, base) := r.st.unitLoad core pk 8
      let (s, cap) := s.unitLoad core (pk + 12) 4
      let (s, c) := s.unitLoad core ck 4
      let r := { r with st := s }.store core ck (bytesOfNat 4 (c + mine.length))
      ((List.range mine.length).zip mine).foldl (fun r (i, lane, k, ws) =>
        r.writeRow op core base cap ((c + i) % 2 ^ 32) lane (bytesOfNat 4 k.toNat ++ ws.flatMap fun w => bytesOfNat 4 w.toNat)) r

/-- All of an RGDISP, keys in ascending order. -/
def State.rgRun (s : State) (op : RgOp) (core : Nat) (dry : Bool) : RgRun :=
  let all := op.rows.map (·.1)
  ({ st := s, dry } : RgRun).access op core op.table 4 .load all fun r key =>
    let (s, nk) := r.st.unitLoad core key 4
    let high := op.rows.filter fun w => decide (w.2.1.toNat ≥ nk)
    let keys := sortBy (fun a b => decide (a ≤ b)) (distinct ((op.rows.map (·.2.1.toNat)).filter (· < nk)))
    keys.foldl (fun r k => r.doKey op core k) { r with st := s, out := high.map fun w => (w.1, 0xFFFFFFFE) }

def execRgdispComplete (id : Nat) (s : State) : Host.Outcome State Fault Refusal :=
  match s.rgOps.find? (·.id == id) with
  | none => .next s
  | some op =>
    let core := ((s.team? op.x.team).map (·.core)).getD 0
    let plan := s.rgRun op core true
    if plan.waits then .next plan.st
    else
      let r := s.rgRun op core false
      let s := { r.st with rgOps := r.st.rgOps.filter (·.id != id) }.unrefuse (.unit id)
      let s := s.modWarp op.x.team op.x.warp fun w =>
        (r.out.foldl (fun w x => w.setV op.vd x.1 x.2) w).addLd (-1) |>.dropHold id
      match r.fault with
      | some (code, info) => .next (s.deferWarp op.x.team op.x.warp code info)
      | none => .next s

end Sys2Proof.Machine
end

