-- ==== Sys2Proof/Machine/Twill.lean ====
section
/-!
DEFINITION. The Twill meeting routers: tags, sends, landings, the matching stores, deliveries and orphans
(spec/23 R345 to R358).
-/

namespace Sys2Proof.Machine

/-! ## Tags (R345, R346) -/

def tagIndex (tag : Word) : Nat := tag.toNat % 2 ^ 24
def tagGen (tag : Word) : Nat := tag.toNat / 2 ^ 24

/-- The address of an index's tag-state word, and of its overflow slot. -/
def Ctx.tagWord (x : Ctx) (i : Nat) : Nat := (x.twtBase.toNat + 4 * i) % 2 ^ 64
def Ctx.tagSlot (x : Ctx) (i : Nat) : Nat := (x.twOvBase.toNat + 0x800 * i) % 2 ^ 64

/-- The router of an index. -/
def routerOf (i : Nat) : Nat := (i ^^^ i / 2 ^ 6 ^^^ i / 2 ^ 12 ^^^ i / 2 ^ 18) % 64

/-- What a tag-state word says of a tag: allocated under its generation; poisoned under its generation. -/
def tagAllocated (w : Nat) (tag : Word) : Bool := bitsOf w 0 1 == 1 && bitsOf w 24 8 == tagGen tag
def tagPoisoned (w : Nat) (tag : Word) : Bool := bitsOf w 1 1 == 1 && bitsOf w 24 8 == tagGen tag

/-- A split reads, or will update, the tag-state word of an index at its home slice. -/
def State.tagAccess (s : State) (v : View) (i : Nat) (kind : Access) (k : State → Nat → Nat → Except Trap State) :
    Except Trap State :=
  let va := (s.ctxOf v.ctx).tagWord i
  s.splitAccess v va kind fun key =>
    match s.eccAt key 4 va with
    | some t => .error t
    | none =>
      let (s, bs) := s.strongLoad v.core 3 key 4
      k s key (natOfBytes bs)

/-! ## TWTAG and TWFREE (R348) -/

/-- TWTAG and TWFREE in a flush team raise PRIV. -/
def State.drainOnly (s : State) (i : Instr) (body : View → Except Trap State) : Host.Outcome State Fault Refusal :=
  s.runSync i fun v =>
    if ((s.gang? v.team.gang).map (·.drain)).getD true then body v else .error ⟨fPRIV, Instr.word0 i, 0, 0⟩

/-- The next index from i whose word has ALLOC = 0 and POISON = 0. -/
def State.searchTag (s : State) (v : View) (n : Nat) (k : State → Option (Nat × Nat × Nat) → Except Trap State) :
    Nat → Nat → Except Trap State
  | 0, _ => k s none
  | fuel + 1, i =>
    s.tagAccess v i .store fun s key w => if w % 4 = 0 then k s (some (i, key, w)) else s.searchTag v n k fuel ((i + 1) % n)

def execTwtag (f : UE) (s : State) :=
  s.drainOnly (.twtag f) fun v =>
    let n := (s.ctxOf v.ctx).twTags.toNat
    let retire := fun (s : State) (r : Word) => s.retire v (v.warp.setS v.split.mask f.d.toNat r) 0 8
    (s.settleAtoms v.team.uid v.warp.num).searchTag v n (fun s found =>
      match found with
      | none => .ok (retire s 0xFFFFFFFF)
      | some (i, key, w) =>
        let s := s.strongStore v.core v.team.uid 3 key (bytesOfNat 4 (w + 1))
        .ok (retire (s.modCtx v.ctx fun x => { x with rotor := (i + 1) % n }) (BitVec.ofNat 32 (bitsOf w 24 8 * 2 ^ 24 + i))))
      n ((s.ctxOf v.ctx).rotor)

def execTwfree (f : UE) (s : State) :=
  s.drainOnly (.twfree f) fun v =>
    let tag := v.s f.a.toNat
    (s.settleAtoms v.team.uid v.warp.num).tagAccess v (tagIndex tag) .store fun s key w =>
      if tagAllocated w tag && decide (tagIndex tag < (s.ctxOf v.ctx).twTags.toNat) || tagPoisoned w tag then
        let w' := (bitsOf w 24 8 + 1) % 256 * 2 ^ 24 + bitsOf w 2 22 * 4
        .ok ((s.strongStore v.core v.team.uid 3 key (bytesOfNat 4 w')).skip v 8)
      else .error ⟨fPROT, tag, 0, 0⟩

/-! ## Sends (R349 to R351) -/

def destRouterModule (d : Word) : Nat := (d.extractLsb' 22 6).toNat
def destModule (d : Word) : Nat := (d.extractLsb' 16 6).toNat
/-- The destination core in its module. -/
def destCore (d : Word) : Nat := (d.extractLsb' 0 7).toNat

/-- Module m is this one, or an open port leads to it. -/
def State.reachable (s : State) (m : Nat) : Bool := m == s.khmod.toNat || (s.peerPort? m).isSome

/-- A tag is valid (R346), else PROT. -/
def State.validTag (s : State) (v : View) (tag : Word) (k : State → Nat → Except Trap State) : Except Trap State :=
  if tagIndex tag ≥ (s.ctxOf v.ctx).twTags.toNat then .error ⟨fPROT, tag, 0, 0⟩
  else s.tagAccess v (tagIndex tag) .load fun s _ w => if tagAllocated w tag then k s w else .error ⟨fPROT, tag, 0, 0⟩

/-- A new token of the team; `acquires` where its observation is an acquire. -/
def State.newToken (s : State) (v : View) (acquires : Bool) : State × Word :=
  let val := BitVec.ofNat 32 s.nextId ^^^ Config.tokenMask
  ({ s with tokens := s.tokens ++ [(⟨val, v.team.uid, none, acquires⟩ : Token)] }, val)

/-- The send itself: commit, release, lock, token, and the tile at the core's port. -/
def State.startSend (s : State) (v : View) (f : UE) (off : Nat) (tag dest : Word) (lock : RLock) : State :=
  let s := ((s.commitTeam v).settleAtoms v.team.uid v.warp.num).release v.core 3
  let (s, token) := s.newToken v false
  let m : TwSend := {
    id := lock.op, core := v.core, ctx := v.ctx, x := v.sel, mask := v.split.mask, tag
    op := (f.w1.extractLsb' 0 3).toNat, dest, tile := s.scrBytes (clusterOfCore v.core) off 1024, token }
  { s with nextId := s.nextId + 1, rlocks := s.rlocks ++ [lock], sends := s.sends ++ [m] }.retire v
    (v.warp.setS v.split.mask f.d.toNat token) 0 8

/-- The checks of R350 in their own order, in which ILLOP comes before ILLREG. -/
def execTwsend (f : UE) (s : State) : Host.Outcome State Fault Refusal :=
  s.issue fun v =>
    let tag := v.s f.a.toNat
    let off := v.s f.b.toNat
    let dest := v.s (f.b.toNat + 1)
    let lock : RLock := ⟨s.nextId, v.core, true, off.toNat, off.toNat + 1024, false, false⟩
    let run : Except Trap State :=
      if dest &&& 0xF000FF80 != 0 then .error ⟨fILLOP, Instr.word0 (.twsend f), 0, 0⟩
      else if f.b.toNat % 2 = 1 then .error ⟨fILLREG, Instr.word0 (.twsend f), 0, 0⟩
      else if off.toNat % 64 ≠ 0 then .error ⟨fMISALIGN, off, 0, 0⟩
      else if !s.scrAllowed v.team off.toNat 1024 then .error ⟨fPROT, off, 0, 0⟩
      else
        s.validTag v tag fun s w =>
          match [destRouterModule dest, destModule dest].find? fun m => !s.reachable m with
          | some m => .error ⟨fPAGE, BitVec.ofNat 32 (3 * 2 ^ 29 + m), 0, 0⟩
          | none =>
            if tagPoisoned w tag then .error ⟨fTWPOISON, tag, 0, 0⟩
            else
              match s.rangesConflict? [lock] with
              | some x => .error ⟨fRLOCK, BitVec.ofNat 32 x, 0, 0⟩
              | none =>
                if s.deadConflict [lock] || !s.lockRoom v.core 1 then .ok (s.stall v 12)
                else if s.sends.countP (fun m => m.core == v.core && m.peer.isNone) ≥ 16 then .ok (s.stall v 13)
                else .ok (s.startSend v f off.toNat tag dest lock)
    run.map fun s => s.chunkAfter v

/-! ## Landings (R352, R353) -/

def execTwrecv (f : UE) (s : State) :=
  s.runSync (.twrecv f) fun v =>
    let tag := v.s f.a.toNat
    let off := v.s f.b.toNat
    let lock : RLock := ⟨s.nextId, v.core, true, off.toNat, off.toNat + 1024, true, false⟩
    if off.toNat % 64 ≠ 0 then .error ⟨fMISALIGN, off, 0, 0⟩
    else if !s.scrAllowed v.team off.toNat 1024 then .error ⟨fPROT, off, 0, 0⟩
    else
      s.validTag v tag fun s w =>
        match s.rangesConflict? [lock] with
        | some x => .error ⟨fRLOCK, BitVec.ofNat 32 x, 0, 0⟩
        | none =>
          let mine := s.landings.filter fun l => l.core == v.core
          let poisoned := tagPoisoned w tag
          if mine.any fun l => l.ctx == v.ctx && l.tag == tag then .error ⟨fTWMISMATCH, tag, 0, 0⟩
          else if s.deadConflict [lock] || !s.lockRoom v.core 1 then .ok (s.stall v 12)
          else if mine.length ≥ 32 then .ok (s.stall v 13)
          else
            let token := BitVec.ofNat 32 s.nextId ^^^ Config.tokenMask
            let s := { s with
              nextId := s.nextId + 1
              tokens := s.tokens ++ [(⟨token, v.team.uid, if poisoned then some 2 else none, true⟩ : Token)]
              rlocks := if poisoned then s.rlocks else s.rlocks ++ [lock]
              landings := if poisoned then s.landings
                else s.landings ++ [(⟨lock.op, v.core, v.ctx, v.sel, tag, off.toNat, token, s.tick⟩ : Landing)] }
            .ok (s.retire v (v.warp.setS v.split.mask f.d.toNat token) 0 8)

/-- The status of a token: one that names no operation of the team reads 1. -/
def State.tokenStatus (s : State) (team : Nat) (val : Word) : Nat :=
  match s.tokens.find? fun t => t.val == val && t.team == team with
  | some t => t.status.getD 0
  | none => 1

def execTwrecvSt (f : UE) (s : State) :=
  s.runSync (.twrecvSt f) fun v =>
    .ok (s.retire v (v.warp.setS v.split.mask f.d.toNat (BitVec.ofNat 32 (s.tokenStatus v.team.uid (v.s f.a.toNat)))) 0 8)

/-! ## The combine (R349) -/

def combineElem (op x y : Nat) : Nat :=
  match op with
  | 0 => add32 x y
  | 1 => (bf16.opAdd {} x y).1
  | 2 => (x + y) % 2 ^ 32
  | 3 => (fp32.opMinMax true x y).1
  | 4 => (fp32.opMinMax false x y).1
  | _ => (x + y) % 2 ^ 128

def elemBytes (op : Nat) : Nat := match op with | 1 => 2 | 5 => 16 | _ => 4

/-- The tile c := f(x, y). -/
def combineTiles (op : Nat) (x y : List Byte) : List Byte :=
  let n := elemBytes op
  (List.range (1024 / n)).flatMap fun i => bytesOfNat n (combineElem op (fieldAt x (n * i) n) (fieldAt y (n * i) n))

/-! ## Ends of sends, landings and meetings -/

/-- Complete a token that has no status yet. -/
def State.endToken (s : State) (val : Word) (status : Nat) : State :=
  { s with tokens := modFirst (fun t => t.val == val && t.status.isNone) (fun t => { t with status := some status }) s.tokens }

def State.unlock (s : State) (op : Nat) : State := { s with rlocks := s.rlocks.filter (·.op != op) }

/-- A send leaves its port; the lock and the token of a peer's core are that module's. -/
def State.endSend (s : State) (m : TwSend) (status : Nat) : State :=
  let s := { s with sends := s.sends.filter (·.id != m.id) }
  if m.peer.isSome then s else (s.unlock m.id).endToken m.token status

def State.endLanding (s : State) (l : Landing) (status : Nat) : State :=
  ({ s with landings := s.landings.filter (·.id != l.id) }.unlock l.id).endToken l.token status

def State.meeting? (s : State) (router c : Nat) (tag : Word) : Option Meeting :=
  s.meetings.find? fun m => m.router == router && m.ctx == c && m.tag == tag

def State.dropMeeting (s : State) (m : Meeting) : State := { s with meetings := s.meetings.filter (·.id != m.id) }

def State.setMeeting (s : State) (m : Meeting) : State := { s with meetings := modFirst (·.id == m.id) (fun _ => m) s.meetings }

/-- The landing of a tag at the destination core, where that core is in this module. -/
def State.landing? (s : State) (c : Nat) (tag dest : Word) : Option Landing :=
  if destModule dest = s.khmod.toNat then
    s.landings.find? fun l => l.core == destCore dest && l.ctx == c && l.tag == tag
  else none

/-- A refused access ends the meeting: its tokens, a landing's among them, complete with status 5 and its warps take the
fault (R358). -/
def State.failMeeting (s : State) (c : Nat) (tag dest : Word) (m : Option Meeting) (arriving : Option TwSend) (code : Nat)
    (info : Word) : State :=
  let s := match arriving with
    | some a => (s.endSend a 5).deferWarp a.x.team a.x.warp code info
    | none => s
  let s := match m with
    | some m => m.senders.foldl (fun (s : State) (x : Sel × BitVec 8) => s.deferWarp x.1.team x.1.warp code info)
        (s.dropMeeting m)
    | none => s
  match s.landing? c tag dest with
  | some l => (s.endLanding l 5).deferWarp l.x.team l.x.warp code info
  | none => s

/-! ## The matching store (R354, R355) -/

/-- An access of a router: its key; nothing yet, while the page service is asked; or the end of the meeting. -/
def State.routerAccess (s : State) (c va n : Nat) (kind : Access) (who : Requester) (m : Option Meeting)
    (arriving : Option TwSend) (tag dest : Word) (k : State → Nat → State) : State :=
  match s.unitXlate c va kind who 0 0 with
  | (s, .waits) => s
  | (s, .fault code info) => (s.unrefuse who).failMeeting c tag dest m arriving code info
  | (s, .ok key) =>
    if kind != .store && s.poisoned key n then s.failMeeting c tag dest m arriving fECC (BitVec.ofNat 32 va) else k s key

/-- The port tries again after 16 clocks; `room` counts a refusal for lack of an entry. -/
def State.refuseSend (s : State) (m : TwSend) (lack : Bool) : State :=
  let later := fun (m : TwSend) =>
    { m with next := s.clock + 16, again := true, tries := if lack then m.tries + 1 else m.tries }
  { s with sends := modFirst (·.id == m.id) later s.sends }

def headerBytes (m : TwSend) (tick : Nat) : List Byte :=
  bytesOfNat 4 m.tag.toNat ++ bytesOfNat 4 m.op ++ bytesOfNat 4 m.dest.toNat ++ bytesOfNat 4 tick ++ bytesOfNat 48 0

def State.newMeeting (s : State) (router : Nat) (m : TwSend) (spilled : Bool) : State :=
  let e : Meeting := {
    id := s.nextId, router, ctx := m.ctx, tag := m.tag, combined := false, op := m.op, dest := m.dest
    tile := if spilled then [] else m.tile, tick := s.tick, senders := [(m.x, m.mask)], spilled }
  { s with nextId := s.nextId + 1, meetings := s.meetings ++ [e] }

/-- No entry for the tag: a new one, a refusal, or a spill at the 64th. -/
def State.firstArrival (s : State) (router : Nat) (m : TwSend) : State :=
  let stored := s.meetings.countP fun e => e.router == router && !e.spilled
  let spills := s.meetings.countP fun e => e.router == router && e.spilled
  if stored < 512 then (s.newMeeting router m false).endSend m 1
  else if m.tries + 1 < 64 || spills ≥ 4096 then s.refuseSend m true
  else
    s.routerAccess m.ctx ((s.ctxOf m.ctx).tagSlot (tagIndex m.tag)) 2048 .store (.unit m.id) none (some m) m.tag m.dest
      fun s key =>
        let s := s.engineWrite (router / 16) key (headerBytes m s.tick)
        let s := s.engineWrite (router / 16) (key + 0x400) m.tile
        ((s.newMeeting router m true).modCtx m.ctx fun x => { x with twSpill := x.twSpill + 1 }).endSend m 1

/-- Operations or destinations differ: both tiles go, and each sending warp takes TWMISMATCH. -/
def State.mismatch (s : State) (e : Meeting) (m : TwSend) : State :=
  let s := (s.dropMeeting e).endSend m 3
  ((m.x, m.mask) :: e.senders).foldl (fun s x => s.deferLowest x.1 x.2 fTWMISMATCH m.tag) s

/-- The second tile of a meeting, whose first is `held`. -/
def State.secondArrival (s : State) (e : Meeting) (m : TwSend) (op : Nat) (dest : Word) (held : List Byte)
    (write : State → List Byte → State) : State :=
  if op ≠ m.op || dest &&& 0x003F007F != m.dest &&& 0x003F007F then s.mismatch e m
  else
    let c := combineTiles m.op held m.tile
    let s := write (s.endSend m 1) c
    s.setMeeting { e with
      combined := true, tile := if e.spilled then [] else c, senders := e.senders ++ [(m.x, m.mask)] }

/-- A tile reaches its router (R354). -/
def State.arrival (s : State) (m : TwSend) : State :=
  let router := routerOf (tagIndex m.tag)
  let e? := s.meeting? router m.ctx m.tag
  let x := s.ctxOf m.ctx
  s.routerAccess m.ctx (x.tagWord (tagIndex m.tag)) 4 .load (.unit m.id) e? (some m) m.tag m.dest fun s key =>
    if tagPoisoned (natOfBytes (s.homeBytes key 4)) m.tag then
      (s.endSend m 2).deferLowest m.x m.mask fTWPOISON m.tag
    else
      match e? with
      | none => s.firstArrival router m
      | some e =>
        if e.combined then s.refuseSend m false
        else if !e.spilled then s.secondArrival e m e.op e.dest e.tile fun s _ => s
        else
          let slot := x.tagSlot (tagIndex m.tag)
          s.routerAccess m.ctx slot 2048 .load (.unit m.id) (some e) (some m) m.tag m.dest fun s src =>
            s.routerAccess m.ctx slot 2048 .store (.unit m.id) (some e) (some m) m.tag m.dest fun s dst =>
              let hdr := s.homeBytes src 12
              s.secondArrival e m (bitsOf (fieldAt hdr 4 4) 0 3) (BitVec.ofNat 32 (fieldAt hdr 8 4))
                (s.homeBytes (src + 0x400) 1024) fun s c => s.engineWrite (router / 16) (dst + 0x400) c

/-- A send to a router of another module, whose outcome is that module's by a free choice: accepted, refused for now,
refused for good by a poisoned tag, a mismatch, or ended by a refused access (log 21). -/
def State.foreignArrival (s : State) (m : TwSend) : State :=
  let pick := Config.freeChoice s.freeCtr % 6
  let s := { s with freeCtr := s.freeCtr + 1 }
  match pick with
  | 0 => { s.endSend m 1 with abroad := s.abroad ++ [m] }
  | 1 => s.refuseSend m false
  | 2 => (s.endSend m 2).deferLowest m.x m.mask fTWPOISON m.tag
  | 3 => (s.endSend m 3).deferLowest m.x m.mask fTWMISMATCH m.tag
  | n =>
    (s.endSend m 5).deferWarp m.x.team m.x.warp (if n = 4 then fPAGE else fPROT)
      (BitVec.ofNat 32 (Config.freeChoice (s.freeCtr + n)))

def State.sendArrives (s : State) (m : TwSend) : State :=
  let s := if destRouterModule m.dest = s.khmod.toNat then s.arrival m else s.foreignArrival m
  if s.sends.any (·.id == m.id) then s else s.unrefuse (.unit m.id)

def execTwillArrival (id : Nat) (s : State) : Host.Outcome State Fault Refusal :=
  match s.sends.find? fun m => m.id == id && !m.again && decide (m.next ≤ s.clock) with
  | some m => .next (s.sendArrives m)
  | none => .next s

def execTwillSendRetry (id : Nat) (s : State) : Host.Outcome State Fault Refusal :=
  match s.sends.find? fun m => m.id == id && m.again && decide (m.next ≤ s.clock) with
  | some m => .next (s.sendArrives m)
  | none => .next s

/-! ## Delivery (R356) -/

/-- The tile is in the landing, and its token complete: who observes that acquires. -/
def State.landed (s : State) (l : Landing) (c : List Byte) : State :=
  (s.scrWrite (clusterOfCore l.core) l.off c).endLanding l 1

def State.deliver (s : State) (e : Meeting) : State :=
  let later := fun (s : State) => s.setMeeting { e with retryAt := s.clock + 64 }
  if destModule e.dest ≠ s.khmod.toNat then
    let (s, taken) := s.flip
    if taken then s.dropMeeting e else later s
  else
    match s.landing? e.ctx e.tag e.dest with
    | none => later s
    | some l =>
      if !e.spilled then (s.dropMeeting e).landed l e.tile
      else
        s.routerAccess e.ctx ((s.ctxOf e.ctx).tagSlot (tagIndex e.tag)) 2048 .load (.unit e.id) (some e) none e.tag e.dest
          fun s key => ((s.dropMeeting e).landed l (s.homeBytes (key + 0x400) 1024)).unrefuse (.unit e.id)

def execTwillDelivery (router ctx : Nat) (tag : Word) (s : State) : Host.Outcome State Fault Refusal :=
  match s.meeting? router ctx tag with
  | some e => .next (if e.combined && e.retryAt = 0 then s.deliver e else s)
  | none => .next s

def execTwillDeliveryRetry (router ctx : Nat) (tag : Word) (s : State) : Host.Outcome State Fault Refusal :=
  match s.meeting? router ctx tag with
  | some e => .next (if e.combined && e.retryAt ≠ 0 && e.retryAt ≤ s.clock then s.deliver e else s)
  | none => .next s

/-! ## What reaches a peer's router, and what a peer's router sends here -/

/-- A core of another module sends a tile to a router here: its port is that module's. -/
def State.peerSend (s : State) (source core ctx : Nat) (tag : Word) (op : Nat) (dest : Word) (tile : List Byte) : State :=
  let m : TwSend := {
    id := s.nextId, core, ctx, x := ⟨0, 0, 0⟩, mask := 0, tag, op, dest, tile, token := 0, next := s.clock
    peer := some source }
  { s with nextId := s.nextId + 1, sends := s.sends ++ [m] }

/-- A delivery by a router of another module: refused where no landing matches. -/
def State.peerDeliver (s : State) (ctx : Nat) (tag dest : Word) (tile : List Byte) : State :=
  match s.landing? ctx tag dest with
  | some l => s.landed l tile
  | none => s

/-- A router notifies the destination core of an orphan. -/
def State.notifyOrphan (s : State) (ctx : Nat) (tag dest : Word) : State :=
  match s.landing? ctx tag dest with
  | some l => s.endLanding l 2
  | none => s

/-- A meeting in a peer's router has ended: the senders of this module take its fault, if it has one. -/
def State.peerMeetingEnd (s : State) (ctx : Nat) (tag : Word) (fault : Option (Nat × Word)) : State :=
  let mine := fun (m : TwSend) => m.ctx == ctx && m.tag == tag
  let s' := { s with abroad := s.abroad.filter fun m => !mine m }
  match fault with
  | none => s'
  | some (code, info) => (s.abroad.filter mine).foldl (fun s m =>
      if code = fTWMISMATCH then s.deferLowest m.x m.mask code m.tag else s.deferWarp m.x.team m.x.warp code info) s'

/-! ## Orphans (R357) -/

/-- The entry goes, with a count, a record and the end of a matching landing. -/
def State.orphaned (s : State) (e : Meeting) : State :=
  let s := (s.dropMeeting e).modCtx e.ctx fun x => { x with twOrphN := x.twOrphN + 1 }
  let s := s.faultRecord e.ctx 4 0 0 0 (e.router + (if e.combined then 2 else 1) * 256) e.tag
  s.notifyOrphan e.ctx e.tag e.dest

def execTwillOrphan (router ctx : Nat) (tag : Word) (s : State) : Host.Outcome State Fault Refusal :=
  match s.meeting? router ctx tag with
  | none => .next s
  | some e =>
    let limit := (s.ctxOf ctx).twOrph
    if limit = 0xFFFFFFFF || s.tick < e.tick + limit.toNat then .next s
    else
      match s.unitXlate ctx ((s.ctxOf ctx).tagWord (tagIndex tag)) .store (.unit e.id) 0 0 with
      | (s, .waits) => .next s
      | (s, .fault _ _) => .next ((s.unrefuse (.unit e.id)).orphaned e)
      | (s, .ok key) =>
        let w := natOfBytes (s.homeBytes key 4)
        let set := bitsOf w 24 8 == tagGen tag && bitsOf w 1 1 == 0
        .next ((if set then s.engineWrite (router / 16) key (bytesOfNat 4 (w + 2)) else s).orphaned e)

def execTwillLandingTimeout (id : Nat) (s : State) : Host.Outcome State Fault Refusal :=
  match s.landings.find? (·.id == id) with
  | none => .next s
  | some l =>
    let limit := (s.ctxOf l.ctx).twOrph
    .next (if limit ≠ 0xFFFFFFFF && s.tick ≥ l.tick + limit.toNat then s.endLanding l 4 else s)

/-! ## The registers (R345, R348) -/

/-- TWTAGS and TWTBASE: any write also returns the rotor to index 0. -/
def execTwtagsWrite (c : Nat) (isBase : Bool) (v : BitVec 64) (s : State) : Host.Outcome State Fault Refusal :=
  .next (s.modCtx c fun x =>
    if isBase then { x with twtBase := v, rotor := 0 } else { x with twTags := v.truncate 32 &&& 0xFFFFFF, rotor := 0 })

end Sys2Proof.Machine
end

