-- ==== Sys2Proof/Machine/Episodes.lean ====
section
/-!
DEFINITION. The step mailboxes, the episode queue, the supervisor and the Sorghum cores (spec/25 R359 to R377), and
CTXCTL.KILL (spec/19 R416).
-/

namespace Sys2Proof.Machine

/-! ## MBPUT, MBGET and MBSTAT (R373 to R376) -/

/-- The pair belongs to another context. -/
def State.pairForeign (s : State) (c n : Nat) : Bool := (s.pair n).st != .free && (s.pair n).owner != c

/-- The lock, the counter and the port of a mailbox request, or the lowest reason that keeps it from issuing. -/
def State.mailboxRoom (s : State) (v : View) (lock : RLock) (counts : Bool) (k : Except Trap State) : Except Trap State :=
  match s.rangesConflict? [lock] with
  | some x => .error ⟨fRLOCK, BitVec.ofNat 32 x, 0, 0⟩
  | none =>
    if counts && v.warp.st ≥ 1023 then .ok (s.stall v 3)
    else if s.deadConflict [lock] || !s.lockRoom v.core 1 then .ok (s.stall v 12)
    else if s.mailboxLoad v.core ≥ 16 then .ok (s.stall v 14)
    else k

def execMbput (f : UE) (s : State) :=
  s.runSync (.mbput f) fun v =>
    let header := v.s64 f.a.toNat
    let off := v.s f.b.toNat
    let word := v.s (f.b.toNat + 1)
    let len := (word.extractLsb' 16 13).toNat
    let pair := (word.extractLsb' 0 14).toNat
    let lock : RLock := ⟨s.nextId, v.core, true, off.toNat, off.toNat + len, false, false⟩
    if word &&& 0xE000C000 != 0 || len > 4096 || len % 4 ≠ 0 then .error ⟨fILLOP, word, 0, 0⟩
    else if off.toNat % 16 ≠ 0 then .error ⟨fMISALIGN, off, 0, 0⟩
    else if s.pairForeign v.ctx pair then .error ⟨fPROT, BitVec.ofNat 32 pair, 0, 0⟩
    else if !s.scrAllowed v.team off.toNat len then .error ⟨fPROT, off, 0, 0⟩
    else
      s.mailboxRoom v lock true (
        let s := ((s.commitTeam v).settleAtoms v.team.uid v.warp.num).release v.core 3
        let m : MbReq := {
          id := lock.op, core := v.core, ctx := v.ctx, x := v.sel, mask := v.split.mask, put := true, header
          payload := s.scrBytes (clusterOfCore v.core) off.toNat len, pair, sd := f.d.toNat, token := 0, off := off.toNat
          trap := f.sub.getLsbD 0 }
        let w := (v.warp.addSt 1).addHold ⟨m.id, [], [f.d.toNat], false, 1⟩
        .ok ({ s with
          nextId := s.nextId + 1, rlocks := s.rlocks ++ [lock], mbReqs := s.mbReqs ++ [m] }.retire v w 0 8))

def execMbget (f : UE) (s : State) :=
  s.runSync (.mbget f) fun v =>
    let word := v.s f.a.toNat
    let off := v.s f.b.toNat
    let pair := (word.extractLsb' 0 14).toNat
    let lock : RLock := ⟨s.nextId, v.core, true, off.toNat, off.toNat + 4160, true, false⟩
    if word.extractLsb' 14 18 != 0 then .error ⟨fILLOP, word, 0, 0⟩
    else if off.toNat % 64 ≠ 0 then .error ⟨fMISALIGN, off, 0, 0⟩
    else if s.pairForeign v.ctx pair then .error ⟨fPROT, BitVec.ofNat 32 pair, 0, 0⟩
    else if !s.scrAllowed v.team off.toNat 4160 then .error ⟨fPROT, off, 0, 0⟩
    else
      s.mailboxRoom v lock false (
        let (s, token) := (s.commitTeam v).newToken v true
        let m : MbReq := {
          id := lock.op, core := v.core, ctx := v.ctx, x := v.sel, mask := v.split.mask, put := false, header := 0
          payload := [], pair, sd := f.d.toNat, token, off := off.toNat, trap := false }
        .ok ({ s with
          nextId := s.nextId + 1, rlocks := s.rlocks ++ [lock], mbReqs := s.mbReqs ++ [m] }.retire v
            (v.warp.setS v.split.mask f.d.toNat token) 0 8))

/-- The number of a pair's state. -/
def PairSt.code : PairSt → Nat
  | .free => 0
  | .obsWait => 1
  | .obsReady => 2
  | .actWait => 3
  | .ended => 4

/-- The status of a token for MBSTAT: 15 while pending, 0 when it names no operation of the team. -/
def State.mbTokenStatus (s : State) (team : Nat) (val : Word) : Nat :=
  match s.tokens.find? fun t => t.val == val && t.team == team with
  | some t => t.status.getD 15
  | none => 0

def execMbstat (f : UE) (s : State) :=
  s.runSync (.mbstat f) fun v =>
    let x := v.s f.a.toNat
    let retire := fun (r : Nat) => Except.ok (s.retire v (v.warp.setS v.split.mask f.d.toNat (BitVec.ofNat 32 r)) 0 8)
    if f.sub.getLsbD 0 then retire (s.mbTokenStatus v.team.uid x)
    else if x.extractLsb' 14 18 != 0 then .error ⟨fILLOP, x, 0, 0⟩
    else if s.pairForeign v.ctx x.toNat then .error ⟨fPROT, x, 0, 0⟩
    else
      let p := s.pair x.toNat
      retire (p.st.code * 2 ^ 28 + p.last % 16 * 2 ^ 24 + p.step % 2 ^ 24)

/-! ## Arrivals at a pair (R370, R372) -/

def headerEpisode (h : BitVec 64) : Nat := (h.extractLsb' 44 20).toNat
def headerStep (h : BitVec 64) : Nat := (h.extractLsb' 20 24).toNat
def headerPver (h : BitVec 64) : Nat := (h.extractLsb' 4 16).toNat
def headerStatus (h : BitVec 64) : Nat := (h.extractLsb' 0 4).toNat

/-- The version rule. -/
def Episode.versionOk (e : Episode) (pver : Nat) : Bool :=
  if e.follow then (e.lastPver.map fun l => decide (l ≤ pver)).getD true else pver == e.pver

/-- The outcome of an action in the state of its pair: 0 accepts it. -/
def State.actionOutcome (s : State) (m : MbReq) : Nat :=
  let p := s.pair m.pair
  match p.st with
  | .free => 5
  | .obsWait => 4
  | .obsReady | .ended => p.terminal.getD 4
  | .actWait =>
    if headerEpisode m.header ≠ p.episode || headerStep m.header ≠ (p.step + 1) % 2 ^ 24 then 4
    else if !((s.episode? m.pair).map fun e => e.versionOk (headerPver m.header)).getD false then 3
    else if headerStatus m.header > 1 then 4
    else 0

/-- An accepted action: the next step begins; one with STATUS 1 ends the episode with DONE. -/
def State.acceptAction (s : State) (m : MbReq) : State :=
  let p := s.pair m.pair
  let s := s.setPair m.pair { p with
    st := .obsWait, step := (p.step + 1) % 2 ^ 24, obsPver := headerPver m.header, action := some (m.header, m.payload) }
  let s := s.modEpisode m.pair fun e => { e with lastPver := some (headerPver m.header) }
  if headerStatus m.header = 1 then s.endEpisode m.pair 1 none else s.tryActWait m.pair

/-- The answer of an MBPUT: its register, its lock, its counter, and the fault of MBPUT.T. -/
def State.endPut (s : State) (m : MbReq) (outcome : Nat) : State :=
  let s := { s with mbReqs := s.mbReqs.filter (·.id != m.id) }.unlock m.id
  let s := s.modWarp m.x.team m.x.warp fun w => ((w.setS m.mask m.sd (BitVec.ofNat 32 outcome)).addSt (-1)).dropHold m.id
  if m.trap && outcome == 4 then s.deferWarp m.x.team m.x.warp fMBSEQ (BitVec.ofNat 32 m.pair) else s

def execMailboxActionArrival (id : Nat) (s : State) : Host.Outcome State Fault Refusal :=
  match s.mbReqs.find? fun m => m.id == id && m.put with
  | none => .next s
  | some m =>
    let outcome := s.actionOutcome m
    .next ((if outcome = 0 then s.acceptAction m else s).endPut m outcome)

def execMailboxGetArrival (id : Nat) (s : State) : Host.Outcome State Fault Refusal :=
  match s.mbReqs.find? fun m => m.id == id && !m.put with
  | none => .next s
  | some m =>
    let p := s.pair m.pair
    match p.st with
    | .free => .next (s.endGet m 5)
    | .obsWait =>
      if p.landing.isSome then .next (s.endGet m 4)
      else .next ({ s with mbReqs := s.mbReqs.filter (·.id != id) }.setPair m.pair { p with landing := some m })
    | .obsReady => .next (s.deliverObs m.pair m)
    | .actWait => .next (s.endGet m 4)
    | .ended => .next (s.endGet m (p.terminal.getD 5))

/-- An ENDED pair returns to FREE. -/
def execPairRelease (pair : Nat) (s : State) : Host.Outcome State Fault Refusal :=
  let p := s.pair pair
  if p.st == .ended && s.tick ≥ p.endTick + 1000 then .next (s.setPair pair { last := p.last }) else .next s

/-! ## The episode queue (R362 to R364) -/

def Ctx.epqOn (x : Ctx) : Bool := pow2In 16 65536 x.epqSize.toNat

def execEpqtailWrite (c : Nat) (v : Word) (s : State) : Host.Outcome State Fault Refusal :=
  let s := s.wake
  let x := s.ctxOf c
  if x.epqOn && decide ((v - x.epqHead).toNat ≤ x.epqSize.toNat) then .next (s.modCtx c fun x => { x with epqTail := v })
  else .next (s.modCtx c (·.err 10))

/-- The conditions of R363 and R364 that a descriptor and its pair must meet. -/
def State.episodeOk (s : State) (bs : List Byte) : Bool :=
  let wbase := fieldAt bs 0 8
  let wsize := fieldAt bs 8 8
  let entry := fieldAt bs 16 8
  bitsOf (fieldAt bs 0x20 4) 18 14 == 0 && bitsOf (fieldAt bs 0x24 4) 14 18 == 0 && fieldAt bs 0x34 12 == 0 &&
    wbase % 4096 == 0 && canonical wbase && wsize % 4096 == 0 && decide (4096 ≤ wsize) && decide (wsize ≤ 2 ^ 34) &&
    decide (wbase ≤ entry) && decide (entry < wbase + wsize) && fieldAt bs 0x28 8 % 16 == 0 &&
    (s.pair (bitsOf (fieldAt bs 0x24 4) 0 14)).st == .free

/-- The version that WSH binds; none where it does not resolve. -/
def State.bindWeights (s : State) (c : Nat) (wsh : Word) (who : Requester) : State × Resolved :=
  let anywhere := fun k => (List.range 32).any fun cl => (s.regroup cl).resident k
  if wsh = 0 then (s, .bad) else s.resolveHandle anywhere c wsh who

/-- A budget field: none, or a count. -/
def budgetOf (v unit : Nat) : Option Nat := if v = 0xFFFFFFFF then none else some (v * unit)

/-- Create the episode of a good descriptor. -/
def State.createEpisode (s : State) (c : Nat) (bs : List Byte) (bound : Option VerKey) : State :=
  let pair := bitsOf (fieldAt bs 0x24 4) 0 14
  let reward := bitsOf (fieldAt bs 0x20 4) 17 1 == 1
  let num := (s.ctxOf c).epNext
  let e : Episode := {
    pair, ctx := c, num, wbase := fieldAt bs 0 8, wsize := fieldAt bs 8 8, entry := fieldAt bs 16 8
    tbud := budgetOf (fieldAt bs 0x18 4) 1, ibud := budgetOf (fieldAt bs 0x1C 4) 1024, reward
    follow := bitsOf (fieldAt bs 0x20 4) 16 1 == 1, pver := bitsOf (fieldAt bs 0x20 4) 0 16, result := fieldAt bs 0x28 8
    bound, order := s.nextId, pc := BitVec.ofNat 64 (fieldAt bs 16 8), satp := Config.episodeSatp num }
  let p : Pair := { st := if reward then .actWait else .obsWait, owner := c, episode := num, last := (s.pair pair).last }
  let s := { s with nextId := s.nextId + 1, episodes := s.episodes ++ [e] }.setPair pair p
  (s.modCtx c fun x => { x with epNext := (num + 1) % 2 ^ 20 }).assignCores (dieOfPair pair)

/-- The descriptor at EPQHEAD has been taken. -/
def State.epqAdvance (s : State) (c : Nat) : State :=
  (s.modCtx c fun x => { x with epqHead := x.epqHead + 1 }).unrefuse (.queue c 8)

def execEpisodeCreate (c : Nat) (s : State) : Host.Outcome State Fault Refusal :=
  let x := s.ctxOf c
  let who := Requester.queue c 8
  let addr := (x.epqBase.toNat + 64 * (x.epqHead.toNat % x.epqSize.toNat)) % 2 ^ 64
  let refuse := fun (s : State) => (s.epqAdvance c).faultRecord c 5 0 0 0 addr 0
  if !x.epqOn || x.epqHead = x.epqTail || !Pte.v x.ptRoot then .next s
  else
    match s.unitRead c addr 64 who with
    | (s, .waits) => .next s
    | (s, .bad) => .next (refuse s)
    | (s, .ok bs) =>
      if !s.episodeOk bs then .next (refuse s)
      else
        match s.bindWeights c (BitVec.ofNat 32 (fieldAt bs 0x30 4)) who with
        | (s, .waits) => .next s
        | (s, .bad) => .next ((s.createEpisode c bs none).epqAdvance c)
        | (s, .ok k _) => .next ((s.createEpisode c bs (some k)).epqAdvance c)

/-- EPKILL: a write with a nonzero bit above the number, or of a number that is not live, changes nothing (R371). -/
def execEpkill (c : Nat) (v : Word) (s : State) : Host.Outcome State Fault Refusal :=
  match s.episodes.find? fun e => e.ctx == c && e.num == v.toNat && !e.posted with
  | some e => .next (s.endEpisode e.pair 5 none)
  | none => .next s

/-- CTXCTL.KILL: every resident gang of the context with one record for each team, and every live episode. -/
def execCtxctlKill (c : Nat) (s : State) : Host.Outcome State Fault Refusal :=
  let s := s.modCtx c fun x => { x with kill := true }
  let s := (s.teams.filter (·.ctx == c)).foldl (fun s t => s.faultRecord c 1 0xFF t.inst (s.coreId t.core) 0 0) s
  let s := (s.gangs.filter (·.ctx == c)).foldl (fun s g => s.killGang g.uid) s
  .next ((s.episodes.filter fun e => e.ctx == c && !e.posted).foldl (fun s e => s.endEpisode e.pair 5 none) s)

/-! ## Time slices and budgets (R365, R366) -/

def execEpisodeTimeslice (die core : Nat) (s : State) : Host.Outcome State Fault Refusal :=
  match s.episodes.find? fun e => dieOfPair e.pair == die && e.core == some core with
  | none => .next (s.assignCores die)
  | some e => .next (if e.sliceEnd ≤ s.tick then (s.leaveCore e.pair).assignCores die else s)

/-- A tick has passed: it counts for every episode that is not blocked in EP_ACT_WAIT. -/
def Episode.spendTick (e : Episode) : Episode := if e.runnable then { e with tbud := e.tbud.map (· - 1) } else e

def execEpisodeTickBudgetExpiry (pair : Nat) (s : State) : Host.Outcome State Fault Refusal :=
  match s.episode? pair with
  | some e => .next (if e.tbud = some 0 then s.endEpisode pair 2 none else s)
  | none => .next s

def execEpisodeInstrBudgetExpiry (pair : Nat) (s : State) : Host.Outcome State Fault Refusal :=
  match s.episode? pair with
  | some e => .next (if e.ibud = some 0 then s.endEpisode pair 2 none else s)
  | none => .next s

/-! ## The ecall interface (R367) -/

/-- An event of user code: only the episode that a core runs makes one. -/
def State.ecall (s : State) (pair : Nat) (body : Episode → State) : Host.Outcome State Fault Refusal :=
  match s.episode? pair with
  | some e => .next (if e.core.isSome && e.runnable then body e else s)
  | none => .next s

/-- An instruction of the episode retires with these registers; it counts toward the budget (R366). -/
def State.sorgRetire (s : State) (pair : Nat) (f : Episode → Episode) : State :=
  (s.unrefuse (.episode pair)).modEpisode pair fun e => { f e with ibud := e.ibud.map (· - 1) }

/-- The ecall returns with registers a0 and a1 as `f` leaves them. -/
def State.ecallDone (s : State) (pair : Nat) (f : Episode → Episode) : State := s.sorgRetire pair fun e => (f e).after 4

def State.result (s : State) (pair : Nat) (a0 : BitVec 64) : State := s.ecallDone pair (·.setX 10 a0)

/-- A call on a buffer that must lie wholly within the window, where `ok` holds of its other arguments. -/
def State.withBuffer (s : State) (e : Episode) (kind : Access) (va n : Nat) (ok : Bool) (k : State → State) : State :=
  match s.bufferOk e kind (userPieces (n / 4096 + 2) va n) with
  | (s, .waits) => s
  | (s, .bad) => s.result e.pair (BitVec.ofInt 64 (-1))
  | (s, .ok ()) => if ok then k s else s.result e.pair (BitVec.ofInt 64 (-1))

def execEpObsPost (pair : Nat) (payload len status : BitVec 64) (s : State) : Host.Outcome State Fault Refusal :=
  s.ecall pair fun e =>
    let n := len.toNat
    s.withBuffer e .load payload.toNat n (decide (n ≤ 4096) && n % 4 == 0 && decide (status.toNat ≤ 1)) fun s =>
      if (s.pair pair).st != .obsWait then s.result pair (BitVec.ofInt 64 (-2))
      else
        match s.userAccess e .load payload.toNat n with
        | (s, .waits) => s
        | (s, .bad) => s.envFault pair
        | (s, .ok keys) =>
          let bs := s.readKeys keys
          let s := s.result pair 0
          if status = 1 then s.endEpisode pair 1 (some bs) else s.postObs pair none bs

def execEpActWait (pair : Nat) (buf cap : BitVec 64) (s : State) : Host.Outcome State Fault Refusal :=
  s.ecall pair fun e =>
    s.withBuffer e .store buf.toNat cap.toNat true fun s =>
      let s := ((s.ecallDone pair id).leaveCore pair).modEpisode pair fun e =>
        { e with waiting := some (buf.toNat, cap.toNat) }
      (s.tryActWait pair).assignCores (dieOfPair pair)

def execEpReward (pair : Nat) (v : BitVec 64) (s : State) : Host.Outcome State Fault Refusal :=
  s.ecall pair fun e =>
    if e.reward then s.ecallDone pair fun e => { e.setX 10 0 with value := v } else s.result pair (BitVec.ofInt 64 (-4))

/-- A result that the spec does not state (log 22). -/
def State.freeResult (s : State) : State × BitVec 64 :=
  ({ s with freeCtr := s.freeCtr + 1 }, Config.freeResult s.freeCtr)

def State.orFree (s : State) (v : Option Nat) : State × BitVec 64 :=
  match v with
  | some n => (s, BitVec.ofNat 64 n)
  | none => s.freeResult

def execEpBudget (pair : Nat) (s : State) : Host.Outcome State Fault Refusal :=
  s.ecall pair fun e =>
    let (s, a0) := s.orFree e.tbud
    let (s, a1) := s.orFree (e.ibud.map (· / 1024))
    s.ecallDone pair fun e => (e.setX 10 a0).setX 11 a1

def execEpLogver (pair : Nat) (s : State) : Host.Outcome State Fault Refusal :=
  s.ecall pair fun e =>
    let (s, a0) := s.orFree e.lastPver
    s.result pair a0

def execEpisodeFault (pair : Nat) (s : State) : Host.Outcome State Fault Refusal := s.ecall pair fun _ => s.envFault pair

/-! ## Sorghum instructions (R359 to R361) -/

/-- The state that an action leaves; each of them answers a next state. -/
def nextOr (o : Host.Outcome State Fault Refusal) (s : State) : State :=
  match o with
  | .next t => t
  | _ => s

/-- The supervisor serves an ecall by the function number in a7. -/
def State.superCall (s : State) (e : Episode) : State :=
  match (e.x 17).toNat with
  | 0 => nextOr (execEpObsPost e.pair (e.x 10) (e.x 11) (e.x 12) s) s
  | 1 => nextOr (execEpActWait e.pair (e.x 10) (e.x 11) s) s
  | 2 => nextOr (execEpReward e.pair (e.f 10) s) s
  | 3 => nextOr (execEpBudget e.pair s) s
  | 4 => nextOr (execEpLogver e.pair s) s
  | _ => nextOr (execEpisodeFault e.pair s) s

/-- An access of a user: made, or an access fault, or later. A misaligned load or store that the core does not complete
faults; whether it completes one is free (log 60). -/
def State.sorgAccess (s : State) (e : Episode) (kind : Access) (atomic : Bool) (va n : Nat)
    (k : State → List (Nat × Nat) → State) : State :=
  let (s, completes) := if va % n = 0 then (s, true) else if atomic then (s, false) else s.flip
  if completes then
    match s.userAccess e kind va n with
    | (s, .waits) => s
    | (s, .bad) => s.envFault e.pair
    | (s, .ok keys) => k s keys
  else s.envFault e.pair

/-- The effect of an instruction of `len` bytes: every access is strong at device scope and performed at the home slice, in
program order and with nothing of the core's own in between, so that FENCE and the aq and rl bits ask for nothing more
(R361); FENCE.I orders fetches, which read the home bytes. -/
def State.sorgExec (s : State) (e : Episode) (w len : Nat) : State :=
  let die := dieOfPair e.pair
  let retire := fun (s : State) (f : Episode → Episode) => s.sorgRetire e.pair fun e => (f e).after len
  match e.rvStep w len with
  | .done t => s.sorgRetire e.pair fun _ => t
  | .load va n dest => s.sorgAccess e .load false va n fun s keys => retire s fun e => e.loaded dest (s.readKeys keys)
  | .store va n data =>
    s.sorgAccess e .store false va n fun s keys => retire (s.writeKeys die keys (bytesOfNat n data)) id
  | .amo f5 va n src rd =>
    s.sorgAccess e .store true va n fun s keys =>
      let bs := s.readKeys keys
      retire (s.writeKeys die keys (bytesOfNat n (rvAmo f5 n (natOfBytes bs) src))) fun e => e.loaded (.signed rd) bs
  | .loadReserved va n rd =>
    s.sorgAccess e .load true va n fun s keys =>
      let bs := s.readKeys keys
      retire s fun e => { e.loaded (.signed rd) bs with resv := keys.head?.map fun k => (k.1, bs) }
  | .storeCond va n src rd =>
    s.sorgAccess e .store true va n fun s keys =>
      if e.resv == keys.head?.map fun k => (k.1, s.readKeys keys) then
        retire (s.writeKeys die keys (bytesOfNat n src)) fun e => { e.setX rd 0 with resv := none }
      else retire s fun e => { e.setX rd 1 with resv := none }
  | .fence => retire s id
  | .ecall => s.superCall e
  | .illegal => s.envFault e.pair

/-- SORGHUM_INSTRUCTION: a core fetches, in two halves, and runs one instruction of the episode of a pair. -/
def execSorghumInstruction (pair core : Nat) (s : State) : Host.Outcome State Fault Refusal :=
  s.ecall pair fun e =>
    if e.core ≠ some core then s
    else
      match s.userAccess e .fetch e.pc.toNat 2 with
      | (s, .waits) => s
      | (s, .bad) => s.envFault pair
      | (s, .ok keys) =>
        let h := natOfBytes (s.readKeys keys)
        if h % 4 ≠ 3 then s.sorgExec e (expandC h) 2
        else
          match s.userAccess e .fetch (e.pc + 2).toNat 2 with
          | (s, .waits) => s
          | (s, .bad) => s.envFault pair
          | (s, .ok more) => s.sorgExec e (h + 2 ^ 16 * natOfBytes (s.readKeys more)) 4

/-- A reservation whose bytes have changed is lost; this is seen at the beginning of every clock, and no two instructions
of a core fall in one clock (log 60). -/
def State.checkReservations (s : State) : State :=
  { s with episodes := s.episodes.map fun e =>
      match e.resv with
      | some (key, bs) => if s.homeBytes key bs.length == bs then e else { e with resv := none }
      | none => e }

end Sys2Proof.Machine
end

