-- ==== Sys2Proof/Machine/Frac.lean ====
section
/-!
DEFINITION. Exact fractions, for the raster front end, the texture unit and the ray units (spec/27), and their one
rounding to FP32.
-/

namespace Sys2Proof.Machine

/-- n / d, where d is not zero. -/
structure Frac where
  n : Int
  d : Nat
  deriving DecidableEq, Repr

def Frac.ofInt (n : Int) : Frac := ⟨n, 1⟩
def Frac.add (a b : Frac) : Frac := ⟨a.n * b.d + b.n * a.d, a.d * b.d⟩
def Frac.neg (a : Frac) : Frac := ⟨-a.n, a.d⟩
def Frac.sub (a b : Frac) : Frac := a.add b.neg
def Frac.mul (a b : Frac) : Frac := ⟨a.n * b.n, a.d * b.d⟩

/-- a / b for b not zero. -/
def Frac.div (a b : Frac) : Frac := if b.n < 0 then ⟨-(a.n * b.d), a.d * b.n.natAbs⟩ else ⟨a.n * b.d, a.d * b.n.natAbs⟩

def Frac.le (a b : Frac) : Bool := decide (a.n * b.d ≤ b.n * a.d)
def Frac.lt (a b : Frac) : Bool := decide (a.n * b.d < b.n * a.d)
def Frac.isZero (a : Frac) : Bool := a.n == 0
def Frac.floor (a : Frac) : Int := a.n / a.d

/-- The nearest integer, ties to even. -/
def Frac.round (a : Frac) : Int :=
  let q := a.floor
  let r := a.n - q * a.d
  if 2 * r > a.d || (2 * r == a.d && q % 2 != 0) then q + 1 else q

def Frac.ofDy (x : Dy) : Frac :=
  let m : Int := if x.neg then -(x.m : Int) else x.m
  if 0 ≤ x.e then ⟨m * pow2 x.e.toNat, 1⟩ else ⟨m, pow2 (-x.e).toNat⟩

/-- A value cut to 200 significant bits and more, with a sticky last bit: it rounds as the fraction does (log 14). -/
def Frac.toVal (a : Frac) : FVal :=
  let k := 400 + Nat.log2 a.d
  let m := a.n.natAbs * pow2 k
  let q := m / a.d
  .num ⟨decide (a.n < 0), if q * a.d = m || q % 2 = 1 then q else q + 1, -(k : Int)⟩

/-- One rounding to FP32 under RNE. -/
def Frac.to32 (a : Frac) : Nat := (fp32.finish 0 false a.toVal).1

/-- The value of an FP32 word, where it is finite. -/
def finite32 (bits : Nat) : Option Frac :=
  match fp32.decode bits with
  | .num d => some (Frac.ofDy d)
  | _ => none

/-- All of a list, or nothing. -/
def allSome {α : Type} : List (Option α) → Option (List α)
  | [] => some []
  | some a :: l => (allSome l).map (a :: ·)
  | none :: _ => none

end Sys2Proof.Machine
end

