-- ==== Sys2Proof/Machine/Texture.lean ====
section
/-!
DEFINITION. Texture and sampler descriptors, TEX and TFETCH (spec/27 R384 to R387).
-/

namespace Sys2Proof.Machine

/-! ## Descriptors (R384) -/

structure TexDesc where
  base   : Nat
  width  : Nat
  height : Nat
  levels : Nat
  depth  : Nat
  fmt    : Nat
  deriving DecidableEq, Repr

/-- A texture descriptor, and that nothing the bytes decide makes it bad. -/
def texDesc (bs : List Byte) : TexDesc × Bool :=
  let a := fieldAt bs 0x0C 4
  let d : TexDesc := {
    base := fieldAt bs 0 8, width := fieldAt bs 8 2 + 1, height := fieldAt bs 10 2 + 1, levels := bitsOf a 16 4 + 1
    depth := bitsOf a 0 16 + 1, fmt := bitsOf (fieldAt bs 0x10 4) 0 4 }
  (d, bitsOf a 20 12 == 0 && bitsOf (fieldAt bs 0x10 4) 4 28 == 0 && fieldAt bs 0x14 44 == 0 && decide (d.fmt ≤ 9))

structure Sampler where
  border : Nat
  au     : Nat
  av     : Nat
  aw     : Nat
  mip    : Bool
  lin    : Bool
  bias   : Nat
  minLod : Nat
  maxLod : Nat
  deriving DecidableEq, Repr

def samplerDesc (bs : List Byte) : Sampler × Bool :=
  let a := fieldAt bs 0 4
  ({ border := bitsOf a 8 2, au := bitsOf a 6 2, av := bitsOf a 4 2, aw := bitsOf a 2 2, mip := bitsOf a 1 1 == 1
     lin := bitsOf a 0 1 == 1, bias := fieldAt bs 4 4, minLod := fieldAt bs 8 4, maxLod := fieldAt bs 12 4 },
    bitsOf a 10 22 == 0 && fieldAt bs 16 16 == 0)

/-- Bytes of a texel. -/
def texelBytes (fmt : Nat) : Nat :=
  match fmt with
  | 0 => 1
  | 1 | 4 => 2
  | 2 | 3 | 5 | 7 | 9 => 4
  | 6 => 8
  | _ => 16

def TexDesc.widthAt (d : TexDesc) (l : Nat) : Nat := max 1 (d.width / 2 ^ l)
def TexDesc.heightAt (d : TexDesc) (l : Nat) : Nat := max 1 (d.height / 2 ^ l)

/-- Bytes of a row: rounded up to 256. -/
def rowBytesOf (width texel : Nat) : Nat := (width * texel + 255) / 256 * 256

def TexDesc.sliceBytes (d : TexDesc) (l : Nat) : Nat := rowBytesOf (d.widthAt l) (texelBytes d.fmt) * d.heightAt l

/-- Where a level starts, counted from BASE. -/
def TexDesc.levelAt (d : TexDesc) : Nat → Nat
  | 0 => 0
  | l + 1 => d.levelAt l + d.sliceBytes l * d.depth

/-- The address of a texel. -/
def TexDesc.texelAt (d : TexDesc) (l x y z : Nat) : Nat :=
  (d.base + d.levelAt l + z * d.sliceBytes l + y * rowBytesOf (d.widthAt l) (texelBytes d.fmt) + x * texelBytes d.fmt) % 2 ^ 64

/-! ## Conversion to FP32 (R386) -/

def unorm8 (n : Nat) : Nat := (Frac.mk n 255).to32

/-- x^(12/5) for 0 < x < 1: two to the power 2.4 · log2 x. -/
def pow24 (x : Frac) : FVal :=
  let k := Nat.log2 x.d + 1 - Nat.log2 x.n.natAbs
  let scaled := x.n.natAbs * pow2 k
  let k := if scaled / x.d ≥ 2 then k - 1 else k
  let m := x.n.natAbs * pow2 k * pow2 fixP / x.d
  let log2 : Int := (lnFix m * log2eFix / pow2 fixP : Nat) - (k : Int) * (pow2 fixP : Nat)
  exp2Fix (log2 * 12 / 5)

/-- sRGB to linear. -/
def srgb8 (n : Nat) : Nat :=
  let c : Frac := ⟨n, 255⟩
  if c.le ⟨4045, 100000⟩ then (c.div ⟨1292, 100⟩).to32
  else if n = 255 then 0x3F800000
  else (fp32.finish 0 false (pow24 ((c.add ⟨55, 1000⟩).div ⟨1055, 1000⟩))).1

/-- Channels missing from a format: 0, and 1 for alpha. -/
def fillChannels (l : List Nat) : List Nat := l ++ ([0, 0, 0, 0x3F800000].drop l.length)

/-- A texel's four channels. -/
def texelOf (fmt : Nat) (bs : List Byte) : List Nat :=
  let u := fun i => unorm8 (fieldAt bs i 1)
  let h := fun i => (widen32 2 (fieldAt bs (2 * i) 2)).1
  match fmt with
  | 0 => fillChannels [u 0]
  | 1 => fillChannels [u 0, u 1]
  | 2 => [u 0, u 1, u 2, u 3]
  | 3 => [srgb8 (fieldAt bs 0 1), srgb8 (fieldAt bs 1 1), srgb8 (fieldAt bs 2 1), u 3]
  | 4 => fillChannels [h 0]
  | 5 => fillChannels [h 0, h 1]
  | 6 => [h 0, h 1, h 2, h 3]
  | 7 => fillChannels [fieldAt bs 0 4]
  | 8 => (List.range 4).map fun i => fieldAt bs (4 * i) 4
  | _ => [fieldAt bs 0 4, 0, 0, 0]

/-- Words that the spec does not state (log 27). -/
def State.freeWords (s : State) (n : Nat) : State × List Nat :=
  ({ s with freeCtr := s.freeCtr + n }, (List.range n).map fun i => (Config.freeResult (s.freeCtr + i)).toNat % 2 ^ 32)

/-- The border's colour; of BORDER 3 the spec states none (log 27). -/
def State.borderColour (s : State) (b : Nat) : State × List Nat :=
  let one := 0x3F800000
  match b with
  | 0 => (s, [0, 0, 0, 0])
  | 1 => (s, [0, 0, 0, one])
  | 2 => (s, [one, one, one, one])
  | _ => s.freeWords 4

/-- An index outside a level of n texels (R384): none is the border. -/
def addressMode (mode n : Nat) (i : Int) : Option Nat :=
  match mode with
  | 0 => some (i % n).toNat
  | 1 => some (min (max i 0) (n - 1 : Nat)).toNat
  | 2 =>
    let m := (i % (2 * n : Nat)).toNat
    some (if m < n then m else 2 * n - 1 - m)
  | _ => if 0 ≤ i && i < n then some i.toNat else none

/-! ## Reads at issue (R387) -/

/-- Why TEX does not go on: a precise fault, or a translation being walked. -/
inductive TexStop where
  | trap (t : Trap)
  | wait (s : State)
  deriving DecidableEq, Repr

/-- Read bytes for a lane as a weak load. -/
def State.texBytes (s : State) (v : View) (lane va n : Nat) : Except TexStop (State × List Byte) :=
  (pieces va n).foldlM (fun (acc : State × List Byte) p =>
    if !canonical p.1 then .error (.trap ⟨fPAGE, pageInfo 1 p.1, lane, 0⟩)
    else
      match acc.1.xlate v.core v.ctx p.1 .load with
      | .miss => .error (.wait (acc.1.startWalk v p.1 .load lane))
      | .fault code info => .error (.trap ⟨code, info, lane, 0⟩)
      | .ok key =>
        if acc.1.consumesPoison v.core ⟨false, key⟩ p.2 then .error (.trap ⟨fECC, BitVec.ofNat 32 p.1, lane, 0⟩)
        else
          let (s, bs) := acc.1.loadWeak v.core key p.2 true
          .ok (s, acc.2 ++ bs)) (s, [])

/-- Read a descriptor: one that cannot be read, or is not aligned to its size, is bad. -/
def State.texDescriptor (s : State) (v : View) (va n : Nat) : Except TexStop (State × Option (List Byte)) :=
  if va % n ≠ 0 then .ok (s, none)
  else
    match s.texBytes v 0 va n with
    | .ok (s, bs) => .ok (s, some bs)
    | .error (.trap _) => .ok (s, none)
    | .error (.wait s) => .error (.wait s)

/-- One texel, or the border. -/
def State.texel (s : State) (v : View) (lane : Nat) (d : TexDesc) (m : Sampler) (l : Nat) (x y : Int) (z : Option Nat) :
    Except TexStop (State × List Nat) :=
  match addressMode m.au (d.widthAt l) x, addressMode m.av (d.heightAt l) y, z with
  | some i, some j, some k => (s.texBytes v lane (d.texelAt l i j k) (texelBytes d.fmt)).map fun (s, bs) => (s, texelOf d.fmt bs)
  | _, _, _ => .ok (s.borderColour m.border)

/-- a · (1 − f) + b · f with f in 256ths, each step rounded. -/
def lerp8 (a b f : Nat) : Nat :=
  let scale := fun (x f : Nat) => (fp32.finish 0 false (fMul (fp32.decode x) (.num ⟨false, f, -8⟩)).1).1
  add32 (scale a (256 - f)) (scale b f)

def lerpAll (a b : List Nat) (f : Nat) : List Nat := (a.zip b).map fun (x, y) => lerp8 x y f

/-! ## Sampling (R386) -/

/-- Position along one axis of n texels: the texel and the fraction in 256ths; none when u is not a number in range. -/
def texPos (u n : Nat) (lin : Bool) : Option (Int × Nat) :=
  (finite32 u).bind fun c =>
    let exact := c.mul (.ofInt n)
    if lin then
      (finite32 (exact.sub ⟨1, 2⟩).to32).map fun x => (x.floor, ((x.sub (.ofInt x.floor)).mul (.ofInt 256)).floor.toNat)
    else some (exact.floor, 0)

/-- One level's sample at a position. -/
def State.sampleLevel (s : State) (v : View) (lane : Nat) (d : TexDesc) (m : Sampler) (l : Nat) (px py : Int × Nat)
    (z : Option Nat) : Except TexStop (State × List Nat) := do
  let (x, fx) := px
  let (y, fy) := py
  if !m.lin then s.texel v lane d m l x y z
  else
    let (s, t00) ← s.texel v lane d m l x y z
    let (s, t10) ← s.texel v lane d m l (x + 1) y z
    let (s, t01) ← s.texel v lane d m l x (y + 1) z
    let (s, t11) ← s.texel v lane d m l (x + 1) (y + 1) z
    return (s, lerpAll (lerpAll t00 t10 fx) (lerpAll t01 t11 fx) fy)

/-- Squares of a quad's extent along one direction, in texels. -/
def extent2 (a b : Nat × Nat) (w h : Nat) : Option Dy :=
  match fp32.decode a.1, fp32.decode a.2, fp32.decode b.1, fp32.decode b.2 with
  | .num u0, .num v0, .num u1, .num v1 =>
    let neg := fun (d : Dy) => { d with neg := !d.neg }
    let du := (u1.add (neg u0)).mul (Dy.ofInt w 0)
    let dv := (v1.add (neg v0)).mul (Dy.ofInt h 0)
    some ((du.mul du).add (dv.mul dv))
  | _, _, _, _ => none

/-- log2 ρ of a slice from the coordinates of its lanes 0 to 2; none when they are not numbers. -/
def logRho (q : List (Nat × Nat)) (w h : Nat) : Option FVal :=
  match extent2 (q.getD 0 (0, 0)) (q.getD 1 (0, 0)) w h, extent2 (q.getD 0 (0, 0)) (q.getD 2 (0, 0)) w h with
  | some a, some b =>
    let m := if atLeast (a.cmp b) then a else b
    if m.m = 0 then some (.inf true)
    else
      match log2Val { m with neg := false } with
      | .num d => some (.num { d with e := d.e - 1 })
      | x => some x
  | _, _ => none

def fmaxVal (a b : FVal) : FVal := if fCmp a b == some .lt then b else a
def fminVal (a b : FVal) : FVal := if fCmp a b == some .gt then b else a

/-- λ after its biases and the clamp; none when it is not a number. -/
def lodOf (base : FVal) (biases : List FVal) (m : Sampler) : Option FVal :=
  let lo := fp32.decode m.minLod
  let hi := fp32.decode m.maxLod
  let x := biases.foldl (fun a b => (fAdd 0 a b).1) base
  if x.isNan || lo.isNan || hi.isNan then none else some (fminVal (fmaxVal x lo) hi)

/-- The levels that λ selects with the fraction between them, within the texture's levels (log 27). -/
def levelsOf (lam : FVal) (m : Sampler) (levels : Nat) : Nat × Nat × Nat :=
  let last := levels - 1
  let clampLevel := fun (i : Int) => (min (max i 0) last).toNat
  match lam with
  | .num d =>
    let f := Frac.ofDy d
    if m.mip then
      let i := f.floor
      (clampLevel i, clampLevel (i + 1), ((f.sub (.ofInt i)).mul (.ofInt 256)).floor.toNat)
    else (clampLevel f.round, clampLevel f.round, 0)
  | .inf neg => if neg then (0, 0, 0) else (last, last, 0)
  | .nan _ => (0, 0, 0)

/-- The layer or slice: rounded and clamped for an array; for 3D the nearest slice under AW. The outer option says that
the coordinate is a number. -/
def layerOf (kind c : Nat) (d : TexDesc) (m : Sampler) : Option (Option Nat) :=
  match kind with
  | 0 => some (some 0)
  | 1 => (finite32 c).map fun x => addressMode 1 d.depth x.round
  | _ => (finite32 c).map fun x => addressMode m.aw d.depth (x.mul (.ofInt d.depth)).floor

/-- A lane's result; none where the spec states no value. -/
def State.sample (s : State) (v : View) (lane : Nat) (d : TexDesc) (m : Sampler) (kind : Nat) (u w c : Nat) (lam : Option FVal) :
    Except TexStop (State × Option (List Nat)) :=
  match lam, layerOf kind c d m with
  | some lam, some z =>
    let (l0, l1, f) := levelsOf lam m d.levels
    let pos := fun l => (texPos u (d.widthAt l) m.lin, texPos w (d.heightAt l) m.lin)
    match pos l0, pos l1 with
    | (some x0, some y0), (some x1, some y1) => do
      let (s, r0) ← s.sampleLevel v lane d m l0 x0 y0 z
      if m.mip then
        let (s, r1) ← s.sampleLevel v lane d m l1 x1 y1 z
        return (s, some (lerpAll r0 r1 f))
      else return (s, some r0)
    | _, _ => .ok (s, none)
  | _, _ => .ok (s, none)

/-! ## The instructions (R385, R387) -/

/-- A texture read has its values: it is in flight from now on. -/
def State.startTex (s : State) (v : View) (vd : Nat) (outs : List (Nat × List Nat)) (bad : Option Word) : State :=
  let op : TexOp := {
    id := s.nextId, x := v.sel, mask := v.split.mask, bad
    vwrites := outs.flatMap fun (l, ws) => (numbered vd ws).map fun (r, w) => (r, l, BitVec.ofNat 32 w) }
  let w := (v.warp.addLd 1).addHold ⟨op.id, (List.range 4).map (vd + ·), [], false, 2⟩
  { s with nextId := s.nextId + 1, texOps := s.texOps ++ [op] }.retire v w 0 8

/-- What a bad descriptor gives every lane. -/
def badTexel (fmt : Nat) : List Nat := List.replicate 4 (if fmt = 9 then 0 else fp32.nanBits)

/-- Lanes in turn, each with its own result. -/
def State.texLanes (s : State) (ls : List Nat) (f : State → Nat → Except TexStop (State × Option (List Nat))) :
    Except TexStop (State × List (Nat × List Nat)) :=
  ls.foldlM (fun (acc : State × List (Nat × List Nat)) l =>
    (f acc.1 l).map fun (s, r) =>
      match r with
      | some ws => (s, acc.2 ++ [(l, ws)])
      | none => let (s, ws) := s.freeWords 4; (s, acc.2 ++ [(l, ws)])) (s, [])

/-- The shape of TEX and TFETCH: room for the load, then the reads, of which the first that stops decides. -/
def State.texOp (s : State) (v : View) (f : LR) (body : List Nat → Except TexStop State) : Except Trap State :=
  let ls := v.part f.g f.gn
  if ls.isEmpty then .ok (s.skip v 8)
  else if v.warp.ld ≥ 1023 then .ok (s.stall v 2)
  else
    match body ls with
    | .ok s => .ok s
    | .error (.trap t) => .error t
    | .error (.wait s) => .ok s

def Team.isPixel (t : Team) : Bool := match t.kind with | .pixel _ _ _ _ => true | _ => false

/-- TEX; its ILLOP for an implicit LOD comes before ILLREG, and whatever the guard (spec/09 R151). -/
def execTex (f : LR) (s : State) : Host.Outcome State Fault Refusal :=
  s.issue fun v =>
    let mode := (f.s.extractLsb' 2 2).toNat
    let kind := (f.s.extractLsb' 0 2).toNat
    let tva := (v.s64 (LR.su f).toNat).toNat
    let sva := (v.s64 ((LR.su f).toNat + 2)).toNat
    if mode ≠ 2 && !v.team.isPixel then .error ⟨fILLOP, Instr.word0 (.tex f), 0, 0⟩
    else if !v.operandsOk (.tex f) then .error ⟨fILLREG, Instr.word0 (.tex f), 0, 0⟩
    else
      s.texOp v f fun ls => do
        let s := s.settleAtoms v.team.uid v.warp.num
        let (s, tb) ← s.texDescriptor v tva 64
        let (s, sb) ← s.texDescriptor v sva 32
        let (d, dOk) := texDesc (tb.getD [])
        let (m, mOk) := samplerDesc (sb.getD [])
        let bad := if tb.isNone || !dOk || d.fmt = 9 then some tva else if sb.isNone || !mOk then some sva else none
        match bad with
        | some a => return s.startTex v f.vd.toNat (ls.map fun l => (l, badTexel d.fmt)) (some (BitVec.ofNat 32 a))
        | none =>
          let r := fun (i l : Nat) => (v.warp.v (f.va.toNat + i) l).toNat
          let lam := fun (l : Nat) =>
            let quad := (List.range 3).map fun j => (r 0 (l / 4 * 4 + j), r 1 (l / 4 * 4 + j))
            let vc := fp32.decode (v.vec f.vc l).toNat
            if mode = 2 then lodOf vc [] m
            else
              (logRho quad d.width d.height).bind fun x =>
                lodOf x (fp32.decode m.bias :: (if mode = 1 then [vc] else [])) m
          let (s, outs) ← s.texLanes ls fun s l => s.sample v l d m kind (r 0 l) (r 1 l) (r 2 l) (lam l)
          return s.startTex v f.vd.toNat outs none

def execTfetch (f : LR) (s : State) :=
  s.run (.tfetch f) fun v =>
    let kind := (f.s.extractLsb' 0 2).toNat
    let tva := (v.s64 (LR.su f).toNat).toNat
    s.texOp v f fun ls => do
      let s := s.settleAtoms v.team.uid v.warp.num
      let (s, tb) ← s.texDescriptor v tva 64
      let (d, dOk) := texDesc (tb.getD [])
      if tb.isNone || !dOk then
        return s.startTex v f.vd.toNat (ls.map fun l => (l, badTexel d.fmt)) (some (BitVec.ofNat 32 tva))
      else
        let r := fun (i l : Nat) => (v.warp.v (f.va.toNat + i) l).toInt
        let (s, outs) ← s.texLanes ls fun s l =>
          let level := (v.vec f.vc l).toInt
          let z : Int := if kind = 0 then 0 else r 2 l
          let inside := fun (i : Int) (n : Nat) => decide (0 ≤ i) && decide (i < n)
          if inside level d.levels && inside (r 0 l) (d.widthAt level.toNat) && inside (r 1 l) (d.heightAt level.toNat) &&
              inside z d.depth then
            (s.texBytes v l (d.texelAt level.toNat (r 0 l).toNat (r 1 l).toNat z.toNat) (texelBytes d.fmt)).map
              fun (s, bs) => (s, some (texelOf d.fmt bs))
          else .ok (s, some [0, 0, 0, 0])
        return s.startTex v f.vd.toNat outs none

/-- The results arrive; a bad descriptor is then reported. -/
def execTextureComplete (id : Nat) (s : State) : Host.Outcome State Fault Refusal :=
  match s.texOps.find? (·.id == id) with
  | none => .next s
  | some m =>
    let s := { s with texOps := s.texOps.filter (·.id != id) }.modWarp m.x.team m.x.warp fun w =>
      ((m.vwrites.foldl (fun (w : Warp) (r, l, x) => w.setV r l x) w).addLd (-1)).dropHold id
    match m.bad with
    | some info => .next (s.deferLowest m.x m.mask fILLOP info (((m.vwrites.map (·.2.1)).min?).getD 0))
    | none => .next s

end Sys2Proof.Machine
end

