-- ==== Sys2Proof/Machine/Rays.lean ====
section
/-!
DEFINITION. The ray units: BVH nodes, traversal, RAYQ, RAYCONT and RAYGET (spec/27 R388 to R391).
-/

namespace Sys2Proof.Machine

/-! ## Distances -/

/-- A distance along a ray. -/
inductive Dist where
  | negInf
  | fin (f : Frac)
  | posInf
  deriving DecidableEq, Repr

def Dist.le : Dist → Dist → Bool
  | .negInf, _ => true
  | _, .posInf => true
  | .fin a, .fin b => a.le b
  | _, _ => false

def Dist.max (a b : Dist) : Dist := if a.le b then b else a
def Dist.min (a b : Dist) : Dist := if a.le b then a else b

/-- The distance that an FP32 word states; a NaN states none. -/
def distOf (w : Nat) : Option Dist :=
  match fp32.decode w with
  | .num d => some (.fin (Frac.ofDy d))
  | .inf n => some (if n then .negInf else .posInf)
  | .nan _ => none

/-! ## Nodes (R388) -/

abbrev Vec3 := Frac × Frac × Frac

def vec3At (bs : List Byte) (o : Nat) : Option Vec3 :=
  match finite32 (fieldAt bs o 4), finite32 (fieldAt bs (o + 4) 4), finite32 (fieldAt bs (o + 8) 4) with
  | some x, some y, some z => some (x, y, z)
  | _, _, _ => none

def Vec3.sub (a b : Vec3) : Vec3 := (a.1.sub b.1, a.2.1.sub b.2.1, a.2.2.sub b.2.2)
def Vec3.dot (a b : Vec3) : Frac := ((a.1.mul b.1).add (a.2.1.mul b.2.1)).add (a.2.2.mul b.2.2)
def Vec3.cross (a b : Vec3) : Vec3 :=
  ((a.2.1.mul b.2.2).sub (a.2.2.mul b.2.1), (a.2.2.mul b.1).sub (a.1.mul b.2.2), (a.1.mul b.2.1).sub (a.2.1.mul b.1))

def scale2 (n : Nat) (e : Int) : Frac := if 0 ≤ e then ⟨n * pow2 e.toNat, 1⟩ else ⟨n, pow2 (-e).toNat⟩

/-- A child of a box node: kind, triangles, address, and the low and high corners of its bounds. -/
structure Child where
  kind  : Nat
  count : Nat
  va    : Nat
  lo    : Vec3
  hi    : Vec3
  deriving DecidableEq, Repr

/-- The children of a box node at an address; none when the node is bad. -/
def boxChildren (bs : List Byte) (va : Nat) : Option (List Child) :=
  let zero := fieldAt bs 0x0F 1 == 0 && fieldAt bs 0x18 8 == 0 && fieldAt bs 0x70 16 == 0
  let kinds := (List.range 8).map fun k => fieldAt bs (0x10 + k) 1
  if va % 128 ≠ 0 || !zero || kinds.any fun b => b % 4 == 3 || decide (b / 32 ≠ 0) then none
  else
    match vec3At bs 0 with
    | none => some []
    | some (ox, oy, oz) =>
      let e := fun (a : Nat) => signedOf 8 (fieldAt bs (0x0C + a) 1)
      let corner := fun (k first up : Nat) =>
        let q := fun (a : Nat) => scale2 (fieldAt bs (0x20 + 6 * k + first + a) 1 + up) (e a)
        ((ox.add (q 0), oy.add (q 1), oz.add (q 2)) : Vec3)
      some ((List.range 8).filterMap fun k =>
        let b := kinds.getD k 0
        if b % 4 = 0 then none
        else
          let off := signedOf 32 (fieldAt bs (0x50 + 4 * k) 4) * 64
          some { kind := b % 4, count := b / 4 % 8 + 1, va := wrapNat 64 (va + off), lo := corner k 0 0, hi := corner k 3 1 })

/-! ## Tests (R389) -/

/-- The slab of one axis: none when the ray misses it. -/
def slab (lo hi o d : Frac) : Option (Dist × Dist) :=
  if d.isZero then (if lo.le o && o.le hi then some (.negInf, .posInf) else none)
  else
    let a := (lo.sub o).div d
    let b := (hi.sub o).div d
    some (if d.n > 0 then (.fin a, .fin b) else (.fin b, .fin a))

/-- Entry and exit distance of a box, when entry is at most exit. -/
def boxInterval (o d : Vec3) (lo hi : Vec3) : Option (Dist × Dist) :=
  match slab lo.1 hi.1 o.1 d.1, slab lo.2.1 hi.2.1 o.2.1 d.2.1, slab lo.2.2 hi.2.2 o.2.2 d.2.2 with
  | some x, some y, some z =>
    let entry := (x.1.max y.1).max z.1
    let exit := (x.2.min y.2).min z.2
    if entry.le exit then some (entry, exit) else none
  | _, _, _ => none

/-- The watertight triangle test: t, b1, b2 rounded once each, and whether the back faces the ray (log 26). -/
def hitTriangle (o d : Vec3) (bs : List Byte) : Option RayHit :=
  match vec3At bs 0, vec3At bs 12, vec3At bs 24 with
  | some v0, some v1, some v2 =>
    let a := Vec3.sub v0 o
    let b := Vec3.sub v1 o
    let c := Vec3.sub v2 o
    let e0 := Vec3.dot d (Vec3.cross b c)
    let e1 := Vec3.dot d (Vec3.cross c a)
    let e2 := Vec3.dot d (Vec3.cross a b)
    let det := (e0.add e1).add e2
    let es := [e0, e1, e2]
    if det.isZero || !(es.all (fun e => decide (0 ≤ e.n)) || es.all fun e => decide (e.n ≤ 0)) then none
    else
      let word := fun (x : Frac) => BitVec.ofNat 32 (x.div det).to32
      some { t := word (Vec3.dot a (Vec3.cross b c)), b1 := word e1, b2 := word e2
             prim := BitVec.ofNat 32 (fieldAt bs 0x24 4), back := decide (det.n > 0) == Config.backWhenAligned }
  | _, _, _ => none

/-! ## Traversal -/

/-- What is still to be visited. -/
inductive Visit where
  | box (va : Nat)
  | child (c : Child) (entry exit : Dist)
  | triangle (va : Nat)
  deriving DecidableEq, Repr

/-- How a traversal stopped. -/
inductive RayEnd where
  | hit
  | miss
  | candidate (h : RayHit)
  | bad
  | refused (code : Nat) (info : Word)
  /-- A page is missing: nothing but what the state holds has happened. -/
  | later
  /-- The visits of one step do not suffice. -/
  | more
  deriving DecidableEq, Repr

/-- A traversal under way: the closest accepted hit, t_cur, and the decisions not yet used. -/
structure Traversal where
  st   : State
  best : Option RayHit
  tCur : Dist
  left : List Bool
  deriving DecidableEq, Repr

/-- Read a node for a ray: a flush team's page fault discards its gang, a drain team's ray waits (spec/29 R400). -/
def State.rayRead (s : State) (r : Ray) (va n : Nat) : State × Except RayEnd (List Byte) :=
  let who := Requester.unit r.id
  let t? := s.team? r.x.team
  let inst := (t?.map (·.inst)).getD 0
  let g := t?.bind fun t => s.gang? t.gang
  let drain := (g.map (·.drain)).getD true
  match drain, s.xlateNow r.ctx va .load with
  | false, .notPresent level =>
    let (s, req) := s.requestPage r.ctx va level inst (s.coreId r.core) 4
      (.task ((g.map (·.task)).getD 0) inst (s.coreId r.core) va)
    (s.discardGang ((g.map (·.uid)).getD 0) (.held req), .error .later)
  | _, _ =>
    match s.unitXlate r.ctx va .load who inst (s.coreId r.core) with
    | (s, .waits) => (s, .error .later)
    | (s, .fault code info) => (s, .error (.refused code info))
    | (s, .ok key) =>
      if s.consumesPoison r.core ⟨false, key⟩ n then (s, .error (.refused fECC (BitVec.ofNat 32 va)))
      else
        let (s, bs) := s.loadWeak r.core key n true
        (s, .ok bs)

/-- The hit that stands once h is accepted: among equal distances the lower primitive is kept (R389). -/
def keptHit (best : Option RayHit) (h : RayHit) : RayHit :=
  match best with
  | some b => if fCmp (fp32.decode b.t.toNat) (fp32.decode h.t.toNat) == some .eq && decide (b.prim.toNat ≤ h.prim.toNat) then b else h
  | none => h

/-- A hit is accepted. -/
def Traversal.accept (x : Traversal) (h : RayHit) : Traversal :=
  { x with best := some (keptHit x.best h), tCur := (distOf h.t.toNat).getD x.tCur }

/-- t lies in [tmin, t_cur], and CULL does not drop the face. -/
def Ray.takes (r : Ray) (x : Traversal) (h : RayHit) : Bool :=
  match distOf (r.geom.getD 3 0).toNat, distOf h.t.toNat with
  | some tmin, some t => tmin.le t && t.le x.tCur && !(r.cull && h.back)
  | _, _ => false

/-- The interval of a child overlaps [tmin, t_cur]. -/
def Ray.enters (r : Ray) (x : Traversal) (entry exit : Dist) : Bool :=
  match distOf (r.geom.getD 3 0).toNat with
  | some tmin => entry.le x.tCur && tmin.le exit && tmin.le x.tCur
  | none => false

/-- Children of a box in the order of their visits. -/
def visitsOf (o d : Vec3) (cs : List Child) : List Visit :=
  let waiting := cs.filterMap fun c => (boxInterval o d c.lo c.hi).map fun i => (c, i.1, i.2)
  (sortBy (fun (a b : Child × Dist × Dist) => a.2.1.le b.2.1) waiting).map fun c => .child c.1 c.2.1 c.2.2

def traverse (r : Ray) (o d : Vec3) : Nat → Traversal → List Visit → Traversal × RayEnd
  | _, x, [] => (x, if x.best.isSome then .hit else .miss)
  | 0, x, _ :: _ => (x, .more)
  | fuel + 1, x, .child c entry exit :: rest =>
    if !r.enters x entry exit then traverse r o d fuel x rest
    else if c.kind = 1 then traverse r o d fuel x (.box c.va :: rest)
    else traverse r o d fuel x (((List.range c.count).map fun i => .triangle ((c.va + 64 * i) % 2 ^ 64)) ++ rest)
  | fuel + 1, x, .box va :: rest =>
    match x.st.rayRead r va 128 with
    | (s, .error e) => ({ x with st := s }, e)
    | (s, .ok bs) =>
      match boxChildren bs va with
      | none => ({ x with st := s }, .bad)
      | some cs => traverse r o d fuel { x with st := s } (visitsOf o d cs ++ rest)
  | fuel + 1, x, .triangle va :: rest =>
    match x.st.rayRead r va 64 with
    | (s, .error e) => ({ x with st := s }, e)
    | (s, .ok bs) =>
      let x := { x with st := s }
      if fieldAt bs 0x28 4 / 2 ≠ 0 || fieldAt bs 0x2C 20 ≠ 0 then (x, .bad)
      else
        match hitTriangle o d bs with
        | none => traverse r o d fuel x rest
        | some h =>
          if !r.takes x h then traverse r o d fuel x rest
          else
            let go := fun (x : Traversal) => if r.first then (x, RayEnd.hit) else traverse r o d fuel x rest
            if r.opq || fieldAt bs 0x28 4 % 2 = 1 then go (x.accept h)
            else
              match x.left with
              | [] => (x, .candidate h)
              | true :: ds => go ({ x with left := ds }.accept h)
              | false :: ds => traverse r o d fuel { x with left := ds } rest

/-- The traversal of a ray from its root, with the decisions made so far. A ray whose origin or direction is no number
meets nothing (log 62). -/
def State.runRay (s : State) (r : Ray) : Traversal × RayEnd :=
  let v := fun (i : Nat) => finite32 (r.geom.getD i 0).toNat
  let x : Traversal := { st := s, best := none, tCur := .negInf, left := r.decided }
  match v 0, v 1, v 2, v 4, v 5, v 6, distOf (r.geom.getD 7 0).toNat with
  | some ox, some oy, some oz, some dx, some dy, some dz, some tmax =>
    traverse r (ox, oy, oz) (dx, dy, dz) r.visits { x with tCur := tmax } [.box r.root]
  | _, _, _, _, _, _, _ => (x, .miss)

/-! ## The instructions (R390, R391) -/

/-- A ray of the operation still runs. -/
def State.rayOpRuns (s : State) (o : RayOp) : Bool := s.rays.any fun r => r.st == .running && o.rays.contains r.id

/-- RAYQ and RAYCONT complete, lowering LD, when every ray they name has stopped. -/
def State.endRayOps (s : State) : State :=
  (s.rayOps.filter fun o => !s.rayOpRuns o).foldl (fun s (o : RayOp) =>
    { s with rayOps := s.rayOps.filter (·.id != o.id) }.modWarp o.x.team o.x.warp fun w => w.addLd (-1)) s

/-- A RAYQ or RAYCONT that names these rays has issued: it counts in LD unless all of them have stopped. -/
def State.startRayOp (s : State) (v : View) (w : Warp) (op : Nat) (rays : List Nat) : State :=
  let o : RayOp := ⟨op, v.sel, rays⟩
  if s.rayOpRuns o then { s with rayOps := s.rayOps ++ [o] }.retire v (w.addLd 1) 0 8 else s.retire v w 0 8

def execRayq (f : LR) (s : State) :=
  s.run (.rayq f) fun v =>
    let ls := v.part f.g f.gn
    let root := (v.s64 (LR.su f).toNat).toNat
    if ls.isEmpty then .ok (s.skip v 8)
    else if root % 128 ≠ 0 then .error ⟨fMISALIGN, v.s (LR.su f).toNat, ls.headD 0, 0⟩
    else if v.warp.ld ≥ 1023 || s.rays.countP (fun r => r.core == v.core && !r.ended) + ls.length > 256 then .ok (s.stall v 2)
    else
      let s := s.settleAtoms v.team.uid v.warp.num
      let op := s.nextId
      let rays : List (Nat × Ray) := ((List.range ls.length).zip ls).map fun (i, l) =>
        let id := op + 1 + i
        (l, { id, core := v.core, x := v.sel, mask := v.split.mask, token := BitVec.ofNat 32 id ^^^ Config.tokenMask, ctx := v.ctx
              geom := (List.range 8).map fun j => v.warp.v (f.va.toNat + j) l
              root, first := f.s.getLsbD 0, cull := f.s.getLsbD 1, opq := f.s.getLsbD 2, lane := l : Ray })
      let w := rays.foldl (fun w (x : Nat × Ray) => w.setV f.vd.toNat x.1 x.2.token) v.warp
      let started : List Ray := rays.map fun (x : Nat × Ray) => x.2
      .ok ({ s with nextId := op + 1 + ls.length, rays := s.rays ++ started }.startRayOp v w op (started.map Ray.id))

/-- The ray of a token of this team. -/
def State.ray? (s : State) (team : Nat) (token : Word) : Option Ray := s.rays.find? fun r => r.token == token && r.x.team == team

/-- Accept or reject the candidate of a ray; traversal resumes unless END ends it. -/
def Ray.decide' (r : Ray) (yes finish : Bool) : Ray :=
  if yes && finish then { r with st := .hit, best := r.cand.map (keptHit r.best), cand := none, ended := true }
  else { r with st := .running, cand := none, decided := r.decided ++ [yes] }

def execRaycont (f : LR) (s : State) :=
  s.run (.raycont f) fun v =>
    let ls := v.part f.g f.gn
    if ls.isEmpty then .ok (s.skip v 8)
    else if v.warp.ld ≥ 1023 then .ok (s.stall v 2)
    else
      let op := s.nextId
      let yes := fun l => v.warp.p (f.vc.extractLsb' 0 3).toNat l
      let named := ls.filterMap fun l => (s.ray? v.team.uid (v.vec f.va l)).map (·.id)
      let s := ls.foldl (fun (s : State) l =>
        match s.ray? v.team.uid (v.vec f.va l) with
        | some r =>
          if r.st == .candidate then
            { s with rays := modFirst (·.id == r.id) (·.decide' (yes l) (f.s.getLsbD 0)) s.rays }
          else s
        | none => s) { s with nextId := op + 1 }
      .ok (s.startRayOp v v.warp op named)

def RaySt.code : RaySt → Nat
  | .hit => 2
  | .candidate => 3
  | .error => 4
  | .miss | .running => 1

/-- The record of a ray: its hit or candidate; for MISS and ERROR four words that the spec does not state (log 27). -/
def State.rayRecord (s : State) (r? : Option Ray) : State × List Word :=
  let st := (r?.map (·.st)).getD .miss
  let h? := r?.bind fun r => match r.st with | .hit => r.best | .candidate => r.cand | _ => none
  let last : Word := BitVec.ofNat 32 (st.code + if (h?.map (·.back)).getD false then 16 else 0)
  match h? with
  | some h => (s, [h.t, h.b1, h.b2, h.prim, last])
  | none => let (s, ws) := s.freeWords 4; (s, ws.map (BitVec.ofNat 32) ++ [last])

def execRayget (f : LR) (s : State) :=
  s.run (.rayget f) fun v =>
    let ls := v.part f.g f.gn
    let ray := fun l => s.ray? v.team.uid (v.vec f.va l)
    if ls.any fun l => ((ray l).map fun r => r.st == .running).getD false then .ok (s.stall v 2)
    else
      let (s, w) := ls.foldl (fun (acc : State × Warp) l =>
        let (s, ws) := acc.1.rayRecord (ray l)
        (s, (numbered f.vd.toNat ws).foldl (fun w x => w.setV x.1 l x.2) acc.2)) (s, v.warp)
      .ok (s.retire v w 0 8)

/-! ## The units -/

def State.setRay (s : State) (r : Ray) : State := { s with rays := modFirst (·.id == r.id) (fun _ => r) s.rays }

/-- A ray stops. -/
def State.stopRay (s : State) (r : Ray) (st : RaySt) (best cand : Option RayHit) : State :=
  (s.setRay { r with st, best, cand, ended := st != .candidate }).endRayOps

def execRayStop (id : Nat) (s : State) : Host.Outcome State Fault Refusal :=
  match s.rays.find? fun r => r.id == id && r.st == .running with
  | none => .next s
  | some r =>
    let (x, e) := s.runRay r
    let s := x.st
    match e with
    | .later => .next s
    | .more => .next (s.setRay { r with visits := 2 * r.visits })
    | .hit => .next (s.stopRay r .hit x.best none)
    | .miss => .next (s.stopRay r .miss none none)
    | .candidate h => .next (s.stopRay r .candidate x.best (some h))
    | .bad => .next (s.stopRay r .error none none)
    | .refused code info =>
      .next (((s.unrefuse (.unit id)).stopRay r .error none none).deferWarp r.x.team r.x.warp code info r.lane)

end Sys2Proof.Machine
end

