-- ==== Sys2Proof/Machine/Raster.lean ====
section
/-!
DEFINITION. Draws, the raster front end and the pixel back ends (spec/27 R378 to R383).
-/

namespace Sys2Proof.Machine

/-! ## Screen ownership (R378) -/

def tileDie (tx ty : Nat) : Nat := (tx + 2 * ty) % 4

/-- The cluster, counted over the module, of the back end that owns a tile. -/
def tileCluster (tx ty : Nat) : Nat := 8 * tileDie tx ty + ((tx + 2 * ty) / 4 + ty) % 8

/-! ## Draws (R379, R380) -/

/-- The draw of a descriptor, its kernels' descriptors and its target's; none where a value is not listed. -/
def drawOf (id ctx : Nat) (bs vk pk tgt : List Byte) : Option Draw :=
  let a := fieldAt bs 0x10 4
  let v := kernelOf vk
  let p := kernelOf pk
  let t := texDesc tgt
  let d : Draw := {
    id, ctx, vkern := v.1, pkern := p.1, nattr := bitsOf a 20 4, dfunc := bitsOf a 17 3, dwr := bitsOf a 16 1 == 1
    zout := bitsOf a 15 1 == 1, blend := bitsOf a 12 3, recb := bitsOf a 0 12, nprim := fieldAt bs 0x14 4
    base := t.1.base, width := t.1.width, height := t.1.height, block := (Config.vertexBlock id).toNat }
  if v.2 && p.2 && fieldAt bs 0 8 % 32 == 0 && fieldAt bs 8 8 % 32 == 0 && t.2 && t.1.fmt == 8 && t.1.base % 256 == 0 && bitsOf a 24 8 == 0 && decide (d.nattr ≤ 12) &&
      decide (d.dfunc ≤ 5) && decide (d.blend ≤ 1) then some d
  else none

/-- The launch record of a team of the front end: one task of one team. -/
def rasterRecord (uid ctx addr : Nat) (k : KernelDesc) : Record := {
  uid, ctx, prio := 0, addr, drain := false, count := 1, wait := none, notify := [], kernels := [k], inputs := []
  pipes := [], args := [], ready := true, sent := 1, left := 1 }

/-- Queue a team of the front end at a cluster's scheduler (log 24). -/
def State.addRaster (s : State) (ctx addr cluster : Nat) (k : KernelDesc) (work : TeamKind) : State × Nat :=
  let t : Task := {
    uid := s.nextId + 1, record := s.nextId, idx := 0, ctx, prio := 0, cluster, arrival := s.nextId + 1, tick := s.tick, work }
  ({ s with
    nextId := s.nextId + 2, records := s.records ++ [rasterRecord s.nextId ctx addr k], tasks := s.tasks ++ [t] }, s.nextId + 1)

/-- Vertices of a vertex team. -/
def Draw.perTeam (d : Draw) : Nat := 32 * d.vkern.warps

/-- The next primitive of a die's front end, and whether one is left. -/
def Draw.nextOn (d : Draw) (die : Nat) : Nat := d.next.getD die d.nprim
def Draw.works (d : Draw) (die : Nat) : Bool := decide (d.nextOn die < d.nprim)

/-- The first vertex of each vertex team. -/
def Draw.vertexTeams (d : Draw) : List Nat :=
  (List.range ((3 * d.nprim + d.perTeam - 1) / d.perTeam)).map fun i => i * d.perTeam

/-- The draw is refused. -/
def State.refuseDraw (s : State) (c : Nat) (desc : Addr) : State :=
  s.faultRecord c 6 0 0 0 desc.toNat 0

/-- DRAW_SUBMIT: a page that is not present is requested, and the draw is then submitted again (log 24). -/
def execDrawSubmit (c : Nat) (desc : Addr) (s : State) : Host.Outcome State Fault Refusal :=
  let who := Requester.queue c 9
  let va := desc.toNat
  let settled := fun (s : State) => s.unrefuse who
  if va % 32 ≠ 0 then .next (s.refuseDraw c desc)
  else
    match s.unitRead c va 32 who with
    | (s, .waits) => .next s
    | (s, .bad) => .next ((settled s).refuseDraw c desc)
    | (s, .ok bs) =>
      match s.unitReads c who [(fieldAt bs 0 8, 32), (fieldAt bs 8 8, 32), (fieldAt bs 0x18 8, 64)] with
      | (s, .waits) => .next s
      | (s, .bad) => .next ((settled s).refuseDraw c desc)
      | (s, .ok ds) =>
        match drawOf s.nextId c bs (ds.take 32) ((ds.drop 32).take 32) (ds.drop 64) with
        | some d =>
          if (rasterRecord 0 c va d.vkern).fits && (rasterRecord 0 c va d.pkern).fits && fieldAt bs 0x18 8 % 64 == 0 then
            let s := settled { s with nextId := s.nextId + 5, draws := s.draws ++ [d] }
            .next (d.vertexTeams.foldl (fun s first =>
              (s.addRaster c va (first / d.perTeam % 32) d.vkern (.vertex d.id first)).1) s)
          else .next ((settled s).refuseDraw c desc)
        | none => .next ((settled s).refuseDraw c desc)

/-! ## Clipping (R381) -/

structure ClipVert where
  x : Frac
  y : Frac
  z : Frac
  w : Frac
  attrs : List Frac
  deriving DecidableEq, Repr

def Frac.reduce (a : Frac) : Frac :=
  let g := Nat.gcd a.n.natAbs a.d
  if g ≤ 1 then a else ⟨a.n / (g : Int), a.d / g⟩

/-- The point a share t of the way from a to b. -/
def ClipVert.mix (t : Frac) (a b : ClipVert) : ClipVert :=
  let f := fun (p q : Frac) => (p.add (t.mul (q.sub p))).reduce
  ⟨f a.x b.x, f a.y b.y, f a.z b.z, f a.w b.w, (a.attrs.zip b.attrs).map fun p => f p.1 p.2⟩

/-- The part of a polygon at which a distance is not negative. -/
def clipBy (dist : ClipVert → Frac) (poly : List ClipVert) : List ClipVert :=
  (poly.zip (poly.drop 1 ++ poly.take 1)).flatMap fun (a, b) =>
    let da := dist a
    let db := dist b
    let zero := Frac.ofInt 0
    let cut := if (da.lt zero && zero.lt db) || (zero.lt da && db.lt zero) then [ClipVert.mix (da.div (da.sub db)) a b] else []
    (if zero.le da then [a] else []) ++ cut

/-- The planes of the view volume (log 25): −w ≤ x ≤ w, −w ≤ y ≤ w, 0 or −w ≤ z ≤ w. -/
def viewPlanes : List (ClipVert → Frac) :=
  [fun v => v.w, fun v => v.w.add v.x, fun v => v.w.sub v.x, fun v => v.w.add v.y, fun v => v.w.sub v.y,
    fun v => if Config.viewNearNeg then v.w.add v.z else v.z, fun v => v.w.sub v.z]

def clipPoly (poly : List ClipVert) : List ClipVert := viewPlanes.foldl (fun p d => clipBy d p) poly

/-! ## Coverage (R381) -/

/-- A vertex on the screen in 1/256 pixel, with what is linear over the screen: z/w, 1/w, and each attribute over w. -/
structure ScreenVert where
  x  : Int
  y  : Int
  lin : List Frac
  deriving DecidableEq, Repr

/-- The viewport covers the target (log 25). -/
def ClipVert.onScreen (v : ClipVert) (width height : Nat) : ScreenVert :=
  let one := Frac.ofInt 1
  let at' := fun (c : Frac) (n : Nat) => ((c.add one).mul ⟨128 * (n : Int), 1⟩).round
  let y := v.y.div v.w
  ⟨at' (v.x.div v.w) width, at' (if Config.viewYDown then y else y.neg) height,
    (v.z.div v.w).reduce :: (one.div v.w).reduce :: v.attrs.map fun a => (a.div v.w).reduce⟩

/-- Twice the signed area of a, b and the point (px, py). -/
def edgeFn (a b : ScreenVert) (px py : Int) : Int := (b.x - a.x) * (py - a.y) - (b.y - a.y) * (px - a.x)

structure ScreenTri where
  a : ScreenVert
  b : ScreenVert
  c : ScreenVert
  deriving DecidableEq, Repr

/-- A triangle of positive area; none where it has none. -/
def ScreenTri.oriented (a b c : ScreenVert) : Option ScreenTri :=
  let e := edgeFn a b c.x c.y
  if e > 0 then some ⟨a, b, c⟩ else if e < 0 then some ⟨a, c, b⟩ else none

/-- The triangles of a convex polygon. -/
def fanOf : List ScreenVert → List ScreenTri
  | [] => []
  | a :: rest => (rest.zip (rest.drop 1)).filterMap fun p => ScreenTri.oriented a p.1 p.2

/-- An edge that its points belong to: a top edge or a left edge. -/
def topLeft (a b : ScreenVert) : Bool := decide (b.y - a.y < 0) || (b.y == a.y && decide (b.x - a.x > 0))

def inside (a b : ScreenVert) (px py : Int) : Bool :=
  let e := edgeFn a b px py
  decide (e > 0) || (e == 0 && topLeft a b)

/-- The centre of a pixel, in 1/256 pixel. -/
def pixelCentre (x : Nat) : Int := 256 * (x : Int) + 128

def ScreenTri.covers (t : ScreenTri) (x y : Nat) : Bool :=
  let px := pixelCentre x
  let py := pixelCentre y
  inside t.a t.b px py && inside t.b t.c px py && inside t.c t.a px py

/-- The linear values at a pixel's centre. -/
def ScreenTri.linear (t : ScreenTri) (x y : Nat) : List Frac :=
  let px := pixelCentre x
  let py := pixelCentre y
  let area := edgeFn t.a t.b t.c.x t.c.y
  let share := fun (a b : ScreenVert) => (⟨edgeFn a b px py, area.toNat⟩ : Frac)
  let la := share t.b t.c
  let lb := share t.c t.a
  let lc := share t.a t.b
  (t.a.lin.zip (t.b.lin.zip t.c.lin)).map fun (p, q, r) => ((la.mul p).add ((lb.mul q).add (lc.mul r))).reduce

/-- v2 onward at a pixel: depth, 1/w, the attributes; `free` stands for an attribute where 1/w is 0 (log 25). -/
def ScreenTri.inputs (t : ScreenTri) (free : List Nat) (x y : Nat) : List Word :=
  match t.linear x y with
  | z :: iw :: attrs =>
    let attr := fun (i : Nat) (a : Frac) => if iw.isZero then free.getD i 0 else (a.div iw).to32
    (z.to32 :: iw.to32 :: ((List.range attrs.length).zip attrs).map fun (p : Nat × Frac) => attr p.1 p.2).map (BitVec.ofNat 32)
  | _ => []

/-! ## Rasterising a primitive -/

/-- A quad of a primitive: its column and row, and the triangle that each pixel lies in, where it is covered. -/
structure Quad where
  qx  : Nat
  qy  : Nat
  cov : List (Option ScreenTri)
  deriving DecidableEq, Repr

def quadAt (ts : List ScreenTri) (width height qx qy : Nat) : Quad :=
  ⟨qx, qy, [(0, 0), (1, 0), (0, 1), (1, 1)].map fun (dx, dy) =>
    let x := 2 * qx + dx
    let y := 2 * qy + dy
    if x < width && y < height then ts.find? fun t => t.covers x y else none⟩

def Quad.covered (q : Quad) : Bool := q.cov.any (·.isSome)

/-- The quads that coordinates lo to hi (1/256 pixel) may touch, below n pixels. -/
def quadSpan (lo hi : Int) (n : Nat) : List Nat :=
  let first := (max lo 0).toNat / 512
  let last := min ((max hi 0).toNat / 512) ((n - 1) / 2)
  (List.range (last + 1 - first)).map (first + ·)

def listMin (l : List Int) : Int := l.foldl min (l.headD 0)
def listMax (l : List Int) : Int := l.foldl max (l.headD 0)

/-- The covered quads of a primitive, by tile: row by row of tiles, and row by row within a tile. -/
def quadsOf (ts : List ScreenTri) (width height : Nat) : List ((Nat × Nat) × List Quad) :=
  let vs := ts.flatMap fun t => [t.a, t.b, t.c]
  let xs := quadSpan (listMin (vs.map (·.x))) (listMax (vs.map (·.x))) width
  let ys := quadSpan (listMin (vs.map (·.y))) (listMax (vs.map (·.y))) height
  let qs := (ys.flatMap fun y => xs.map fun x => quadAt ts width height x y).filter Quad.covered
  let tiles := (ys.map (· / 32)).eraseDups.flatMap fun ty => (xs.map (· / 32)).eraseDups.map fun tx => (tx, ty)
  (tiles.map fun t => (t, qs.filter fun q => q.qx / 32 == t.1 && q.qy / 32 == t.2)).filter fun p => !p.2.isEmpty

/-- Pixels of a team's quads, keyed 32·warp + lane, with the values that a helper takes from the quad's first triangle. -/
def Quad.lanes (q : Quad) (free : List Nat) : List ((Nat × Nat × Bool) × List Word) :=
  let t? := q.cov.findSome? id
  ((List.range 4).zip q.cov).map fun (i, c) =>
    let x := 2 * q.qx + i % 2
    let y := 2 * q.qy + i / 2
    ((x, y, c.isSome), ((c.or t?).map fun t => t.inputs free x y).getD [])

def teamsOfQuads {α : Type} (n : Nat) : Nat → List α → List (List α)
  | 0, _ => []
  | fuel + 1, l => if l.isEmpty then [] else l.take n :: teamsOfQuads n fuel (l.drop n)

/-- Start the pixel team of some quads of a tile: its task and its pixels at the back end. -/
def State.addPixelTeam (s : State) (d : Draw) (prim : Nat) (tile : Nat × Nat) (free : List Nat) (qs : List Quad) : State :=
  let lanes := numbered 0 (qs.flatMap fun q => q.lanes free)
  let cl := tileCluster tile.1 tile.2
  let pixels := lanes.map fun (p : Nat × ((Nat × Nat × Bool) × List Word)) => (p.1, p.2.1)
  let inputs := lanes.map fun (p : Nat × ((Nat × Nat × Bool) × List Word)) => (p.1, p.2.2)
  let (s, task) := s.addRaster d.ctx 0 cl d.pkern (.pixel d.id prim pixels inputs)
  let work := lanes.filterMap fun (p : Nat × ((Nat × Nat × Bool) × List Word)) =>
    if p.2.1.2.2 then
      some ({ cluster := cl, draw := d.id, prim, x := p.2.1.1, y := p.2.1.2.1, task, depth := p.2.2.headD 0 : PixelWork })
    else none
  { s with pixels := s.pixels ++ work }

/-- A vertex of the block; none where a coordinate or an attribute is no number. -/
def clipVertOf (nattr : Nat) (bs : List Byte) : Option ClipVert :=
  let f := fun o => finite32 (fieldAt bs o 4)
  match f 0, f 4, f 8, f 12, allSome ((List.range nattr).map fun i => f (16 + 4 * i)) with
  | some x, some y, some z, some w, some attrs => some ⟨x, y, z, w, attrs⟩
  | _, _, _, _, _ => none

/-- The triangles of a primitive on the screen, from its three vertex records. -/
def Draw.triangles (d : Draw) (bs : List Byte) : List ScreenTri :=
  let n := 16 + 4 * d.nattr
  match allSome ((List.range 3).map fun i => clipVertOf d.nattr ((bs.drop (n * i)).take n)) with
  | none => []
  | some vs =>
    let poly := clipPoly vs
    if poly.any fun v => v.w.isZero then [] else fanOf (poly.map fun v => v.onScreen d.width d.height)

/-- The vertex team that writes vertex v has exited; none where it has not and still may. -/
def State.vertexDone (s : State) (d : Draw) (v : Nat) : Option Bool :=
  let first := v / d.perTeam * d.perTeam
  if d.done.contains first then some true
  else if s.tasks.any fun t => t.work == .vertex d.id first then none
  else some false

/-- A draw that nothing is left of. -/
def State.endDraws (s : State) : State :=
  let uses := fun (d : Draw) (t : Task) => match t.work with
    | .vertex n _ => n == d.id
    | .pixel n _ _ _ => n == d.id
    | .compute => false
  { s with draws := s.draws.filter fun d =>
      (List.range 4).any d.works || (s.pixels.any fun p => p.draw == d.id) || s.tasks.any (uses d) }

/-- Start the pixel teams of a primitive in the tiles that a die owns, in the order of the tiles (R378). -/
def State.rasterise (s : State) (die : Nat) (d : Draw) (prim : Nat) (ts : List ScreenTri) : State :=
  let (s, free) := s.freeWords d.nattr
  ((quadsOf ts d.width d.height).filter fun p => tileDie p.1.1 p.1.2 == die).foldl (fun s (p : (Nat × Nat) × List Quad) =>
    (teamsOfQuads (8 * d.pkern.warps) p.2.length p.2).foldl (fun s qs => s.addPixelTeam d prim p.1 free qs) s) s

/-- PRIMITIVE_RASTERISE: the next primitive of a draw in a die's front end, once the teams of its vertices have exited; one
with a vertex whose team was killed, or whose block cannot be read, is dropped (log 24). -/
def execPrimitiveRasterise (front : FrontEnd) (prim : Nat) (s : State) : Host.Outcome State Fault Refusal :=
  let die := front.die
  let draw := front.draw
  match s.draws.find? fun d => d.id == draw && d.nextOn die == prim && d.works die with
  | none => .next s
  | some d =>
    let who := Requester.unit (draw + 1 + die)
    let passed := fun (s : State) =>
      { s with draws := modFirst (·.id == draw) (fun d => { d with next := modNth (fun _ => prim + 1) die d.next }) s.draws
        }.unrefuse who
    match allSome ((List.range 3).map fun i => s.vertexDone d (3 * prim + i)) with
    | none => .next s
    | some ok =>
      if !ok.all id then .next (passed s).endDraws
      else
        let at' := fun i => (d.block + 16 * (d.recb + 1) * (3 * prim + i)) % 2 ^ 64
        match s.unitReads d.ctx who ((List.range 3).map fun i => (at' i, 16 + 4 * d.nattr)) with
        | (s, .waits) => .next s
        | (s, .bad) => .next (passed s).endDraws
        | (s, .ok bs) =>
          let s := (List.range 3).foldl (fun s i => s.askSpan (.raster die) false d.ctx (at' i) (16 + 4 * d.nattr)) s
          .next ((passed s).rasterise die d prim (d.triangles bs)).endDraws

/-! ## The pixel back ends (R382, R383) -/

/-- The depth test. -/
def depthPasses (dfunc : Nat) (new old : Nat) : Bool :=
  let c := fCmp (fp32.decode new) (fp32.decode old)
  match dfunc with
  | 0 => false
  | 1 => c == some .lt
  | 2 => c == some .lt || c == some .eq
  | 3 => c == some .eq
  | 4 => c == some .gt
  | _ => true

/-- c := s·a + d·(1 − a), each operation rounded to FP32. -/
def blendOver (src dst alpha : Nat) : Nat := add32 (mul32 src alpha) (mul32 dst (sub32 0x3F800000 alpha))

def Draw.pitch (d : Draw) (texel : Nat) : Nat := rowBytesOf d.width texel

def Draw.colourAt (d : Draw) (x y : Nat) : Nat := (d.base + d.pitch 16 * y + 16 * x) % 2 ^ 64

/-- The depth plane lies after the colour image; its rows are those of an FP32 image (log 25). -/
def Draw.depthAt (d : Draw) (x y : Nat) : Nat := (d.base + d.pitch 16 * d.height + d.pitch 4 * y + 4 * x) % 2 ^ 64

/-- The team of a pixel has not left it yet, or its export waits. -/
def State.pixelAlive (s : State) (p : PixelWork) : Bool :=
  match p.st with
  | .exported _ _ => p.final || s.tasks.any fun t => t.uid == p.task
  | _ => !p.final && s.tasks.any fun t => t.uid == p.task

/-- Drop what will never be applied. -/
def State.prunePixels (s : State) (cl : Nat) : State := { s with pixels := s.pixels.filter fun p => p.cluster != cl || s.pixelAlive p }

/-- The first export of a back end that no earlier primitive of its draw holds back. -/
def State.nextExport (s : State) (cl : Nat) : Option PixelWork :=
  s.pixels.find? fun p => p.cluster == cl && p.final &&
    !(s.pixels.any fun q => q.cluster == cl && q.draw == p.draw && q.x == p.x && q.y == p.y && decide (q.prim < p.prim))

/-- The write by a back end of bytes at an address whose translation it holds. -/
def State.pixelWrite (s : State) (cl key : Nat) (bs : List Byte) : State := (s.engineWrite (dieOfCluster cl) key bs).ask (.pixels cl) true key bs.length

/-- Apply an export: depth test, depth write, blend. -/
def State.applyExport (s : State) (d : Draw) (p : PixelWork) (colour depthKey : Nat) (rgba : List Word) (depth : Word) : State :=
  if !depthPasses d.dfunc depth.toNat (natOfBytes (s.homeBytes depthKey 4)) then s
  else
    let old := s.homeBytes colour 16
    let src := fun i => (rgba.getD i 0).toNat
    let c := fun i => if d.blend = 0 then src i else blendOver (src i) (fieldAt old (4 * i) 4) (src 3)
    let s := s.pixelWrite p.cluster colour ((List.range 4).flatMap fun i => bytesOfNat 4 (c i))
    if d.dwr then s.pixelWrite p.cluster depthKey (bytesOfNat 4 depth.toNat) else s

/-- PIXEL_EXPORT_APPLY: an export whose target cannot be written is dropped (log 24). -/
def execPixelExportApply (cluster : Nat) (s : State) : Host.Outcome State Fault Refusal :=
  let s := s.prunePixels cluster
  match s.nextExport cluster with
  | none => .next s.endDraws
  | some p =>
    match s.draws.find? (·.id == p.draw), p.st with
    | some d, .exported rgba depth =>
      let who := Requester.unit d.id
      let drop := fun (s : State) => ({ s with pixels := removeFirst (· == p) s.pixels }.unrefuse who).endDraws
      match s.unitXlate d.ctx (d.colourAt p.x p.y) .store who 0 0 with
      | (s, .waits) => .next s
      | (s, .fault _ _) => .next (drop s)
      | (s, .ok colour) =>
        match s.unitXlate d.ctx (d.depthAt p.x p.y) .store who 0 0 with
        | (s, .waits) => .next s
        | (s, .fault _ _) => .next (drop s)
        | (s, .ok depthKey) => .next (drop (s.applyExport d p colour depthKey rgba depth))
    | _, _ => .next s

end Sys2Proof.Machine
end

