-- ==== Sys2Proof/Machine/Xbar.lean ====
section
/-!
DEFINITION. The crossbars, the die-to-die links, the host port and the Murus ports (spec/01 R10 to R17, R22, R23; spec/07
R126), and the stop of abandoned operations (spec/07 R119).
-/

namespace Sys2Proof.Machine

/-! ## Requesters (R10, R11) -/

/-- The die of a source; Murus port l lies on die l / 2 (spec/01 R5, R22). -/
def XSource.die : XSource → Nat
  | .core c => dieOfCore c
  | .engine cl _ | .regroup cl | .weights cl | .atomics cl | .pixels cl => dieOfCluster cl
  | .murus link => link / 2
  | .sorghum d _ | .taskUnit d | .raster d | .walker d => d
  | .cxl | .housekeeping => 0

/-- Its requester port at the crossbar of that die. -/
def XSource.port : XSource → Nat
  | .core c => c % 32
  | .engine cl e => 32 + 2 * (cl % 8) + e
  | .regroup cl | .weights cl | .atomics cl | .pixels cl => 48 + cl % 8
  | .murus _ => 59
  | .sorghum _ _ => 60
  | .taskUnit _ | .raster _ => 61
  | .walker _ => 62
  | .cxl | .housekeeping => 63

/-- The port through which another die's requests enter: 56 to 58, in ascending die number. -/
def ingressPort (die other : Nat) : Nat := 56 + if other < die then other else other - 1

def XReq.home (r : XReq) : Nat := keyHome r.key

/-- The number of the request's 256-byte line at its home. -/
def XReq.line (r : XReq) : Nat := r.key % 2 ^ 52 / 256

/-- The port at which the request enters the crossbar of its home. -/
def XReq.port (r : XReq) : Nat := if r.src.die = r.home then r.src.port else ingressPort r.home r.src.die

def State.port (s : State) (k : Nat) : Port := Tab.get {} s.ports k
def State.modPort (s : State) (k : Nat) (f : Port → Port) : State := { s with ports := Tab.upd {} s.ports k f }

/-- The request that a port takes next: of a source it has never granted, else of the one granted longest ago; of one
source, in the order in which they came. -/
def Port.next? (p : Port) : Option XReq :=
  (p.waiting.find? fun r => !p.served.contains r.src).or
    (p.served.findSome? fun x => p.waiting.find? fun r => r.src == x)

def Port.grant (p : Port) (r : XReq) : Port :=
  { waiting := removeFirst (· == r) p.waiting, served := p.served.filter (· != r.src) ++ [r.src] }

/-! ## The crossbar (R12 to R15) -/

/-- The slice of a line, by its number l = pa >> 8 (R12). -/
def homeSlice (l : Nat) : Nat :=
  let h := (l ^^^ (l / 2 ^ 5) ^^^ (l / 2 ^ 10) ^^^ (l / 2 ^ 15)) % 32
  32 * (l % 3) + h

/-- Columns are keyed 96·die + slice. -/
def colKey (die slice : Nat) : Nat := 96 * die + slice
def State.col (s : State) (k : Nat) : Column := Tab.get {} s.cols k
def State.modCol (s : State) (k : Nat) (f : Column → Column) : State := { s with cols := Tab.upd {} s.cols k f }

/-- Lines that a slice of 1 MiB holds; the oldest leaves for a new one (log 5). -/
def sliceLines : Nat := 4096

def Column.idle (c : Column) : Bool := c.held.isEmpty

/-- A request wakes a column that is off; one in the clock of the power-down keeps it on (R15). -/
def Column.wake (c : Column) (clock : Nat) : Column :=
  match c.power with
  | .off since => if since = clock then { c with power := .on, idleAt := clock } else { c with power := .waking (clock + 8) }
  | _ => c

/-- The column holds an accepted request at the crosspoint of its port. -/
def Column.hold (c : Column) (r : XReq) : Column := { c with held := c.held ++ [r] }

/-- XBAR_REQUEST: a requester port accepts the request whose turn it is, for this line of its die; the request wakes the
column of the line and is held at its crosspoint. -/
def execXbarRequest (die port line : Nat) (s : State) : Host.Outcome State Fault Refusal :=
  match (s.port (64 * die + port)).next? with
  | none => .next s
  | some r =>
    if r.home = die && r.port = port && r.line = line then
      .next ((s.modPort (64 * die + port) (·.grant r)).modCol (colKey die (homeSlice line)) fun c =>
        (c.wake s.clock).hold { r with at' := s.clock })
    else .next s

/-- The line of a request is in the slice. -/
def Column.has (c : Column) (r : XReq) : Bool := c.lines.contains r.line

/-- The request that the column grants in a clock: the highest in priority of those accepted before it, and the first of
its port. -/
def Column.next? (c : Column) (clock : Nat) : Option XReq :=
  let waiting := c.held.filter fun r => decide (r.at' < clock)
  c.prio.findSome? fun p => waiting.find? (·.port == p)

/-- A granted request hits and is served, or is parked with its line's fill in flight. -/
def Column.accept (c : Column) (r : XReq) : Column × Option XReq :=
  let c := { c with prio := c.prio.filter (· != r.port) ++ [r.port], held := removeFirst (· == r) c.held, granted := some r }
  if c.has r then (c, some r)
  else
    ({ c with replay := c.replay ++ [r], filling := if c.filling.contains r.line then c.filling else c.filling ++ [r.line] }, none)

/-- The 8 clocks of a wake are over. -/
def Column.poweredUp (c : Column) (clock : Nat) : Column :=
  match c.power with
  | .waking ready => if ready ≤ clock then { c with power := .on, idleAt := clock } else c
  | _ => c

/-- One clock of a column and its slice, and the request that it serves: a re-entry takes the pipeline, else one grant
while the queue has room. -/
def Column.clockOf (c : Column) (clock : Nat) : Column × Option XReq :=
  let c := c.poweredUp clock
  match c.replay.find? c.has with
  | some r => ({ c with replay := removeFirst (· == r) c.replay }, some r)
  | none =>
    if c.power == .on && c.replay.length < 32 then
      match c.next? clock with
      | some r =>
        let (c, served) := c.accept r
        (if c.idle then { c with idleAt := clock } else c, served)
      | none => (c, none)
    else (c, none)

/-- L2_FILL_COMPLETE: the wake-up tag of a line fires; its parked entries re-enter in their order, one per clock. -/
def execL2FillComplete (die slice line : Nat) (s : State) : Host.Outcome State Fault Refusal :=
  .next (s.modCol (colKey die slice) fun c =>
    if c.filling.contains line then
      { c with filling := c.filling.filter (· != line), lines := (c.lines ++ [line]).drop (c.lines.length + 1 - sliceLines) }
    else c)

/-- COLUMN_POWER_DOWN: idle for 64 clocks. -/
def execColumnPowerDown (die slice : Nat) (s : State) : Host.Outcome State Fault Refusal :=
  .next (s.modCol (colKey die slice) fun c =>
    if c.power == .on && c.idle && c.idleAt + 64 ≤ s.clock then { c with power := .off s.clock } else c)

/-- COLUMN_POWER_UP_COMPLETE: 8 clocks after the wake. -/
def execColumnPowerUpComplete (die slice : Nat) (s : State) : Host.Outcome State Fault Refusal :=
  .next (s.modCol (colKey die slice) (·.poweredUp s.clock))

/-! ## Die-to-die links (R16, R17) -/

/-- What orders two messages: the source requester and the 64-byte granule. -/
def Cargo.order : Cargo → Option (XSource × Nat)
  | .request r | .answer r => some (r.src, r.key)
  | _ => none

/-- The message at a place of the link, where nothing of the same source and granule was sent before it. -/
def Link.ready? (l : Link) (n : Nat) : Option LinkMsg :=
  l.msgs[n]?.filter fun m => m.cargo.order.isNone || (l.msgs.take n).all fun o => o.cargo.order != m.cargo.order

/-- A request has been served at a die: the answer goes back to its source, with the granule where it asked for it. -/
def State.answer (s : State) (die : Nat) (r : XReq) : State :=
  s.sendOver die r.src.die ⟨.answer r, if r.write then [] else s.homeBytes r.key 64⟩

/-- A request that has come to the die of its home enters at its port; one that leaves the module here is served beyond. -/
def State.present (s : State) (die : Nat) (r : XReq) : State :=
  if r.home = die then s.modPort (64 * die + r.port) fun p => { p with waiting := p.waiting ++ [r] } else s.answer die r

/-- Every column's clock. -/
def State.columnClocks (s : State) : State :=
  s.cols.foldl (fun s kc =>
    let (c, served) := (s.col kc.1).clockOf s.clock
    let s := { s with cols := Tab.put {} s.cols kc.1 c }
    match served with
    | some r => s.answer (kc.1 / 96) r
    | none => s) s

/-- The bytes that a request carries to the home of its line. -/
def State.carried (s : State) (r : XReq) : List Byte := if r.write then s.homeBytes r.key 64 else []

/-- Each bank of a far cache takes its first request: what the far cache holds it answers, the rest goes on to the die of
the home (R12). -/
def State.farClocks (s : State) : State :=
  s.farBanks.foldl (fun s kb =>
    match kb.2 with
    | [] => s
    | r :: rest =>
      let die := kb.1 / 64
      let s := { s with farBanks := Tab.put [] s.farBanks kb.1 rest }
      if !r.write && (List.range 64).all fun i => (s.farHit? die (r.key + i)).isSome then s.answer die r
      else s.sendOver die r.home ⟨.request r, s.carried r⟩) s

/-- The die through which a request leaves the module: that of the CXL port, or of a Murus port (R16). A granule keeps to
its port while that is up (R23). -/
def State.exitDie? (s : State) (r : XReq) : State × Option Nat :=
  if r.home = hostHome then (s, some 0)
  else
    match (Tab.find? s.routes r.key).filter fun p => s.linkUp.getLsbD p with
    | some p => (s, some (p / 2))
    | none =>
      match s.peerPort? ((r.home - 8) / 4) with
      | some p => ({ s with routes := Tab.ins s.routes r.key p }, some (p / 2))
      | none => (s, none)

/-- A new request: to its requester port where its line is homed on the die, to the far cache of the die where it is homed
on another (R12), or to the die of the port that leads out; where no port is up, it waits. -/
def State.route (s : State) (r : XReq) : State :=
  if r.home = r.src.die then s.present r.src.die r
  else if r.home < 4 then
    let k := 64 * r.src.die + r.line % 64
    { s with farBanks := Tab.put [] s.farBanks k (Tab.get [] s.farBanks k ++ [r]) }
  else
    match s.exitDie? r with
    | (s, some die) =>
      if die = r.src.die then s.answer die r else s.sendOver r.src.die die ⟨.request r, s.carried r⟩
    | (s, none) => { s with asks := s.asks ++ [r] }

/-- D2D_BEAT_RECEIVE: a beat of 64 bytes of a message comes. A damaged one is not delivered, and is sent again; the last
one brings the message to its die. -/
def execD2dBeatReceive (src dst : Nat) (beat : Beat) (s : State) : Host.Outcome State Fault Refusal :=
  match (s.link src dst).ready? beat.msg with
  | none => .next s
  | some m =>
    if !beat.crcOk then .next (s.modLink src dst fun l => { l with retrying := true })
    else
      let rest := m.data.drop 64
      let put := fun (l : Link) => { l with delivered := l.delivered + 1, retrying := false }
      if !rest.isEmpty then
        .next (s.modLink src dst fun l => put { l with msgs := modNth (fun m => { m with data := rest }) beat.msg l.msgs })
      else
        let s := s.modLink src dst fun l => put { l with msgs := l.msgs.eraseIdx beat.msg }
        match m.cargo with
        | .request r => .next (s.present dst r)
        | _ => .next s

/-! ## What the operations in flight ask for (R10, R16) -/

/-- The requests of a load, store or atomic: a team-scope atomic executes in L1, a cluster-scope one in the cluster's
atomic unit, any other at its home (spec/07 R120). -/
def MemOp.requests (m : MemOp) : List XReq :=
  m.lines.map (fun k => ⟨.core m.core, m.id, k, !m.isLoad, 0⟩) ++
    ((m.atoms.filter fun r => !r.scratch && r.scope != 0).map fun r =>
      ⟨if r.scope = 1 then .atomics (clusterOfCore m.core) else .core m.core, m.id, granule r.key, true, 0⟩)

/-- The granules of one side of a copy in global memory, where its pages translate. -/
def State.sideLines (s : State) (ctx : Nat) (d : Side) (kind : Access) (rowAt : Nat → Option Nat) : List Nat :=
  (List.range d.rows).flatMap fun i =>
    match rowAt i with
    | none => []
    | some k =>
      (pieces ((d.base + k * d.pitch) % 2 ^ 64) d.len).flatMap fun p =>
        match s.xlateNow ctx p.1 kind with
        | .ok key => granules key p.2
        | _ => []

def State.copyRequests (s : State) (c : CopyOp) : List XReq :=
  let row := fun i =>
    if c.gathers then
      let k := natOfBytes (s.scrBytes (clusterOfCore c.core) (c.ix + 4 * i) 4)
      if k = 0xFFFFFFFF then none else some k
    else some i
  let src := XSource.engine (clusterOfCore c.core) c.engine
  (if c.source.scratch then [] else (s.sideLines c.ctx c.source .load row).map fun k => ⟨src, c.id, k, false, 0⟩) ++
    (if c.target.scratch then [] else (s.sideLines c.ctx c.target .store some).map fun k => ⟨src, c.id, k, true, 0⟩)

/-- The entries that a walk reads, level by level. -/
def walkKeys (mem : List Host.Cell) (va : Nat) : List (Nat × Nat) → Pte → List Nat
  | [], _ => []
  | (shift, width) :: rest, e =>
    if !e.v || e.leaf then []
    else
      let size := 8 * 2 ^ width
      let key := physKey e.die (e.addr / size * size + 8 * bitsOf va shift width)
      key :: walkKeys mem va rest (BitVec.ofNat 64 (natOfBytes (Tab.getRange Memory.unwritten mem key 8)))

def State.walkRequests (s : State) (w : Walk) : List XReq :=
  (walkKeys s.mem w.va walkLevels (s.ctxOf w.ctx).ptRoot).map fun k => ⟨.walker w.die, w.id, granule k, false, 0⟩

/-- The requests of the operations that have begun since the clock before. -/
def State.newRequests (s : State) : List XReq :=
  let new := fun (id : Nat) => decide (s.routed ≤ id)
  (s.memOps.filter (new ·.id)).flatMap MemOp.requests ++ (s.copies.filter (new ·.id)).flatMap s.copyRequests ++
    (s.walks.filter (new ·.id)).flatMap s.walkRequests

/-- The tile of a new send goes over the link to the die of its router, or of the Murus port to another module. -/
def State.tileOver (s : State) (m : TwSend) : State :=
  let die := dieOfCore m.core
  if destRouterModule m.dest = s.khmod.toNat then s.sendOver die (routerOf (tagIndex m.tag) / 16) ⟨.tile m.id, m.tile⟩
  else
    match s.peerPort? (destRouterModule m.dest) with
    | some p => s.sendOver die (p / 2) ⟨.tile m.id, m.tile⟩
    | none => s

/-- One clock of what joins the units of the module: the requests of the clock before set out, the far caches and the
columns take theirs. -/
def State.linkClock (s : State) : State :=
  let asks := s.asks ++ s.newRequests
  let sends := s.sends.filter fun m => decide (s.routed ≤ m.id) && m.peer.isNone
  let s := asks.foldl State.route { s with asks := [], routed := s.nextId }
  (sends.foldl State.tileOver s).farClocks.columnClocks

def Link.carries (l : Link) (p : Cargo → Bool) : Bool := l.msgs.any fun m => p m.cargo

/-- A request of the operation is under way, or its answer. -/
def State.underWay (s : State) (op : Nat) : Bool :=
  let mine := fun (r : XReq) => r.op == op
  decide (s.routed ≤ op) || s.asks.any mine || (s.ports.any fun p => p.2.waiting.any mine) ||
    (s.farBanks.any fun b => b.2.any mine) || (s.cols.any fun c => c.2.held.any mine || c.2.replay.any mine) ||
    s.links.any fun l => l.2.carries fun m => match m with
      | .request r | .answer r => mine r
      | _ => false

/-- The tile of a send is on a link. -/
def State.tileUnderWay (s : State) (id : Nat) : Bool := s.links.any fun l => l.2.carries (· == .tile id)

/-- The ports that have a request for the crossbar of their die. -/
def State.portsDue (s : State) : List Ev :=
  s.ports.filterMap fun p => p.2.next?.map fun r => Ev.xbarRequest (p.1 / 64) (p.1 % 64) r.line

/-- Beats that may come in a clock, sound or damaged. -/
def State.beats (s : State) : List Ev :=
  s.links.flatMap fun l => (List.range l.2.msgs.length).flatMap fun n =>
    if (l.2.ready? n).isSome then [true, false].map fun ok => Ev.d2dBeatReceive (l.1 / 4) (l.1 % 4) ⟨n, ok⟩ else []

/-! ## The host port and the Murus ports (R18, R22, R23, R126) -/

/-- The module works: an image runs, and it is in M0. -/
def State.active (s : State) : Bool := s.fwState == 1 && s.pwrState == 0

/-- A store from outside, performed at its home. -/
def State.outsideStore (s : State) (key bytes : Nat) (data : BitVec 128) : State :=
  s.writeHome key (bytesOfNat bytes data.toNat)

/-- The access names memory of this module (log 61). -/
def insideModule (home pa bytes : Nat) : Bool := decide (home < 4) && decide (bytes ≤ 16) && decide (pa + bytes ≤ dieCapacity)

/-- An access from outside in a low-power state wakes the module, and is performed when it is in M0 (R29). -/
def State.wakeFor (s : State) (i : Instr) : State := { s.wake with waking := s.wake.waking ++ [i] }

/-- CXL_MEM_ACCESS: a relaxed access at system scope, at the home slice. -/
def execCxlMemAccess (a : HostAccess) (s : State) : Host.Outcome State Fault Refusal :=
  if s.fwState != 1 then .next s
  else if s.pwrState != 0 then .next (s.wakeFor (.cxlMemAccess a))
  else if insideModule a.home a.pa a.bytes then
    let key := physKey a.home a.pa
    match a.data with
    | some d => .next ((s.outsideStore key a.bytes d).ask .cxl true key a.bytes)
    | none => .next (s.ask .cxl false key a.bytes)
  else .next s

/-- What arrives over a Murus port that is up: an access to memory, performed at the home slice as one step, since a peer
holds no cache of this module; or what the routers and cores of peers send (spec/23 R351, R354, R356 to R358). -/
def State.peerArrives (s : State) (a : PeerReq) : State :=
  let key := physKey a.home a.pa
  let src := XSource.murus a.link
  match a.kind with
  | .send source core ctx tag op dest tile => s.peerSend source core ctx tag op.toNat dest tile
  | .deliver ctx tag dest tile => s.peerDeliver ctx tag dest tile
  | .orphan ctx tag dest => s.notifyOrphan ctx tag dest
  | .meetingEnd ctx tag fault => s.peerMeetingEnd ctx tag fault
  | .load => if insideModule a.home a.pa a.bytes then s.ask src false key a.bytes else s
  | .store => if insideModule a.home a.pa a.bytes then (s.outsideStore key a.bytes a.x).ask src true key a.bytes else s
  | .atomic oc =>
    if insideModule a.home a.pa a.bytes then
      let m := natOfBytes (s.homeBytes key a.bytes)
      (s.outsideStore key a.bytes (BitVec.ofNat 128 (atomEval oc a.bytes m a.x.toNat a.y.toNat))).ask src true key a.bytes
    else s

def execPeerAccess (a : PeerReq) (s : State) : Host.Outcome State Fault Refusal :=
  if s.fwState != 1 || !(decide (a.link < 8) && s.linkUp.getLsbD a.link) then .next s
  else if s.pwrState != 0 then .next (s.wakeFor (.peerAccess a))
  else .next (s.peerArrives a)

/-- MURUS_LINK_CHANGE: granules that kept to a port that goes down choose again. -/
def execMurusLinkChange (link : Nat) (up : Bool) (s : State) : Host.Outcome State Fault Refusal :=
  if link < 8 then
    let m : BitVec 8 := BitVec.ofNat 8 (2 ^ link)
    .next (if up then { s with linkUp := s.linkUp ||| m }
      else { s with linkUp := s.linkUp &&& ~~~m, routes := s.routes.filter fun e => e.2 != link })
  else .next s

/-! ## Abandoned operations (spec/07 R119) -/

/-- ABANDONED_OPERATION_STOPPED: the engine of an abandoned copy has stopped; its range locks are freed. -/
def execAbandonedOperationStopped (id : Nat) (s : State) : Host.Outcome State Fault Refusal :=
  match s.copies.find? fun c => c.id == id && c.dead with
  | some c => .next (s.stopCopy c)
  | none => .next s

end Sys2Proof.Machine
end

