-- ==== Sys2Proof/Machine/Power.lean ====
section
/-!
DEFINITION. Firmware, attestation, power states, throttling and diagnostic mode (spec/01 R24 to R30; spec/07 R114).
-/

namespace Sys2Proof.Machine

/-! ## Firmware (R24, R25) -/

/-- POWER_ON: the boot ROM of a module in reset starts verifying the image. -/
def execPowerOn (s : State) : Host.Outcome State Fault Refusal :=
  .next (if s.fwState = 0 && !s.verifying then { s with verifying := true } else s)

/-- The SHA-256 digest of an image, its security version included (log 8). -/
def fwDigest (m : FwImage) (svn : BitVec 16) : List Byte := sha256 (m.bytes ++ bytesOfNat 2 svn.toNat)

/-- The signature of the image is that of the key whose digest is fused. -/
def fwSigned (m : FwImage) (svn : BitVec 16) : Bool :=
  let key := beBytes 32 m.keyX.toNat ++ beBytes 32 m.keyY.toNat
  sha256 key == (List.range 32).map Config.fusedKeyDigest &&
    ecdsaVerify m.keyX.toNat m.keyY.toNat (fwDigest m svn) m.sigR.toNat m.sigS.toNat

/-- FWSTATE after verification. -/
def fwVerdict (svn : BitVec 16) : Option FwImage → Byte
  | none => 0x12
  | some m => if !fwSigned m svn then 0x10 else if svn < Config.fusedVersion then 0x11 else 0x01

/-- FIRMWARE_VERIFY_COMPLETE: an image that passes runs, and sets the module number; else the module stays in recovery. -/
def execFirmwareVerifyComplete (image : Option FwImage) (svn : BitVec 16) (s : State) : Host.Outcome State Fault Refusal :=
  if !s.verifying then .next s
  else
    let s := { s with verifying := false, fwState := fwVerdict svn image }
    match image with
    | some m =>
      .next (if fwVerdict svn image = 0x01 then
        { s with fwSvn := svn, fwMeasure := fwDigest m svn, khmod := Config.moduleNumber } else s)
    | none => .next s

/-! ## The firmware mailbox (R26, R27) -/

/-- A write to FWMCMD: ignored while a command is in progress. -/
def State.fwCommand (s : State) (tag cmd : Byte) : State :=
  if s.fwm.busy then s else { s with fwm := { s.fwm with cmd, tag, busy := true } }

def execFwAttest (tag : Byte) (s : State) : Host.Outcome State Fault Refusal := .next (s.fwCommand tag 1)
def execFwIdkey (tag : Byte) (s : State) : Host.Outcome State Fault Refusal := .next (s.fwCommand tag 2)
def execFwmUnknownCommand (tag cmd : Byte) (s : State) : Host.Outcome State Fault Refusal :=
  .next (if cmd = 1 || cmd = 2 then s else s.fwCommand tag cmd)

/-- Bytes 0x00 to 0x4F of the report (R27). -/
def State.reportBody (s : State) : List Byte :=
  bytesOfNat 4 1 ++ bytesOfNat 4 Config.bootRomVersion.toNat ++ bytesOfNat 4 s.fwSvn.toNat ++ bytesOfNat 4 s.khmod.toNat ++
    s.fwMeasure ++ Tab.getRange 0 s.fwm.buf 0 32

/-- A signature by the device identity key, r then s: under the first secret number that gives one. -/
def identitySign (digest : List Byte) : List Byte :=
  match (List.range 256).findSome? fun i =>
      ecdsaSign Config.identityKey.toNat ((Config.signSecret digest i).toNat % p256N) digest with
  | some (r, s) => beBytes 32 r ++ beBytes 32 s
  | none => List.replicate 64 0

/-- The public identity key, X then Y. -/
def identityPublic : List Byte :=
  let q := publicKey Config.identityKey.toNat
  beBytes 32 q.1 ++ beBytes 32 q.2

/-- The report with its signature over the body. -/
def State.report (s : State) : List Byte := s.reportBody ++ identitySign (sha256 s.reportBody)

/-- A command ends: output, TAG and result, BUSY. -/
def State.fwDone (s : State) (out : List Byte) (result : Byte) : State :=
  { s with fwm := { s.fwm with busy := false, done := s.fwm.tag, result, buf := Tab.putRange 0 s.fwm.buf 0 out } }

/-- FWM_COMMAND_COMPLETE: ATTEST is refused in recovery, IDKEY is served by the boot ROM there. -/
def execFwmCommandComplete (s : State) : Host.Outcome State Fault Refusal :=
  if !s.fwm.busy then .next s
  else if s.fwm.cmd = 1 then .next (if s.fwState = 1 then s.fwDone s.report 0 else s.fwDone [] 2)
  else if s.fwm.cmd = 2 then .next (s.fwDone identityPublic 0)
  else .next (s.fwDone [] 1)

/-! ## Power states (R29) -/

/-- What keeps the module in M0: a resident team, a queued or parked task, a live episode, a pair that is not FREE. -/
def State.busyWork (s : State) : Bool :=
  let queued := fun (x : Ctx) => (List.range 4).any (fun p => (x.queue p).enabled && (x.queue p).head != (x.queue p).tail) ||
    x.spHead != x.spTail
  !s.teams.isEmpty || !s.tasks.isEmpty || !s.records.isEmpty || (s.ctxs.any fun c => queued c.2) || !s.episodes.isEmpty ||
    s.pairs.any fun p => p.2.st != .free

/-- Entry to M3: memory and caches are lost, and what was under way between the units; host memory and the register window
stay. -/
def State.loseMemory (s : State) : State :=
  { s with
    mem := s.mem.filter fun c => !keyOnDevice c.1
    poison := s.poison.filter fun c => !keyOnDevice c.1
    scratch := [], l1 := [], far := [], constK := [], tlb := [], walks := [], cols := [], ibuf := []
    ports := [], farBanks := [], links := [], asks := []
    regroups := s.regroups.map fun (n, r) => (n, { r with cache := [], loads := [] }) }

/-- A request for M1, M2 or M3. In another low-power state, or during an exit, it is taken at once, and where an access
from outside still waits the exit begins anew (log 63). -/
def State.powerDown (s : State) (st : BitVec 2) : State :=
  if s.busyWork then { s with pwrRefused := true }
  else
    let s := { s with pwrState := st, pwrExit := none, pwrRefused := false }
    let s := if st = 3 then s.loseMemory else s
    if s.waking.isEmpty then s else s.wake

def execPwrReqM0 (s : State) : Host.Outcome State Fault Refusal := .next { s.wake with pwrRefused := false }
def execPwrReqM1 (s : State) : Host.Outcome State Fault Refusal := .next (s.powerDown 1)
def execPwrReqM2 (s : State) : Host.Outcome State Fault Refusal := .next (s.powerDown 2)
def execPwrReqM3 (s : State) : Host.Outcome State Fault Refusal := .next (s.powerDown 3)

def execPowerWake (s : State) : Host.Outcome State Fault Refusal := .next s.wake

/-- POWER_EXIT_COMPLETE: the module is in M0, and the accesses that have woken it come first. -/
def execPowerExitComplete (s : State) : Host.Outcome State Fault Refusal :=
  match s.pwrExit with
  | some at' =>
    .next (if at' ≤ s.tick then { s with pwrState := 0, pwrExit := none, inputs := s.waking ++ s.inputs, waking := [] } else s)
  | none => .next s

/-! ## Throttling (R30) -/

/-- THROTTLE_LIMIT_CHANGE: the reasons now in force, with their sticky copies. -/
def execThrottleLimitChange (limits : BitVec 4) (s : State) : Host.Outcome State Fault Refusal :=
  .next { s with limits, thSeen := s.thSeen ||| limits }

/-- The clock after a step: down while a limit is exceeded, up once all are met. -/
def steppedClock (limits : BitVec 4) (mhz : Nat) : Nat := if limits = 0 then min 1200 (mhz + 100) else max 600 (mhz - 100)

/-- THROTTLE_STEP: at most one step in 10 ticks. -/
def execThrottleStep (s : State) : Host.Outcome State Fault Refusal :=
  .next (if s.throttleAt ≤ s.tick && steppedClock s.limits s.clkMHz != s.clkMHz then
      { s with clkMHz := steppedClock s.limits s.clkMHz, throttleAt := s.tick + 10 }
    else s)

/-! ## Diagnostic mode (R114) -/

/-- DIAGNOSTIC_MODE_CHANGE: no context's work runs in it, so it is not entered while a team is resident. -/
def execDiagnosticModeChange (on : Bool) (s : State) : Host.Outcome State Fault Refusal :=
  .next (if on && !s.teams.isEmpty then s else { s with diagMode := on })

end Sys2Proof.Machine
end

