-- ==== Sys2Proof/Machine/Debug.lean ====
section
/-!
DEFINITION. The debugger, the state window, sampling and the chunk limit (spec/29 R406 to R409, R413).
-/

namespace Sys2Proof.Machine

/-! ## Positions and commands (R406) -/

def Ctx.posInst (x : Ctx) : Word := x.dbgPos.extractLsb' 32 32
def Ctx.posWarp (x : Ctx) : Nat := (x.dbgPos.extractLsb' 19 5).toNat
def Ctx.posSlice (x : Ctx) : Nat := (x.dbgPos.extractLsb' 16 3).toNat

/-- The team that DBGPOS names. -/
def State.dbgTeam? (s : State) (c : Nat) : Option Team := s.teams.find? fun t => t.ctx == c && t.inst == (s.ctxOf c).posInst

/-- Run a command on the team named; result 2 where there is none. -/
def State.dbgCommand (s : State) (c : Nat) (f : Team → State) : Host.Outcome State Fault Refusal :=
  match s.dbgTeam? c with
  | some t => .next (f t)
  | none => .next (s.dbgResult c (s.ctxOf c).posInst 2)

/-- A drain gang whose pre-emption a halt has deferred is asked to leave once no team of it is halted (R406). -/
def State.endDeferral (s : State) (gang : Nat) : State :=
  match s.gang? gang with
  | some g => if g.pending && !s.gangHalted gang then s.preemptGang g else s
  | none => s

/-- BREAKPOINT_HIT: the split stands at an enabled breakpoint of its context. -/
def Ctx.breaksAt (x : Ctx) (pc : Addr) : Bool := x.bpAddr.any fun b => b.getLsbD 0 && b &&& ~~~3#64 == pc

def execBreakpointHit (x : Sel) (s : State) : Host.Outcome State Fault Refusal :=
  match s.viewOf? x with
  | some v => .next (if (s.ctxOf v.ctx).breaksAt v.pc && !v.team.halted then s.haltTeam v.team.uid else s)
  | none => .next s

def execDbgHalt (c : Nat) (s : State) : Host.Outcome State Fault Refusal :=
  s.dbgCommand c fun t => (s.haltTeam t.uid).dbgResult c t.inst 0

/-- Every split of the team goes on. -/
def State.resumeTeam (s : State) (t : Team) : State :=
  (s.modTeam t.uid fun t => { t with halted := false, stepping := none }).endDeferral t.gang

def execDbgResume (c : Nat) (s : State) : Host.Outcome State Fault Refusal :=
  s.dbgCommand c fun t => (s.resumeTeam t).dbgResult c t.inst 0

/-- DBG_STEP: refused where the team is not halted or the slice has no split; busy until the instruction has issued. -/
def execDbgStep (c : Nat) (s : State) : Host.Outcome State Fault Refusal :=
  s.dbgCommand c fun t =>
    let x : Sel := ⟨t.uid, (s.ctxOf c).posWarp, (s.ctxOf c).posSlice⟩
    if t.halted && (s.viewOf? x).isSome then (s.modTeam t.uid fun t => { t with stepping := some x }).dbgResult c t.inst 1
    else s.dbgResult c t.inst 3

/-- DBG_KILL: a kill of one team by the host. -/
def execDbgKill (c : Nat) (s : State) : Host.Outcome State Fault Refusal :=
  s.dbgCommand c fun t => ((s.killTeam t.uid 0xFF 0 0).endDeferral t.gang).dbgResult c t.inst 0

/-- DBG_HALTALL: setting the bit halts the context's teams. -/
def execDbgHaltall (c : Nat) (on : Bool) (s : State) : Host.Outcome State Fault Refusal :=
  let s := s.modCtx c fun x => { x with dbgCtl := if on then x.dbgCtl ||| 1 else x.dbgCtl &&& ~~~1#64 }
  .next (if on then (s.teams.filter (·.ctx == c)).foldl (fun s t => s.haltTeam t.uid) s else s)

/-! ## Stops (R407) -/

/-- The stop is in force: the team runs until the slice has retired the count. -/
def State.runToStop (s : State) (c : Nat) (t : Team) (q : StopReq) : State :=
  ((s.resumeTeam t).modCtx c fun x => { x with stop := some { q with team := some t.uid } }).dbgResult c t.inst 1

/-- DBG_STOP, by the cases of R407 in their order. -/
def execDbgStop (c : Nat) (region : Bool) (target : Word) (s : State) : Host.Outcome State Fault Refusal :=
  s.dbgCommand c fun t =>
    let x := s.ctxOf c
    match s.gang? t.gang, t.warp? x.posWarp with
    | some g, some w =>
      let q : StopReq := {
        inst := t.inst, team := none, task := g.task, num := t.num, warp := x.posWarp, slice := x.posSlice, target }
      let retired := (w.sl x.posSlice).retired
      if !region && !g.drain && target.toNat ≤ retired.toNat then
        ((s.modCtx c fun x => { x with stop := some q }).discardGang g.uid .unplaced).dbgResult c t.inst 1
      else if target.toNat > retired.toNat then
        if (w.sl x.posSlice).live = 0 then (s.haltTeam t.uid).dbgResult c t.inst 4 else s.runToStop c t q
      else s.dbgResult c t.inst 3
    | _, _ => s.dbgResult c t.inst 2

/-! ## The state window (R408) -/

/-- Where an offset of the window lies. -/
inductive WinPlace where
  | entry (e l : Nat)
  | slice (k o : Nat)
  | outside
  deriving DecidableEq, Repr

def winPlace (off : Nat) : WinPlace :=
  if 0x40000 ≤ off && off < 0x60000 then .entry ((off - 0x40000) / 128) ((off - 0x40000) % 128 / 4)
  else if 0x60000 ≤ off && off < 0x62000 then .slice ((off - 0x60000) / 0x400) ((off - 0x60000) % 0x400 / 4 * 4)
  else .outside

def half64 (hi : Bool) (x : BitVec 64) : Word := if hi then x.extractLsb' 32 32 else x.extractLsb' 0 32
def setHalf64 (hi : Bool) (x : BitVec 64) (v : Word) : BitVec 64 :=
  if hi then v ++ x.extractLsb' 0 32 else x.extractLsb' 32 32 ++ v

/-- The word of a deferral-stack entry: not-taken address, reconvergence address, lanes, phase, recorded lanes (log 28). -/
def DefEntry.word (e : DefEntry) (i : Nat) : Word :=
  match i with
  | 0 | 1 => half64 (i == 1) e.addr
  | 2 | 3 => half64 (i == 3) e.reconv
  | 4 => e.lanes.zeroExtend 32
  | 5 => if e.deferred then 1 else 0
  | 6 => e.recorded.zeroExtend 32
  | _ => 0

def DefEntry.setWord (e : DefEntry) (i : Nat) (v : Word) : DefEntry :=
  match i with
  | 0 | 1 => { e with addr := setHalf64 (i == 1) e.addr v }
  | 2 | 3 => { e with reconv := setHalf64 (i == 3) e.reconv v }
  | 4 => { e with lanes := v.truncate 4 }
  | 5 => { e with deferred := v.getLsbD 0 }
  | 6 => { e with recorded := v.truncate 4 }
  | _ => e

/-- The address at which a slice stands. -/
def Warp.pcOf (w : Warp) (k : Nat) : Addr := ((w.splitOf? k).map (·.pc)).getD 0

/-- Entry i of the return stack: beyond the depth, what the window has put there (log 28). -/
def Slice.retEntry (sl : Slice) (i : Nat) : Addr := (sl.rstack[i]?).getD (Tab.get 0 sl.rspare i)

def Slice.modRet (sl : Slice) (i : Nat) (f : Addr → Addr) : Slice :=
  if i < sl.rstack.length then { sl with rstack := modNth f i sl.rstack } else { sl with rspare := Tab.upd 0 sl.rspare i f }

/-- Entry i of the deferral stack, the top one first. -/
def Slice.defEntry (sl : Slice) (i : Nat) : DefEntry := (sl.dstack[i]?).getD (Tab.get {} sl.dspare i)

def Slice.modDef (sl : Slice) (i : Nat) (f : DefEntry → DefEntry) : Slice :=
  if i < sl.dstack.length then { sl with dstack := modNth f i sl.dstack } else { sl with dspare := Tab.upd {} sl.dspare i f }

/-- The word at offset o of slice k's block. -/
def Warp.winSlice (w : Warp) (k o : Nat) : Word :=
  let sl := w.sl k
  if o < 0x100 then sl.s (o / 4)
  else if 0x180 ≤ o && o < 0x200 then half64 (o / 4 % 2 == 1) (sl.retEntry ((o - 0x180) / 8))
  else if 0x200 ≤ o && o < 0x300 then (sl.defEntry ((o - 0x200) / 32)).word (o % 32 / 4)
  else
    match o with
    | 0x100 => sl.q.zeroExtend 32
    | 0x104 | 0x108 => half64 (o == 0x108) (w.pcOf k)
    | 0x10C => sl.act.zeroExtend 32
    | 0x110 => BitVec.ofNat 32 sl.part
    | 0x114 => sl.retired
    | 0x118 => if sl.inHandler then 1 else 0
    | 0x11C => BitVec.ofNat 32 sl.rstack.length
    | 0x120 => sl.trapCode
    | 0x124 => sl.trapPc
    | 0x128 => sl.trapInfo
    | _ => 0

/-- A write of that word. A write of the program counter moves the split that holds the slice; PART takes a legal width
only, and the depth of the return stack at most 16 (log 28). -/
def Warp.setWinSlice (w : Warp) (k o : Nat) (v : Word) : Warp :=
  if o < 0x100 then w.modSl k (·.setS (o / 4) v)
  else if 0x180 ≤ o && o < 0x200 then
    w.modSl k (·.modRet ((o - 0x180) / 8) fun a => setHalf64 (o / 4 % 2 == 1) a v)
  else if 0x200 ≤ o && o < 0x300 then
    w.modSl k (·.modDef ((o - 0x200) / 32) fun e => e.setWord (o % 32 / 4) v)
  else
    match o with
    | 0x100 => w.modSl k fun sl => { sl with q := v.truncate 7 }
    | 0x104 | 0x108 => { w with splits := modFirst (·.mask.getLsbD k) (fun (sp : Split) => { sp with
        pc := setHalf64 (o == 0x108) sp.pc v &&& ~~~3#64 }) w.splits }
    | 0x10C => w.modSl k fun sl => { sl with act := v.truncate 4 &&& sl.live }
    | 0x110 => w.modSl k fun sl => { sl with part := if [2, 4, 8, 16, 32].contains v.toNat then v.toNat else sl.part }
    | 0x114 => w.modSl k fun sl => { sl with retired := v }
    | 0x118 => w.modSl k fun sl => { sl with inHandler := v.getLsbD 0 }
    | 0x11C => w.modSl k fun sl => { sl with rstack := (List.range (min v.toNat 16)).map sl.retEntry }
    | 0x120 => w.modSl k fun sl => { sl with trapCode := v &&& 0x1F00FF }
    | 0x124 => w.modSl k fun sl => { sl with trapPc := v }
    | 0x128 => w.modSl k fun sl => { sl with trapInfo := v }
    | _ => w

/-- The halted warp that DBGPOS of context c names. -/
def State.winWarp? (s : State) (c : Nat) : Option (Team × Warp) :=
  (s.dbgTeam? c).bind fun t => if t.halted then (t.warp? (s.ctxOf c).posWarp).map fun w => (t, w) else none

/-- What the state window reads: 0 for a team that is not halted. -/
def State.readWindow (s : State) (c off : Nat) : Word :=
  match s.winWarp? c with
  | none => 0
  | some (_, w) =>
    match winPlace off with
    | .entry e l => if e < w.budget then w.v e l else 0
    | .slice k o => w.winSlice k o
    | .outside => 0

/-- STATE_WINDOW_WRITE. -/
def execStateWindowWrite (c off : Nat) (v : Word) (s : State) : Host.Outcome State Fault Refusal :=
  match s.winWarp? c with
  | none => .next s
  | some (t, w) =>
    match winPlace off with
    | .entry e l => .next (if e < w.budget then s.modWarp t.uid w.num (·.setV e l v) else s)
    | .slice k o => .next (s.modWarp t.uid w.num (·.setWinSlice k o v))
    | .outside => .next s

/-! ## Sampling (R409) -/

/-- The stall reason of a wait (spec/03 R55). -/
def Wait.reason : Wait → Nat
  | .none => 11
  | .stall r => r
  | .regang => 15
  | .barrier _ _ _ => 7
  | .waitc => 9
  | .walk r => r
  | .parked _ r => r

/-- State and stall reason of a split in a sample; a split that wants its instruction's words is in state FETCH. -/
def sampleState (clock : Nat) (t : Team) (w : Warp) (sp : Split) : Nat × Nat :=
  if t.halted then (4, 0)
  else if (w.sl (lowestBit 8 sp.mask.toNat)).inHandler then (5, 0)
  else
    if sp.lastIssue = clock then (0, 0)
    else
      match sp.wait with
      | .stall 0 | .walk 0 | .parked _ 0 => (2, 0)
      | wt => (1, wt.reason)

/-- A sample's record. -/
def sampleRecord (t : Team) (drain : Bool) (warp slice : Nat) (retired : Word) (pc : Addr) (st : Nat × Nat) : List Byte :=
  bytesOfNat 4 (3 + 256) ++ bytesOfNat 4 t.inst.toNat ++
    bytesOfNat 4 (warp + slice * 2 ^ 8 + if drain then 2 ^ 11 else 0) ++ bytesOfNat 4 retired.toNat ++
    bytesOfNat 4 pc.toNat ++ bytesOfNat 4 (st.1 + st.2 * 16) ++ bytesOfNat 8 0

/-- The least recently issued split of a warp. -/
def oldestSplit : List Split → Option Split
  | [] => none
  | sp :: rest =>
    match oldestSplit rest with
    | some b => if b.lastIssue < sp.lastIssue then some b else some sp
    | none => some sp

/-- The splits of a warp that have exited in this clock. -/
def Warp.exitsNow (w : Warp) (clock : Nat) : List Exited := w.exits.filter fun x => x.clock == clock && (w.sl x.slice).live == 0

/-- The sample of one warp: its least recently issued split, where one that has just exited has issued in this clock. -/
def State.sampleWarp (s : State) (t : Team) (w : Warp) : Option (List Byte) :=
  let drain := ((s.gang? t.gang).map (·.drain)).getD false
  match oldestSplit w.splits, w.exitsNow s.clock with
  | some sp, _ =>
    let k := lowestBit 8 sp.mask.toNat
    some (sampleRecord t drain w.num k (w.sl k).retired sp.pc (sampleState s.clock t w sp))
  | none, x :: _ => some (sampleRecord t drain w.num x.slice (w.sl x.slice).retired x.pc (3, 0))
  | none, [] => none

/-- The sample interval of a context. -/
def Ctx.sampleEvery (x : Ctx) : Nat := (x.dbgCtl.extractLsb' 32 32).toNat

/-- The contexts whose interval ends in this clock. -/
def State.samplesDue (s : State) : List Nat :=
  (s.ctxs.filter fun c => c.2.sampleEvery != 0 && s.clock % c.2.sampleEvery == 0).map (·.1)

/-- A core's sample for a context: the next warp of the round robin that has a split, or has just lost its last. -/
def State.sampleCtx (s : State) (core c : Nat) : State :=
  let ws := (s.coreWarps core).filter fun x => x.1.ctx == c && (s.sampleWarp x.1 x.2).isSome
  let n := Tab.get 0 s.sampleAt (64 * core + c)
  match ws[n % ws.length]? with
  | none => s
  | some (t, w) =>
    { s with sampleAt := Tab.put 0 s.sampleAt (64 * core + c) (n % ws.length + 1) }.traceRecord c ((s.sampleWarp t w).getD [])

def execSampleTake (core : Nat) (s : State) : Host.Outcome State Fault Refusal :=
  .next (s.samplesDue.foldl (fun s c => s.sampleCtx core c) s)

/-! ## Chunks (R413) -/

/-- RECORD_CHUNK_LIMIT: a chunk of 65,536 retired instructions ends, or one that a replay has brought to its logged size:
its dirty bytes are written back as at its end when it was recorded (log 30). -/
def execRecordChunkLimit (team : Nat) (s : State) : Host.Outcome State Fault Refusal :=
  match s.team? team with
  | some t =>
    .next (if t.replayed then (if t.chunk = 0 then s.writeBack t.core (·.2.owner == team) else s)
      else if t.chunk ≥ 65536 then s.endChunk team else s)
  | none => .next s

end Sys2Proof.Machine
end

