-- ==== Sys2Proof/Machine/Moves.lean ====
section
/-!
DEFINITION. Moves, predicate logic and random words (spec/11 R204 to R209).
-/

namespace Sys2Proof.Machine

def execMov (f : LU) (s : State) := s.luOp (.mov f) fun v l => { vs := [(f.vd.toNat, v.vec f.va l)] }

def execMovUniform (f : LU) (s : State) :=
  s.luOp (.movUniform f) fun v l => { vs := [(f.vd.toNat, v.sOf (f.va.extractLsb' 0 6).toNat l)] }

def execMovB64 (f : LU) (s : State) :=
  s.luOp (.movB64 f) fun v l => { vs := writesOf 2 f.vd (v.vec64 f.va l).toNat }

def execMovImm (f : LI) (s : State) := s.laneOp (.movImm f) f.g f.gn 8 fun _ _ => { vs := [(f.vd.toNat, f.imm)] }

/-- A predicate named by bits [2:0] of a field; p7 reads true. -/
def View.pOf (v : View) (x : BitVec 8) (l : Nat) : Bool := v.warp.p (x.extractLsb' 0 3).toNat l

def execPlop (f : LR) (s : State) :=
  s.lrOp (.plop f) f fun v l =>
    { ps := [((f.vd.extractLsb' 0 3).toNat, lut3 f.s.toNat (v.pOf f.va l) (v.pOf f.vb l) (v.pOf f.vc l))] }

def execPmovGet (f : LR) (s : State) :=
  s.lrOp (.pmovGet f) f fun v l => { vs := [(f.vd.toNat, BitVec.ofNat 32 (bitsFrom 7 fun n => v.warp.p n l))] }

def execPmovSet (f : LR) (s : State) :=
  s.lrOp (.pmovSet f) f fun v l => { ps := (List.range 7).map fun n => (n, (v.vec f.va l).getLsbD n) }

/-- The counter-based random word (R209). -/
def rngWord (key : BitVec 64) (ctr : Word) (warp l k : Nat) : Word :=
  let x0 := (ctr ++ (BitVec.ofNat 32 (warp * 256 + l * 2 + k)) : BitVec 64) ^^^ key
  let round := fun (x : BitVec 64) => let y := x * 0xD1B54A32D192ED03; y ^^^ (y >>> 32)
  (round (round (round (round x0)))).truncate 32

/-- RNG: RNGCTR rises by one in every slice of the split, whatever the guard (R208). -/
def execRng (f : LR) (s : State) :=
  s.run (.rng f) fun v =>
    let word := fun l k =>
      let sl := v.warp.sl (l / 4)
      rngWord (sl.rngHi ++ sl.rngLo) sl.rngCtr v.warp.num l k
    let out := fun l : Nat =>
      if f.w = 2 then word l 1 ++ word l 0
      else if f.s.getLsbD 0 then BitVec.ofNat 64 (fp32.round 0 false ⟨false, (word l 0).toNat / 256, -24⟩).1
      else (word l 0).zeroExtend 64
    let w := v.warp.writeLanes ((v.part f.g f.gn).map fun l => (l, { vs := writesOf f.w f.vd (out l).toNat }))
    .ok (s.retire v (w.modSls v.split.mask fun sl => { sl with rngCtr := sl.rngCtr + 1 }) 0 8)

end Sys2Proof.Machine
end

