-- ==== Sys2Proof/Machine/Registers.lean ====
section
/-!
DEFINITION. The register window (spec/00 R6; spec/01 R19 to R30; spec/19 R302, R303, R323; spec/21 R326; spec/23 R345;
spec/25 R362; spec/29 R402, R406, R411, R412): where each register lies, what it reads, and what a write of it does.
-/

namespace Sys2Proof.Machine

/-- A register of the window; c is a context, p a queue. -/
inductive Reg where
  | khid | khcap | khmod | pwrctl | pwrstat | snapctl | cecnt | khfwst | fwmcmd | fwmstat
  | fwmbuf (i : Nat)
  | snapWord (off : Nat)
  | peermap (m : Nat)
  | qbase (c p : Nat) | qsize (c p : Nat) | qhead (c p : Nat) | qtail (c p : Nat)
  | qerr (c : Nat)
  | depbase (c : Nat) | depsize (c : Nat) | spbase (c : Nat) | spsize (c : Nat) | sphead (c : Nat) | sptail (c : Nat)
  | drainb (c : Nat) | ctxctl (c : Nat) | ctxstat (c : Nat)
  | wsbase (c : Nat) | wssize (c : Nat)
  | twtbase (c : Nat) | twovbase (c : Nat) | twtags (c : Nat) | tworph (c : Nat) | twspill (c : Nat) | tworphn (c : Nat)
  | epqbase (c : Nat) | epqsize (c : Nat) | epqhead (c : Nat) | epqtail (c : Nat) | epnext (c : Nat) | epkill (c : Nat)
  | ptroot (c : Nat) | tlbinv (c : Nat) | fqbase (c : Nat) | fqsize (c : Nat) | fqhead (c : Nat) | fqtail (c : Nat)
  | fqlost (c : Nat) | pgresp (c : Nat) | tlbstat (c : Nat) | teamwd (c : Nat)
  | dbgctl (c : Nat) | dbgpos (c : Nat) | dbgcmd (c : Nat) | dbgstat (c : Nat) | bpaddr (c i : Nat)
  | trbase (c : Nat) | trsize (c : Nat) | trhead (c : Nat) | trtail (c : Nat) | trlost (c : Nat)
  | rlbase (c : Nat) | rlsize (c : Nat) | rlhead (c : Nat) | rltail (c : Nat)
  deriving DecidableEq, Repr

/-! ## The map: offset within a block, width in bytes, register -/

def moduleRegs : List (Nat × Nat × Reg) :=
  [(0x00, 4, .khid), (0x04, 4, .khcap), (0x08, 4, .khmod), (0x10, 4, .pwrctl), (0x14, 4, .pwrstat), (0x18, 4, .snapctl),
   (0x1C, 4, .cecnt), (0x20, 4, .khfwst), (0x100, 4, .fwmcmd), (0x104, 4, .fwmstat)]

def queueRegs (c p : Nat) : List (Nat × Nat × Reg) :=
  [(0x00, 8, .qbase c p), (0x08, 8, .qsize c p), (0x10, 8, .qhead c p), (0x18, 8, .qtail c p)]

def taskRegs (c : Nat) : List (Nat × Nat × Reg) :=
  [(0x00, 8, .depbase c), (0x08, 8, .depsize c), (0x10, 8, .spbase c), (0x18, 8, .spsize c), (0x20, 4, .sphead c),
   (0x24, 4, .sptail c), (0x28, 4, .drainb c), (0x2C, 4, .ctxctl c), (0x30, 4, .ctxstat c)]

def weightRegs (c : Nat) : List (Nat × Nat × Reg) := [(0x00, 8, .wsbase c), (0x08, 4, .wssize c)]

def twillRegs (c : Nat) : List (Nat × Nat × Reg) :=
  [(0x00, 8, .twtbase c), (0x08, 8, .twovbase c), (0x10, 4, .twtags c), (0x14, 4, .tworph c), (0x18, 4, .twspill c),
   (0x1C, 4, .tworphn c)]

def episodeRegs (c : Nat) : List (Nat × Nat × Reg) :=
  [(0x00, 8, .epqbase c), (0x08, 4, .epqsize c), (0x0C, 4, .epqhead c), (0x10, 4, .epqtail c), (0x14, 4, .epnext c),
   (0x18, 4, .epkill c)]

def faultRegs (c : Nat) : List (Nat × Nat × Reg) :=
  [(0x00, 8, .ptroot c), (0x08, 8, .tlbinv c), (0x10, 8, .fqbase c), (0x18, 4, .fqsize c), (0x1C, 4, .fqhead c),
   (0x20, 4, .fqtail c), (0x24, 4, .fqlost c), (0x28, 8, .pgresp c), (0x30, 4, .tlbstat c), (0x34, 4, .teamwd c)]

def debugRegs (c : Nat) : List (Nat × Nat × Reg) :=
  [(0x00, 8, .dbgctl c), (0x08, 8, .dbgpos c), (0x10, 8, .dbgcmd c), (0x18, 8, .dbgstat c), (0x20, 8, .bpaddr c 0),
   (0x28, 8, .bpaddr c 1), (0x30, 8, .bpaddr c 2), (0x38, 8, .bpaddr c 3), (0x40, 8, .trbase c), (0x48, 4, .trsize c),
   (0x4C, 4, .trhead c), (0x50, 4, .trtail c), (0x54, 4, .trlost c), (0x58, 8, .rlbase c), (0x60, 4, .rlsize c),
   (0x64, 4, .rlhead c), (0x68, 4, .rltail c)]

/-- The block of an offset: its start and its registers. -/
def blockAt (off : Nat) : Nat × List (Nat × Nat × Reg) :=
  if off < 0x200 then (0, moduleRegs)
  else if off < 0x300 then (off, [(0, 1, .fwmbuf (off - 0x200))])
  else if off < 0x10000 then (0, [])
  else if off < 0x12000 then
    let n := (off - 0x10000) / 0x20
    (0x10000 + 0x20 * n, queueRegs (n / 4) (n % 4))
  else if off < 0x12100 then (off / 4 * 4, [(0, 4, .peermap ((off - 0x12000) / 4))])
  else if off < 0x12800 then (0, [])
  else if off < 0x12A00 then (off / 8 * 8, [(0, 4, .qerr ((off - 0x12800) / 8))])
  else if off < 0x13000 then (0, [])
  else if off < 0x14000 then (off / 0x40 * 0x40, taskRegs ((off - 0x13000) / 0x40))
  else if off < 0x14400 then (off / 0x10 * 0x10, weightRegs ((off - 0x14000) / 0x10))
  else if off < 0x15000 then (0, [])
  else if off < 0x15800 then (off / 0x20 * 0x20, twillRegs ((off - 0x15000) / 0x20))
  else if off < 0x16000 then (0, [])
  else if off < 0x16800 then (off / 0x20 * 0x20, episodeRegs ((off - 0x16000) / 0x20))
  else if off < 0x17000 then (0, [])
  else if off < 0x18000 then (off / 0x40 * 0x40, faultRegs ((off - 0x17000) / 0x40))
  else if off < 0x1A000 then (off / 0x80 * 0x80, debugRegs ((off - 0x18000) / 0x80))
  else if 0x80000 ≤ off && off < 0x90000 then (off / 4 * 4, [(0, 4, .snapWord off)])
  else (0, [])

/-- The register that holds the byte at an offset: the register, its first offset, its width. -/
def regAt (off : Nat) : Option (Reg × Nat × Nat) :=
  let b := blockAt off
  (b.2.find? fun r => decide (b.1 + r.1 ≤ off) && decide (off < b.1 + r.1 + r.2.1)).map fun r => (r.2.2, b.1 + r.1, r.2.1)

/-! ## Reading -/

def khidValue : Nat := 0x4B09 * 2 ^ 16 + Config.stepping.toNat * 2 ^ 12 + 0x4 * 2 ^ 8 + 0x5F
def khcapValue : Nat := 0x40 * 2 ^ 16 + 0x08 * 2 ^ 8 + 0x08

def State.pwrStat (s : State) : Nat :=
  s.clkMHz * 2 ^ 20 + s.limits.toNat * 2 ^ 16 + s.thSeen.toNat * 2 ^ 12 + (if s.pwrRefused then 2 ^ 8 else 0) + s.pwrState.toNat

/-- A pre-emption of the context is in progress. -/
def State.preempting (s : State) (c : Nat) : Bool :=
  s.gangs.any fun g => g.ctx == c && (g.pending || s.teams.any fun t => t.gang == g.uid && t.preempt)

def State.haltedTeams (s : State) (c : Nat) : Nat := s.teams.countP fun t => t.ctx == c && t.halted

/-- What a register reads; a write-only register reads 0 (log 29). -/
def State.readReg (s : State) : Reg → Nat
  | .khid => khidValue
  | .khcap => khcapValue
  | .khmod => s.khmod.toNat
  | .pwrctl => 0
  | .pwrstat => s.pwrStat
  | .snapctl => (if s.snapFired then 4 else 0) + (if s.snapExten then 2 else 0) + if s.snapArm then 1 else 0
  | .cecnt => s.cecnt.toNat
  | .khfwst => s.fwSvn.toNat * 2 ^ 16 + s.fwState.toNat
  | .fwmcmd => s.fwm.tag.toNat * 2 ^ 8 + s.fwm.cmd.toNat
  | .fwmstat => (if s.fwm.busy then 2 ^ 31 else 0) + s.fwm.done.toNat * 2 ^ 8 + s.fwm.result.toNat
  | .fwmbuf i => (Tab.get 0 s.fwm.buf i).toNat
  | .snapWord off => if s.snapFired then (Tab.get 0 s.snap (off / 4)).toNat else 0
  | .peermap m =>
    let e := Tab.get (false, (0 : Byte)) s.peerMap m
    (if e.1 then 2 ^ 8 else 0) + e.2.toNat
  | .qbase c p => ((s.ctxOf c).queue p).base.toNat
  | .qsize c p => ((s.ctxOf c).queue p).size.toNat
  | .qhead c p => ((s.ctxOf c).queue p).head.toNat
  | .qtail c p => ((s.ctxOf c).queue p).tail.toNat
  | .qerr c => (s.ctxOf c).qerr.toNat
  | .depbase c => (s.ctxOf c).depBase.toNat
  | .depsize c => (s.ctxOf c).depSize.toNat
  | .spbase c => (s.ctxOf c).spBase.toNat
  | .spsize c => (s.ctxOf c).spSize.toNat
  | .sphead c => (s.ctxOf c).spHead.toNat
  | .sptail c => (s.ctxOf c).spTail.toNat
  | .drainb c => (s.ctxOf c).drainB.toNat
  | .ctxctl c => (if (s.ctxOf c).kill then 2 else 0) + if (s.ctxOf c).hold then 1 else 0
  | .ctxstat c => s.gangs.countP (fun g => g.ctx == c) % 2 ^ 16 + if s.preempting c then 2 ^ 16 else 0
  | .wsbase c => (s.ctxOf c).wsBase.toNat
  | .wssize c => (s.ctxOf c).wsSize.toNat
  | .twtbase c => (s.ctxOf c).twtBase.toNat
  | .twovbase c => (s.ctxOf c).twOvBase.toNat
  | .twtags c => (s.ctxOf c).twTags.toNat
  | .tworph c => (s.ctxOf c).twOrph.toNat
  | .twspill c => (s.ctxOf c).twSpill.toNat
  | .tworphn c => (s.ctxOf c).twOrphN.toNat
  | .epqbase c => (s.ctxOf c).epqBase.toNat
  | .epqsize c => (s.ctxOf c).epqSize.toNat
  | .epqhead c => (s.ctxOf c).epqHead.toNat
  | .epqtail c => (s.ctxOf c).epqTail.toNat
  | .epnext c => (s.ctxOf c).epNext % 2 ^ 20
  | .epkill _ => 0
  | .ptroot c => (s.ctxOf c).ptRoot.toNat
  | .tlbinv _ => 0
  | .fqbase c => (s.ctxOf c).fqBase.toNat
  | .fqsize c => (s.ctxOf c).fqSize.toNat
  | .fqhead c => (s.ctxOf c).fqHead.toNat
  | .fqtail c => (s.ctxOf c).fqTail.toNat
  | .fqlost c => (s.ctxOf c).fqLost.toNat
  | .pgresp _ => 0
  | .tlbstat c => if (s.ctxOf c).tlbInv.isSome then 1 else 0
  | .teamwd c => (s.ctxOf c).teamWd.toNat
  | .dbgctl c => (s.ctxOf c).dbgCtl.toNat
  | .dbgpos c => (s.ctxOf c).dbgPos.toNat
  | .dbgcmd _ => 0
  | .dbgstat c => (s.ctxOf c).dbgStat.toNat / 2 ^ 16 * 2 ^ 16 + s.haltedTeams c % 2 ^ 16
  | .bpaddr c i => ((s.ctxOf c).bpAddr.getD i 0).toNat
  | .trbase c => (s.ctxOf c).trBase.toNat
  | .trsize c => (s.ctxOf c).trSize.toNat
  | .trhead c => (s.ctxOf c).trHead.toNat
  | .trtail c => (s.ctxOf c).trTail.toNat
  | .trlost c => (s.ctxOf c).trLost.toNat
  | .rlbase c => (s.ctxOf c).rlBase.toNat
  | .rlsize c => (s.ctxOf c).rlSize.toNat
  | .rlhead c => (s.ctxOf c).rlHead.toNat
  | .rltail c => (s.ctxOf c).rlTail.toNat

/-- What the host reads at an offset, in `size` bytes; an offset that holds no register reads 0 (log 29). -/
def State.hostRead (s : State) (off size : Nat) : Nat :=
  natOfBytes ((List.range size).map fun i =>
    match regAt (off + i) with
    | some (r, at', _) => BitVec.ofNat 8 (s.readReg r / 2 ^ (8 * (off + i - at')))
    | none => 0)

/-! ## Writing -/

/-- A register whose uncovered bytes count as zero in a write: write-only, or write-one-to-clear. -/
def Reg.writeZero : Reg → Bool
  | .pwrctl | .pwrstat | .snapctl | .qerr _ | .ctxctl _ | .epkill _ | .tlbinv _ | .pgresp _ | .dbgcmd _ | .fwmcmd => true
  | _ => false

/-- A register whose write acts through its low byte: a write that does not cover it does nothing (log 29). -/
def Reg.needsLow : Reg → Bool
  | .pwrctl | .snapctl | .ctxctl _ | .epkill _ | .tlbinv _ | .pgresp _ | .dbgcmd _ | .fwmcmd => true
  | _ => false

/-- The bits of PTROOT that are not reserved (spec/29 R399). -/
def ptrootBits : BitVec 64 := 0xFF8FFFFFFFFFFF3D

/-- PWRCTL[1:0]. -/
def State.powerRequest (s : State) (st : Nat) : State :=
  match st with
  | 0 => nextOr (execPwrReqM0 s) s
  | 1 => nextOr (execPwrReqM1 s) s
  | 2 => nextOr (execPwrReqM2 s) s
  | _ => nextOr (execPwrReqM3 s) s

/-- PGRESP: SEQ and VERDICT; VERDICT 3 is ignored (spec/29 R402). -/
def State.pageResponse (s : State) (c v : Nat) : State :=
  let seq : Word := BitVec.ofNat 32 v
  match bitsOf v 32 2 with
  | 0 => nextOr (execPgrespRetry c seq s) s
  | 1 => nextOr (execPgrespRefusePage c seq s) s
  | 2 => nextOr (execPgrespRefuseProt c seq s) s
  | _ => s

/-- TLBINV: the address and what it covers (spec/29 R402). -/
def State.tlbCommand (s : State) (c v : Nat) : State :=
  let va : Addr := BitVec.ofNat 64 (bitsOf v 16 40 * 2 ^ 16)
  match v % 4 with
  | 0 => nextOr (execTlbinvPage c va s) s
  | 1 => nextOr (execTlbinv2m c va s) s
  | 2 => nextOr (execTlbinv1g c va s) s
  | _ => nextOr (execTlbinvAll c s) s

/-- DBGCMD (spec/29 R406): other operations are ignored. -/
def State.debugCommand (s : State) (c v : Nat) : State :=
  match v % 16 with
  | 1 => nextOr (execDbgHalt c s) s
  | 2 => nextOr (execDbgResume c s) s
  | 3 => nextOr (execDbgStep c s) s
  | 4 => nextOr (execDbgStop c (bitsOf v 16 1 == 1) (BitVec.ofNat 32 (v / 2 ^ 32)) s) s
  | 5 => nextOr (execDbgKill c s) s
  | _ => s

/-- FWMCMD (spec/01 R27). -/
def State.firmwareCommand (s : State) (v : Nat) : State :=
  let tag : Byte := BitVec.ofNat 8 (v / 2 ^ 8)
  match v % 256 with
  | 1 => nextOr (execFwAttest tag s) s
  | 2 => nextOr (execFwIdkey tag s) s
  | cmd => nextOr (execFwmUnknownCommand tag (BitVec.ofNat 8 cmd) s) s

/-- A byte of FWMBUF: while BUSY it is used or lost (spec/01 R27). -/
def State.bufferByte (s : State) (i v : Nat) : State :=
  let put := fun (s : State) => { s with fwm := { s.fwm with buf := Tab.put 0 s.fwm.buf i (BitVec.ofNat 8 v) } }
  if s.fwm.busy then
    let (s, keep) := s.flip
    if keep then put s else s
  else put s

/-- DBGCTL: the sample interval and the five bits; HALTALL acts when it is set. -/
def State.setDbgCtl (s : State) (c v : Nat) : State :=
  let old := (s.ctxOf c).dbgCtl.getLsbD 0
  let s := s.modCtx c fun x => { x with dbgCtl := BitVec.ofNat 64 (v / 2 ^ 32 * 2 ^ 32 + v % 32) }
  if v % 2 = 1 && !old then nextOr (execDbgHaltall c true s) s else s

/-- CTXCTL (spec/19 R323): HOLD is written, KILL is set by a one. -/
def State.setCtxCtl (s : State) (c v : Nat) : State :=
  let s := nextOr (execCtxctlHold c (v % 2 == 1) s) s
  if bitsOf v 1 1 = 1 then nextOr (execCtxctlKill c s) s else s

/-- Write a register with value v, which lies within its width. -/
def State.writeReg (s : State) (r : Reg) (v : Nat) : State :=
  let w : Word := BitVec.ofNat 32 v
  let d : BitVec 64 := BitVec.ofNat 64 v
  match r with
  | .khid | .khcap | .khmod | .cecnt | .khfwst | .fwmstat | .snapWord _ | .qhead _ _ | .sphead _ | .sptail _ | .ctxstat _
  | .twspill _ | .tworphn _ | .epqhead _ | .epnext _ | .fqtail _ | .fqlost _ | .tlbstat _ | .dbgstat _ | .trtail _
  | .trlost _ => s
  | .pwrctl => s.powerRequest (v % 4)
  | .pwrstat => { s with
      thSeen := (s.thSeen &&& ~~~(BitVec.ofNat 4 (bitsOf v 12 4))) ||| s.limits
      pwrRefused := s.pwrRefused && bitsOf v 8 1 == 0 }
  | .snapctl => { s with
      snapFired := s.snapFired && bitsOf v 2 1 == 0, snapExten := bitsOf v 1 1 == 1, snapArm := v % 2 == 1 }
  | .fwmcmd => s.firmwareCommand v
  | .fwmbuf i => s.bufferByte i v
  | .peermap m => { s with peerMap := Tab.put (false, (0 : Byte)) s.peerMap m (bitsOf v 8 1 == 1, BitVec.ofNat 8 v) }
  | .qbase c p => nextOr (execQueueReconfigure c p true d s) s
  | .qsize c p => nextOr (execQueueReconfigure c p false d s) s
  | .qtail c p => nextOr (execQtailWrite c p d s) s
  | .qerr c => s.modCtx c fun x => { x with qerr := x.qerr &&& ~~~w }
  | .depbase c => s.modCtx c fun x => { x with depBase := d }
  | .depsize c => s.modCtx c fun x => { x with depSize := w }
  | .spbase c => s.modCtx c fun x => { x with spBase := d }
  | .spsize c => s.modCtx c fun x => { x with spSize := w }
  | .drainb c => s.modCtx c fun x => { x with drainB := w }
  | .ctxctl c => s.setCtxCtl c v
  | .wsbase c => s.modCtx c fun x => { x with wsBase := d }
  | .wssize c => s.modCtx c fun x => { x with wsSize := w &&& 0x1FFFF }
  | .twtbase c => nextOr (execTwtagsWrite c true d s) s
  | .twovbase c => s.modCtx c fun x => { x with twOvBase := d }
  | .twtags c => nextOr (execTwtagsWrite c false d s) s
  | .tworph c => s.modCtx c fun x => { x with twOrph := w }
  | .epqbase c => s.modCtx c fun x => { x with epqBase := d }
  | .epqsize c => s.modCtx c fun x => { x with epqSize := w }
  | .epqtail c => nextOr (execEpqtailWrite c w s) s
  | .epkill c => nextOr (execEpkill c w s) s
  | .ptroot c => s.modCtx c fun x => { x with ptRoot := d &&& ptrootBits }
  | .tlbinv c => s.tlbCommand c v
  | .fqbase c => (s.modCtx c fun x => { x with fqBase := d }).pageRecords c
  | .fqsize c => (s.modCtx c fun x => { x with fqSize := w }).pageRecords c
  | .fqhead c => (s.modCtx c fun x => { x with fqHead := w }).pageRecords c
  | .pgresp c => s.pageResponse c v
  | .teamwd c => s.modCtx c fun x => { x with teamWd := w }
  | .dbgctl c => s.setDbgCtl c v
  | .dbgpos c => s.modCtx c fun x => { x with dbgPos := d &&& 0xFFFFFFFF00FF0000 }
  | .dbgcmd c => s.debugCommand c v
  | .bpaddr c i => s.modCtx c fun x => { x with bpAddr := modNth (fun _ => d &&& ~~~2#64) i x.bpAddr }
  | .trbase c => s.modCtx c fun x => { x with trBase := d }
  | .trsize c => s.modCtx c fun x => { x with trSize := w }
  | .trhead c => s.modCtx c fun x => { x with trHead := w }
  | .rlbase c => s.modCtx c fun x => { x with rlBase := d }
  | .rlsize c => s.modCtx c fun x => { x with rlSize := w }
  | .rlhead c => s.modCtx c fun x => { x with rlHead := w }
  | .rltail c => s.modCtx c fun x => { x with rlTail := w }

/-- The value that a write of some of a register's bytes gives it. -/
def State.mergedReg (s : State) (r : Reg) (at' width off size v : Nat) : Nat :=
  natOfBytes ((List.range width).map fun i =>
    let a := at' + i
    if off ≤ a && a < off + size then BitVec.ofNat 8 (v / 2 ^ (8 * (a - off)))
    else if r.writeZero then 0
    else BitVec.ofNat 8 (s.readReg r / 2 ^ (8 * i)))

/-- The registers that a write of size bytes at off touches, in ascending order. -/
def regsIn (off size : Nat) : List (Reg × Nat × Nat) := distinct ((List.range size).filterMap fun i => regAt (off + i))

/-- REGISTER_WRITE: every register that the write touches takes its bytes; read-only and reserved bits ignore it, and a
register with a behaviour of its own has it. An offset that holds no register ignores the write (log 29). -/
def execRegisterWrite (off size : Nat) (v : BitVec 64) (s : State) : Host.Outcome State Fault Refusal :=
  .next ((regsIn off (min size 8)).foldl (fun s (r : Reg × Nat × Nat) =>
    if r.1.needsLow && r.2.1 < off then s
    else s.writeReg r.1 (s.mergedReg r.1 r.2.1 r.2.2 off (min size 8) v.toNat)) s)

end Sys2Proof.Machine
end

