-- ==== Sys2Proof/Machine/Scalar.lean ====
section
/-!
DEFINITION. The scalar instructions (spec/13 R211 to R216): one value function per operation, with b from a register or
from word 1.
-/

namespace Sys2Proof.Machine

/-- A scalar value: from the old sd, a and b. -/
abbrev SVal := Word → Word → Word → Word

/-- Register form: one word. -/
def State.urVal (s : State) (i : Instr) (f : UR) (g : SVal) : Host.Outcome State Fault Refusal :=
  s.uniOp i f.q f.n 4 fun v => .ok { ss := [(f.d.toNat, g (v.s f.d.toNat) (v.s f.a.toNat) (v.s f.b.toNat))] }

/-- Immediate form: two words. -/
def State.uiVal (s : State) (i : Instr) (f : UI) (g : SVal) : Host.Outcome State Fault Refusal :=
  s.uniOp i f.q f.n 8 fun v => .ok { ss := [(f.d.toNat, g (v.s f.d.toNat) (v.s f.a.toNat) f.imm)] }

/-! ## Integer operations (R212, R213) -/

def saddVal : SVal := fun _ a b => a + b
def ssubVal : SVal := fun _ a b => a - b
def smulVal : SVal := fun _ a b => a * b
def smadVal : SVal := fun d a b => a * b + d
def sminVal : SVal := fun _ a b => if a.toInt ≤ b.toInt then a else b
def smaxVal : SVal := fun _ a b => if a.toInt ≤ b.toInt then b else a
def shiftVal (op : ShiftOp) : SVal := fun _ a b => BitVec.ofNat 32 (op.eval 32 a.toNat (b.toNat % 256))

/-- Bit j of the result is T[2·a_j + d_j], with T = b[3:0]. -/
def sblutVal : SVal := fun d a b =>
  BitVec.ofNat 32 (bitsFrom 32 fun j => b.getLsbD (2 * (a.getLsbD j).toNat + (d.getLsbD j).toNat))

def spopcVal : SVal := fun _ _ b => BitVec.ofNat 32 (popCount 32 b.toNat)
def sclzVal : SVal := fun _ _ b => BitVec.ofNat 32 (leadingZeros 32 b.toNat)

def sbfeVal : SVal := fun _ a b =>
  BitVec.ofNat 32 (bfe 32 a.toNat (b.toNat % 256) (b.toNat / 256 % 256) (b.getLsbD 16))

def sbfiVal : SVal := fun d a b =>
  BitVec.ofNat 32 (bfi 32 a.toNat d.toNat (b.toNat % 256) (b.toNat / 256 % 256))

def sselVal : SVal := fun d a b => if b ≠ 0 then a else d
def smovVal : SVal := fun _ _ b => b

def execSadd (f : UR) (s : State) := s.urVal (.sadd f) f saddVal
def execSaddImm (f : UI) (s : State) := s.uiVal (.saddImm f) f saddVal
def execSsub (f : UR) (s : State) := s.urVal (.ssub f) f ssubVal
def execSsubImm (f : UI) (s : State) := s.uiVal (.ssubImm f) f ssubVal
def execSmul (f : UR) (s : State) := s.urVal (.smul f) f smulVal
def execSmulImm (f : UI) (s : State) := s.uiVal (.smulImm f) f smulVal
def execSmad (f : UR) (s : State) := s.urVal (.smad f) f smadVal
def execSmadImm (f : UI) (s : State) := s.uiVal (.smadImm f) f smadVal
def execSmin (f : UR) (s : State) := s.urVal (.smin f) f sminVal
def execSminImm (f : UI) (s : State) := s.uiVal (.sminImm f) f sminVal
def execSmax (f : UR) (s : State) := s.urVal (.smax f) f smaxVal
def execSmaxImm (f : UI) (s : State) := s.uiVal (.smaxImm f) f smaxVal
def execSshl (f : UR) (s : State) := s.urVal (.sshl f) f (shiftVal .shl)
def execSshlImm (f : UI) (s : State) := s.uiVal (.sshlImm f) f (shiftVal .shl)
def execSshr (f : UR) (s : State) := s.urVal (.sshr f) f (shiftVal .shr)
def execSshrImm (f : UI) (s : State) := s.uiVal (.sshrImm f) f (shiftVal .shr)
def execSsar (f : UR) (s : State) := s.urVal (.ssar f) f (shiftVal .sar)
def execSsarImm (f : UI) (s : State) := s.uiVal (.ssarImm f) f (shiftVal .sar)
def execSblut (f : UR) (s : State) := s.urVal (.sblut f) f sblutVal
def execSblutImm (f : UI) (s : State) := s.uiVal (.sblutImm f) f sblutVal
def execSpopc (f : UR) (s : State) := s.urVal (.spopc f) f spopcVal
def execSpopcImm (f : UI) (s : State) := s.uiVal (.spopcImm f) f spopcVal
def execSclz (f : UR) (s : State) := s.urVal (.sclz f) f sclzVal
def execSclzImm (f : UI) (s : State) := s.uiVal (.sclzImm f) f sclzVal
def execSbfe (f : UR) (s : State) := s.urVal (.sbfe f) f sbfeVal
def execSbfeImm (f : UI) (s : State) := s.uiVal (.sbfeImm f) f sbfeVal
def execSbfi (f : UR) (s : State) := s.urVal (.sbfi f) f sbfiVal
def execSbfiImm (f : UI) (s : State) := s.uiVal (.sbfiImm f) f sbfiVal
def execSsel (f : UR) (s : State) := s.urVal (.ssel f) f sselVal
def execSselImm (f : UI) (s : State) := s.uiVal (.sselImm f) f sselVal
def execSmov (f : UR) (s : State) := s.urVal (.smov f) f smovVal
def execSmovImm (f : UI) (s : State) := s.uiVal (.smovImm f) f smovVal

/-! ## Compare (R214) -/

/-- Relations EQ, NE, LT, LE, GT, GE signed; LTU and GEU unsigned. -/
def scmpRel (rel : Nat) (a b : Word) : Bool :=
  if rel = 6 then decide (a.toNat < b.toNat)
  else if rel = 7 then decide (b.toNat ≤ a.toNat)
  else relOf rel (compare a.toInt b.toInt)

/-- The sd field names qd in [2:0] and the relation in [5:3]. -/
def scmpOut (d : BitVec 6) (a b : Word) : UOut :=
  { qs := [((d.extractLsb' 0 3).toNat, scmpRel (d.extractLsb' 3 3).toNat a b)] }

def execScmp (f : UR) (s : State) :=
  s.uniOp (.scmp f) f.q f.n 4 fun v => .ok (scmpOut f.d (v.s f.a.toNat) (v.s f.b.toNat))
def execScmpImm (f : UI) (s : State) :=
  s.uniOp (.scmpImm f) f.q f.n 8 fun v => .ok (scmpOut f.d (v.s f.a.toNat) f.imm)

/-! ## SLEA (R212) -/

/-- The pair a plus the sign-extended b. -/
def sleaOut (d : BitVec 6) (a : BitVec 64) (b : Word) : UOut :=
  let x := a + b.signExtend 64
  { ss := [(d.toNat, x.extractLsb' 0 32), (d.toNat + 1, x.extractLsb' 32 32)] }

def execSlea (f : UR) (s : State) :=
  s.uniOp (.slea f) f.q f.n 4 fun v => .ok (sleaOut f.d (v.s64 f.a.toNat) (v.s f.b.toNat))
def execSleaImm (f : UI) (s : State) :=
  s.uniOp (.sleaImm f) f.q f.n 8 fun v => .ok (sleaOut f.d (v.s64 f.a.toNat) f.imm)

/-! ## Floating point (R215): FCTL governs rounding and saturation, and FTZ does not apply -/

def View.scalarCtl (v : View) : RCtl := rctl v.team.fctl 0 false false

/-- One FP32 result. -/
def fpOut (d : BitVec 6) (r : Nat × Word) : UOut := { ss := [(d.toNat, BitVec.ofNat 32 r.1)], flags := r.2 }

def execSfadd (f : UR) (s : State) :=
  s.uniOp (.sfadd f) f.q f.n 4 fun v =>
    .ok (fpOut f.d (fp32.opAdd v.scalarCtl (v.s f.a.toNat).toNat (v.s f.b.toNat).toNat))
def execSfaddImm (f : UI) (s : State) :=
  s.uniOp (.sfaddImm f) f.q f.n 8 fun v => .ok (fpOut f.d (fp32.opAdd v.scalarCtl (v.s f.a.toNat).toNat f.imm.toNat))
def execSfmul (f : UR) (s : State) :=
  s.uniOp (.sfmul f) f.q f.n 4 fun v =>
    .ok (fpOut f.d (fp32.opMul v.scalarCtl (v.s f.a.toNat).toNat (v.s f.b.toNat).toNat))
def execSfmulImm (f : UI) (s : State) :=
  s.uniOp (.sfmulImm f) f.q f.n 8 fun v => .ok (fpOut f.d (fp32.opMul v.scalarCtl (v.s f.a.toNat).toNat f.imm.toNat))
def execSffma (f : UR) (s : State) :=
  s.uniOp (.sffma f) f.q f.n 4 fun v => .ok (fpOut f.d
    (fp32.opFma v.scalarCtl (v.s f.a.toNat).toNat (v.s f.b.toNat).toNat (v.s f.d.toNat).toNat))
def execSffmaImm (f : UI) (s : State) :=
  s.uniOp (.sffmaImm f) f.q f.n 8 fun v => .ok (fpOut f.d
    (fp32.opFma v.scalarCtl (v.s f.a.toNat).toNat f.imm.toNat (v.s f.d.toNat).toNat))

/-! ## SCVT (R216) -/

/-- Convert the low bits of a under control b; a reserved control raises ILLOP with b. -/
def scvtOut (fctl : Word) (d : BitVec 6) (a b : Word) : Except Trap UOut :=
  if scvtControl b then
    let src := (b.extractLsb' 0 4).toNat
    .ok (fpOut d (convert src (b.extractLsb' 4 4).toNat (rctl fctl (b.extractLsb' 8 3) (b.getLsbD 11) false)
      (a.toNat % 2 ^ formatBits src)))
  else .error ⟨fILLOP, b, 0, 0⟩

def execScvt (f : UR) (s : State) :=
  s.uniOp (.scvt f) f.q f.n 4 fun v => scvtOut v.team.fctl f.d (v.s f.a.toNat) (v.s f.b.toNat)
def execScvtImm (f : UI) (s : State) :=
  s.uniOp (.scvtImm f) f.q f.n 8 fun v => scvtOut v.team.fctl f.d (v.s f.a.toNat) f.imm

end Sys2Proof.Machine
end

