-- ==== Sys2Proof/Machine/Special.lean ====
section
/-!
DEFINITION. Special registers (spec/09 R144, R145; spec/13 R237) and the settings SETPART, SETBOUND and RNGSEED
(spec/13 R238 to R240); S2V (spec/11 R205).
-/

namespace Sys2Proof.Machine

/-! ## Reading -/

def sat8 (n : Nat) : Nat := min n 255

/-- CNT: each count stops at 255 in this view. -/
def Warp.cnt (w : Warp) : Word :=
  BitVec.ofNat 32 (sat8 w.mb * 2 ^ 24 + sat8 w.cp * 2 ^ 16 + sat8 w.st * 2 ^ 8 + sat8 w.ld)

/-- PIPESTAT (spec/19 R318). -/
def pipeStat (ps : List Pipe) : Word :=
  BitVec.ofNat 32 (ps.foldl (fun x p =>
    let at' := fun i => (p.slots.getD i (.free, none)).1
    x + (if at' p.prod = .free then 2 ^ (16 + p.num) else 0) + (if at' p.cons = .full then 2 ^ p.num else 0)) 0)

/-- SPLITMASK (spec/03 R35). -/
def View.splitMask (v : View) : Word :=
  BitVec.ofNat 32 (v.warp.liveSlices.toNat * 2 ^ 16 + v.split.parent * 2 ^ 8 + v.split.mask.toNat)

/-- A special register other than LANEID, as slice k of the split reads it. -/
def State.special (s : State) (v : View) (k n : Nat) : Word :=
  let sl := v.warp.sl k
  let t := v.team
  match n with
  | 0x01 => BitVec.ofNat 32 k
  | 0x02 => BitVec.ofNat 32 v.warp.num
  | 0x03 => BitVec.ofNat 32 t.num
  | 0x04 => ((s.gang? t.gang).map (·.gangId)).getD 0
  | 0x05 => BitVec.ofNat 32 t.taskIdx
  | 0x06 => t.inst
  | 0x07 => s.coreId t.core
  | 0x08 => BitVec.ofNat 32 v.warp.role
  | 0x09 => BitVec.ofNat 32 v.warp.vbound
  | 0x0A => BitVec.ofNat 32 sl.part
  | 0x0B => t.flags
  | 0x0C => t.fctl
  | 0x0D => v.warp.cnt
  | 0x0E => if ((s.gang? t.gang).map (·.drain)).getD false then 1 else 0
  | 0x0F => v.low.retired
  | 0x10 => BitVec.ofNat 32 s.clock
  | 0x11 => sl.clockHi.getD (BitVec.ofNat 32 (s.clock / 2 ^ 32))
  | 0x12 => BitVec.ofNat 32 s.tick
  | 0x13 => sl.rtickHi.getD (BitVec.ofNat 32 (s.tick / 2 ^ 32))
  | 0x14 => sl.rngLo
  | 0x15 => sl.rngHi
  | 0x16 => sl.rngCtr
  | 0x17 => v.splitMask
  | 0x18 => v.low.trapCode
  | 0x19 => v.low.trapPc
  | 0x1A => v.low.trapInfo
  | 0x1B => t.tbase
  | 0x1C => BitVec.ofNat 32 t.ctx
  | 0x1D => BitVec.ofNat 32 v.warp.ntok
  | 0x1E => pipeStat (((s.gang? t.gang).map (·.pipes)).getD [])
  | 0x1F => if t.preempt then 1 else 0
  | n => Tab.get 0 t.stalls (n - 0x20)

/-- What reading register n does to a slice: a LO read latches the HI half, a HI read spends the latch. -/
def Slice.latch (sl : Slice) (clock tick n : Nat) : Slice :=
  match n with
  | 0x10 => { sl with clockHi := some (BitVec.ofNat 32 (clock / 2 ^ 32)) }
  | 0x11 => { sl with clockHi := none }
  | 0x12 => { sl with rtickHi := some (BitVec.ofNat 32 (tick / 2 ^ 32)) }
  | 0x13 => { sl with rtickHi := none }
  | _ => sl

/-- SRD: the lowest slice's value, in every slice. -/
def execSrd (f : UR) (s : State) :=
  s.run (.srd f) fun v =>
    if v.qGuard f.q f.n then
      let n := f.a.toNat
      let w := v.warp.modSls v.split.mask (·.latch s.clock s.tick n)
      .ok (s.retire v (w.setS v.split.mask f.d.toNat (s.special v v.sel.slice n)) 0 4)
    else .ok (s.skip v 4)

/-- S2V: the slices that hold a participating lane read, each for its own lanes. -/
def execS2v (f : LU) (s : State) :=
  s.run (.s2v f) fun v =>
    let n := f.va.toNat
    let lanes := v.lanes
    let outs : List (Nat × LaneOut) := lanes.map fun l =>
      (l, { vs := [(f.vd.toNat, if n = 0 then BitVec.ofNat 32 l else s.special v (l / 4) n)] })
    let w := (v.warp.writeLanes outs).modSls (maskOf (lanes.map (· / 4))) (·.latch s.clock s.tick n)
    .ok (s.retire v w 0 4)

/-! ## Writing -/

/-- The special registers marked RW. -/
def srWritable (n : Nat) : Bool := [0x0B, 0x0C, 0x14, 0x15, 0x16, 0x1B].contains n

/-- SWR to a register of the team (R86, R87; spec/29 R396). -/
def Team.swr (t : Team) (clock n : Nat) (x : Word) : Team :=
  match n with
  | 0x0B => { t with flags := x &&& 0x3FF ||| (if t.raisedAt = clock then t.raised else 0) }
  | 0x0C => { t with fctl := x &&& 0xFF }
  | 0x1B => { t with tbase := if x = noHandler then x else x &&& 0xFFFFFFFC }
  | _ => t

/-- SWR to a random register of a slice. -/
def Slice.swr (sl : Slice) (n : Nat) (x : Word) : Slice :=
  match n with
  | 0x14 => { sl with rngLo := x }
  | 0x15 => { sl with rngHi := x }
  | 0x16 => { sl with rngCtr := x }
  | _ => sl

/-- SWR: PRIV for a read-only register, whatever the guard (spec/09 R151). -/
def execSwr (f : UR) (s : State) :=
  s.run (.swr f) fun v =>
    let n := f.d.toNat
    if !srWritable n then .error ⟨fPRIV, Instr.word0 (.swr f), 0, 0⟩
    else if v.qGuard f.q f.n then
      let x := v.s f.a.toNat
      let s := s.modTeam v.team.uid (·.swr s.clock n x)
      .ok (s.retire v (v.warp.modSls v.split.mask (·.swr n x)) 0 4)
    else .ok (s.skip v 4)

/-! ## Settings -/

/-- PART := b in every slice; another value than a tile width raises ILLOP (R238). -/
def State.setPart (s : State) (v : View) (b : Word) (len : Nat) : Except Trap State :=
  if [2, 4, 8, 16, 32].contains b.toNat then
    .ok (s.retire v (v.warp.modSls v.split.mask fun sl => { sl with part := b.toNat }) 0 len)
  else .error ⟨fILLOP, b, 0, 0⟩

def execSetpart (f : UR) (s : State) :=
  s.run (.setpart f) fun v => if v.qGuard f.q f.n then s.setPart v (v.s f.b.toNat) 4 else .ok (s.skip v 4)

def execSetpartImm (f : UI) (s : State) :=
  s.run (.setpartImm f) fun v => if v.qGuard f.q f.n then s.setPart v f.imm 8 else .ok (s.skip v 8)

/-- SETBOUND is refused (spec/03 R47): no legal bound, or a live slot would move or cease to exist. -/
def Warp.boundRefused (w : Warp) (b : Nat) : Bool :=
  !(b % 8 == 0 && decide (8 ≤ b) && decide (b ≤ min 256 w.budget)) || (b != w.vbound && w.slots.any fun e => e.2.live)

/-- The warp has a queued matrix operation (spec/17 R279). -/
def State.matQueued (s : State) (v : View) : Bool :=
  s.matOps.any fun m => m.x.team == v.team.uid && m.x.warp == v.warp.num

def State.setBound (s : State) (v : View) (b : Word) (len : Nat) : Except Trap State :=
  if s.matQueued v then .ok (s.stall v 5)
  else if v.warp.boundRefused b.toNat then .error ⟨fILLREG, b, 0, 0⟩
  else .ok (s.retire v { v.warp with vbound := b.toNat } 0 len)

def execSetbound (f : UR) (s : State) :=
  s.run (.setbound f) fun v => if v.qGuard f.q f.n then s.setBound v (v.s f.b.toNat) 4 else .ok (s.skip v 4)

def execSetboundImm (f : UI) (s : State) :=
  s.run (.setboundImm f) fun v => if v.qGuard f.q f.n then s.setBound v f.imm 8 else .ok (s.skip v 8)

def execRngseed (f : UR) (s : State) :=
  s.run (.rngseed f) fun v =>
    if v.qGuard f.q f.n then
      let lo := v.s f.a.toNat
      let hi := v.s f.b.toNat
      .ok (s.retire v (v.warp.modSls v.split.mask fun sl => { sl with rngLo := lo, rngHi := hi, rngCtr := 0 }) 0 4)
    else .ok (s.skip v 4)

end Sys2Proof.Machine
end

