-- ==== Sys2Proof/Machine/Dispatch.lean ====
section
/-!
DEFINITION. One arm per constructor of Instr: each is one direct call of the meaning of its instruction.
-/

namespace Sys2Proof.Machine

def exec (i : Instr) (s : State) : Host.Outcome State Fault Refusal :=
  match i with
  | .illegalInstruction w0 why => Sys2Proof.Machine.execIllegalInstruction w0 why s
  | .iadd f => Sys2Proof.Machine.execIadd f s
  | .isub f => Sys2Proof.Machine.execIsub f s
  | .imul f => Sys2Proof.Machine.execImul f s
  | .imad f => Sys2Proof.Machine.execImad f s
  | .imin f => Sys2Proof.Machine.execImin f s
  | .imax f => Sys2Proof.Machine.execImax f s
  | .iabs f => Sys2Proof.Machine.execIabs f s
  | .iabsLu f => Sys2Proof.Machine.execIabsLu f s
  | .shl f => Sys2Proof.Machine.execShl f s
  | .shr f => Sys2Proof.Machine.execShr f s
  | .sar f => Sys2Proof.Machine.execSar f s
  | .blut f => Sys2Proof.Machine.execBlut f s
  | .popc f => Sys2Proof.Machine.execPopc f s
  | .popcLu f => Sys2Proof.Machine.execPopcLu f s
  | .clz f => Sys2Proof.Machine.execClz f s
  | .clzLu f => Sys2Proof.Machine.execClzLu f s
  | .brev f => Sys2Proof.Machine.execBrev f s
  | .brevLu f => Sys2Proof.Machine.execBrevLu f s
  | .bfe f => Sys2Proof.Machine.execBfe f s
  | .bfi f => Sys2Proof.Machine.execBfi f s
  | .sel f => Sys2Proof.Machine.execSel f s
  | .icmp f => Sys2Proof.Machine.execIcmp f s
  | .lea f => Sys2Proof.Machine.execLea f s
  | .idot4 f => Sys2Proof.Machine.execIdot4 f s
  | .clmul f => Sys2Proof.Machine.execClmul f s
  | .fadd f => Sys2Proof.Machine.execFadd f s
  | .fsub f => Sys2Proof.Machine.execFsub f s
  | .fmul f => Sys2Proof.Machine.execFmul f s
  | .ffma f => Sys2Proof.Machine.execFfma f s
  | .fmin f => Sys2Proof.Machine.execFmin f s
  | .fmax f => Sys2Proof.Machine.execFmax f s
  | .fcmp f => Sys2Proof.Machine.execFcmp f s
  | .fclass f => Sys2Proof.Machine.execFclass f s
  | .frnd f => Sys2Proof.Machine.execFrnd f s
  | .frcp f => Sys2Proof.Machine.execFrcp f s
  | .frcpLu f => Sys2Proof.Machine.execFrcpLu f s
  | .frsq f => Sys2Proof.Machine.execFrsq f s
  | .frsqLu f => Sys2Proof.Machine.execFrsqLu f s
  | .fsqrt f => Sys2Proof.Machine.execFsqrt f s
  | .fsqrtLu f => Sys2Proof.Machine.execFsqrtLu f s
  | .fex2 f => Sys2Proof.Machine.execFex2 f s
  | .fex2Lu f => Sys2Proof.Machine.execFex2Lu f s
  | .flg2 f => Sys2Proof.Machine.execFlg2 f s
  | .flg2Lu f => Sys2Proof.Machine.execFlg2Lu f s
  | .fsin f => Sys2Proof.Machine.execFsin f s
  | .fsinLu f => Sys2Proof.Machine.execFsinLu f s
  | .fcos f => Sys2Proof.Machine.execFcos f s
  | .fcosLu f => Sys2Proof.Machine.execFcosLu f s
  | .ftanh f => Sys2Proof.Machine.execFtanh f s
  | .ftanhLu f => Sys2Proof.Machine.execFtanhLu f s
  | .fsgm f => Sys2Proof.Machine.execFsgm f s
  | .fsgmLu f => Sys2Proof.Machine.execFsgmLu f s
  | .cvt f => Sys2Proof.Machine.execCvt f s
  | .cvtn f => Sys2Proof.Machine.execCvtn f s
  | .blkpack f => Sys2Proof.Machine.execBlkpack f s
  | .blkunpk f => Sys2Proof.Machine.execBlkunpk f s
  | .shfl f => Sys2Proof.Machine.execShfl f s
  | .vote f => Sys2Proof.Machine.execVote f s
  | .matchLanes f => Sys2Proof.Machine.execMatchLanes f s
  | .redux f => Sys2Proof.Machine.execRedux f s
  | .scan f => Sys2Proof.Machine.execScan f s
  | .rdlane f => Sys2Proof.Machine.execRdlane f s
  | .bcast f => Sys2Proof.Machine.execBcast f s
  | .mov f => Sys2Proof.Machine.execMov f s
  | .movUniform f => Sys2Proof.Machine.execMovUniform f s
  | .movB64 f => Sys2Proof.Machine.execMovB64 f s
  | .movImm f => Sys2Proof.Machine.execMovImm f s
  | .s2v f => Sys2Proof.Machine.execS2v f s
  | .plop f => Sys2Proof.Machine.execPlop f s
  | .pmovGet f => Sys2Proof.Machine.execPmovGet f s
  | .pmovSet f => Sys2Proof.Machine.execPmovSet f s
  | .rng f => Sys2Proof.Machine.execRng f s
  | .ld f => Sys2Proof.Machine.execLd f s
  | .st f => Sys2Proof.Machine.execSt f s
  | .lds f => Sys2Proof.Machine.execLds f s
  | .sts f => Sys2Proof.Machine.execSts f s
  | .atom f => Sys2Proof.Machine.execAtom f s
  | .red f => Sys2Proof.Machine.execRed f s
  | .pref f => Sys2Proof.Machine.execPref f s
  | .tex f => Sys2Proof.Machine.execTex f s
  | .tfetch f => Sys2Proof.Machine.execTfetch f s
  | .rayq f => Sys2Proof.Machine.execRayq f s
  | .raycont f => Sys2Proof.Machine.execRaycont f s
  | .rayget f => Sys2Proof.Machine.execRayget f s
  | .ncall f => Sys2Proof.Machine.execNcall f s
  | .rgdisp f => Sys2Proof.Machine.execRgdisp f s
  | .brx f => Sys2Proof.Machine.execBrx f s
  | .jtabx f => Sys2Proof.Machine.execJtabx f s
  | .retx f => Sys2Proof.Machine.execRetx f s
  | .discardLu => Sys2Proof.Machine.execDiscardLu s
  | .discard f => Sys2Proof.Machine.execDiscard f s
  | .sadd f => Sys2Proof.Machine.execSadd f s
  | .saddImm f => Sys2Proof.Machine.execSaddImm f s
  | .ssub f => Sys2Proof.Machine.execSsub f s
  | .ssubImm f => Sys2Proof.Machine.execSsubImm f s
  | .smul f => Sys2Proof.Machine.execSmul f s
  | .smulImm f => Sys2Proof.Machine.execSmulImm f s
  | .smad f => Sys2Proof.Machine.execSmad f s
  | .smadImm f => Sys2Proof.Machine.execSmadImm f s
  | .smin f => Sys2Proof.Machine.execSmin f s
  | .sminImm f => Sys2Proof.Machine.execSminImm f s
  | .smax f => Sys2Proof.Machine.execSmax f s
  | .smaxImm f => Sys2Proof.Machine.execSmaxImm f s
  | .sshl f => Sys2Proof.Machine.execSshl f s
  | .sshlImm f => Sys2Proof.Machine.execSshlImm f s
  | .sshr f => Sys2Proof.Machine.execSshr f s
  | .sshrImm f => Sys2Proof.Machine.execSshrImm f s
  | .ssar f => Sys2Proof.Machine.execSsar f s
  | .ssarImm f => Sys2Proof.Machine.execSsarImm f s
  | .sblut f => Sys2Proof.Machine.execSblut f s
  | .sblutImm f => Sys2Proof.Machine.execSblutImm f s
  | .spopc f => Sys2Proof.Machine.execSpopc f s
  | .spopcImm f => Sys2Proof.Machine.execSpopcImm f s
  | .sclz f => Sys2Proof.Machine.execSclz f s
  | .sclzImm f => Sys2Proof.Machine.execSclzImm f s
  | .sbfe f => Sys2Proof.Machine.execSbfe f s
  | .sbfeImm f => Sys2Proof.Machine.execSbfeImm f s
  | .sbfi f => Sys2Proof.Machine.execSbfi f s
  | .sbfiImm f => Sys2Proof.Machine.execSbfiImm f s
  | .ssel f => Sys2Proof.Machine.execSsel f s
  | .sselImm f => Sys2Proof.Machine.execSselImm f s
  | .scmp f => Sys2Proof.Machine.execScmp f s
  | .scmpImm f => Sys2Proof.Machine.execScmpImm f s
  | .slea f => Sys2Proof.Machine.execSlea f s
  | .sleaImm f => Sys2Proof.Machine.execSleaImm f s
  | .smov f => Sys2Proof.Machine.execSmov f s
  | .smovImm f => Sys2Proof.Machine.execSmovImm f s
  | .sfadd f => Sys2Proof.Machine.execSfadd f s
  | .sfaddImm f => Sys2Proof.Machine.execSfaddImm f s
  | .sfmul f => Sys2Proof.Machine.execSfmul f s
  | .sfmulImm f => Sys2Proof.Machine.execSfmulImm f s
  | .sffma f => Sys2Proof.Machine.execSffma f s
  | .sffmaImm f => Sys2Proof.Machine.execSffmaImm f s
  | .scvt f => Sys2Proof.Machine.execScvt f s
  | .scvtImm f => Sys2Proof.Machine.execScvtImm f s
  | .sld f => Sys2Proof.Machine.execSld f s
  | .sst f => Sys2Proof.Machine.execSst f s
  | .satom f => Sys2Proof.Machine.execSatom f s
  | .nop f => Sys2Proof.Machine.execNop f s
  | .bra f => Sys2Proof.Machine.execBra f s
  | .call f => Sys2Proof.Machine.execCall f s
  | .ret f => Sys2Proof.Machine.execRet f s
  | .jtab f => Sys2Proof.Machine.execJtab f s
  | .regang f => Sys2Proof.Machine.execRegang f s
  | .exit f => Sys2Proof.Machine.execExit f s
  | .dbnz f => Sys2Proof.Machine.execDbnz f s
  | .wait f => Sys2Proof.Machine.execWait f s
  | .waitc f => Sys2Proof.Machine.execWaitc f s
  | .bari f => Sys2Proof.Machine.execBari f s
  | .bariImm f => Sys2Proof.Machine.execBariImm f s
  | .bara f => Sys2Proof.Machine.execBara f s
  | .baraImm f => Sys2Proof.Machine.execBaraImm f s
  | .barw f => Sys2Proof.Machine.execBarw f s
  | .barwImm f => Sys2Proof.Machine.execBarwImm f s
  | .bars f => Sys2Proof.Machine.execBars f s
  | .barsImm f => Sys2Proof.Machine.execBarsImm f s
  | .bard f => Sys2Proof.Machine.execBard f s
  | .bardImm f => Sys2Proof.Machine.execBardImm f s
  | .fence f => Sys2Proof.Machine.execFence f s
  | .srd f => Sys2Proof.Machine.execSrd f s
  | .swr f => Sys2Proof.Machine.execSwr f s
  | .setpart f => Sys2Proof.Machine.execSetpart f s
  | .setpartImm f => Sys2Proof.Machine.execSetpartImm f s
  | .setbound f => Sys2Proof.Machine.execSetbound f s
  | .setboundImm f => Sys2Proof.Machine.execSetboundImm f s
  | .rngseed f => Sys2Proof.Machine.execRngseed f s
  | .mloop f => Sys2Proof.Machine.execMloop f s
  | .mclr f => Sys2Proof.Machine.execMclr f s
  | .manchor f => Sys2Proof.Machine.execManchor f s
  | .mround f => Sys2Proof.Machine.execMround f s
  | .mloada f => Sys2Proof.Machine.execMloada f s
  | .mbatch f => Sys2Proof.Machine.execMbatch f s
  | .mxform f => Sys2Proof.Machine.execMxform f s
  | .mesc f => Sys2Proof.Machine.execMesc f s
  | .mstat f => Sys2Proof.Machine.execMstat f s
  | .cpy f => Sys2Proof.Machine.execCpy f s
  | .cpyg f => Sys2Proof.Machine.execCpyg f s
  | .cpyx f => Sys2Proof.Machine.execCpyx f s
  | .tspawn f => Sys2Proof.Machine.execTspawn f s
  | .tnotify f => Sys2Proof.Machine.execTnotify f s
  | .prsv f => Sys2Proof.Machine.execPrsv f s
  | .pput f => Sys2Proof.Machine.execPput f s
  | .pget f => Sys2Proof.Machine.execPget f s
  | .prel f => Sys2Proof.Machine.execPrel f s
  | .twtag f => Sys2Proof.Machine.execTwtag f s
  | .twfree f => Sys2Proof.Machine.execTwfree f s
  | .twsend f => Sys2Proof.Machine.execTwsend f s
  | .twrecv f => Sys2Proof.Machine.execTwrecv f s
  | .twrecvSt f => Sys2Proof.Machine.execTwrecvSt f s
  | .mbput f => Sys2Proof.Machine.execMbput f s
  | .mbget f => Sys2Proof.Machine.execMbget f s
  | .mbstat f => Sys2Proof.Machine.execMbstat f s
  | .wpref f => Sys2Proof.Machine.execWpref f s
  | .wpin f => Sys2Proof.Machine.execWpin f s
  | .wunpin f => Sys2Proof.Machine.execWunpin f s
  | .wver f => Sys2Proof.Machine.execWver f s
  | .nflush f => Sys2Proof.Machine.execNflush f s
  | .trap f => Sys2Proof.Machine.execTrap f s
  | .bkpt f => Sys2Proof.Machine.execBkpt f s
  | .mark f => Sys2Proof.Machine.execMark f s
  | .snap f => Sys2Proof.Machine.execSnap f s
  | .tret f => Sys2Proof.Machine.execTret f s
  | .commit f => Sys2Proof.Machine.execCommit f s
  | .regangTimeout team warp pc parent => Sys2Proof.Machine.execRegangTimeout team warp pc parent s
  | .waitcReread x => Sys2Proof.Machine.execWaitcReread x s
  | .waitcExpiry x => Sys2Proof.Machine.execWaitcExpiry x s
  | .loadComplete id => Sys2Proof.Machine.execLoadComplete id s
  | .storeComplete id => Sys2Proof.Machine.execStoreComplete id s
  | .atomicAtMemory id => Sys2Proof.Machine.execAtomicAtMemory id s
  | .l1Writeback core line => Sys2Proof.Machine.execL1Writeback core line s
  | .xbarRequest die port line => Sys2Proof.Machine.execXbarRequest die port line s
  | .l2FillComplete die slice line => Sys2Proof.Machine.execL2FillComplete die slice line s
  | .columnPowerDown die slice => Sys2Proof.Machine.execColumnPowerDown die slice s
  | .columnPowerUpComplete die slice => Sys2Proof.Machine.execColumnPowerUpComplete die slice s
  | .d2dBeatReceive src dst beat => Sys2Proof.Machine.execD2dBeatReceive src dst beat s
  | .cxlMemAccess a => Sys2Proof.Machine.execCxlMemAccess a s
  | .peerAccess a => Sys2Proof.Machine.execPeerAccess a s
  | .murusLinkChange link up => Sys2Proof.Machine.execMurusLinkChange link up s
  | .copyComplete id => Sys2Proof.Machine.execCopyComplete id s
  | .copyEngineFault id => Sys2Proof.Machine.execCopyEngineFault id s
  | .matrixStep core => Sys2Proof.Machine.execMatrixStep core s
  | .textureComplete id => Sys2Proof.Machine.execTextureComplete id s
  | .rayStop id => Sys2Proof.Machine.execRayStop id s
  | .rgdispComplete id => Sys2Proof.Machine.execRgdispComplete id s
  | .ncallAccept cluster => Sys2Proof.Machine.execNcallAccept cluster s
  | .rowPlace cluster => Sys2Proof.Machine.execRowPlace cluster s
  | .binAgeDispatch cluster => Sys2Proof.Machine.execBinAgeDispatch cluster s
  | .binStallDispatch cluster => Sys2Proof.Machine.execBinStallDispatch cluster s
  | .weightVersionLoad cluster ctx set ver => Sys2Proof.Machine.execWeightVersionLoad cluster ctx set ver s
  | .tileComplete cluster => Sys2Proof.Machine.execTileComplete cluster s
  | .twillArrival id => Sys2Proof.Machine.execTwillArrival id s
  | .twillSendRetry id => Sys2Proof.Machine.execTwillSendRetry id s
  | .twillDelivery router ctx tag => Sys2Proof.Machine.execTwillDelivery router ctx tag s
  | .twillDeliveryRetry router ctx tag => Sys2Proof.Machine.execTwillDeliveryRetry router ctx tag s
  | .twillOrphan router ctx tag => Sys2Proof.Machine.execTwillOrphan router ctx tag s
  | .twillLandingTimeout id => Sys2Proof.Machine.execTwillLandingTimeout id s
  | .qtailWrite c p v => Sys2Proof.Machine.execQtailWrite c p v s
  | .queueReconfigure c p isBase v => Sys2Proof.Machine.execQueueReconfigure c p isBase v s
  | .takeLaunchRecord die => Sys2Proof.Machine.execTakeLaunchRecord die s
  | .parkedRecordReady id => Sys2Proof.Machine.execParkedRecordReady id s
  | .sendTask die => Sys2Proof.Machine.execSendTask die s
  | .placeTask cluster => Sys2Proof.Machine.execPlaceTask cluster s
  | .stagingCopyFault task => Sys2Proof.Machine.execStagingCopyFault task s
  | .gangStart task => Sys2Proof.Machine.execGangStart task s
  | .stealRequest cluster => Sys2Proof.Machine.execStealRequest cluster s
  | .stealRequestArrival cluster => Sys2Proof.Machine.execStealRequestArrival cluster s
  | .teamExit team => Sys2Proof.Machine.execTeamExit team s
  | .warpBudgetReturn team warp => Sys2Proof.Machine.execWarpBudgetReturn team warp s
  | .priorityPreempt task => Sys2Proof.Machine.execPriorityPreempt task s
  | .preemptDrainExpiry gang => Sys2Proof.Machine.execPreemptDrainExpiry gang s
  | .ctxctlHold c on => Sys2Proof.Machine.execCtxctlHold c on s
  | .ctxctlKill c => Sys2Proof.Machine.execCtxctlKill c s
  | .ctxctlKillDone c => Sys2Proof.Machine.execCtxctlKillDone c s
  | .deferredFaultTake x => Sys2Proof.Machine.execDeferredFaultTake x s
  | .teamWatchdog team => Sys2Proof.Machine.execTeamWatchdog team s
  | .faultDrainExpiry team => Sys2Proof.Machine.execFaultDrainExpiry team s
  | .pageWalkComplete id => Sys2Proof.Machine.execPageWalkComplete id s
  | .pgrespRetry c seq => Sys2Proof.Machine.execPgrespRetry c seq s
  | .pgrespRefusePage c seq => Sys2Proof.Machine.execPgrespRefusePage c seq s
  | .pgrespRefuseProt c seq => Sys2Proof.Machine.execPgrespRefuseProt c seq s
  | .tlbinvPage c va => Sys2Proof.Machine.execTlbinvPage c va s
  | .tlbinv2m c va => Sys2Proof.Machine.execTlbinv2m c va s
  | .tlbinv1g c va => Sys2Proof.Machine.execTlbinv1g c va s
  | .tlbinvAll c => Sys2Proof.Machine.execTlbinvAll c s
  | .tlbinvDone c => Sys2Proof.Machine.execTlbinvDone c s
  | .eccCorrected => Sys2Proof.Machine.execEccCorrected s
  | .eccUncorrectable w => Sys2Proof.Machine.execEccUncorrectable w s
  | .breakpointHit x => Sys2Proof.Machine.execBreakpointHit x s
  | .dbgHalt c => Sys2Proof.Machine.execDbgHalt c s
  | .dbgResume c => Sys2Proof.Machine.execDbgResume c s
  | .dbgStep c => Sys2Proof.Machine.execDbgStep c s
  | .dbgStop c region target => Sys2Proof.Machine.execDbgStop c region target s
  | .dbgKill c => Sys2Proof.Machine.execDbgKill c s
  | .dbgHaltall c on => Sys2Proof.Machine.execDbgHaltall c on s
  | .stateWindowWrite c off v => Sys2Proof.Machine.execStateWindowWrite c off v s
  | .sampleTake core => Sys2Proof.Machine.execSampleTake core s
  | .recordChunkLimit team => Sys2Proof.Machine.execRecordChunkLimit team s
  | .snapshotExternalTrigger => Sys2Proof.Machine.execSnapshotExternalTrigger s
  | .powerOn => Sys2Proof.Machine.execPowerOn s
  | .firmwareVerifyComplete image svn => Sys2Proof.Machine.execFirmwareVerifyComplete image svn s
  | .fwAttest tag => Sys2Proof.Machine.execFwAttest tag s
  | .fwIdkey tag => Sys2Proof.Machine.execFwIdkey tag s
  | .fwmUnknownCommand tag cmd => Sys2Proof.Machine.execFwmUnknownCommand tag cmd s
  | .fwmCommandComplete => Sys2Proof.Machine.execFwmCommandComplete s
  | .pwrReqM0 => Sys2Proof.Machine.execPwrReqM0 s
  | .pwrReqM1 => Sys2Proof.Machine.execPwrReqM1 s
  | .pwrReqM2 => Sys2Proof.Machine.execPwrReqM2 s
  | .pwrReqM3 => Sys2Proof.Machine.execPwrReqM3 s
  | .powerWake => Sys2Proof.Machine.execPowerWake s
  | .powerExitComplete => Sys2Proof.Machine.execPowerExitComplete s
  | .throttleLimitChange limits => Sys2Proof.Machine.execThrottleLimitChange limits s
  | .throttleStep => Sys2Proof.Machine.execThrottleStep s
  | .twtagsWrite c isBase v => Sys2Proof.Machine.execTwtagsWrite c isBase v s
  | .epqtailWrite c v => Sys2Proof.Machine.execEpqtailWrite c v s
  | .episodeCreate c => Sys2Proof.Machine.execEpisodeCreate c s
  | .epkill c v => Sys2Proof.Machine.execEpkill c v s
  | .episodeTimeslice die core => Sys2Proof.Machine.execEpisodeTimeslice die core s
  | .episodeTickBudgetExpiry pair => Sys2Proof.Machine.execEpisodeTickBudgetExpiry pair s
  | .episodeInstrBudgetExpiry pair => Sys2Proof.Machine.execEpisodeInstrBudgetExpiry pair s
  | .epObsPost pair payload len status => Sys2Proof.Machine.execEpObsPost pair payload len status s
  | .epActWait pair buf cap => Sys2Proof.Machine.execEpActWait pair buf cap s
  | .epReward pair v => Sys2Proof.Machine.execEpReward pair v s
  | .epBudget pair => Sys2Proof.Machine.execEpBudget pair s
  | .epLogver pair => Sys2Proof.Machine.execEpLogver pair s
  | .episodeFault pair => Sys2Proof.Machine.execEpisodeFault pair s
  | .mailboxActionArrival id => Sys2Proof.Machine.execMailboxActionArrival id s
  | .mailboxGetArrival id => Sys2Proof.Machine.execMailboxGetArrival id s
  | .pairRelease pair => Sys2Proof.Machine.execPairRelease pair s
  | .drawSubmit c desc => Sys2Proof.Machine.execDrawSubmit c desc s
  | .primitiveRasterise front prim => Sys2Proof.Machine.execPrimitiveRasterise front prim s
  | .pixelExportApply cluster => Sys2Proof.Machine.execPixelExportApply cluster s
  | .registerWrite off size v => Sys2Proof.Machine.execRegisterWrite off size v s
  | .sorghumInstruction pair core => Sys2Proof.Machine.execSorghumInstruction pair core s
  | .diagnosticModeChange on => Sys2Proof.Machine.execDiagnosticModeChange on s
  | .abandonedOperationStopped id => Sys2Proof.Machine.execAbandonedOperationStopped id s

end Sys2Proof.Machine
end

