-- ==== Sys2Proof/Machine/Issue.lean ====
section
/-!
DEFINITION. Issuing one split (spec/03 R50, R51): the boundary (held faults, breakpoints), the fetch, the scoreboard, the
replay log, and the instruction.
-/

namespace Sys2Proof.Machine

/-- The split's own waits let it issue: nothing, or a stall that is tried again. -/
def Wait.mayIssue : Wait → Bool
  | .none | .stall _ => true
  | _ => false

/-- What an attempt leaves a split with when it has not issued. -/
def Wait.held : Wait → Bool
  | .stall _ | .walk _ | .regang | .parked _ _ => true
  | _ => false

/-- The team runs, or the debugger steps this split (spec/29 R406). -/
def View.goes (v : View) : Bool :=
  !v.team.halted || (v.team.stepping.map fun x => x.warp == v.warp.num && v.split.mask.getLsbD x.slice).getD false

/-- The issue itself: the split's last issue is now, but for an arrival at a REGANG, and its stall is over. -/
def State.beginIssue (s : State) (v : View) (i : Instr) : State :=
  let last := if v.joins i then v.split.lastIssue else s.clock
  s.setWarp v { v.warp with
    splits := modFirst (fun sp : Split => sp.mask == v.split.mask) (fun sp => { sp with lastIssue := last, wait := .none })
      v.warp.splits }

/-- A split that has not issued after all keeps its last issue; else its team has issued in this clock, and the lane pipe
of its issue unit holds its address (spec/29 R412). -/
def State.afterIssue (s : State) (v : View) (lanePipe : Bool) : State :=
  let held := ((s.viewOf? v.sel).map fun w => w.split.wait.held).getD false
  if held then
    s.modWarp v.team.uid v.warp.num fun w => { w with
      splits := modFirst (fun sp : Split => sp.mask.getLsbD v.sel.slice) (fun sp => { sp with lastIssue := v.split.lastIssue })
        w.splits }
  else
    let s := s.modTeam v.team.uid fun t => { t with issuedAt := s.clock }
    if lanePipe then { s with iuPc := Tab.put 0 s.iuPc (8 * v.core + v.warp.iu) (v.pc.truncate 32) } else s

def mapNext (f : State → State) : Host.Outcome State Fault Refusal → Host.Outcome State Fault Refusal
  | .next s => .next (f s)
  | .fault r => .fault r
  | .refused r => .refused r

/-- The recording context's log is full: its cores do not issue (spec/29 R413). -/
def State.logHolds (s : State) (v : View) : Bool :=
  (s.ctxOf v.ctx).dbgCtl.getLsbD 3 && !(s.ctxOf v.ctx).replaying && (s.ctxOf v.ctx).logFull

/-- The lower of a reason and the one for which the instruction would not issue of itself (spec/03 R55: of several
conditions the lowest-numbered counts). -/
def State.lowestReason (s : State) (v : View) (i : Instr) (reason : Nat) : Nat :=
  match exec i (s.beginIssue v i) with
  | .next t =>
    match ((t.viewOf? v.sel).map fun u => u.split.wait : Option Wait) with
    | some (.stall r) => min r reason
    | _ => reason
  | _ => reason

/-- What holds a decoded instruction back before it is executed: the scoreboard, or the replay log. -/
def State.holdsBack? (s : State) (v : View) (i : Instr) : Option Nat :=
  match v.warp.blocked? (Instr.operands i ++ s.exitReads v i) with
  | some r => some (s.lowestReason v i r)
  | none => if s.logHolds v || s.replayHolds v.team then some (s.lowestReason v i 15) else none

/-- P of the word at the split's address: the uniform pipe (spec/09 R127). -/
def State.uniformNext (s : State) (v : View) : Bool :=
  match s.fetchWord v.core v.ctx v.pc with
  | .word w => w.getLsbD 31
  | _ => false

/-- Run a decoded instruction of a split. -/
def State.runInstr (s : State) (v : View) (i : Instr) : Host.Outcome State Fault Refusal :=
  mapNext (fun t => t.afterIssue v (!s.uniformNext v)) (exec i (s.beginIssue v i))

/-- Issue the split named by x, if it is still there and may issue. -/
def State.issueSplit (s : State) (x : Sel) : Host.Outcome State Fault Refusal :=
  let s := { s with cur := x }
  match s.view? with
  | none => .next s
  | some v =>
    if !v.goes || !(v.split.wait.mayIssue || v.faultDue) then .next s
    else if v.faultDue then execDeferredFaultTake x s
    else if (s.ctxOf v.ctx).breaksAt v.pc && !v.team.halted then execBreakpointHit x s
    else
      match s.fetch v.core v.ctx v.pc with
      | .miss va => .next (s.startWalk v va.toNat .fetch 0)
      | .ecc info => .next (s.takeFault v ⟨fECC, info, 0, 0⟩ v.pc)
      | .instr i =>
        let s := s.keepCode v.core v.ctx v.pc
        match s.holdsBack? v i with
        | some r => .next (s.stall v r)
        | none => s.runInstr v i

end Sys2Proof.Machine
end

