-- ==== Sys2Proof/Machine/Clock.lean ====
section
/-!
DEFINITION. The beginning of a clock: time, inputs, arbitration of the issue units (spec/03 R50 to R55), what is due, and
the one free completion. It fills State.plan, which the following steps work off (log 3, log 4).
-/

namespace Sys2Proof.Machine

/-- The step of an agent of the module. -/
def State.runEvent (s : State) : Ev → Host.Outcome State Fault Refusal
  | .regangTimeout team warp pc parent => execRegangTimeout team warp pc parent s
  | .waitcReread x => execWaitcReread x s
  | .waitcExpiry x => execWaitcExpiry x s
  | .loadComplete id => execLoadComplete id s
  | .storeComplete id => execStoreComplete id s
  | .atomicAtMemory id => execAtomicAtMemory id s
  | .l1Writeback core line => execL1Writeback core line s
  | .xbarRequest die port line => execXbarRequest die port line s
  | .d2dBeatReceive src dst beat => execD2dBeatReceive src dst beat s
  | .l2FillComplete die slice line => execL2FillComplete die slice line s
  | .columnPowerDown die slice => execColumnPowerDown die slice s
  | .columnPowerUpComplete die slice => execColumnPowerUpComplete die slice s
  | .copyComplete id => execCopyComplete id s
  | .copyEngineFault id => execCopyEngineFault id s
  | .matrixStep core => execMatrixStep core s
  | .textureComplete id => execTextureComplete id s
  | .rayStop id => execRayStop id s
  | .rgdispComplete id => execRgdispComplete id s
  | .ncallAccept cluster => execNcallAccept cluster s
  | .rowPlace cluster => execRowPlace cluster s
  | .binAgeDispatch cluster => execBinAgeDispatch cluster s
  | .binStallDispatch cluster => execBinStallDispatch cluster s
  | .weightVersionLoad cluster ctx set ver => execWeightVersionLoad cluster ctx set ver s
  | .tileComplete cluster => execTileComplete cluster s
  | .twillArrival id => execTwillArrival id s
  | .twillSendRetry id => execTwillSendRetry id s
  | .twillDelivery router ctx tag => execTwillDelivery router ctx tag s
  | .twillDeliveryRetry router ctx tag => execTwillDeliveryRetry router ctx tag s
  | .twillLandingTimeout id => execTwillLandingTimeout id s
  | .takeLaunchRecord die => execTakeLaunchRecord die s
  | .parkedRecordReady id => execParkedRecordReady id s
  | .sendTask die => execSendTask die s
  | .placeTask cluster => execPlaceTask cluster s
  | .stagingCopyFault task => execStagingCopyFault task s
  | .gangStart task => execGangStart task s
  | .stealRequest cluster => execStealRequest cluster s
  | .stealRequestArrival cluster => execStealRequestArrival cluster s
  | .teamExit team => execTeamExit team s
  | .warpBudgetReturn team warp => execWarpBudgetReturn team warp s
  | .priorityPreempt task => execPriorityPreempt task s
  | .preemptDrainExpiry gang => execPreemptDrainExpiry gang s
  | .ctxctlKillDone c => execCtxctlKillDone c s
  | .teamWatchdog team => execTeamWatchdog team s
  | .faultDrainExpiry team => execFaultDrainExpiry team s
  | .pageWalkComplete id => execPageWalkComplete id s
  | .tlbinvDone c => execTlbinvDone c s
  | .sampleTake core => execSampleTake core s
  | .recordChunkLimit team => execRecordChunkLimit team s
  | .fwmCommandComplete => execFwmCommandComplete s
  | .powerExitComplete => execPowerExitComplete s
  | .throttleStep => execThrottleStep s
  | .episodeCreate c => execEpisodeCreate c s
  | .episodeTimeslice die core => execEpisodeTimeslice die core s
  | .episodeTickBudgetExpiry pair => execEpisodeTickBudgetExpiry pair s
  | .episodeInstrBudgetExpiry pair => execEpisodeInstrBudgetExpiry pair s
  | .mailboxActionArrival id => execMailboxActionArrival id s
  | .mailboxGetArrival id => execMailboxGetArrival id s
  | .pairRelease pair => execPairRelease pair s
  | .sorghumInstruction pair core => execSorghumInstruction pair core s
  | .primitiveRasterise front prim => execPrimitiveRasterise front prim s
  | .pixelExportApply cluster => execPixelExportApply cluster s
  | .abandonedOperationStopped id => execAbandonedOperationStopped id s

/-! ## Time (spec/00 R3; spec/01 R29, R30) -/

/-- Work of the contexts runs: an image runs, the module is in M0, and it is not in diagnostic mode. -/
def State.works (s : State) : Bool := s.active && !s.diagMode

/-- A reference clock edge. -/
def State.nextTick (s : State) : State := { s with tick := s.tick + 1, episodes := s.episodes.map Episode.spendTick }

/-- One clock: a tick falls after as many clocks as the core clock has in 10 ns. Where the clocks are gated, only ticks
pass. -/
def State.nextClock (s : State) : State :=
  if !s.active then s.nextTick
  else
    let sub := s.subClock + 100
    if sub ≥ s.clkMHz then { s with clock := s.clock + 1, subClock := sub - s.clkMHz }.nextTick
    else { s with clock := s.clock + 1, subClock := sub }

/-! ## What the caches hold (spec/01 R8; log 5) -/

/-- Lines of an L1 of 512 KiB, and of a far-cache bank of 1 MiB; words of an instruction buffer of 128 KiB. -/
def l1Lines : Nat := 2048
def farBankLines : Nat := 4096
def ibufWords : Nat := 32768

def linesOf {α : Type} (t : List (Nat × α)) : List Nat := (t.map fun e => e.1 / 256).eraseDups

/-- One of the lines, by a free choice. -/
def State.pickLine (s : State) (ls : List Nat) : State × Nat :=
  ({ s with freeCtr := s.freeCtr + 1 }, ls.getD (Config.freeChoice s.freeCtr % ls.length) 0)

/-- Lines leave an L1, their dirty bytes for home, until it holds no more than it can. -/
def State.trimL1 (core : Nat) : Nat → State → State
  | 0, s => s
  | n + 1, s =>
    let ls := linesOf (s.l1Of core)
    if ls.length ≤ l1Lines then s
    else
      let (s, line) := s.pickLine ls
      State.trimL1 core n ((s.flushIf core fun k => k / 256 == line).dropClean core fun k => k / 256 == line)

/-- Lines leave a bank of a far cache. -/
def State.trimFar (die bank : Nat) : Nat → State → State
  | 0, s => s
  | n + 1, s =>
    let ls := (linesOf (s.farOf die)).filter fun l => l % 64 == bank
    if ls.length ≤ farBankLines then s
    else
      let (s, line) := s.pickLine ls
      State.trimFar die bank n
        { s with far := Tab.put [] s.far die ((s.farOf die).filter fun e => e.1 / 256 != line) }

/-- An instruction buffer keeps the newest words of a core. -/
def trimCode (t : List CodeWord) : List CodeWord :=
  (t.map (·.core)).eraseDups.flatMap fun c => (t.filter (·.core == c)).take ibufWords

def State.trim (s : State) : State :=
  let s := s.l1.foldl (fun s c => State.trimL1 c.1 (linesOf c.2).length s) s
  let s := s.far.foldl (fun s d => ((linesOf d.2).map (· % 64)).eraseDups.foldl
    (fun s b => State.trimFar d.1 b (linesOf d.2).length s) s) s
  { s with ibuf := trimCode s.ibuf }

/-! ## Stall counters (spec/03 R55) -/

/-- The reason of a team's lowest-numbered warp that has a live lane. -/
def Team.stallReason? (t : Team) : Option Nat :=
  let ws := sortBy (fun (a b : Warp) => decide (a.num ≤ b.num)) (t.warps.filter fun w => !w.dead)
  ws.head?.bind fun w => (oldestSplit w.splits).map fun sp => sp.wait.reason

/-- The clock that ends counts for a team none of whose warps issued in it. -/
def Team.countStall (t : Team) (clock : Nat) : Team :=
  if t.halted || t.issuedAt = clock then t
  else
    match t.stallReason? with
    | some r => { t with stalls := Tab.upd 0 t.stalls r fun n => if n = 0xFFFFFFFF then n else n + 1 }
    | none => t

/-- Episodes whose tick budget has run out end before their environment does anything more in this clock (spec/25 R370). -/
def State.expireEpisodes (s : State) : State :=
  if s.works then s.episodes.foldl (fun s e => nextOr (execEpisodeTickBudgetExpiry e.pair s) s) s else s

/-! ## Inputs -/

/-- What the outside world, firmware, the environments of episodes and the links may do to the module. -/
def isInput : Instr → Bool
  | .qtailWrite _ _ _ | .queueReconfigure _ _ _ _ | .ctxctlHold _ _ | .ctxctlKill _ | .pgrespRetry _ _ | .pgrespRefusePage _ _
  | .pgrespRefuseProt _ _ | .tlbinvPage _ _ | .tlbinv2m _ _ | .tlbinv1g _ _ | .tlbinvAll _ | .eccCorrected
  | .eccUncorrectable _ | .dbgHalt _ | .dbgResume _ | .dbgStep _ | .dbgStop _ _ _ | .dbgKill _ | .dbgHaltall _ _
  | .stateWindowWrite _ _ _ | .snapshotExternalTrigger | .powerOn | .firmwareVerifyComplete _ _ | .fwAttest _ | .fwIdkey _
  | .fwmUnknownCommand _ _ | .pwrReqM0 | .pwrReqM1 | .pwrReqM2 | .pwrReqM3 | .powerWake | .throttleLimitChange _
  | .twtagsWrite _ _ _ | .epqtailWrite _ _ | .epkill _ _ | .drawSubmit _ _ | .registerWrite _ _ _ | .diagnosticModeChange _ | .cxlMemAccess _
  | .peerAccess _ | .murusLinkChange _ _ => true
  | _ => false

/-- The first pending input acts. -/
def State.takeInput (s : State) : State :=
  match s.inputs with
  | [] => s
  | i :: rest =>
    let s := { s with inputs := rest }
    if isInput i then nextOr (exec i s) s else s

/-! ## Arbitration (spec/03 R50 to R53) -/

/-- A ready split: where it stands and what the order of R51 compares; whether it stands at a BARI, which comes before
the other barrier events of its clock (spec/13 R234). -/
structure Cand where
  x       : Sel
  core    : Nat
  iu      : Nat
  mask    : BitVec 8
  pc      : Addr
  last    : Nat
  uniform : Bool
  inits   : Bool
  deriving DecidableEq, Repr

def Cand.le (a b : Cand) : Bool :=
  a.last < b.last || (a.last == b.last && (a.x.warp < b.x.warp || (a.x.warp == b.x.warp && a.x.slice ≤ b.x.slice)))

/-- Every split of the module that may try to issue. -/
def State.tryable (s : State) : List Sel :=
  s.teams.flatMap fun t => t.warps.flatMap fun w => (w.splits.filter fun sp => sp.wait.mayIssue || !sp.deferred.isEmpty).map fun sp =>
    ⟨t.uid, w.num, lowestBit 8 sp.mask.toNat⟩

/-- The instruction that the split will run next, where nothing comes before it. -/
def State.nextInstr? (s : State) (v : View) : Option Instr :=
  if v.faultDue || ((s.ctxOf v.ctx).breaksAt v.pc && !v.team.halted) then none
  else
    match s.fetch v.core v.ctx v.pc with
    | .instr i => if (s.holdsBack? v i).isNone then some i else none
    | _ => none

def Instr.isBari : Instr → Bool
  | .bari _ | .bariImm _ => true
  | _ => false

/-- Whether a split is ready: an attempt that leaves it held tells why, and its walk stands, as does its arrival at a
REGANG (spec/03 R39); any other attempt is undone, to be made in its turn. -/
def State.tryIssue (s : State) (x : Sel) : State × Option Cand :=
  match s.viewOf? x with
  | none => (s, none)
  | some v =>
    if !v.goes || !(v.split.wait.mayIssue || v.faultDue) then (s, none)
    else
      let i := s.nextInstr? v
      let cand : Cand :=
        ⟨v.sel, v.core, v.warp.iu, v.split.mask, v.pc, v.split.lastIssue, s.uniformNext v, i.any Instr.isBari⟩
      let ready := (if v.faultDue then s else s.waitWith v .none, some cand)
      match s.issueSplit x with
      | .next t =>
        if i.any v.joins || ((t.viewOf? x).map fun u => u.split.wait.held).getD false then (t, none) else ready
      | _ => ready

def State.tryAll (s : State) (xs : List Sel) : State × List Cand :=
  xs.foldl (fun (a : State × List Cand) x =>
    let (s, c) := a.1.tryIssue x
    (s, a.2 ++ c.toList)) (s, [])

/-- The sheaf of an issue unit: the first, and every later split of its team at its address that fits beside it. -/
def sheafOf : List Cand → List Cand
  | [] => []
  | a :: rest =>
    (rest.foldl (fun (acc : List Cand × BitVec 8) c =>
      if c.x.team == a.x.team && c.pc == a.pc && c.mask &&& acc.2 == 0 then (acc.1 ++ [c], acc.2 ||| c.mask) else acc)
      ([a], a.mask)).1

/-- What an issue unit issues in a clock: a sheaf in the lane pipe, one split in the uniform pipe. -/
def issuesOf (cs : List Cand) : List Cand :=
  let inOrder := sortBy Cand.le cs
  sheafOf (inOrder.filter (!·.uniform)) ++ (inOrder.filter (·.uniform)).take 1

/-- The issues of a clock, by issue unit in ascending order, each BARI before the rest. -/
def State.arbitrate (s : State) : State × List Pick :=
  let (s, cs) := s.tryAll s.tryable
  let units := sortBy (fun a b => decide (a ≤ b)) (distinct (cs.map fun c => 8 * c.core + c.iu))
  let chosen := units.flatMap fun u => issuesOf (cs.filter fun c => 8 * c.core + c.iu == u)
  (s, (chosen.filter (·.inits) ++ chosen.filter (!·.inits)).map fun c => Pick.issue c.x)

/-! ## What is due in a clock -/

/-- Splits in a WAITC. -/
def State.inWaitc (s : State) : List Sel :=
  s.teams.flatMap fun t => t.warps.flatMap fun w => (w.splits.filter (·.waitc.isSome)).map fun sp =>
    ⟨t.uid, w.num, lowestBit 8 sp.mask.toNat⟩

/-- The per-clock work of the task queue units (spec/19 R300, R301, R308). -/
def State.queueWork (s : State) : List Ev :=
  let dies := List.range 4
  (dies.filter fun d => !(s.offers d).isEmpty).map Ev.takeLaunchRecord ++
    (s.records.filter fun r => !r.ready).map (fun r => Ev.parkedRecordReady r.uid) ++
    (dies.filter fun d => (s.nextReady d).isSome).map Ev.sendTask

/-- Columns that have been idle long enough (spec/01 R15). -/
def State.idleColumns (s : State) : List Ev :=
  (List.range 384).filterMap fun k =>
    let c := s.col k
    if c.power == .on && c.idle && c.idleAt + 64 ≤ s.clock then some (.columnPowerDown (k / 96) (k % 96))
    else
      match c.power with
      | .waking ready => if ready ≤ s.clock then some (.columnPowerUpComplete (k / 96) (k % 96)) else none
      | _ => none

/-- Where a send is taken: a router of this module, or another module. -/
def State.takerOf (s : State) (m : TwSend) : Nat :=
  if destRouterModule m.dest = s.khmod.toNat then routerOf (tagIndex m.tag) else 64 + m.id

/-- The order in which a router takes tiles: by the clock of their arrival, then by source COREID (spec/23 R354). -/
def State.earlier (s : State) (a b : TwSend) : Bool :=
  let core := fun (m : TwSend) => 128 * m.peer.getD s.khmod.toNat + m.core
  a.next < b.next || (a.next == b.next && core a ≤ core b)

/-- Each router takes the first of the tiles that have arrived. -/
def State.arrivals (s : State) : List Ev :=
  let due := sortBy s.earlier (s.sends.filter fun m => m.next != 0 && decide (m.next ≤ s.clock))
  (distinct (due.map s.takerOf)).filterMap fun k =>
    (due.find? fun m => s.takerOf m == k).map fun m => if m.again then Ev.twillSendRetry m.id else .twillArrival m.id

/-- Tiles that travel arrive when they do: each that no link carries any more, in a clock, or not, by a free choice. -/
def State.travel (s : State) : State :=
  (s.sends.filter fun m => m.next == 0 && !s.tileUnderWay m.id).foldl (fun s m =>
    let (s, now) := s.flip
    if now then { s with sends := modFirst (·.id == m.id) (fun m => { m with next := s.clock }) s.sends } else s) s

/-- Mailbox requests that reach their pairs in this clock, by a free choice of each: in ascending source COREID
(spec/25 R370). -/
def State.mailArrivals (s : State) : State × List Ev :=
  let (s, here) := s.mbReqs.foldl (fun (a : State × List MbReq) m =>
    let (s, now) := a.1.flip
    (s, if now then a.2 ++ [m] else a.2)) (s, [])
  (s, (sortBy (fun (a b : MbReq) => decide (a.core ≤ b.core)) here).map fun m =>
    if m.put then Ev.mailboxActionArrival m.id else .mailboxGetArrival m.id)

/-- Meetings that TWORPH has overtaken become orphans at the end of the tick (spec/23 R357). -/
def State.endTick (s : State) : State :=
  (s.meetings.filter fun e => decide (e.tick + (s.ctxOf e.ctx).twOrph.toNat ≤ s.tick)).foldl
    (fun s e => nextOr (execTwillOrphan e.router e.ctx e.tag s) s) s

/-- The next clock begins a tick. -/
def State.tickEnds (s : State) : Bool := decide (s.subClock + 100 ≥ s.clkMHz)

/-- Everything whose time has come, or that a clock brings with it. A step that turns out not to be due changes nothing. -/
def State.due (s : State) : List Ev :=
  let xs := s.inWaitc
  s.queueWork ++
    s.episodes.flatMap (fun e => (if e.tbud = some 0 then [Ev.episodeTickBudgetExpiry e.pair] else []) ++
      (if e.ibud = some 0 then [Ev.episodeInstrBudgetExpiry e.pair] else []) ++
      match e.core with
      | some k => if e.sliceEnd ≤ s.tick then [Ev.episodeTimeslice (dieOfPair e.pair) k] else []
      | none => []) ++
    (s.pairs.filter fun p => p.2.st == .ended && decide (p.2.endTick + 1000 ≤ s.tick)).map (fun p => Ev.pairRelease p.1) ++
    xs.map Ev.waitcReread ++ xs.map Ev.waitcExpiry ++
    (distinct ((s.ncalls.filter fun c => !c.accepted).map fun c => clusterOfCore c.core)).map Ev.ncallAccept ++
    (s.regroups.filter fun r => r.2.bins.any fun b => decide (b.2.oldest + 256 ≤ s.clock)).map
      (fun r => Ev.binAgeDispatch r.1) ++
    s.arrivals ++
    (s.meetings.filter fun e => e.combined && e.retryAt != 0 && decide (e.retryAt ≤ s.clock)).map
      (fun e => Ev.twillDeliveryRetry e.router e.ctx e.tag) ++
    (s.landings.filter fun l => decide (l.tick + (s.ctxOf l.ctx).twOrph.toNat ≤ s.tick)).map
      (fun l => Ev.twillLandingTimeout l.id) ++
    (s.tasks.filter fun t => match t.st with | .staged _ _ _ [] => true | _ => false).map (fun t => Ev.gangStart t.uid) ++
    (s.ctxs.filter fun c => c.2.kill).map (fun c => Ev.ctxctlKillDone c.1) ++
    (s.gangs.filter fun g => g.drainAt.any fun k => decide (k ≤ s.tick)).map (fun g => Ev.preemptDrainExpiry g.uid) ++
    (s.teams.filter fun t => !t.watched && decide (t.startTick + (s.ctxOf t.ctx).teamWd.toNat ≤ s.tick)).map
      (fun t => Ev.teamWatchdog t.uid) ++
    (s.teams.filter fun t => t.removeAt.any fun k => decide (k ≤ s.tick)).map (fun t => Ev.faultDrainExpiry t.uid)

/-- Samples, after the issues of their clock (spec/29 R409). -/
def State.dueSamples (s : State) : List Ev :=
  if s.samplesDue.isEmpty then [] else (distinct (s.teams.map (·.core))).map Ev.sampleTake

/-- What is due in the module whatever the contexts do: the clock's steps and the exit from a low-power state
(spec/01 R29, R30); and, where the clocks run, in diagnostic mode too (spec/07 R114), its ports and columns. -/
def State.moduleDue (s : State) : List Ev :=
  (if steppedClock s.limits s.clkMHz != s.clkMHz then [Ev.throttleStep] else []) ++
    (if s.pwrExit.any fun at' => decide (at' ≤ s.tick) then [.powerExitComplete] else []) ++
    if s.active then s.idleColumns ++ s.portsDue else []

/-- Pre-emptions by tasks that have waited: a commit of the same clock takes effect before them (spec/19 R324). -/
def State.duePreempts (s : State) : List Ev :=
  (s.tasks.filter fun t => t.prio = 3 && t.st == .unplaced && decide (t.tick + 10000 ≤ s.tick)).map
    (fun t => Ev.priorityPreempt t.uid)

/-- Fuse groups whose wait is over (spec/03 R39). -/
def State.dueGroups (s : State) : List Ev :=
  s.teams.flatMap fun t => t.warps.flatMap fun w => (w.groups.filter (w.groupDue s.clock)).map fun g =>
    .regangTimeout t.uid w.num g.pc g.parent

/-! ## Free completions (log 4) -/

/-- Lines of a replayed team's dirty bytes are written back at the ends of its chunks only (spec/29 R414; log 30). -/
def State.replays (s : State) (team : Nat) : Bool := (s.team? team).any (·.replayed)

/-- Work in flight that may move on in this clock. -/
def State.enabled (s : State) : List Ev :=
  (s.memOps.filter fun m => !s.underWay m.id).map (fun m => if !m.atoms.isEmpty then Ev.atomicAtMemory m.id else if m.isLoad then .loadComplete m.id else .storeComplete m.id) ++
    s.l1.flatMap (fun c => (distinct ((c.2.filter fun b => b.2.dirty && !s.replays b.2.owner).map fun b => b.1 / 256)).map
      fun l => Ev.l1Writeback c.1 l) ++
    (s.copies.filter fun c => !s.copyWalks c.id && !s.underWay c.id).flatMap (fun c =>
      if c.dead then [Ev.abandonedOperationStopped c.id]
      else
        match c.staging with
        | some t => [.copyComplete c.id, .stagingCopyFault t]
        | none => [.copyComplete c.id, .copyEngineFault c.id]) ++
    (distinct (s.matOps.map (·.core))).map Ev.matrixStep ++
    s.texOps.map (fun m => Ev.textureComplete m.id) ++
    (s.rays.filter fun r => r.st == .running).map (fun r => Ev.rayStop r.id) ++
    s.rgOps.map (fun m => Ev.rgdispComplete m.id) ++
    s.regroups.flatMap (fun r =>
      (if r.2.queue.isEmpty then [] else [Ev.rowPlace r.1]) ++ (if r.2.tiles.isEmpty then [] else [.tileComplete r.1]) ++
        r.2.loads.map fun l => .weightVersionLoad r.1 l.key.ctx l.key.set l.key.ver) ++
    (s.meetings.filter fun e => e.combined && e.retryAt == 0).map (fun e => Ev.twillDelivery e.router e.ctx e.tag) ++
    (distinct ((s.tasks.filter fun t => t.st == .unplaced).map (·.cluster))).map Ev.placeTask ++
    (if s.tasks.any fun t => !t.st.started then
      ((List.range 32).filter fun cl => !(s.tasks.any fun t => t.cluster == cl && !t.st.started) &&
        !(s.steals.any (·.1 == cl))).map Ev.stealRequest
      else []) ++
    (s.steals.filter fun x => !s.links.any fun l => l.2.carries (· == .steal x.1)).map (fun x => Ev.stealRequestArrival x.2) ++
    (s.teams.filter fun t => t.warps.all Warp.dead).map (fun t => Ev.teamExit t.uid) ++
    s.teams.flatMap (fun t => (t.warps.filter fun w => w.dead && !w.returned).map fun w => Ev.warpBudgetReturn t.uid w.num) ++
    (List.range 4).flatMap (fun d => (((s.walks.filter (·.die == d)).take 64).filter fun w => !s.underWay w.id).map fun w => Ev.pageWalkComplete w.id) ++
    (s.ctxs.filter fun c => c.2.tlbInv.isSome).map (fun c => Ev.tlbinvDone c.1) ++
    (s.ctxs.filter fun c => c.2.epqHead != c.2.epqTail).map (fun c => Ev.episodeCreate c.1) ++
    (s.episodes.filter (·.runnable)).flatMap (fun e => (e.core.map fun k => Ev.sorghumInstruction e.pair k).toList) ++
    s.draws.flatMap (fun d => ((List.range 4).filter d.works).map fun die => Ev.primitiveRasterise ⟨die, d.id⟩ (d.nextOn die)) ++
    (distinct (s.pixels.map (·.cluster))).map Ev.pixelExportApply

/-- What goes on while the contexts' work does not run, too: the firmware mailbox and, where the clocks run, the fills of
the L2 slices and the beats of the links. -/
def State.enabledModule (s : State) : List Ev :=
  (if s.fwm.busy then [Ev.fwmCommandComplete] else []) ++
    if s.active then s.cols.flatMap (fun c => c.2.filling.map fun l => Ev.l2FillComplete (c.1 / 96) (c.1 % 96) l) ++ s.beats
    else []

/-- One of them, or none, by a free choice. -/
def State.freeEvent (s : State) (evs : List Ev) : State × List Pick :=
  if evs.isEmpty then (s, [])
  else
    ({ s with freeCtr := s.freeCtr + 1 },
      ((evs[Config.freeChoice s.freeCtr % (evs.length + 1)]?).map Pick.event).toList)

/-! ## The clock -/

/-- Replay-log entries that wait go in where the host has made room. -/
def State.logsDrain (s : State) : State :=
  (s.ctxs.filter fun c => !c.2.rlWait.isEmpty).foldl (fun s c => State.logDrain c.2.rlWait.length c.1 s) s

/-- The end of the clock before, then time. -/
def State.turn (s : State) : State :=
  ({ s with teams := s.teams.map fun (t : Team) => t.countStall s.clock }.nextClock).checkReservations.expireEpisodes.logsDrain.trim

def State.beginClock (s : State) : State :=
  let s := s.turn
  let s := if s.active then s.linkClock else s
  if !s.works then
    let (s, free) := s.freeEvent s.enabledModule
    { s with plan := s.moduleDue.map Pick.event ++ free ++ s.plan ++ [.input] }
  else
    let (s, issues) := s.arbitrate
    let (s, free) := s.freeEvent (s.enabled ++ s.enabledModule)
    let (s, mail) := s.travel.mailArrivals
    { s with plan := (s.moduleDue ++ s.due).map Pick.event ++ issues ++ free ++ s.plan ++ s.dueSamples.map Pick.event ++
        s.regroups.map (fun r => Pick.event (.binStallDispatch r.1)) ++ s.dueGroups.map Pick.event ++ [.barriers] ++
        s.duePreempts.map Pick.event ++ [.input] ++ mail.map Pick.event ++ if s.tickEnds then [.tickEnd] else [] }

end Sys2Proof.Machine
end

