-- ==== Sys2Proof/Machine/Step.lean ====
section
/-!
DEFINITION. One step of the machine: the next of what State.plan lists, or the beginning of a clock when it is empty.
-/

namespace Sys2Proof.Machine

def step (s : State) : Host.Outcome State Fault Refusal :=
  match s.plan with
  | .issue x :: rest => { s with plan := rest }.issueSplit x
  | .event e :: rest => { s with plan := rest }.runEvent e
  | .barriers :: rest => .next { s with plan := rest }.updateBarriers
  | .tickEnd :: rest => .next { s with plan := rest }.endTick
  | .input :: rest => .next { s with plan := rest }.takeInput
  | [] => .next s.beginClock

/-- A module that runs one team of one warp of one split, which stands at address 0 of a page whose home bytes are the
instruction: `s` otherwise. It stands for a launch (log 13). -/
def State.withFetchWord (s : State) (nbits w : Nat) : State :=
  let uid := s.nextId
  let warp : Warp := {
    num := 0, iu := 0, role := 1, budget := 1024, vbound := 256
    slices := List.replicate 8 {}, splits := [{ mask := 0xFF, pc := 0, parent := 0, lastIssue := s.clock }]
    recs := [⟨0, 0xFF, none⟩] }
  let team : Team := {
    uid, ctx := 0, inst := 1, core := 0, gang := uid + 1, num := 0, taskIdx := 0, prod := 0, warps := [warp]
    scrBase := 0, scrBytes := 0, entry := 0, bars := [], startTick := s.tick }
  let gang : Gang := {
    uid := uid + 1, ctx := 0, gangId := 0, cluster := 0, task := uid + 2, prio := 0, teams := [uid], drain := true
    started := s.clock }
  let x : Sel := ⟨uid, 0, 0⟩
  { s with
    fwState := 1
    mem := Tab.putRange Memory.unwritten s.mem 0 (bytesOfNat (max 8 (nbits / 8)) w)
    tlb := ⟨0, 0, 0, 65536, BitVec.ofNat 64 (0x3D + s.khmod.toNat * 2 ^ 57)⟩ :: s.tlb
    teams := s.teams ++ [team], gangs := s.gangs ++ [gang], nextId := uid + 3
    cur := x, plan := .issue x :: s.plan }

end Sys2Proof.Machine
end

