-- ==== Sys2Proof/Safety.lean ====
section
/-!
DEFINITION. What a run of the machine must keep: the memory tables stay canonical, every step that can be taken is
taken without a stop.
-/

namespace Sys2Proof.Machine

/-- The memory lists hold no two entries for a byte and no entry equal to an unwritten byte, and no L1 holds a byte twice. -/
def State.memoryOk (s : State) : Prop :=
  Memory.wf s.mem = true ∧ Memory.wf s.scratch = true ∧ ∀ c, ((s.l1Of c).map (·.1)).Pairwise (· < ·)

/-- A run that reaches neither a fault nor a refusal of the model in k steps. -/
def State.runsOk (s : State) (k : Nat) : Prop := ∃ t, Sys2Proof.core.run k s = .next t

/-! ## What an instruction leaves (spec/03 R36, R37; spec/05 R86; spec/11 R161; spec/29 R405) -/

/-- What an instruction writes: vector registers and lane predicates by number and lane, uniform registers and
predicates by slice and number, and flags. None says that the old value stays. -/
structure Writes where
  v : Nat → Nat → Option Word := fun _ _ => none
  p : Nat → Nat → Option Bool := fun _ _ => none
  s : Nat → Nat → Option Word := fun _ _ => none
  q : Nat → Nat → Option Bool := fun _ _ => none
  flags : Word := 0

/-- A slice that was a is b after its split, which holds it if mine, has retired and sent it to address next: its
deferral stack acts there (spec/03 R37). -/
structure Slice.After (a b : Slice) (mine : Bool) (s : Nat → Option Word) (q : Nat → Option Bool) (next : Addr) : Prop where
  rest    : b = { a with sregs := b.sregs, q := b.q, retired := b.retired, act := b.act, dstack := b.dstack }
  sregs   : ∀ r, b.s r = (s r).getD (a.s r)
  qregs   : ∀ n, n < 7 → b.getQ n = (q n).getD (a.getQ n)
  retired : b.retired = if mine then a.retired + 1 else a.retired
  lanes   : let m := if mine = true ∧ a.live ≠ 0 then (a.settle next).1 else a
            b.act = m.act ∧ b.dstack = m.dstack

/-- The slices of split sp that live do not all go to one address: a division (spec/03 R36). -/
def Warp.Divides (w : Warp) (sp : Split) (next : Nat → Addr) : Prop :=
  ∃ j k, sp.mask.getLsbD j = true ∧ sp.mask.getLsbD k = true ∧ (w.sl j).live ≠ 0 ∧ (w.sl k).live ≠ 0 ∧ next j ≠ next k

/-- The rest of warp x, which split sp of warp w has left with slice k to address next k (spec/03 R34 to R36, R39): splits
of other slices stay, but that one which now covers the live slices of its record takes the outer identifier; a split that
is not one of those lies within sp; dead slices leave the fuse groups; a record stays unless no slice of it lives or a split
covers it, and the one new record is that of a division. -/
structure Warp.Placed (w x : Warp) (sp : Split) (next : Nat → Addr) : Prop where
  others : ∀ a ∈ w.splits, a.mask &&& sp.mask = 0 → ∃ b ∈ x.splits, b = { a with parent := b.parent } ∧
    ((w.splits.map (·.mask)).Nodup → a.mask ≠ 0 →
      b.parent = a.parent ∨ ∃ r ∈ w.recs, r.id = a.parent ∧ r.mask &&& w.liveSlices = a.mask)
  only   : ∀ b ∈ x.splits, b.mask &&& sp.mask = b.mask ∨
    ∃ a ∈ w.splits, a.mask &&& sp.mask = 0 ∧ b = { a with parent := b.parent }
  groups : x.groups = (w.groups.map fun g => { g with mask := g.mask &&& w.liveSlices }).filter (·.mask != 0)
  kept   : ∀ r ∈ w.recs, r ∈ x.recs ∨ (r.id ≠ 0 ∧ r.mask &&& w.liveSlices = 0) ∨
    ∃ q : DivRec, (q ∈ w.recs ∨ w.Divides sp next) ∧ q.id = r.id ∧ ∃ b ∈ x.splits, b.mask = q.mask &&& w.liveSlices
  new    : ∀ r ∈ x.recs, r ∈ w.recs ∨ (w.Divides sp next ∧ r.outer = some sp.parent ∧ 1 ≤ r.id ∧ r.id ≤ 255 ∧
    ∀ k, k < 8 → r.mask.getLsbD k = (sp.mask.getLsbD k && decide ((w.sl k).live ≠ 0)))
  idCtr  : ¬w.Divides sp next → x.idCtr = w.idCtr

/-- Warp x follows warp w, from which split sp has retired with these writes, slice k to address next k. -/
structure Warp.After (w x : Warp) (sp : Split) (wr : Writes) (next : Nat → Addr) : Prop where
  rest   : x = { w with
    entries := x.entries, preds := x.preds, slices := x.slices, splits := x.splits, recs := x.recs, idCtr := x.idCtr
    groups := x.groups }
  vregs  : ∀ r l, l < 32 → x.v r l = (wr.v r l).getD (w.v r l)
  preds  : ∀ n l, n < 7 → l < 32 → x.p n l = (wr.p n l).getD (w.p n l)
  slices : ∀ k, (w.sl k).After (x.sl k) (sp.mask.getLsbD k) (wr.s k) (wr.q k) (next k)
  stands : ∀ k, sp.mask.getLsbD k = true → (w.sl k).live ≠ 0 →
    (x.splitOf? k).map (·.pc) = some ((w.sl k).settle (next k)).2
  placed : w.Placed x sp next

/-- State t follows state s, in which the split of view v has retired with these writes, its warp being w before them.
Nothing else changes but what the debugger, the record and the replay keep (spec/29 R406, R407, R413, R414). -/
structure State.Retires (s t : State) (v : View) (w : Warp) (wr : Writes) (next : Nat → Addr) : Prop where
  rest  : t = { s with teams := t.teams, ctxs := t.ctxs, plan := t.plan }
  ctxs  : ∀ c, t.ctxOf c = { s.ctxOf c with
    stop := (t.ctxOf c).stop, dbgStat := (t.ctxOf c).dbgStat, rlHead := (t.ctxOf c).rlHead }
  plan  : t.plan = s.plan ∨ t.plan = .event (.recordChunkLimit v.team.uid) :: s.plan
  teams : ∀ u, u ≠ v.team.uid → t.team? u = s.team? u
  team  : ∃ b x, t.team? v.team.uid = some b ∧ b.warp? v.warp.num = some x ∧ w.After x v.split wr next ∧
    (∀ n, n ≠ v.warp.num → b.warp? n = v.team.warp? n) ∧
    b = { v.team with
      warps := b.warps, flags := v.team.flags ||| wr.flags, raised := b.raised, raisedAt := b.raisedAt
      halted := b.halted, stepping := b.stepping, chunk := b.chunk }

/-- Instruction i, len bytes long, completes in s for the split of v and does nothing but these writes. -/
def State.Computes (s : State) (i : Instr) (v : View) (len : Nat) (wr : Writes) : Prop :=
  ∃ t, exec i s = .next t ∧ s.Retires t v v.warp wr fun _ => v.pc + BitVec.ofNat 64 len

/-- The split that issues is that of v, and i is a well-formed instruction that names no register it may not. -/
def State.Issues (s : State) (v : View) (i : Instr) : Prop := s.view? = some v ∧ v.operandsOk i = true ∧ i.wf = true

/-- FCTL lets no flag trap (spec/05 R88). -/
def View.trapFree (v : View) : Prop :=
  fctlESCTRAP v.team.fctl = false ∧ fctlTRAPINV v.team.fctl = false ∧ fctlTRAPOVF v.team.fctl = false

/-- Lane l participates in an instruction with this guard (spec/11 R161). -/
def View.takesPart (v : View) (g : BitVec 3) (gn : BitVec 1) (l : Nat) : Bool :=
  decide (l < 32) && v.laneOn l && v.pGuard g gn l

/-- Each participating lane writes 32 bits x l to vector register r, and 64 bits to the pair from r under W = 10. -/
def Writes.lanes (part : Nat → Bool) (w : BitVec 2) (r : BitVec 8) (x : Nat → Nat) (flags : Word) : Writes where
  v := fun n l =>
    if part l then
      if n = r.toNat then some (BitVec.ofNat 32 (x l))
      else if w = 2 ∧ n = r.toNat + 1 then some (BitVec.ofNat 32 (x l / 2 ^ 32)) else none
    else none
  flags := flags

/-- Each participating lane writes predicate n. -/
def Writes.preds (part : Nat → Bool) (n : Nat) (x : Nat → Bool) (flags : Word) : Writes where
  p := fun m l => if part l ∧ m = n then some (x l) else none
  flags := flags

/-- Every slice of the mask writes uniform register n. -/
def Writes.uniform (mask : BitVec 8) (n : Nat) (x : Word) (flags : Word) : Writes where
  s := fun k m => if mask.getLsbD k ∧ m = n then some x else none
  flags := flags

/-- Every slice of the mask writes uniform predicate n. -/
def Writes.flag (mask : BitVec 8) (n : Nat) (x : Bool) (flags : Word) : Writes where
  q := fun k m => if mask.getLsbD k ∧ m = n then some x else none
  flags := flags

/-- An instruction of the LR format completes with res l j in element j of each participating lane l. -/
def State.Elementwise (s : State) (v : View) (i : Instr) (f : LR) (len : Nat) (res : Nat → Nat → Nat) (flags : Word) : Prop :=
  ∃ x : Nat → Nat,
    (∀ l, v.takesPart f.g f.gn l = true → ∀ j, j < elemCount f.w →
      bitsOf (x l) (elemBits f.w * j) (elemBits f.w) = res l j) ∧
    s.Computes i v len (Writes.lanes (v.takesPart f.g f.gn) f.w f.vd x flags)

/-- An instruction completes with a number in register r of each participating lane (a pair under W = 10), no flag, and
P of each lane and its number. -/
def State.Lanewise (s : State) (v : View) (i : Instr) (g : BitVec 3) (gn : BitVec 1) (w : BitVec 2) (r : BitVec 8) (len : Nat)
    (P : Nat → Nat → Prop) : Prop :=
  ∃ x : Nat → Nat, (∀ l, v.takesPart g gn l = true → x l < 2 ^ (if w = 2 then 64 else 32) ∧ P l (x l)) ∧
    s.Computes i v len (Writes.lanes (v.takesPart g gn) w r x 0)

/-- An LR instruction, or the LU instruction that stands for it (spec/09 R133): the instruction, its LR fields, its length. -/
def unaryForms (lr : LR → Instr) (lu : LU → Instr) (i : Instr) (f : LR) (len : Nat) : Prop :=
  i = lr f ∧ len = 8 ∨ ∃ u, i = lu u ∧ f = LU.asLR u ∧ len = 4

/-- Flag f is raised when P holds, and no flag otherwise. -/
def Raises (flags f : Word) (P : Prop) : Prop := (P ∧ flags = f) ∨ (¬P ∧ flags = 0)

/-- Least and greatest value of an element of w bits. -/
def elemMin (uns : Bool) (w : Nat) : Int := if uns then 0 else -(2 ^ (w - 1) : Nat)
def elemMax (uns : Bool) (w : Nat) : Int := if uns then (2 ^ w : Nat) - 1 else (2 ^ (w - 1) : Nat) - 1

/-- An exact integer narrowed to an element: the nearest value under SAT, else its low bits. -/
def narrowed (sat uns : Bool) (w : Nat) (x : Int) : Nat :=
  wrapNat w (if sat then max (elemMin uns w) (min (elemMax uns w) x) else x)

/-- The exact integer is no value of the element. -/
def outside (uns : Bool) (w : Nat) (x : Int) : Prop := x < elemMin uns w ∨ elemMax uns w < x

/-- The flags of a list of results, ORed: bit b is raised when some result that counts raises it. -/
def FlagsOf {α : Type} (flags : Word) (counts : α → Prop) (g : α → Word) : Prop :=
  ∀ b, flags.getLsbD b = true ↔ ∃ a, counts a ∧ (g a).getLsbD b = true

/-- A floating-point lane instruction: g gives code and flags of each element from the elements of a, b and c. It
completes unless its flags trap; then it takes that fault and does nothing else (spec/05 R88, spec/11 R165). -/
def State.FloatElements (s : State) (v : View) (i : Instr) (f : LR) (len : Nat) (g : Nat → Nat → Nat → Nat × Word) : Prop :=
  let r := fun l j => g (v.elem f.w f.va l j) (v.elemB f l j) (v.elem f.w f.vc l j)
  ∃ flags, FlagsOf flags (fun x : Nat × Nat => v.takesPart f.g f.gn x.1 = true ∧ x.2 < elemCount f.w) (fun x => (r x.1 x.2).2) ∧
    (trapOf v.team.fctl flags = none → s.Elementwise v i f len (fun l j => (r l j).1 % 2 ^ elemBits f.w) flags) ∧
    (∀ t, trapOf v.team.fctl flags = some t → exec i s = .next (s.takeFault v t v.pc))

/-- The split holds every live slice of the extents of `width` lanes that it touches, and no other split stands at its
address: a wide instruction runs at once, with no fuse (spec/03 R40, spec/11 R195). -/
def View.Gathered (v : View) (width : Nat) : Prop :=
  width ≤ 4 ∨ (extentSlices width v.split.mask &&& v.warp.liveSlices &&& ~~~v.split.mask = 0 ∧
    ∀ sp ∈ v.warp.splits, sp.pc = v.pc → sp.mask = v.split.mask)

/-- A mask of slices can run a wide instruction at the view's address: it is made of whole splits that stand there, and
holds every live slice of each extent of `width` lanes that it touches (spec/03 R40, spec/11 R195). -/
def View.Complete (v : View) (width : Nat) (mask : BitVec 8) : Prop :=
  (∀ k, mask.getLsbD k = true → ∃ sp ∈ v.warp.splits, sp.pc = v.pc ∧ sp.mask.getLsbD k = true ∧ sp.mask &&& ~~~mask = 0) ∧
  extentSlices width mask &&& v.warp.liveSlices &&& ~~~mask = 0

/-- The instruction is wide, and the split is part of no such mask: a slice of an extent is elsewhere. -/
def View.Scattered (v : View) (width : Nat) : Prop :=
  4 < width ∧ ∀ mask, v.Complete width mask → v.split.mask &&& ~~~mask ≠ 0

/-- The participating lanes of the tile of lane l, in ascending order (spec/03 R43). -/
def View.tile (v : View) (g : BitVec 3) (gn : BitVec 1) (l : Nat) : List Nat :=
  (List.range 32).filter fun m => v.takesPart g gn m && m / v.warp.tileWidth == l / v.warp.tileWidth

/-- Two sets of writes together. -/
def Writes.both (a b : Writes) : Writes where
  v := fun n l => (a.v n l).or (b.v n l)
  p := fun n l => (a.p n l).or (b.p n l)
  s := fun k n => (a.s k n).or (b.s k n)
  q := fun k n => (a.q k n).or (b.q k n)
  flags := a.flags ||| b.flags

/-- Each lane that the list names writes what the list gives it. -/
def Writes.ofOuts (outs : List (Nat × LaneOut)) : Writes where
  v := fun r l => (outs.find? (·.1 == l)).bind fun o => (o.2.vs.find? (·.1 == r)).map (·.2)
  p := fun n l => (outs.find? (·.1 == l)).bind fun o => (o.2.ps.find? (·.1 == n)).map (·.2)
  flags := outFlags outs

/-- The field of a finite value on a grid: k bits of magnitude under the sign, a zero without one (spec/05 R72 step 6). -/
def gridField (mode : RMode) (k : Nat) (grid : Int) (d : Dy) : Nat :=
  let m := min (roundNat mode d.neg d.m (d.e - grid)).1 (2 ^ k - 1)
  if m = 0 then 0 else (if d.neg then 2 ^ k else 0) + m

/-- Magnitude bits and halfwords of a block of format code (spec/05 R69). -/
def qbShape (code : Nat) : Nat × Nat := if code = 6 then (2, 4) else if code = 7 then (4, 6) else (7, 9)

/-- The block of R72 from values x of sixteen elements, of which `counts` says which take part and do not escape: its
shared exponent, micro-exponents and fields, RNE to RU. A NaN, and an infinity without saturation, make a NaN block. -/
def PacksBlock (mode : RMode) (sat : Bool) (k image : Nat) (x : Nat → FVal) (counts esc : Nat → Bool) : Prop :=
  let field := fun i => bitsOf image (16 + (k + 1) * i) (k + 1)
  let bad := ∃ i, i < 16 ∧ counts i = true ∧ ((x i).isNan = true ∨ sat = false ∧ ∃ m, x i = .inf m)
  (bad → image = 255) ∧
  (¬bad →
    (∀ i, i < 16 → esc i = true → field i = 2 ^ k) ∧
    (∀ i, i < 16 → esc i = false → counts i = false → field i = 0) ∧
    ((∀ i d, i < 16 → counts i = true → x i = .num d → d.m = 0) → (∀ i m, i < 16 → counts i = true → x i ≠ .inf m) →
      bitsOf image 0 16 = 0 ∧ ∀ i, i < 16 → esc i = false → field i = 0) ∧
    (∀ top : Int, (∃ i d, i < 16 ∧ counts i = true ∧ x i = .num d ∧ d.m ≠ 0 ∧ d.top = top) →
      (∀ i, i < 16 → counts i = true → ∃ d, x i = .num d ∧ (d.m = 0 ∨ d.top ≤ top)) →
      let small := fun i => ∀ d, counts i = true → x i = .num d → d.m = 0 ∨ d.top < top
      (bitsOf image 0 8 : Int) = max (top + 127) 0 ∧
      (∀ j, j < 8 → (bitsOf image (8 + j) 1 = 1 ↔ small (2 * j) ∧ small (2 * j + 1))) ∧
      (mode ≤ 3 → ∀ i d, i < 16 → counts i = true → x i = .num d →
        field i = gridField mode k ((bitsOf image 0 8 : Int) - 127 - bitsOf image (8 + i / 2) 1 - (k - 1)) d)))

/-- BLKPACK to a QB format writes these halfwords, and above them the BF16 value of an escape (spec/11 R192). -/
def View.PacksQb (v : View) (f : LR) (wr : Writes) : Prop :=
  let (k, words) := qbShape (f.s.extractLsb' 0 4).toNat
  let mode : RMode := if f.rnd = 0 then (v.team.fctl.extractLsb' 0 2).toNat else f.rnd.toNat - 1
  let sat := f.sat || v.team.fctl.getLsbD 3
  let esc := fun l => f.vc.getLsbD 3 && v.warp.p (f.vc.extractLsb' 0 3).toNat l
  let x := fun l => fp32.decode (v.vec f.va l).toNat
  let part := v.takesPart f.g f.gn
  ∃ image : Nat → Nat,
    (∀ b, b < 2 → (∃ i, i < 16 ∧ part (16 * b + i) = true) →
      PacksBlock mode sat k (image b) (fun i => x (16 * b + i)) (fun i => part (16 * b + i) && !esc (16 * b + i))
        (fun i => part (16 * b + i) && esc (16 * b + i))) ∧
    ∀ l y, wr.v f.vd.toNat l = some y →
      (y.extractLsb' 0 16).toNat = (if l % 16 < words then bitsOf (image (l / 16)) (16 * (l % 16)) 16 else 0) ∧
      (y.extractLsb' 16 16).toNat = if esc l then (bf16.narrow (if mode = 4 then 0 else mode) sat (x l)).1 else 0

/-- BLKUNPK of a QB format: each participating lane gets the value of its field on the block's grid, an escape the entry
of its number in the side list, and every element of a NaN block the canonical NaN (spec/11 R194, spec/05 R70, R71). -/
def View.UnpacksQb (v : View) (f : LR) (wr : Writes) : Prop :=
  let (k, words) := qbShape (f.s.extractLsb' 0 4).toNat
  let mode : RMode := if f.rnd = 0 then (v.team.fctl.extractLsb' 0 2).toNat else f.rnd.toNat - 1
  let image := fun l => packElems 16 ((List.range words).map fun h => (v.vec f.va (l / 16 * 16 + h)).toNat % 65536)
  let field := fun l => bitsOf (image l) (16 + (k + 1) * (l % 16)) (k + 1)
  let grid := fun l => (bitsOf (image l) 0 8 : Int) - 127 - bitsOf (image l) (8 + l % 16 / 2) 1 - (k - 1)
  let escapes := fun l => (slicesOf v.split.mask).any (fun i => i / 4 == l / 16) && bitsOf (image l) 0 8 != 255 && field l == 2 ^ k
  ∀ l y, l < 32 → wr.v f.vd.toNat l = some y → v.takesPart f.g f.gn l = true →
    (bitsOf (image l) 0 8 = 255 → y = 0x7FC00000) ∧
    (bitsOf (image l) 0 8 ≠ 255 → field l ≠ 2 ^ k →
      y.toNat = (fp32.round mode (f.sat || v.team.fctl.getLsbD 3) ⟨decide (2 ^ k ≤ field l), field l % 2 ^ k, grid l⟩).1) ∧
    (bitsOf (image l) 0 8 ≠ 255 → field l = 2 ^ k →
      let n := (List.range l).countP escapes
      y.toNat = if n < f.vc.toNat then (widen32 1 ((v.vec f.vb n).toNat % 65536)).1 else 0)

/-- round_fp32 of the spec's pseudocode on a sum: RNE, no flag, no saturation. -/
def roundSum (a b : FVal) : FVal := fp32.decode (fp32.finish 0 false (fAdd 0 a b).1).1

/-- One round of the fixed tree of FADD (spec/11 R200): position k gets the sum of positions k and k + s. -/
def faddRound (ftz : Bool) (s : Nat) (t : Nat → Nat × Word) (k : Nat) : Nat × Word :=
  let r := fp32.opAdd ⟨0, false, ftz⟩ (t k).1 (t (k + s)).1
  (r.1, (t k).2 ||| (t (k + s)).2 ||| r.2)

/-- The rounds with s = 1, 2, 4 and so on. -/
def faddRounds (ftz : Bool) : Nat → Nat → (Nat → Nat × Word) → Nat → Nat × Word
  | 0, _, t => t
  | n + 1, s, t => faddRounds ftz n (2 * s) (faddRound ftz s t)

/-- An instruction with these writes completes unless its flags trap; then it takes that fault and does nothing else. -/
def State.ComputesOrTraps (s : State) (i : Instr) (v : View) (len : Nat) (wr : Writes) : Prop :=
  (trapOf v.team.fctl wr.flags = none → s.Computes i v len wr) ∧
  (∀ t, trapOf v.team.fctl wr.flags = some t → exec i s = .next (s.takeFault v t v.pc))

/-- The slices of w′ are those of w, slice k changed by f k; nothing else of the warp differs. -/
def Warp.Slices (w w' : Warp) (f : Nat → Slice → Slice) : Prop :=
  w' = { w with slices := w'.slices } ∧ ∀ k, w'.sl k = f k (w.sl k)

/-- An instruction, len bytes long, completes in s with these writes, after the slices of the warp have changed by f. -/
def State.ComputesOver (s : State) (i : Instr) (v : View) (len : Nat) (f : Nat → Slice → Slice) (wr : Writes) : Prop :=
  ∃ t w, exec i s = .next t ∧ v.warp.Slices w f ∧ s.Retires t v w wr fun _ => v.pc + BitVec.ofNat 64 len

/-- A scalar instruction in its two forms, b from a register or from word 1 (spec/13 R211): under a true guard it writes
to sd, in every slice of the split, an x that P relates to the old sd, a and b, and under a false one it only goes on. -/
def State.Scalar (s : State) (v : View) (ur : UR → Instr) (ui : UI → Instr) (P : Word → Word → Word → Word → Prop) : Prop :=
  (∀ f, s.Issues v (ur f) →
    (v.qGuard f.q f.n = true → ∃ x, P (v.s f.d.toNat) (v.s f.a.toNat) (v.s f.b.toNat) x ∧
      s.Computes (ur f) v 4 (Writes.uniform v.split.mask f.d.toNat x 0)) ∧
    (v.qGuard f.q f.n = false → s.Computes (ur f) v 4 {})) ∧
  (∀ f, s.Issues v (ui f) →
    (v.qGuard f.q f.n = true → ∃ x, P (v.s f.d.toNat) (v.s f.a.toNat) f.imm x ∧
      s.Computes (ui f) v 8 (Writes.uniform v.split.mask f.d.toNat x 0)) ∧
    (v.qGuard f.q f.n = false → s.Computes (ui f) v 8 {}))

/-- The same with these writes. -/
def State.ScalarWrites (s : State) (v : View) (ur : UR → Instr) (ui : UI → Instr)
    (wr : BitVec 6 → BitVec 6 → Word → Writes) : Prop :=
  (∀ f, s.Issues v (ur f) →
    (v.qGuard f.q f.n = true → s.ComputesOrTraps (ur f) v 4 (wr f.d f.a (v.s f.b.toNat))) ∧
    (v.qGuard f.q f.n = false → s.Computes (ur f) v 4 {})) ∧
  (∀ f, s.Issues v (ui f) →
    (v.qGuard f.q f.n = true → s.ComputesOrTraps (ui f) v 8 (wr f.d f.a f.imm)) ∧
    (v.qGuard f.q f.n = false → s.Computes (ui f) v 8 {}))

/-- Instruction i completes in s: from state u, in which warp w stands for the view's, its split retires with these
writes, slice k to address next k. -/
def State.Goes (s : State) (i : Instr) (u : State) (v : View) (w : Warp) (wr : Writes) (next : Nat → Addr) : Prop :=
  ∃ t, exec i s = .next t ∧ u.Retires t v w wr next

/-- The same for an instruction that ends a chunk of the record if sync (spec/29 R413). -/
def State.GoesAs (sync : Bool) (s : State) (i : Instr) (u : State) (v : View) (w : Warp) (wr : Writes) (next : Nat → Addr) : Prop :=
  ∃ t, exec i s = .next (if sync then t.chunkAfter v else t) ∧ u.Retires t v w wr next

def State.GoesSync (s : State) (i : Instr) (u : State) (v : View) (w : Warp) (wr : Writes) (next : Nat → Addr) : Prop :=
  State.GoesAs true s i u v w wr next

/-- Each of these splits, in order, retires to its address and ends a chunk of the record; t is what that leaves. -/
def State.RetiresEach (uid : Nat) : State → List (Sel × Addr) → State → Prop
  | s, [], t => t = s
  | s, (x, next) :: rest, t =>
    (s.viewOf? x = none → State.RetiresEach uid s rest t) ∧
    ∀ v, s.viewOf? x = some v → ∃ r, s.Retires r v v.warp {} (fun _ => next) ∧ State.RetiresEach uid (r.endChunk uid) rest t

/-- The address after an instruction of len bytes. -/
def View.on (v : View) (len : Nat) : Nat → Addr := fun _ => v.pc + BitVec.ofNat 64 len

/-- The active lanes of slice k for which P holds, as a mask of the slice. -/
def View.among (v : View) (k : Nat) (P : Nat → Bool) : BitVec 4 := laneMask ((v.sliceLanes k).filter P)

/-! ## Fusing (spec/03 R34, R39, R42) -/

/-- Slice a differs from slice b in state that a fuse copies. -/
def Slice.Differs (a b : Slice) : Prop :=
  a.sregs ≠ b.sregs ∨ a.q ≠ b.q ∨ a.part ≠ b.part ∨ a.rstack ≠ b.rstack ∨ a.rngLo ≠ b.rngLo ∨ a.rngHi ≠ b.rngHi ∨
    a.rngCtr ≠ b.rngCtr

/-- Warp x is warp w, in which the splits within `mask` have become one with the parent given: each of its slices has the
uniform state of the lowest one and keeps the rest; its last issue is that of the member issued least recently. Other
splits stay, but that resolution may take a parent to its record's outer one. -/
structure Warp.Fused (w x : Warp) (mask : BitVec 8) (pc : Addr) (parent : Nat) : Prop where
  rest   : x = { w with slices := x.slices, splits := x.splits, recs := x.recs, groups := x.groups }
  slices : let low := w.sl (lowestBit 8 mask.toNat)
    ∀ k, x.sl k = if mask.getLsbD k then { w.sl k with
      sregs := low.sregs, q := low.q, part := low.part, rstack := low.rstack, rngLo := low.rngLo, rngHi := low.rngHi
      rngCtr := low.rngCtr } else w.sl k
  one    : ∃ sp ∈ x.splits, sp.mask = mask ∧ sp.pc = pc ∧ sp.wait = .none ∧
    (sp.parent = parent ∨ ∃ r ∈ w.recs, r.mask &&& w.liveSlices = mask) ∧
    (∃ a ∈ w.splits, a.mask &&& mask = a.mask ∧ sp.lastIssue = a.lastIssue) ∧
    ∀ a ∈ w.splits, a.mask &&& mask = a.mask → sp.lastIssue ≤ a.lastIssue
  others : ∀ a ∈ w.splits, a.mask &&& mask ≠ a.mask → ∃ b ∈ x.splits, b = { a with parent := b.parent }
  only   : ∀ b ∈ x.splits, b.mask = mask ∨ ∃ a ∈ w.splits, a.mask &&& mask ≠ a.mask ∧ b = { a with parent := b.parent }
  recs   : ∀ r ∈ x.recs, r ∈ w.recs
  groups : x.groups = (w.groups.map fun g => { g with mask := g.mask &&& w.liveSlices }).filter (·.mask != 0)

/-- Group g of warp w, which is warp n of the team, is released in s and t follows: its splits have fused and the REGANG
has retired for the fused split, UDIFF telling whether a copied value differed; a result in flight to the fused slices
goes where the lowest one's goes (log 40). Nothing else changes. -/
def State.Released (s t : State) (uid n : Nat) (w : Warp) (g : FuseGroup) : Prop :=
  let low := lowestBit 8 g.mask.toNat
  let mine := fun (x : Sel) => x.team == uid && x.warp == n
  ∃ (u : State) (v : View) (flags : Word), u.viewOf? ⟨uid, n, low⟩ = some v ∧ v.split.mask = g.mask ∧
    ({ w with groups := w.groups.filter (· != g) } : Warp).Fused v.warp g.mask g.pc (((w.splitOf? low).map (·.parent)).getD g.parent) ∧
    u = { s with
      teams := u.teams
      memOps := s.memOps.map fun m => if mine m.x then { m with dest := fusedDest g.mask m.dest } else m
      matOps := s.matOps.map fun m => if mine m.x then { m with dest := fusedDest g.mask m.dest } else m
      mbReqs := s.mbReqs.map fun m => if mine m.x then { m with mask := fusedDest g.mask m.mask } else m
      regroups := s.regroups.map fun (n, r) => (n, { r with
        loads := r.loads.map fun l => { l with
          pins := l.pins.map fun p => if mine p.1 then (p.1, fusedDest g.mask p.2.1, p.2.2) else p } }) } ∧
    (∀ m, m ≠ uid → u.team? m = s.team? m) ∧
    (∀ b, s.team? uid = some b → v.team = { b with warps := v.team.warps } ∧ ∀ m, m ≠ n → v.team.warp? m = b.warp? m) ∧
    Raises flags 0x100 (∃ k, g.mask.getLsbD k = true ∧ (w.sl k).Differs (w.sl low)) ∧
    u.Retires t v v.warp { flags := flags } fun _ => g.pc + 8

/-! ## Memory (spec/07 R99 to R105; spec/15 R248 to R252) -/

/-- A byte as a core reads it weakly: its L1, else the far cache of its die, else the home. -/
def State.look (s : State) (core key : Nat) : Byte := ((Tab.find? (s.l1Of core) key).map (·.data)).getD (s.below (dieOfCore core) key)

/-- A byte as the home has it once the core has written it back. -/
def State.newest (s : State) (core key : Nat) : Byte :=
  match Tab.find? (s.l1Of core) key with
  | some b => if b.dirty then b.data else Memory.read s.mem key
  | none => Memory.read s.mem key

/-- A byte as a strong load at this scope gives it (spec/07 R105): at team scope as a weak load, at cluster and die scope
from below L1 and at device and system scope from the home, what the core itself has written being there first. -/
def State.strongByte (s : State) (core scope key : Nat) : Byte :=
  if scope = 0 then s.look core key
  else if scope ≤ 2 then
    match Tab.find? (s.l1Of core) key with
    | some b => if b.dirty then b.data else s.below (dieOfCore core) key
    | none => s.below (dieOfCore core) key
  else s.newest core key

/-- Byte i of a load with this order and scope. -/
def State.loaded (s : State) (core order scope : Nat) (l : Loc) (i : Nat) : Byte :=
  if l.scratch then Memory.read s.scratch (l.key + i)
  else if order = 0 then s.look core (l.key + i) else s.strongByte core scope (l.key + i)

/-- What a load of the core leaves in u of state s, `touched` being its bytes of global memory (spec/07 R99, R105, R106,
R113; spec/15 R255): a weak one, and one at team scope, changes nothing that any core reads weakly; a strong one writes the
core's own dirty bytes among its bytes back and keeps no copy of them, and an acquire drops clean bytes. -/
structure State.LoadEffect (s u : State) (core order scope : Nat) (touched : Nat → Prop) (acquires : Bool) : Prop where
  rest   : u = { s with l1 := u.l1, far := u.far, farGen := u.farGen, mem := u.mem, poison := u.poison }
  cores  : ∀ c, c ≠ core → u.l1Of c = s.l1Of c
  dies   : ∀ d, d ≠ dieOfCore core → u.farOf d = s.farOf d ∧ u.farGenOf d = s.farGenOf d
  weak   : order = 0 ∨ scope = 0 → acquires = false → u.mem = s.mem ∧ u.poison = s.poison ∧ u.farGen = s.farGen ∧
    ∀ c k, u.look c k = s.look c k
  strong : order ≠ 0 → 1 ≤ scope → ∀ k,
    (touched k → Memory.read u.mem k = s.newest core k ∧ Tab.find? (u.l1Of core) k = none) ∧
    (¬touched k → Memory.read u.mem k = Memory.read s.mem k ∧ Tab.get false u.poison k = Tab.get false s.poison k ∧
      (Tab.find? (u.l1Of core) k = Tab.find? (s.l1Of core) k ∨
        acquires = true ∧ Tab.find? (u.l1Of core) k = none ∧ ∀ b, Tab.find? (s.l1Of core) k = some b → b.dirty = false) ∧
      (acquires = false ∨ scope ≤ 2 → u.below (dieOfCore core) k = s.below (dieOfCore core) k))

/-- What a store of the core leaves in u of state s; `wrote` gives place, base, key and byte of what it stores, `outside` the
keys it does not store to (spec/07 R99, R105, R112; spec/15 R250, R255). A weak store, and one at team scope, leaves its
bytes dirty in L1, or sends them home where L1 takes no line for them; a strong one sends them home and leaves no older copy
with the core. `flushes` says that a release has first written every dirty byte of the core back. -/
structure State.StoreEffect (s u : State) (core owner order scope : Nat) (alloc : Bool) (wrote : Bool → Nat → Nat → Byte → Prop)
    (outside : Bool → Nat → Prop) (flushes : Prop) : Prop where
  rest    : u = { s with l1 := u.l1, far := u.far, mem := u.mem, poison := u.poison, scratch := u.scratch }
  cores   : ∀ c, c ≠ core → u.l1Of c = s.l1Of c
  dies    : ∀ d, d ≠ dieOfCore core → u.farOf d = s.farOf d
  scratch : (∀ k key b, wrote true key k b → Memory.read u.scratch k = b) ∧
    ∀ k, outside true k → Memory.read u.scratch k = Memory.read s.scratch k
  weak    : order = 0 ∨ scope = 0 → ∀ key k b, wrote false key k b →
    if alloc = true ∨ s.holdsLine core key = true then
      Tab.find? (u.l1Of core) k = some ⟨b, true, owner⟩ ∧ Memory.read u.mem k = Memory.read s.mem k
    else Memory.read u.mem k = b ∧ u.look core k = b
  strong  : order ≠ 0 → 1 ≤ scope → ∀ key k b, wrote false key k b → Memory.read u.mem k = b ∧ u.look core k = b ∧
    ∀ x, Tab.find? (u.l1Of core) k = some x → x.dirty = false
  kept    : ∀ k, outside false k → u.look core k = s.look core k ∧
    (flushes → Memory.read u.mem k = s.newest core k ∧
      Tab.find? (u.l1Of core) k = (Tab.find? (s.l1Of core) k).map fun b => { b with dirty := false }) ∧
    (¬flushes → Memory.read u.mem k = Memory.read s.mem k ∧ Tab.get false u.poison k = Tab.get false s.poison k ∧
      Tab.find? (u.l1Of core) k = Tab.find? (s.l1Of core) k ∧ ∀ c, u.look c k = s.look c k)

/-- The split of the view waits at its WAITC, which stands as r says. -/
def State.waitOn (s : State) (v : View) (r : WaitcRun) : State :=
  s.setWarp v { v.warp with
    splits := modFirst (·.mask == v.split.mask) (fun sp => { sp with wait := .waitc, waitc := some r }) v.warp.splits }

/-- No team is recorded, so no write-back writes a replay log. -/
def State.unrecorded (s : State) : Prop := ∀ t ∈ s.teams, t.recorded = false

/-- No atomic of the view's warp is on its way. -/
def State.noAtoms (s : State) (v : View) : Prop :=
  ∀ m ∈ s.memOps, m.x.team = v.team.uid → m.x.warp = v.warp.num → m.atoms = []

/-- The checks of an access of n bytes, in their order, each with its fault and TRAPINFO (spec/15 R251). -/
def State.accessChecks (s : State) (v : View) (n : Nat) (write : Bool) : List (Place → Option (Nat × Word)) :=
  [ fun p => match p with
      | .glob va => if va % n = 0 then none else some (0x03, BitVec.ofNat 32 va)
      | .scr off => if off % n = 0 then none else some (0x03, BitVec.ofInt 32 off),
    fun p => match p with
      | .glob va => if canonical va then none else some (0x04, BitVec.ofNat 32 (2 ^ 29 + bitsOf va 16 29))
      | .scr _ => none,
    fun p => match p with
      | .glob _ => none
      | .scr off => if s.scrAllowed v.team off n then none else some (0x05, BitVec.ofInt 32 off),
    fun p => match p with
      | .glob va => (s.lockConflict? v.core false va n write).map fun b => (0x06, BitVec.ofNat 32 b)
      | .scr off => (s.lockConflict? v.core true off.toNat n write).map fun b => (0x06, BitVec.ofNat 32 b) ]

/-- Every access passes its checks and translates: access x goes to loc x. -/
def State.Reaches (s : State) (v : View) (n : Nat) (write reads : Bool) (ps : List (Nat × Place)) (loc : Nat → Loc) : Prop :=
  ∀ x ∈ ps, (∀ c ∈ s.accessChecks v n write, c x.2 = none) ∧
    (match x.2 with
     | .glob va => s.xlate v.core v.ctx va (if write then .store else .load) = .ok (loc x.1).key ∧ (loc x.1).scratch = false
     | .scr off => loc x.1 = ⟨true, scrKey (clusterOfCore v.core) off.toNat⟩) ∧
    (reads = true → s.consumesPoison v.core (loc x.1) n = false)

/-- Register r of an access of n bytes whose bytes the function gives: the first lowest, zero above. -/
def wordAt (n : Nat) (byte : Nat → Byte) (r : Nat) : Word := BitVec.ofNat 32 (natOfBytes ((List.range (min n 4)).map fun i => byte (4 * r + i)))

/-- Registers of an access of n bytes. -/
def regsOf (n : Nat) : Nat := (n + 3) / 4

/-! ## Textures (spec/27 R384, R386) -/

/-- A finite FP32 word as a quotient of whole numbers. -/
def ratio32 (c : Nat) (num : Int) (den : Nat) : Prop :=
  ∃ d, fp32.decode c = .num d ∧ num = (if d.neg then -1 else 1) * ((d.m * 2 ^ d.e.toNat : Nat) : Int) ∧ den = 2 ^ (-d.e).toNat

/-- x is the whole part of coordinate c on n texels. -/
def floorsTo (c n : Nat) (x : Int) : Prop := ∃ num den, ratio32 c num den ∧ x * den ≤ num * n ∧ num * n < (x + 1) * den

/-- Texel x of a level of n is texel i under an addressing mode: wrap, clamp, mirror, or inside it under the border. -/
def addressesTo (mode n : Nat) (x : Int) (i : Nat) : Prop :=
  i < n ∧ (mode = 0 → (i : Int) = x % n) ∧ (mode = 1 → (i : Int) = max 0 (min ((n : Int) - 1) x)) ∧
  (mode = 2 → (i : Int) = if x % (2 * n) < n then x % (2 * n) else 2 * n - 1 - x % (2 * n)) ∧ (mode = 3 → (i : Int) = x)

/-- Level l is the nearest one to λ, within the levels of the texture. -/
def levelsTo (lam levels l : Nat) : Prop :=
  ∃ num den near, ratio32 lam num den ∧ 2 * (num - near * den).natAbs ≤ den ∧ (2 * (num - near * den).natAbs = den → near % 2 = 0) ∧
    (l : Int) = max 0 (min ((levels : Int) - 1) near)

/-! ## Copies and matrix operations (spec/15 R264 to R266; spec/17 R278 to R282) -/

/-- The first check that fails decides: checks in order, each with its fault, else the effect. -/
def State.Checked (s : State) (i : Instr) (v : View) (checks : List (Bool × Nat × Word)) (effect : Prop) : Prop :=
  (∀ c, checks.find? (·.1) = some c → exec i s = .next (s.takeFault v ⟨c.2.1, c.2.2, 0, 0⟩ v.pc)) ∧
  ((∀ c ∈ checks, c.1 = false) → effect)

/-- The checks of a copy, in their order; sources and destinations as registers give them (spec/15 R265). -/
def State.copyChecks (s : State) (v : View) (i : Instr) (c : CopyOp) (src dst spitch dpitch ix : Word) : List (Bool × Nat × Word) :=
  let a := c.source
  let b := c.target
  let sides := [(a, src, spitch), (b, dst, dpitch)]
  let ranged := (if c.gathers then (c.index, ix) else (a, src)) :: [(b, dst)]
  (sides.flatMap fun (d, at', p) => [(!d.scratch && d.base % 16 != 0, 0x01, at'), (!d.scratch && d.pitch % 16 != 0, 0x01, p)]) ++
  (sides.map fun (d, _, p) => (d.scratch && d.rot != 0 && (d.pitch % 1024 != 0 || decide (1024 < d.len)), 0x01, p)) ++
  (match c.kind with
   | .cpyx _ _ r k e => [(r * e % 16 != 0 || k * e % 16 != 0, 0x01, (encode i).1)]
   | _ => []) ++
  (sides.flatMap fun (d, at', p) => [(d.scratch && d.base % 16 != 0, 0x03, at'), (d.scratch && d.pitch % 16 != 0, 0x03, p)]) ++
  [(c.gathers && c.ix % 16 != 0, 0x03, ix)] ++
  ([a, b].map fun d => (!d.scratch && !canonical d.base, 0x04, BitVec.ofNat 32 (2 ^ 29 + bitsOf d.base 16 29))) ++
  (ranged.map fun (d, x) => (d.scratch && !s.scrAllowed v.team d.span.1 (d.span.2 - d.span.1), 0x05, x)) ++
  [((s.rangesConflict? c.locks).isSome, 0x06, BitVec.ofNat 32 ((s.rangesConflict? c.locks).getD 0))]

/-- A copy that passes its checks waits for room, or goes to the queue of its engine: its ranges are locked, its token is
pending in the team and in sd, and CP rises by one; the warp's own atomics come first, and the walks that its sides need
begin (spec/15 R265, R266; spec/07 R107, R115; spec/29 R400). -/
def State.Copies (s : State) (v : View) (i : Instr) (f : UE) (kind : CopyKind) (srcScr dstScr gather : Bool) (rot : Nat) : Prop :=
  let dreg := if gather then v.s (f.a.toNat + 3) else v.s (f.a.toNat + 2)
  ∃ token : Word,
    let c : CopyOp := {
      id := s.nextId, core := v.core, engine := v.core % 2, ctx := v.ctx, x := v.sel, token := token, kind := kind
      src := if srcScr then (v.s f.a.toNat).toNat else (v.s64 f.a.toNat).toNat
      dst := if dstScr then dreg.toNat else (v.s64 (f.a.toNat + 2)).toNat
      ix := if gather then (v.s (f.a.toNat + 2)).toNat else 0
      spitch := (v.s f.b.toNat).toNat, dpitch := (v.s (f.b.toNat + 1)).toNat, rot := rot, staging := none }
    let queue := (s.copies.filter fun k => clusterOfCore k.core == clusterOfCore v.core && k.engine == v.core % 2).length
    let full := 1023 ≤ v.warp.cp ∨ 64 ≤ queue ∨ (s.copyMisses c ≠ [] ∧ s.mergeFull (dieOfCore v.core) = true)
    let room := s.deadConflict c.locks = false ∧ (s.rlocks.filter (·.core == v.core)).length + 2 ≤ 64
    let u := s.settleAtoms v.team.uid v.warp.num
    s.Checked i v (s.copyChecks v i c (v.s f.a.toNat) dreg (v.s f.b.toNat) (v.s (f.b.toNat + 1)) (v.s (f.a.toNat + 2)))
      ((full → exec i s = .next (s.stall v 4)) ∧
       (¬full → ¬room → exec i s = .next (s.stall v 12)) ∧
       (¬full → room → s.Goes i
        (State.walkFor { u with
          nextId := u.nextId + 1, copies := u.copies ++ [c], rlocks := u.rlocks ++ c.locks
          tokens := u.tokens ++ [⟨token, v.team.uid, none, false⟩] } c (s.copyMisses c))
        v { v.warp with cp := v.warp.cp + 1 } (Writes.uniform v.split.mask f.d.toNat token 0) (v.on 8)))

/-- A matrix operation with these inputs: its checks in their order, its waits, of which the least reason counts, and its
place in the queue of the core's unit and in the open batch of its warp, its registers held and its scratchpad ranges locked
in whole bank rows; the warp's own atomics come first. An operation that gives a tile a value makes its slots live
(spec/03 R55, spec/07 R107, spec/17 R271, R278 to R282, R289). -/
def State.Queues (s : State) (v : View) (i : Instr) (f : UE) (kind : MatKind) (ins : List MatIn) (vdest sdest : List Nat)
    (lives : Bool) : Prop :=
  let first := (f.w1.extractLsb' 3 3).toNat
  let shape : BitVec 2 := f.w1.extractLsb' 1 2
  let slots := (List.range (shapeSlots shape)).map (first + ·)
  let regs := ins.flatMap (·.vregs)
  let spans := ins.filterMap fun x => x.range.map fun r => (x.mis.getD 0, r.1 / 1024 * 1024, (r.2 + 1023) / 1024 * 1024)
  let locks : List RLock := spans.map fun x => ⟨s.nextId, v.core, true, x.2.1, x.2.2, false, false⟩
  let pending := (v.warp.holds.filter fun h => !h.src && h.vregs.any regs.contains).map (·.reason)
  let room := s.deadConflict locks = false ∧ (s.rlocks.filter (·.core == v.core)).length + locks.length ≤ 64
  let free := (s.matOps.filter (·.core == v.core)).length < 32
  let tile := decide (v.warp.vbound + 192 * (first + shapeSlots shape) ≤ v.warp.budget)
  let u := s.settleAtoms v.team.uid v.warp.num
  (∀ r, pending.min? = some r → exec i s = .next (s.stall v (if free then r else min r 5))) ∧
  (pending = [] → s.Checked i v
    ([(!tile || ins.any (·.bad), 0x02, (encode i).1)] ++
     ((ins.flatMap (·.ill)).map fun x => (x.1, 0x01, x.2)) ++
     ((ins.filterMap (·.mis)).map fun x => (x.toNat % 16 != 0, 0x03, x)) ++
     (spans.map fun x => (!s.scrAllowed v.team x.2.1 (x.2.2 - x.2.1), 0x05, x.1)) ++
     [((s.rangesConflict? locks).isSome, 0x06, BitVec.ofNat 32 ((s.rangesConflict? locks).getD 0))])
    ((¬free → exec i s = .next (s.stall v 5)) ∧ (free → ¬room → exec i s = .next (s.stall v 12)) ∧
     (free → room → ∃ w : Warp,
       let op : MatOp := {
         id := s.nextId, core := v.core, x := v.sel, mask := v.split.mask, slot := first, shape := shape, kind := kind
         dest := v.split.mask, fctl := v.team.fctl }
       s.Goes i
         { u with nextId := s.nextId + 1, matOps := u.matOps ++ [op], rlocks := u.rlocks ++ locks } v w {} (v.on 8) ∧
       w = { v.warp with
         openOps := v.warp.openOps ++ [s.nextId], slots := w.slots
         freeing := if lives then v.warp.freeing.filter (!slots.contains ·)
           else if kind = .mclr true then v.warp.freeing ++ slots else v.warp.freeing
         holds := if regs = [] ∧ vdest = [] ∧ sdest = [] then v.warp.holds else v.warp.holds ++
           [⟨s.nextId, if vdest = [] ∧ sdest = [] then regs else vdest, sdest, decide (vdest = [] ∧ sdest = []), 5⟩] } ∧
       ∀ n, w.slot n = if lives = true ∧ n ∈ slots then { v.warp.slot n with live := true } else v.warp.slot n)))

/-! ## Traps and events -/

/-- Warp n of a team. -/
def State.warpAt (s : State) (uid n : Nat) : Option Warp := (s.team? uid).bind (·.warp? n)

/-- The splits of a warp have no slice in common, and each has one. -/
def Warp.partitioned (w : Warp) : Prop := w.splits.Pairwise (fun a b => a.mask &&& b.mask = 0) ∧ ∀ sp ∈ w.splits, sp.mask ≠ 0

/-- Teams and warps each have a number of their own, and splits do not overlap. -/
def State.named (s : State) : Prop :=
  (s.teams.map (·.uid)).Nodup ∧ ∀ t ∈ s.teams, (t.warps.map (·.num)).Nodup ∧ ∀ w ∈ t.warps, w.partitioned

/-- Every split of a team holds one more deferred fault. -/
def Team.holding (t : Team) (code : Nat) (info : Word) (clock : Nat) : List Warp :=
  t.warps.map fun w => { w with splits := w.splits.map fun sp => { sp with deferred := sp.deferred ++ [⟨code, info, 0, clock, true, 0⟩] } }

/-- Teams u of s and t are the same but for what f changes; no other team differs. -/
def State.OnTeam (s t : State) (uid : Nat) (f : Team → Team → Prop) : Prop :=
  (∀ u, u ≠ uid → t.team? u = s.team? u) ∧ ∀ b, s.team? uid = some b → ∃ b', t.team? uid = some b' ∧ f b b'

/-- An instruction retires and then takes a fault, whose resume address is the next instruction's. -/
def State.TrapsAfter (s : State) (i : Instr) (v : View) (t : Trap) (len : Nat) : Prop :=
  ∃ w, v.warp.Slices w (fun k sl => if v.split.mask.getLsbD k then { sl with retired := sl.retired + 1 } else sl) ∧
    exec i s = .next ((s.setWarp v w).takeFault ⟨v.team.modWarp v.warp.num fun _ => w, w, v.split⟩ t (v.pc + BitVec.ofNat 64 len))

/-- A read by the view's core of n bytes at an address, all in one page, goes to a key. -/
def State.reads (s : State) (v : View) (va n key : Nat) : Prop :=
  canonical va = true ∧ va % 65536 + n ≤ 65536 ∧ s.xlate v.core v.ctx va .load = .ok key

/-- The bytes that a core reads weakly. -/
def State.lookBytes (s : State) (core key n : Nat) : List Byte := (List.range n).map fun i => s.look core (key + i)

/-- Nothing keeps the units of the module from what a page table maps: no refusal, no request, no poison. -/
def State.untroubled (s : State) (c : Nat) : Prop := s.refused = [] ∧ (s.ctxOf c).reqs = [] ∧ s.poison = []

/-- From s to u a core has written these bytes at device scope: the home holds them; elsewhere a byte is at most written
back, and what the core last wrote stays. -/
def State.Wrote (s u : State) (core key : Nat) (bs : List Byte) : Prop :=
  ∀ k, if key ≤ k ∧ k < key + bs.length then
      Memory.read u.mem k = bs.getD (k - key) 0 ∧ u.newest core k = bs.getD (k - key) 0
    else (Memory.read u.mem k = Memory.read s.mem k ∨ Memory.read u.mem k = s.newest core k) ∧
      u.newest core k = s.newest core k

/-- The same of an engine's write, which touches no L1: no other byte of memory changes. -/
def State.Stored (s u : State) (key : Nat) (bs : List Byte) : Prop :=
  ∀ k, Memory.read u.mem k = if key ≤ k ∧ k < key + bs.length then bs.getD (k - key) 0 else Memory.read s.mem k

/-! ## Sorghum accesses (spec/25 R360) -/

/-- n bytes at a user address, which lie in one page, are context address a; the core's PMP and the window grant them, and
they lie at a home key. -/
def State.UserAt (s : State) (e : Episode) (kind : Access) (va n a key : Nat) : Prop :=
  0 < n ∧ va % 4096 + n ≤ 4096 ∧ s.sv39 e va kind = (s, .ok a) ∧ s.pmpGrants e kind (a % 2 ^ 56) n = true ∧
    e.wbase ≤ a ∧ a + n ≤ e.wbase + e.wsize ∧ s.xlateNow e.ctx a kind = .ok key

/-- n bytes at a user address lie in one page, which the tables do not map or which maps them outside the window. -/
def State.UserBad (s : State) (e : Episode) (kind : Access) (va n : Nat) : Prop :=
  0 < n ∧ va % 4096 + n ≤ 4096 ∧ (s.sv39 e va kind = (s, .bad) ∨
    ∃ a, s.sv39 e va kind = (s, .ok a) ∧ ¬(e.wbase ≤ a ∧ a + n ≤ e.wbase + e.wsize))

/-- The instruction of w in len bytes at the episode's pc, of 32 bits or compressed. -/
def State.UserFetch (s : State) (e : Episode) (w len : Nat) : Prop :=
  ∃ a key, s.UserAt e .fetch e.pc.toNat 2 a key ∧
    let h := natOfBytes (s.homeBytes key 2)
    (len = 2 ∧ h % 4 ≠ 3 ∧ w = expandC h ∨
     len = 4 ∧ h % 4 = 3 ∧ ∃ a' key', s.UserAt e .fetch (e.pc + 2).toNat 2 a' key' ∧
       w = h + 2 ^ 16 * natOfBytes (s.homeBytes key' 2))

/-- The word at a key as the core has last written it. -/
def State.newestNat (s : State) (core key n : Nat) : Nat := natOfBytes ((List.range n).map fun i => s.newest core (key + i))

end Sys2Proof.Machine
end

