-- ==== Sys2Proof/Certificates/Slice0/Obligations.lean ====
section
/-!
DEFINITION. The statements: what the rules of the spec say of the machine, for the provers.
-/

open Sys2Proof Sys2Proof.Machine

/-- spec/11 R168: IADD, ISUB, IMUL, IMAD, IMIN, IMAX and IABS, in every element of every participating lane; saturation
under SAT with the flag SAT, the upper half of a product under HI. -/
def Obligations.IntegerArithmeticByElement : Prop :=
  ∀ (s : State) (v : View) (f : LR),
    (∀ e ∈ ([(.iadd f, fun a b _ => a + b), (.isub f, fun a b _ => a - b), (.imul f, fun a b _ => a * b),
        (.imad f, fun a b c => a * b + c), (.imin f, fun a b _ => min a b), (.imax f, fun a b _ => max a b)] :
          List (Instr × (Int → Int → Int → Int))),
      s.Issues v e.1 →
        let w := elemBits f.w
        let x := fun l j => e.2 (intVal f.uns w (v.elem f.w f.va l j)) (intVal f.uns w (v.elemB f l j))
          (intVal f.uns w (v.elem f.w f.vc l j))
        let high := e.1 = .imul f ∧ f.hi = true
        ∃ flags, Raises flags flagSAT (f.sat = true ∧ ¬high ∧
            ∃ l j, v.takesPart f.g f.gn l = true ∧ j < elemCount f.w ∧ outside f.uns w (x l j)) ∧
          (¬high → s.Elementwise v e.1 f 8 (fun l j => narrowed f.sat f.uns w (x l j)) flags) ∧
          (high → f.w = 0 ∧ s.Elementwise v e.1 f 8 (fun l j => wrapNat 32 (x l j / 2 ^ 32)) flags)) ∧
    (∀ (i : Instr) (g : LR) (len : Nat), unaryForms .iabs .iabsLu i g len → s.Issues v i →
      let w := elemBits g.w
      let x := fun l j => ((signedOf w (v.elem g.w g.va l j)).natAbs : Int)
      ∃ flags, Raises flags flagSAT (g.sat = true ∧
          ∃ l j, v.takesPart g.g g.gn l = true ∧ j < elemCount g.w ∧ outside false w (x l j)) ∧
        s.Elementwise v i g len (fun l j => narrowed g.sat false w (x l j)) flags)

/-- spec/11 R169: SHL, SHR and SAR by the low 8 bits of each element of b; a count of w or more leaves zero, or copies
of the sign. spec/11 R170, R206: bit j of BLUT is bit 4·c_j + 2·b_j + a_j of the table in S, and PLOP reads it so for
its predicates, p7 reading true. -/
def Obligations.ShiftsAndTruthTables : Prop :=
  (∀ (s : State) (v : View) (f : LR),
     let w := elemBits f.w
     let a := fun l j => v.elem f.w f.va l j
     let n := fun l j => v.elemB f l j % 256
     (s.Issues v (.shl f) → s.Elementwise v (.shl f) f 8 (fun l j => if n l j < w then a l j * 2 ^ n l j % 2 ^ w else 0) 0) ∧
     (s.Issues v (.shr f) → s.Elementwise v (.shr f) f 8 (fun l j => if n l j < w then a l j / 2 ^ n l j else 0) 0) ∧
     (s.Issues v (.sar f) → s.Elementwise v (.sar f) f 8 (fun l j => wrapNat w (signedOf w (a l j) / 2 ^ n l j)) 0)) ∧
  (∀ (s : State) (v : View) (f : LR),
     let index := fun a b c : Bool => 4 * c.toNat + 2 * b.toNat + a.toNat
     (s.Issues v (.blut f) → s.Lanewise v (.blut f) f.g f.gn f.w f.vd 8 fun l x => ∀ j, j < elemBits f.w →
       x.testBit j = f.s.getLsbD (index ((v.elem f.w f.va l 0).testBit j) ((v.elemB f l 0).testBit j)
         ((v.elem f.w f.vc l 0).testBit j))) ∧
     (s.Issues v (.plop f) → s.Computes (.plop f) v 8 (Writes.preds (v.takesPart f.g f.gn) f.vd.toNat (fun l =>
       f.s.getLsbD (index (v.warp.p f.va.toNat l) (v.warp.p f.vb.toNat l) (v.warp.p f.vc.toNat l))) 0)))

/-- spec/11 R171: POPC counts one bits, CLZ the zero bits above the highest one bit (w of them for zero), BREV moves bit
j to bit w − 1 − j; the count of a pair leaves zero in its upper register. LR and LU forms. spec/11 R172: BFE reads a
field of min(len, w) bits at pos, bits beyond the element and above the field being zero under U and copies of the sign
otherwise; BFI puts the low bits of a into c there, bits beyond w being dropped. -/
def Obligations.BitCountsAndFields : Prop :=
  (∀ (s : State) (v : View) (f : LR) (i : Instr) (len : Nat), s.Issues v i →
     let w := elemBits f.w
     let a := fun l => v.elem f.w f.va l 0
     (unaryForms .popc .popcLu i f len → s.Lanewise v i f.g f.gn f.w f.vd len fun l x =>
       x = (List.range w).countP fun j => (a l).testBit j) ∧
     (unaryForms .clz .clzLu i f len → s.Lanewise v i f.g f.gn f.w f.vd len fun l x =>
       x ≤ w ∧ a l < 2 ^ (w - x) ∧ (x < w → 2 ^ (w - x - 1) ≤ a l)) ∧
     (unaryForms .brev .brevLu i f len → s.Lanewise v i f.g f.gn f.w f.vd len fun l x =>
       ∀ j, j < w → x.testBit (w - 1 - j) = (a l).testBit j)) ∧
  (∀ (s : State) (v : View) (f : LR),
     let w := elemBits f.w
     let a := fun l => v.elem f.w f.va l 0
     let pos := fun l => (v.b32 f l).toNat % 256
     let n := fun l => min ((v.b32 f l).toNat / 256 % 256) w
     let fld := fun l k => if pos l + k < w then (a l).testBit (pos l + k) else !f.uns && (a l).testBit (w - 1)
     (s.Issues v (.bfe f) → s.Lanewise v (.bfe f) f.g f.gn f.w f.vd 8 fun l x => ∀ k, k < w →
       x.testBit k = if n l = 0 then false else if k < n l then fld l k else !f.uns && fld l (n l - 1)) ∧
     (s.Issues v (.bfi f) → s.Lanewise v (.bfi f) f.g f.gn f.w f.vd 8 fun l x => ∀ k, k < w →
       x.testBit k = if pos l ≤ k ∧ k < pos l + n l then (a l).testBit (k - pos l) else (v.elem f.w f.vc l 0).testBit k))

/-- spec/11 R173, R174, R182: SEL chooses by a predicate; ICMP and FCMP write the comparison, combined with a predicate,
to pd. FCMP compares by value, gives an unordered result for a NaN, and sets INV as its table says. spec/11 R175 to
R177: LEA adds a shifted operand, extended from 32 bits under W = 10; IDOT4 sums four products of bytes and a signed
addend; CLMUL is the carry-less product, whose upper half HI selects. -/
def Obligations.SelectCompareAndProducts : Prop :=
  (∀ (s : State) (v : View) (f : LR),
     let w := elemBits f.w
     let a := fun l => v.elem f.w f.va l 0
     let b := fun l => v.elemB f l 0
     let p := fun l => v.warp.p (f.vc.extractLsb' 0 3).toNat l != f.vc.getLsbD 3
     let x := fun l => if f.uns then (a l : Int) else signedOf w (a l)
     let y := fun l => if f.uns then (b l : Int) else signedOf w (b l)
     (s.Issues v (.sel f) → s.Computes (.sel f) v 8
       (Writes.lanes (v.takesPart f.g f.gn) f.w f.vd (fun l => if p l then a l else b l) 0)) ∧
     (s.Issues v (.icmp f) →
       let rel := fun l => match (f.s.extractLsb' 0 3).toNat with
         | 0 => decide (x l = y l) | 1 => decide (x l ≠ y l) | 2 => decide (x l < y l)
         | 3 => decide (x l ≤ y l) | 4 => decide (x l > y l) | _ => decide (x l ≥ y l)
       s.Computes (.icmp f) v 8 (Writes.preds (v.takesPart f.g f.gn) f.vd.toNat (fun l =>
         match (f.s.extractLsb' 4 2).toNat with
         | 0 => rel l | 1 => rel l && p l | 2 => rel l || p l | _ => xor (rel l) (p l)) 0)) ∧
     (s.Issues v (.fcmp f) →
       let x := fun l => fp32.decode (a l)
       let y := fun l => fp32.decode (b l)
       let op := (f.s.extractLsb' 0 3).toNat
       let unord := f.s.getLsbD 3
       let nan := fun l => (x l).isNan || (y l).isNan
       let inv := fun l => (x l).isSnan || (y l).isSnan || (nan l && decide (2 ≤ op ∧ op ≤ 5) && !unord)
       let rel := fun l =>
         if op = 6 then !nan l else if op = 7 then nan l else if nan l then unord
         else match op with
           | 0 => fCmp (x l) (y l) == some .eq | 1 => fCmp (x l) (y l) != some .eq | 2 => fCmp (x l) (y l) == some .lt
           | 3 => fCmp (x l) (y l) != some .gt | 4 => fCmp (x l) (y l) == some .gt | _ => fCmp (x l) (y l) != some .lt
       ∃ flags, Raises flags flagINV (∃ l, v.takesPart f.g f.gn l = true ∧ inv l = true) ∧
         s.ComputesOrTraps (.fcmp f) v 8 (Writes.preds (v.takesPart f.g f.gn) f.vd.toNat (fun l =>
           match (f.s.extractLsb' 4 2).toNat with
           | 0 => rel l | 1 => rel l && p l | 2 => rel l || p l | _ => xor (rel l) (p l)) flags))) ∧
  (∀ (s : State) (v : View) (f : LR),
     (s.Issues v (.lea f) → s.Computes (.lea f) v 8 (Writes.lanes (v.takesPart f.g f.gn) f.w f.vd (fun l =>
       let a := (v.vec f.va l).toNat
       let x : Int := if f.w = 2 ∧ f.uns = false then signedOf 32 a else a
       wrapNat (elemBits f.w) (v.elemB f l 0 + x * 2 ^ (f.s.extractLsb' 0 3).toNat)) 0)) ∧
     (s.Issues v (.idot4 f) →
       let byte := fun (uns : Bool) (x : Nat) => if uns then (x : Int) else signedOf 8 x
       let prod := fun l i => byte f.uns (v.elem 3 f.va l i) * byte f.hi (v.elemB f l i)
       let x := fun l => (v.vec f.vc l).toInt + prod l 0 + prod l 1 + prod l 2 + prod l 3
       ∃ flags, Raises flags flagSAT (f.sat = true ∧ ∃ l, v.takesPart f.g f.gn l = true ∧ outside false 32 (x l)) ∧
         s.Computes (.idot4 f) v 8 (Writes.lanes (v.takesPart f.g f.gn) 0 f.vd (fun l => narrowed f.sat false 32 (x l)) flags)) ∧
     (s.Issues v (.clmul f) → s.Lanewise v (.clmul f) f.g f.gn 0 f.vd 8 fun l x => ∀ k, k < 32 →
       let bit := fun t => (List.range 32).countP (fun i => decide (i ≤ t ∧ t - i < 32) && (v.vec f.va l).getLsbD i &&
         (v.b32 f l).getLsbD (t - i)) % 2 == 1
       x.testBit k = if f.hi then bit (k + 32) else bit k))

/-- spec/11 R179 to R184, R186: FADD, FSUB, FMUL, FFMA, FMIN, FMAX, FCLASS and FRND in every element, in FP32 under
W = 00 and in FP16 or BF16 under W = 01, with FTZ under W = 00 alone; the flags of all elements are ORed. -/
def Obligations.FloatArithmeticByElement : Prop :=
  ∀ (s : State) (v : View) (f : LR),
    let fmt := if f.w = 0 then fp32 else if f.uns then bf16 else fp16
    let c : RCtl := ⟨if f.rnd = 0 then (v.team.fctl.extractLsb' 0 2).toNat else f.rnd.toNat - 1, f.sat || v.team.fctl.getLsbD 3,
      f.w == 0 && v.team.fctl.getLsbD 2⟩
    ∀ e ∈ ([(.fadd f, fun a b _ => fmt.opAdd c a b), (.fsub f, fun a b _ => fmt.opSub c a b),
        (.fmul f, fun a b _ => fmt.opMul c a b), (.ffma f, fun a b x => fmt.opFma c a b x),
        (.fmin f, fun a b _ => fmt.opMinMax false a b), (.fmax f, fun a b _ => fmt.opMinMax true a b),
        (.fclass f, fun a _ _ => (fmt.classBits a, 0)), (.frnd f, fun a _ _ => fmt.opRnd c a)] :
          List (Instr × (Nat → Nat → Nat → Nat × Word))),
      s.Issues v e.1 → s.FloatElements v e.1 f 8 e.2

/--  spec/11 R185: FRCP, FRSQ, FSQRT, FEX2, FLG2, FSIN, FCOS, FTANH and FSGM in every element, LR and LU forms. The
model's own readings in it: log 14. -/
def Obligations.FloatFunctionsByElement : Prop :=
  ∀ (s : State) (v : View) (f : LR) (i : Instr) (len : Nat), s.Issues v i →
    let fmt := if f.w = 0 then fp32 else if f.uns then bf16 else fp16
    let c : RCtl := ⟨if f.rnd = 0 then (v.team.fctl.extractLsb' 0 2).toNat else f.rnd.toNat - 1, f.sat || v.team.fctl.getLsbD 3,
      f.w == 0 && v.team.fctl.getLsbD 2⟩
    ∀ e ∈ ([(.frcp, .frcpLu, .rcp), (.frsq, .frsqLu, .rsq), (.fsqrt, .fsqrtLu, .sqrt), (.fex2, .fex2Lu, .ex2),
        (.flg2, .flg2Lu, .lg2), (.fsin, .fsinLu, .sin), (.fcos, .fcosLu, .cos), (.ftanh, .ftanhLu, .tanh),
        (.fsgm, .fsgmLu, .sgm)] : List ((LR → Instr) × (LU → Instr) × UFun)),
      unaryForms e.1 e.2.1 i f len → s.FloatElements v i f len fun a _ _ => fmt.opFun e.2.2 c a

/-- spec/11 R179, R181, R183, R185: the special cases that the rules name. NaN operands give the canonical NaN, with INV
for a signalling one; ∞ − ∞ and 0 × ∞ set INV; an infinite operand gives that infinity with no flag; an exact zero sum
is +0, but −0 under RD; FMIN and FMAX return an operand bit for bit; one class bit is set; FRCP of a zero sets DZ. The
table of R185 for zeros and infinities, its other inputs and its exact cases.
spec/05 R79, R85: rounding a value that the format holds gives its code and raises no flag. The model's own readings
in it: log 14. -/
def Obligations.FloatRounding : Prop :=
  (∀ fmt ∈ [fp32, bf16, fp16], ∀ (c : RCtl) (a b : Nat), a < 2 ^ fmt.width → b < 2 ^ fmt.width → c.mode ≤ 3 →
     let x := fmt.decode a
     let y := fmt.decode b
     let snan := x.isSnan || y.isSnan
     (x.isNan = true ∨ y.isNan = true → ∀ r ∈ [fmt.opAdd c a b, fmt.opSub c a b, fmt.opMul c a b],
       r = (fmt.nanBits, flagIf snan flagINV)) ∧
     (∀ m n, x = .inf m → y = .inf n → fmt.opAdd c a b = if m = n then (fmt.infBits m, 0) else (fmt.nanBits, flagINV)) ∧
     (∀ m d, x = .inf m → y = .num d → fmt.opAdd c a b = (fmt.infBits m, 0)) ∧
     (∀ m d, x = .inf m → y = .num d → d.m = 0 → fmt.opMul c a b = (fmt.nanBits, flagINV)) ∧
     (∀ d n, x = .num d → y = .num n → d.m = n.m → d.e = n.e → d.neg ≠ n.neg →
       fmt.opAdd c a b = (fmt.signBit (c.mode == 2), 0)) ∧
     (∀ isMax, fmt.opMinMax isMax a b =
       (if x.isNan && y.isNan then fmt.nanBits
        else if x.isNan then b else if y.isNan then a
        else if (fCmp x y = some .lt ∨ fCmp x y = some .eq ∧ bitsOf a (fmt.eb + fmt.mb) 1 = 1) then (if isMax then b else a)
        else (if isMax then a else b), flagIf snan flagINV)) ∧
     (∃ k < 10, fmt.classBits a = 2 ^ k) ∧
     (∀ d, x = .num d → d.m = 0 → fmt.opFun .rcp c a = (fmt.infBits d.neg, flagDZ))) ∧
  (∀ fmt ∈ [fp32, bf16, fp16], ∀ (c : RCtl) (a b : Nat) (f : UFun), a < 2 ^ fmt.width → c.mode ≤ 3 →
     let one := (2 ^ (fmt.eb - 1) - 1) * 2 ^ fmt.mb
     let half := (2 ^ (fmt.eb - 1) - 2) * 2 ^ fmt.mb
     let zero := fmt.signBit false
     let minus := fmt.signBit true
     let table : List (UFun × List (Nat × Word)) :=
       [(.rcp, [(fmt.infBits false, flagDZ), (fmt.infBits true, flagDZ), (zero, 0), (minus, 0)]),
        (.rsq, [(fmt.infBits false, flagDZ), (fmt.infBits true, flagDZ), (zero, 0), (fmt.nanBits, flagINV)]),
        (.sqrt, [(zero, 0), (minus, 0), (fmt.infBits false, 0), (fmt.nanBits, flagINV)]),
        (.ex2, [(one, 0), (one, 0), (fmt.infBits false, 0), (zero, 0)]),
        (.lg2, [(fmt.infBits true, flagDZ), (fmt.infBits true, flagDZ), (fmt.infBits false, 0), (fmt.nanBits, flagINV)]),
        (.sin, [(zero, 0), (minus, 0), (fmt.nanBits, flagINV), (fmt.nanBits, flagINV)]),
        (.cos, [(one, 0), (one, 0), (fmt.nanBits, flagINV), (fmt.nanBits, flagINV)]),
        (.tanh, [(zero, 0), (minus, 0), (one, 0), (minus + one, 0)]),
        (.sgm, [(half, 0), (half, 0), (one, 0), (zero, 0)])]
     (∀ e ∈ table, [zero, minus, fmt.infBits false, fmt.infBits true].map (fmt.opFun e.1 c) = e.2) ∧
     ((fmt.decode a).isNan = true → fmt.opFun f c a = (fmt.nanBits, flagIf (fmt.decode a).isSnan flagINV)) ∧
     (f ∈ [UFun.rsq, .sqrt, .lg2] → ∀ d, fmt.decode a = .num d → d.neg = true → d.m ≠ 0 → c.ftz = false →
       fmt.opFun f c a = (fmt.nanBits, flagINV)) ∧
     (b < 2 ^ fmt.width → c.ftz = false → ∀ x y, fmt.decode a = .num x → fmt.decode b = .num y →
       (y.neg = false → (y.mul y).cmp x = .eq → x.m ≠ 0 → fmt.opFun .sqrt c a = (b, 0)) ∧
       (∀ n : Int, x.cmp (Dy.ofInt n 0) = .eq → y.cmp ⟨false, 1, n⟩ = .eq → fmt.opFun .ex2 c a = (b, 0)) ∧
       (∀ n : Int, x.cmp ⟨false, 1, n⟩ = .eq → y.cmp (Dy.ofInt n 0) = .eq → y.neg = decide (n < 0) →
         fmt.opFun .lg2 c a = (b, 0)))) ∧
  (∀ fmt ∈ [fp32, bf16, fp16, e4m3, e5m2, e2m1], ∀ (mode : RMode) (sat : Bool) (bits : Nat) (d : Dy), mode ≤ 3 →
     bits < 2 ^ fmt.width → fmt.decode bits = .num d → fmt.round mode sat d = (bits, 0))

/-- spec/11 R187, R188: CVT without EF converts each element of the source group into the destination group and keeps
every other bit of the destination register. spec/11 R190: CVTN packs FP32 sources into vd; INT4 fills the half that vc
names and keeps the other. -/
def Obligations.GroupConversions : Prop :=
  (∀ (s : State) (v : View) (f : LR), s.Issues v (.cvt f) → f.rnd ≠ 5 →
     let n := cvtCount f.w
     let src := (f.s.extractLsb' 0 4).toNat
     let dst := (f.s.extractLsb' 4 4).toNat
     let gs := n * formatBits src
     let gd := n * formatBits dst
     let at' := gd * (f.vc.extractLsb' 4 3).toNat
     let reg := fun (r : BitVec 8) (g l : Nat) => if g = 64 then (v.vec64 r l).toNat else (v.vec r l).toNat
     let c : RCtl := ⟨if f.rnd = 0 then (v.team.fctl.extractLsb' 0 2).toNat else f.rnd.toNat - 1, f.sat || v.team.fctl.getLsbD 3, false⟩
     let r := fun l i => convert src dst c
       (bitsOf (reg f.va gs l) (gs * (f.vc.extractLsb' 0 3).toNat + formatBits src * i) (formatBits src))
     ∃ (x : Nat → Nat) (flags : Word),
       FlagsOf flags (fun y : Nat × Nat => v.takesPart f.g f.gn y.1 = true ∧ y.2 < n) (fun y => (r y.1 y.2).2) ∧
       (∀ l, v.takesPart f.g f.gn l = true →
         (∀ i, i < n → bitsOf (x l) (at' + formatBits dst * i) (formatBits dst) = (r l i).1 % 2 ^ formatBits dst) ∧
         (∀ k, k < 32 → gd ≠ 64 → (k < at' ∨ at' + gd ≤ k) → (x l).testBit k = (v.vec f.vd l).getLsbD k)) ∧
       s.ComputesOrTraps (.cvt f) v 8 (Writes.lanes (v.takesPart f.g f.gn) (if gd = 64 then 2 else 0) f.vd x flags)) ∧
  (∀ (s : State) (v : View) (f : LR), s.Issues v (.cvtn f) →
     let dst := (f.s.extractLsb' 0 4).toNat
     let w := formatBits dst
     let n := if f.w = 3 then 4 else 2
     let src := fun l i => if f.w = 3 then v.vec ((if i < 2 then f.va else f.vb) + BitVec.ofNat 8 (i % 2)) l
       else v.vec (if i = 0 then f.va else f.vb) l
     let c : RCtl := ⟨if f.rnd = 0 then (v.team.fctl.extractLsb' 0 2).toNat else f.rnd.toNat - 1, f.sat || v.team.fctl.getLsbD 3, false⟩
     let r := fun l i => convert 0 dst c (src l i).toNat
     let at' := if dst = 11 then 16 * f.vc.toNat else 0
     ∃ (x : Nat → Nat) (flags : Word),
       FlagsOf flags (fun y : Nat × Nat => v.takesPart f.g f.gn y.1 = true ∧ y.2 < n) (fun y => (r y.1 y.2).2) ∧
       (∀ l, v.takesPart f.g f.gn l = true →
         (∀ i, i < n → bitsOf (x l) (at' + w * i) w = (r l i).1 % 2 ^ w) ∧
         (∀ k, k < 32 → (k < at' ∨ at' + w * n ≤ k) → (x l).testBit k = (v.vec f.vd l).getLsbD k)) ∧
       s.ComputesOrTraps (.cvtn f) v 8 (Writes.lanes (v.takesPart f.g f.gn) 0 f.vd x flags))

/-- spec/05 R83, spec/11 R189: CVT with EF, once the live slices of its blocks are together, rounds each participating
lane's value plus the residual of the lanes before it in its block of 16; lanes that do not participate pass the
residual on, and specials, saturation and non-finite results reset it. spec/11 R191 to R194: BLKPACK and BLKUNPK, once
the live slices of their blocks are together. Every participating lane gets a result; of an MXFP4 block, SEQ is b mod
256 and lanes past the eighth halfword have zero below the scale word. Of a QB block, the shared exponent, the
micro-exponents, the fields and the halfwords are those of spec/05 R69 to R72. The model's own readings in it: log 59. -/
def Obligations.BlockConversions : Prop :=
  (∀ (s : State) (v : View) (f : LR), s.Issues v (.cvt f) → f.rnd = 5 → v.Gathered 16 →
     let src := (f.s.extractLsb' 0 4).toNat
     let fmt := fmtOf (f.s.extractLsb' 4 4).toNat
     let ws := formatBits src
     let at' := fmt.width * (f.vc.extractLsb' 4 3).toNat
     let x := fun l => sourceVal src (bitsOf (v.vec f.va l).toNat (ws * (f.vc.extractLsb' 0 3).toNat) ws)
     let part := fun l => v.takesPart f.g f.gn l
     ∃ (e : Nat → Nat → FVal) (q : Nat → Nat × Word) (y : Nat → Nat) (flags : Word),
       (∀ b, b < 2 → e b 0 = .num ⟨false, 0, 0⟩ ∧ ∀ i, i < 16 →
         let l := 16 * b + i
         let sat := f.sat || v.team.fctl.getLsbD 3
         (part l = false → e b (i + 1) = e b i) ∧
         (part l = true → (∀ d, x l ≠ .num d) → q l = fmt.narrow 0 sat (x l) ∧ e b (i + 1) = .num ⟨false, 0, 0⟩) ∧
         (part l = true → (∃ d, x l = .num d) →
           let z := roundSum (x l) (e b i)
           q l = fmt.narrow 0 sat z ∧
           e b (i + 1) = match fmt.decode (q l).1 with
             | .num d => if (q l).2 &&& flagSAT ≠ 0 then .num ⟨false, 0, 0⟩ else roundSum z (fNeg (.num d))
             | _ => .num ⟨false, 0, 0⟩)) ∧
       FlagsOf flags (fun l => part l = true) (fun l => (q l).2) ∧
       (∀ l, part l = true → bitsOf (y l) at' fmt.width = (q l).1 % 2 ^ fmt.width ∧
         ∀ k, k < 32 → (k < at' ∨ at' + fmt.width ≤ k) → (y l).testBit k = (v.vec f.vd l).getLsbD k) ∧
       s.ComputesOrTraps (.cvt f) v 8 (Writes.lanes part 0 f.vd y flags)) ∧
  (∀ (s : State) (v : View) (f : LR),
     let part := v.part f.g f.gn
     let mx := f.s.extractLsb' 0 4 = 5
     (s.Issues v (.blkpack f) → v.Gathered (if mx then 32 else 16) →
       let wr := Writes.ofOuts (if mx then blkpackMx f v part else blkpackQb f v part)
       s.ComputesOrTraps (.blkpack f) v 8 wr ∧
       (∀ l, l < 32 → ∀ r, (wr.v r l).isSome = (v.takesPart f.g f.gn l && decide (r = f.vd.toNat))) ∧
       (mx → ∀ l x, wr.v f.vd.toNat l = some x → x.extractLsb' 24 8 = (v.b32 f (part.headD 0)).extractLsb' 0 8 ∧
         (8 ≤ l → x.extractLsb' 0 16 = 0)) ∧
       (¬mx → v.PacksQb f wr)) ∧
     (s.Issues v (.blkunpk f) → v.Gathered (if mx then 32 else 16) →
       let wr := Writes.ofOuts (if mx then blkunpkMx f v part else blkunpkQb f v part)
       s.ComputesOrTraps (.blkunpk f) v 8 wr ∧
       (∀ l, l < 32 → ∀ r, (wr.v r l).isSome = (v.takesPart f.g f.gn l && decide (r = f.vd.toNat))) ∧
       (mx → (v.vec f.va 0).extractLsb' 16 8 = 255 → ∀ l x, wr.v f.vd.toNat l = some x → x = 0x7FC00000) ∧
       (¬mx → v.UnpacksQb f wr)))

/-- spec/03 R40, spec/11 R195: an instruction whose extent is wider than four lanes waits, and changes nothing but its
split's wait, while a live slice of its extents is not at it. The model's own readings in it: log 41. -/
def Obligations.WideExtentsWait : Prop :=
  ∀ (s : State) (v : View) (f : LR), ∀ e ∈ ([(.shfl f, v.warp.tileWidth), (.vote f, v.warp.tileWidth),
      (.matchLanes f, v.warp.tileWidth), (.redux f, v.warp.tileWidth), (.scan f, v.warp.tileWidth), (.bcast f, v.warp.tileWidth),
      (.rdlane f, 32), (.blkpack f, if f.s.extractLsb' 0 4 = 5 then 32 else 16),
      (.blkunpk f, if f.s.extractLsb' 0 4 = 5 then 32 else 16)] ++ if f.rnd = 5 then [(.cvt f, 16)] else [] :
        List (Instr × Nat)),
    s.Issues v e.1 → v.Scattered e.2 → exec e.1 s = .next (s.stall v 15)

/-- spec/11 R197, R202, R203: SHFL, BCAST and RDLANE, once the live slices of their extents are together. spec/11 R198,
R199: VOTE and MATCH over the participating lanes of each tile. The model's own readings in it: log 41, log 65. -/
def Obligations.LaneExchanges : Prop :=
  (∀ (s : State) (v : View) (f : LR),
     let w := v.warp.tileWidth
     let part := v.takesPart f.g f.gn
     let a := fun l => v.elem f.w f.va l 0
     let tile := v.tile f.g f.gn
     (s.Issues v (.shfl f) → v.Gathered w →
       let j := fun l => (v.b32 f l).toNat
       let mode := (f.s.extractLsb' 0 2).toNat
       let ok := fun l => if mode = 1 then decide (j l ≤ l % w) else if mode = 2 then decide (l % w + j l < w) else true
       let src := fun l => if mode = 0 then l - l % w + j l % w else if mode = 1 then l - j l
         else if mode = 2 then l + j l else l - l % w + (l % w ^^^ (j l % w))
       let valid := fun l => ok l && (tile l).contains (src l)
       s.Computes (.shfl f) v 8 ((Writes.lanes part f.w f.vd (fun l => a (if valid l then src l else l)) 0).both
         (Writes.preds part f.vc.toNat valid 0))) ∧
     (s.Issues v (.bcast f) → v.Gathered w →
       s.Lanewise v (.bcast f) f.g f.gn f.w f.vd 8 fun l x => ∃ m ∈ tile l, x = a m ∧
         ∀ n ∈ tile l, if f.s.getLsbD 0 then n ≤ m else m ≤ n) ∧
     (s.Issues v (.rdlane f) → v.Gathered 32 →
       let x := a ((v.b32 f (4 * lowestBit 8 v.split.mask.toNat)).toNat % 32)
       if (v.part f.g f.gn).isEmpty then s.Computes (.rdlane f) v 8 {}
       else s.Computes (.rdlane f) v 8 ((Writes.uniform v.split.mask f.vd.toNat (BitVec.ofNat 32 x) 0).both
         (if f.w = 2 then Writes.uniform v.split.mask (f.vd.toNat + 1) (BitVec.ofNat 32 (x / 2 ^ 32)) 0 else {})))) ∧
  (∀ (s : State) (v : View) (f : LR),
     let part := v.takesPart f.g f.gn
     let tile := v.tile f.g f.gn
     (s.Issues v (.vote f) → v.Gathered v.warp.tileWidth →
       let p := fun m => v.warp.p (f.va.extractLsb' 0 3).toNat m != f.va.getLsbD 3
       (f.s = 0 → s.Computes (.vote f) v 8 (Writes.preds part f.vd.toNat (fun l => (tile l).all p) 0)) ∧
       (f.s = 1 → s.Computes (.vote f) v 8 (Writes.preds part f.vd.toNat (fun l => (tile l).any p) 0)) ∧
       (f.s = 2 → s.Computes (.vote f) v 8
         (Writes.preds part f.vd.toNat (fun l => (tile l).all p || (tile l).all fun m => !p m) 0)) ∧
       (f.s = 3 → s.Lanewise v (.vote f) f.g f.gn 0 f.vd 8 fun l x =>
         ∀ m, m < 32 → x.testBit m = ((tile l).contains m && p m))) ∧
     (s.Issues v (.matchLanes f) → v.Gathered v.warp.tileWidth →
       let key := fun m => v.elem f.w f.va m 0
       let all := fun l => (tile l).all fun m => key m == key l
       ∃ x : Nat → Nat, (∀ l, part l = true → ∀ m, m < 64 →
           (x l).testBit m = ((tile l).contains m && if f.s = 0 then key m == key l else all l)) ∧
         s.Computes (.matchLanes f) v 8 ((Writes.lanes part f.w f.vd x 0).both (Writes.preds part f.vc.toNat all 0))))

/-- spec/11 R200, R201: REDUX and SCAN over the participating lanes of each tile; FADD by its fixed tree. The model's own
readings in it: log 41, log 65. -/
def Obligations.ReduceAndScan : Prop :=
  ∀ (s : State) (v : View) (f : LR),
    let w := v.warp.tileWidth
    let part := v.takesPart f.g f.gn
    let tile := v.tile f.g f.gn
    let a := fun m => v.vec f.va m
    let val := fun m => if f.uns then ((a m).toNat : Int) else (a m).toInt
    (s.Issues v (.redux f) → v.Gathered w → ∃ (x : Nat → Nat) (flags : Word),
      s.ComputesOrTraps (.redux f) v 8 (Writes.lanes part 0 f.vd x flags) ∧
      (f.s = 0 → let sum := fun l => ((tile l).map fun m => (a m).toInt).sum
        (∀ l, part l = true → x l = narrowed f.sat false 32 (sum l)) ∧
        Raises flags flagSAT (f.sat = true ∧ ∃ l, part l = true ∧ outside false 32 (sum l))) ∧
      (f.s = 1 → flags = 0 ∧ ∀ l, part l = true → ∃ m ∈ tile l, x l = (a m).toNat ∧ ∀ n ∈ tile l, val m ≤ val n) ∧
      (f.s = 2 → flags = 0 ∧ ∀ l, part l = true → ∃ m ∈ tile l, x l = (a m).toNat ∧ ∀ n ∈ tile l, val n ≤ val m) ∧
      (f.s = 3 → flags = 0 ∧ ∀ l, part l = true → ∀ k, k < 32 → (x l).testBit k = (tile l).all fun m => (a m).getLsbD k) ∧
      (f.s = 4 → flags = 0 ∧ ∀ l, part l = true → ∀ k, k < 32 → (x l).testBit k = (tile l).any fun m => (a m).getLsbD k) ∧
      (f.s = 5 → flags = 0 ∧ ∀ l, part l = true → ∀ k, k < 32 →
        (x l).testBit k = ((tile l).countP (fun m => (a m).getLsbD k) % 2 == 1)) ∧
      (f.s = 6 → ∀ n, w = 2 ^ n →
        let tree := fun l => faddRounds (v.team.fctl.getLsbD 2) n 1
          (fun k => (if (tile l).contains (l / w * w + k) then (a (l / w * w + k)).toNat else 2 ^ 31, 0)) 0
        (∀ l, part l = true → x l = (tree l).1) ∧ FlagsOf flags (fun l => part l = true) (fun l => (tree l).2)) ∧
      (f.s = 7 ∨ f.s = 8 →
        let better := fun m n => (fp32.opMinMax (f.s == 8) (a m).toNat (a n).toNat).1
        let num := fun m => !(fp32.decode (a m).toNat).isNan
        (∀ l, part l = true →
          ((tile l).all (fun m => !num m) = true → x l = fp32.nanBits) ∧
          ((tile l).any num = true → ∃ m ∈ tile l, num m = true ∧ x l = (a m).toNat ∧
            ∀ n ∈ tile l, num n = true → better m n = (a m).toNat)) ∧
        Raises flags flagINV (∃ l, part l = true ∧ (fp32.decode (a l).toNat).isSnan = true))) ∧
    (s.Issues v (.scan f) → v.Gathered w →
      let op := (f.s.extractLsb' 0 3).toNat
      let upTo := fun l => (tile l).filter fun m => if f.s.getLsbD 3 then decide (m < l) else decide (m ≤ l)
      let fold := fun (g : Word → Word → Word) (z : Word) l => (upTo l).foldl (fun x m => g x (a m)) z
      let least := fun (x y : Word) => if f.uns then (if x.toNat ≤ y.toNat then x else y) else (if x.toInt ≤ y.toInt then x else y)
      let most := fun (x y : Word) => if f.uns then (if x.toNat ≤ y.toNat then y else x) else (if x.toInt ≤ y.toInt then y else x)
      s.Computes (.scan f) v 8 (Writes.lanes part 0 f.vd (fun l => BitVec.toNat
        (if op = 0 then fold (· + ·) 0 l
         else if op = 1 then fold least (if f.uns then 0xFFFFFFFF else 0x7FFFFFFF) l
         else if op = 2 then fold most (if f.uns then 0 else 0x80000000) l
         else if op = 3 then fold (· &&& ·) 0xFFFFFFFF l
         else if op = 4 then fold (· ||| ·) 0 l
         else fold (· ^^^ ·) 0 l)) 0))

/-- spec/11 R204, R207: the moves between vector registers, from a uniform register, of a pair and of an immediate, and
PMOV between the seven predicates and a register. spec/11 R208, R209: RNG writes the counter-based word of key, counter,
warp and lane to each participating lane, and adds one to RNGCTR in every slice of the split whatever the guard. -/
def Obligations.MovesAndRandomWords : Prop :=
  (∀ (s : State) (v : View),
     (∀ f : LU, s.Issues v (.mov f) → s.Computes (.mov f) v 4 (Writes.lanes (v.takesPart 7 0) 0 f.vd (fun l => (v.vec f.va l).toNat) 0)) ∧
     (∀ f : LU, s.Issues v (.movUniform f) → s.Computes (.movUniform f) v 4
       (Writes.lanes (v.takesPart 7 0) 0 f.vd (fun l => ((v.warp.sl (l / 4)).s f.va.toNat).toNat) 0)) ∧
     (∀ f : LU, s.Issues v (.movB64 f) → s.Computes (.movB64 f) v 4
       (Writes.lanes (v.takesPart 7 0) 2 f.vd (fun l => (v.vec f.va l).toNat + 2 ^ 32 * (v.vec (f.va + 1) l).toNat) 0)) ∧
     (∀ f : LI, s.Issues v (.movImm f) → s.Computes (.movImm f) v 8
       (Writes.lanes (v.takesPart f.g f.gn) 0 f.vd (fun _ => f.imm.toNat) 0)) ∧
     (∀ f : LR, s.Issues v (.pmovGet f) → s.Lanewise v (.pmovGet f) f.g f.gn 0 f.vd 8 fun l x =>
       x < 2 ^ 7 ∧ ∀ n, n < 7 → x.testBit n = v.warp.p n l) ∧
     (∀ f : LR, s.Issues v (.pmovSet f) → s.Computes (.pmovSet f) v 8
       { p := fun n l => if v.takesPart f.g f.gn l ∧ n < 7 then some ((v.vec f.va l).getLsbD n) else none })) ∧
  (∀ (s : State) (v : View) (f : LR), s.Issues v (.rng f) →
     let word := fun l k =>
       let sl := v.warp.sl (l / 4)
       let x0 : BitVec 64 := (sl.rngCtr.zeroExtend 64 <<< 32) ||| BitVec.ofNat 64 (v.warp.num * 2 ^ 8 ||| l * 2 ||| k)
       let round := fun (x : BitVec 64) => x * 0xD1B54A32D192ED03#64 ^^^ ((x * 0xD1B54A32D192ED03#64) >>> 32)
       (round (round (round (round (x0 ^^^ (sl.rngHi ++ sl.rngLo)))))).toNat % 2 ^ 32
     v.warp.num < 32 → s.ComputesOver (.rng f) v 8
       (fun k sl => if v.split.mask.getLsbD k then { sl with rngCtr := sl.rngCtr + 1 } else sl)
       (Writes.lanes (v.takesPart f.g f.gn) f.w f.vd (fun l =>
         if f.w = 2 then word l 0 + 2 ^ 32 * word l 1
         else if f.s.getLsbD 0 then (fp32.round 0 false ⟨false, word l 0 / 256, -24⟩).1 % 2 ^ 32
         else word l 0) 0))

/-- spec/13 R212, R213: the scalar integer instructions, b from a register or immediate. spec/13 R212, R214: SCMP writes
the relation of a and b to qd, and SLEA a sum of 64 bits to a pair. -/
def Obligations.ScalarIntegerAndCompare : Prop :=
  (∀ (s : State) (v : View), ∀ e ∈ ([
       (.sadd, .saddImm, fun _ a b x => x = a + b), (.ssub, .ssubImm, fun _ a b x => x = a - b),
       (.smul, .smulImm, fun _ a b x => x = a * b), (.smad, .smadImm, fun d a b x => x = a * b + d),
       (.smin, .sminImm, fun _ a b x => x.toInt = min a.toInt b.toInt),
       (.smax, .smaxImm, fun _ a b x => x.toInt = max a.toInt b.toInt),
       (.sshl, .sshlImm, fun _ a b x => x = a <<< (b.toNat % 256)), (.sshr, .sshrImm, fun _ a b x => x = a >>> (b.toNat % 256)),
       (.ssar, .ssarImm, fun _ a b x => x = a.sshiftRight (b.toNat % 256)),
       (.sblut, .sblutImm, fun d a b x => ∀ j, j < 32 →
         x.getLsbD j = b.getLsbD (2 * (a.getLsbD j).toNat + (d.getLsbD j).toNat)),
       (.spopc, .spopcImm, fun _ _ b x => x.toNat = (List.range 32).countP fun j => b.getLsbD j),
       (.sclz, .sclzImm, fun _ _ b x => x.toNat ≤ 32 ∧ b.toNat < 2 ^ (32 - x.toNat) ∧
         (x.toNat < 32 → 2 ^ (32 - x.toNat - 1) ≤ b.toNat)),
       (.sbfe, .sbfeImm, fun _ a b x =>
         let pos := b.toNat % 256
         let n := min (b.toNat / 256 % 256) 32
         let fld := fun k => if pos + k < 32 then a.getLsbD (pos + k) else !b.getLsbD 16 && a.getLsbD 31
         ∀ k, k < 32 → x.getLsbD k = if n = 0 then false else if k < n then fld k else !b.getLsbD 16 && fld (n - 1)),
       (.sbfi, .sbfiImm, fun d a b x =>
         let pos := b.toNat % 256
         let n := min (b.toNat / 256 % 256) 32
         ∀ k, k < 32 → x.getLsbD k = if pos ≤ k ∧ k < pos + n then a.getLsbD (k - pos) else d.getLsbD k),
       (.ssel, .sselImm, fun d a b x => x = if b ≠ 0 then a else d), (.smov, .smovImm, fun _ _ b x => x = b)] :
         List ((UR → Instr) × (UI → Instr) × (Word → Word → Word → Word → Prop))),
     s.Scalar v e.1 e.2.1 e.2.2) ∧
  (∀ (s : State) (v : View),
     s.ScalarWrites v .scmp .scmpImm (fun d a b =>
       let x := v.s a.toNat
       Writes.flag v.split.mask (d.extractLsb' 0 3).toNat (match (d.extractLsb' 3 3).toNat with
         | 0 => x == b | 1 => x != b | 2 => decide (x.toInt < b.toInt) | 3 => decide (x.toInt ≤ b.toInt)
         | 4 => decide (x.toInt > b.toInt) | 5 => decide (x.toInt ≥ b.toInt)
         | 6 => decide (x.toNat < b.toNat) | _ => decide (x.toNat ≥ b.toNat)) 0) ∧
     s.ScalarWrites v .slea .sleaImm (fun d a b =>
       let x : BitVec 64 := (v.s (a.toNat + 1) ++ v.s a.toNat) + b.signExtend 64
       (Writes.uniform v.split.mask d.toNat (x.truncate 32) 0).both
         (Writes.uniform v.split.mask (d.toNat + 1) ((x >>> 32).truncate 32) 0)))

/-- spec/13 R215, R216: SFADD, SFMUL and SFFMA in FP32 under FCTL's mode and saturation and without FTZ; SCVT converts the
low element of a under a control word, and takes ILLOP with the control where a register holds a reserved one. -/
def Obligations.ScalarFloatAndConversion : Prop :=
  ∀ (s : State) (v : View),
    let c : RCtl := ⟨(v.team.fctl.extractLsb' 0 2).toNat, v.team.fctl.getLsbD 3, false⟩
    let wr := fun (d : BitVec 6) (r : Nat × Word) => Writes.uniform v.split.mask d.toNat (BitVec.ofNat 32 r.1) r.2
    let x := fun (r : BitVec 6) => (v.s r.toNat).toNat
    s.ScalarWrites v .sfadd .sfaddImm (fun d a b => wr d (fp32.opAdd c (x a) b.toNat)) ∧
    s.ScalarWrites v .sfmul .sfmulImm (fun d a b => wr d (fp32.opMul c (x a) b.toNat)) ∧
    s.ScalarWrites v .sffma .sffmaImm (fun d a b => wr d (fp32.opFma c (x a) b.toNat (x d))) ∧
    let cvt := fun (d a : BitVec 6) (b : Word) =>
      let src := (b.extractLsb' 0 4).toNat
      let rc : RCtl := ⟨if b.extractLsb' 8 3 = 0 then c.mode else (b.extractLsb' 8 3).toNat - 1, b.getLsbD 11 || c.sat, false⟩
      wr d (convert src (b.extractLsb' 4 4).toNat rc (x a % 2 ^ formatBits src))
    (∀ f, s.Issues v (.scvt f) → v.qGuard f.q f.n = true →
        (scvtControl (v.s f.b.toNat) = true → s.ComputesOrTraps (.scvt f) v 4 (cvt f.d f.a (v.s f.b.toNat))) ∧
        (scvtControl (v.s f.b.toNat) = false → exec (.scvt f) s = .next (s.takeFault v ⟨0x01, v.s f.b.toNat, 0, 0⟩ v.pc))) ∧
    (∀ f, s.Issues v (.scvt f) → v.qGuard f.q f.n = false → s.Computes (.scvt f) v 4 {}) ∧
    (∀ f, s.Issues v (.scvtImm f) → v.qGuard f.q f.n = true → s.ComputesOrTraps (.scvtImm f) v 8 (cvt f.d f.a f.imm)) ∧
    (∀ f, s.Issues v (.scvtImm f) → v.qGuard f.q f.n = false → s.Computes (.scvtImm f) v 8 {})

/-- spec/09 R144, R145, spec/03 R35, R55, spec/11 R205, spec/13 R237, spec/19 R318: what SRD and S2V read, and that a
read of CLOCKLO or RTICKLO latches the upper half in the slices that read and a read of the upper half spends it.
spec/09 R144, R151, spec/05 R86, R87, spec/13 R237, R240, spec/29 R396: SWR writes FLAGS (a flag raised in the same
clock stays), FCTL, TBASE and the random registers; a read-only register raises PRIV whatever the guard. RNGSEED sets
the key and clears the counter. The model's own readings in it: log 6, log 45. -/
def Obligations.SpecialRegisters : Prop :=
  (∀ (s : State) (v : View), s.view? = some v →
     let t := v.team
     let n := BitVec.ofNat 32
     let cnt := fun x => min x 255
     let gang := s.gang? t.gang
     ∀ e ∈ ([(0x01, fun k => n k), (0x02, fun _ => n v.warp.num), (0x03, fun _ => n t.num),
         (0x04, fun _ => (gang.map (·.gangId)).getD 0), (0x05, fun _ => n t.taskIdx), (0x06, fun _ => t.inst),
         (0x07, fun _ => n (s.khmod.toNat * 2 ^ 16 + t.core)), (0x08, fun _ => n v.warp.role), (0x09, fun _ => n v.warp.vbound),
         (0x0A, fun k => n (v.warp.sl k).part), (0x0B, fun _ => t.flags), (0x0C, fun _ => t.fctl),
         (0x0D, fun _ => n (cnt v.warp.mb * 2 ^ 24 + cnt v.warp.cp * 2 ^ 16 + cnt v.warp.st * 2 ^ 8 + cnt v.warp.ld)),
         (0x0E, fun _ => if (gang.map (·.drain)).getD false then 1 else 0),
         (0x0F, fun _ => (v.warp.sl v.sel.slice).retired),
         (0x10, fun _ => n s.clock), (0x11, fun k => (v.warp.sl k).clockHi.getD (n (s.clock / 2 ^ 32))),
         (0x12, fun _ => n s.tick), (0x13, fun k => (v.warp.sl k).rtickHi.getD (n (s.tick / 2 ^ 32))),
         (0x14, fun k => (v.warp.sl k).rngLo), (0x15, fun k => (v.warp.sl k).rngHi), (0x16, fun k => (v.warp.sl k).rngCtr),
         (0x17, fun _ => n (v.warp.liveSlices.toNat * 2 ^ 16 + v.split.parent * 2 ^ 8 + v.split.mask.toNat)),
         (0x18, fun _ => v.low.trapCode), (0x19, fun _ => v.low.trapPc), (0x1A, fun _ => v.low.trapInfo),
         (0x1B, fun _ => t.tbase), (0x1C, fun _ => n t.ctx), (0x1D, fun _ => n v.warp.ntok),
         (0x1E, fun _ => pipeStat ((gang.map (·.pipes)).getD [])), (0x1F, fun _ => if t.preempt then 1 else 0)] ++
         (List.range 16).map fun r => (0x20 + r, fun _ => Tab.get 0 t.stalls r) : List (Nat × (Nat → Word))),
       let latch := fun (here : Nat → Bool) k (sl : Slice) => if here k then { sl with
           clockHi := if e.1 = 0x10 then some (n (s.clock / 2 ^ 32)) else if e.1 = 0x11 then none else sl.clockHi
           rtickHi := if e.1 = 0x12 then some (n (s.tick / 2 ^ 32)) else if e.1 = 0x13 then none else sl.rtickHi } else sl
       (∀ f : UR, s.Issues v (.srd f) → f.a.toNat = e.1 →
         (v.qGuard f.q f.n = true → s.ComputesOver (.srd f) v 4 (latch v.split.mask.getLsbD)
           (Writes.uniform v.split.mask f.d.toNat (e.2 v.sel.slice) 0)) ∧
         (v.qGuard f.q f.n = false → s.Computes (.srd f) v 4 {})) ∧
       (∀ f : LU, s.Issues v (.s2v f) →
         (f.va.toNat = 0 → s.Computes (.s2v f) v 4 (Writes.lanes (v.takesPart 7 0) 0 f.vd (fun l => l) 0)) ∧
         (f.va.toNat = e.1 → s.ComputesOver (.s2v f) v 4 (latch fun k => (List.range 32).any fun l => l / 4 == k && v.laneOn l)
           (Writes.lanes (v.takesPart 7 0) 0 f.vd (fun l => (e.2 (l / 4)).toNat) 0)))) ∧
  (∀ (s : State) (v : View) (f : UR),
     (s.Issues v (.swr f) →
       let x := v.s f.a.toNat
       let rw := f.d.toNat ∈ [0x0B, 0x0C, 0x14, 0x15, 0x16, 0x1B]
       let team := fun (g : Team → Team) => s.Goes (.swr f) (s.modTeam v.team.uid g) { v with team := g v.team } v.warp {} (v.on 4)
       let slices := fun (g : Slice → Slice) => s.ComputesOver (.swr f) v 4 (fun k sl => if v.split.mask.getLsbD k then g sl else sl) {}
       (¬rw → exec (.swr f) s = .next (s.takeFault v ⟨0x1A, (encode (.swr f)).1, 0, 0⟩ v.pc)) ∧
       (rw → v.qGuard f.q f.n = false → s.Computes (.swr f) v 4 {}) ∧
       (v.qGuard f.q f.n = true →
         (f.d = 0x0B → team fun t => { t with flags := x &&& 0x3FF ||| (if t.raisedAt = s.clock then t.raised else 0) }) ∧
         (f.d = 0x0C → team fun t => { t with fctl := x &&& 0xFF }) ∧
         (f.d = 0x1B → team fun t => { t with tbase := if x = 0xFFFFFFFF then x else x &&& 0xFFFFFFFC }) ∧
         (f.d = 0x14 → slices fun sl => { sl with rngLo := x }) ∧
         (f.d = 0x15 → slices fun sl => { sl with rngHi := x }) ∧
         (f.d = 0x16 → slices fun sl => { sl with rngCtr := x }))) ∧
     (s.Issues v (.rngseed f) →
       (v.qGuard f.q f.n = false → s.Computes (.rngseed f) v 4 {}) ∧
       (v.qGuard f.q f.n = true → s.ComputesOver (.rngseed f) v 4 (fun k sl =>
         if v.split.mask.getLsbD k then { sl with rngLo := v.s f.a.toNat, rngHi := v.s f.b.toNat, rngCtr := 0 } else sl) {})))

/-- spec/03 R43, R47, spec/13 R238, R239: SETPART accepts the five tile widths, and SETBOUND a multiple of 8 from 8 to
min(256, budget) that keeps the live accumulator slots where they are; SETBOUND waits for queued matrix operations. -/
def Obligations.PartAndBoundSettings : Prop :=
  ∀ (s : State) (v : View) (i : Instr) (g : Bool) (b : Word) (len : Nat), s.Issues v i →
    let form := fun (ur : UR → Instr) (ui : UI → Instr) =>
      (∃ f, i = ur f ∧ g = v.qGuard f.q f.n ∧ b = v.s f.b.toNat ∧ len = 4) ∨
      (∃ f, i = ui f ∧ g = v.qGuard f.q f.n ∧ b = f.imm ∧ len = 8)
    (form .setpart .setpartImm →
      (g = false → s.Computes i v len {}) ∧
      (g = true → b.toNat ∈ [2, 4, 8, 16, 32] → s.ComputesOver i v len
        (fun k sl => if v.split.mask.getLsbD k then { sl with part := b.toNat } else sl) {}) ∧
      (g = true → b.toNat ∉ [2, 4, 8, 16, 32] → exec i s = .next (s.takeFault v ⟨0x01, b, 0, 0⟩ v.pc))) ∧
    (form .setbound .setboundImm →
      let queued := ∃ m ∈ s.matOps, m.x.team = v.team.uid ∧ m.x.warp = v.warp.num
      let legal := b.toNat % 8 = 0 ∧ 8 ≤ b.toNat ∧ b.toNat ≤ 256 ∧ b.toNat ≤ v.warp.budget ∧
        (b.toNat = v.warp.vbound ∨ ∀ e ∈ v.warp.slots, e.2.live = false)
      (g = false → s.Computes i v len {}) ∧
      (g = true → queued → exec i s = .next (s.stall v 5)) ∧
      (g = true → ¬queued → legal → s.Goes i s v { v.warp with vbound := b.toNat } {} (v.on len)) ∧
      (g = true → ¬queued → ¬legal → exec i s = .next (s.takeFault v ⟨0x02, b, 0, 0⟩ v.pc)))

/-- spec/13 R217 to R219, R221: NOP, BRA, CALL, RET and DBNZ. A target is an offset in words from the branch; CALL pushes
the address after it on the return stack of each slice, which holds 16, and RET pops it; RETSTK tells overflow from
underflow. A false guard only goes on. -/
def Obligations.BranchesCallsAndReturns : Prop :=
  ∀ (s : State) (v : View),
    let mine := fun k => v.split.mask.getLsbD k
    (∀ f, s.Issues v (.nop f) → s.Computes (.nop f) v 4 {}) ∧
    (∀ f : UB, s.Issues v (.bra f) →
      (v.qGuard f.q f.n = true → s.Goes (.bra f) s v v.warp {} fun _ => v.pc + f.off.signExtend 64 * 4) ∧
      (v.qGuard f.q f.n = false → s.Computes (.bra f) v 4 {})) ∧
    (∀ f : UB, s.Issues v (.call f) →
      let full := ∃ k, k < 8 ∧ mine k = true ∧ 16 ≤ (v.warp.sl k).rstack.length
      (v.qGuard f.q f.n = true → ¬full → ∃ w, v.warp.Slices w (fun k sl =>
          if mine k then { sl with rstack := (v.pc + 4) :: sl.rstack } else sl) ∧
        s.Goes (.call f) s v w {} fun _ => v.pc + f.off.signExtend 64 * 4) ∧
      (v.qGuard f.q f.n = true → full → exec (.call f) s = .next (s.takeFault v ⟨0x08, 1, 0, 0⟩ v.pc)) ∧
      (v.qGuard f.q f.n = false → s.Computes (.call f) v 4 {})) ∧
    (∀ f : UR, s.Issues v (.ret f) →
      let empty := ∃ k, k < 8 ∧ mine k = true ∧ (v.warp.sl k).rstack = []
      (v.qGuard f.q f.n = true → ¬empty → ∃ w, v.warp.Slices w (fun k sl =>
          if mine k then { sl with rstack := sl.rstack.tail } else sl) ∧
        s.Goes (.ret f) s v w {} fun k => (v.warp.sl k).rstack.headD 0) ∧
      (v.qGuard f.q f.n = true → empty → exec (.ret f) s = .next (s.takeFault v ⟨0x08, 0, 0, 0⟩ v.pc)) ∧
      (v.qGuard f.q f.n = false → s.Computes (.ret f) v 4 {})) ∧
    (∀ f : UI, s.Issues v (.dbnz f) →
      let x := v.s f.d.toNat - 1
      (v.qGuard f.q f.n = true → s.Goes (.dbnz f) s v v.warp (Writes.uniform v.split.mask f.d.toNat x 0) fun _ =>
        if x ≠ 0 then v.pc + (f.imm.extractLsb' 0 18).signExtend 64 * 4 else v.pc + 8) ∧
      (v.qGuard f.q f.n = false → s.Computes (.dbnz f) v 8 {}))

/-- spec/09 R159, spec/13 R220: JTAB reads the header and one entry of its table as instruction words and goes to the
entry's address; a reserved bit, or an index past the last entry, raises JTAB with the index. spec/13 R226, spec/09
R159: JTABX reads an entry for each participating lane and sends the lane there and the others on; a slice goes to the
address of its lowest active lane and defers each other address, the next lowest lane's on top. The reconvergence
address is in the header. The instruction buffer keeps the words read. The model's own readings in it: log 42, log 43. -/
def Obligations.TableBranches : Prop :=
  (∀ (s : State) (v : View) (f : UI) (h e : Word), s.Issues v (.jtab f) →
     let table := v.pc + (f.imm.extractLsb' 0 18).signExtend 64 * 4
     let k := v.s f.a.toNat
     let trap := exec (.jtab f) s = .next (s.takeFault v ⟨0x14, k, 0, 0⟩ v.pc)
     let fits := h.extractLsb' 12 2 = 0 ∧ k.toNat ≤ (h.extractLsb' 0 12).toNat
     (v.qGuard f.q f.n = false → s.Computes (.jtab f) v 8 {}) ∧
     (v.qGuard f.q f.n = true → s.fetchWord v.core v.ctx table = .word h →
       (¬fits → trap) ∧
       (fits → s.fetchWord v.core v.ctx (table + BitVec.ofNat 64 (4 * (k.toNat + 1))) = .word e →
         (e.extractLsb' 18 14 ≠ 0 → trap) ∧
         (e.extractLsb' 18 14 = 0 → s.Goes (.jtab f)
           ((s.keepWord v.core v.ctx table).keepWord v.core v.ctx (table + BitVec.ofNat 64 (4 * (k.toNat + 1)))) v v.warp {}
           fun _ => table + (e.extractLsb' 0 18).signExtend 64 * 4))) ∧
     (v.qGuard f.q f.n = true → s.fetchWord v.core v.ctx table = .miss →
       exec (.jtab f) s = .next (s.startWalk v table.toNat .fetch 0))) ∧
  (∀ (s : State) (v : View) (f : LB) (h : Word) (e : Nat → Word), s.Issues v (.jtabx f) →
     let table := v.pc + f.off.signExtend 64 * 4
     let reconv := table + (h.extractLsb' 14 18).signExtend 64 * 4
     let part := fun l => v.laneOn l && v.pGuard f.p f.neg l
     let idx := fun l => (v.vec f.mid l).toNat
     let dest := fun l => if part l then table + ((e l).extractLsb' 0 18).signExtend 64 * 4 else v.pc + 8
     let ways := fun k => distinct ((v.sliceLanes k).map dest)
     let at' := fun k (ds : List Addr) => v.among k fun l => ds.contains (dest l)
     let kept := ((List.range 32).filter part).foldl (fun u l =>
       u.keepWord v.core v.ctx (table + BitVec.ofNat 64 (4 * (idx l + 1)))) (s.keepWord v.core v.ctx table)
     s.fetchWord v.core v.ctx table = .word h → h.extractLsb' 12 2 = 0 →
     ((∀ l, l < 32 → part l = true → idx l ≤ (h.extractLsb' 0 12).toNat ∧ (e l).extractLsb' 18 14 = 0 ∧
         s.fetchWord v.core v.ctx (table + BitVec.ofNat 64 (4 * (idx l + 1))) = .word (e l)) →
       ((∀ k, v.split.mask.getLsbD k = true → (v.warp.sl k).dstack.length + ((ways k).length - 1) ≤ 8) →
         ∃ w, v.warp.Slices w (fun k sl => if v.split.mask.getLsbD k && decide (1 < (ways k).length) then { sl with
             act := at' k ((ways k).take 1)
             dstack := (List.range ((ways k).length - 1)).map (fun i => ⟨at' k [(ways k).getD (i + 1) 0], (ways k).getD (i + 1) 0,
               reconv, false, at' k ((ways k).take (i + 2))⟩) ++ sl.dstack } else sl) ∧
           s.Goes (.jtabx f) kept v w {} fun k => (ways k).headD (v.pc + 8)) ∧
       (∀ k, v.split.mask.getLsbD k = true → 8 < (v.warp.sl k).dstack.length + ((ways k).length - 1) →
         (∀ j, j < k → v.split.mask.getLsbD j = true → (v.warp.sl j).dstack.length + ((ways j).length - 1) ≤ 8) →
         exec (.jtabx f) s = .next (s.takeFault v ⟨0x07, BitVec.ofNat 32 k, 0, 0⟩ v.pc))) ∧
     (∀ l, l < 32 → part l = true → (h.extractLsb' 0 12).toNat < idx l → (∀ m, m < l → part m = false) →
       exec (.jtabx f) s = .next (s.takeFault v ⟨0x14, BitVec.ofNat 32 l, 0, 0⟩ v.pc)))

/-- spec/03 R36, spec/13 R224, R225: BRX sends each slice to its target, or on; a slice whose lanes disagree goes to the
target first and defers the others, its stack holding 8 entries, and DIVDEPTH names a slice with a full stack. spec/13
R227: RETX goes to the 64-bit address that the active lanes of each slice agree on; lanes of one slice that differ raise
DIVRET with the slice, and an address off a word MISALIGN. Which slice and which address are told, and in which order, is
the model's own choice: log 66. -/
def Obligations.LaneBranchAndReturn : Prop :=
  (∀ (s : State) (v : View) (f : LB), s.Issues v (.brx f) →
     let yes := fun k => v.among k fun l => v.pGuard f.p f.neg l
     let no := fun k => v.among k fun l => !v.pGuard f.p f.neg l
     let splits := fun k => v.split.mask.getLsbD k && yes k != 0 && no k != 0
     let full := fun k => splits k && decide (8 ≤ (v.warp.sl k).dstack.length)
     let target := v.pc + f.off.signExtend 64 * 4
     ((∀ k, full k = false) → ∃ w, v.warp.Slices w (fun k sl => if splits k then { sl with
           act := yes k
           dstack := ⟨no k, v.pc + 8, v.pc + f.hi.signExtend 64 * 4, false, yes k ||| no k⟩ :: sl.dstack } else sl) ∧
       s.Goes (.brx f) s v w {} fun k => if yes k = 0 then v.pc + 8 else target) ∧
     (∀ k, full k = true → (∀ j, j < k → full j = false) →
       exec (.brx f) s = .next (s.takeFault v ⟨0x07, BitVec.ofNat 32 k, 0, 0⟩ v.pc))) ∧
  (∀ (s : State) (v : View) (f : LU) (a : Nat → Addr), s.Issues v (.retx f) →
     let lanes := fun k => v.sliceLanes k
     let agree := fun k => (lanes k).all fun l => (lanes k).all fun m => v.vec64 f.va l == v.vec64 f.va m
     ((∀ k, v.split.mask.getLsbD k = true → agree k = true) →
       (∀ k, v.split.mask.getLsbD k = true → (∀ l ∈ lanes k, v.vec64 f.va l = a k) ∧ (lanes k = [] → a k = v.pc + 4)) →
       ((∀ k, v.split.mask.getLsbD k = true → lanes k ≠ [] → (a k).extractLsb' 0 2 = 0) → s.Goes (.retx f) s v v.warp {} a) ∧
       (∀ k, v.split.mask.getLsbD k = true → lanes k ≠ [] → (a k).extractLsb' 0 2 ≠ 0 →
         (∀ j, j < k → v.split.mask.getLsbD j = true → lanes j ≠ [] → (a j).extractLsb' 0 2 = 0) →
         exec (.retx f) s = .next (s.takeFault v ⟨0x03, (a k).truncate 32, 0, 0⟩ v.pc))) ∧
     (∀ k, v.split.mask.getLsbD k = true → agree k = false → (∀ j, j < k → v.split.mask.getLsbD j = true → agree j = true) →
       exec (.retx f) s = .next (s.takeFault v ⟨0x09, BitVec.ofNat 32 k, 0, 0⟩ v.pc)))

/-- spec/03 R37: a slice stays where it comes unless it stands at the reconvergence address of its top entry or has no
active lane left; then the entry's deferred lanes run once from their address, and at last its recorded lanes go on from
the reconvergence address. That the last death on the deferred path has them go on too, is the model's own choice: log 64. -/
def Obligations.ReconvergenceThroughTheStack : Prop :=
  ∀ (sl : Slice) (pc : Addr) (e : DefEntry) (rest : List DefEntry),
    (sl.dstack = [] → sl.settle pc = (sl, pc)) ∧
    (sl.dstack = e :: rest →
      (sl.act &&& sl.live ≠ 0 → pc ≠ e.reconv → sl.settle pc = (sl, pc)) ∧
      (sl.act &&& sl.live = 0 ∨ pc = e.reconv →
        (e.deferred = false → e.lanes &&& sl.live ≠ 0 →
          sl.settle pc = ({ sl with act := e.lanes &&& sl.live, dstack := { e with deferred := true } :: rest } : Slice).settle e.addr) ∧
        (e.deferred = true ∨ e.lanes &&& sl.live = 0 →
          sl.settle pc = ({ sl with act := e.recorded &&& sl.live, dstack := rest } : Slice).settle e.reconv)))

/-- spec/03 R56, spec/13 R223, R228: EXIT kills the active lanes of its split and DISCARD the participating lanes of a
pixel team; a dead lane leaves the active lanes and every stack entry. DISCARD elsewhere raises ILLOP. -/
def Obligations.ExitAndDiscard : Prop :=
  ∀ (s : State) (v : View),
    let dies := fun (i : Instr) (exports sync : Bool) (lanes : List Nat) (len : Nat) =>
      ∃ t w, exec i s = .next (if sync then (t.afterDeaths v).chunkAfter v else t.afterDeaths v) ∧
        (s.exportLanes v lanes exports).Retires t v w {} (v.on len) ∧
        w = { v.warp with
          slices := w.slices, exits := v.warp.exits.filter (·.clock == s.clock) ++ [⟨v.sel.slice, v.pc, s.clock⟩] } ∧
        ∀ k, w.sl k =
          let gone := laneMask (lanes.filter fun l => l / 4 == k)
          { v.warp.sl k with
            live := (v.warp.sl k).live &&& ~~~gone, act := (v.warp.sl k).act &&& ~~~gone
            dstack := (v.warp.sl k).dstack.map fun e => { e with lanes := e.lanes &&& ~~~gone, recorded := e.recorded &&& ~~~gone } }
    (∀ f, s.Issues v (.exit f) →
      (v.qGuard f.q f.n = true → dies (.exit f) true true v.lanes 4) ∧
      (v.qGuard f.q f.n = false → s.GoesSync (.exit f) s v v.warp {} (v.on 4))) ∧
    ((∃ d p l x, v.team.kind = .pixel d p l x) →
      (s.Issues v .discardLu → dies .discardLu false false v.lanes 4) ∧
      (∀ f, s.Issues v (.discard f) → dies (.discard f) false false (v.part f.g f.gn) 8)) ∧
    ((∀ d p l x, v.team.kind ≠ .pixel d p l x) →
      (s.Issues v .discardLu → exec .discardLu s = .next (s.takeFault v ⟨0x01, (encode .discardLu).1, 0, 0⟩ v.pc)) ∧
      (∀ f, s.Issues v (.discard f) →
        exec (.discard f) s = .next (s.takeFault v ⟨0x01, (encode (.discard f)).1, 0, 0⟩ v.pc)))

/-- spec/03 R39, R42, spec/13 R222: a split at REGANG joins the fuse group of its address and parent and waits; a false
guard passes. The group is released when it holds every live slice of its record, or when its wait since its first
arrival has elapsed: the splits fuse, each slice takes the uniform state of the lowest, UDIFF tells of a difference, the
REGANG retires, and nothing else changes. A wait of zero ends with the clock. The model's own readings in it: log 40. -/
def Obligations.Regang : Prop :=
  (∀ (s : State) (v : View) (f : UI), s.Issues v (.regang f) →
     let limit := (f.imm.extractLsb' 0 10).toNat
     let key := fun (g : FuseGroup) => g.pc == v.pc && g.parent == v.split.parent
     let g0 := (v.warp.groups.find? key).getD ⟨v.pc, v.split.parent, 0, s.clock, limit⟩
     let g := { g0 with mask := g0.mask ||| v.split.mask }
     let full := ∀ r, v.warp.recs.find? (·.id == v.split.parent) = some r → r.mask &&& v.warp.liveSlices = g.mask
     let join := fun (w : Warp) => { w with
       groups := w.groups.filter (!key ·) ++ [g]
       splits := modFirst (·.mask == v.split.mask) (fun sp => { sp with wait := .regang }) w.splits }
     (v.qGuard f.q f.n = false → s.Computes (.regang f) v 8 {}) ∧
     (v.qGuard f.q f.n = true → ¬full → limit ≠ 0 →
       exec (.regang f) s = .next (s.modWarp v.team.uid v.warp.num join)) ∧
     (v.qGuard f.q f.n = true → ¬full → limit = 0 → exec (.regang f) s = .next { s.modWarp v.team.uid v.warp.num join with
       plan := s.plan ++ [.event (.regangTimeout v.team.uid v.warp.num v.pc v.split.parent)] }) ∧
     (v.qGuard f.q f.n = true → full →
       (∀ sp ∈ v.warp.splits, sp.mask ≠ 0 ∧ (sp.mask &&& g.mask = 0 ∨ sp.mask &&& g.mask = sp.mask ∧ sp.pc = v.pc)) →
       ∃ t, exec (.regang f) s = .next t ∧ s.Released t v.team.uid v.warp.num (join v.warp) g)) ∧
  (∀ (s : State) (uid n : Nat) (pc : Addr) (parent : Nat),
     let run := exec (.regangTimeout uid n pc parent) s
     let due := fun (w : Warp) (g : FuseGroup) => g.pc = pc ∧ g.parent = parent ∧
       (g.first + g.limit ≤ s.clock ∨ ∀ r, w.recs.find? (·.id == g.parent) = some r → r.mask &&& w.liveSlices = g.mask)
     (∀ w g, s.warpAt uid n = some w → g ∈ w.groups → due w g → (∀ h ∈ w.groups, due w h → h = g) →
       (∃ sp ∈ w.splits, sp.mask &&& g.mask ≠ 0) →
       (∀ sp ∈ w.splits, sp.mask ≠ 0 ∧ (sp.mask &&& g.mask = 0 ∨ sp.mask &&& g.mask = sp.mask ∧ sp.pc = pc)) →
       ∃ t, run = .next t ∧ s.Released t uid n w g) ∧
     ((∀ w g, s.warpAt uid n = some w → g ∈ w.groups → ¬due w g) → run = .next s))

/-- spec/15 R251, spec/07 R92, R96, R116: the checks of LD, ST, LDS, STS, SLD and SST in their order, each over every
participating lane before the next; the fault names the lowest lane that fails the first check that fails. -/
def Obligations.AccessChecks : Prop :=
  ∀ (s : State) (v : View) (i : Instr) (n : Nat) (write : Bool) (ps : List (Nat × Place)), s.Issues v i →
    let full := if write then 1023 ≤ v.warp.st else 1023 ≤ v.warp.ld
    let lane := fun (f : LM) (scr : Bool) => n = 2 ^ f.size.toNat ∧ ps = (v.part f.g f.gn).map fun l => (l,
      if scr then .scr ((v.vec f.va l).toNat + f.off.toInt) else .glob (v.vec64 f.va l + f.off.signExtend 64).toNat)
    let uniform := fun (f : UE) => n = 2 ^ (f.w1.extractLsb' 29 3).toNat ∧ ps = [(0,
      if f.sub.extractLsb' 0 2 = 2 then .scr ((v.s f.a.toNat).toNat + (f.w1.extractLsb' 0 20).toInt)
      else .glob (v.s64 f.a.toNat + (f.w1.extractLsb' 0 20).signExtend 64).toNat)]
    (∃ f, i = .ld f ∧ write = false ∧ lane f false ∨ i = .lds f ∧ write = false ∧ lane f true ∨
      i = .st f ∧ write = true ∧ lane f false ∨ i = .sts f ∧ write = true ∧ lane f true) ∨
    (∃ f, i = .sld f ∧ write = false ∧ uniform f ∨ i = .sst f ∧ write = true ∧ uniform f) →
    (ps ≠ [] → full → exec i s = .next (s.stall v (if write then 3 else 2))) ∧
    (¬full → ∀ (j : Nat) (c : Place → Option (Nat × Word)) (x : Nat × Place) code info, (s.accessChecks v n write)[j]? = some c → x ∈ ps → c x.2 = some (code, info) →
      (∀ m, m < j → ∀ d : Place → Option (Nat × Word), (s.accessChecks v n write)[m]? = some d → ∀ y ∈ ps, d y.2 = none) →
      (∀ y ∈ ps, y.1 < x.1 → c y.2 = none) →
      exec i s = .next (s.takeFault v ⟨code, info, x.1, 0⟩ v.pc))

/-- spec/07 R94, R95, R97, R98, R105, spec/15 R249, R252, R254, R255, R262, R263: LD, LDS and SLD whose accesses pass every
check wait for their scratchpad banks, and then complete: each place is read in ascending lane order as its path, order and
scope say, the registers are held until the load completes, and LD rises by one. A weak load gives each byte from L1, else
from below it; a strong one gives it at the point of its scope; the constant path gives what it has read before. No other
core's L1 and no other die's far cache changes. The model's own readings in it: log 5, log 15, log 51. -/
def Obligations.Loads : Prop :=
  ∀ (s : State) (v : View) (loc : Nat → Loc), v.warp.ld < 1023 →
    let after := fun (units : List Nat) => (s.useBanks units).settleAtoms v.team.uid v.warp.num
    let held := fun (id : Nat) (vs ss : List Nat) => { v.warp with ld := v.warp.ld + 1, holds := v.warp.holds ++ [⟨id, vs, ss, false, 2⟩] }
    let begun := fun (u : State) (op : MemOp) => { u with memOps := u.memOps ++ [op], nextId := u.nextId + 1 }
    let plain := s.noAtoms v ∧ s.unrecorded ∧ s.memoryOk ∧ s.diagMode = false
    (∀ f : LM, ∀ e ∈ ([(.ld f, false), (.lds f, true)] : List (Instr × Bool)), s.Issues v e.1 →
      let n := 2 ^ f.size.toNat
      let part := v.part f.g f.gn
      let locs := part.map fun l => (l, loc l)
      let units := scrUnits locs n
      let regs := (List.range (regsOf n)).map (f.vd.toNat + ·)
      let u := after units
      let r := locs.foldl (fun (a : State × List (Nat × Nat × Word)) x =>
        let (w, bs) := a.1.loadLoc v.core f.scope.toNat f.order.toNat x.2 n (f.hint != 1)
        (w, a.2 ++ (numbered f.vd.toNat (wordsOf bs)).map fun (q, b) => (q, x.1, b))) (u, [])
      let op : MemOp := {
        id := r.1.nextId, x := v.sel, mask := v.split.mask, core := v.core, isLoad := true, uniform := false
        vwrites := r.2, lines := u.loadLines v.core f.scope.toNat f.order.toNat n locs }
      let touched := fun k => ∃ l ∈ part, (loc l).scratch = false ∧ (loc l).key ≤ k ∧ k < (loc l).key + n
      (part = [] → State.GoesAs (f.order != 0) s e.1 s v v.warp {} (v.on 8)) ∧
      (part ≠ [] → s.Reaches v n false true (part.map fun l => (l, LM.place f v e.2 l)) loc →
        (s.banksBusy units = true → exec e.1 s = .next (s.stall v 10)) ∧
        (s.banksBusy units = false →
          State.GoesAs (f.order != 0) s e.1 (begun r.1 op) v (held op.id regs []) {} (v.on 8) ∧
          (plain → (s.useBanks units).LoadEffect r.1 v.core f.order.toNat f.scope.toNat touched (isAcquire f.order.toNat) ∧
            r.2 = part.flatMap fun l => (List.range (regsOf n)).map fun q =>
              (f.vd.toNat + q, l, wordAt n (s.loaded v.core f.order.toNat f.scope.toNat (loc l)) q))))) ∧
    (∀ f : UE, s.Issues v (.sld f) →
      let n := 2 ^ (f.w1.extractLsb' 29 3).toNat
      let path := (f.sub.extractLsb' 0 2).toNat
      let order := (f.w1.extractLsb' 23 3).toNat
      let scope := (f.w1.extractLsb' 26 3).toNat
      let place := if path = 2 then .scr ((v.s f.a.toNat).toNat + (f.w1.extractLsb' 0 20).toInt)
        else .glob (v.s64 f.a.toNat + (f.w1.extractLsb' 0 20).signExtend 64).toNat
      let units := scrUnits [(0, loc 0)] n
      let regs := (List.range (regsOf n)).map (f.d.toNat + ·)
      let u := after units
      let r := if path = 1 then u.loadConst v.core (loc 0).key n
        else u.loadLoc v.core scope order (loc 0) n (f.w1.extractLsb' 20 3 != 1)
      let op : MemOp := {
        id := r.1.nextId, x := v.sel, mask := v.split.mask, core := v.core, isLoad := true, uniform := true
        swrites := numbered f.d.toNat (wordsOf r.2), dest := v.split.mask
        lines := u.loadLines v.core scope order n [(0, loc 0)] }
      s.Reaches v n false true [(0, place)] loc →
        (s.banksBusy units = true → exec (.sld f) s = .next (s.stall v 10)) ∧
        (s.banksBusy units = false →
          State.GoesAs (order != 0) s (.sld f) (begun r.1 op) v (held op.id [] regs) {} (v.on 8) ∧
          (plain →
            (path ≠ 1 → (s.useBanks units).LoadEffect r.1 v.core order scope
                (fun k => (loc 0).scratch = false ∧ (loc 0).key ≤ k ∧ k < (loc 0).key + n) (isAcquire order) ∧
              r.2 = (List.range n).map (s.loaded v.core order scope (loc 0))) ∧
            (path = 1 → r.2 = (List.range n).map (fun i => (Tab.find? (Tab.get [] s.constK v.core) ((loc 0).key + i)).getD
                (s.below (dieOfCore v.core) ((loc 0).key + i))) ∧
              r.1 = { s.useBanks units with far := r.1.far, constK := r.1.constK } ∧
              (∀ c, c ≠ v.core → Tab.get [] r.1.constK c = Tab.get [] s.constK c) ∧
              ∀ c k, r.1.look c k = s.look c k))))

/-- spec/07 R93, R97, R99, R102, R105, R112, spec/15 R249, R250, R252, R254, R255, R262, R263: ST, STS and SST whose accesses
pass every check wait for their scratchpad banks, and then complete: each place is written in ascending lane order as its
order and scope say, and ST rises by one. The bytes of each lane are the low bytes of its registers, and of lanes that
overlap the highest one's stay. A weak store, and one at team scope, leaves them dirty in L1, or at home under .NOL1; a
strong one at another scope sends them home; STS writes scratchpad; a release writes the core's dirty bytes back first.
No other byte reads otherwise to the core. The model's own readings in it: log 5, log 15. -/
def Obligations.Stores : Prop :=
  ∀ (s : State) (v : View) (loc : Nat → Loc), v.warp.st < 1023 →
    let leaves := fun (i : Instr) (order scope n : Nat) (alloc uniform : Bool) (lanes : List Nat) (reg : Nat → Nat → Word) =>
      let locs := lanes.map fun l => (l, loc l)
      let units := scrUnits locs n
      let u := (s.useBanks units).settleAtoms v.team.uid v.warp.num
      let data := fun l => bytesOfWords n ((List.range (regsOf n)).map (reg l))
      let r := locs.foldl (fun (a : State × List (Nat × Byte × Option L1Byte)) x =>
        let (w, o) := a.1.storeLane v scope order x.2 (data x.1) alloc
        (w, a.2 ++ o)) (u, [])
      let op : MemOp := {
        id := r.1.nextId, x := v.sel, mask := v.split.mask, core := v.core, isLoad := false, uniform := uniform
        stored := r.2, lines := u.storeLines v.core scope order alloc locs }
      let wrote := fun scr key k b => ∃ l ∈ lanes, ∃ j, j < n ∧ loc l = ⟨scr, key⟩ ∧ k = key + j ∧
        b = (reg l (j / 4)).extractLsb' (8 * (j % 4)) 8 ∧
        ∀ m ∈ lanes, l < m → ¬((loc m).scratch = scr ∧ (loc m).key ≤ k ∧ k < (loc m).key + n)
      let outside := fun scr k => ∀ l ∈ lanes, ¬((loc l).scratch = scr ∧ (loc l).key ≤ k ∧ k < (loc l).key + n)
      (s.banksBusy units = true → exec i s = .next (s.stall v 10)) ∧
      (s.banksBusy units = false →
        State.GoesAs (order != 0) s i { r.1 with memOps := r.1.memOps ++ [op], nextId := r.1.nextId + 1 } v
          { v.warp with st := v.warp.st + 1 } {} (v.on 8) ∧
        (s.noAtoms v → s.unrecorded → s.memoryOk → (∀ l ∈ lanes, (loc l).key / 256 = ((loc l).key + n - 1) / 256) →
          (s.useBanks units).StoreEffect r.1 v.core v.team.uid order scope alloc wrote outside
            (isRelease order = true ∧ ∃ l ∈ lanes, (loc l).scratch = true ∨ 1 ≤ scope)))
    (∀ f : LM, ∀ e ∈ ([(.st f, false), (.sts f, true)] : List (Instr × Bool)), s.Issues v e.1 →
      let n := 2 ^ f.size.toNat
      let part := v.part f.g f.gn
      (part = [] → State.GoesAs (f.order != 0) s e.1 s v v.warp {} (v.on 8)) ∧
      (part ≠ [] → s.Reaches v n true false (part.map fun l => (l, LM.place f v e.2 l)) loc →
        leaves e.1 f.order.toNat f.scope.toNat n (f.hint != 1) false part fun l r => v.warp.v (f.vd.toNat + r) l)) ∧
    (∀ f : UE, s.Issues v (.sst f) →
      let n := 2 ^ (f.w1.extractLsb' 29 3).toNat
      let place := if f.sub.extractLsb' 0 2 = 2 then .scr ((v.s f.a.toNat).toNat + (f.w1.extractLsb' 0 20).toInt)
        else .glob (v.s64 f.a.toNat + (f.w1.extractLsb' 0 20).signExtend 64).toNat
      s.Reaches v n true false [(0, place)] loc →
        leaves (.sst f) (f.w1.extractLsb' 23 3).toNat (f.w1.extractLsb' 26 3).toNat n (f.w1.extractLsb' 20 3 != 1) true [0]
          fun _ r => v.s (f.d.toNat + r))

/-- spec/07 R99, R101, R105, R106, R112, R113: a release writes every dirty byte of its core back to the home; an acquire
drops every clean byte of L1, and at device scope every far-cache byte of the die; a strong load at device scope gives the
home's byte after the core's own dirty bytes of it have been written back, and a strong store changes the home. At team
scope a release and an acquire change nothing; at another scope an acquire keeps dirty bytes, and neither touches another
core's L1 or another die's far cache. A strong load gives each byte at the point of its scope. The model's own readings in
it: log 5. -/
def Obligations.VisibilityOfStrongAccesses : Prop :=
  ∀ (s : State) (core owner key n scope : Nat) (bs : List Byte), s.unrecorded → s.memoryOk →
    (1 ≤ scope → (∀ k, Memory.read (s.release core scope).mem k = s.newest core k) ∧
      ∀ k b, Tab.find? ((s.release core scope).l1Of core) k = some b → b.dirty = false) ∧
    (1 ≤ scope → ∀ k b, Tab.find? ((s.acquire core scope).l1Of core) k = some b → b.dirty = true) ∧
    (3 ≤ scope → s.farGenOf (dieOfCore core) + 1 ≤ 2 ^ 16 →
      (∀ k b, Tab.find? (s.farOf (dieOfCore core)) k = some b → b.gen ≤ s.farGenOf (dieOfCore core)) →
      ∀ k, (s.acquire core scope).farHit? (dieOfCore core) k = none) ∧
    (s.acquire core scope).mem = s.mem ∧
    (3 ≤ scope → (s.strongLoad core scope key n).2 = (List.range n).map fun i => s.newest core (key + i)) ∧
    (1 ≤ scope → ∀ k, Memory.read (s.strongStore core owner scope key bs).mem k =
      if key ≤ k ∧ k < key + bs.length then bs.getD (k - key) 0 else Memory.read s.mem k) ∧
    (1 ≤ scope → ∀ i, i < bs.length → keyHome (key + i) = keyHome key →
      (s.strongStore core owner scope key bs).look core (key + i) = bs.getD i 0) ∧
    s.release core 0 = s ∧ s.acquire core 0 = s ∧
    (1 ≤ scope → let u := s.release core scope
      u = { s with l1 := u.l1, far := u.far, mem := u.mem, poison := u.poison } ∧
      (∀ c, c ≠ core → u.l1Of c = s.l1Of c) ∧ (∀ d, d ≠ dieOfCore core → u.farOf d = s.farOf d) ∧
      ∀ k, Tab.find? (u.l1Of core) k = (Tab.find? (s.l1Of core) k).map fun b => { b with dirty := false }) ∧
    (1 ≤ scope → let u := s.acquire core scope
      u = { s with l1 := u.l1, far := u.far, farGen := u.farGen } ∧ (∀ c, c ≠ core → u.l1Of c = s.l1Of c) ∧
      (∀ d, d ≠ dieOfCore core ∨ scope ≤ 2 → u.farOf d = s.farOf d ∧ u.farGenOf d = s.farGenOf d) ∧
      ∀ k b, Tab.find? (s.l1Of core) k = some b → b.dirty = true → Tab.find? (u.l1Of core) k = some b) ∧
    (s.diagMode = false → ∀ alloc, (s.strongLoad core scope key n alloc).2 =
        (List.range n).map (fun i => s.strongByte core scope (key + i)) ∧
      s.LoadEffect (s.strongLoad core scope key n alloc).1 core 1 scope (fun k => key ≤ k ∧ k < key + n) false)

/-- spec/07 R97, spec/15 R252, R253, R258 to R263: ATOM, RED and SATOM that pass the checks wait for their scratchpad banks,
and then set the flags that their operands decide, or take the trap of those flags; they commit the gang, and each lane's
operation is then on its way to its place, in ascending lane order, memory being as before. A result holds its registers and
raises LD; no result raises ST. The model's own readings in it: log 15, log 67. -/
def Obligations.AtomicsIssue : Prop :=
  ∀ (s : State) (v : View) (loc : Nat → Loc), s.noAtoms v →
    let sent := fun (i : Instr) (n : Nat) (ret uniform : Bool) (lanes : List Nat) (at' : Nat → AtomReq) (flags : Nat → Word)
        (vs ss : List Nat) =>
      let units := scrUnits (lanes.map fun l => (l, loc l)) n
      let op : MemOp := {
        id := s.nextId, x := v.sel, mask := v.split.mask, core := v.core, isLoad := ret, uniform := uniform
        atoms := lanes.map at', dest := if uniform then v.split.mask else 0, fctl := v.team.fctl }
      let u := { (s.useBanks units).modGang v.team.gang (fun g => { g with drain := true }) with
        memOps := s.memOps ++ [op], nextId := s.nextId + 1 }
      let w := if ret then { v.warp with ld := v.warp.ld + 1, holds := v.warp.holds ++ [⟨s.nextId, vs, ss, false, 2⟩] }
        else { v.warp with st := v.warp.st + 1 }
      (s.banksBusy units = true → exec i s = .next (s.stall v 10)) ∧
      (s.banksBusy units = false → ∃ all, FlagsOf all (· ∈ lanes) flags ∧
        (trapOf v.team.fctl all = none → s.GoesSync i u v w { flags := all } (v.on 8)) ∧
        (∀ t, trapOf v.team.fctl all = some t → ∃ l, exec i s = .next (s.takeFault v { t with lane := l } v.pc) ∧
          (l ∈ lanes ∨ uniform = true ∧ l = 0)))
    let onDevice := fun (place : Place) (scope : Nat) => match place with
      | .glob va => 2 ≤ scope ∨ s.onDevice v va = true
      | .scr _ => True
    (∀ f : LM, ∀ e ∈ ([(.atom f, true), (.red f, false)] : List (Instr × Bool)), s.Issues v e.1 →
      let n := 2 ^ f.size.toNat
      let part := v.part f.g f.gn
      let oc : BitVec 7 := f.off.extractLsb' 12 7
      let place := fun l => LM.atomPlace f v l
      let reg := fun l => (List.range (atomRegs oc f.size)).map fun r => v.warp.v (f.vd.toNat + r) l
      let xy := fun l => atomOperands oc n (f.off.extractLsb' 0 10).toInt (reg l)
      (part = [] → s.GoesSync e.1 s v v.warp {} (v.on 8)) ∧
      (part ≠ [] → (if e.2 then v.warp.ld else v.warp.st) < 1023 → s.Reaches v n true true (part.map fun l => (l, place l)) loc →
        (∀ l ∈ part, onDevice (place l) f.scope.toNat) →
        sent e.1 n e.2 false part (fun l => {
            scratch := (loc l).scratch, key := (loc l).key, bytes := n, oc := oc
            x := BitVec.ofNat 128 (xy l).1, y := BitVec.ofNat 128 (xy l).2, order := f.order, scope := f.scope, lane := l
            vd := f.vd.toNat, ret := e.2 })
          (fun l => atomOperandFlags oc (f.off.extractLsb' 0 10).toInt (v.vec f.vd l).toNat)
          (if e.2 then (List.range (n / 4)).map (f.vd.toNat + ·) else []) [])) ∧
    (∀ f : UE, s.Issues v (.satom f) →
      let n := 2 ^ (f.w1.extractLsb' 29 3).toNat
      let oc : BitVec 7 := f.w1.extractLsb' 12 7
      let ret := !f.sub.getLsbD 0
      let off : Int := if oc = 0x19 then 0 else (f.w1.extractLsb' 0 12).toInt
      let place := if f.w1.getLsbD 19 then .scr ((v.s f.a.toNat).toNat + off)
        else .glob (v.s64 f.a.toNat + BitVec.ofInt 64 off).toNat
      let words := fun r => (List.range (max 1 (n / 4))).map fun i => v.s (r + i)
      let xy := atomOperands oc n (f.w1.extractLsb' 0 10).toInt
        (if oc = 0x09 then words f.d.toNat ++ words f.b.toNat else words f.d.toNat)
      (if ret then v.warp.ld else v.warp.st) < 1023 → s.Reaches v n true true [(0, place)] loc →
      onDevice place (f.w1.extractLsb' 26 3).toNat →
      sent (.satom f) n ret true [0] (fun _ => {
          scratch := (loc 0).scratch, key := (loc 0).key, bytes := n, oc := oc
          x := BitVec.ofNat 128 xy.1, y := BitVec.ofNat 128 xy.2, order := f.w1.extractLsb' 23 3, scope := f.w1.extractLsb' 26 3
          lane := 0, vd := f.d.toNat, ret := ret })
        (fun _ => atomOperandFlags oc (f.w1.extractLsb' 0 10).toInt (v.s f.d.toNat).toNat)
        [] (if ret then (List.range (n / 4)).map (f.d.toNat + ·) else []))

/-- spec/07 R103, R112, R113, R120, R121, R123 to R125, spec/15 R259, R260: ATOMIC_AT_MEMORY executes the next lane's atomic
of an operation as one step at its place: in scratchpad; at team scope in the core's L1, where its bytes lie dirty; at
cluster scope on what lies below L1; from die scope on at the home. The bytes become what the operation makes of them, and
the old bits are the result. No other byte changes, but that a release first writes the core's dirty bytes back; no other
byte of L1 changes, but that a release leaves them clean and an acquire drops the clean ones. The model's own readings in
it: log 15, log 10. -/
def Obligations.AtomicOperations : Prop :=
  (∀ (w : Nat) (m x y : Nat), w = 32 ∨ w = 64 → m < 2 ^ w → x < 2 ^ w → y < 2 ^ w →
    let f := fun (oc : BitVec 7) => atomEval oc (w / 8) m x y
    let M := BitVec.ofNat w m
    let X := BitVec.ofNat w x
    f 0x00 = (M + X).toNat ∧ f 0x01 = (if M.toInt ≤ X.toInt then M else X).toNat ∧ f 0x02 = (if M.toInt ≤ X.toInt then X else M).toNat ∧
    f 0x03 = min m x ∧ f 0x04 = max m x ∧ f 0x05 = (M &&& X).toNat ∧ f 0x06 = (M ||| X).toNat ∧ f 0x07 = (M ^^^ X).toNat ∧
    f 0x08 = x ∧ f 0x09 = (if m = x then y else m) ∧ f 0x0A = (if m ≥ x then 0 else m + 1)) ∧
  (∀ m x y : Nat, m < 2 ^ 32 → x < 2 ^ 32 →
    let nan := fun z => (fp32.decode z).isNan
    let half := fun (fmt : Fmt) i => (fmt.opAdd {} (bitsOf m (16 * i) 16) (bitsOf x (16 * i) 16)).1 % 2 ^ 16
    atomEval 0x10 4 m x y = (fp32.opAdd {} m x).1 ∧
    (∀ e ∈ ([(0x11, false), (0x12, true)] : List (BitVec 7 × Bool)), atomEval e.1 4 m x y =
      if nan x then m else if nan m then x else (fp32.opMinMax e.2 m x).1) ∧
    atomEval 0x13 4 m x y = half fp16 0 + 2 ^ 16 * half fp16 1 ∧ atomEval 0x14 4 m x y = half bf16 0 + 2 ^ 16 * half bf16 1) ∧
  (∀ m x y : Nat, atomEval 0x19 16 m x y = (m + x) % 2 ^ 128) ∧
  (∀ e c x y : Nat, c < 2 ^ 32 →
    let exact := (fAdd 0 (fp32.decode c) (fp32.decode x)).1
    let sum := (fp32.finish 0 false exact).1
    let rest := (fAdd 0 exact (fNeg (fp32.decode sum))).1
    atomEval 0x18 8 (c + 2 ^ 32 * e) x y % 2 ^ 32 = sum % 2 ^ 32 ∧
    ((∃ d, fp32.decode sum = .num d) → (∃ d, exact = .num d) → sum < 2 ^ 32 →
      atomEval 0x18 8 (c + 2 ^ 32 * e) x y / 2 ^ 32 = (fp32.finish 0 false (fAdd 0 (fp32.decode e) rest).1).1)) ∧
  ∀ (s : State) (id : Nat) (m : MemOp) (r : AtomReq) (later : List AtomReq), s.unrecorded → s.memoryOk →
    s.memOps.find? (·.id == id) = some m → m.atoms = r :: later → 0 < r.bytes → s.diagMode = false →
    keyHome (r.key + r.bytes - 1) = keyHome r.key →
    let scope := r.scope.toNat
    let bytes := fun (read : Nat → Byte) => natOfBytes ((List.range r.bytes).map fun i => read (r.key + i))
    let old := bytes fun k =>
      if r.scratch then Memory.read s.scratch k else s.strongByte m.core (if scope < 2 then scope else 3) k
    let new := bytesOfNat r.bytes (atomEval r.oc r.bytes old r.x.toNat r.y.toNat)
    let inside := fun k => r.scratch = false ∧ r.key ≤ k ∧ k < r.key + r.bytes
    let releases := isRelease r.order.toNat = true ∧ 1 ≤ scope
    let acquires := isAcquire r.order.toNat = true ∧ 1 ≤ scope
    ∃ t m', exec (.atomicAtMemory id) s = .next t ∧
      t = { s with
        l1 := t.l1, far := t.far, farGen := t.farGen, mem := t.mem, poison := t.poison, scratch := t.scratch
        memOps := modFirst (·.id == id) (fun _ => m') s.memOps } ∧
      (∀ c, c ≠ m.core → t.l1Of c = s.l1Of c) ∧
      (∀ d, d ≠ dieOfCore m.core → t.farOf d = s.farOf d ∧ t.farGenOf d = s.farGenOf d) ∧
      (∀ k, Memory.read t.scratch k =
        if r.scratch = true ∧ r.key ≤ k ∧ k < r.key + r.bytes then new.getD (k - r.key) 0 else Memory.read s.scratch k) ∧
      (∀ k, inside k → scope = 0 →
        Tab.find? (t.l1Of m.core) k = some ⟨new.getD (k - r.key) 0, true, m.x.team⟩ ∧ Memory.read t.mem k = Memory.read s.mem k) ∧
      (∀ k, inside k → 1 ≤ scope → Memory.read t.mem k = new.getD (k - r.key) 0 ∧ Tab.find? (t.l1Of m.core) k = none ∧
        (¬acquires ∨ scope ≤ 2 → t.look m.core k = new.getD (k - r.key) 0)) ∧
      (∀ k, ¬inside k → Memory.read t.mem k = (if releases then s.newest m.core k else Memory.read s.mem k) ∧
        if r.scratch = true ∨ 1 ≤ scope then
          let left := (Tab.find? (s.l1Of m.core) k).map fun b => if releases then { b with dirty := false } else b
          Tab.find? (t.l1Of m.core) k = if acquires then left.filter (·.dirty) else left
        else t.look m.core k = s.look m.core k ∧
          ∀ b, Tab.find? (s.l1Of m.core) k = some b → Tab.find? (t.l1Of m.core) k = some b) ∧
      m'.id = m.id ∧ m'.atoms = later ∧
        (r.ret = false → m'.vwrites = m.vwrites ∧ m'.swrites = m.swrites) ∧
        (r.ret = true → ∀ j, j < r.bytes / 4 → r.bytes % 4 = 0 → let x := BitVec.ofNat 32 (old / 2 ^ (32 * j))
          if m.uniform then (r.vd + j, x) ∈ m'.swrites else (r.vd + j, r.lane, x) ∈ m'.vwrites)

/-- spec/07 R94, R112, R113, spec/13 R229, R236, spec/15 R257: PREF never changes what any core reads; FENCE writes the
core's dirty bytes back for a release and drops its clean bytes for an acquire; WAIT goes on when all, or any, of the
counters it names are at their limits, else its split waits with the least stall reason of those that are not. The
model's own readings in it: log 5. -/
def Obligations.PrefetchFenceAndWait : Prop :=
  ∀ (s : State) (v : View),
    (∀ f, s.Issues v (.pref f) → ∃ u, u = { s with l1 := u.l1, far := u.far } ∧
      (∀ c, c ≠ v.core → u.l1Of c = s.l1Of c) ∧ (s.diagMode = false → ∀ c k, u.look c k = s.look c k) ∧
      s.Goes (.pref f) u v v.warp {} (v.on 8)) ∧
    (∀ f : UR, s.Issues v (.fence f) →
      let scope := (f.a.extractLsb' 0 3).toNat
      let order := (f.b.extractLsb' 0 3).toNat
      (v.qGuard f.q f.n = false → s.GoesSync (.fence f) s v v.warp {} (v.on 4)) ∧
      let settled := s.settleAtoms v.team.uid v.warp.num
      let released := if order ∈ [3, 4, 5] then settled.release v.core scope else settled
      let u := if order ∈ [2, 4, 5] then released.acquire v.core scope else released
      (v.qGuard f.q f.n = true → s.GoesSync (.fence f) u v v.warp {} (v.on 4)) ∧
      (s.noAtoms v → s.unrecorded → s.memoryOk → settled = s ∧ (scope = 0 → u = s) ∧
        (1 ≤ scope →
          u = { s with l1 := u.l1, far := u.far, farGen := u.farGen, mem := u.mem, poison := u.poison } ∧
          (∀ c, c ≠ v.core → u.l1Of c = s.l1Of c) ∧
          (∀ d, d ≠ dieOfCore v.core → u.farOf d = s.farOf d ∧ u.farGenOf d = s.farGenOf d) ∧
          (order ∈ [3, 4, 5] → ∀ k, Memory.read u.mem k = s.newest v.core k) ∧
          (order ∉ [3, 4, 5] → u.mem = s.mem ∧ u.poison = s.poison ∧
            ∀ k b, Tab.find? (s.l1Of v.core) k = some b → b.dirty = true → Tab.find? (u.l1Of v.core) k = some b) ∧
          (order ∈ [3, 4, 5] → order ∉ [2, 4, 5] → ∀ k,
            Tab.find? (u.l1Of v.core) k = (Tab.find? (s.l1Of v.core) k).map fun b => { b with dirty := false }) ∧
          (order ∈ [2, 4, 5] → (∀ k b, Tab.find? (u.l1Of v.core) k = some b → b.dirty = true) ∧
            (scope ≤ 2 → u.farGen = s.farGen))))) ∧
    (∀ f : UW, s.Issues v (.wait f) →
      let all : List (Nat × Nat × Nat) :=
        [(v.warp.ld, f.ld.toNat, 2), (v.warp.st, f.st.toNat, 3), (v.warp.cp, f.cp.toNat, 4), (v.warp.batches, f.mb.toNat, 5)]
      let named := all.filter fun c => c.2.1 != 31
      let met := fun (c : Nat × Nat × Nat) => decide (c.1 ≤ c.2.1)
      let goes := if f.mode = 0 then named.all met else named.isEmpty || named.any met
      (goes = true → s.GoesSync (.wait f) s v v.warp {} (v.on 4)) ∧
      (goes = false → ∃ r, (∃ c ∈ named, met c = false ∧ c.2.2 = r) ∧ (∀ c ∈ named, met c = false → r ≤ c.2.2) ∧
        exec (.wait f) s = .next (s.stall v r)))

/-- spec/13 R230, R231: WAITC reads its conditions on barriers, pipes, tokens and, by acquire loads at device scope and no
sooner than 16 clocks after the last ones, memory. When all or any of them hold before its time limit is over it retires
with qd true; when the limit is over it writes false or raises TIMEOUT with the conditions that hold; else it waits on. Its
time begins when it issues; one that retires acquires at device scope where it observes a landing. No byte of memory
changes but that what the core has itself written of the bytes read is there. The model's own readings in it: log 47. -/
def Obligations.WaitForConditions : Prop :=
  ∀ (s : State) (v : View) (f : UE) (loc : BitVec 8 → Loc), s.Issues v (.waitc f) → s.viewOf? v.sel = some v →
    s.noAtoms v → s.unrecorded → s.memoryOk → s.poison = [] →
    let r := v.split.waitc.getD ⟨f, s.tick, 0, []⟩
    r.f = f →
    let codes := waitcCodes f.w1
    let kind := fun (c : BitVec 8) => (c.extractLsb' 5 3).toNat
    let reg := fun (c : BitVec 8) => (c.extractLsb' 0 5).toNat
    let x := fun c => v.s (reg c)
    let bar := fun c => v.team.bars[((x c).extractLsb' 0 10).toNat]?
    let pipe := fun c => (s.gang? v.team.gang).bind fun g => g.pipes.find? (·.num == ((x c).extractLsb' 0 4).toNat)
    let token := fun c => s.tokens.find? fun t => t.val == x c && t.team == v.team.uid
    let mem := fun c => natOfBytes ((List.range 4).map fun i => s.newest v.core ((loc c).key + i))
    let b := (v.s f.b.toNat).toNat
    let limit := (v.s f.a.toNat).toNat
    let late := decide (limit ≠ 0xFFFFFFFF ∧ limit ≠ 0 ∧ r.start + limit < s.tick)
    let past := decide (limit ≠ 0xFFFFFFFF ∧ r.start + limit ≤ s.tick)
    let reads := !late && (r.seen.isEmpty || decide (r.last + 16 ≤ s.clock))
    let holds := fun i c => match kind c with
      | 0 => match token c with | some t => t.status.isSome | none => true
      | 1 => match bar c with | some b => b.phase != (x c).extractLsb' 16 16 | none => false
      | 2 => match pipe c with
        | some p => if (x c).getLsbD 4 then (p.slots.getD p.prod (.taken, none)).1 == .free
            else (p.slots.getD p.cons (.taken, none)).1 == .full
        | none => false
      | 3 => match token c with | some t => t.status.isSome | none => true
      | k => if reads then (match k with
          | 4 => mem c == b
          | 5 => mem c != b
          | 6 => decide (b ≤ mem c)
          | _ => decide (mem c < b)) else r.seen.getD i false
    (reads = true → ∀ c ∈ codes, 4 ≤ kind c →
      s.Reaches v 4 false true [(0, .glob (v.s64 (reg c)).toNat)] fun _ => loc c) →
    (∀ c ∈ codes, (kind c = 1 → ∃ b, bar c = some b ∧ b.init = true) ∧ (kind c = 2 → (pipe c).isSome)) →
    let hs := (codes.zip (List.range codes.length)).map fun y => holds y.2 y.1
    let used := (codes.zip hs).filter fun y => kind y.1 != 0
    let sat := if f.sub.getLsbD 0 then used.all (·.2) else used.any (·.2)
    let w := { v.warp with
      splits := modFirst (·.mask == v.split.mask) (fun sp => { sp with wait := v.split.wait, waitc := some r }) v.warp.splits }
    let v' : View := ⟨v.team.modWarp v.warp.num fun _ => w, w, { v.split with waitc := some r }⟩
    let landing := codes.any fun c => kind c == 3 && (token c).any fun t => t.acquires && t.status.isSome
    ∃ u, (s.setWarp v w).LoadEffect u v.core 2 3
        (fun k => reads = true ∧ ∃ c ∈ codes, 4 ≤ kind c ∧ (loc c).key ≤ k ∧ k < (loc c).key + 4) true ∧
      (reads = false ∨ (∀ c ∈ codes, kind c < 4) → u = s.setWarp v w) ∧
      let done := if landing then u.acquire v.core 3 else u
      let ends := fun (q : Bool) => s.GoesSync (.waitc f) done v' w (Writes.flag v.split.mask (f.d.extractLsb' 0 3).toNat q 0) (v.on 8)
      (sat = true → late = false → ends true) ∧
      ((sat = false ∨ late = true) → past = true → f.sub.getLsbD 1 = false → ends false) ∧
      ((sat = false ∨ late = true) → past = true → f.sub.getLsbD 1 = true → ∃ info : Word,
        exec (.waitc f) s = .next (s.takeFault v ⟨0x15, info, 0, 0⟩ v.pc) ∧
          ∀ i c, codes[i]? = some c → info.getLsbD i = (kind c != 0 && holds i c)) ∧
      (sat = false → past = false → exec (.waitc f) s = .next (u.waitOn v' ⟨f, r.start, if reads then s.clock else r.last, hs⟩))

/-- spec/13 R232 to R235: BARI makes a barrier of the live warps of a mask and keeps its phase; BARA and BARD arrive and go
on, BARA with the phase in sd; BARS arrives and waits; BARW goes on once the phase differs. The lowest case of misuse that
applies is the trap; a dead slice that had arrived does not keep BARI from it. The end of the clock completes a phase. -/
def Obligations.BarrierInstructions : Prop :=
  ∀ (s : State) (v : View) (i : Instr) (g : Bool) (a b : Word) (d : BitVec 6) (len : Nat), s.Issues v i → s.noAtoms v →
    let form := fun (ur : UR → Instr) (ui : UI → Instr) =>
      (∃ f, i = ur f ∧ g = v.qGuard f.q f.n ∧ a = v.s f.a.toNat ∧ b = v.s f.b.toNat ∧ d = f.d ∧ len = 4) ∨
      (∃ f, i = ui f ∧ g = v.qGuard f.q f.n ∧ a = v.s f.a.toNat ∧ b = f.imm ∧ d = f.d ∧ len = 8)
    let t := v.team
    let n := (b.extractLsb' 0 10).toNat
    let bar := t.bars.getD n {}
    let mine := bar.members.getLsbD v.warp.num
    let bit := BitVec.ofNat 32 (2 ^ v.warp.num)
    let put := fun (x : Barrier) => { t with bars := modNth (fun _ => x) n t.bars }
    let with' := fun (x : Barrier) => s.modTeam t.uid fun t => { t with bars := modNth (fun _ => x) n t.bars }
    let came := fun (leaves : Bool) => { bar with
      slices := Tab.upd 0 bar.slices v.warp.num (· ||| v.split.mask)
      byLeave := if leaves then bar.byLeave ||| bit else bar.byLeave
      byStay := if leaves then bar.byStay else bar.byStay ||| bit }
    let arrival := fun (leaves : Bool) => [(0, decide (t.bars.length ≤ n)), (1, !bar.init), (2, !mine),
      (3, Tab.get (0 : BitVec 8) bar.slices v.warp.num &&& v.split.mask != 0),
      (6, (if leaves then bar.byStay else bar.byLeave).getLsbD v.warp.num)]
    let checked := fun (cases : List (Nat × Bool)) (effect : Prop) =>
      (g = false → s.GoesSync i s v v.warp {} (v.on len)) ∧
      (g = true → (∀ c, cases.find? (·.2) = some c →
          exec i s = .next (s.takeFault v ⟨0x0E, BitVec.ofNat 32 (n + 1024 * c.1), 0, 0⟩ v.pc)) ∧
        ((∀ c ∈ cases, c.2 = false) → effect))
    let goesOn := fun (leaves : Bool) (wr : Writes) =>
      s.GoesSync i (with' (came leaves)) { v with team := put (came leaves) } v.warp wr (v.on len)
    (form .bari .bariImm →
      let live := fun k => t.warps.any fun w => w.num == k && !w.dead
      ∃ members : Word, (∀ k, k < 32 → members.getLsbD k = (a.getLsbD k && live k)) ∧
        checked [(0, decide (t.bars.length ≤ n)), (4, bar.slices.any fun e =>
              (t.warps.find? (·.num == e.1)).any fun w => e.2 &&& w.liveSlices != 0),
            (5, members == 0 || (List.range 32).any fun k => a.getLsbD k && decide (t.warps.length ≤ k))]
          (let x : Barrier := { init := true, members := members, phase := bar.phase }
           s.GoesSync i (with' x) { v with team := put x } v.warp {} (v.on len))) ∧
    (form .bara .baraImm → checked (arrival false)
      (goesOn false (Writes.uniform v.split.mask d.toNat (bar.phase.zeroExtend 32) 0))) ∧
    (form .bard .bardImm → checked (arrival true) (goesOn true {})) ∧
    (form .bars .barsImm → checked (arrival false) (exec i s = .next
      (((with' (came false)).waitWith v (.barrier n (v.pc + BitVec.ofNat 64 len) true)).chunkAfter v))) ∧
    (form .barw .barwImm → checked [(0, decide (t.bars.length ≤ n)), (1, !bar.init)]
      ((bar.phase ≠ a.truncate 16 → s.GoesSync i s v v.warp {} (v.on len)) ∧
       (bar.phase = a.truncate 16 → exec i s = .next
         ((s.waitWith v (.barrier n (v.pc + BitVec.ofNat 64 len) false)).chunkAfter v))))

/-- spec/03 R57, spec/13 R233, R234: a warp has arrived when all its live slices have; a phase completes when every member
with a live lane has arrived; then the phase number rises, the arrivals are cleared, those who left are members no more, and
every split that waits there retires to the address after its instruction. -/
def Obligations.BarrierPhases : Prop :=
  (∀ (b : Barrier) (warps : List Warp), b.init = true →
    let r := b.update warps
    let alive := fun k => warps.any fun w => w.num == k && !w.dead
    let member := fun k => b.members.getLsbD k && alive k
    let came := fun k => b.arrived.getLsbD k ||
      (Tab.get (0 : BitVec 8) b.slices k != 0 && (warps.find? (·.num == k)).any fun w =>
        w.liveSlices &&& Tab.get (0 : BitVec 8) b.slices k == w.liveSlices)
    (r.2 = true ↔ (∃ k, k < 32 ∧ member k = true) ∧ ∀ k, k < 32 → member k = true → came k = true) ∧
    (r.2 = true → r.1.init = true ∧ r.1.phase = b.phase + 1 ∧ r.1.arrived = 0 ∧ r.1.slices = [] ∧ r.1.byLeave = 0 ∧
      r.1.byStay = 0 ∧ ∀ k, k < 32 → b.arrived = 0 → b.leaving = 0 → r.1.members.getLsbD k = (member k && !b.byLeave.getLsbD k)) ∧
    (r.2 = false → r.1.phase = b.phase ∧ r.1.slices = b.slices ∧ ∀ k, k < 32 → r.1.members.getLsbD k = member k)) ∧
  ∀ (s : State) (uid n : Nat) (t : Team) (b : Barrier), s.team? uid = some t → t.bars[n]? = some b →
    let b' := (b.update t.warps).1
    let put := fun (t : Team) => { t with bars := modNth (fun _ => b') n t.bars }
    ((b.update t.warps).2 = false ∨ t.waitingAt n = [] → s.updateBarrier uid n = s.modTeam uid put) ∧
    ((b.update t.warps).2 = true →
      State.RetiresEach uid (s.modTeam uid put) (t.waitingAt n) (s.updateBarrier uid n))

/-- spec/07 R115, R117, R119, spec/15 R264 to R268: CPY, CPYG and CPYX, their checks in order, their waits and what
goes to the engine; and COPY_COMPLETE of a copy between rows of scratchpad, rotated or not, and of a transposing one: every
byte comes to its place, no other byte changes, the locks go, the token completes and CP falls. A copy of another kind does
so row by row: a row of global memory is read at home after the core's own dirty bytes, an index of all ones gives zero
bytes, and a row written leaves the core's L1. The model's own readings in it: log 4, log 6, log 12, log 48. -/
def Obligations.CopiesAndTheirCompletion : Prop :=
  (∀ (s : State) (v : View) (f : UE),
    let dir := (f.sub.extractLsb' 0 2).toNat
    let srcScr := decide (dir = 1 ∨ dir = 3)
    let dstScr := decide (dir = 0 ∨ dir = 3)
    let rows := (f.w1.extractLsb' 20 12).toNat + 1
    let bytes := 16 * ((f.w1.extractLsb' 4 12).toNat + 1)
    (s.Issues v (.cpy f) → s.Copies v (.cpy f) f (.cpy srcScr dstScr rows bytes) srcScr dstScr false (f.w1.extractLsb' 16 4).toNat) ∧
    (s.Issues v (.cpyg f) → s.Copies v (.cpyg f) f (.cpyg rows bytes) false true true (f.w1.extractLsb' 16 4).toNat) ∧
    (s.Issues v (.cpyx f) → s.Copies v (.cpyx f) f
      (.cpyx srcScr dstScr ((f.w1.extractLsb' 24 8).toNat + 1) ((f.w1.extractLsb' 16 8).toNat + 1) (2 ^ (f.sub.extractLsb' 2 2).toNat))
      srcScr dstScr false (f.w1.extractLsb' 12 4).toNat)) ∧
  (∀ (s : State) (c : CopyOp), s.copies.find? (·.id == c.id) = some c → c.dead = false → c.waitFor = none →
    c.failed = none → c.staging = none →
    let key := fun at' => scrKey (clusterOfCore c.core) at'
    let src := fun i j => key (bankAddr c.src c.spitch c.rot i j)
    let dst := fun i j => key (bankAddr c.dst c.dpitch c.rot i j)
    let ends := fun (moved : State → Prop) => ∃ t, exec (.copyComplete c.id) s = .next t ∧
      t = { s with
        scratch := t.scratch, copies := s.copies.filter (·.id != c.id), rlocks := s.rlocks.filter (·.op != c.id)
        tokens := t.tokens, teams := t.teams } ∧
      moved t ∧
      (∀ tok, s.tokens.find? (fun x => x.val == c.token && x.team == c.x.team) = some tok →
        t.tokens.find? (fun x => x.val == c.token && x.team == c.x.team) = some { tok with status := some 0 }) ∧
      (∀ b w, s.team? c.x.team = some b → b.warp? c.x.warp = some w →
        ((t.team? c.x.team).bind (·.warp? c.x.warp)) = some { w with cp := w.cp - 1 })
    let apart := fun rows n => ∀ i j p q, i < rows → j < n → p < rows → q < n → dst i j = dst p q → i = p ∧ j = q
    (∀ rows n, c.kind = .cpy true true rows n → apart rows n →
      (∀ i j p q, i < rows → j < n → p < rows → q < n → src i j ≠ dst p q) →
      ends fun t => (∀ i j, i < rows → j < n → Memory.read t.scratch (dst i j) = Memory.read s.scratch (src i j)) ∧
        ∀ k, (∀ i j, i < rows → j < n → k ≠ dst i j) → Memory.read t.scratch k = Memory.read s.scratch k) ∧
    (∀ r n e, c.kind = .cpyx true true r n e → apart n (r * e) →
      ends fun t => (∀ i y m, i < r → y < n → m < e →
          Memory.read t.scratch (dst y (i * e + m)) = Memory.read s.scratch (src i (y * e + m))) ∧
        ∀ k, (∀ y j, y < n → j < r * e → k ≠ dst y j) → Memory.read t.scratch k = Memory.read s.scratch k)) ∧
  (∀ (s : State) (c : CopyOp), s.copies.find? (·.id == c.id) = some c → c.dead = false → c.waitFor = none →
    c.failed = none → c.staging = none →
    (∀ (st mid : Nat → State) (bs : Nat → List Byte), (∀ a b r k e, c.kind ≠ .cpyx a b r k e) → st 0 = s →
      (∀ i, i < c.target.rows → (st i).copyRow c i = .ok (mid i, bs i) ∧ (mid i).copyPut c i (bs i) = .ok (st (i + 1))) →
      exec (.copyComplete c.id) s = .next ((st c.target.rows).endCopy c 0)) ∧
    (∀ (st put : Nat → State) (bs : Nat → List Byte) a b r k e, c.kind = .cpyx a b r k e → st 0 = s → put 0 = st r →
      (∀ i, i < r → (st i).copyRow c i = .ok (st (i + 1), bs i)) →
      (∀ y, y < k → (put y).copyPut c y ((List.range r).flatMap fun i => ((bs i).drop (y * e)).take e) = .ok (put (y + 1))) →
      exec (.copyComplete c.id) s = .next ((put k).endCopy c 0))) ∧
  ∀ (s : State) (c : CopyOp) (i : Nat), c.staging = none →
    let a := c.source
    let b := c.target
    let place := fun (d : Side) j => scrKey (clusterOfCore c.core) (bankAddr d.base d.pitch d.rot i j)
    let index := natOfBytes (s.scrBytes (clusterOfCore c.core) (c.ix + 4 * i) 4)
    let row := if c.gathers then index else i
    let va := (a.base + row * a.pitch) % 2 ^ 64
    (c.gathers = false → a.scratch = true →
      s.copyRow c i = .ok (s, (List.range a.len).map fun j => Memory.read s.scratch (place a j))) ∧
    (c.gathers = true → index = 0xFFFFFFFF → s.copyRow c i = .ok (s, List.replicate a.len 0)) ∧
    (∀ key, (c.gathers = true ∧ index ≠ 0xFFFFFFFF ∨ c.gathers = false ∧ a.scratch = false) → va % 65536 + a.len ≤ 65536 →
      s.xlateNow c.ctx va .load = .ok key → s.poisoned key a.len = false → s.unrecorded → s.memoryOk →
      s.copyRow c i = .ok (s.flushRange c.core key a.len, (List.range a.len).map fun j => s.newest c.core (key + j))) ∧
    (∀ bs : List Byte, b.scratch = true → (∀ j k, j < bs.length → k < bs.length → place b j = place b k → j = k) →
      ∃ u, s.copyPut c i bs = .ok u ∧ u = { s with scratch := u.scratch } ∧
        (∀ j, j < bs.length → Memory.read u.scratch (place b j) = bs.getD j 0) ∧
        ∀ k, (∀ j, j < bs.length → k ≠ place b j) → Memory.read u.scratch k = Memory.read s.scratch k) ∧
    (∀ (bs : List Byte) key, b.scratch = false → (b.base + i * b.pitch) % 2 ^ 64 % 65536 + bs.length ≤ 65536 →
      s.xlateNow c.ctx ((b.base + i * b.pitch) % 2 ^ 64) .store = .ok key →
      ∃ u, s.copyPut c i bs = .ok u ∧ u = { s with l1 := u.l1, far := u.far, mem := u.mem, poison := u.poison } ∧
        s.Stored u key bs ∧ (∀ d, d ≠ c.core → u.l1Of d = s.l1Of d) ∧
        ∀ k, Tab.find? (u.l1Of c.core) k = if key ≤ k ∧ k < key + bs.length then none else Tab.find? (s.l1Of c.core) k)

/-- spec/17 R269, R271 to R282, R285 to R296: what each matrix instruction hands to the unit; MBATCH closes the open batch
under its number and frees the slots named by MCLR.FREE; MESC sets or clears the warp's descriptors. The model's own
readings in it: log 37. -/
def Obligations.MatrixInstructionsIssue : Prop :=
  ∀ (s : State) (v : View) (f : UE),
    let fmt := fun n => (f.w1.extractLsb' n 4 : BitVec 4)
    let shape : BitVec 2 := f.w1.extractLsb' 1 2
    let rows := shapeRows shape
    let cols := shapeCols shape
    let image := (f.w1.extractLsb' 8 8).toNat
    let row0 := 4 * f.sub.toNat
    let some' := 4 * ((f.w1.extractLsb' 6 2).toNat + 1)
    let regs := (List.range ((some' * cols * formatWidth (fmt 28) + 1023) / 1024)).map (image + ·)
    (s.Issues v (.mloop f) →
      let fa := fmt 28
      let fb := fmt 24
      let steps := (f.w1.extractLsb' 12 12).toNat + 1
      let sp := f.w1.getLsbD 6
      let k := stepK fa.toNat sp
      let ka := if sp then k / 2 else k
      let a := v.matOperand f.a (f.sub.getLsbD 0) rows (lineBytes fa.toNat ka) steps
      let b := v.matOperand f.b (f.sub.getLsbD 1) cols (lineBytes fb.toNat k) steps
      let m := v.s f.d.toNat
      s.Queues v (.mloop f) f
        (.mloop fa fb a.1 b.1 steps (if sp then some (m.toNat % 2 ^ 22) else none) v.warp.descA v.warp.descB)
        ([a.2, b.2] ++ (if sp then [offsetIn m (steps * rows * (k / 8))] else []) ++
          (descIn fa.toNat v.warp.descA rows ka steps ++ descIn fb.toNat v.warp.descB cols k steps)) [] [] true) ∧
    (s.Issues v (.mxform f) →
      let fx := fmt 28
      let code := (f.w1.extractLsb' 22 2).toNat
      let k := stepK fx.toNat false
      let x := v.matOperand f.a (f.sub.getLsbD 0) cols (lineBytes fx.toNat k) 1
      let n := v.s f.b.toNat
      s.Queues v (.mxform f) f (.mxform fx code x.1 (n.toNat % 2 ^ 22) v.warp.descB)
        ([x.2] ++ descIn fx.toNat v.warp.descB cols k 1 ++ (if code = 1 then [offsetIn n rows] else [])) [] [] true) ∧
    (s.Issues v (.mclr f) → s.Queues v (.mclr f) f (.mclr (f.sub.getLsbD 0)) [] [] [] (!f.sub.getLsbD 0)) ∧
    (s.Issues v (.manchor f) → s.Queues v (.manchor f) f (.manchor
      ((if f.sub.getLsbD 0 then (v.s f.a.toNat).extractLsb' 0 10 else f.w1.extractLsb' 22 10 : BitVec 10).toInt)) [] [] [] true) ∧
    (s.Issues v (.mloada f) → s.Queues v (.mloada f) f (.mloada (fmt 28) (f.w1.getLsbD 27) image row0 some')
      [{ vregs := regs }] [] [] true) ∧
    (s.Issues v (.mround f) → s.Queues v (.mround f) f (.mround (fmt 28) (f.w1.extractLsb' 25 3) (f.w1.getLsbD 24)
      (f.w1.extractLsb' 16 8).toInt image row0 some') [] regs [] false) ∧
    (s.Issues v (.mstat f) → s.Queues v (.mstat f) f (.mstat (f.sub.getLsbD 0) f.d.toNat) [] [] [f.d.toNat] false) ∧
    (s.Issues v (.mbatch f) →
      (1023 ≤ v.warp.mb → exec (.mbatch f) s = .next (s.stall v 5)) ∧
      (v.warp.mb < 1023 → ∃ w, s.Goes (.mbatch f) s v w
          (Writes.uniform v.split.mask f.d.toNat (v.warp.batchNo.zeroExtend 32) 0) (v.on 8) ∧
        (∀ n, w.slot n = if n ∈ v.warp.freeing then { v.warp.slot n with live := false } else v.warp.slot n) ∧
        (∃ m, v.warp.closed ++ [(v.warp.batchNo.toNat, v.warp.openOps)] = m ++ w.closed ∧ (∀ b ∈ m, b.2 = []) ∧
          (∀ b, w.closed.head? = some b → b.2 ≠ []) ∧
          w = { v.warp with
            slots := w.slots, freeing := [], openOps := [], closed := w.closed, mb := v.warp.mb + 1 - m.length
            batchNo := v.warp.batchNo + 1 }))) ∧
    (s.Issues v (.mesc f) → s.Goes (.mesc f) s v { v.warp with
      descA := if f.sub.getLsbD 0 then some (v.s f.a.toNat) else none
      descB := if f.sub.getLsbD 1 then some (v.s f.b.toNat) else none } {} (v.on 8))

/-- spec/05 R75 to R77, spec/17 R277 to R280, R287 to R296: finite contributions that stay within an accumulator's range add
up to N exactly, each truncated to units of 2^(A − 64), in whatever order they come; a contribution of NaN makes the class
NaN for good, infinities of both signs make it NaN with INV, and an element at its bound is pinned there. MATRIX_STEP runs
the next step of the first operation of a core: what each kind does to the elements, and the operation's end. The
model's own readings in it: log 17, log 18, log 19. -/
def Obligations.MatrixStepsAndAccumulators : Prop :=
  (∀ (anchor : Int) (t : AccSt) (ds : List Dy),
    let run := fun (ds : List Dy) => ds.foldl (fun t d => t.contribute anchor (.num d)) t
    let sum := fun (ds : List Dy) => (ds.map fun d => (unitsOf anchor d).1).sum
    (t.el.pinned = false → (∀ k, k ≤ ds.length → accMin ≤ t.n + sum (ds.take k) ∧ t.n + sum (ds.take k) ≤ accMax) →
      (run ds).n = t.n + sum ds ∧ (run ds).el = t.el ∧
      ((run ds).flags = t.flags ∨ (run ds).flags = t.flags ||| flagALIGN) ∧
      (∀ es, es.Perm ds → (∀ k, k ≤ es.length → accMin ≤ t.n + sum (es.take k) ∧ t.n + sum (es.take k) ≤ accMax) →
        run es = run ds)) ∧
    (t.el.pinned = true → run ds = t) ∧
    (∀ d, t.el.pinned = false → accMax < t.n + (unitsOf anchor d).1 →
      let r := t.contribute anchor (.num d)
      r.n = accMax ∧ r.el.pinned = true ∧ r.el.cls = t.el.cls ∧ r.flags.getLsbD 2 = true ∧ r.sats = t.sats + 1) ∧
    (∀ c, t.el.cls = .nan → (t.contribute anchor c).el.cls = .nan) ∧
    (∀ sig, (t.contribute anchor (.nan sig)).el.cls = .nan) ∧
    (t.el.cls = .finite → ∀ neg, (t.contribute anchor (.inf neg)).el.cls = (if neg then .negInf else .posInf)) ∧
    (t.el.cls = .posInf → t.el.posNote = true → t.el.negNote = false →
      let r := t.contribute anchor (.inf true)
      r.el.cls = .nan ∧ r.flags.getLsbD 0 = true)) ∧
  ∀ (s : State) (core : Nat) (op : MatOp) (w : Warp), s.matOps.find? (·.core == core) = some op →
    s.warpAt op.x.team op.x.warp = some w → fctlESCTRAP op.fctl = false → fctlTRAPNAN op.fctl = false →
    fctlTRAPINV op.fctl = false → fctlTRAPOVF op.fctl = false →
    let rows := shapeRows op.shape
    let cols := shapeCols op.shape
    let slots := (List.range (shapeSlots op.shape)).map (op.slot + ·)
    let el := fun (w : Warp) e => (⟨w.accN op.slot e, Tab.get {} (w.slot (op.slot + e / 1536)).elems (e % 1536), 0, 0⟩ : AccSt)
    let anchor := fun e => (w.slot (op.slot + e / 1536)).anchor
    let runs := fun (P : Warp → Prop) => ∃ t w', exec (.matrixStep core) s = .next t ∧ t.warpAt op.x.team op.x.warp = some w' ∧ P w'
    let ends := fun (P : Warp → Prop) => ∃ t w', exec (.matrixStep core) s = .next t ∧ t.mem = s.mem ∧ t.scratch = s.scratch ∧
      t.matOps = s.matOps.filter (fun m => m.id != op.id) ∧ t.rlocks = s.rlocks.filter (fun r => r.op != op.id) ∧
      t.warpAt op.x.team op.x.warp = some w' ∧ w'.holds = w.holds.filter (fun h => h.id != op.id) ∧
      w'.openOps = w.openOps.filter (· != op.id) ∧
      (∃ m, (w.closed.map fun b => (b.1, b.2.filter (· != op.id))) = m ++ w'.closed ∧ (∀ b ∈ m, b.2 = []) ∧
        (∀ b, w'.closed.head? = some b → b.2 ≠ []) ∧ w'.mb = w.mb - m.length) ∧ P w'
    let same := fun (w' : Warp) e => (el w' e).n = (el w e).n ∧ (el w' e).el = (el w e).el
    let gets := fun (w' : Warp) e (t : AccSt) => (el w' e).n = t.n ∧ (el w' e).el = t.el
    let product := fun (la lb : List FVal) e => (la.zip lb).foldl (fun t p => t.contribute (anchor e) (contribOf p.1 p.2)) (el w e)
    (∀ free, op.kind = .mclr free → ends fun w' =>
      (∀ n, w'.slot n = if n ∈ slots then { w.slot n with elems := [], sat := 0 } else w.slot n) ∧
      (∀ e, e < 1536 * slots.length → w'.accN op.slot e = 0) ∧
      ∀ r l, l < 32 → (r < w.vbound + 192 * op.slot ∨ w.vbound + 192 * (op.slot + slots.length) ≤ r) → w'.v r l = w.v r l) ∧
    (∀ a, op.kind = .manchor a → ends fun w' => (∀ n ∈ slots, (w'.slot n).anchor = a) ∧
      ∀ e, e < 1536 * slots.length →
        let d := a - anchor e
        let x := if 0 ≤ d then (el w e).n / (2 ^ d.toNat : Nat) else (el w e).n * (2 ^ (-d).toNat : Nat)
        ((el w e).el.pinned = true ∨ (el w e).el.cls ≠ .finite → same w' e) ∧
        ((el w e).el.pinned = false → (el w e).el.cls = .finite → accMin ≤ x → x ≤ accMax →
          (el w' e).n = x ∧ (el w' e).el = (el w e).el)) ∧
    (∀ f add va row0 n, op.kind = .mloada f add va row0 n → row0 + n ≤ rows → ends fun w' =>
      let width := formatWidth f
      let image := w.imageAt va ((n * cols * width + 1023) / 1024)
      let x := fun p => sourceVal f.toNat (bitsOf image (width * p) width)
      (∀ p, p < n * cols →
        (add = true → gets w' (row0 * cols + p)
          ((el w (row0 * cols + p)).contribute (anchor (row0 * cols + p)) (contribOf (.num ⟨false, 1, 0⟩) (x p)))) ∧
        (∀ d, add = false → x p = .num d → accMin ≤ (unitsOf (anchor (row0 * cols + p)) d).1 →
          (unitsOf (anchor (row0 * cols + p)) d).1 ≤ accMax →
          (el w' (row0 * cols + p)).n = (unitsOf (anchor (row0 * cols + p)) d).1 ∧ (el w' (row0 * cols + p)).el = {}) ∧
        (∀ z, add = false → x p = .nan z → (el w' (row0 * cols + p)).el.cls = .nan) ∧
        (∀ neg, add = false → x p = .inf neg → (el w' (row0 * cols + p)).el.cls = if neg then .negInf else .posInf)) ∧
      ∀ e, e < 1536 * slots.length → (e < row0 * cols ∨ (row0 + n) * cols ≤ e) → same w' e) ∧
    (∀ f rnd sat shift vd row0 n, op.kind = .mround f rnd sat shift vd row0 n → ends fun w' =>
      let width := formatWidth f
      let regs := (n * cols * width + 1023) / 1024
      (∀ i j, i < n → j < cols → bitsOf (w'.imageAt vd regs) (width * (i * cols + j)) width =
        ((roundRow f rnd (rndMode op.fctl rnd) (sat || fctlSATDEF op.fctl) ((List.range cols).map fun j =>
          w.roundValue op.slot ((row0 + i) * cols + j) shift)).getD j (0, 0)).1 % 2 ^ width) ∧
      ∀ r l, l < 32 → (r < vd ∨ vd + regs ≤ r) → w'.v r l = w.v r l) ∧
    (∀ nans sd, op.kind = .mstat nans sd → ends fun w' =>
      let x := if nans then (slots.flatMap fun n => (w.slot n).elems).countP fun e => e.2.cls == .nan
        else min ((slots.map fun n => (w.slot n).sat.toNat).sum) 0xFFFFFFFF
      w'.entries = w.entries ∧ w'.slots = w.slots ∧ ∀ k, k < 8 → ∀ r, (w'.sl k).s r =
        if op.dest.getLsbD k = true ∧ r = sd then BitVec.ofNat 32 x else (w.sl k).s r) ∧
    (∀ fa fb a b steps da db sa sb va vb ea eb, op.kind = .mloop fa fb a b steps none da db →
      let k := stepK fa.toNat false
      let xa := s.stepIn w core 0 fa.toNat a da rows k op.step
      let xb := s.stepIn w core 1 fb.toNat b db cols k op.step
      s.stepScales core op.step xa = .ok sa → s.stepScales core op.step xb = .ok sb →
      s.stepValues core op.step xa sa = (va, ea) → s.stepValues core op.step xb sb = (vb, eb) →
      va.length = rows → vb.length = cols →
      let done := fun (w' : Warp) => ∀ i j, i < rows → j < cols → gets w' (i * cols + j) (product (va.getD i []) (vb.getD j []) (i * cols + j))
      (op.step + 1 < steps → runs done) ∧ (steps ≤ op.step + 1 → ends done)) ∧
    (∀ fx code x ix db sb vb eb, op.kind = .mxform fx code x ix db →
      let k := stepK fx.toNat false
      let xb := s.stepIn w core 1 fx.toNat x db cols k 0
      s.stepScales core 0 xb = .ok sb → s.stepValues core 0 xb sb = (vb, eb) → vb.length = cols →
      let at' := fun i => (Memory.read s.scratch (scrKey (clusterOfCore core) ix + i)).toNat
      ends fun w' => ∀ i j, i < rows → j < cols →
        let col := vb.getD j []
        let picked := if code = 0 then (if i < k then [col.getD i (.num ⟨false, 0, 0⟩)] else [])
          else if code = 1 then (if at' i < k then [col.getD (at' i) (.num ⟨false, 0, 0⟩)] else []) else col
        gets w' (i * cols + j) (picked.foldl (fun t v =>
          t.contribute (anchor (i * cols + j)) (contribOf (.num ⟨false, 1, 0⟩) v)) (el w (i * cols + j))))

/-- spec/19 R300, R309, R311: TSPAWN commits, writes the core's dirty bytes back and copies 128 bytes to the spawn ring with
the host tail of its priority, or answers 1 when the ring is off or full; TNOTIFY commits, writes back, and lowers a counter
at the home, or sets QERR[8] at zero. A bad address or index is a fault before the commit. The model's own readings in
it: log 39. -/
def Obligations.SpawnAndNotify : Prop :=
  ∀ (s : State) (v : View) (f : UE), s.noAtoms v → s.unrecorded → s.memoryOk → s.poison = [] →
    let x := s.ctxOf v.ctx
    let drained := s.modGang v.team.gang fun g => { g with drain := true }
    let u := fun (t : State) (c : Ctx) => t = { drained with l1 := t.l1, far := t.far, mem := t.mem, ctxs := t.ctxs } ∧
      ∀ d, t.ctxOf d = if d = v.ctx then c else s.ctxOf d
    (s.Issues v (.tspawn f) →
      let addr := (v.s64 f.a.toNat).toNat
      let usable := (∃ n, 4 ≤ n ∧ n ≤ 16 ∧ x.spSize.toNat = 2 ^ n) ∧ (x.spTail - x.spHead).toNat < x.spSize.toNat
      let slot := (x.spBase.toNat + 128 * (x.spTail.toNat % x.spSize.toNat)) % 2 ^ 64
      let bytes := fun src => (List.range 128).map fun i => s.newest v.core (src + i)
      let prio := fun bs => natOfBytes (bs.take 4) / 2 ^ 30
      (addr % 128 ≠ 0 → exec (.tspawn f) s = .next (s.takeFault v ⟨0x03, v.s f.a.toNat, 0, 0⟩ v.pc)) ∧
      (addr % 128 = 0 → canonical addr = false → exec (.tspawn f) s =
        .next (s.takeFault v ⟨0x04, BitVec.ofNat 32 (2 ^ 29 + bitsOf addr 16 29), 0, 0⟩ v.pc)) ∧
      (addr % 128 = 0 → canonical addr = true → ¬usable → ∃ t, u t x ∧ (∀ k, Memory.read t.mem k = s.newest v.core k) ∧
        s.GoesSync (.tspawn f) t v v.warp (Writes.uniform v.split.mask f.d.toNat 1 0) (v.on 8)) ∧
      (∀ src dst, addr % 128 = 0 → canonical addr = true → usable → canonical slot = true →
        s.xlate v.core v.ctx addr .load = .ok src → s.xlate v.core v.ctx slot .store = .ok dst →
        ∃ t, u t { x with
            spTail := x.spTail + 1
            spMarks := x.spMarks ++ [[BitVec.ofNat 32 (prio (bytes src)), (x.queue (prio (bytes src))).tail]] } ∧
          (∀ k, Memory.read t.mem k = if dst ≤ k ∧ k < dst + 128 then s.newest v.core (src + (k - dst)) else s.newest v.core k) ∧
          s.GoesSync (.tspawn f) t v v.warp (Writes.uniform v.split.mask f.d.toNat 0 0) (v.on 8))) ∧
    (s.Issues v (.tnotify f) →
      let idx := v.s f.a.toNat
      let va := (x.depBase.toNat + 4 * idx.toNat) % 2 ^ 64
      let count := fun key => natOfBytes ((List.range 4).map fun i => s.newest v.core (key + i))
      (x.depSize.toNat ≤ idx.toNat → exec (.tnotify f) s = .next (s.takeFault v ⟨0x05, idx, 0, 0⟩ v.pc)) ∧
      (∀ key, idx.toNat < x.depSize.toNat → canonical va = true → s.xlate v.core v.ctx va .store = .ok key →
        (count key = 0 → ∃ t, u t { x with qerr := x.qerr ||| 0x100 } ∧ (∀ k, Memory.read t.mem k = s.newest v.core k) ∧
          s.GoesSync (.tnotify f) t v v.warp {} (v.on 8)) ∧
        (count key ≠ 0 → ∃ t, u t x ∧ (∀ k, Memory.read t.mem k =
            if key ≤ k ∧ k < key + 4 then (bytesOfNat 4 (count key - 1)).getD (k - key) 0 else s.newest v.core k) ∧
          s.GoesSync (.tnotify f) t v v.warp {} (v.on 8))))

/-- spec/19 R316, R317: PRSV takes the next free slot of a pipe and PGET, after an acquire at cluster scope, the next full
one, each with its offset in sd; under NW, or where none is there, they answer 0xFFFF_FFFF or wait. PPUT, after a release,
fills a slot that the team reserved, and commits a durable pipe's gang; PREL frees one that it took. PIPEMISUSE tells an
undeclared pipe, and a slot that the team does not hold. The acquire keeps the core's dirty bytes, and other cores' L1. -/
def Obligations.NamedPipes : Prop :=
  ∀ (s : State) (v : View) (f : UE), s.noAtoms v → s.unrecorded → s.memoryOk →
    let n := (f.w1.extractLsb' 0 4).toNat
    let p? := (s.gang? v.team.gang).bind fun g => g.pipes.find? (·.num == n)
    let at' := fun (p : Pipe) k => (p.slots.getD k (.taken, none)).1
    let put := fun (t : State) (p : Pipe) => t.modGang v.team.gang fun g => { g with pipes := modFirst (·.num == p.num) (fun _ => p) g.pipes }
    let set := fun (p : Pipe) (k : Nat) (st : PipeSt) => modNth (fun _ => (st, some v.team.num)) k p.slots
    let answer := fun (x : Word) => Writes.uniform v.split.mask f.d.toNat x 0
    let offset := fun (p : Pipe) k => BitVec.ofNat 32 (p.base + k * p.sbytes)
    let misuse := fun (i : Instr) c => exec i s = .next (s.takeFault v ⟨0x0F, BitVec.ofNat 32 (n + 16 * c), 0, 0⟩ v.pc)
    let holds := fun (p : Pipe) (st : PipeSt) k => k < p.slots.length ∧ offset p k = v.s f.a.toNat ∧ p.base + k * p.sbytes < 2 ^ 32 ∧
      p.slots.getD k (.free, none) = (st, some v.team.num)
    let first := fun (p : Pipe) st k => holds p st k ∧ ∀ j, j < k → ¬holds p st j
    (∀ i ∈ [Instr.prsv f, .pget f, .pput f, .prel f], s.Issues v i → p? = none → misuse i 0) ∧
    (∀ p, p? = some p → s.Issues v (.prsv f) →
      (at' p p.prod = .free → s.GoesSync (.prsv f)
        (put s { p with slots := set p p.prod .reserved, prod := (p.prod + 1) % p.slots.length }) v v.warp
        (answer (offset p p.prod)) (v.on 8)) ∧
      (at' p p.prod ≠ .free → f.sub.getLsbD 0 = true → s.GoesSync (.prsv f) s v v.warp (answer 0xFFFFFFFF) (v.on 8)) ∧
      (at' p p.prod ≠ .free → f.sub.getLsbD 0 = false → exec (.prsv f) s = .next ((s.stall v 8).chunkAfter v))) ∧
    (∀ p, p? = some p → s.Issues v (.pget f) →
      (at' p p.cons = .full → ∃ u, u = s.acquire v.core 1 ∧ u = { s with l1 := u.l1 } ∧ (∀ c, c ≠ v.core → u.l1Of c = s.l1Of c) ∧
        (∀ k, Tab.find? (u.l1Of v.core) k = (Tab.find? (s.l1Of v.core) k).filter (·.dirty)) ∧
        s.GoesSync (.pget f) (put u { p with slots := set p p.cons .taken, cons := (p.cons + 1) % p.slots.length }) v v.warp
          (answer (offset p p.cons)) (v.on 8)) ∧
      (at' p p.cons ≠ .full → f.sub.getLsbD 0 = true → s.GoesSync (.pget f) s v v.warp (answer 0xFFFFFFFF) (v.on 8)) ∧
      (at' p p.cons ≠ .full → f.sub.getLsbD 0 = false → exec (.pget f) s = .next ((s.stall v 8).chunkAfter v))) ∧
    (∀ p, p? = some p → s.Issues v (.pput f) →
      (∀ k, first p .reserved k → ∃ u, u = { (if p.durable then s.modGang v.team.gang (fun g => { g with drain := true }) else s) with
          l1 := u.l1, far := u.far, mem := u.mem, poison := u.poison } ∧ (∀ k, Memory.read u.mem k = s.newest v.core k) ∧
        s.GoesSync (.pput f) (put u { p with slots := set p k .full }) v v.warp {} (v.on 8)) ∧
      ((∀ k, ¬holds p .reserved k) → (∀ k, k < p.slots.length → p.base + k * p.sbytes < 2 ^ 32) → misuse (.pput f) 1)) ∧
    (∀ p, p? = some p → s.Issues v (.prel f) →
      (∀ k, first p .taken k → s.GoesSync (.prel f) (put s { p with slots := set p k .free }) v v.warp {} (v.on 8)) ∧
      ((∀ k, ¬holds p .taken k) → (∀ k, k < p.slots.length → p.base + k * p.sbytes < 2 ^ 32) → misuse (.prel f) 2))

/-- spec/29 R396, spec/03 R61, spec/09 R150, R151: taking a fault. A split whose team has a handler, and no slice of
which is in one, enters it: TRAPCODE, TRAPPC and TRAPINFO of its slices, their resume address, and the handler's address; from
GANGKILL or WATCHDOG on the team has DRAINB ticks to exit. Else the team is killed: it goes, with a record, and the other
teams of its gang hold GANGKILL. A word that is no
instruction takes the fault that decoding found, and an operand that names no register of the warp takes ILLREG,
but that the ILLOP of an implicit LOD outside pixel teams comes before it. The model's own readings in it: log 6. -/
def Obligations.TakingAFault : Prop :=
  ∀ (s : State) (v : View), s.view? = some v →
    (∀ (t : Trap) (pc : Addr), v.team.stepping = none →
      let x := s.takeFault v t pc
      (v.team.tbase ≠ 0xFFFFFFFF → v.inHandler = false →
        let sp := { v.split with
          pc := v.team.entry + (v.team.tbase &&& 0xFFFFFFFC).zeroExtend 64, wait := .none, waitc := none }
        x = { s with teams := x.teams } ∧ s.OnTeam x v.team.uid fun b b' => ∃ w,
          b' = { b with
            flags := b.flags ||| t.flags, raised := b'.raised, raisedAt := b'.raisedAt, warps := b'.warps
            removeAt := if (t.code = 0x1B ∨ t.code = 0x19) ∧ (s.ctxOf v.ctx).drainB ≠ 0xFFFFFFFF then
              some (b.removeAt.getD (s.tick + (s.ctxOf v.ctx).drainB.toNat)) else b.removeAt } ∧
          (∀ n, b'.warp? n = if n = v.warp.num then some w else b.warp? n) ∧
          w = { v.warp with slices := w.slices, splits := w.splits } ∧
          (∀ k, w.sl k = if v.split.mask.getLsbD k then { v.warp.sl k with
              trapCode := BitVec.ofNat 32 (t.lane * 2 ^ 16 + t.code), trapPc := pc.truncate 32, trapInfo := t.info
              resume := pc, inHandler := true, lastRites := decide (t.code = 0x1B ∨ t.code = 0x19) } else v.warp.sl k) ∧
          w.splitOf? s.cur.slice = some sp ∧ ∀ y ∈ w.splits, y = sp ∨ y ∈ v.warp.splits) ∧
      (v.team.tbase = 0xFFFFFFFF ∨ v.inHandler = true →
        x.team? v.team.uid = none ∧ (x.ctxOf v.ctx).fqSeq = (s.ctxOf v.ctx).fqSeq + 1 ∧
        ∀ o, s.named → s.team? o.uid = some o → o.gang = v.team.gang → o.uid ≠ v.team.uid →
          ∃ o', x.team? o.uid = some o' ∧ o'.warps = o.holding 0x1B v.team.inst s.clock)) ∧
    (∀ w0 why, exec (.illegalInstruction w0 why) s = .next (s.takeFault v
      (match why with | .illop => ⟨0x01, w0, 0, 0⟩ | .page i => ⟨0x04, i, 0, 0⟩ | .prot i => ⟨0x05, i, 0, 0⟩) v.pc)) ∧
    (∀ i, (∀ f, i ≠ .twsend f) → (∀ f, i = .tex f → f.s.extractLsb' 2 2 = 2 ∨ ∃ d p l x, v.team.kind = .pixel d p l x) →
      v.operandsOk i = false → exec i s = .next (s.takeFault v ⟨0x02, (encode i).1, 0, 0⟩ v.pc))

/-- spec/13 R242 to R246, spec/29 R396, R405, R411, spec/19 R320: TRAP retires and takes code 0 with its immediate, BKPT
takes BKPT or halts the team of an attached debugger, MARK writes a trace record under TRACE, SNAP and the external
trigger latch the snapshot once while armed, TRET leaves the handler for the resume addresses, and kills the lanes of one
that was entered for GANGKILL or WATCHDOG, and COMMIT commits the gang. The model's own readings in it: log 16, log
49. -/
def Obligations.SystemInstructions : Prop :=
  ∀ (s : State) (v : View), s.viewOf? v.sel = some v → v.team.recorded = false → v.team.replayed = false →
    v.team.stepping = none → (s.ctxOf v.ctx).stop = none →
    (∀ f, s.Issues v (.trap f) →
      (v.qGuard f.q f.n = true → s.TrapsAfter (.trap f) v ⟨0, f.imm &&& 0xFFFF, 0, 0⟩ 8) ∧
      (v.qGuard f.q f.n = false → s.Computes (.trap f) v 8 {})) ∧
    (∀ f, s.Issues v (.bkpt f) →
      let attached := (s.ctxOf v.ctx).dbgCtl.getLsbD 1
      (v.qGuard f.q f.n = true → attached = false → s.TrapsAfter (.bkpt f) v ⟨0x17, 0, 0, 0⟩ 4) ∧
      (v.qGuard f.q f.n = true → attached = true →
        ∃ t, exec (.bkpt f) s = .next (t.haltTeam v.team.uid) ∧ s.Retires t v v.warp {} (v.on 4)) ∧
      (v.qGuard f.q f.n = false → s.Computes (.bkpt f) v 4 {})) ∧
    (∀ f, s.Issues v (.mark f) →
      let traces := v.qGuard f.q f.n && (s.ctxOf v.ctx).dbgCtl.getLsbD 2
      (traces = true → s.Goes (.mark f) (s.traceRecord v.ctx (bytesOfNat 4 1 ++ bytesOfNat 4 v.team.inst.toNat ++
        bytesOfNat 4 f.imm.toNat ++ bytesOfNat 4 0)) v v.warp {} (v.on 8)) ∧
      (traces = false → s.Computes (.mark f) v 8 {})) ∧
    (∃ u, u = { s with snap := u.snap, snapFired := s.snapArm || s.snapFired } ∧ (s.snapArm = false ∨ s.snapFired = true → u = s) ∧
      (∀ f, s.Issues v (.snap f) →
        (v.qGuard f.q f.n = true → s.Goes (.snap f) u v v.warp {} (v.on 4)) ∧
        (v.qGuard f.q f.n = false → s.Computes (.snap f) v 4 {})) ∧
      exec .snapshotExternalTrigger s = .next (if s.snapExten then u else s)) ∧
    (∀ f, s.Issues v (.tret f) →
      let dying := v.lanes.filter fun l => (v.warp.sl (l / 4)).inHandler && (v.warp.sl (l / 4)).lastRites
      (v.qGuard f.q f.n = false → s.Computes (.tret f) v 4 {}) ∧
      (v.qGuard f.q f.n = true → v.inHandler = false →
        exec (.tret f) s = .next (s.takeFault v ⟨0x1A, (encode (.tret f)).1, 0, 0⟩ v.pc)) ∧
      (v.qGuard f.q f.n = true → v.inHandler = true → ∃ t w,
        exec (.tret f) s = .next (if dying = [] then t else t.afterDeaths v) ∧
        (s.exportLanes v dying true).Retires t v w {}
          (fun k => if (v.warp.sl k).inHandler then (v.warp.sl k).resume else v.pc + 4) ∧
        w = { v.warp with slices := w.slices } ∧
        ∀ k, w.sl k =
          let gone := laneMask (dying.filter fun l => l / 4 == k)
          let sl := v.warp.sl k
          { sl with
            live := sl.live &&& ~~~gone, act := sl.act &&& ~~~gone
            dstack := sl.dstack.map fun e => { e with lanes := e.lanes &&& ~~~gone, recorded := e.recorded &&& ~~~gone }
            inHandler := sl.inHandler && !v.split.mask.getLsbD k, lastRites := sl.lastRites && !v.split.mask.getLsbD k })) ∧
    (∀ f, s.Issues v (.commit f) →
      (v.qGuard f.q f.n = true →
        s.GoesSync (.commit f) (s.modGang v.team.gang fun g => { g with drain := true }) v v.warp {} (v.on 4)) ∧
      (v.qGuard f.q f.n = false → s.GoesSync (.commit f) s v v.warp {} (v.on 4)))

/-- spec/29 R397, R398, R406: a split at an instruction boundary takes one held fault: GANGKILL, else WATCHDOG, else the
oldest, and of those the one of least code. A team resident for TEAMWD ticks holds WATCHDOG in every split, once; a team
that has not exited by its bound is removed with a record. A split at an enabled
breakpoint halts its team. The model's own readings in it: log 30, log 49. -/
def Obligations.HeldFaultsAndWatchdogs : Prop :=
  ∀ (s : State),
    (∀ x v, s.viewOf? x = some v → s.viewOf? v.sel = some v →
      let held := v.split.deferred
      (v.faultDue = false → exec (.deferredFaultTake x) s = .next s) ∧
      (v.faultDue = true → ∃ (d : Deferred) (sp : Split) (w : Warp), held.Perm (d :: sp.deferred) ∧
        sp = { v.split with deferred := sp.deferred } ∧
        w = { v.warp with splits := modFirst (·.mask == v.split.mask) (fun _ => sp) v.warp.splits } ∧
        ((∃ e ∈ held, e.code = 0x1B) → d.code = 0x1B) ∧
        ((∀ e ∈ held, e.code ≠ 0x1B) → (∃ e ∈ held, e.code = 0x19) → d.code = 0x19) ∧
        ((∀ e ∈ held, e.code ≠ 0x1B ∧ e.code ≠ 0x19) →
          ∀ e ∈ held, d.clock < e.clock ∨ d.clock = e.clock ∧ d.code ≤ e.code) ∧
        exec (.deferredFaultTake x) s = .next ((s.setWarp v w).takeFault
          ⟨v.team.modWarp v.warp.num fun _ => w, w, sp⟩ ⟨d.code, d.info, d.lane, 0⟩ v.pc)) ∧
      ((s.ctxOf v.ctx).breaksAt v.pc = true → v.team.halted = false →
        exec (.breakpointHit x) s = .next (s.haltTeam v.team.uid))) ∧
    (∀ (t : Team) (wd : Word), s.named → s.team? t.uid = some t → wd = (s.ctxOf t.ctx).teamWd →
      let due := wd ≠ 0xFFFFFFFF ∧ t.watched = false ∧ t.startTick + wd.toNat ≤ s.tick
      (¬due → exec (.teamWatchdog t.uid) s = .next s) ∧
      (due → ∃ u, exec (.teamWatchdog t.uid) s = .next u ∧ u = { s with teams := u.teams } ∧ s.OnTeam u t.uid fun _ b =>
        b = { t with watched := true, warps := t.holding 0x19 wd s.clock })) ∧
    (∀ (t : Team), s.team? t.uid = some t →
      ((∀ k, t.removeAt = some k → s.tick < k) → exec (.faultDrainExpiry t.uid) s = .next s) ∧
      (∀ k, t.removeAt = some k → k ≤ s.tick → t.exited = false →
        ∃ u, exec (.faultDrainExpiry t.uid) s = .next u ∧ u.team? t.uid = none ∧
          (u.ctxOf t.ctx).fqSeq = (s.ctxOf t.ctx).fqSeq + 1))

/-- spec/27 R384 to R387: TEX and TFETCH read at issue, each lane on its own, and their four registers are held until the
operation completes: what a core can read does not change. TFETCH gives the texel at integer coordinates of a level, and
zeros outside. TEX outside pixel teams needs the level of the sample in vc; without LIN and MIP it gives the nearest texel of
the nearest level, and under LIN the blend of R387's example. UNORM converts to FP32 correctly rounded. A descriptor at a
misaligned address is bad: every lane gets NaNs, and the split ILLOP once the operation completes. The model's own readings
in it: log 15, log 27. -/
def Obligations.TextureInstructions : Prop :=
  ∀ (s : State) (v : View) (f : LR), s.noAtoms v → s.poison = [] →
    let part := v.part f.g f.gn
    let tva := (v.s64 (LR.su f).toNat).toNat
    let sva := (v.s64 ((LR.su f).toNat + 2)).toNat
    let held := { v.warp with
      ld := v.warp.ld + 1
      holds := v.warp.holds ++ [⟨s.nextId, (List.range 4).map (f.vd.toNat + ·), [], false, 2⟩] }
    let starts := fun (i : Instr) (op : TexOp) => ∃ u, u = { s with
          l1 := u.l1, far := u.far, freeCtr := u.freeCtr, nextId := s.nextId + 1, texOps := s.texOps ++ [op] } ∧
      (∀ c k, u.look c k = s.look c k) ∧ s.Goes i u v held {} (v.on 8)
    let four := fun (x : Nat → List Nat) => part.flatMap fun l =>
      (List.range 4).map fun i => (f.vd.toNat + i, l, BitVec.ofNat 32 ((x l).getD i 0))
    let op := fun (x : Nat → List Nat) bad => { id := s.nextId, x := v.sel, mask := v.split.mask, vwrites := four x, bad : TexOp }
    let pixel := ∃ d p l x, v.team.kind = .pixel d p l x
    let mode := (f.s.extractLsb' 2 2).toNat
    (s.Issues v (.tfetch f) →
      (part = [] → s.Computes (.tfetch f) v 8 {}) ∧
      (part ≠ [] → 1023 ≤ v.warp.ld → exec (.tfetch f) s = .next (s.stall v 2)) ∧
      (part ≠ [] → v.warp.ld < 1023 →
        (tva % 64 ≠ 0 → starts (.tfetch f) (op (fun _ => List.replicate 4 fp32.nanBits) (some (BitVec.ofNat 32 tva)))) ∧
        (∀ (key : Nat) (at' : Nat → Nat), tva % 64 = 0 → s.reads v tva 64 key →
          let d := (texDesc (s.lookBytes v.core key 64)).1
          let level := fun l => (v.vec f.vc l).toInt
          let at3 := fun l i => if i = 2 ∧ (f.s.extractLsb' 0 2).toNat = 0 then 0 else (v.warp.v (f.va.toNat + i) l).toInt
          let inside := fun l => 0 ≤ level l ∧ level l < d.levels ∧ 0 ≤ at3 l 0 ∧ at3 l 0 < d.widthAt (level l).toNat ∧
            0 ≤ at3 l 1 ∧ at3 l 1 < d.heightAt (level l).toNat ∧ 0 ≤ at3 l 2 ∧ at3 l 2 < d.depth
          (texDesc (s.lookBytes v.core key 64)).2 = true →
          (∀ l ∈ part, inside l → s.reads v
            (d.texelAt (level l).toNat (at3 l 0).toNat (at3 l 1).toNat (at3 l 2).toNat) (texelBytes d.fmt) (at' l)) →
          ∃ x, (∀ l ∈ part, (inside l → x l = texelOf d.fmt (s.lookBytes v.core (at' l) (texelBytes d.fmt))) ∧
              (¬inside l → x l = [0, 0, 0, 0])) ∧ starts (.tfetch f) (op x none)))) ∧
    (s.view? = some v → mode ≠ 2 → ¬pixel → exec (.tex f) s = .next (s.takeFault v ⟨0x01, (encode (.tex f)).1, 0, 0⟩ v.pc)) ∧
    (s.Issues v (.tex f) →
      (mode = 2 ∨ pixel → part = [] → s.Computes (.tex f) v 8 {}) ∧
      (mode = 2 ∨ pixel → part ≠ [] → 1023 ≤ v.warp.ld → exec (.tex f) s = .next (s.stall v 2)) ∧
      (mode = 2 ∨ pixel → part ≠ [] → v.warp.ld < 1023 →
        (tva % 64 ≠ 0 → sva % 32 ≠ 0 →
          starts (.tex f) (op (fun _ => List.replicate 4 fp32.nanBits) (some (BitVec.ofNat 32 tva)))) ∧
        (∀ tk sk, tva % 64 = 0 → s.reads v tva 64 tk → sva % 32 = 0 → s.reads v sva 32 sk →
          let d := (texDesc (s.lookBytes v.core tk 64)).1
          (texDesc (s.lookBytes v.core tk 64)).2 = true → d.fmt ≠ 9 → (samplerDesc (s.lookBytes v.core sk 32)).2 = true →
          (∀ l x y z, l < d.levels → x < d.widthAt l → y < d.heightAt l → z < d.depth →
            ∃ k, s.reads v (d.texelAt l x y z) (texelBytes d.fmt) k) →
          let m := (samplerDesc (s.lookBytes v.core sk 32)).1
          let coord := fun l i => (v.warp.v (f.va.toNat + i) l).toNat
          let lod := fun l => (v.vec f.vc l).toNat
          let within := fun l => fCmp (fp32.decode (lod l)) (fp32.decode m.minLod) ∈ [some .eq, some .gt] ∧
            fCmp (fp32.decode (lod l)) (fp32.decode m.maxLod) ∈ [some .eq, some .lt]
          ∃ x, (∀ l ∈ part, (x l).length = 4) ∧
            (mode = 2 → f.s.extractLsb' 0 2 = 0 → m.mip = false → ∀ l ∈ part, within l →
              (m.lin = false → ∀ (at' : Nat) (p q : Int) (i j key : Nat), levelsTo (lod l) d.levels at' →
                floorsTo (coord l 0) (d.widthAt at') p → floorsTo (coord l 1) (d.heightAt at') q →
                addressesTo m.au (d.widthAt at') p i → addressesTo m.av (d.heightAt at') q j →
                s.reads v (d.texelAt at' i j 0) (texelBytes d.fmt) key →
                x l = texelOf d.fmt (s.lookBytes v.core key (texelBytes d.fmt))) ∧
              (m.lin = true → d.fmt = 7 → d.width = 4 → d.height = 4 → lod l = 0 → coord l 0 = 0x3EA00000 → coord l 1 = 0x3E800000 →
                (∀ i j key, i < 4 → j < 2 → s.reads v (d.texelAt 0 i j 0) 4 key →
                  natOfBytes (s.lookBytes v.core key 4) = (fp32.finish 0 false (.num ⟨false, 4 * j + i, 0⟩)).1) →
                x l = [0x40300000, 0, 0, 0x3F800000])) ∧
            starts (.tex f) (op x none)))) ∧
    (∀ bs, texelOf 7 bs = [fieldAt bs 0 4, 0, 0, 0x3F800000] ∧ texelOf 8 bs = (List.range 4).map fun i => fieldAt bs (4 * i) 4) ∧
    (∀ b : Byte, ∃ d, fp32.decode ((texelOf 0 [b]).getD 0 0) = .num d ∧ d.neg = false ∧ d.e ≤ 0 ∧ (b = 0 → d.m = 0) ∧
      (b ≠ 0 → 2 ^ 23 ≤ d.m ∧ d.m < 2 ^ 24 ∧
        2 * ((d.m * 255 : Nat) - (b.toNat * 2 ^ (-d.e).toNat : Nat) : Int).natAbs ≤ 255)) ∧
    (∀ (m : TexOp) (w : Warp), s.texOps.find? (·.id == m.id) = some m → s.warpAt m.x.team m.x.warp = some w → m.bad = none →
      (∀ x ∈ m.vwrites, x.2.1 < 32) → m.vwrites.Pairwise (fun x y => ¬(x.1 = y.1 ∧ x.2.1 = y.2.1)) →
      ∃ t w', exec (.textureComplete m.id) s = .next t ∧ t = { s with texOps := t.texOps, teams := t.teams } ∧
        t.texOps = s.texOps.filter (·.id != m.id) ∧ t.warpAt m.x.team m.x.warp = some w' ∧
        w' = { w with entries := w'.entries, ld := w.ld - 1, holds := w.holds.filter (·.id != m.id) } ∧
        (∀ x ∈ m.vwrites, w'.v x.1 x.2.1 = x.2.2) ∧
        (∀ r l, l < 32 → (∀ x ∈ m.vwrites, ¬(x.1 = r ∧ x.2.1 = l)) → w'.v r l = w.v r l))

/-- spec/27 R388 to R391: RAYQ starts a ray for each lane, whose token is in vd at once; RAYCONT decides the candidates
that lanes name; each counts in LD until every ray that it names has stopped. RAYGET gives the record of each lane's ray,
MISS for a token that names none, and waits for one that is running. A ray stops where its traversal ends. The model's own
readings in it: log 6, log 26, log 27, log 36, log 62. -/
def Obligations.RayInstructions : Prop :=
  ∀ (s : State) (v : View) (f : LR),
    let part := v.part f.g f.gn
    let ray := fun l => s.rays.find? fun r => r.token == v.vec f.va l && r.x.team == v.team.uid
    (s.Issues v (.rayq f) →
      let root := (v.s64 (LR.su f).toNat).toNat
      let room := v.warp.ld < 1023 ∧ s.rays.countP (fun r => r.core == v.core && !r.ended) + part.length ≤ 256
      let id := fun l => s.nextId + 1 + part.idxOf l
      let token := fun l => BitVec.ofNat 32 (id l) ^^^ Config.tokenMask
      let new := fun l => {
        id := id l, core := v.core, x := v.sel, mask := v.split.mask, token := token l, ctx := v.ctx
        geom := (List.range 8).map fun j => v.warp.v (f.va.toNat + j) l
        root := root, first := f.s.getLsbD 0, cull := f.s.getLsbD 1, opq := f.s.getLsbD 2, lane := l : Ray }
      (part = [] → s.Computes (.rayq f) v 8 {}) ∧
      (part ≠ [] → root % 128 ≠ 0 →
        exec (.rayq f) s = .next (s.takeFault v ⟨0x03, v.s (LR.su f).toNat, part.headD 0, 0⟩ v.pc)) ∧
      (root % 128 = 0 → part ≠ [] → ¬room → exec (.rayq f) s = .next (s.stall v 2)) ∧
      (root % 128 = 0 → part ≠ [] → room → s.noAtoms v → s.Goes (.rayq f)
        { s with
          nextId := s.nextId + 1 + part.length, rays := s.rays ++ part.map new
          rayOps := s.rayOps ++ [⟨s.nextId, v.sel, part.map id⟩] }
        v { v.warp with ld := v.warp.ld + 1 }
        (Writes.lanes (v.takesPart f.g f.gn) 0 f.vd (fun l => (token l).toNat) 0) (v.on 8))) ∧
    (s.Issues v (.raycont f) →
      let named := part.filterMap fun l => (ray l).map (·.id)
      let counted := fun (u : State) ids => s.Goes (.raycont f) { u with
        nextId := s.nextId + 1, rayOps := s.rayOps ++ [⟨s.nextId, v.sel, ids⟩] } v { v.warp with ld := v.warp.ld + 1 } {} (v.on 8)
      (part = [] → s.Computes (.raycont f) v 8 {}) ∧
      (part ≠ [] → 1023 ≤ v.warp.ld → exec (.raycont f) s = .next (s.stall v 2)) ∧
      (part ≠ [] → v.warp.ld < 1023 → (∀ l ∈ part, ∀ r, ray l = some r → r.st ≠ .candidate) →
        let runs := ∃ r ∈ s.rays, r.id ∈ named ∧ r.st = .running
        (runs → counted s named) ∧ (¬runs → s.Goes (.raycont f) { s with nextId := s.nextId + 1 } v v.warp {} (v.on 8))) ∧
      (∀ l r, v.warp.ld < 1023 → part = [l] → ray l = some r → r.st = .candidate → (s.rays.map (·.id)).Nodup →
        let yes := v.warp.p (f.vc.extractLsb' 0 3).toNat l
        let kept := r.cand.map (keptHit r.best)
        let put := fun r' => s.rays.map fun x => if x.id = r.id then r' else x
        (yes = true → f.s.getLsbD 0 = true → s.Goes (.raycont f) { s with
            nextId := s.nextId + 1, rays := put { r with st := .hit, best := kept, cand := none, ended := true } }
          v v.warp {} (v.on 8)) ∧
        (yes = false ∨ f.s.getLsbD 0 = false →
          counted { s with rays := put { r with st := .running, cand := none, decided := r.decided ++ [yes] } } [r.id]))) ∧
    (s.Issues v (.rayget f) →
      let runs := fun l => ∃ r, ray l = some r ∧ r.st = .running
      ((∃ l ∈ part, runs l) → exec (.rayget f) s = .next (s.stall v 2)) ∧
      ((∀ l ∈ part, ¬runs l) → ∃ (u : State) (x : Nat → Nat → Word), u = { s with freeCtr := u.freeCtr } ∧
        s.Goes (.rayget f) u v v.warp
          { v := fun r l => if v.takesPart f.g f.gn l ∧ f.vd.toNat ≤ r ∧ r < f.vd.toNat + 5 then some (x l (r - f.vd.toNat)) else none }
          (v.on 8) ∧
        ∀ l ∈ part, (ray l = none → x l 4 = 1) ∧ ∀ r, ray l = some r →
          (r.st = .miss → x l 4 = 1) ∧ (r.st = .error → x l 4 = 4) ∧
          ∀ h code, (r.st = .hit ∧ r.best = some h ∧ code = 2 ∨ r.st = .candidate ∧ r.cand = some h ∧ code = 3) →
            x l 0 = h.t ∧ x l 1 = h.b1 ∧ x l 2 = h.b2 ∧ x l 3 = h.prim ∧
              x l 4 = BitVec.ofNat 32 (code + if h.back then 16 else 0))) ∧
    (∀ r, s.rays.find? (·.id == r.id) = some r → r.st = .running →
      let go := s.runRay r
      let stops := fun (r' : Ray) => ∃ t, exec (.rayStop r.id) s = .next t ∧ t.rays.find? (·.id == r.id) = some r' ∧
        ∀ o w, (s.rays.map (·.id)).Nodup → s.rayOps = [o] → o.rays = [r.id] → s.warpAt o.x.team o.x.warp = some w →
          t.rayOps = [] ∧ ∃ w', t.warpAt o.x.team o.x.warp = some w' ∧ w'.ld = w.ld - 1
      (go.2 = .later → exec (.rayStop r.id) s = .next go.1.st) ∧
      (go.2 = .more → exec (.rayStop r.id) s = .next { go.1.st with
        rays := modFirst (·.id == r.id) (fun _ => { r with visits := 2 * r.visits }) go.1.st.rays }) ∧
      (go.2 = .hit → stops { r with st := .hit, best := go.1.best, cand := none, ended := true }) ∧
      (go.2 = .miss → stops { r with st := .miss, best := none, cand := none, ended := true }) ∧
      (∀ h, go.2 = .candidate h → stops { r with st := .candidate, best := go.1.best, cand := some h, ended := false }) ∧
      (go.2 = .bad → stops { r with st := .error, best := none, cand := none, ended := true }) ∧
      (∀ code info, go.2 = .refused code info →
        stops { r with st := .error, best := none, cand := none, ended := true }) ∧
      ((∃ i, i ∈ [0, 1, 2, 4, 5, 6] ∧ finite32 (r.geom.getD i 0).toNat = none) → go.2 = .miss))

/-- spec/01 R9, spec/27 R378 to R383: DRAW_SUBMIT queues a draw with its vertex teams, or refuses it with a record;
PRIMITIVE_RASTERISE takes the front end of a die on to its next primitive, and every pixel that it gives to a back end lies in
a triangle of the clipped primitive, in a tile of the die, and goes to the cluster that owns its tile; PIXEL_EXPORT_APPLY tests the depth of an export, blends it
into the colour image, and writes the depth under DWR. The model's own readings in it: log 24, log 25. -/
def Obligations.DrawsAndPixels : Prop :=
  ∀ (s : State),
    (∀ c desc, desc.toNat % 32 ≠ 0 → exec (.drawSubmit c desc) s = .next (s.faultRecord c 6 0 0 0 desc.toNat 0)) ∧
    (∀ c desc k0 k1 k2 k3, desc.toNat % 32 = 0 → s.untroubled c → s.xlateNow c desc.toNat .load = .ok k0 →
      let bs := s.homeBytes k0 32
      s.xlateNow c (fieldAt bs 0 8) .load = .ok k1 → s.xlateNow c (fieldAt bs 8 8) .load = .ok k2 →
      s.xlateNow c (fieldAt bs 0x18 8) .load = .ok k3 →
      let d? := drawOf s.nextId c bs (s.homeBytes k1 32) (s.homeBytes k2 32) (s.homeBytes k3 64)
      (d? = none → exec (.drawSubmit c desc) s = .next (s.faultRecord c 6 0 0 0 desc.toNat 0)) ∧
      (∀ d, d? = some d → (rasterRecord 0 c desc.toNat d.vkern).fits = true → (rasterRecord 0 c desc.toNat d.pkern).fits = true →
        fieldAt bs 0x18 8 % 64 = 0 →
        ∃ t, exec (.drawSubmit c desc) s = .next t ∧ t.draws = s.draws ++ [d] ∧ t.mem = s.mem ∧ t.teams = s.teams ∧
          t.tasks.length = s.tasks.length + d.vertexTeams.length ∧ ∀ first ∈ d.vertexTeams, ∃ k ∈ t.tasks,
            k.ctx = c ∧ k.work = .vertex d.id first ∧ k.cluster = first / d.perTeam % 32 ∧ k.st = .unplaced)) ∧
    (∀ (die : Nat) (d : Draw) (ok : List Bool), s.draws.find? (·.id == d.id) = some d → (s.draws.map (·.id)).Nodup →
      let prim := d.next.getD die d.nprim
      prim < d.nprim → allSome ((List.range 3).map fun i => s.vertexDone d (3 * prim + i)) = some ok →
      let passed := fun (t : State) => ∃ new, t.pixels = s.pixels ++ new ∧ t.mem = s.mem ∧ t.teams = s.teams ∧
        ∀ d', t.draws.find? (·.id == d.id) = some d' → d' = { d with next := d.next.set die (prim + 1) }
      let at' := fun i => (d.block + 16 * (d.recb + 1) * (3 * prim + i)) % 2 ^ 64
      (ok.all id = false → ∃ t, exec (.primitiveRasterise ⟨die, d.id⟩ prim) s = .next t ∧ t.pixels = s.pixels ∧ passed t) ∧
      (∀ key : Nat → Nat, ok.all id = true → s.untroubled d.ctx → (∀ i, i < 3 → s.xlateNow d.ctx (at' i) .load = .ok (key i)) →
        let ts := d.triangles ((List.range 3).flatMap fun i => s.homeBytes (key i) (16 + 4 * d.nattr))
        ∃ t, exec (.primitiveRasterise ⟨die, d.id⟩ prim) s = .next t ∧ passed t ∧
          ∀ p ∈ t.pixels, p ∈ s.pixels ∨ p.draw = d.id ∧ p.prim = prim ∧ p.x < d.width ∧ p.y < d.height ∧ p.st = .running ∧
            tileDie (p.x / 64) (p.y / 64) = die ∧
            p.cluster = tileCluster (p.x / 64) (p.y / 64) ∧ ∃ tri ∈ ts, tri.covers p.x p.y = true)) ∧
    (∀ cluster (p : PixelWork) (d : Draw) rgba depth colour depthKey, s.prunePixels cluster = s → s.nextExport cluster = some p →
      s.draws.find? (·.id == p.draw) = some d → p.st = .exported rgba depth → s.untroubled d.ctx →
      s.xlateNow d.ctx (d.colourAt p.x p.y) .store = .ok colour → s.xlateNow d.ctx (d.depthAt p.x p.y) .store = .ok depthKey →
      let old := s.homeBytes colour 16
      let src := fun i => (rgba.getD i 0).toNat
      let c := fun i => if d.blend = 0 then src i else blendOver (src i) (fieldAt old (4 * i) 4) (src 3)
      let passes := depthPasses d.dfunc depth.toNat (natOfBytes (s.homeBytes depthKey 4))
      ∃ t, exec (.pixelExportApply cluster) s = .next t ∧ t.pixels = s.pixels.erase p ∧ t.teams = s.teams ∧
        ∀ k, Memory.read t.mem k =
          if passes = true ∧ d.dwr = true ∧ depthKey ≤ k ∧ k < depthKey + 4 then (bytesOfNat 4 depth.toNat).getD (k - depthKey) 0
          else if passes = true ∧ colour ≤ k ∧ k < colour + 16 then
            (bytesOfNat 4 (c ((k - colour) / 4))).getD ((k - colour) % 4) 0
          else Memory.read s.mem k)

/-- spec/21 R330 to R332, R336 to R340: NCALL hands the rows of its lanes to the cluster's unit, or stalls at 63 calls or
2,048 row places; the unit takes a core's oldest call, places a row with the rows of its version, dispatches a bin of age,
of a stall, of NFLUSH or of 64 rows as one tile, in the order of the clocks and then of the oldest rows, and writes a tile's
outputs to the lanes that called. The model's own readings in it: log 34. -/
def Obligations.NeuralCalls : Prop :=
  ∀ (s : State) (v : View),
    let dispatches := fun (u : State) cl (p : Bin → Bool) =>
      let r := s.regroup cl
      let r' := u.regroup cl
      u = { s with regroups := u.regroups } ∧ (∀ c, c ≠ cl → u.regroup c = s.regroup c) ∧
        r' = { r with bins := r'.bins, tiles := r'.tiles } ∧
        (∀ n, Tab.find? r'.bins n = (Tab.find? r.bins n).filter fun b => !p b) ∧
        ∃ new : List Tile, r'.tiles.Perm (r.tiles ++ new) ∧ r.tiles.Sublist r'.tiles ∧
          (∀ x, x ∈ new ↔ ∃ n b, Tab.find? r.bins n = some b ∧ p b = true ∧ x = ⟨b.key, b.rows, b.oldest, s.clock⟩) ∧
          let first := fun (a b : Tile) => a.clock < b.clock ∨ a.clock = b.clock ∧ a.oldest ≤ b.oldest
          (r.tiles.Pairwise first → r'.tiles.Pairwise first)
    let single := fun cl => ((s.regroup cl).bins.map (·.1)).Nodup
    (∀ f : LR, s.Issues v (.ncall f) →
      let part := v.part f.g f.gn
      let no := (f.s.extractLsb' 0 4).toNat + 1
      let room := v.warp.ntok < 63 ∧ s.placesTaken (clusterOfCore v.core) + part.length ≤ 2048
      let c : NCall := {
        id := s.nextId, x := v.sel, mask := v.split.mask, core := v.core, ctx := v.ctx, vd := f.vd.toNat, no := no
        rows := part.map fun l =>
          (l, (List.range ((f.m.extractLsb' 0 5).toNat + 1)).map fun i => v.warp.v (f.va.toNat + i) l, v.vec f.vc l)
        clock := s.clock, left := part.length }
      (part = [] → s.Computes (.ncall f) v 8 {}) ∧
      (part ≠ [] → ¬room → exec (.ncall f) s = .next (s.stall v 6)) ∧
      (part ≠ [] → room → s.Goes (.ncall f) { s with nextId := s.nextId + 1, ncalls := s.ncalls ++ [c] } v
        { v.warp with
          ntok := v.warp.ntok + 1, holds := v.warp.holds ++ [⟨s.nextId, (List.range no).map (f.vd.toNat + ·), [], false, 6⟩] }
        {} (v.on 8))) ∧
    (∀ f : UE, s.Issues v (.nflush f) → single (clusterOfCore v.core) → ∃ u, dispatches u (clusterOfCore v.core) (fun _ => true) ∧
      s.GoesSync (.nflush f) u v v.warp {} (v.on 8)) ∧
    (∀ cl, let waits := fun (c : NCall) => c.accepted = false ∧ clusterOfCore c.core = cl
      ((∀ c ∈ s.ncalls, ¬waits c) → exec (.ncallAccept cl) s = .next s) ∧
      ((∃ c ∈ s.ncalls, waits c) → ∃ c t, waits c ∧ exec (.ncallAccept cl) s = .next t ∧
        s.ncalls.find? (fun x => !x.accepted && clusterOfCore x.core == cl && x.core == c.core) = some c ∧
        t = { s with regroups := t.regroups, ncalls := modFirst (·.id == c.id) (fun c => { c with accepted := true }) s.ncalls } ∧
        ∀ k, t.regroup k = if k = cl then { s.regroup k with
          queue := (s.regroup k).queue ++ [c.id]
          lastCore := (s.regroup k).lastCore.filter (· != c.core) ++ [c.core] } else s.regroup k)) ∧
    (∀ cl c lane xs h rest, (s.regroup cl).queue.findSome? (fun id => s.ncalls.find? fun c => c.id == id && !c.rows.isEmpty) = some c →
      c.rows = (lane, xs, h) :: rest →
      let r := s.resolveHandle (s.regroup cl).resident c.ctx h (.unit c.id)
      let taken := { s with ncalls := modFirst (·.id == c.id) (fun c => { c with rows := rest }) s.ncalls }
      (r.2 = .waits → exec (.rowPlace cl) s = .next r.1) ∧
      (∀ k desc, r.2 = .ok k desc → ∃ t, exec (.rowPlace cl) s = .next t ∧ t.ncalls = taken.ncalls ∧
        let u := t.regroup cl
        (∃ n b, Tab.find? u.bins n = some b ∧ b.key = k ∧ ⟨c.id, lane, h, xs, s.clock⟩ ∈ b.rows) ∨
          ∃ x ∈ u.tiles, x.key = k ∧ ⟨c.id, lane, h, xs, s.clock⟩ ∈ x.rows ∧ 64 ≤ x.rows.length ∧ x.clock = s.clock)) ∧
    (∀ cl, single cl → ∃ u, exec (.binAgeDispatch cl) s = .next u ∧ dispatches u cl fun b => decide (b.oldest + 256 ≤ s.clock)) ∧
    (∀ cl, single cl →
      let calling := fun (w : Warp) => ∃ t ∈ s.teams, clusterOfCore t.core = cl ∧ w ∈ t.warps ∧ w.ntok ≠ 0
      let stalled := fun (w : Warp) => (∀ sp ∈ w.splits, sp.wait ≠ .none) ∧ ∃ sp ∈ w.splits, sp.wait = .stall 6
      ((∃ w, calling w) → (∀ w, calling w → stalled w) →
        ∃ u, exec (.binStallDispatch cl) s = .next u ∧ dispatches u cl fun _ => true) ∧
      ((∀ w, ¬calling w) ∨ (∃ w, calling w ∧ ¬stalled w) → exec (.binStallDispatch cl) s = .next s)) ∧
    (∀ cl key (row : Row) oldest clock rest (ver : WVersion) (c : NCall) (w : Warp) (b : Team),
      (s.regroup cl).tiles = ⟨key, [row], oldest, clock⟩ :: rest →
      (s.regroup cl).cache.find? (·.key == key) = some ver → s.ncalls.find? (·.id == row.call) = some c → row.lane < 32 →
      s.team? c.x.team = some b → b.warp? c.x.warp = some w → ver.bad = false →
      let out := evalRow ver.bytes c.no row.inputs
      ∃ t b' w', exec (.tileComplete cl) s = .next t ∧ (t.regroup cl).tiles = rest ∧ t.team? c.x.team = some b' ∧
        b'.warp? c.x.warp = some w' ∧ b'.flags = b.flags ||| out.2 ∧
        (∀ r l, l < 32 → w'.v r l =
          if l = row.lane ∧ c.vd ≤ r ∧ r < c.vd + c.no then out.1.getD (r - c.vd) 0 else w.v r l) ∧
        (c.left ≤ 1 → w'.ntok = w.ntok - 1 ∧ w'.holds = w.holds.filter (·.id != c.id) ∧
          t.ncalls = s.ncalls.filter (·.id != c.id)) ∧
        (1 < c.left → w'.ntok = w.ntok ∧ t.ncalls = modFirst (·.id == row.call) (fun c => { c with left := c.left - 1 }) s.ncalls))

/-- spec/21 R325, R326, R333 to R335, R341, R343, R344: WPREF and WPIN ask for a version, WUNPIN takes a pin away, WVER
publishes the next version of a set, or answers 0xFFFF_FFFF where that version is still in use; a handle resolves to the
current version of its set, or to one that it names exactly and that is current or resident; a load brings the bytes of a
version into the cache; RGDISP is an operation of its lanes, which in the end has counted each row at its key and written it
at the position that the lane gets. The model's own readings in it: log 34. -/
def Obligations.WeightSetsAndDispatch : Prop :=
  ∀ (s : State) (v : View),
    let cl := clusterOfCore v.core
    let x := s.ctxOf v.ctx
    let answer := fun (f : UE) (r : Word) => Writes.uniform v.split.mask f.d.toNat r 0
    let hopeless := fun (h : Word) => h.extractLsb' 0 8 ≠ 0 ∨ x.wsSize.toNat ≤ (h.extractLsb' 16 16).toNat
    let keyOf := fun (h : Word) => (⟨v.ctx, (h.extractLsb' 16 16).toNat, (h.extractLsb' 8 8).toNat⟩ : VerKey)
    let unit := fun (u : State) (g : Regroup → Regroup) => ∀ c, u.regroup c = if c = cl then g (s.regroup c) else s.regroup c
    let loads := fun (u : State) (l : WLoad) => u = { s with nextId := s.nextId + 1, regroups := u.regroups } ∧
      unit u fun r => { r with loads := r.loads ++ [l] }
    (∀ f : UE, s.Issues v (.wpref f) →
      let h := v.s f.a.toNat
      (hopeless h → s.GoesSync (.wpref f) s v v.warp {} (v.on 8)) ∧
      (¬hopeless h → ∃ u, loads u { id := s.nextId, key := keyOf h, desc := none, early := true } ∧
        s.GoesSync (.wpref f) u v v.warp {} (v.on 8))) ∧
    (∀ f : UE, s.Issues v (.wpin f) →
      let h := v.s f.a.toNat
      (hopeless h → s.GoesSync (.wpin f) s v v.warp (answer f 1) (v.on 8)) ∧
      (¬hopeless h → ∃ u, loads u {
          id := s.nextId, key := keyOf h, desc := none, early := true, pins := [(v.sel, v.split.mask, f.d.toNat, s.nextId)] } ∧
        s.GoesSync (.wpin f) u v { v.warp with holds := v.warp.holds ++ [⟨s.nextId, [], [f.d.toNat], false, 1⟩] } {} (v.on 8))) ∧
    (∀ f : UE, s.Issues v (.wunpin f) →
      let h := v.s f.a.toNat
      let r := State.resolveHandle { s with nextId := s.nextId + 1 } (s.regroup cl).resident v.ctx h (.unit s.nextId)
      let later : WLoad := { id := s.nextId, key := keyOf h, desc := none, early := true, unpins := [v.team.uid] }
      (r.2 = .bad → s.GoesSync (.wunpin f) r.1 v v.warp {} (v.on 8)) ∧
      (r.2 = .waits → ∃ u, u = { r.1 with regroups := u.regroups } ∧ unit u (fun r => { r with loads := r.loads ++ [later] }) ∧
        s.GoesSync (.wunpin f) u v v.warp {} (v.on 8)) ∧
      (∀ k desc, r.2 = .ok k desc → ∃ u, u = { r.1 with regroups := u.regroups } ∧
        (unit u fun r =>
          { r with cache := r.cache.map fun w =>
              if w.key = k then { w with pins := w.pins.filter (· != v.team.uid) } else w }) ∧
        s.GoesSync (.wunpin f) u v v.warp {} (v.on 8))) ∧
    (∀ (h : Word) (resident : VerKey → Bool) (who : Requester),
      (hopeless h → s.resolveHandle resident v.ctx h who = (s, .bad)) ∧
      (∀ key, ¬hopeless h → s.untroubled v.ctx →
        s.xlateNow v.ctx ((x.wsBase.toNat + 16 * (h.extractLsb' 16 16).toNat) % 2 ^ 64) .load = .ok key →
        let word := fun at' n => natOfBytes ((List.range n).map fun i => Memory.read s.mem (key + at' + i))
        let current := { keyOf h with ver := word 8 4 % 256 }
        let ver := (keyOf h).ver
        s.resolveHandle resident v.ctx h who = (s,
          if (word 8 4).testBit 31 = true ∧ (ver = 0 ∨ ver = word 8 4 % 256) then .ok current (word 0 8)
          else if ver ≠ 0 ∧ resident (keyOf h) = true then .ok (keyOf h) 0 else .bad))) ∧
    (∀ f : UE, s.Issues v (.wver f) → s.noAtoms v → s.unrecorded → s.memoryOk → s.poison = [] →
      let n := v.s f.a.toNat
      let desc := (v.s64 f.b.toNat).toNat
      let va := (x.wsBase.toNat + 16 * n.toNat) % 2 ^ 64
      s.Checked (.wver f) v [(decide (x.wsSize.toNat ≤ n.toNat), 0x05, n), (desc % 64 != 0, 0x03, v.s f.b.toNat),
          (!canonical desc, 0x04, BitVec.ofNat 32 (2 ^ 29 + bitsOf desc 16 29))]
        (∀ key, canonical va = true → s.xlate v.core v.ctx va .store = .ok key →
          let old := natOfBytes ((List.range 4).map fun i => s.newest v.core (key + 8 + i))
          let ver := if old.testBit 31 then old % 256 % 255 + 1 else 1
          let k : VerKey := ⟨v.ctx, n.toNat, ver⟩
          let inUse := ∃ c, c < 32 ∧ ∃ w ∈ (s.regroup c).cache, w.key = k ∧ s.referenced (s.regroup c) w = true
          let entry := bytesOfNat 8 desc ++ bytesOfNat 4 (2 ^ 31 + old / 256 % 2 ^ 23 * 256 + ver)
          ∃ u, u = { (s.modGang v.team.gang fun g => { g with drain := true }) with
              l1 := u.l1, far := u.far, mem := u.mem, regroups := u.regroups } ∧
            (inUse → (∀ k, Memory.read u.mem k = s.newest v.core k) ∧ (∀ c, u.regroup c = s.regroup c) ∧
              s.GoesSync (.wver f) u v v.warp (answer f 0xFFFFFFFF) (v.on 8)) ∧
            (¬inUse → (∀ j, Memory.read u.mem j =
                if key ≤ j ∧ j < key + 12 then entry.getD (j - key) 0 else s.newest v.core j) ∧
              (∀ c, c < 32 → (u.regroup c).cache = (s.regroup c).cache.filter (·.key != k)) ∧
              s.GoesSync (.wver f) u v v.warp (answer f (BitVec.ofNat 32 (n.toNat * 65536 + ver * 256))) (v.on 8)))) ∧
    (∀ c (l : WLoad) desc bs, (s.regroup c).loads.filter (·.key == l.key) = [l] → l.desc = some desc → l.early = true → l.pins = [] →
      s.readVersion l.key.ctx desc (.unit l.id) = (s, .ok bs) → netOk bs = true →
      ∃ t w, exec (.weightVersionLoad c l.key.ctx l.key.set l.key.ver) s = .next t ∧
        (t.regroup c).loads = (s.regroup c).loads.filter (·.id != l.id) ∧ w ∈ (t.regroup c).cache ∧
        w.key = l.key ∧ w.bytes = bs ∧ w.bad = false) ∧
    (∀ f : LR, s.Issues v (.rgdisp f) →
      let part := v.part f.g f.gn
      let table := v.s64 (LR.su f).toNat
      let drain := ((s.gang? v.team.gang).map (·.drain)).getD true
      let op : RgOp := {
        id := s.nextId, x := v.sel, mask := v.split.mask, ctx := v.ctx, table := table.toNat, vd := f.vd.toNat
        rows := part.map fun l => (l, v.vec f.va l, (List.range (2 ^ (f.s.extractLsb' 0 2).toNat)).map fun i =>
          v.warp.v (f.vc.toNat + i) l) }
      let u := s.settleAtoms v.team.uid v.warp.num
      s.Checked (.rgdisp f) v [(!drain, 0x1A, (encode (.rgdisp f)).1),
          (decide (part ≠ []) && table.toNat % 16 != 0, 0x03, v.s (LR.su f).toNat),
          (decide (part ≠ []) && !canonical table.toNat, 0x04, BitVec.ofNat 32 (2 ^ 29 + bitsOf table.toNat 16 29))]
        ((part = [] → s.Computes (.rgdisp f) v 8 {}) ∧
         (part ≠ [] → 1023 ≤ v.warp.ld → exec (.rgdisp f) s = .next (s.stall v 2)) ∧
         (part ≠ [] → v.warp.ld < 1023 →
          s.Goes (.rgdisp f) { u with nextId := u.nextId + 1, rgOps := u.rgOps ++ [op] } v
            { v.warp with ld := v.warp.ld + 1, holds := v.warp.holds ++ [⟨s.nextId, [f.vd.toNat], [], false, 1⟩] } {} (v.on 8)))) ∧
    (∀ (op : RgOp) (b : Team) (w : Warp) lane (key : Word) ws tk pk ck rk, s.rgOps.find? (·.id == op.id) = some op →
      op.rows = [(lane, key, ws)] → lane < 32 → s.team? op.x.team = some b → b.warp? op.x.warp = some w → s.l1Of b.core = [] →
      s.untroubled op.ctx → s.xlateNow op.ctx op.table .load = .ok tk →
      let word := fun a n => natOfBytes (s.homeBytes a n)
      let entry := (op.table + 16 + 16 * key.toNat) % 2 ^ 64
      key.toNat < word tk 4 → s.xlateNow op.ctx entry .load = .ok pk → s.xlateNow op.ctx ((entry + 8) % 2 ^ 64) .store = .ok ck →
      let row := bytesOfNat 4 key.toNat ++ ws.flatMap fun w => bytesOfNat 4 w.toNat
      let count := word ck 4
      let va := (word pk 8 + count * row.length) % 2 ^ 64
      count < word (pk + 12) 4 → va % 65536 + row.length ≤ 65536 → s.xlateNow op.ctx va .store = .ok rk →
      (s.writeHome ck (bytesOfNat 4 (count + 1))).xlateNow op.ctx va .store = .ok rk →
      ∃ t w', exec (.rgdispComplete op.id) s = .next t ∧ t.rgOps = s.rgOps.filter (·.id != op.id) ∧
        (∀ k, Memory.read t.mem k = if rk ≤ k ∧ k < rk + row.length then row.getD (k - rk) 0
          else if ck ≤ k ∧ k < ck + 4 then (bytesOfNat 4 (count + 1)).getD (k - ck) 0 else Memory.read s.mem k) ∧
        t.warpAt op.x.team op.x.warp = some w' ∧ w'.ld = w.ld - 1 ∧ w'.holds = w.holds.filter (·.id != op.id) ∧
        ∀ r l, l < 32 → w'.v r l = if r = op.vd ∧ l = lane then BitVec.ofNat 32 count else w.v r l)

/-- spec/23 R345 to R353: TWTAG allocates the next free tag from the rotor on, TWFREE frees a tag, or a poisoned one whatever
its index, and moves its generation on, and both are for drain teams; TWSEND checks, commits, releases and queues its tile;
TWRECV locks its landing, whose token acquires when it is observed; their tokens are in sd. TWRECV.ST reads a token's status. The model's own readings in it: log 6, log 33. -/
def Obligations.TwillInstructions : Prop :=
  ∀ (s : State) (v : View), s.noAtoms v → s.unrecorded → s.memoryOk → s.poison = [] →
    let x := s.ctxOf v.ctx
    let n := x.twTags.toNat
    let drain := ∀ g, s.gang? v.team.gang = some g → g.drain = true
    let reaches := fun (i : Nat) (kind : Access) (key : Nat) =>
      canonical (x.tagWord i) = true ∧ s.xlate v.core v.ctx (x.tagWord i) kind = .ok key
    let word := fun key => s.newestNat v.core key 4
    let token := BitVec.ofNat 32 s.nextId ^^^ Config.tokenMask
    let made := fun status acquires => s.tokens ++ [⟨token, v.team.uid, status, acquires⟩]
    let answer := fun (f : UE) (r : Word) => Writes.uniform v.split.mask f.d.toNat r 0
    let kept := fun (u : State) => u = { s with l1 := u.l1, far := u.far, mem := u.mem }
    let waits := fun (i : Instr) (r : Nat) => ∃ u, kept u ∧ s.Wrote u v.core 0 [] ∧ exec i s = .next (u.stall v r)
    let lockOf := fun (off : Word) (write : Bool) => (⟨s.nextId, v.core, true, off.toNat, off.toNat + 1024, write, false⟩ : RLock)
    let room := fun (lock : RLock) => s.deadConflict [lock] = false ∧ (s.rlocks.filter (·.core == v.core)).length < 64
    let live := fun (tag : Word) (key : Nat) => bitsOf (word key) 0 1 = 1 ∧ bitsOf (word key) 24 8 = tag.toNat / 2 ^ 24
    let dead := fun (tag : Word) (key : Nat) => bitsOf (word key) 1 1 = 1 ∧ bitsOf (word key) 24 8 = tag.toNat / 2 ^ 24
    (∀ f : UE, s.Issues v (.twtag f) →
      let idx := fun j => if j = 0 then x.rotor else (x.rotor + j) % n
      (¬drain → exec (.twtag f) s = .next (s.takeFault v ⟨0x1A, (encode (.twtag f)).1, 0, 0⟩ v.pc)) ∧
      (∀ (key : Nat → Nat) m, drain → m < n → (∀ j, j ≤ m → reaches (idx j) .store (key j)) →
        (∀ j, j < m → word (key j) % 4 ≠ 0) → word (key m) % 4 = 0 →
        ∃ u, u = { s with l1 := u.l1, far := u.far, mem := u.mem, ctxs := u.ctxs } ∧
          (∀ c, u.ctxOf c = if c = v.ctx then { x with rotor := (idx m + 1) % n } else s.ctxOf c) ∧
          s.Wrote u v.core (key m) (bytesOfNat 4 (word (key m) + 1)) ∧
          s.GoesSync (.twtag f) u v v.warp
            (answer f (BitVec.ofNat 32 (bitsOf (word (key m)) 24 8 * 2 ^ 24 + idx m))) (v.on 8)) ∧
      (∀ (key : Nat → Nat), drain → (∀ j, j < n → reaches (idx j) .store (key j) ∧ word (key j) % 4 ≠ 0) →
        ∃ u, kept u ∧ s.Wrote u v.core 0 [] ∧ s.GoesSync (.twtag f) u v v.warp (answer f 0xFFFFFFFF) (v.on 8))) ∧
    (∀ f : UE, s.Issues v (.twfree f) →
      let tag := v.s f.a.toNat
      let i := tag.toNat % 2 ^ 24
      (¬drain → exec (.twfree f) s = .next (s.takeFault v ⟨0x1A, (encode (.twfree f)).1, 0, 0⟩ v.pc)) ∧
      (∀ key, drain → reaches i .store key →
        let frees := i < n ∧ live tag key ∨ dead tag key
        (¬frees → exec (.twfree f) s = .next (s.takeFault v ⟨0x05, tag, 0, 0⟩ v.pc)) ∧
        (frees → ∃ u, kept u ∧ s.Wrote u v.core key
            (bytesOfNat 4 ((bitsOf (word key) 24 8 + 1) % 256 * 2 ^ 24 + bitsOf (word key) 2 22 * 4)) ∧
          s.GoesSync (.twfree f) u v v.warp {} (v.on 8)))) ∧
    (∀ f : UE, s.view? = some v →
      let tag := v.s f.a.toNat
      let i := tag.toNat % 2 ^ 24
      let off := v.s f.b.toNat
      let dest := v.s (f.b.toNat + 1)
      let lock := lockOf off false
      let far := [(dest.extractLsb' 22 6).toNat, (dest.extractLsb' 16 6).toNat].find? fun m =>
        m != s.khmod.toNat && (s.peerPort? m).isNone
      s.Checked (.twsend f) v
        [(dest &&& 0xF000FF80 != 0, 0x01, (encode (.twsend f)).1), (decide (f.b.toNat % 2 = 1), 0x02, (encode (.twsend f)).1),
         (decide (off.toNat % 64 ≠ 0), 0x03, off), (!s.scrAllowed v.team off.toNat 1024, 0x05, off), (decide (n ≤ i), 0x05, tag)]
        (∀ key, reaches i .load key → s.Checked (.twsend f) v
          [(bitsOf (word key) 0 1 != 1 || bitsOf (word key) 24 8 != tag.toNat / 2 ^ 24, 0x05, tag),
           (far.isSome, 0x04, BitVec.ofNat 32 (3 * 2 ^ 29 + far.getD 0)), (bitsOf (word key) 1 1 == 1, 0x10, tag),
           ((s.rangesConflict? [lock]).isSome, 0x06, BitVec.ofNat 32 ((s.rangesConflict? [lock]).getD 0))]
          (let port := s.sends.countP fun m => m.core == v.core && m.peer.isNone
           let tile := s.scrBytes (clusterOfCore v.core) off.toNat 1024
           (¬room lock → waits (.twsend f) 12) ∧ (room lock → 16 ≤ port → waits (.twsend f) 13) ∧
           (room lock → port < 16 → ∃ u, u = { (s.modGang v.team.gang fun g => { g with drain := true }) with
               l1 := u.l1, far := u.far, mem := u.mem, nextId := s.nextId + 1, tokens := made none false, rlocks := s.rlocks ++ [lock]
               sends := s.sends ++ [{
                 id := s.nextId, core := v.core, ctx := v.ctx, x := v.sel, mask := v.split.mask, tag := tag
                 op := (f.w1.extractLsb' 0 3).toNat, dest := dest, tile := tile, token := token }] } ∧
             (∀ k, Memory.read u.mem k = s.newest v.core k) ∧
             s.GoesSync (.twsend f) u v v.warp (answer f token) (v.on 8))))) ∧
    (∀ f : UE, s.Issues v (.twrecv f) →
      let tag := v.s f.a.toNat
      let i := tag.toNat % 2 ^ 24
      let off := v.s f.b.toNat
      let lock := lockOf off true
      let mine := s.landings.filter fun l => l.core == v.core
      s.Checked (.twrecv f) v
        [(decide (off.toNat % 64 ≠ 0), 0x03, off), (!s.scrAllowed v.team off.toNat 1024, 0x05, off), (decide (n ≤ i), 0x05, tag)]
        (∀ key, reaches i .load key → s.Checked (.twrecv f) v
          [(bitsOf (word key) 0 1 != 1 || bitsOf (word key) 24 8 != tag.toNat / 2 ^ 24, 0x05, tag),
           ((s.rangesConflict? [lock]).isSome, 0x06, BitVec.ofNat 32 ((s.rangesConflict? [lock]).getD 0)),
           (mine.any fun l => l.ctx == v.ctx && l.tag == tag, 0x11, tag)]
          ((¬room lock → waits (.twrecv f) 12) ∧ (room lock → 32 ≤ mine.length → waits (.twrecv f) 13) ∧
           (room lock → mine.length < 32 → ∃ u, s.Wrote u v.core 0 [] ∧
             s.GoesSync (.twrecv f) u v v.warp (answer f token) (v.on 8) ∧
             (dead tag key → u = { s with
               l1 := u.l1, far := u.far, mem := u.mem, nextId := s.nextId + 1, tokens := made (some 2) true }) ∧
             (¬dead tag key → u = { s with
               l1 := u.l1, far := u.far, mem := u.mem, nextId := s.nextId + 1, tokens := made none true, rlocks := s.rlocks ++ [lock]
               landings := s.landings ++ [⟨s.nextId, v.core, v.ctx, v.sel, tag, off.toNat, token, s.tick⟩] }))))) ∧
    (∀ f : UE, s.Issues v (.twrecvSt f) →
      let known := s.tokens.find? fun t => t.val == v.s f.a.toNat && t.team == v.team.uid
      s.GoesSync (.twrecvSt f) s v v.warp (answer f (BitVec.ofNat 32 (match known with
        | some t => t.status.getD 0
        | none => 1))) (v.on 8))

/-- spec/23 R345, R346, R349 to R351, R354 to R358: a tile reaches the router of its tag: it opens an entry, combines
with the first tile element by element, is turned away for 16 clocks, spills to its overflow slot at the 64th refusal, or
ends with its tag's poison or a mismatch; a router of another module accepts it or gives one of those outcomes. A combined
tile goes to its landing, or waits 64 clocks; an entry too old is an
orphan, which poisons its tag; a landing too old times out; a write of TWTAGS or TWTBASE returns the rotor to 0. The
model's own readings in it: log 21, log 33. -/
def Obligations.TwillRouters : Prop :=
  ∀ (s : State),
    let tokenEnds := fun (val : Word) (status : Nat) =>
      modFirst (fun t : Token => t.val == val && t.status.isNone) (fun t => { t with status := some status }) s.tokens
    let comes := fun (m : TwSend) (e : Instr) => s.sends.find? (·.id == m.id) = some m ∧ m.next ≤ s.clock ∧
      (m.again = false ∧ e = .twillArrival m.id ∨ m.again = true ∧ e = .twillSendRetry m.id)
    let ended := fun (m : TwSend) status =>
      if m.peer.isSome then { s with sends := s.sends.filter (·.id != m.id) }
      else { s with
        sends := s.sends.filter (·.id != m.id), rlocks := s.rlocks.filter (·.op != m.id), tokens := tokenEnds m.token status }
    let later := fun (m : TwSend) lack => { s with
      sends := modFirst (·.id == m.id)
        (fun m => { m with next := s.clock + 16, again := true, tries := if lack then m.tries + 1 else m.tries }) s.sends }
    (∀ (m : TwSend) (e : Instr) (key : Nat), comes m e → s.untroubled m.ctx →
      let x := s.ctxOf m.ctx
      let i := m.tag.toNat % 2 ^ 24
      let router := (i ^^^ i / 2 ^ 6 ^^^ i / 2 ^ 12 ^^^ i / 2 ^ 18) % 64
      let entry := s.meetings.find? fun y => y.router == router && y.ctx == m.ctx && y.tag == m.tag
      let w := natOfBytes (s.homeBytes key 4)
      let fresh : Meeting := {
        id := s.nextId, router := router, ctx := m.ctx, tag := m.tag, combined := false, op := m.op, dest := m.dest
        tile := m.tile, tick := s.tick, senders := [(m.x, m.mask)], spilled := false }
      let stored := s.meetings.countP fun y => y.router == router && !y.spilled
      let spills := s.meetings.countP fun y => y.router == router && y.spilled
      let slot := (x.twOvBase.toNat + 0x800 * i) % 2 ^ 64
      let agree := fun op (dest : Word) => op = m.op ∧ dest &&& 0x003F007F = m.dest &&& 0x003F007F
      (m.dest.extractLsb' 22 6).toNat = s.khmod.toNat → s.xlateNow m.ctx ((x.twtBase.toNat + 4 * i) % 2 ^ 64) .load = .ok key →
      let poisoned := bitsOf w 1 1 = 1 ∧ bitsOf w 24 8 = m.tag.toNat / 2 ^ 24
      (poisoned → exec e s = .next ((ended m 2).deferLowest m.x m.mask 0x10 m.tag)) ∧
      (¬poisoned →
        (entry = none → stored < 512 → exec e s = .next { ended m 1 with nextId := s.nextId + 1, meetings := s.meetings ++ [fresh] }) ∧
        (entry = none → 512 ≤ stored → m.tries < 63 ∨ 4096 ≤ spills → exec e s = .next (later m true)) ∧
        (∀ dst, entry = none → 512 ≤ stored → 63 ≤ m.tries → spills < 4096 → s.xlateNow m.ctx slot .store = .ok dst →
          ∃ t, exec e s = .next t ∧ t.sends = (ended m 1).sends ∧ t.tokens = (ended m 1).tokens ∧
            t.meetings = s.meetings ++ [{ fresh with tile := [], spilled := true }] ∧ t.teams = s.teams ∧
            (t.ctxOf m.ctx).twSpill = x.twSpill + 1 ∧
            ∀ k, Memory.read t.mem k =
              if dst + 0x400 ≤ k ∧ k < dst + 0x400 + m.tile.length then m.tile.getD (k - dst - 0x400) 0
              else if dst ≤ k ∧ k < dst + 64 then (bytesOfNat 4 m.tag.toNat ++ bytesOfNat 4 m.op ++ bytesOfNat 4 m.dest.toNat ++
                bytesOfNat 4 s.tick ++ bytesOfNat 48 0).getD (k - dst) 0
              else Memory.read s.mem k) ∧
        (∀ y, entry = some y → y.combined = true → exec e s = .next (later m false)) ∧
        (∀ y, entry = some y → y.combined = false → y.spilled = false →
          (agree y.op y.dest → ∃ c, exec e s = .next { ended m 1 with
            meetings := modFirst (·.id == y.id) (fun _ => { y with
              combined := true, tile := c, senders := y.senders ++ [(m.x, m.mask)] }) s.meetings } ∧
            c = combineTiles m.op y.tile m.tile) ∧
          (¬agree y.op y.dest → exec e s = .next (((m.x, m.mask) :: y.senders).foldl
            (fun u z => u.deferLowest z.1 z.2 0x11 m.tag) { ended m 3 with meetings := s.meetings.filter (·.id != y.id) }))) ∧
        (∀ y src, entry = some y → y.combined = false → y.spilled = true → s.xlateNow m.ctx slot .load = .ok src →
          s.xlateNow m.ctx slot .store = .ok src →
          agree (bitsOf (fieldAt (s.homeBytes src 12) 4 4) 0 3) (BitVec.ofNat 32 (fieldAt (s.homeBytes src 12) 8 4)) →
          ∃ t, exec e s = .next t ∧ t.sends = (ended m 1).sends ∧ t.tokens = (ended m 1).tokens ∧ t.teams = s.teams ∧
            t.meetings = modFirst (·.id == y.id) (fun _ => { y with
              combined := true, tile := [], senders := y.senders ++ [(m.x, m.mask)] }) s.meetings ∧
            s.Stored t (src + 0x400) (combineTiles m.op (s.homeBytes (src + 0x400) 1024) m.tile)))) ∧
    (∀ op (x y : List Byte), op < 6 → x.length = 1024 → y.length = 1024 →
      let n := if op = 1 then 2 else if op = 5 then 16 else 4
      (combineTiles op x y).length = 1024 ∧ ∀ i, i < 1024 / n →
        let a := fieldAt x (n * i) n
        let b := fieldAt y (n * i) n
        fieldAt (combineTiles op x y) (n * i) n =
          if op = 0 then (fp32.opAdd {} a b).1 else if op = 1 then (bf16.opAdd {} a b).1
          else if op = 3 then (fp32.opMinMax true a b).1 else if op = 4 then (fp32.opMinMax false a b).1
          else (a + b) % 2 ^ (8 * n)) ∧
    (∀ (m : TwSend) (e : Instr), comes m e → s.refused = [] → (m.dest.extractLsb' 22 6).toNat ≠ s.khmod.toNat →
      let drawn := fun (u : State) => { u with freeCtr := s.freeCtr + 1 }
      exec e s = .next { drawn (ended m 1) with abroad := s.abroad ++ [m] } ∨ exec e s = .next (drawn (later m false)) ∨
        exec e s = .next ((drawn (ended m 2)).deferLowest m.x m.mask 0x10 m.tag) ∨
        exec e s = .next ((drawn (ended m 3)).deferLowest m.x m.mask 0x11 m.tag) ∨
        ∃ code info, code ∈ [0x04, 0x05] ∧ exec e s = .next ((drawn (ended m 5)).deferWarp m.x.team m.x.warp code info)) ∧
    (∀ (y : Meeting) (e : Instr),
      (s.meetings.find? fun z => z.router == y.router && z.ctx == y.ctx && z.tag == y.tag) = some y →
      y.combined = true ∧ (y.retryAt = 0 ∧ e = .twillDelivery y.router y.ctx y.tag ∨
        y.retryAt ≠ 0 ∧ y.retryAt ≤ s.clock ∧ e = .twillDeliveryRetry y.router y.ctx y.tag) →
      let later := fun (u : State) => { u with
        meetings := modFirst (·.id == y.id) (fun _ => { y with retryAt := s.clock + 64 }) s.meetings }
      let here := (y.dest.extractLsb' 16 6).toNat = s.khmod.toNat
      let landing := s.landings.find? fun l => l.core == (y.dest.extractLsb' 0 7).toNat && l.ctx == y.ctx && l.tag == y.tag
      (¬here → exec e s = .next { s with freeCtr := s.freeCtr + 1, meetings := s.meetings.filter (·.id != y.id) } ∨
        exec e s = .next (later { s with freeCtr := s.freeCtr + 1 })) ∧
      (here → landing = none → exec e s = .next (later s)) ∧
      (∀ l src tile, here → landing = some l →
        (y.spilled = false ∧ tile = y.tile ∨ y.spilled = true ∧ s.untroubled y.ctx ∧ tile = s.homeBytes (src + 0x400) 1024 ∧
          s.xlateNow y.ctx (((s.ctxOf y.ctx).twOvBase.toNat + 0x800 * (y.tag.toNat % 2 ^ 24)) % 2 ^ 64) .load = .ok src) →
        ∃ t, exec e s = .next t ∧ t = { s with
            meetings := s.meetings.filter (·.id != y.id), scratch := t.scratch
            landings := s.landings.filter (·.id != l.id), rlocks := s.rlocks.filter (·.op != l.id)
            tokens := tokenEnds l.token 1 } ∧
          ∀ k, Memory.read t.scratch k =
            let first := scrKey (clusterOfCore l.core) l.off
            if first ≤ k ∧ k < first + tile.length then tile.getD (k - first) 0 else Memory.read s.scratch k)) ∧
    (∀ (y : Meeting) key,
      (s.meetings.find? fun z => z.router == y.router && z.ctx == y.ctx && z.tag == y.tag) = some y →
      let x := s.ctxOf y.ctx
      let old := x.twOrph ≠ 0xFFFFFFFF ∧ y.tick + x.twOrph.toNat ≤ s.tick
      let e := Instr.twillOrphan y.router y.ctx y.tag
      (¬old → exec e s = .next s) ∧
      (old → s.untroubled y.ctx → s.xlateNow y.ctx ((x.twtBase.toNat + 4 * (y.tag.toNat % 2 ^ 24)) % 2 ^ 64) .store = .ok key →
        ∃ t, exec e s = .next t ∧ t.meetings = s.meetings.filter (·.id != y.id) ∧ t.teams = s.teams ∧
          (t.ctxOf y.ctx).twOrphN = x.twOrphN + 1 ∧ (t.ctxOf y.ctx).fqSeq = x.fqSeq + 1 ∧
          (x.fqRoom = false →
            let w := natOfBytes (s.homeBytes key 4)
            s.Stored t key (if bitsOf w 24 8 = y.tag.toNat / 2 ^ 24 ∧ bitsOf w 1 1 = 0 then bytesOfNat 4 (w + 2) else [])) ∧
          let landing := s.landings.find? fun l =>
            (y.dest.extractLsb' 16 6).toNat == s.khmod.toNat && l.core == (y.dest.extractLsb' 0 7).toNat && l.ctx == y.ctx &&
              l.tag == y.tag
          (landing = none → t.landings = s.landings ∧ t.tokens = s.tokens) ∧
          (∀ l, landing = some l → t.landings = s.landings.filter (·.id != l.id) ∧ t.tokens = tokenEnds l.token 2))) ∧
    (∀ l, s.landings.find? (·.id == l.id) = some l →
      let limit := (s.ctxOf l.ctx).twOrph
      let due := limit ≠ 0xFFFFFFFF ∧ l.tick + limit.toNat ≤ s.tick
      (due → exec (.twillLandingTimeout l.id) s = .next { s with
        landings := s.landings.filter (·.id != l.id), rlocks := s.rlocks.filter (·.op != l.id), tokens := tokenEnds l.token 4 }) ∧
      (¬due → exec (.twillLandingTimeout l.id) s = .next s)) ∧
    (∀ c isBase d, ∃ t, exec (.twtagsWrite c isBase d) s = .next t ∧ t = { s with ctxs := t.ctxs } ∧ ∀ k, t.ctxOf k =
      if k ≠ c then s.ctxOf k else if isBase then { s.ctxOf c with twtBase := d, rotor := 0 }
      else { s.ctxOf c with twTags := d.truncate 32 &&& 0xFFFFFF, rotor := 0 })

/-- spec/25 R369 to R376: MBPUT and MBGET check, wait for a lock and for the port, and send their request, MBPUT with its
register held until the answer and after a release, MBGET with a token in sd; MBSTAT reads a pair or a token. An action is
answered by the state of its pair, and accepted it begins the next step; a get takes the observation, or waits for it in an
OBSWAIT pair; an ENDED pair is FREE after 1,000 ticks. The model's own readings in it: log 6, log 32. -/
def Obligations.StepMailboxes : Prop :=
  ∀ (s : State) (v : View),
    let foreign := fun n => decide ((s.pair n).st ≠ .free ∧ (s.pair n).owner ≠ v.ctx)
    let answer := fun (f : UE) (r : Word) => Writes.uniform v.split.mask f.d.toNat r 0
    let port := s.mbReqs.countP (fun m => m.core == v.core) +
      s.pairs.countP fun p => (p.2.landing.map fun m => m.core == v.core).getD false
    let room := fun (lock : RLock) => s.deadConflict [lock] = false ∧ (s.rlocks.filter (·.core == v.core)).length < 64
    let conflict := fun (lock : RLock) =>
      ((s.rangesConflict? [lock]).isSome, 0x06, BitVec.ofNat 32 ((s.rangesConflict? [lock]).getD 0))
    let token := BitVec.ofNat 32 s.nextId ^^^ Config.tokenMask
    let committed := s.modGang v.team.gang fun g => { g with drain := true }
    let request := fun (f : UE) put (header : BitVec 64) payload pair (token : Word) (off : Word) trap => {
      id := s.nextId, core := v.core, ctx := v.ctx, x := v.sel, mask := v.split.mask, put := put, header := header
      payload := payload, pair := pair, sd := f.d.toNat, token := token, off := off.toNat, trap := trap : MbReq }
    let code := fun (st : PairSt) => match st with | .free => 0 | .obsWait => 1 | .obsReady => 2 | .actWait => 3 | .ended => 4
    (∀ f : UE, s.Issues v (.mbput f) → s.noAtoms v → s.unrecorded → s.memoryOk → s.poison = [] →
      let word := v.s (f.b.toNat + 1)
      let off := v.s f.b.toNat
      let len := (word.extractLsb' 16 13).toNat
      let pair := (word.extractLsb' 0 14).toNat
      let lock : RLock := ⟨s.nextId, v.core, true, off.toNat, off.toNat + len, false, false⟩
      s.Checked (.mbput f) v
        [(word &&& 0xE000C000 != 0 || decide (4096 < len) || decide (len % 4 ≠ 0), 0x01, word),
         (decide (off.toNat % 16 ≠ 0), 0x03, off), (foreign pair, 0x05, BitVec.ofNat 32 pair),
         (!s.scrAllowed v.team off.toNat len, 0x05, off), conflict lock]
        ((1023 ≤ v.warp.st → exec (.mbput f) s = .next (s.stall v 3)) ∧
         (v.warp.st < 1023 → ¬room lock → exec (.mbput f) s = .next (s.stall v 12)) ∧
         (v.warp.st < 1023 → room lock → 16 ≤ port → exec (.mbput f) s = .next (s.stall v 14)) ∧
         (v.warp.st < 1023 → room lock → port < 16 → ∃ u, u = { committed with
             l1 := u.l1, far := u.far, mem := u.mem, nextId := s.nextId + 1, rlocks := s.rlocks ++ [lock]
             mbReqs := s.mbReqs ++ [request f true (v.s64 f.a.toNat) (s.scrBytes (clusterOfCore v.core) off.toNat len) pair 0 off
               (f.sub.getLsbD 0)] } ∧
           (∀ k, Memory.read u.mem k = s.newest v.core k) ∧
           s.GoesSync (.mbput f) u v { v.warp with
             st := v.warp.st + 1, holds := v.warp.holds ++ [⟨s.nextId, [], [f.d.toNat], false, 1⟩] } {} (v.on 8)))) ∧
    (∀ f : UE, s.Issues v (.mbget f) →
      let word := v.s f.a.toNat
      let off := v.s f.b.toNat
      let pair := (word.extractLsb' 0 14).toNat
      let lock : RLock := ⟨s.nextId, v.core, true, off.toNat, off.toNat + 4160, true, false⟩
      s.Checked (.mbget f) v
        [(word.extractLsb' 14 18 != 0, 0x01, word), (decide (off.toNat % 64 ≠ 0), 0x03, off),
         (foreign pair, 0x05, BitVec.ofNat 32 pair), (!s.scrAllowed v.team off.toNat 4160, 0x05, off), conflict lock]
        ((¬room lock → exec (.mbget f) s = .next (s.stall v 12)) ∧
         (room lock → 16 ≤ port → exec (.mbget f) s = .next (s.stall v 14)) ∧
         (room lock → port < 16 → s.GoesSync (.mbget f)
           { committed with
             nextId := s.nextId + 1, rlocks := s.rlocks ++ [lock], tokens := s.tokens ++ [⟨token, v.team.uid, none, true⟩]
             mbReqs := s.mbReqs ++ [request f false 0 [] pair token off false] }
           v v.warp (answer f token) (v.on 8)))) ∧
    (∀ f : UE, s.Issues v (.mbstat f) →
      let x := v.s f.a.toNat
      let p := s.pair x.toNat
      let known := s.tokens.find? fun t => t.val == x && t.team == v.team.uid
      (f.sub.getLsbD 0 = true → s.GoesSync (.mbstat f) s v v.warp (answer f (BitVec.ofNat 32 (match known with
        | some t => t.status.getD 15
        | none => 0))) (v.on 8)) ∧
      (f.sub.getLsbD 0 = false → s.Checked (.mbstat f) v [(x.extractLsb' 14 18 != 0, 0x01, x), (foreign x.toNat, 0x05, x)]
        (s.GoesSync (.mbstat f) s v v.warp
          (answer f (BitVec.ofNat 32 (code p.st * 2 ^ 28 + p.last % 16 * 2 ^ 24 + p.step % 2 ^ 24))) (v.on 8)))) ∧
    (∀ (m : MbReq) (w : Warp), s.mbReqs.find? (·.id == m.id) = some m → m.put = true → s.warpAt m.x.team m.x.warp = some w →
      w.partitioned →
      let p := s.pair m.pair
      let status := (m.header.extractLsb' 0 4).toNat
      let pver := (m.header.extractLsb' 4 16).toNat
      let inStep := (m.header.extractLsb' 44 20).toNat = p.episode ∧ (m.header.extractLsb' 20 24).toNat = (p.step + 1) % 2 ^ 24
      let version := ∃ e, s.episode? m.pair = some e ∧
        (e.follow = false ∧ pver = e.pver ∨ e.follow = true ∧ ∀ l, e.lastPver = some l → l ≤ pver)
      let answered := fun (outcome : Nat) (u : State) => ∃ t w1, exec (.mailboxActionArrival m.id) s = .next t ∧
        t = { u with mbReqs := s.mbReqs.filter (·.id != m.id), rlocks := s.rlocks.filter (·.op != m.id), teams := t.teams } ∧
        w.Slices w1 (fun k sl => if m.mask.getLsbD k then sl.setS m.sd (BitVec.ofNat 32 outcome) else sl) ∧
        t.warpAt m.x.team m.x.warp = some { w1 with
          st := w.st - 1, holds := w.holds.filter (·.id != m.id)
          splits := if m.trap = true ∧ outcome = 4 then
              w.splits.map fun sp => { sp with deferred := sp.deferred ++ [⟨0x12, BitVec.ofNat 32 m.pair, 0, s.clock, true, 0⟩] }
            else w.splits }
      (p.st = .free → answered 5 s) ∧ (p.st = .obsWait → answered 4 s) ∧
      (p.st = .obsReady ∨ p.st = .ended → p.terminal ≠ some 0 → answered (p.terminal.getD 4) s) ∧
      (p.st = .actWait → ¬inStep → answered 4 s) ∧ (p.st = .actWait → inStep → ¬version → answered 3 s) ∧
      (p.st = .actWait → inStep → version → 1 < status → answered 4 s) ∧
      (∀ e, p.st = .actWait → inStep → version → status = 0 → s.episode? m.pair = some e → e.waiting = none → e.ending = none →
        answered 0 ((s.setPair m.pair { p with
          st := .obsWait, step := (p.step + 1) % 2 ^ 24, obsPver := pver, action := some (m.header, m.payload) }).modEpisode m.pair
            fun e => { e with lastPver := some pver }))) ∧
    (∀ (m : MbReq), s.mbReqs.find? (·.id == m.id) = some m → m.put = false →
      let p := s.pair m.pair
      let ends := fun status => { s with
        mbReqs := s.mbReqs.filter (·.id != m.id), rlocks := s.rlocks.filter (·.op != m.id)
        tokens := modFirst (fun t => t.val == m.token && t.status.isNone) (fun t => { t with status := some status }) s.tokens }
      let e := Instr.mailboxGetArrival m.id
      let takes := fun status (q : Pair) => ∃ t, exec e s = .next t ∧
        t = { ends status with scratch := t.scratch, pairs := t.pairs, episodes := t.episodes } ∧
        t.episodes = (if p.terminal = none then s.episodes else s.episodes.filter (·.pair != m.pair)) ∧
        (∀ n, t.pair n = if n = m.pair then q else s.pair n) ∧
        ∀ k, Memory.read t.scratch k =
          let first := scrKey (clusterOfCore m.core) m.off
          let head : BitVec 64 := BitVec.ofNat 20 p.episode ++ BitVec.ofNat 24 p.step ++ BitVec.ofNat 16 p.obsPver ++ BitVec.ofNat 4 status
          let bs := bytesOfNat 8 head.toNat ++ bytesOfNat 4 p.obs.length ++ bytesOfNat 52 0 ++ p.obs
          if first ≤ k ∧ k < first + bs.length then bs.getD (k - first) 0 else Memory.read s.scratch k
      (p.st = .free → exec e s = .next (ends 5)) ∧ (p.st = .actWait → exec e s = .next (ends 4)) ∧
      (p.st = .ended → exec e s = .next (ends (p.terminal.getD 5))) ∧
      (∀ l, p.st = .obsWait → p.landing = some l → exec e s = .next (ends 4)) ∧
      (p.st = .obsWait → p.landing = none → exec e s =
        .next ({ s with mbReqs := s.mbReqs.filter (·.id != m.id) }.setPair m.pair { p with landing := some m })) ∧
      (p.st = .obsReady → p.terminal = none → takes 0 { p with st := .actWait, landing := none }) ∧
      (∀ status, p.st = .obsReady → p.terminal = some status → takes status { p with
        st := .ended, landing := none, endTick := s.tick })) ∧
    (∀ n, let p := s.pair n
      let due := p.st = .ended ∧ p.endTick + 1000 ≤ s.tick
      (due → exec (.pairRelease n) s = .next (s.setPair n { last := p.last })) ∧
      (¬due → exec (.pairRelease n) s = .next s))

/-- spec/25 R360 to R368, R370, R371: an accepted EPQTAIL takes effect; a descriptor at EPQHEAD makes an episode with its
pair, which starts at ENTRY, or a record; an episode ends by EPKILL, by a budget, by a fault or by its environment, and its
end record lies in memory once its terminal observation is posted; a core's time slice ends after 1,000 ticks; calls answer
in a0 and a1; a user address goes through the tables of satp; an instruction of user code is fetched at its pc, accesses
memory within its window and spends the budget, and an ecall is the call that a7 names. The model's own readings in it: log
22, log 23, log 32, log 35, log 60. -/
def Obligations.Episodes : Prop :=
  ∀ (s : State),
    let onDie := fun (e f : Episode) => e.pair / 4096 = f.pair / 4096
    let idle := fun (e : Episode) => e.waiting = none ∧ e.ending = none ∧ e.posted = false
    let runs := fun (n : Nat) (e : Episode) => s.episode? n = some e ∧ e.core.isSome = true ∧ idle e
    let retires := fun (f : Episode → Episode) (e : Episode) => { f e with ibud := e.ibud.map (· - 1) }
    let called := fun (f : Episode → Episode) (e : Episode) => { f e with pc := e.pc + 4, ibud := e.ibud.map (· - 1) }
    let gives := fun (i : Instr) (n : Nat) (f : Episode → Episode) => exec i s = .next ((s.unrefuse (.episode n)).modEpisode n (called f))
    let ends := fun (i : Instr) (n status : Nat) (payload : Option (List Byte)) => ∀ (e : Episode) key,
      let p := s.pair n
      let head : BitVec 64 := BitVec.ofNat 20 p.episode ++ BitVec.ofNat 24 p.step ++ BitVec.ofNat 16 p.obsPver ++ BitVec.ofNat 4 status
      s.episode? n = some e → e.posted = false → e.ending = none → s.untroubled e.ctx → p.st ≠ .free → p.st ≠ .ended →
      (p.st = .obsReady → p.terminal = none) → s.xlateNow e.ctx e.result .store = .ok key →
      ∃ t, exec i s = .next t ∧ s.Stored t key (bytesOfNat 8 head.toNat ++ bytesOfNat 8 e.value.toNat) ∧ t.teams = s.teams ∧
        (∀ m, m ≠ n → t.pair m = s.pair m) ∧
        (p.st = .obsReady → t.pair n = { p with terminal := some status, last := status }) ∧
        (p.st ≠ .obsReady → p.landing = none →
          t.pair n = { p with st := .obsReady, terminal := some status, last := status, obs := payload.getD [] }) ∧
        (∀ m, p.st ≠ .obsReady → p.landing = some m → t.pair n = { p with
          st := .ended, terminal := some status, last := status, obs := payload.getD [], landing := none, endTick := s.tick }) ∧
        (t.episode? n = none ∨ payload.isSome = true ∧ ∃ e', t.episode? n = some e' ∧ e'.posted = true)
    (∀ c d, let x := s.ctxOf c
      let fits := x.epqOn = true ∧ (d - x.epqHead).toNat ≤ x.epqSize.toNat
      (fits → exec (.epqtailWrite c d) s = .next (s.wake.modCtx c fun x => { x with epqTail := d })) ∧
      (¬fits → exec (.epqtailWrite c d) s = .next (s.wake.modCtx c fun x => { x with qerr := x.qerr ||| 0x400 }))) ∧
    (∀ c key r, let x := s.ctxOf c
      let addr := (x.epqBase.toNat + 64 * (x.epqHead.toNat % x.epqSize.toNat)) % 2 ^ 64
      let bs := s.homeBytes key 64
      let word := fun o => fieldAt bs o 4
      let wbase := fieldAt bs 0 8
      let wsize := fieldAt bs 8 8
      let entry := fieldAt bs 16 8
      let n := bitsOf (word 0x24) 0 14
      let good := bitsOf (word 0x20) 18 14 = 0 ∧ bitsOf (word 0x24) 14 18 = 0 ∧ fieldAt bs 0x34 12 = 0 ∧ wbase % 4096 = 0 ∧
        canonical wbase = true ∧ wsize % 4096 = 0 ∧ 4096 ≤ wsize ∧ wsize ≤ 2 ^ 34 ∧ wbase ≤ entry ∧ entry < wbase + wsize ∧
        fieldAt bs 0x28 8 % 16 = 0 ∧ (s.pair n).st = .free
      let reward := bitsOf (word 0x20) 17 1 = 1
      let budget := fun v unit => if v = 0xFFFFFFFF then none else some (v * unit)
      ((x.epqOn = false ∨ x.epqHead = x.epqTail ∨ Pte.v x.ptRoot = false) → exec (.episodeCreate c) s = .next s) ∧
      (x.epqOn = true → x.epqHead ≠ x.epqTail → Pte.v x.ptRoot = true → s.untroubled c → s.xlateNow c addr .load = .ok key →
        (¬good → exec (.episodeCreate c) s =
          .next ((s.modCtx c fun x => { x with epqHead := x.epqHead + 1 }).faultRecord c 5 0 0 0 addr 0)) ∧
        (good → s.bindWeights c (BitVec.ofNat 32 (word 0x30)) (.queue c 8) = (s, r) → r ≠ .waits →
          ∃ t, exec (.episodeCreate c) s = .next t ∧ t.mem = s.mem ∧ t.teams = s.teams ∧
            t.ctxOf c = { x with epqHead := x.epqHead + 1, epNext := (x.epNext + 1) % 2 ^ 20 } ∧
            t.pair n = { st := if reward then .actWait else .obsWait, owner := c, episode := x.epNext, last := (s.pair n).last } ∧
            t.episodes.length = s.episodes.length + 1 ∧ ∃ e ∈ t.episodes, e = {
              pair := n, ctx := c, num := x.epNext, wbase := wbase, wsize := wsize, entry := entry
              tbud := budget (word 0x18) 1, ibud := budget (word 0x1C) 1024, reward := decide reward
              follow := decide (bitsOf (word 0x20) 16 1 = 1), pver := bitsOf (word 0x20) 0 16, result := fieldAt bs 0x28 8
              bound := match r with | .ok k _ => some k | _ => none
              order := s.nextId, core := e.core, sliceEnd := e.sliceEnd
              pc := BitVec.ofNat 64 entry, satp := Config.episodeSatp x.epNext }))) ∧
    (∀ c d e, (s.episodes.find? fun e => e.ctx == c && e.num == d.toNat && !e.posted) = some e → s.episode? e.pair = some e →
      ends (.epkill c d) e.pair 5 none) ∧
    (∀ c d, (s.episodes.find? fun e => e.ctx == c && e.num == d.toNat && !e.posted) = none → exec (.epkill c d) s = .next s) ∧
    (∀ n e, s.episode? n = some e →
      (e.tbud = some 0 → ends (.episodeTickBudgetExpiry n) n 2 none) ∧
      (e.tbud ≠ some 0 → exec (.episodeTickBudgetExpiry n) s = .next s) ∧
      (e.ibud = some 0 → ends (.episodeInstrBudgetExpiry n) n 2 none) ∧
      (e.ibud ≠ some 0 → exec (.episodeInstrBudgetExpiry n) s = .next s)) ∧
    (∀ core e w, let die := e.pair / 4096
      (s.episodes.find? fun e => dieOfPair e.pair == die && e.core == some core) = some e → s.episode? e.pair = some e →
      (s.tick < e.sliceEnd → exec (.episodeTimeslice die core) s = .next s) ∧
      (e.sliceEnd ≤ s.tick → core < 16 → (s.episodes.map (·.pair)).Nodup → s.episode? w.pair = some w → onDie w e → idle w →
        w.core = none → w.order < s.nextId →
        (∀ f ∈ s.episodes, onDie f e → idle f → f.core = none → f = w ∨ w.order < f.order) →
        (∀ c, c < 16 → ∃ f ∈ s.episodes, onDie f e ∧ f.core = some c) →
        (∀ f ∈ s.episodes, onDie f e → f.core = some core → f = e) →
        ∃ t, exec (.episodeTimeslice die core) s = .next t ∧
          t = { s with nextId := s.nextId + 1, pmp := t.pmp, episodes := t.episodes } ∧
          (∀ c, t.pmpOf c = if c = 16 * die + core then openPmp else s.pmpOf c) ∧
          t.episode? w.pair = some { w with core := some core, sliceEnd := s.tick + 1000 } ∧
          t.episode? e.pair = some { e with core := none, resv := none, order := s.nextId } ∧
          ∀ n, n ≠ w.pair → n ≠ e.pair → t.episode? n = s.episode? n)) ∧
    -- the translation of user mode
    (∀ (e : Episode) kind va,
      ((e.satp.extractLsb' 60 4).toNat = 0 → s.sv39 e va kind = (s, .ok va)) ∧
      ((e.satp.extractLsb' 60 4).toNat = 8 → signedOf 39 va ≠ signedOf 64 va → s.sv39 e va kind = (s, .bad)) ∧
      (∀ k2 k1 k0, (e.satp.extractLsb' 60 4).toNat = 8 → signedOf 39 va = signedOf 64 va → s.untroubled e.ctx →
        let entry := fun (ppn level key : Nat) =>
          let at' := ppn * 4096 + 8 * bitsOf va (12 + 9 * level) 9
          s.pmpGrants e .load at' 8 = true ∧ s.xlateNow e.ctx (globalAddr at') .load = .ok key
        let pte := fun key => natOfBytes (s.homeBytes key 8)
        let next := fun key => bitsOf (pte key) 10 44
        let points := fun key => pte key % 16 = 1 ∧ bitsOf (pte key) 54 10 = 0
        entry (e.satp.extractLsb' 0 44).toNat 2 k2 → points k2 → entry (next k2) 1 k1 → points k1 → entry (next k1) 0 k0 →
        -- V, U and A; R, W and D, or X, as the access asks
        (bitsOf (pte k0) 54 10 = 0 → pte k0 % 2 = 1 → bitsOf (pte k0) 4 1 = 1 → bitsOf (pte k0) 6 1 = 1 → (match kind with
          | .load => bitsOf (pte k0) 1 1 = 1
          | .store => bitsOf (pte k0) 1 2 = 3 ∧ bitsOf (pte k0) 7 1 = 1
          | .fetch => bitsOf (pte k0) 1 3 = 4 ∨ bitsOf (pte k0) 1 3 = 5 ∨ bitsOf (pte k0) 1 3 = 7) →
          s.sv39 e va kind = (s, .ok (globalAddr (next k0 * 4096 + va % 4096)))) ∧
        (bitsOf (pte k0) 4 1 = 0 ∨ pte k0 % 2 = 0 → s.sv39 e va kind = (s, .bad)))) ∧
    (∀ n e, runs n e →
      ends (.episodeFault n) n 6 none ∧
      (∀ payload len status r, let i := Instr.epObsPost n payload len status
        let bad := r = .bad ∨ 4096 < len.toNat ∨ len.toNat % 4 ≠ 0 ∨ 1 < status.toNat
        s.bufferOk e .load (userPieces (len.toNat / 4096 + 2) payload.toNat len.toNat) = (s, r) → r ≠ .waits →
        (bad → gives i n (·.setX 10 (-1))) ∧
        (¬bad → (s.pair n).st ≠ .obsWait → gives i n (·.setX 10 (-2))) ∧
        (∀ a key bs, ¬bad → (s.pair n).st = .obsWait → s.untroubled e.ctx →
          (len = 0 ∧ bs = [] ∨ s.UserAt e .load payload.toNat len.toNat a key ∧ bs = s.homeBytes key len.toNat) →
          (status = 1 → ends i n 1 (some bs)) ∧
          (status = 0 → (s.pair n).landing = none → ∃ asks, exec i s = .next (({ s with asks := asks }.modEpisode n
            (called (·.setX 10 0))).setPair n { s.pair n with st := .obsReady, terminal := none, last := 0, obs := bs })))) ∧
      (∀ buf cap r, let i := Instr.epActWait n buf cap
        let blocked := called fun e => { e with waiting := some (buf.toNat, cap.toNat), order := s.nextId, core := none, resv := none }
        let woken := fun (t : State) (f : Episode → Episode) => exec i s = .next t ∧ t.teams = s.teams ∧
          ∃ e', t.episode? n = some e' ∧
            e' = { called f e with order := s.nextId + 1, resv := none, core := e'.core, sliceEnd := e'.sliceEnd }
        s.bufferOk e .store (userPieces (cap.toNat / 4096 + 2) buf.toNat cap.toNat) = (s, r) → r ≠ .waits →
        (r = .bad → gives i n (·.setX 10 (-1))) ∧
        (r = .ok () → (s.pair n).action = none → ∃ t, exec i s = .next t ∧ t.teams = s.teams ∧ t.mem = s.mem ∧
          t.pairs = s.pairs ∧ t.episode? n = some (blocked e)) ∧
        (∀ h payload, r = .ok () → (s.pair n).action = some (h, payload) → s.untroubled e.ctx →
          (cap.toNat < payload.length → ∃ t, t.mem = s.mem ∧ t.pairs = s.pairs ∧ woken t (·.setX 10 (-3))) ∧
          (∀ a key, payload.length ≤ cap.toNat → s.UserAt { e with core := none } .store buf.toNat payload.length a key →
            ∃ t, s.Stored t key payload ∧ t.pair n = { s.pair n with action := none } ∧
              woken t fun e => (e.setX 10 (BitVec.ofNat 64 payload.length)).setX 11 h))) ∧
      (∀ d, (e.reward = true → gives (.epReward n d) n fun e => { e.setX 10 0 with value := d }) ∧
        (e.reward = false → gives (.epReward n d) n (·.setX 10 (-4)))) ∧
      (∃ ctr x y, exec (.epBudget n) s = .next (({ s with freeCtr := ctr }.unrefuse (.episode n)).modEpisode n
          (called fun e => (e.setX 10 x).setX 11 y)) ∧
        (∀ k, e.tbud = some k → x = BitVec.ofNat 64 k) ∧ ∀ k, e.ibud = some k → y = BitVec.ofNat 64 (k / 1024)) ∧
      (∃ ctr x, exec (.epLogver n) s = .next (({ s with freeCtr := ctr }.unrefuse (.episode n)).modEpisode n
          (called (·.setX 10 x))) ∧
        ∀ k, e.lastPver = some k → x = BitVec.ofNat 64 k) ∧
      (∀ core, s.untroubled e.ctx → e.core = some core →
        let i := Instr.sorghumInstruction n core
        (s.UserBad e .fetch e.pc.toNat 2 → ends i n 6 none) ∧
        ∀ w len, s.UserFetch e w len →
          let goes := fun (f : Episode → Episode) => ∃ asks, exec i s = .next ({ s with asks := asks }.modEpisode n (retires f))
          let moved := fun (f : Episode → Episode) (e : Episode) => { f e with pc := e.pc + BitVec.ofNat 64 len }
          let writes := fun key bs (f : Episode → Episode) => ∃ t, exec i s = .next t ∧ s.Stored t key bs ∧ t.teams = s.teams ∧
            t.scratch = s.scratch ∧ t.episodes = (s.modEpisode n (retires (moved f))).episodes
          match e.rvStep w len with
          | .done e' => goes fun _ => e'
          | .load va k dest => (va % k = 0 → s.UserBad e .load va k → ends i n 6 none) ∧
            ∀ a key, va % k = 0 → s.UserAt e .load va k a key → goes (moved (·.loaded dest (s.homeBytes key k)))
          | .store va k data => (va % k = 0 → s.UserBad e .store va k → ends i n 6 none) ∧
            ∀ a key, va % k = 0 → s.UserAt e .store va k a key → writes key (bytesOfNat k data) id
          | .amo op va k src rd => (va % k ≠ 0 ∨ s.UserBad e .store va k → ends i n 6 none) ∧
            ∀ a key, va % k = 0 → s.UserAt e .store va k a key →
              writes key (bytesOfNat k (rvAmo op k (natOfBytes (s.homeBytes key k)) src)) (·.loaded (.signed rd) (s.homeBytes key k))
          | .loadReserved va k rd => (va % k ≠ 0 ∨ s.UserBad e .load va k → ends i n 6 none) ∧
            ∀ a key, va % k = 0 → s.UserAt e .load va k a key → goes (moved fun e =>
              { e.loaded (.signed rd) (s.homeBytes key k) with resv := some (key, s.homeBytes key k) })
          | .storeCond va k src rd => (va % k ≠ 0 ∨ s.UserBad e .store va k → ends i n 6 none) ∧
            ∀ a key, va % k = 0 → s.UserAt e .store va k a key →
              (e.resv = some (key, s.homeBytes key k) →
                writes key (bytesOfNat k src) fun e => { e.setX rd 0 with resv := none }) ∧
              (e.resv ≠ some (key, s.homeBytes key k) → goes (moved fun e => { e.setX rd 1 with resv := none }))
          | .fence => goes (moved id)
          | .ecall => ∃ asks, exec i s = exec (match (e.x 17).toNat with
              | 0 => .epObsPost n (e.x 10) (e.x 11) (e.x 12)
              | 1 => .epActWait n (e.x 10) (e.x 11)
              | 2 => .epReward n (e.f 10)
              | 3 => .epBudget n
              | 4 => .epLogver n
              | _ => .episodeFault n) { s with asks := asks }
          | .illegal => ends i n 6 none))

/-- spec/01 R19 to R21, spec/19 R300, R301, R304 to R308, R312, R315, R417: an accepted QTAIL takes effect, and queue
registers change only while the queue is empty; a serving unit takes the next record, refuses a bad one, and parks one
whose counter is not 0 until it is; each task goes to the cluster of its die with the most free slots, is placed where it
fits, and is bypassed at most 64 times; a staging copy that a page stops gives its task back; idle clusters steal. The
model's own readings in it: log 20, log 39. -/
def Obligations.LaunchRecordsAndTasks : Prop :=
  ∀ (s : State),
    (∀ c p d, let q := (s.ctxOf c).queue p
      let tail : Word := d.truncate 32
      let fits := q.enabled = true ∧ (tail - q.head).toNat ≤ q.size.toNat
      (fits → exec (.qtailWrite c p d) s = .next (s.wake.modCtx c fun x => x.setQueue p { q with tail := tail })) ∧
      (¬fits → exec (.qtailWrite c p d) s = .next (s.wake.modCtx c fun x =>
        { x with qerr := x.qerr ||| BitVec.ofNat 32 (2 ^ p) }))) ∧
    (∀ c p isBase d, let q := (s.ctxOf c).queue p
      let idle := q.head = q.tail ∧ s.asked c (.queue c p) = false
      (idle → exec (.queueReconfigure c p isBase d) s = .next (s.modCtx c fun x =>
        x.setQueue p (if isBase then { q with base := d &&& ~~~0x7F } else { q with size := d }))) ∧
      (¬idle → exec (.queueReconfigure c p isBase d) s = .next (s.modCtx c fun x =>
        { x with qerr := x.qerr ||| BitVec.ofNat 32 (2 ^ (4 + p)) }))) ∧
    (∀ die, s.offers die = [] → exec (.takeLaunchRecord die) s = .next s) ∧
    (∀ die c p src rest key, s.offers die = (c, p, src) :: rest → s.untroubled c →
      let x := s.ctxOf c
      let addr := x.recordAddr src
      let bs := s.homeBytes key 128
      let who := Requester.queue c (match src with | .host p => p | .spawned => 4 + p)
      let good := recordOk bs x.depSize.toNat (match src with | .host p => some p | .spawned => none)
      let reached := match src with | .host p => canonical (x.queue p).base.toNat = true | .spawned => True
      let u := (s.modCtx c fun x => { x.advance src with qerr := (x.advance src).qerr ||| 0x200 }).faultRecord c 3 0 0 0 addr 0
      let refused := ∃ asks, exec (.takeLaunchRecord die) s =
        .next { u with nextId := s.nextId + 1, qServed := Tab.put 0 s.qServed (4 * c + p) s.nextId, asks := asks }
      (¬reached → refused) ∧
      (reached → s.xlateNow c addr .load = .ok key →
      (good = false → refused) ∧
      (∀ ds, good = true → s.unitReads c who (descReads bs) = (s, .ok ds) →
        (recordOf s.nextId c addr bs ds = none → refused) ∧
        (∀ r (count : Option Nat), recordOf s.nextId c addr bs ds = some r →
          (recWait bs = none ∧ count = none ∨ ∃ i k, recWait bs = some i ∧
            s.xlateNow c (x.depBase.toNat + 4 * i) .load = .ok k ∧ count = some (natOfBytes (s.homeBytes k 4))) →
          let ready := count.getD 0 == 0
          ready = true ∨ s.parked (c % 4) < 1024 →
          ∃ t, exec (.takeLaunchRecord die) s = .next t ∧ t.records = s.records ++ [{ r with ready := ready }] ∧
            t = { s with
              nextId := s.nextId + 1, records := t.records, qServed := Tab.put 0 s.qServed (4 * c + p) s.nextId, ctxs := t.ctxs
              asks := t.asks } ∧
            ∀ k, t.ctxOf k = if k = c then x.advance src else s.ctxOf k)))) ∧
    (∀ r, (s.records.find? fun q => q.uid == r.uid && !q.ready) = some r →
      (∀ i key, r.wait = some i → s.xlateNow r.ctx ((s.ctxOf r.ctx).depBase.toNat + 4 * i) .load = .ok key →
        (natOfBytes (s.homeBytes key 4) = 0 → exec (.parkedRecordReady r.uid) s = .next { s with
          records := modFirst (·.uid == r.uid) (fun r => { r with ready := true }) s.records }) ∧
        (natOfBytes (s.homeBytes key 4) ≠ 0 → exec (.parkedRecordReady r.uid) s = .next s))) ∧
    (∀ die cl r, cl / 8 = die → (∀ k, k / 8 = die → s.freeSlots k ≤ s.freeSlots cl ∧ (s.freeSlots k = s.freeSlots cl → cl ≤ k)) →
      (s.freeSlots cl = 0 ∨ s.nextReady die = none → exec (.sendTask die) s = .next s) ∧
      (0 < s.freeSlots cl → s.nextReady die = some r →
        (r ∈ s.records ∧ r.ready = true ∧ r.sent < r.count ∧ r.ctx % 4 = die ∧ ∀ q ∈ s.records,
          q.ready = true → q.sent < q.count → q.ctx % 4 = die → q.prio < 4 → q.prio ≤ r.prio) ∧
        exec (.sendTask die) s = .next { s with
          nextId := s.nextId + 1, sServed := Tab.put 0 s.sServed (4 * r.ctx + r.prio) s.nextId
          tasks := s.tasks ++ [{
            uid := s.nextId, record := r.uid, idx := r.sent, ctx := r.ctx, prio := r.prio, cluster := cl, arrival := s.nextId
            tick := s.tick }]
          records := modFirst (·.uid == r.uid) (fun r => { r with sent := r.sent + 1 }) s.records })) ∧
    (∀ cl (t : Task) r c0 scr pipes early rest, s.waitingTasks cl = early ++ t :: rest → (∀ u ∈ early, u.bypassed < 64) →
      let stuck := 64 ≤ t.bypassed
      let bypassed := if stuck then [] else early
      (¬stuck → (∀ u ∈ rest, u.bypassed < 64) ∧ ∀ u ∈ early, ∀ q, s.record? u.record = some q → s.placement? u q = none) →
      s.record? t.record = some r → s.placement? t r = some (c0, scr, pipes) → t.uid ∉ bypassed.map (·.uid) →
      ∃ u, ∃ copies : List CopyOp, exec (.placeTask cl) s = .next u ∧ copies.length = (t.tiles r scr pipes).length ∧
        u = { s with nextId := s.nextId + copies.length, copies := s.copies ++ copies, tasks := u.tasks } ∧
        (∀ j i dst, (t.tiles r scr pipes)[j]? = some (i, dst) → copies[j]? = some ({
          id := s.nextId + j, core := 4 * t.cluster + (c0 + i.team % min r.kernels.length 4) % 4, engine := j % 2, ctx := t.ctx
          x := ⟨0, 0, 0⟩, token := 0, kind := .cpy false true i.rows i.rowb
          src := (i.addr + i.tstride * BitVec.ofNat 64 t.idx).toNat, dst := dst, ix := 0, spitch := i.pitch, dpitch := i.rowb
          rot := 0, staging := some t.uid } : CopyOp)) ∧
        u.tasks = (s.tasks.map fun (k : Task) =>
            if k.uid ∈ bypassed.map (·.uid) then { k with bypassed := k.bypassed + 1 } else k).filter (·.uid != t.uid) ++
          [{ t with st := .staged c0 scr pipes (copies.map (·.id)), bypassed := 0, oldTeams := [] }]) ∧
    (∀ cl (t : Task) early rest, s.waitingTasks cl = early ++ t :: rest → (∀ u ∈ early, u.bypassed < 64) → 64 ≤ t.bypassed →
      (∀ r, s.record? t.record = some r → s.placement? t r = none) → exec (.placeTask cl) s = .next s) ∧
    (∀ taken n b, 0 < n → (firstFit taken n = some b → b + n ≤ 2 ^ 22 ∧ ∀ x ∈ taken, x.2 = 0 ∨ b + n ≤ x.1 ∨ x.1 + x.2 ≤ b) ∧
      ((firstFit taken n = none) → ¬(n ≤ 2 ^ 22 ∧ ∀ x ∈ taken, x.2 = 0 ∨ n ≤ x.1 ∨ x.1 + x.2 = 0))) ∧
    (∀ (t : Task) c u stop, s.task? t.uid = some t → (s.copies.filter fun c => c.staging == some t.uid && c.runs) = [c] →
      s.copyRun c = (u, some stop) → u.task? t.uid = some t → ((u.ctxOf t.ctx).reqs.map (·.id)).Nodup →
      let stopped := u.copies.map fun k => if k.staging == some t.uid then { k with dead := true } else k
      ∃ v, exec (.stagingCopyFault t.uid) s = .next v ∧ v.copies = stopped ∧ v.teams = u.teams ∧
        (match stop with
         | .fault _ _ _ => v.task? t.uid = none ∧ (v.ctxOf t.ctx).fqSeq = (u.ctxOf t.ctx).fqSeq + 1
         | .notPresent va level _ => ∃ q, v.task? t.uid = some { t with st := .held q.id, tick := u.tick } ∧
             q ∈ (v.ctxOf t.ctx).reqs ∧ .staging t.uid va ∈ q.who ∧ (q.lo, q.size) = regionOf va level)) ∧
    (∀ cl, let idle := ¬(∃ t ∈ s.tasks, t.cluster = cl ∧ t.st.started = false) ∧ ¬∃ x ∈ s.steals, x.1 = cl
      (idle → exec (.stealRequest cl) s = .next ({ s with steals := s.steals ++ [(cl, (cl + 1) % 32)] }.sendOver
        (dieOfCluster cl) (dieOfCluster ((cl + 1) % 32)) ⟨.steal cl, []⟩)) ∧
      (¬idle → exec (.stealRequest cl) s = .next s)) ∧
    (∀ cl thief, s.steals.find? (·.2 == cl) = some (thief, cl) →
      let n := s.tasks.countP fun t => t.cluster == cl && t.st == .unplaced && t.work == .compute
      let gone := removeFirst (· == (thief, cl)) s.steals
      (cl = thief → exec (.stealRequestArrival cl) s = .next { s with steals := gone }) ∧
      (cl ≠ thief → n = 0 → exec (.stealRequestArrival cl) s = .next ({ s with
        steals := gone ++ [(thief, (cl + 1) % 32)] }.sendOver
          (dieOfCluster cl) (dieOfCluster ((cl + 1) % 32)) ⟨.steal thief, []⟩)) ∧
      (cl ≠ thief → n ≠ 0 → ∃ go : List Nat, go.length ≤ (n + 1) / 2 ∧ go.length ≤ s.freeSlots thief ∧
        (∀ k ∈ s.tasks, k.uid ∈ go → ∃ g ∈ s.tasks, g.uid = k.uid ∧ g.cluster = cl ∧ g.st = .unplaced ∧ g.kept = [] ∧
          g.work = .compute) ∧
        exec (.stealRequestArrival cl) s = .next { s with
          steals := gone
          links := (go.foldl (fun s uid => s.sendOver (dieOfCluster cl) (dieOfCluster thief) ⟨.work uid, []⟩) s).links
          tasks := s.tasks.map fun k => if k.uid ∈ go then { k with cluster := thief, tick := s.tick, bypassed := 0 } else k }))

/-- spec/03 R44, R45, R48, R57, R59, spec/19 R310, R313, R314, R318, R323, R324, R416: a staged task starts as a gang
once it fits, each team with fresh warps whose splits stand at the entry; a team leaves once its warps are dead and its
operations done, and the last one ends its gang and completes the task; a gang whose bound runs out is removed; HOLD
pre-empts a context's gangs and KILL removes them. The model's own readings in it: log 6, log 20. -/
def Obligations.GangsAndTeams : Prop :=
  ∀ (s : State),
    (∀ (t : Task) r c0 scr pipes, s.task? t.uid = some t → t.st = .staged c0 scr pipes [] → s.record? t.record = some r →
      (s.ctxOf t.ctx).dbgCtl.getLsbD 4 = false → (∀ g ∈ s.gangs, g.uid < s.nextId) →
      let starts := (s.ctxOf t.ctx).hold = false ∧ s.oldest t r c0 = true ∧ s.roomFor t r c0 = true
      (¬starts → exec (.gangStart t.uid) s = .next s) ∧
      (starts → ∃ u g, exec (.gangStart t.uid) s = .next u ∧ g.uid = s.nextId ∧ u.gangs = s.gangs ++ [g] ∧ g.ctx = t.ctx ∧
        g.gangId = BitVec.ofNat 32 s.nextId ^^^ Config.gangMask ∧ g.cluster = t.cluster ∧ g.task = t.uid ∧ g.drain = r.drain ∧
        g.teams = (List.range r.kernels.length).map (s.nextId + 1 + ·) ∧
        u.tasks = modFirst (·.uid == t.uid) (fun t => { t with st := .running s.nextId, kept := [] }) s.tasks ∧
        (∀ p ∈ r.pipes, ∃ q ∈ g.pipes, q.num = p.num ∧ (q ∈ t.kept ∨
          let full := r.inputs.countP fun i => i.pipe == some p.num
          q.durable = p.durable ∧ q.sbytes = p.sbytes ∧ q.cons = 0 ∧ q.prod = full % p.slots ∧
          q.slots = (List.range p.slots).map fun i => (if i < full then PipeSt.full else .free, none))) ∧
        u.teams.length = s.teams.length + r.kernels.length ∧
        ∀ j k, r.kernels[j]? = some k → ∃ b, u.teams[s.teams.length + j]? = some b ∧ b.uid = s.nextId + 1 + j ∧
          b.ctx = t.ctx ∧ b.gang = g.uid ∧ b.num = j ∧ b.core = 4 * t.cluster + (c0 + j % min r.kernels.length 4) % 4 ∧
          b.taskIdx = t.idx ∧ b.prod = k.prod ∧ b.scrBase = scr.getD j 0 ∧ b.scrBytes = k.scr ∧ b.entry = k.entry ∧
          b.inst ≠ 0 ∧ b.flags = 0 ∧ b.fctl = 0 ∧ b.tbase = 0xFFFFFFFF ∧ b.bars = List.replicate k.bars {} ∧
          b.warps.length = k.warps ∧ (t.work = .compute → ∀ n w, b.warps[n]? = some w → w.num = n ∧
            w.role = (if n < k.prod then 0 else 1) ∧ w.vbound = (if n < k.prod then k.pvb else k.cvb) ∧
            w.budget = (if n < k.prod then k.pbud else k.cbud) ∧
            w.splits = [{ mask := 0xFF, pc := k.entry, parent := 0, lastIssue := s.clock }] ∧
            (∀ q l, w.v q l = 0) ∧ (∀ q l, q < 7 → w.p q l = false) ∧
            ∀ i, i < 8 → (w.sl i).live = 0xF ∧ (w.sl i).act = 0xF ∧ ∀ q, (w.sl i).s q = r.args.getD q 0))) ∧
    (∀ (b : Team), s.team? b.uid = some b → s.unrecorded → s.memoryOk → s.poison = [] →
      let leaves := (∀ w ∈ b.warps, w.dead = true) ∧ s.teamBusy b.uid = false
      (¬leaves → exec (.teamExit b.uid) s = .next s) ∧
      (leaves → ∃ u, exec (.teamExit b.uid) s = .next u ∧ u.teams = s.teams.filter (·.uid != b.uid) ∧
        (pow2In 16 (2 ^ 24) (s.ctxOf b.ctx).trSize.toNat = false → (∃ c ∈ s.teams, c.uid ≠ b.uid ∧ c.gang = b.gang) →
          u.gangs = s.gangs ∧ u.tasks = s.tasks ∧ ∀ k, Memory.read u.mem k = s.newest b.core k) ∧
        (∀ g t r, (∀ c ∈ s.teams, c.gang = b.gang → c.uid = b.uid) → s.gang? b.gang = some g → g.killed = false →
          s.task? g.task = some t → s.record? t.record = some r →
          u.gangs = s.gangs.filter (·.uid != g.uid) ∧ u.tasks = s.tasks.filter (·.uid != t.uid) ∧
          ∀ q ∈ u.records, (q.uid = r.uid → q = { r with left := r.left - 1 } ∨ q ∈ s.records) ∧ (q.uid ≠ r.uid → q ∈ s.records)))) ∧
    (∀ uid n w, s.warpAt uid n = some w →
      let free := w.dead = true ∧ s.warpBusy uid n = false
      (free → exec (.warpBudgetReturn uid n) s = .next (s.modWarp uid n fun w => { w with returned := true })) ∧
      (¬free → exec (.warpBudgetReturn uid n) s = .next s)) ∧
    (∀ (t : Task), s.task? t.uid = some t → (s.gangs.map (·.uid)).Nodup →
      let victim := fun (g : Gang) => g.cluster = t.cluster ∧ g.drain = false ∧ g.prio < 3
      let waited := t.prio = 3 ∧ t.st = .unplaced ∧ (s.ctxOf t.ctx).hold = false ∧ t.tick + 10000 ≤ s.tick
      (¬waited → exec (.priorityPreempt t.uid) s = .next s) ∧
      (waited → ∃ u, exec (.priorityPreempt t.uid) s = .next u ∧ (∀ g ∈ u.gangs, g ∈ s.gangs) ∧
        (∀ g ∈ s.gangs, ¬victim g → g ∈ u.gangs) ∧ (u.taskFits t.uid = true ∨ ∀ g ∈ u.gangs, ¬victim g) ∧
        (s.taskFits t.uid = true → u = s) ∧
        ∀ g ∈ s.gangs, g ∉ u.gangs → (∀ b ∈ u.teams, b.gang ≠ g.uid) ∧ ∀ h ∈ u.gangs, victim h → h.started ≤ g.started)) ∧
    (∀ (g : Gang), s.gang? g.uid = some g → s.named →
      let due := (∃ k, g.drainAt = some k ∧ k ≤ s.tick) ∧ ∀ b ∈ s.teams, b.gang = g.uid → b.halted = false
      (¬due → exec (.preemptDrainExpiry g.uid) s = .next s) ∧
      (due → ∃ u, exec (.preemptDrainExpiry g.uid) s = .next u ∧ u.gangs = s.gangs.filter (·.uid != g.uid) ∧
        u.teams = s.teams.filter (·.gang != g.uid) ∧ u.tasks = s.tasks.filter (·.uid != g.task) ∧
        ((∃ b ∈ s.teams, b.gang = g.uid) → (u.ctxOf g.ctx).fqSeq = (s.ctxOf g.ctx).fqSeq + 1))) ∧
    (∀ c, exec (.ctxctlHold c false) s = .next (s.modCtx c fun x => { x with hold := false })) ∧
    (∀ c, (s.ctxOf c).hold = true → exec (.ctxctlHold c true) s = .next s) ∧
    (∀ c, (s.ctxOf c).hold = false → s.named → (s.gangs.map (·.uid)).Nodup → (s.tasks.map (·.uid)).Nodup →
      ∃ u, exec (.ctxctlHold c true) s = .next u ∧ (u.ctxOf c).hold = true ∧ (∀ g ∈ s.gangs, g.ctx ≠ c → g ∈ u.gangs) ∧
        (∀ g ∈ s.gangs, g.ctx = c →
          let halted := ∃ b ∈ s.teams, b.gang = g.uid ∧ b.halted = true
          (g.drain = false → (∀ h ∈ u.gangs, h.uid ≠ g.uid) ∧ ∀ b ∈ u.teams, b.gang ≠ g.uid) ∧
          (g.drain = true → halted → { g with pending := true } ∈ u.gangs) ∧
          (g.drain = true → ¬halted → { g with
              pending := false
              drainAt := if (s.ctxOf c).drainB = 0xFFFFFFFF then none else some (s.tick + (s.ctxOf c).drainB.toNat) } ∈ u.gangs ∧
            ∀ b ∈ u.teams, b.gang = g.uid → b.preempt = true)) ∧
        ∀ t ∈ s.tasks, t.ctx = c → (∃ c0 scr ps cs, t.st = .staged c0 scr ps cs) → (∀ g ∈ s.gangs, g.task ≠ t.uid) →
          { t with st := .unplaced, tick := s.tick } ∈ u.tasks) ∧
    (∀ c, ∃ u, (∀ g ∈ u.gangs, g ∈ s.gangs ∧ g.ctx ≠ c) ∧ (∀ b ∈ u.teams, b ∈ s.teams ∧ ∀ g ∈ s.gangs, g.ctx = c → b.gang ≠ g.uid) ∧
      (u.ctxOf c).kill = true ∧ (u.ctxOf c).fqSeq = (s.ctxOf c).fqSeq + BitVec.ofNat 32 (s.teams.countP (·.ctx == c)) ∧
      ((∀ e ∈ s.episodes, e.ctx = c → e.posted = true) → exec (.ctxctlKill c) s = .next u) ∧
      (∀ e, (s.episodes.filter fun e => e.ctx == c && !e.posted) = [e] →
        exec (.ctxctlKill c) s = .next (u.endEpisode e.pair 5 none))) ∧
    (∀ c, exec (.ctxctlKillDone c) s = .next (s.modCtx c fun x => { x with kill := false }))

/-- spec/01 R10 to R18, R22, R23, R29, spec/07 R99, R119, R126, spec/13 R231, spec/15 R252, R260, R267, spec/23 R351,
R356: what ends or goes on beside the instructions: a WAITC is evaluated again, or ends at its time limit, loads and stores
complete, L1 writes a line back, an abandoned copy stops, a copy meets a page; a request goes to its port or to the far
cache, is accepted in the turn of its source, held at its crosspoint, granted in the order of the ports, and parked while
its line fills; columns sleep and wake; a link delivers a message when its last beat is sound, those of one source and
granule in order; accesses from outside act at the home, or wake the module. The model's own readings in it: log 4, log 5,
log 10, log 12, log 47, log 54, log 55, log 61. -/
def Obligations.CompletionsAndTraffic : Prop :=
  ∀ (s : State),
    (∀ (x : Sel) (v : View) (r : WaitcRun), s.viewOf? x = some v → v.split.waitc = some r →
      let f := r.f
      let codes := waitcCodes f.w1
      let kind := fun (c : BitVec 8) => (c.extractLsb' 5 3).toNat
      let limit := (v.s f.a.toNat).toNat
      let late := limit ≠ 0xFFFFFFFF ∧ limit ≠ 0 ∧ r.start + limit < s.tick
      let past := limit ≠ 0xFFFFFFFF ∧ r.start + limit ≤ s.tick
      let rests := r.seen ≠ [] ∧ s.clock < r.last + 16
      let hs := (codes.zip (r.seen ++ List.replicate 4 false)).map fun y => if kind y.1 < 4 then s.codeHolds v y.1 else y.2
      let used := (codes.zip hs).filter fun y => kind y.1 != 0
      let sat := if f.sub.getLsbD 0 then used.all (·.2) else used.any (·.2)
      let ends := fun (i : Instr) (u : State) (b : Bool) =>
        let u' := if codes.any (s.codeAcquires v) then u.acquire v.core 3 else u
        ∃ t, exec i s = .next (t.chunkAfter v) ∧
          u'.Retires t v v.warp (Writes.flag v.split.mask (f.d.extractLsb' 0 3).toNat b 0) (v.on 8)
      let times := fun (i : Instr) (u : State) => (f.sub.getLsbD 1 = false → ends i u false) ∧
        (f.sub.getLsbD 1 = true → ∃ info : Word, exec i s = .next (u.takeFault v ⟨0x15, info, 0, 0⟩ v.pc) ∧
          ∀ n c, codes[n]? = some c → info.getLsbD n = (kind c != 0 && hs.getD n false))
      let again := fun (i : Instr) => (sat = true → ¬late → ends i s true) ∧ ((sat = false ∨ late) → past → times i s) ∧
        (sat = false → ¬past → exec i s = .next ((s.setWaitc v .waitc (some { r with
          last := if rests then r.last else s.clock, seen := hs })).chunkAfter v))
      -- evaluated in every clock, memory no sooner than 16 clocks after it was read
      (v.split.wait = .waitc → ((∀ c ∈ codes, kind c < 4) ∨ late ∨ rests) →
        again (.waitcReread x) ∧ (past → again (.waitcExpiry x)) ∧ (¬past → exec (.waitcExpiry x) s = .next s)) ∧
      -- ended in the middle of a translation
      (∀ n, v.split.wait = .walk n → exec (.waitcReread x) s = .next s ∧ (¬past → exec (.waitcExpiry x) s = .next s) ∧
        (past → limit ≠ 0 → times (.waitcExpiry x) (s.dropAccess v.sel)))) ∧
    (∀ x, (∀ v, s.viewOf? x = some v → v.split.waitc = none) →
      exec (.waitcReread x) s = .next s ∧ exec (.waitcExpiry x) s = .next s) ∧
    (∀ (m : MemOp) (w : Warp), s.memOps.find? (·.id == m.id) = some m → m.atoms = [] → s.warpAt m.x.team m.x.warp = some w →
      let gone := s.memOps.filter (·.id != m.id)
      let kept := w.holds.filter (·.id != m.id)
      (m.isLoad = true → (∀ x ∈ m.vwrites, x.2.1 < 32) → m.vwrites.Pairwise (fun x y => ¬(x.1 = y.1 ∧ x.2.1 = y.2.1)) →
        (m.swrites.map (·.1)).Nodup → ∃ u w', u = { s with memOps := gone, teams := u.teams } ∧
          u.warpAt m.x.team m.x.warp = some w' ∧
          w' = { w with entries := w'.entries, slices := w'.slices, ld := w.ld - 1, holds := kept } ∧
          (∀ x ∈ m.vwrites, w'.v x.1 x.2.1 = x.2.2) ∧
          (∀ r l, l < 32 → (∀ x ∈ m.vwrites, ¬(x.1 = r ∧ x.2.1 = l)) → w'.v r l = w.v r l) ∧
          (∀ k x, k < 8 → m.dest.getLsbD k = true → x ∈ m.swrites → (w'.sl k).s x.1 = x.2) ∧
          (∀ k r, (m.dest.getLsbD k = false ∨ ∀ x ∈ m.swrites, x.1 ≠ r) → (w'.sl k).s r = (w.sl k).s r) ∧
          (∀ b, s.team? m.x.team = some b → ∃ b', u.team? m.x.team = some b' ∧
            b'.flags = (if m.retInv.isSome then b.flags ||| flagINV else b.flags) ∧
            exec (.loadComplete m.id) s = .next (match m.retInv with
              | some lane => if fctlTRAPINV m.fctl then u.deferLowest m.x m.mask 0x0D 1 lane else u
              | none => u))) ∧
      (m.isLoad = false → ∃ u, exec (.storeComplete m.id) s = .next u ∧ u = { s with memOps := gone, teams := u.teams } ∧
        u.warpAt m.x.team m.x.warp = some { w with st := w.st - 1, holds := kept })) ∧
    (∀ core line, s.unrecorded → s.memoryOk → ∃ u, exec (.l1Writeback core line) s = .next u ∧
      (∀ k, Memory.read u.mem k = if k / 256 = line then s.newest core k else Memory.read s.mem k) ∧
      (∀ c k, (Tab.find? (u.l1Of c) k).map (·.data) = (Tab.find? (s.l1Of c) k).map (·.data)) ∧
      (∀ k b, k / 256 = line → Tab.find? (u.l1Of core) k = some b → b.dirty = false)) ∧
    (∀ (c : CopyOp), s.copies.find? (·.id == c.id) = some c → c.dead = true →
      ∃ u, exec (.abandonedOperationStopped c.id) s = .next u ∧ u.copies = s.copies.filter (·.id != c.id) ∧
        u.rlocks = s.rlocks.filter (·.op != c.id) ∧ u.teams = s.teams) ∧
    (∀ (c : CopyOp), s.copies.find? (·.id == c.id) = some c → c.dead = false → c.staging = none → c.waitFor = none →
      let failed := fun (u : State) (code : Nat) (info : Word) => ∃ t, exec (.copyEngineFault c.id) s = .next t ∧
        t.copies = u.copies.filter (·.id != c.id) ∧ t.rlocks = u.rlocks.filter (·.op != c.id) ∧ t.mem = u.mem ∧
        (∀ tok, u.tokens.find? (fun x => x.val == c.token && x.team == c.x.team) = some tok →
          t.tokens.find? (fun x => x.val == c.token && x.team == c.x.team) = some { tok with status := some 1 }) ∧
        ∀ w, u.warpAt c.x.team c.x.warp = some w → w.partitioned → t.warpAt c.x.team c.x.warp = some { w with
          cp := w.cp - 1, splits := w.splits.map fun sp => { sp with deferred := sp.deferred ++ [⟨code, info, 0, u.clock, true, 0⟩] } }
      (∀ code info, c.failed = some (code, info) → failed s code info) ∧
      (∀ u, c.failed = none → s.copyRun c = (u, none) → exec (.copyEngineFault c.id) s = .next s) ∧
      (∀ u code info va, c.failed = none → s.copyRun c = (u, some (.fault code info va)) → failed u code info) ∧
      (∀ u va level write b g, c.failed = none → s.copyRun c = (u, some (.notPresent va level write)) →
        u.team? c.x.team = some b → u.gang? b.gang = some g → ∃ t, exec (.copyEngineFault c.id) s = .next t ∧
          (g.drain = false → (∀ h ∈ t.gangs, h.uid ≠ g.uid) ∧ ∀ d ∈ t.teams, d.gang ≠ g.uid) ∧
          (g.drain = true → t.teams = u.teams ∧ ∃ q ∈ (t.ctxOf c.ctx).reqs, (q.lo, q.size) = regionOf va level ∧
            ∃ k ∈ t.copies, k.id = c.id ∧ k.waitFor.isSome = true))) ∧
    (∀ (r : XReq), let k := 64 * r.src.die + r.line % 64
      (r.home = r.src.die → ∃ u, s.route r = u ∧ u = { s with ports := u.ports } ∧ ∀ q, u.port q =
        if q = 64 * r.home + r.src.port then { s.port q with waiting := (s.port q).waiting ++ [r] } else s.port q) ∧
      (r.home ≠ r.src.die → r.home < 4 → ∃ u, s.route r = u ∧ u = { s with farBanks := u.farBanks } ∧ ∀ q,
        Tab.get [] u.farBanks q = if q = k then Tab.get [] s.farBanks q ++ [r] else Tab.get [] s.farBanks q)) ∧
    (∀ (p : Port) r, p.next? = some r → r ∈ p.waiting ∧ p.waiting.find? (·.src == r.src) = some r ∧
      (r.src ∈ p.served → ∀ q ∈ p.waiting, q.src ∈ p.served ∧ p.served.idxOf r.src ≤ p.served.idxOf q.src)) ∧
    (∀ die port line, let slice := 32 * (line % 3) + (line ^^^ (line / 2 ^ 5) ^^^ (line / 2 ^ 10) ^^^ (line / 2 ^ 15)) % 32
      let p := s.port (64 * die + port)
      let turn := fun (r : XReq) => p.next? = some r ∧ r.home = die ∧ r.port = port ∧ r.line = line
      ((∀ r, ¬turn r) → exec (.xbarRequest die port line) s = .next s) ∧
      (∀ r, turn r → ∃ u, exec (.xbarRequest die port line) s = .next u ∧ u = { s with ports := u.ports, cols := u.cols } ∧
        (∀ k, u.port k = if k = 64 * die + port then
            { waiting := removeFirst (· == r) p.waiting, served := p.served.filter (· != r.src) ++ [r.src] }
          else s.port k) ∧
        ∀ k, u.col k = if k = 96 * die + slice then
            let c := s.col k
            { c with
              held := c.held ++ [{ r with at' := s.clock }]
              idleAt := if c.power = .off s.clock then s.clock else c.idleAt
              power := match c.power with
                | .off since => if since = s.clock then .on else .waking (s.clock + 8)
                | p => p }
          else s.col k)) ∧
    (∀ (c : Column) clock, c.power = .on →
      let d := c.clockOf clock
      let older := c.held.filter fun r => decide (r.at' < clock)
      (∀ r, (∀ q ∈ c.replay, q.line ∉ c.lines) → c.replay.length < 32 → r.port ∈ c.prio →
        older.find? (·.port == r.port) = some r → (∀ p ∈ c.prio.takeWhile (· != r.port), ∀ q ∈ older, q.port ≠ p) →
        d.1.granted = some r ∧ d.1.held = removeFirst (· == r) c.held ∧ d.1.prio = c.prio.filter (· != r.port) ++ [r.port] ∧
        (r.line ∈ c.lines → d.2 = some r ∧ d.1.replay = c.replay ∧ d.1.filling = c.filling) ∧
        (r.line ∉ c.lines → d.2 = none ∧ d.1.replay = c.replay ++ [r] ∧ r.line ∈ d.1.filling)) ∧
      (∀ r, c.replay.find? (fun q => c.lines.contains q.line) = some r →
        d = ({ c with replay := removeFirst (· == r) c.replay }, some r)) ∧
      (32 ≤ c.replay.length → (∀ r ∈ c.replay, r.line ∉ c.lines) → d = (c, none))) ∧
    (∀ die slice line, let k := 96 * die + slice
      let becomes := fun (i : Instr) (c : Column) => ∃ u, exec i s = .next u ∧ u = { s with cols := u.cols } ∧
        ∀ j, u.col j = if j = k then c else s.col j
      let c := s.col k
      (line ∈ c.filling → c.lines.length < 4096 → becomes (.l2FillComplete die slice line) { c with
        filling := c.filling.filter (· != line), lines := c.lines ++ [line] }) ∧
      (line ∉ c.filling → becomes (.l2FillComplete die slice line) c) ∧
      (let rests := c.power = .on ∧ c.held = [] ∧ c.idleAt + 64 ≤ s.clock
       (rests → becomes (.columnPowerDown die slice) { c with power := .off s.clock }) ∧
       (¬rests → becomes (.columnPowerDown die slice) c)) ∧
      (∀ ready, c.power = .waking ready →
        (ready ≤ s.clock → becomes (.columnPowerUpComplete die slice) { c with power := .on, idleAt := s.clock }) ∧
        (s.clock < ready → becomes (.columnPowerUpComplete die slice) c))) ∧
    (∀ (l : Link) n m, l.ready? n = some m → l.msgs[n]? = some m ∧
      ∀ k, m.cargo.order = some k → ∀ o ∈ l.msgs.take n, o.cargo.order ≠ some k) ∧
    (∀ src dst n, let l := s.link src dst
      let i := fun ok => Instr.d2dBeatReceive src dst ⟨n, ok⟩
      let sound := fun (f : Link → Link) => s.modLink src dst fun l => { f l with
        delivered := l.delivered + 1, retrying := false }
      let taken := sound fun l => { l with msgs := l.msgs.eraseIdx n }
      (∀ ok, l.ready? n = none → exec (i ok) s = .next s) ∧
      (∀ m, l.ready? n = some m →
        exec (i false) s = .next (s.modLink src dst fun l => { l with retrying := true }) ∧
        (64 < m.data.length → exec (i true) s = .next (sound fun l => { l with
          msgs := modNth (fun m => { m with data := m.data.drop 64 }) n l.msgs })) ∧
        (m.data.length ≤ 64 → (∀ r, m.cargo ≠ .request r) → exec (i true) s = .next taken) ∧
        ∀ r, m.data.length ≤ 64 → m.cargo = .request r →
          (r.home = dst → exec (i true) s = .next (taken.modPort (64 * dst + r.port) fun p => { p with waiting := p.waiting ++ [r] })) ∧
          (r.home ≠ dst → exec (i true) s = .next (taken.sendOver dst r.src.die
            ⟨.answer r, if r.write then [] else s.homeBytes r.key 64⟩)))) ∧
    (∀ (a : HostAccess) (b : PeerReq) (link : Nat) up,
      let works := s.fwState = 1 ∧ s.pwrState = 0
      let sleeps := s.fwState = 1 ∧ s.pwrState ≠ 0
      let linked := b.link < 8 ∧ s.linkUp.getLsbD b.link = true
      let stores := fun (i : Instr) (key n : Nat) (x : BitVec 128) => ∃ u, exec i s = .next u ∧
        u = { s with mem := u.mem, poison := u.poison, asks := u.asks } ∧ s.Stored u key (bytesOfNat n x.toNat)
      let loads := fun (i : Instr) => ∃ asks, exec i s = .next { s with asks := asks }
      let key := fun home pa => home * 2 ^ 52 + pa
      let inside := fun home pa n => home < 4 ∧ n ≤ 16 ∧ pa + n ≤ 192 * 2 ^ 30
      let access := b.kind = .load ∨ b.kind = .store ∨ ∃ oc, b.kind = .atomic oc
      (s.fwState ≠ 1 → exec (.cxlMemAccess a) s = .next s) ∧
      (s.fwState ≠ 1 ∨ ¬linked → exec (.peerAccess b) s = .next s) ∧
      -- the access wakes the module and waits for M0
      (sleeps → exec (.cxlMemAccess a) s = .next { s.wake with waking := s.waking ++ [.cxlMemAccess a] }) ∧
      (sleeps → linked → exec (.peerAccess b) s = .next { s.wake with waking := s.waking ++ [.peerAccess b] }) ∧
      (works → ¬inside a.home a.pa a.bytes → exec (.cxlMemAccess a) s = .next s) ∧
      (works → inside a.home a.pa a.bytes → (a.data = none → loads (.cxlMemAccess a)) ∧
        ∀ d, a.data = some d → stores (.cxlMemAccess a) (key a.home a.pa) a.bytes d) ∧
      (works → linked → access → ¬inside b.home b.pa b.bytes → exec (.peerAccess b) s = .next s) ∧
      (works → linked → inside b.home b.pa b.bytes → (b.kind = .load → loads (.peerAccess b)) ∧
        (b.kind = .store → stores (.peerAccess b) (key b.home b.pa) b.bytes b.x) ∧
        ∀ oc, b.kind = .atomic oc → stores (.peerAccess b) (key b.home b.pa) b.bytes (BitVec.ofNat 128
          (atomEval oc b.bytes (natOfBytes (s.homeBytes (key b.home b.pa) b.bytes)) b.x.toNat b.y.toNat))) ∧
      (∀ source core ctx tag op dest tile, works → linked → b.kind = .send source core ctx tag op dest tile →
        exec (.peerAccess b) s = .next { s with
          nextId := s.nextId + 1
          sends := s.sends ++ [{
            id := s.nextId, core := core, ctx := ctx, x := ⟨0, 0, 0⟩, mask := 0, tag := tag, op := op.toNat, dest := dest
            tile := tile, token := 0, next := s.clock, peer := some source }] }) ∧
      (∀ ctx tag dest tile, works → linked → b.kind = .deliver ctx tag dest tile →
        (s.landing? ctx tag dest = none → exec (.peerAccess b) s = .next s) ∧
        ∀ l, s.landing? ctx tag dest = some l → exec (.peerAccess b) s = .next (s.landed l tile)) ∧
      (link < 8 → ∃ u, exec (.murusLinkChange link up) s = .next u ∧ u = { s with linkUp := u.linkUp, routes := u.routes } ∧
        (∀ i, u.linkUp.getLsbD i = if i = link then up else s.linkUp.getLsbD i) ∧
        ∀ e, e ∈ u.routes ↔ e ∈ s.routes ∧ (up = true ∨ e.2 ≠ link)) ∧
      (8 ≤ link → exec (.murusLinkChange link up) s = .next s))

/-- spec/29 R399 to R404: a walk gives its page to the TLBs and lets the accesses that wait try again, raises PAGE at a bad
entry, and asks the page service where nothing is mapped: a drain team's access is parked, a flush gang is discarded. An
answer frees the request: a retry lets every requester go on, a refusal is the fault of each. TLBINV drops what its region
covers; errors are counted, drop a clean copy, take a team, or poison device memory. The model's own readings in it:
log 10, log 11, log 12, log 31, log 46, log 52. -/
def Obligations.PageServiceAndErrors : Prop :=
  ∀ (s : State),
    (∀ (w : Walk), s.walks.find? (·.id == w.id) = some w →
      let root := (s.ctxOf w.ctx).ptRoot
      let u := { s with walks := s.walks.filter (·.id != w.id) }
      (∀ e size, s.walk root w.va = .page e size → ∃ t, exec (.pageWalkComplete w.id) s = .next t ∧
        t = { u with tlb := t.tlb, teams := t.teams } ∧
        (∀ core, w.cores = [core] → ∀ unit ∈ [core, 128 + core / 4],
          ⟨unit, w.ctx, w.va % 2 ^ 56 / size * size, size, e⟩ ∈ t.tlb ∧
          (t.tlb.filter (·.unit == unit)).length ≤ if unit = core then 128 else 4096) ∧
        ∀ x v, w.who = [x] → s.viewOf? x.x = some v → t = { u.waitWith v .none with tlb := t.tlb }) ∧
      (∀ x v, s.walk root w.va = .bad → w.who = [x] → s.viewOf? x.x = some v →
        exec (.pageWalkComplete w.id) s =
          .next (u.takeFault v ⟨0x04, BitVec.ofNat 32 (2 * 2 ^ 29 + bitsOf x.va 16 29), x.lane, 0⟩ v.pc)) ∧
      (∀ level (x : Waiter) v g, s.walk root w.va = .notPresent level → w.who = [x] → s.viewOf? x.x = some v →
        s.gang? v.team.gang = some g → ((s.ctxOf w.ctx).reqs.map (·.id)).Nodup → (∀ r ∈ (s.ctxOf w.ctx).reqs, r.id < s.nextId) →
        ∃ t q, exec (.pageWalkComplete w.id) s = .next t ∧ q ∈ (t.ctxOf w.ctx).reqs ∧
          (q.lo, q.size) = regionOf x.va level ∧
          (g.drain = true → .split x.x x.lane x.va ∈ q.who ∧ (t.viewOf? x.x).map (·.split.wait) = some (.parked q.id x.kind.stallReason)) ∧
          (g.drain = false → (∀ h ∈ t.gangs, h.uid ≠ g.uid) ∧ (∀ b ∈ t.teams, b.gang ≠ g.uid) ∧
            .task g.task v.team.inst (s.coreId v.core) x.va ∈ q.who ∧
            ∀ k, g.killed = false → s.task? g.task = some k → ∃ k', t.task? g.task = some k' ∧ k'.st = .held q.id))) ∧
    (∀ c seq, (∀ r ∈ (s.ctxOf c).reqs, r.seq ≠ some seq) → ∀ i ∈ ([.pgrespRetry c seq, .pgrespRefusePage c seq,
      .pgrespRefuseProt c seq] : List Instr), exec i s = .next s) ∧
    (∀ c seq (r : PageReq) who, (s.ctxOf c).reqs.find? (fun r => r.seq == some seq) = some r → r.who = [who] →
      let closed := s.modCtx c fun x => { x with reqs := x.reqs.filter (·.id != r.id) }
      (match who with
       | .split x lane va => ∀ v, s.viewOf? x = some v →
           exec (.pgrespRetry c seq) s = .next (closed.waitWith v .none) ∧
           exec (.pgrespRefusePage c seq) s =
             .next (closed.takeFault v ⟨0x04, BitVec.ofNat 32 (bitsOf va 16 29), lane, 0⟩ v.pc) ∧
           exec (.pgrespRefuseProt c seq) s = .next (closed.takeFault v ⟨0x05, BitVec.ofNat 32 va, lane, 0⟩ v.pc)
       | .task uid inst core va =>
           exec (.pgrespRetry c seq) s = .next (closed.modTask uid fun t => { t with st := .unplaced, tick := s.tick }) ∧
           ∀ i ∈ ([.pgrespRefusePage c seq, .pgrespRefuseProt c seq] : List Instr), ∃ t, exec i s = .next t ∧
             t.tasks = s.tasks.filter (·.uid != uid) ∧
             t = ((closed.faultRecord c 1 0x04 inst core va (BitVec.ofNat 32 (bitsOf va 16 29))).dropTask uid)
       | .staging uid va =>
           exec (.pgrespRetry c seq) s = .next (closed.modTask uid fun t => { t with st := .unplaced, tick := s.tick }) ∧
           exec (.pgrespRefusePage c seq) s =
             .next ((closed.faultRecord c 1 0x04 0 0 va (BitVec.ofNat 32 (bitsOf va 16 29))).dropTask uid) ∧
           exec (.pgrespRefuseProt c seq) s = .next ((closed.faultRecord c 1 0x05 0 0 va (BitVec.ofNat 32 va)).dropTask uid)
       | .copy id va =>
           let put := fun f => { closed with copies := modFirst (fun c : CopyOp => c.id == id) f s.copies }
           exec (.pgrespRetry c seq) s = .next (put fun k => { k with waitFor := none }) ∧
           exec (.pgrespRefusePage c seq) s =
             .next (put fun k => { k with waitFor := none, failed := some (0x04, BitVec.ofNat 32 (bitsOf va 16 29)) }) ∧
           exec (.pgrespRefuseProt c seq) s =
             .next (put fun k => { k with waitFor := none, failed := some (0x05, BitVec.ofNat 32 va) })
       | .counter d idx =>
           exec (.pgrespRetry c seq) s = .next (closed.decrement d idx) ∧
           exec (.pgrespRefusePage c seq) s = .next (closed.faultRecord d 10 0 0 0
             ((closed.ctxOf d).depBase.toNat + 4 * idx) (BitVec.ofNat 32 idx))
       | .unit _ | .queue _ _ =>
           exec (.pgrespRetry c seq) s = .next closed ∧
           exec (.pgrespRefusePage c seq) s = .next { closed with refused := s.refused ++ [⟨who, r.lo, r.size, 0x04⟩] } ∧
           exec (.pgrespRefuseProt c seq) s = .next { closed with refused := s.refused ++ [⟨who, r.lo, r.size, 0x05⟩] }
       | .episode n => exec (.pgrespRetry c seq) s = .next (closed.resumeEpisode n) ∧
           exec (.pgrespRefusePage c seq) s =
             .next (State.resumeEpisode { closed with refused := s.refused ++ [⟨who, r.lo, r.size, 0x04⟩] } n) ∧
           exec (.pgrespRefuseProt c seq) s =
             .next (State.resumeEpisode { closed with refused := s.refused ++ [⟨who, r.lo, r.size, 0x05⟩] } n))) ∧
    (∀ c (va : Addr),
      let base := fun k => va.toNat % 2 ^ 56 / 2 ^ k * 2 ^ k
      ∀ x ∈ ([(.tlbinvPage c va, base 16, 2 ^ 16), (.tlbinv2m c va, base 21, 2 ^ 21), (.tlbinv1g c va, base 30, 2 ^ 30),
          (.tlbinvAll c, 0, 2 ^ 56)] : List (Instr × Nat × Nat)),
        ((s.ctxOf c).tlbInv = none → exec x.1 s = .next (s.modCtx c fun y => { y with tlbInv := some ⟨x.2.1, x.2.2⟩ })) ∧
        ((s.ctxOf c).tlbInv ≠ none → exec x.1 s = .next (s.modCtx c fun y => { y with qerr := y.qerr ||| 0x800 }))) ∧
    (∀ c i, (s.ctxOf c).tlbInv = some i → ∃ t, exec (.tlbinvDone c) s = .next t ∧ t = { s with tlb := t.tlb, ctxs := t.ctxs } ∧
      (∀ k, t.ctxOf k = if k = c then { s.ctxOf c with tlbInv := none } else s.ctxOf k) ∧
      ∀ e, e ∈ t.tlb ↔ e ∈ s.tlb ∧ ¬(e.ctx = c ∧ e.base < i.lo + i.len ∧ i.lo < e.base + e.size)) ∧
    (∀ c, (s.ctxOf c).tlbInv = none → exec (.tlbinvDone c) s = .next s) ∧
    exec .eccCorrected s = .next { s with cecnt := s.cecnt + 1 } ∧
    (∀ core line, ∃ t, exec (.eccUncorrectable (.cleanCopy core line)) s = .next t ∧ t = { s with l1 := t.l1 } ∧
      t.l1Of core = (s.l1Of core).filter fun e => e.2.dirty || e.1 / 256 != line) ∧
    (∀ core line, ∃ t, exec (.eccUncorrectable (.constCopy core line)) s = .next t ∧ t = { s with constK := t.constK } ∧
      Tab.get [] t.constK core = (Tab.get [] s.constK core).filter fun e => e.1 / 256 != line) ∧
    (∀ die line, ∃ t, exec (.eccUncorrectable (.farCopy die line)) s = .next t ∧ t = { s with far := t.far } ∧
      t.farOf die = (s.farOf die).filter fun e => e.1 / 256 != line) ∧
    (∀ cl c set ver, exec (.eccUncorrectable (.weightCopy cl c set ver)) s = .next s) ∧
    (∀ (m : Meeting) (b : Team) x y, s.meetings.find? (fun e => e.router == m.router && e.ctx == m.ctx && e.tag == m.tag &&
        !e.spilled) = some m → m.senders = [x, y] → x.1.team = b.uid → y.1.team = b.uid → s.team? b.uid = some b →
      exec (.eccUncorrectable (.meeting m.router m.ctx m.tag)) s = .next (State.killTeam
        { s with meetings := s.meetings.filter (·.id != m.id) } b.uid 0x16 0
          (((b.warps.flatMap (·.splits)).map (·.pc)).headD 0))) ∧
    (∀ (b : Team) g, s.team? b.uid = some b → s.gang? b.gang = some g →
      (g.drain = true → exec (.eccUncorrectable (.teamState b.uid)) s =
        .next (s.killTeam b.uid 0x16 0 (((b.warps.flatMap (·.splits)).map (·.pc)).headD 0))) ∧
      (g.drain = false → exec (.eccUncorrectable (.teamState b.uid)) s =
        .next ((s.faultRecord b.ctx 8 0 b.inst (s.coreId b.core) 0 0).discardGang b.gang .unplaced))) ∧
    (∀ core line (b : Team), s.team? b.uid = some b →
      (∀ e ∈ s.l1Of core, e.2.dirty = true → e.1 / 256 = line → e.2.owner = b.uid) →
      (∃ e ∈ s.l1Of core, e.2.dirty = true ∧ e.1 / 256 = line) →
      exec (.eccUncorrectable (.dirtyData core line)) s = .next ((s.setL1 core
        ((s.l1Of core).filter fun e => !(e.2.dirty && e.1 / 256 == line))).killTeam b.uid 0x16 0
          (((b.warps.flatMap (·.splits)).map (·.pc)).headD 0))) ∧
    (∀ home pa, ∃ t, exec (.eccUncorrectable (.deviceMemory home pa)) s = .next t ∧ t = { s with poison := t.poison } ∧
      ∀ k, Tab.get false t.poison k =
        (decide ((home * 2 ^ 52 + pa) / 64 * 64 ≤ k ∧ k < (home * 2 ^ 52 + pa) / 64 * 64 + 64) || Tab.get false s.poison k))

/-- spec/29 R405 to R409, R413, spec/00 R6, spec/01 R19, R26, R29, spec/19 R302, R323, spec/23 R345, spec/25 R362: the
debugger's operations act on the team that DBGPOS names, or answer that there is none; the state window writes a halted
warp's state; a sample is a trace record of the next warp; a full chunk ends; a write of a register is that of its
rule. The model's own readings in it: log 28, log 29, log 30, log 50, log 56, log 58. -/
def Obligations.DebuggerAndRegisters : Prop :=
  ∀ (s : State) (c : Nat),
    let x := s.ctxOf c
    let result := fun (u : State) (inst : Word) (r : Nat) =>
      u.modCtx c fun x => { x with dbgStat := BitVec.ofNat 64 (inst.toNat * 2 ^ 32 + r * 2 ^ 28) }
    let named' := fun (t : Team) => (s.teams.find? fun t => t.ctx == c && t.inst == x.dbgPos.extractLsb' 32 32) = some t
    let warpNo := (x.dbgPos.extractLsb' 19 5).toNat
    let sliceNo := (x.dbgPos.extractLsb' 16 3).toNat
    let halts := fun (u : State) (uid : Nat) => u.modTeam uid fun t => { t with halted := true, stepping := none }
    let resumes := fun (u : State) (uid : Nat) => u.modTeam uid fun t => { t with halted := false, stepping := none }
    ((∀ t, ¬named' t) → ∀ region n, ∀ i ∈ ([.dbgHalt c, .dbgResume c, .dbgStep c, .dbgStop c region n, .dbgKill c] : List Instr),
      exec i s = .next (result s (x.dbgPos.extractLsb' 32 32) 2)) ∧
    (∀ t, named' t → s.team? t.uid = some t →
      let sel : Sel := ⟨t.uid, warpNo, sliceNo⟩
      exec (.dbgHalt c) s = .next (result (halts s t.uid) t.inst 0) ∧
      ((∀ g, s.gang? t.gang = some g → g.pending = false) → exec (.dbgResume c) s = .next (result (resumes s t.uid) t.inst 0)) ∧
      (t.halted = true → (∃ v, s.viewOf? sel = some v) →
        exec (.dbgStep c) s = .next (result (s.modTeam t.uid fun t => { t with stepping := some sel }) t.inst 1)) ∧
      ((t.halted = false ∨ s.viewOf? sel = none) → exec (.dbgStep c) s = .next (result s t.inst 3)) ∧
      (∃ u, exec (.dbgKill c) s = .next u ∧ u.team? t.uid = none ∧
        (u.ctxOf c).dbgStat = BitVec.ofNat 64 (t.inst.toNat * 2 ^ 32)) ∧
      (∀ region n g w, s.gang? t.gang = some g → t.warp? warpNo = some w →
        let done := (w.sl sliceNo).retired.toNat
        let q := fun team => (⟨t.inst, team, g.task, t.num, warpNo, sliceNo, n⟩ : StopReq)
        (region = false → g.drain = false → n.toNat ≤ done → ∃ u, exec (.dbgStop c region n) s = .next u ∧
          (∀ h ∈ u.gangs, h.uid ≠ g.uid) ∧ (∀ b ∈ u.teams, b.gang ≠ g.uid) ∧ (u.ctxOf c).stop = some (q none)) ∧
        ((region = true ∨ g.drain = true) → n.toNat ≤ done → exec (.dbgStop c region n) s = .next (result s t.inst 3)) ∧
        (done < n.toNat → (w.sl sliceNo).live = 0 → exec (.dbgStop c region n) s = .next (result (halts s t.uid) t.inst 4)) ∧
        (done < n.toNat → (w.sl sliceNo).live ≠ 0 → g.pending = false → exec (.dbgStop c region n) s =
          .next (result ((resumes s t.uid).modCtx c fun x => { x with stop := some (q (some t.uid)) }) t.inst 1))) ∧
      (∀ off d w, t.halted = true → t.warp? warpNo = some w →
        (∀ e l, winPlace off = .entry e l →
          (e < w.budget → exec (.stateWindowWrite c off d) s = .next (s.modWarp t.uid w.num (·.setV e l d))) ∧
          (w.budget ≤ e → exec (.stateWindowWrite c off d) s = .next s)) ∧
        (∀ k o, winPlace off = .slice k o →
          exec (.stateWindowWrite c off d) s = .next (s.modWarp t.uid w.num (·.setWinSlice k o d)) ∧
          ∀ o', (o < 0x100 ∨ 0x180 ≤ o ∧ o < 0x200 ∨ 0x200 ≤ o ∧ o < 0x300 ∧ o % 32 < 16 ∨ o ∈ [0x114, 0x120, 0x124, 0x128]) →
            o' % 4 = 0 → o' < 0x400 → (w.setWinSlice k o d).winSlice k o' =
              if o' = o then (if o = 0x120 then d &&& 0x1F00FF else d) else w.winSlice k o') ∧
        (winPlace off = .outside → exec (.stateWindowWrite c off d) s = .next s)) ∧
      (∀ off d, t.halted = false → exec (.stateWindowWrite c off d) s = .next s)) ∧
    (∀ (w : Warp) k d, k < 8 →
      ((w.setWinSlice k 0x100 d).sl k).q = d.extractLsb' 0 7 ∧
      ((w.setWinSlice k 0x10C d).sl k).act = d.extractLsb' 0 4 &&& (w.sl k).live ∧
      ((w.setWinSlice k 0x110 d).sl k).part = (if d.toNat ∈ [2, 4, 8, 16, 32] then d.toNat else (w.sl k).part) ∧
      ((w.setWinSlice k 0x118 d).sl k).inHandler = d.getLsbD 0 ∧
      (∀ sp, w.splitOf? k = some sp → d.toNat % 4 = 0 →
        (w.setWinSlice k 0x104 d).pcOf k = sp.pc.extractLsb' 32 32 ++ d.extractLsb' 2 30 ++ 0#2)) ∧
    (s.named → ∃ u, exec (.dbgHaltall c true) s = .next u ∧ (u.ctxOf c).dbgCtl = x.dbgCtl ||| 1 ∧
      ∀ b, s.team? b.uid = some b → u.team? b.uid =
        some (if b.ctx = c then { b with halted := true, stepping := none } else b)) ∧
    exec (.dbgHaltall c false) s = .next (s.modCtx c fun x => { x with dbgCtl := x.dbgCtl &&& ~~~1 }) ∧
    (∀ core, s.samplesDue = [] → exec (.sampleTake core) s = .next s) ∧
    (∀ core t w bs, let ws := (s.coreWarps core).filter fun x => x.1.ctx == c && (s.sampleWarp x.1 x.2).isSome
      let n := Tab.get 0 s.sampleAt (64 * core + c) % ws.length
      s.samplesDue = [c] → ws[n]? = some (t, w) → s.sampleWarp t w = some bs → exec (.sampleTake core) s = .next
        (State.traceRecord { s with sampleAt := Tab.put 0 s.sampleAt (64 * core + c) (n + 1) } c bs)) ∧
    -- the least recently issued split, or a slice that has exited in this clock
    (∀ (t : Team) (w : Warp), t.halted = false →
      let record := fun (k : Nat) (pc : Addr) (st : Nat) => bytesOfNat 4 (3 + 256) ++ bytesOfNat 4 t.inst.toNat ++
        bytesOfNat 4 (w.num + k * 2 ^ 8 + if ((s.gang? t.gang).map (·.drain)).getD false then 2 ^ 11 else 0) ++
        bytesOfNat 4 (w.sl k).retired.toNat ++ bytesOfNat 4 pc.toNat ++ bytesOfNat 4 st ++ bytesOfNat 8 0
      (∀ sp, sp ∈ w.splits → (∀ q ∈ w.splits, q = sp ∨ sp.lastIssue < q.lastIssue) → let k := lowestBit 8 sp.mask.toNat
        s.sampleWarp t w = some (record k sp.pc
          (if (w.sl k).inHandler then 5 else if sp.lastIssue = s.clock then 0
            else match sp.wait with
              | .stall 0 | .walk 0 | .parked _ 0 => 2
              | wt => 1 + 16 * wt.reason))) ∧
      (∀ x rest, w.splits = [] → w.exits = x :: rest → x.clock = s.clock → (w.sl x.slice).live = 0 →
        s.sampleWarp t w = some (record x.slice x.pc 3))) ∧
    (∀ (b : Team) key, s.team? b.uid = some b →
      let y := s.ctxOf b.ctx
      let clean := ∀ e ∈ s.l1Of b.core, e.2.owner = b.uid → e.2.dirty = false
      let entry := bytesOfNat 8 s.seqNo.toNat ++ bytesOfNat 4 b.inst.toNat ++ bytesOfNat 4 ((65535 + b.core * 65536) % 2 ^ 32)
      let full := y.rlSize.toNat ≤ (y.rlTail - y.rlHead).toNat ∨ y.rlWait ≠ []
      let ends := fun u => exec (.recordChunkLimit b.uid) s = .next u ∧ u.team? b.uid = some { b with chunk := 0 } ∧
        u.seqNo = s.seqNo + 1
      (b.replayed = false → b.chunk < 65536 → exec (.recordChunkLimit b.uid) s = .next s) ∧
      (b.replayed = true → b.chunk ≠ 0 → exec (.recordChunkLimit b.uid) s = .next s) ∧
      (b.replayed = false → b.chunk = 65536 → b.recorded = true →
        (clean → y.rlSize ≠ 0 → ¬full → s.poison = [] →
          s.xlateNow b.ctx (y.rlBase.toNat + 16 * (y.rlTail.toNat % y.rlSize.toNat)) .store = .ok key →
          ∃ u, ends u ∧ (u.ctxOf b.ctx).rlTail = y.rlTail + 1 ∧ s.Stored u key entry) ∧
        (clean → y.rlSize ≠ 0 → full → ∃ u, ends u ∧ u.mem = s.mem ∧ (u.ctxOf b.ctx).rlWait = y.rlWait ++ [entry]) ∧
        (y.rlSize = 0 → s.memoryOk → ∃ u, ends u ∧ ∀ k, Memory.read u.mem k = match Tab.find? (s.l1Of b.core) k with
          | some e => if e.dirty = true ∧ e.owner = b.uid then e.data else Memory.read s.mem k
          | none => Memory.read s.mem k))) ∧
    (∀ (d : BitVec 64), c < 64 →
      let write := fun off size => exec (.registerWrite off size d) s
      let w : Word := d.extractLsb' 0 32
      let same := fun (size off : Nat) (i : Instr) => write off size = exec i s
      let sets := fun (size off : Nat) (f : Ctx → Ctx) => write off size = .next (s.modCtx c f)
      (∀ x ∈ ([(4, 0x00), (4, 0x04), (4, 0x08), (4, 0x1C), (4, 0x20), (4, 0x104), (8, 0x13030 + 0x40 * c), (8, 0x15018 + 0x20 * c),
          (4, 0x13020 + 0x40 * c), (4, 0x13024 + 0x40 * c), (4, 0x1600C + 0x20 * c), (4, 0x16014 + 0x20 * c),
          (4, 0x17020 + 0x40 * c), (4, 0x17024 + 0x40 * c), (4, 0x17030 + 0x40 * c), (8, 0x18018 + 0x80 * c),
          (4, 0x18050 + 0x80 * c), (4, 0x18054 + 0x80 * c), (8, 0x1FFF8), (4, 0x80000 + 4 * c)] : List (Nat × Nat)),
        write x.2 x.1 = .next s) ∧
      (∀ p, p < 4 → let q := 0x10000 + 0x20 * (4 * c + p)
        same 8 q (.queueReconfigure c p true d) ∧ same 8 (q + 8) (.queueReconfigure c p false d) ∧
        same 8 (q + 0x18) (.qtailWrite c p d) ∧ write (q + 0x10) 8 = .next s) ∧
      (∀ x ∈ ([(0, .pwrReqM0), (1, .pwrReqM1), (2, .pwrReqM2), (3, .pwrReqM3)] : List (Nat × Instr)),
        d.toNat % 4 = x.1 → same 4 0x10 x.2) ∧
      (let cmd : Byte := d.extractLsb' 0 8
       let tag : Byte := d.extractLsb' 8 8
       (cmd = 1 → same 4 0x100 (.fwAttest tag)) ∧ (cmd = 2 → same 4 0x100 (.fwIdkey tag)) ∧
       (cmd ≠ 1 → cmd ≠ 2 → same 4 0x100 (.fwmUnknownCommand tag cmd))) ∧
      sets 8 (0x13000 + 0x40 * c) (fun x => { x with depBase := d }) ∧
      sets 8 (0x13010 + 0x40 * c) (fun x => { x with spBase := d }) ∧
      sets 8 (0x13018 + 0x40 * c) (fun x => { x with spSize := w }) ∧
      sets 4 (0x13028 + 0x40 * c) (fun x => { x with drainB := w }) ∧
      sets 8 (0x14000 + 0x10 * c) (fun x => { x with wsBase := d }) ∧
      sets 4 (0x14008 + 0x10 * c) (fun x => { x with wsSize := w &&& 0x1FFFF }) ∧
      same 8 (0x15000 + 0x20 * c) (.twtagsWrite c true d) ∧ same 4 (0x15010 + 0x20 * c) (.twtagsWrite c false d) ∧
      sets 4 (0x15014 + 0x20 * c) (fun x => { x with twOrph := w }) ∧
      same 4 (0x16010 + 0x20 * c) (.epqtailWrite c w) ∧ same 4 (0x16018 + 0x20 * c) (.epkill c w) ∧
      sets 8 (0x17000 + 0x40 * c) (fun x => { x with ptRoot := d &&& 0xFF8FFFFFFFFFFF3D }) ∧
      (∀ x ∈ ([(0, .tlbinvPage c (d &&& 0x00FFFFFFFFFF0000)), (1, .tlbinv2m c (d &&& 0x00FFFFFFFFFF0000)),
          (2, .tlbinv1g c (d &&& 0x00FFFFFFFFFF0000)), (3, .tlbinvAll c)] : List (Nat × Instr)),
        d.toNat % 4 = x.1 → same 8 (0x17008 + 0x40 * c) x.2) ∧
      (∀ x ∈ ([(0, .pgrespRetry c w), (1, .pgrespRefusePage c w), (2, .pgrespRefuseProt c w)] : List (Nat × Instr)),
        (d.extractLsb' 32 2).toNat = x.1 → same 8 (0x17028 + 0x40 * c) x.2) ∧
      ((d.extractLsb' 32 2).toNat = 3 → write (0x17028 + 0x40 * c) 8 = .next s) ∧
      sets 4 (0x17034 + 0x40 * c) (fun x => { x with teamWd := w }) ∧
      sets 8 (0x18008 + 0x80 * c) (fun x => { x with dbgPos := d &&& 0xFFFFFFFF00FF0000 }) ∧
      (∀ x ∈ ([(1, .dbgHalt c), (2, .dbgResume c), (3, .dbgStep c), (4, .dbgStop c (d.getLsbD 16) (d.extractLsb' 32 32)),
          (5, .dbgKill c)] : List (Nat × Instr)), d.toNat % 16 = x.1 → same 8 (0x18010 + 0x80 * c) x.2) ∧
      sets 4 (0x12800 + 8 * c) (fun x => { x with qerr := x.qerr &&& ~~~w }))

/-- spec/01 R24 to R30, spec/07 R114: power-on starts the verification: an image signed under the fused key, of a version
not below the fused one, runs, and the digest that was verified is the measurement; a mailbox command runs once and leaves
its output, its tag and its result; M1 to M3 are refused while work is queued or resident, and M3 loses device memory and
caches; the exit takes its time, and what woke the module acts after it; the core clock steps by 100 MHz within 600 to 1,200
MHz. The model's own readings in it: log 8, log 54, log 63. -/
def Obligations.FirmwarePowerAndThrottle : Prop :=
  ∀ (s : State),
    (s.wake = if s.pwrState = 0 ∨ s.pwrExit.isSome = true then s else { s with
      pwrExit := some (s.tick + if s.pwrState = 1 then 10 else if s.pwrState = 2 then 2000 else 500000) }) ∧
    exec .powerOn s = .next (if s.fwState = 0 then { s with verifying := true } else s) ∧
    (s.verifying = false → ∀ image svn, exec (.firmwareVerifyComplete image svn) s = .next s) ∧
    (∀ svn : BitVec 16, s.verifying = true →
      let stays := fun (image : Option FwImage) (code : Byte) => exec (.firmwareVerifyComplete image svn) s =
        .next { s with verifying := false, fwState := code }
      stays none 0x12 ∧ ∀ m : FwImage,
        let digest := sha256 (m.bytes ++ bytesOfNat 2 svn.toNat)
        let signed := sha256 (beBytes 32 m.keyX.toNat ++ beBytes 32 m.keyY.toNat) = (List.range 32).map Config.fusedKeyDigest ∧
          ecdsaVerify m.keyX.toNat m.keyY.toNat digest m.sigR.toNat m.sigS.toNat = true
        (¬signed → stays (some m) 0x10) ∧ (signed → svn < Config.fusedVersion → stays (some m) 0x11) ∧
        (signed → Config.fusedVersion ≤ svn → exec (.firmwareVerifyComplete (some m) svn) s = .next { s with
          verifying := false, fwState := 1, fwSvn := svn, fwMeasure := digest, khmod := Config.moduleNumber })) ∧
    (∀ tag, ∀ x ∈ ([(.fwAttest tag, 1), (.fwIdkey tag, 2)] : List (Instr × Byte)), exec x.1 s = .next
      (if s.fwm.busy then s else { s with fwm := { s.fwm with cmd := x.2, tag := tag, busy := true } })) ∧
    (∀ tag cmd, cmd ≠ 1 → cmd ≠ 2 → exec (.fwmUnknownCommand tag cmd) s = .next
      (if s.fwm.busy then s else { s with fwm := { s.fwm with cmd := cmd, tag := tag, busy := true } })) ∧
    (let ends := fun (out : List Byte) (r : Byte) => ∃ t, exec .fwmCommandComplete s = .next t ∧ t = { s with fwm := t.fwm } ∧
       t.fwm = { s.fwm with busy := false, done := s.fwm.tag, result := r, buf := t.fwm.buf } ∧
       ∀ i, Tab.get 0 t.fwm.buf i = if i < out.length then out.getD i 0 else Tab.get 0 s.fwm.buf i
     let body := bytesOfNat 4 1 ++ bytesOfNat 4 Config.bootRomVersion.toNat ++ bytesOfNat 4 s.fwSvn.toNat ++
       bytesOfNat 4 s.khmod.toNat ++ s.fwMeasure ++ (List.range 32).map fun i => Tab.get 0 s.fwm.buf i
     (s.fwm.busy = false → exec .fwmCommandComplete s = .next s) ∧
     (s.fwm.busy = true → s.fwm.cmd = 1 → s.fwState = 1 → ends (body ++ identitySign (sha256 body)) 0) ∧
     (s.fwm.busy = true → s.fwm.cmd = 1 → s.fwState ≠ 1 → ends [] 2) ∧
     (s.fwm.busy = true → s.fwm.cmd = 2 → ends identityPublic 0) ∧
     (s.fwm.busy = true → s.fwm.cmd ≠ 1 → s.fwm.cmd ≠ 2 → ends [] 1)) ∧
    exec .pwrReqM0 s = .next { s.wake with pwrRefused := false } ∧
    (let busy := s.teams ≠ [] ∨ s.tasks ≠ [] ∨ s.records ≠ [] ∨ s.episodes ≠ [] ∨ (∃ p ∈ s.pairs, p.2.st ≠ .free) ∨
       ∃ x ∈ s.ctxs, x.2.spHead ≠ x.2.spTail ∨ ∃ p, p < 4 ∧ (x.2.queue p).enabled = true ∧ (x.2.queue p).head ≠ (x.2.queue p).tail
     let down := fun (st : BitVec 2) => { s with pwrState := st, pwrExit := none, pwrRefused := false }
     (busy → ∀ i ∈ ([.pwrReqM1, .pwrReqM2, .pwrReqM3] : List Instr), exec i s = .next { s with pwrRefused := true }) ∧
     let rests := fun (u : State) => if s.waking = [] then u else u.wake
     (¬busy → exec .pwrReqM1 s = .next (rests (down 1)) ∧ exec .pwrReqM2 s = .next (rests (down 2)) ∧
       ∃ t, exec .pwrReqM3 s = .next (rests t) ∧ t = { down 3 with
           mem := t.mem, poison := t.poison, scratch := [], l1 := [], far := [], constK := [], tlb := [], walks := [], cols := []
           ibuf := [], ports := [], farBanks := [], links := [], asks := [], regroups := t.regroups } ∧
         (s.memoryOk → ∀ k, Memory.read t.mem k = if k / 2 ^ 52 < 4 then 0 else Memory.read s.mem k) ∧
         ∀ r ∈ t.regroups, r.2.cache = [] ∧ r.2.loads = [])) ∧
    exec .powerWake s = .next s.wake ∧
    (s.pwrExit = none → exec .powerExitComplete s = .next s) ∧
    (∀ k, s.pwrExit = some k → (k ≤ s.tick → exec .powerExitComplete s = .next { s with
        pwrState := 0, pwrExit := none, inputs := s.waking ++ s.inputs, waking := [] }) ∧
      (s.tick < k → exec .powerExitComplete s = .next s)) ∧
    (∀ limits, exec (.throttleLimitChange limits) s = .next { s with limits := limits, thSeen := s.thSeen ||| limits }) ∧
    (600 ≤ s.clkMHz → s.clkMHz ≤ 1200 →
      (s.tick < s.throttleAt → exec .throttleStep s = .next s) ∧
      (s.throttleAt ≤ s.tick → s.limits ≠ 0 → 700 ≤ s.clkMHz → exec .throttleStep s =
        .next { s with clkMHz := s.clkMHz - 100, throttleAt := s.tick + 10 }) ∧
      (s.throttleAt ≤ s.tick → s.limits = 0 → s.clkMHz ≤ 1100 → exec .throttleStep s =
        .next { s with clkMHz := s.clkMHz + 100, throttleAt := s.tick + 10 }) ∧
      (∃ t, exec .throttleStep s = .next t ∧ 600 ≤ t.clkMHz ∧ t.clkMHz ≤ 1200)) ∧
    (∀ on, exec (.diagnosticModeChange on) s = .next (if on = true ∧ s.teams ≠ [] then s else { s with diagMode := on }))

/-- spec/03 R50, spec/09 R127, R129, R151, spec/05 R86: a step that issues a split runs exec of the instruction its bytes
decode to, at the state in which its issue is noted; the issue unit's last address is kept after it. A fetched word is that
at its home, or the one that the instruction buffer took before (log 43). The other steps run the meaning of an agent's step or of an
input, complete barriers, or end or begin a clock (the model's plan is its own: log 3). Some words of the spec's encodings
decode to what they stand for. -/
def Obligations.StepRunsTheDecodedInstruction : Prop :=
  (∀ (s : State) x rest v i, let u := { s with plan := rest, cur := x }
    s.plan = .issue x :: rest → u.view? = some v → v.goes = true → v.split.wait.mayIssue = true → v.faultDue = false →
    ((u.ctxOf v.ctx).breaksAt v.pc = true → v.team.halted = true) →
    u.fetch v.core v.ctx v.pc = .instr i →
    let k := u.keepCode v.core v.ctx v.pc
    k = { u with ibuf := k.ibuf } ∧
    (∀ r, k.holdsBack? v i = some r → step s = .next (k.stall v r)) ∧
    (k.holdsBack? v i = none →
      step s = mapNext (fun t => t.afterIssue v (!k.uniformNext v)) (exec i (k.beginIssue v i)))) ∧
  (∀ (s : State) x rest v, let u := { s with plan := rest, cur := x }
    s.plan = .issue x :: rest → u.view? = some v → v.goes = true →
    (v.faultDue = true → step s = exec (.deferredFaultTake x) u) ∧
    (v.faultDue = false → v.split.wait.mayIssue = true → (u.ctxOf v.ctx).breaksAt v.pc = true → v.team.halted = false →
      step s = exec (.breakpointHit x) u)) ∧
  (∀ (s : State) core ctx (pc : Addr) k0 k1 i,
    let word := s.codeWord core ctx
    let fetchable := fun (at' : Addr) key => canonical at'.toNat = true ∧
      s.xlate core ctx at'.toNat .fetch = .ok key ∧ s.poisoned key 4 = false
    fetchable pc k0 → (twoWords (word k0) = true → fetchable (pc + 4) k1) →
    decode (word k0) (if twoWords (word k0) then word k1 else 0) = .ok i →
    s.fetch core ctx pc = .instr i) ∧
  (∀ (s : State) core ctx key, s.codeWord core ctx key = BitVec.ofNat 32 (natOfBytes (s.homeBytes key 4)) ∨
    ∃ c ∈ s.ibuf, c.core = core ∧ c.ctx = ctx ∧ c.key = key ∧ s.codeWord core ctx key = c.word) ∧
  (∀ (s : State) e rest, s.plan = .event e :: rest → step s = ({ s with plan := rest } : State).runEvent e) ∧
  (∀ (s : State) rest, let u := { s with plan := rest }
    (s.plan = .barriers :: rest → step s = .next u.updateBarriers) ∧ (s.plan = .tickEnd :: rest → step s = .next u.endTick) ∧
    (s.plan = .input :: rest → s.inputs = [] → step s = .next u) ∧
    ∀ i more, s.plan = .input :: rest → s.inputs = i :: more →
      (isInput i = true → ∃ t, exec i { u with inputs := more } = .next t ∧ step s = .next t) ∧
      (isInput i = false → step s = .next { u with inputs := more })) ∧
  (∀ e, ∃ i, ∀ s : State, s.runEvent e = exec i s) ∧
  (∀ s : State, s.plan = [] → step s = .next s.beginClock) ∧
  (let reads := fun w0 w1 i => decode w0 w1 = .ok i
   reads 0x5C0200B8 0x49000040 (.ld ⟨8, 2, 7, 0, 0, 2, 2, 2, 0, 0x40⟩) ∧
   reads 0xC043100E 0x00000064 (.saddImm ⟨3, 4, 0, 7, 0, 0x64⟩) ∧
   reads 0x500280B9 0x00100C30 (.cvt ⟨10, 2, 7, 0, 1, 0, 0x10, 0x0C, 0x30⟩) ∧
   reads 0x54024138 0x01024003 (.shfl ⟨9, 4, 7, 0, 0, 1, 2, 0x40, 3⟩) ∧
   reads 0x6A180010 0x00080000 (.brx ⟨3, 0, 0x10, 0x20, 0, 0⟩) ∧
   reads 0x8C00000E 0 (.nop ⟨0, 0, 0, 7, 0⟩) ∧ reads 0x8D80000E 0 (.exit ⟨0, 0, 0, 7, 0⟩) ∧
   reads 0xE01420C0 0x03F20010 (.cpy ⟨20, 8, 12, 0, 0x03F20010⟩))

/-- spec/01 R19, R21, R23, R25, R29, spec/19 R323, spec/21 R326, spec/23 R345, R348, spec/29 R411: the registers the spec
gives a reset value read it after reset, in each context; no queue is enabled and no rotor has moved. The rest is the
model's choice (log 1): nothing is resident, queued, mapped or cached, and memory lists nothing (log 2). -/
def Obligations.ResetState : Prop :=
  let r := State.reset
  (∀ off size, (off, size) ∈ ([(0x18, 4), (0x20, 4), (0x104, 4)] : List (Nat × Nat)) → r.hostRead off size = 0) ∧
  r.hostRead 0x14 4 = 0x4B000000 ∧ r.hostRead 0 4 = 0x4B09045F + Config.stepping.toNat * 2 ^ 12 ∧
  r.hostRead 4 4 = 0x00400808 ∧
  (∀ m, m < 64 → r.hostRead (0x12000 + 4 * m) 4 = 0) ∧
  (∀ c, c < 64 →
    (∀ p, p < 4 → ((r.ctxOf c).queue p).enabled = false ∧
      ∀ k, k < 4 → r.hostRead (0x10000 + 0x20 * (4 * c + p) + 8 * k) 8 = 0) ∧
    r.hostRead (0x12800 + 8 * c) 8 = 0 ∧
    r.hostRead (0x1302C + 0x40 * c) 4 = 0 ∧ r.hostRead (0x14000 + 0x10 * c) 8 = 0 ∧ r.hostRead (0x14008 + 0x10 * c) 4 = 0 ∧
    r.hostRead (0x15000 + 0x20 * c) 8 = 0 ∧ r.hostRead (0x15008 + 0x20 * c) 8 = 0 ∧ r.hostRead (0x15010 + 0x20 * c) 4 = 0 ∧
    r.hostRead (0x15014 + 0x20 * c) 4 = 0xFFFFFFFF ∧ r.hostRead (0x15018 + 0x20 * c) 4 = 0 ∧
    r.hostRead (0x1501C + 0x20 * c) 4 = 0 ∧ (r.ctxOf c).rotor = 0 ∧
    r.hostRead (0x17034 + 0x40 * c) 4 = 0xFFFFFFFF ∧ r.hostRead (0x18048 + 0x80 * c) 4 = 0) ∧
  (∀ pair, (r.pair pair).st = .free) ∧
  r.teams = [] ∧ r.gangs = [] ∧ r.tasks = [] ∧ r.records = [] ∧ r.episodes = [] ∧ r.tlb = [] ∧ r.ibuf = [] ∧
  r.links = [] ∧ r.ports = [] ∧ r.asks = [] ∧ r.waking = [] ∧ r.inputs = [] ∧ r.plan = [] ∧
  r.memoryOk ∧ (∀ k, Memory.read r.mem k = 0)

/-- spec/07 R99, R102 and the memory lists of the model (log 2, log 5): a step keeps them canonical, so that a byte is held
once and equal memories are equal data. -/
def Obligations.StepKeepsMemory : Prop := ∀ s t : State, s.memoryOk → step s = .next t → t.memoryOk

/-- spec/09 R127 to R151: the decoder gives back every well-formed instruction from the words of its encoding, with every
operand at every value the encoding admits; and what it gives for any words is well-formed and encodes as those words. -/
def Obligations.DecodeEncodeAgree : Prop :=
  (∀ i : Instr, i.wf = true → decode (encode i).1 ((encode i).2.getD 0) = .ok i) ∧
  (∀ w0 w1 i, decode w0 w1 = .ok i → i.wf = true ∧ (encode i).1 = w0 ∧
    ((encode i).2 = none ∧ twoWords w0 = false ∨ (encode i).2 = some w1 ∧ twoWords w0 = true))
end

