-- ==== Sys2Proof/Laws/State.lean ====
section
/-!
SUPPORT. One lemma per field and named update of State: what the update leaves alone.
-/

namespace Sys2Proof.Machine

/-! ## setCtx -/

@[simp] theorem State.setCtx_clock (s : State) (c : Nat) (x : Ctx) : (s.setCtx c x).clock = s.clock := rfl
@[simp] theorem State.setCtx_tick (s : State) (c : Nat) (x : Ctx) : (s.setCtx c x).tick = s.tick := rfl
@[simp] theorem State.setCtx_subClock (s : State) (c : Nat) (x : Ctx) : (s.setCtx c x).subClock = s.subClock := rfl
@[simp] theorem State.setCtx_clkMHz (s : State) (c : Nat) (x : Ctx) : (s.setCtx c x).clkMHz = s.clkMHz := rfl
@[simp] theorem State.setCtx_limits (s : State) (c : Nat) (x : Ctx) : (s.setCtx c x).limits = s.limits := rfl
@[simp] theorem State.setCtx_thSeen (s : State) (c : Nat) (x : Ctx) : (s.setCtx c x).thSeen = s.thSeen := rfl
@[simp] theorem State.setCtx_throttleAt (s : State) (c : Nat) (x : Ctx) : (s.setCtx c x).throttleAt = s.throttleAt := rfl
@[simp] theorem State.setCtx_pwrRefused (s : State) (c : Nat) (x : Ctx) : (s.setCtx c x).pwrRefused = s.pwrRefused := rfl
@[simp] theorem State.setCtx_pwrState (s : State) (c : Nat) (x : Ctx) : (s.setCtx c x).pwrState = s.pwrState := rfl
@[simp] theorem State.setCtx_pwrExit (s : State) (c : Nat) (x : Ctx) : (s.setCtx c x).pwrExit = s.pwrExit := rfl
@[simp] theorem State.setCtx_khmod (s : State) (c : Nat) (x : Ctx) : (s.setCtx c x).khmod = s.khmod := rfl
@[simp] theorem State.setCtx_fwState (s : State) (c : Nat) (x : Ctx) : (s.setCtx c x).fwState = s.fwState := rfl
@[simp] theorem State.setCtx_fwSvn (s : State) (c : Nat) (x : Ctx) : (s.setCtx c x).fwSvn = s.fwSvn := rfl
@[simp] theorem State.setCtx_fwMeasure (s : State) (c : Nat) (x : Ctx) : (s.setCtx c x).fwMeasure = s.fwMeasure := rfl
@[simp] theorem State.setCtx_verifying (s : State) (c : Nat) (x : Ctx) : (s.setCtx c x).verifying = s.verifying := rfl
@[simp] theorem State.setCtx_fwm (s : State) (c : Nat) (x : Ctx) : (s.setCtx c x).fwm = s.fwm := rfl
@[simp] theorem State.setCtx_peerMap (s : State) (c : Nat) (x : Ctx) : (s.setCtx c x).peerMap = s.peerMap := rfl
@[simp] theorem State.setCtx_linkUp (s : State) (c : Nat) (x : Ctx) : (s.setCtx c x).linkUp = s.linkUp := rfl
@[simp] theorem State.setCtx_diagMode (s : State) (c : Nat) (x : Ctx) : (s.setCtx c x).diagMode = s.diagMode := rfl
@[simp] theorem State.setCtx_cecnt (s : State) (c : Nat) (x : Ctx) : (s.setCtx c x).cecnt = s.cecnt := rfl
@[simp] theorem State.setCtx_snapArm (s : State) (c : Nat) (x : Ctx) : (s.setCtx c x).snapArm = s.snapArm := rfl
@[simp] theorem State.setCtx_snapExten (s : State) (c : Nat) (x : Ctx) : (s.setCtx c x).snapExten = s.snapExten := rfl
@[simp] theorem State.setCtx_snapFired (s : State) (c : Nat) (x : Ctx) : (s.setCtx c x).snapFired = s.snapFired := rfl
@[simp] theorem State.setCtx_snap (s : State) (c : Nat) (x : Ctx) : (s.setCtx c x).snap = s.snap := rfl
@[simp] theorem State.setCtx_seqNo (s : State) (c : Nat) (x : Ctx) : (s.setCtx c x).seqNo = s.seqNo := rfl
@[simp] theorem State.setCtx_mem (s : State) (c : Nat) (x : Ctx) : (s.setCtx c x).mem = s.mem := rfl
@[simp] theorem State.setCtx_poison (s : State) (c : Nat) (x : Ctx) : (s.setCtx c x).poison = s.poison := rfl
@[simp] theorem State.setCtx_scratch (s : State) (c : Nat) (x : Ctx) : (s.setCtx c x).scratch = s.scratch := rfl
@[simp] theorem State.setCtx_banks (s : State) (c : Nat) (x : Ctx) : (s.setCtx c x).banks = s.banks := rfl
@[simp] theorem State.setCtx_l1 (s : State) (c : Nat) (x : Ctx) : (s.setCtx c x).l1 = s.l1 := rfl
@[simp] theorem State.setCtx_far (s : State) (c : Nat) (x : Ctx) : (s.setCtx c x).far = s.far := rfl
@[simp] theorem State.setCtx_farGen (s : State) (c : Nat) (x : Ctx) : (s.setCtx c x).farGen = s.farGen := rfl
@[simp] theorem State.setCtx_constK (s : State) (c : Nat) (x : Ctx) : (s.setCtx c x).constK = s.constK := rfl
@[simp] theorem State.setCtx_ibuf (s : State) (c : Nat) (x : Ctx) : (s.setCtx c x).ibuf = s.ibuf := rfl
@[simp] theorem State.setCtx_rlocks (s : State) (c : Nat) (x : Ctx) : (s.setCtx c x).rlocks = s.rlocks := rfl
@[simp] theorem State.setCtx_tlb (s : State) (c : Nat) (x : Ctx) : (s.setCtx c x).tlb = s.tlb := rfl
@[simp] theorem State.setCtx_walks (s : State) (c : Nat) (x : Ctx) : (s.setCtx c x).walks = s.walks := rfl
@[simp] theorem State.setCtx_refused (s : State) (c : Nat) (x : Ctx) : (s.setCtx c x).refused = s.refused := rfl
@[simp] theorem State.setCtx_cols (s : State) (c : Nat) (x : Ctx) : (s.setCtx c x).cols = s.cols := rfl
@[simp] theorem State.setCtx_ports (s : State) (c : Nat) (x : Ctx) : (s.setCtx c x).ports = s.ports := rfl
@[simp] theorem State.setCtx_farBanks (s : State) (c : Nat) (x : Ctx) : (s.setCtx c x).farBanks = s.farBanks := rfl
@[simp] theorem State.setCtx_links (s : State) (c : Nat) (x : Ctx) : (s.setCtx c x).links = s.links := rfl
@[simp] theorem State.setCtx_asks (s : State) (c : Nat) (x : Ctx) : (s.setCtx c x).asks = s.asks := rfl
@[simp] theorem State.setCtx_routed (s : State) (c : Nat) (x : Ctx) : (s.setCtx c x).routed = s.routed := rfl
@[simp] theorem State.setCtx_routes (s : State) (c : Nat) (x : Ctx) : (s.setCtx c x).routes = s.routes := rfl
@[simp] theorem State.setCtx_waking (s : State) (c : Nat) (x : Ctx) : (s.setCtx c x).waking = s.waking := rfl
@[simp] theorem State.setCtx_teams (s : State) (c : Nat) (x : Ctx) : (s.setCtx c x).teams = s.teams := rfl
@[simp] theorem State.setCtx_gangs (s : State) (c : Nat) (x : Ctx) : (s.setCtx c x).gangs = s.gangs := rfl
@[simp] theorem State.setCtx_records (s : State) (c : Nat) (x : Ctx) : (s.setCtx c x).records = s.records := rfl
@[simp] theorem State.setCtx_tasks (s : State) (c : Nat) (x : Ctx) : (s.setCtx c x).tasks = s.tasks := rfl
@[simp] theorem State.setCtx_steals (s : State) (c : Nat) (x : Ctx) : (s.setCtx c x).steals = s.steals := rfl
@[simp] theorem State.setCtx_qServed (s : State) (c : Nat) (x : Ctx) : (s.setCtx c x).qServed = s.qServed := rfl
@[simp] theorem State.setCtx_sServed (s : State) (c : Nat) (x : Ctx) : (s.setCtx c x).sServed = s.sServed := rfl
@[simp] theorem State.setCtx_memOps (s : State) (c : Nat) (x : Ctx) : (s.setCtx c x).memOps = s.memOps := rfl
@[simp] theorem State.setCtx_copies (s : State) (c : Nat) (x : Ctx) : (s.setCtx c x).copies = s.copies := rfl
@[simp] theorem State.setCtx_matOps (s : State) (c : Nat) (x : Ctx) : (s.setCtx c x).matOps = s.matOps := rfl
@[simp] theorem State.setCtx_texOps (s : State) (c : Nat) (x : Ctx) : (s.setCtx c x).texOps = s.texOps := rfl
@[simp] theorem State.setCtx_rays (s : State) (c : Nat) (x : Ctx) : (s.setCtx c x).rays = s.rays := rfl
@[simp] theorem State.setCtx_rayOps (s : State) (c : Nat) (x : Ctx) : (s.setCtx c x).rayOps = s.rayOps := rfl
@[simp] theorem State.setCtx_ncalls (s : State) (c : Nat) (x : Ctx) : (s.setCtx c x).ncalls = s.ncalls := rfl
@[simp] theorem State.setCtx_regroups (s : State) (c : Nat) (x : Ctx) : (s.setCtx c x).regroups = s.regroups := rfl
@[simp] theorem State.setCtx_rgOps (s : State) (c : Nat) (x : Ctx) : (s.setCtx c x).rgOps = s.rgOps := rfl
@[simp] theorem State.setCtx_tokens (s : State) (c : Nat) (x : Ctx) : (s.setCtx c x).tokens = s.tokens := rfl
@[simp] theorem State.setCtx_sends (s : State) (c : Nat) (x : Ctx) : (s.setCtx c x).sends = s.sends := rfl
@[simp] theorem State.setCtx_abroad (s : State) (c : Nat) (x : Ctx) : (s.setCtx c x).abroad = s.abroad := rfl
@[simp] theorem State.setCtx_landings (s : State) (c : Nat) (x : Ctx) : (s.setCtx c x).landings = s.landings := rfl
@[simp] theorem State.setCtx_meetings (s : State) (c : Nat) (x : Ctx) : (s.setCtx c x).meetings = s.meetings := rfl
@[simp] theorem State.setCtx_mbReqs (s : State) (c : Nat) (x : Ctx) : (s.setCtx c x).mbReqs = s.mbReqs := rfl
@[simp] theorem State.setCtx_pairs (s : State) (c : Nat) (x : Ctx) : (s.setCtx c x).pairs = s.pairs := rfl
@[simp] theorem State.setCtx_episodes (s : State) (c : Nat) (x : Ctx) : (s.setCtx c x).episodes = s.episodes := rfl
@[simp] theorem State.setCtx_pmp (s : State) (c : Nat) (x : Ctx) : (s.setCtx c x).pmp = s.pmp := rfl
@[simp] theorem State.setCtx_draws (s : State) (c : Nat) (x : Ctx) : (s.setCtx c x).draws = s.draws := rfl
@[simp] theorem State.setCtx_pixels (s : State) (c : Nat) (x : Ctx) : (s.setCtx c x).pixels = s.pixels := rfl
@[simp] theorem State.setCtx_sampleAt (s : State) (c : Nat) (x : Ctx) : (s.setCtx c x).sampleAt = s.sampleAt := rfl
@[simp] theorem State.setCtx_iuPc (s : State) (c : Nat) (x : Ctx) : (s.setCtx c x).iuPc = s.iuPc := rfl
@[simp] theorem State.setCtx_cur (s : State) (c : Nat) (x : Ctx) : (s.setCtx c x).cur = s.cur := rfl
@[simp] theorem State.setCtx_plan (s : State) (c : Nat) (x : Ctx) : (s.setCtx c x).plan = s.plan := rfl
@[simp] theorem State.setCtx_inputs (s : State) (c : Nat) (x : Ctx) : (s.setCtx c x).inputs = s.inputs := rfl
@[simp] theorem State.setCtx_freeCtr (s : State) (c : Nat) (x : Ctx) : (s.setCtx c x).freeCtr = s.freeCtr := rfl
@[simp] theorem State.setCtx_nextId (s : State) (c : Nat) (x : Ctx) : (s.setCtx c x).nextId = s.nextId := rfl

/-! ## modCtx -/

@[simp] theorem State.modCtx_clock (s : State) (c : Nat) (f : Ctx → Ctx) : (s.modCtx c f).clock = s.clock := rfl
@[simp] theorem State.modCtx_tick (s : State) (c : Nat) (f : Ctx → Ctx) : (s.modCtx c f).tick = s.tick := rfl
@[simp] theorem State.modCtx_subClock (s : State) (c : Nat) (f : Ctx → Ctx) : (s.modCtx c f).subClock = s.subClock := rfl
@[simp] theorem State.modCtx_clkMHz (s : State) (c : Nat) (f : Ctx → Ctx) : (s.modCtx c f).clkMHz = s.clkMHz := rfl
@[simp] theorem State.modCtx_limits (s : State) (c : Nat) (f : Ctx → Ctx) : (s.modCtx c f).limits = s.limits := rfl
@[simp] theorem State.modCtx_thSeen (s : State) (c : Nat) (f : Ctx → Ctx) : (s.modCtx c f).thSeen = s.thSeen := rfl
@[simp] theorem State.modCtx_throttleAt (s : State) (c : Nat) (f : Ctx → Ctx) : (s.modCtx c f).throttleAt = s.throttleAt := rfl
@[simp] theorem State.modCtx_pwrRefused (s : State) (c : Nat) (f : Ctx → Ctx) : (s.modCtx c f).pwrRefused = s.pwrRefused := rfl
@[simp] theorem State.modCtx_pwrState (s : State) (c : Nat) (f : Ctx → Ctx) : (s.modCtx c f).pwrState = s.pwrState := rfl
@[simp] theorem State.modCtx_pwrExit (s : State) (c : Nat) (f : Ctx → Ctx) : (s.modCtx c f).pwrExit = s.pwrExit := rfl
@[simp] theorem State.modCtx_khmod (s : State) (c : Nat) (f : Ctx → Ctx) : (s.modCtx c f).khmod = s.khmod := rfl
@[simp] theorem State.modCtx_fwState (s : State) (c : Nat) (f : Ctx → Ctx) : (s.modCtx c f).fwState = s.fwState := rfl
@[simp] theorem State.modCtx_fwSvn (s : State) (c : Nat) (f : Ctx → Ctx) : (s.modCtx c f).fwSvn = s.fwSvn := rfl
@[simp] theorem State.modCtx_fwMeasure (s : State) (c : Nat) (f : Ctx → Ctx) : (s.modCtx c f).fwMeasure = s.fwMeasure := rfl
@[simp] theorem State.modCtx_verifying (s : State) (c : Nat) (f : Ctx → Ctx) : (s.modCtx c f).verifying = s.verifying := rfl
@[simp] theorem State.modCtx_fwm (s : State) (c : Nat) (f : Ctx → Ctx) : (s.modCtx c f).fwm = s.fwm := rfl
@[simp] theorem State.modCtx_peerMap (s : State) (c : Nat) (f : Ctx → Ctx) : (s.modCtx c f).peerMap = s.peerMap := rfl
@[simp] theorem State.modCtx_linkUp (s : State) (c : Nat) (f : Ctx → Ctx) : (s.modCtx c f).linkUp = s.linkUp := rfl
@[simp] theorem State.modCtx_diagMode (s : State) (c : Nat) (f : Ctx → Ctx) : (s.modCtx c f).diagMode = s.diagMode := rfl
@[simp] theorem State.modCtx_cecnt (s : State) (c : Nat) (f : Ctx → Ctx) : (s.modCtx c f).cecnt = s.cecnt := rfl
@[simp] theorem State.modCtx_snapArm (s : State) (c : Nat) (f : Ctx → Ctx) : (s.modCtx c f).snapArm = s.snapArm := rfl
@[simp] theorem State.modCtx_snapExten (s : State) (c : Nat) (f : Ctx → Ctx) : (s.modCtx c f).snapExten = s.snapExten := rfl
@[simp] theorem State.modCtx_snapFired (s : State) (c : Nat) (f : Ctx → Ctx) : (s.modCtx c f).snapFired = s.snapFired := rfl
@[simp] theorem State.modCtx_snap (s : State) (c : Nat) (f : Ctx → Ctx) : (s.modCtx c f).snap = s.snap := rfl
@[simp] theorem State.modCtx_seqNo (s : State) (c : Nat) (f : Ctx → Ctx) : (s.modCtx c f).seqNo = s.seqNo := rfl
@[simp] theorem State.modCtx_mem (s : State) (c : Nat) (f : Ctx → Ctx) : (s.modCtx c f).mem = s.mem := rfl
@[simp] theorem State.modCtx_poison (s : State) (c : Nat) (f : Ctx → Ctx) : (s.modCtx c f).poison = s.poison := rfl
@[simp] theorem State.modCtx_scratch (s : State) (c : Nat) (f : Ctx → Ctx) : (s.modCtx c f).scratch = s.scratch := rfl
@[simp] theorem State.modCtx_banks (s : State) (c : Nat) (f : Ctx → Ctx) : (s.modCtx c f).banks = s.banks := rfl
@[simp] theorem State.modCtx_l1 (s : State) (c : Nat) (f : Ctx → Ctx) : (s.modCtx c f).l1 = s.l1 := rfl
@[simp] theorem State.modCtx_far (s : State) (c : Nat) (f : Ctx → Ctx) : (s.modCtx c f).far = s.far := rfl
@[simp] theorem State.modCtx_farGen (s : State) (c : Nat) (f : Ctx → Ctx) : (s.modCtx c f).farGen = s.farGen := rfl
@[simp] theorem State.modCtx_constK (s : State) (c : Nat) (f : Ctx → Ctx) : (s.modCtx c f).constK = s.constK := rfl
@[simp] theorem State.modCtx_ibuf (s : State) (c : Nat) (f : Ctx → Ctx) : (s.modCtx c f).ibuf = s.ibuf := rfl
@[simp] theorem State.modCtx_rlocks (s : State) (c : Nat) (f : Ctx → Ctx) : (s.modCtx c f).rlocks = s.rlocks := rfl
@[simp] theorem State.modCtx_tlb (s : State) (c : Nat) (f : Ctx → Ctx) : (s.modCtx c f).tlb = s.tlb := rfl
@[simp] theorem State.modCtx_walks (s : State) (c : Nat) (f : Ctx → Ctx) : (s.modCtx c f).walks = s.walks := rfl
@[simp] theorem State.modCtx_refused (s : State) (c : Nat) (f : Ctx → Ctx) : (s.modCtx c f).refused = s.refused := rfl
@[simp] theorem State.modCtx_cols (s : State) (c : Nat) (f : Ctx → Ctx) : (s.modCtx c f).cols = s.cols := rfl
@[simp] theorem State.modCtx_ports (s : State) (c : Nat) (f : Ctx → Ctx) : (s.modCtx c f).ports = s.ports := rfl
@[simp] theorem State.modCtx_farBanks (s : State) (c : Nat) (f : Ctx → Ctx) : (s.modCtx c f).farBanks = s.farBanks := rfl
@[simp] theorem State.modCtx_links (s : State) (c : Nat) (f : Ctx → Ctx) : (s.modCtx c f).links = s.links := rfl
@[simp] theorem State.modCtx_asks (s : State) (c : Nat) (f : Ctx → Ctx) : (s.modCtx c f).asks = s.asks := rfl
@[simp] theorem State.modCtx_routed (s : State) (c : Nat) (f : Ctx → Ctx) : (s.modCtx c f).routed = s.routed := rfl
@[simp] theorem State.modCtx_routes (s : State) (c : Nat) (f : Ctx → Ctx) : (s.modCtx c f).routes = s.routes := rfl
@[simp] theorem State.modCtx_waking (s : State) (c : Nat) (f : Ctx → Ctx) : (s.modCtx c f).waking = s.waking := rfl
@[simp] theorem State.modCtx_teams (s : State) (c : Nat) (f : Ctx → Ctx) : (s.modCtx c f).teams = s.teams := rfl
@[simp] theorem State.modCtx_gangs (s : State) (c : Nat) (f : Ctx → Ctx) : (s.modCtx c f).gangs = s.gangs := rfl
@[simp] theorem State.modCtx_records (s : State) (c : Nat) (f : Ctx → Ctx) : (s.modCtx c f).records = s.records := rfl
@[simp] theorem State.modCtx_tasks (s : State) (c : Nat) (f : Ctx → Ctx) : (s.modCtx c f).tasks = s.tasks := rfl
@[simp] theorem State.modCtx_steals (s : State) (c : Nat) (f : Ctx → Ctx) : (s.modCtx c f).steals = s.steals := rfl
@[simp] theorem State.modCtx_qServed (s : State) (c : Nat) (f : Ctx → Ctx) : (s.modCtx c f).qServed = s.qServed := rfl
@[simp] theorem State.modCtx_sServed (s : State) (c : Nat) (f : Ctx → Ctx) : (s.modCtx c f).sServed = s.sServed := rfl
@[simp] theorem State.modCtx_memOps (s : State) (c : Nat) (f : Ctx → Ctx) : (s.modCtx c f).memOps = s.memOps := rfl
@[simp] theorem State.modCtx_copies (s : State) (c : Nat) (f : Ctx → Ctx) : (s.modCtx c f).copies = s.copies := rfl
@[simp] theorem State.modCtx_matOps (s : State) (c : Nat) (f : Ctx → Ctx) : (s.modCtx c f).matOps = s.matOps := rfl
@[simp] theorem State.modCtx_texOps (s : State) (c : Nat) (f : Ctx → Ctx) : (s.modCtx c f).texOps = s.texOps := rfl
@[simp] theorem State.modCtx_rays (s : State) (c : Nat) (f : Ctx → Ctx) : (s.modCtx c f).rays = s.rays := rfl
@[simp] theorem State.modCtx_rayOps (s : State) (c : Nat) (f : Ctx → Ctx) : (s.modCtx c f).rayOps = s.rayOps := rfl
@[simp] theorem State.modCtx_ncalls (s : State) (c : Nat) (f : Ctx → Ctx) : (s.modCtx c f).ncalls = s.ncalls := rfl
@[simp] theorem State.modCtx_regroups (s : State) (c : Nat) (f : Ctx → Ctx) : (s.modCtx c f).regroups = s.regroups := rfl
@[simp] theorem State.modCtx_rgOps (s : State) (c : Nat) (f : Ctx → Ctx) : (s.modCtx c f).rgOps = s.rgOps := rfl
@[simp] theorem State.modCtx_tokens (s : State) (c : Nat) (f : Ctx → Ctx) : (s.modCtx c f).tokens = s.tokens := rfl
@[simp] theorem State.modCtx_sends (s : State) (c : Nat) (f : Ctx → Ctx) : (s.modCtx c f).sends = s.sends := rfl
@[simp] theorem State.modCtx_abroad (s : State) (c : Nat) (f : Ctx → Ctx) : (s.modCtx c f).abroad = s.abroad := rfl
@[simp] theorem State.modCtx_landings (s : State) (c : Nat) (f : Ctx → Ctx) : (s.modCtx c f).landings = s.landings := rfl
@[simp] theorem State.modCtx_meetings (s : State) (c : Nat) (f : Ctx → Ctx) : (s.modCtx c f).meetings = s.meetings := rfl
@[simp] theorem State.modCtx_mbReqs (s : State) (c : Nat) (f : Ctx → Ctx) : (s.modCtx c f).mbReqs = s.mbReqs := rfl
@[simp] theorem State.modCtx_pairs (s : State) (c : Nat) (f : Ctx → Ctx) : (s.modCtx c f).pairs = s.pairs := rfl
@[simp] theorem State.modCtx_episodes (s : State) (c : Nat) (f : Ctx → Ctx) : (s.modCtx c f).episodes = s.episodes := rfl
@[simp] theorem State.modCtx_pmp (s : State) (c : Nat) (f : Ctx → Ctx) : (s.modCtx c f).pmp = s.pmp := rfl
@[simp] theorem State.modCtx_draws (s : State) (c : Nat) (f : Ctx → Ctx) : (s.modCtx c f).draws = s.draws := rfl
@[simp] theorem State.modCtx_pixels (s : State) (c : Nat) (f : Ctx → Ctx) : (s.modCtx c f).pixels = s.pixels := rfl
@[simp] theorem State.modCtx_sampleAt (s : State) (c : Nat) (f : Ctx → Ctx) : (s.modCtx c f).sampleAt = s.sampleAt := rfl
@[simp] theorem State.modCtx_iuPc (s : State) (c : Nat) (f : Ctx → Ctx) : (s.modCtx c f).iuPc = s.iuPc := rfl
@[simp] theorem State.modCtx_cur (s : State) (c : Nat) (f : Ctx → Ctx) : (s.modCtx c f).cur = s.cur := rfl
@[simp] theorem State.modCtx_plan (s : State) (c : Nat) (f : Ctx → Ctx) : (s.modCtx c f).plan = s.plan := rfl
@[simp] theorem State.modCtx_inputs (s : State) (c : Nat) (f : Ctx → Ctx) : (s.modCtx c f).inputs = s.inputs := rfl
@[simp] theorem State.modCtx_freeCtr (s : State) (c : Nat) (f : Ctx → Ctx) : (s.modCtx c f).freeCtr = s.freeCtr := rfl
@[simp] theorem State.modCtx_nextId (s : State) (c : Nat) (f : Ctx → Ctx) : (s.modCtx c f).nextId = s.nextId := rfl

/-! ## modTeam -/

@[simp] theorem State.modTeam_clock (s : State) (u : Nat) (f : Team → Team) : (s.modTeam u f).clock = s.clock := rfl
@[simp] theorem State.modTeam_tick (s : State) (u : Nat) (f : Team → Team) : (s.modTeam u f).tick = s.tick := rfl
@[simp] theorem State.modTeam_subClock (s : State) (u : Nat) (f : Team → Team) : (s.modTeam u f).subClock = s.subClock := rfl
@[simp] theorem State.modTeam_clkMHz (s : State) (u : Nat) (f : Team → Team) : (s.modTeam u f).clkMHz = s.clkMHz := rfl
@[simp] theorem State.modTeam_limits (s : State) (u : Nat) (f : Team → Team) : (s.modTeam u f).limits = s.limits := rfl
@[simp] theorem State.modTeam_thSeen (s : State) (u : Nat) (f : Team → Team) : (s.modTeam u f).thSeen = s.thSeen := rfl
@[simp] theorem State.modTeam_throttleAt (s : State) (u : Nat) (f : Team → Team) : (s.modTeam u f).throttleAt = s.throttleAt := rfl
@[simp] theorem State.modTeam_pwrRefused (s : State) (u : Nat) (f : Team → Team) : (s.modTeam u f).pwrRefused = s.pwrRefused := rfl
@[simp] theorem State.modTeam_pwrState (s : State) (u : Nat) (f : Team → Team) : (s.modTeam u f).pwrState = s.pwrState := rfl
@[simp] theorem State.modTeam_pwrExit (s : State) (u : Nat) (f : Team → Team) : (s.modTeam u f).pwrExit = s.pwrExit := rfl
@[simp] theorem State.modTeam_khmod (s : State) (u : Nat) (f : Team → Team) : (s.modTeam u f).khmod = s.khmod := rfl
@[simp] theorem State.modTeam_fwState (s : State) (u : Nat) (f : Team → Team) : (s.modTeam u f).fwState = s.fwState := rfl
@[simp] theorem State.modTeam_fwSvn (s : State) (u : Nat) (f : Team → Team) : (s.modTeam u f).fwSvn = s.fwSvn := rfl
@[simp] theorem State.modTeam_fwMeasure (s : State) (u : Nat) (f : Team → Team) : (s.modTeam u f).fwMeasure = s.fwMeasure := rfl
@[simp] theorem State.modTeam_verifying (s : State) (u : Nat) (f : Team → Team) : (s.modTeam u f).verifying = s.verifying := rfl
@[simp] theorem State.modTeam_fwm (s : State) (u : Nat) (f : Team → Team) : (s.modTeam u f).fwm = s.fwm := rfl
@[simp] theorem State.modTeam_peerMap (s : State) (u : Nat) (f : Team → Team) : (s.modTeam u f).peerMap = s.peerMap := rfl
@[simp] theorem State.modTeam_linkUp (s : State) (u : Nat) (f : Team → Team) : (s.modTeam u f).linkUp = s.linkUp := rfl
@[simp] theorem State.modTeam_diagMode (s : State) (u : Nat) (f : Team → Team) : (s.modTeam u f).diagMode = s.diagMode := rfl
@[simp] theorem State.modTeam_cecnt (s : State) (u : Nat) (f : Team → Team) : (s.modTeam u f).cecnt = s.cecnt := rfl
@[simp] theorem State.modTeam_snapArm (s : State) (u : Nat) (f : Team → Team) : (s.modTeam u f).snapArm = s.snapArm := rfl
@[simp] theorem State.modTeam_snapExten (s : State) (u : Nat) (f : Team → Team) : (s.modTeam u f).snapExten = s.snapExten := rfl
@[simp] theorem State.modTeam_snapFired (s : State) (u : Nat) (f : Team → Team) : (s.modTeam u f).snapFired = s.snapFired := rfl
@[simp] theorem State.modTeam_snap (s : State) (u : Nat) (f : Team → Team) : (s.modTeam u f).snap = s.snap := rfl
@[simp] theorem State.modTeam_seqNo (s : State) (u : Nat) (f : Team → Team) : (s.modTeam u f).seqNo = s.seqNo := rfl
@[simp] theorem State.modTeam_ctxs (s : State) (u : Nat) (f : Team → Team) : (s.modTeam u f).ctxs = s.ctxs := rfl
@[simp] theorem State.modTeam_mem (s : State) (u : Nat) (f : Team → Team) : (s.modTeam u f).mem = s.mem := rfl
@[simp] theorem State.modTeam_poison (s : State) (u : Nat) (f : Team → Team) : (s.modTeam u f).poison = s.poison := rfl
@[simp] theorem State.modTeam_scratch (s : State) (u : Nat) (f : Team → Team) : (s.modTeam u f).scratch = s.scratch := rfl
@[simp] theorem State.modTeam_banks (s : State) (u : Nat) (f : Team → Team) : (s.modTeam u f).banks = s.banks := rfl
@[simp] theorem State.modTeam_l1 (s : State) (u : Nat) (f : Team → Team) : (s.modTeam u f).l1 = s.l1 := rfl
@[simp] theorem State.modTeam_far (s : State) (u : Nat) (f : Team → Team) : (s.modTeam u f).far = s.far := rfl
@[simp] theorem State.modTeam_farGen (s : State) (u : Nat) (f : Team → Team) : (s.modTeam u f).farGen = s.farGen := rfl
@[simp] theorem State.modTeam_constK (s : State) (u : Nat) (f : Team → Team) : (s.modTeam u f).constK = s.constK := rfl
@[simp] theorem State.modTeam_ibuf (s : State) (u : Nat) (f : Team → Team) : (s.modTeam u f).ibuf = s.ibuf := rfl
@[simp] theorem State.modTeam_rlocks (s : State) (u : Nat) (f : Team → Team) : (s.modTeam u f).rlocks = s.rlocks := rfl
@[simp] theorem State.modTeam_tlb (s : State) (u : Nat) (f : Team → Team) : (s.modTeam u f).tlb = s.tlb := rfl
@[simp] theorem State.modTeam_walks (s : State) (u : Nat) (f : Team → Team) : (s.modTeam u f).walks = s.walks := rfl
@[simp] theorem State.modTeam_refused (s : State) (u : Nat) (f : Team → Team) : (s.modTeam u f).refused = s.refused := rfl
@[simp] theorem State.modTeam_cols (s : State) (u : Nat) (f : Team → Team) : (s.modTeam u f).cols = s.cols := rfl
@[simp] theorem State.modTeam_ports (s : State) (u : Nat) (f : Team → Team) : (s.modTeam u f).ports = s.ports := rfl
@[simp] theorem State.modTeam_farBanks (s : State) (u : Nat) (f : Team → Team) : (s.modTeam u f).farBanks = s.farBanks := rfl
@[simp] theorem State.modTeam_links (s : State) (u : Nat) (f : Team → Team) : (s.modTeam u f).links = s.links := rfl
@[simp] theorem State.modTeam_asks (s : State) (u : Nat) (f : Team → Team) : (s.modTeam u f).asks = s.asks := rfl
@[simp] theorem State.modTeam_routed (s : State) (u : Nat) (f : Team → Team) : (s.modTeam u f).routed = s.routed := rfl
@[simp] theorem State.modTeam_routes (s : State) (u : Nat) (f : Team → Team) : (s.modTeam u f).routes = s.routes := rfl
@[simp] theorem State.modTeam_waking (s : State) (u : Nat) (f : Team → Team) : (s.modTeam u f).waking = s.waking := rfl
@[simp] theorem State.modTeam_gangs (s : State) (u : Nat) (f : Team → Team) : (s.modTeam u f).gangs = s.gangs := rfl
@[simp] theorem State.modTeam_records (s : State) (u : Nat) (f : Team → Team) : (s.modTeam u f).records = s.records := rfl
@[simp] theorem State.modTeam_tasks (s : State) (u : Nat) (f : Team → Team) : (s.modTeam u f).tasks = s.tasks := rfl
@[simp] theorem State.modTeam_steals (s : State) (u : Nat) (f : Team → Team) : (s.modTeam u f).steals = s.steals := rfl
@[simp] theorem State.modTeam_qServed (s : State) (u : Nat) (f : Team → Team) : (s.modTeam u f).qServed = s.qServed := rfl
@[simp] theorem State.modTeam_sServed (s : State) (u : Nat) (f : Team → Team) : (s.modTeam u f).sServed = s.sServed := rfl
@[simp] theorem State.modTeam_memOps (s : State) (u : Nat) (f : Team → Team) : (s.modTeam u f).memOps = s.memOps := rfl
@[simp] theorem State.modTeam_copies (s : State) (u : Nat) (f : Team → Team) : (s.modTeam u f).copies = s.copies := rfl
@[simp] theorem State.modTeam_matOps (s : State) (u : Nat) (f : Team → Team) : (s.modTeam u f).matOps = s.matOps := rfl
@[simp] theorem State.modTeam_texOps (s : State) (u : Nat) (f : Team → Team) : (s.modTeam u f).texOps = s.texOps := rfl
@[simp] theorem State.modTeam_rays (s : State) (u : Nat) (f : Team → Team) : (s.modTeam u f).rays = s.rays := rfl
@[simp] theorem State.modTeam_rayOps (s : State) (u : Nat) (f : Team → Team) : (s.modTeam u f).rayOps = s.rayOps := rfl
@[simp] theorem State.modTeam_ncalls (s : State) (u : Nat) (f : Team → Team) : (s.modTeam u f).ncalls = s.ncalls := rfl
@[simp] theorem State.modTeam_regroups (s : State) (u : Nat) (f : Team → Team) : (s.modTeam u f).regroups = s.regroups := rfl
@[simp] theorem State.modTeam_rgOps (s : State) (u : Nat) (f : Team → Team) : (s.modTeam u f).rgOps = s.rgOps := rfl
@[simp] theorem State.modTeam_tokens (s : State) (u : Nat) (f : Team → Team) : (s.modTeam u f).tokens = s.tokens := rfl
@[simp] theorem State.modTeam_sends (s : State) (u : Nat) (f : Team → Team) : (s.modTeam u f).sends = s.sends := rfl
@[simp] theorem State.modTeam_abroad (s : State) (u : Nat) (f : Team → Team) : (s.modTeam u f).abroad = s.abroad := rfl
@[simp] theorem State.modTeam_landings (s : State) (u : Nat) (f : Team → Team) : (s.modTeam u f).landings = s.landings := rfl
@[simp] theorem State.modTeam_meetings (s : State) (u : Nat) (f : Team → Team) : (s.modTeam u f).meetings = s.meetings := rfl
@[simp] theorem State.modTeam_mbReqs (s : State) (u : Nat) (f : Team → Team) : (s.modTeam u f).mbReqs = s.mbReqs := rfl
@[simp] theorem State.modTeam_pairs (s : State) (u : Nat) (f : Team → Team) : (s.modTeam u f).pairs = s.pairs := rfl
@[simp] theorem State.modTeam_episodes (s : State) (u : Nat) (f : Team → Team) : (s.modTeam u f).episodes = s.episodes := rfl
@[simp] theorem State.modTeam_pmp (s : State) (u : Nat) (f : Team → Team) : (s.modTeam u f).pmp = s.pmp := rfl
@[simp] theorem State.modTeam_draws (s : State) (u : Nat) (f : Team → Team) : (s.modTeam u f).draws = s.draws := rfl
@[simp] theorem State.modTeam_pixels (s : State) (u : Nat) (f : Team → Team) : (s.modTeam u f).pixels = s.pixels := rfl
@[simp] theorem State.modTeam_sampleAt (s : State) (u : Nat) (f : Team → Team) : (s.modTeam u f).sampleAt = s.sampleAt := rfl
@[simp] theorem State.modTeam_iuPc (s : State) (u : Nat) (f : Team → Team) : (s.modTeam u f).iuPc = s.iuPc := rfl
@[simp] theorem State.modTeam_cur (s : State) (u : Nat) (f : Team → Team) : (s.modTeam u f).cur = s.cur := rfl
@[simp] theorem State.modTeam_plan (s : State) (u : Nat) (f : Team → Team) : (s.modTeam u f).plan = s.plan := rfl
@[simp] theorem State.modTeam_inputs (s : State) (u : Nat) (f : Team → Team) : (s.modTeam u f).inputs = s.inputs := rfl
@[simp] theorem State.modTeam_freeCtr (s : State) (u : Nat) (f : Team → Team) : (s.modTeam u f).freeCtr = s.freeCtr := rfl
@[simp] theorem State.modTeam_nextId (s : State) (u : Nat) (f : Team → Team) : (s.modTeam u f).nextId = s.nextId := rfl

/-! ## modWarp -/

@[simp] theorem State.modWarp_clock (s : State) (u n : Nat) (f : Warp → Warp) : (s.modWarp u n f).clock = s.clock := rfl
@[simp] theorem State.modWarp_tick (s : State) (u n : Nat) (f : Warp → Warp) : (s.modWarp u n f).tick = s.tick := rfl
@[simp] theorem State.modWarp_subClock (s : State) (u n : Nat) (f : Warp → Warp) : (s.modWarp u n f).subClock = s.subClock := rfl
@[simp] theorem State.modWarp_clkMHz (s : State) (u n : Nat) (f : Warp → Warp) : (s.modWarp u n f).clkMHz = s.clkMHz := rfl
@[simp] theorem State.modWarp_limits (s : State) (u n : Nat) (f : Warp → Warp) : (s.modWarp u n f).limits = s.limits := rfl
@[simp] theorem State.modWarp_thSeen (s : State) (u n : Nat) (f : Warp → Warp) : (s.modWarp u n f).thSeen = s.thSeen := rfl
@[simp] theorem State.modWarp_throttleAt (s : State) (u n : Nat) (f : Warp → Warp) : (s.modWarp u n f).throttleAt = s.throttleAt := rfl
@[simp] theorem State.modWarp_pwrRefused (s : State) (u n : Nat) (f : Warp → Warp) : (s.modWarp u n f).pwrRefused = s.pwrRefused := rfl
@[simp] theorem State.modWarp_pwrState (s : State) (u n : Nat) (f : Warp → Warp) : (s.modWarp u n f).pwrState = s.pwrState := rfl
@[simp] theorem State.modWarp_pwrExit (s : State) (u n : Nat) (f : Warp → Warp) : (s.modWarp u n f).pwrExit = s.pwrExit := rfl
@[simp] theorem State.modWarp_khmod (s : State) (u n : Nat) (f : Warp → Warp) : (s.modWarp u n f).khmod = s.khmod := rfl
@[simp] theorem State.modWarp_fwState (s : State) (u n : Nat) (f : Warp → Warp) : (s.modWarp u n f).fwState = s.fwState := rfl
@[simp] theorem State.modWarp_fwSvn (s : State) (u n : Nat) (f : Warp → Warp) : (s.modWarp u n f).fwSvn = s.fwSvn := rfl
@[simp] theorem State.modWarp_fwMeasure (s : State) (u n : Nat) (f : Warp → Warp) : (s.modWarp u n f).fwMeasure = s.fwMeasure := rfl
@[simp] theorem State.modWarp_verifying (s : State) (u n : Nat) (f : Warp → Warp) : (s.modWarp u n f).verifying = s.verifying := rfl
@[simp] theorem State.modWarp_fwm (s : State) (u n : Nat) (f : Warp → Warp) : (s.modWarp u n f).fwm = s.fwm := rfl
@[simp] theorem State.modWarp_peerMap (s : State) (u n : Nat) (f : Warp → Warp) : (s.modWarp u n f).peerMap = s.peerMap := rfl
@[simp] theorem State.modWarp_linkUp (s : State) (u n : Nat) (f : Warp → Warp) : (s.modWarp u n f).linkUp = s.linkUp := rfl
@[simp] theorem State.modWarp_diagMode (s : State) (u n : Nat) (f : Warp → Warp) : (s.modWarp u n f).diagMode = s.diagMode := rfl
@[simp] theorem State.modWarp_cecnt (s : State) (u n : Nat) (f : Warp → Warp) : (s.modWarp u n f).cecnt = s.cecnt := rfl
@[simp] theorem State.modWarp_snapArm (s : State) (u n : Nat) (f : Warp → Warp) : (s.modWarp u n f).snapArm = s.snapArm := rfl
@[simp] theorem State.modWarp_snapExten (s : State) (u n : Nat) (f : Warp → Warp) : (s.modWarp u n f).snapExten = s.snapExten := rfl
@[simp] theorem State.modWarp_snapFired (s : State) (u n : Nat) (f : Warp → Warp) : (s.modWarp u n f).snapFired = s.snapFired := rfl
@[simp] theorem State.modWarp_snap (s : State) (u n : Nat) (f : Warp → Warp) : (s.modWarp u n f).snap = s.snap := rfl
@[simp] theorem State.modWarp_seqNo (s : State) (u n : Nat) (f : Warp → Warp) : (s.modWarp u n f).seqNo = s.seqNo := rfl
@[simp] theorem State.modWarp_ctxs (s : State) (u n : Nat) (f : Warp → Warp) : (s.modWarp u n f).ctxs = s.ctxs := rfl
@[simp] theorem State.modWarp_mem (s : State) (u n : Nat) (f : Warp → Warp) : (s.modWarp u n f).mem = s.mem := rfl
@[simp] theorem State.modWarp_poison (s : State) (u n : Nat) (f : Warp → Warp) : (s.modWarp u n f).poison = s.poison := rfl
@[simp] theorem State.modWarp_scratch (s : State) (u n : Nat) (f : Warp → Warp) : (s.modWarp u n f).scratch = s.scratch := rfl
@[simp] theorem State.modWarp_banks (s : State) (u n : Nat) (f : Warp → Warp) : (s.modWarp u n f).banks = s.banks := rfl
@[simp] theorem State.modWarp_l1 (s : State) (u n : Nat) (f : Warp → Warp) : (s.modWarp u n f).l1 = s.l1 := rfl
@[simp] theorem State.modWarp_far (s : State) (u n : Nat) (f : Warp → Warp) : (s.modWarp u n f).far = s.far := rfl
@[simp] theorem State.modWarp_farGen (s : State) (u n : Nat) (f : Warp → Warp) : (s.modWarp u n f).farGen = s.farGen := rfl
@[simp] theorem State.modWarp_constK (s : State) (u n : Nat) (f : Warp → Warp) : (s.modWarp u n f).constK = s.constK := rfl
@[simp] theorem State.modWarp_ibuf (s : State) (u n : Nat) (f : Warp → Warp) : (s.modWarp u n f).ibuf = s.ibuf := rfl
@[simp] theorem State.modWarp_rlocks (s : State) (u n : Nat) (f : Warp → Warp) : (s.modWarp u n f).rlocks = s.rlocks := rfl
@[simp] theorem State.modWarp_tlb (s : State) (u n : Nat) (f : Warp → Warp) : (s.modWarp u n f).tlb = s.tlb := rfl
@[simp] theorem State.modWarp_walks (s : State) (u n : Nat) (f : Warp → Warp) : (s.modWarp u n f).walks = s.walks := rfl
@[simp] theorem State.modWarp_refused (s : State) (u n : Nat) (f : Warp → Warp) : (s.modWarp u n f).refused = s.refused := rfl
@[simp] theorem State.modWarp_cols (s : State) (u n : Nat) (f : Warp → Warp) : (s.modWarp u n f).cols = s.cols := rfl
@[simp] theorem State.modWarp_ports (s : State) (u n : Nat) (f : Warp → Warp) : (s.modWarp u n f).ports = s.ports := rfl
@[simp] theorem State.modWarp_farBanks (s : State) (u n : Nat) (f : Warp → Warp) : (s.modWarp u n f).farBanks = s.farBanks := rfl
@[simp] theorem State.modWarp_links (s : State) (u n : Nat) (f : Warp → Warp) : (s.modWarp u n f).links = s.links := rfl
@[simp] theorem State.modWarp_asks (s : State) (u n : Nat) (f : Warp → Warp) : (s.modWarp u n f).asks = s.asks := rfl
@[simp] theorem State.modWarp_routed (s : State) (u n : Nat) (f : Warp → Warp) : (s.modWarp u n f).routed = s.routed := rfl
@[simp] theorem State.modWarp_routes (s : State) (u n : Nat) (f : Warp → Warp) : (s.modWarp u n f).routes = s.routes := rfl
@[simp] theorem State.modWarp_waking (s : State) (u n : Nat) (f : Warp → Warp) : (s.modWarp u n f).waking = s.waking := rfl
@[simp] theorem State.modWarp_gangs (s : State) (u n : Nat) (f : Warp → Warp) : (s.modWarp u n f).gangs = s.gangs := rfl
@[simp] theorem State.modWarp_records (s : State) (u n : Nat) (f : Warp → Warp) : (s.modWarp u n f).records = s.records := rfl
@[simp] theorem State.modWarp_tasks (s : State) (u n : Nat) (f : Warp → Warp) : (s.modWarp u n f).tasks = s.tasks := rfl
@[simp] theorem State.modWarp_steals (s : State) (u n : Nat) (f : Warp → Warp) : (s.modWarp u n f).steals = s.steals := rfl
@[simp] theorem State.modWarp_qServed (s : State) (u n : Nat) (f : Warp → Warp) : (s.modWarp u n f).qServed = s.qServed := rfl
@[simp] theorem State.modWarp_sServed (s : State) (u n : Nat) (f : Warp → Warp) : (s.modWarp u n f).sServed = s.sServed := rfl
@[simp] theorem State.modWarp_memOps (s : State) (u n : Nat) (f : Warp → Warp) : (s.modWarp u n f).memOps = s.memOps := rfl
@[simp] theorem State.modWarp_copies (s : State) (u n : Nat) (f : Warp → Warp) : (s.modWarp u n f).copies = s.copies := rfl
@[simp] theorem State.modWarp_matOps (s : State) (u n : Nat) (f : Warp → Warp) : (s.modWarp u n f).matOps = s.matOps := rfl
@[simp] theorem State.modWarp_texOps (s : State) (u n : Nat) (f : Warp → Warp) : (s.modWarp u n f).texOps = s.texOps := rfl
@[simp] theorem State.modWarp_rays (s : State) (u n : Nat) (f : Warp → Warp) : (s.modWarp u n f).rays = s.rays := rfl
@[simp] theorem State.modWarp_rayOps (s : State) (u n : Nat) (f : Warp → Warp) : (s.modWarp u n f).rayOps = s.rayOps := rfl
@[simp] theorem State.modWarp_ncalls (s : State) (u n : Nat) (f : Warp → Warp) : (s.modWarp u n f).ncalls = s.ncalls := rfl
@[simp] theorem State.modWarp_regroups (s : State) (u n : Nat) (f : Warp → Warp) : (s.modWarp u n f).regroups = s.regroups := rfl
@[simp] theorem State.modWarp_rgOps (s : State) (u n : Nat) (f : Warp → Warp) : (s.modWarp u n f).rgOps = s.rgOps := rfl
@[simp] theorem State.modWarp_tokens (s : State) (u n : Nat) (f : Warp → Warp) : (s.modWarp u n f).tokens = s.tokens := rfl
@[simp] theorem State.modWarp_sends (s : State) (u n : Nat) (f : Warp → Warp) : (s.modWarp u n f).sends = s.sends := rfl
@[simp] theorem State.modWarp_abroad (s : State) (u n : Nat) (f : Warp → Warp) : (s.modWarp u n f).abroad = s.abroad := rfl
@[simp] theorem State.modWarp_landings (s : State) (u n : Nat) (f : Warp → Warp) : (s.modWarp u n f).landings = s.landings := rfl
@[simp] theorem State.modWarp_meetings (s : State) (u n : Nat) (f : Warp → Warp) : (s.modWarp u n f).meetings = s.meetings := rfl
@[simp] theorem State.modWarp_mbReqs (s : State) (u n : Nat) (f : Warp → Warp) : (s.modWarp u n f).mbReqs = s.mbReqs := rfl
@[simp] theorem State.modWarp_pairs (s : State) (u n : Nat) (f : Warp → Warp) : (s.modWarp u n f).pairs = s.pairs := rfl
@[simp] theorem State.modWarp_episodes (s : State) (u n : Nat) (f : Warp → Warp) : (s.modWarp u n f).episodes = s.episodes := rfl
@[simp] theorem State.modWarp_pmp (s : State) (u n : Nat) (f : Warp → Warp) : (s.modWarp u n f).pmp = s.pmp := rfl
@[simp] theorem State.modWarp_draws (s : State) (u n : Nat) (f : Warp → Warp) : (s.modWarp u n f).draws = s.draws := rfl
@[simp] theorem State.modWarp_pixels (s : State) (u n : Nat) (f : Warp → Warp) : (s.modWarp u n f).pixels = s.pixels := rfl
@[simp] theorem State.modWarp_sampleAt (s : State) (u n : Nat) (f : Warp → Warp) : (s.modWarp u n f).sampleAt = s.sampleAt := rfl
@[simp] theorem State.modWarp_iuPc (s : State) (u n : Nat) (f : Warp → Warp) : (s.modWarp u n f).iuPc = s.iuPc := rfl
@[simp] theorem State.modWarp_cur (s : State) (u n : Nat) (f : Warp → Warp) : (s.modWarp u n f).cur = s.cur := rfl
@[simp] theorem State.modWarp_plan (s : State) (u n : Nat) (f : Warp → Warp) : (s.modWarp u n f).plan = s.plan := rfl
@[simp] theorem State.modWarp_inputs (s : State) (u n : Nat) (f : Warp → Warp) : (s.modWarp u n f).inputs = s.inputs := rfl
@[simp] theorem State.modWarp_freeCtr (s : State) (u n : Nat) (f : Warp → Warp) : (s.modWarp u n f).freeCtr = s.freeCtr := rfl
@[simp] theorem State.modWarp_nextId (s : State) (u n : Nat) (f : Warp → Warp) : (s.modWarp u n f).nextId = s.nextId := rfl

/-! ## setWarp -/

@[simp] theorem State.setWarp_clock (s : State) (v : View) (w : Warp) : (s.setWarp v w).clock = s.clock := rfl
@[simp] theorem State.setWarp_tick (s : State) (v : View) (w : Warp) : (s.setWarp v w).tick = s.tick := rfl
@[simp] theorem State.setWarp_subClock (s : State) (v : View) (w : Warp) : (s.setWarp v w).subClock = s.subClock := rfl
@[simp] theorem State.setWarp_clkMHz (s : State) (v : View) (w : Warp) : (s.setWarp v w).clkMHz = s.clkMHz := rfl
@[simp] theorem State.setWarp_limits (s : State) (v : View) (w : Warp) : (s.setWarp v w).limits = s.limits := rfl
@[simp] theorem State.setWarp_thSeen (s : State) (v : View) (w : Warp) : (s.setWarp v w).thSeen = s.thSeen := rfl
@[simp] theorem State.setWarp_throttleAt (s : State) (v : View) (w : Warp) : (s.setWarp v w).throttleAt = s.throttleAt := rfl
@[simp] theorem State.setWarp_pwrRefused (s : State) (v : View) (w : Warp) : (s.setWarp v w).pwrRefused = s.pwrRefused := rfl
@[simp] theorem State.setWarp_pwrState (s : State) (v : View) (w : Warp) : (s.setWarp v w).pwrState = s.pwrState := rfl
@[simp] theorem State.setWarp_pwrExit (s : State) (v : View) (w : Warp) : (s.setWarp v w).pwrExit = s.pwrExit := rfl
@[simp] theorem State.setWarp_khmod (s : State) (v : View) (w : Warp) : (s.setWarp v w).khmod = s.khmod := rfl
@[simp] theorem State.setWarp_fwState (s : State) (v : View) (w : Warp) : (s.setWarp v w).fwState = s.fwState := rfl
@[simp] theorem State.setWarp_fwSvn (s : State) (v : View) (w : Warp) : (s.setWarp v w).fwSvn = s.fwSvn := rfl
@[simp] theorem State.setWarp_fwMeasure (s : State) (v : View) (w : Warp) : (s.setWarp v w).fwMeasure = s.fwMeasure := rfl
@[simp] theorem State.setWarp_verifying (s : State) (v : View) (w : Warp) : (s.setWarp v w).verifying = s.verifying := rfl
@[simp] theorem State.setWarp_fwm (s : State) (v : View) (w : Warp) : (s.setWarp v w).fwm = s.fwm := rfl
@[simp] theorem State.setWarp_peerMap (s : State) (v : View) (w : Warp) : (s.setWarp v w).peerMap = s.peerMap := rfl
@[simp] theorem State.setWarp_linkUp (s : State) (v : View) (w : Warp) : (s.setWarp v w).linkUp = s.linkUp := rfl
@[simp] theorem State.setWarp_diagMode (s : State) (v : View) (w : Warp) : (s.setWarp v w).diagMode = s.diagMode := rfl
@[simp] theorem State.setWarp_cecnt (s : State) (v : View) (w : Warp) : (s.setWarp v w).cecnt = s.cecnt := rfl
@[simp] theorem State.setWarp_snapArm (s : State) (v : View) (w : Warp) : (s.setWarp v w).snapArm = s.snapArm := rfl
@[simp] theorem State.setWarp_snapExten (s : State) (v : View) (w : Warp) : (s.setWarp v w).snapExten = s.snapExten := rfl
@[simp] theorem State.setWarp_snapFired (s : State) (v : View) (w : Warp) : (s.setWarp v w).snapFired = s.snapFired := rfl
@[simp] theorem State.setWarp_snap (s : State) (v : View) (w : Warp) : (s.setWarp v w).snap = s.snap := rfl
@[simp] theorem State.setWarp_seqNo (s : State) (v : View) (w : Warp) : (s.setWarp v w).seqNo = s.seqNo := rfl
@[simp] theorem State.setWarp_ctxs (s : State) (v : View) (w : Warp) : (s.setWarp v w).ctxs = s.ctxs := rfl
@[simp] theorem State.setWarp_mem (s : State) (v : View) (w : Warp) : (s.setWarp v w).mem = s.mem := rfl
@[simp] theorem State.setWarp_poison (s : State) (v : View) (w : Warp) : (s.setWarp v w).poison = s.poison := rfl
@[simp] theorem State.setWarp_scratch (s : State) (v : View) (w : Warp) : (s.setWarp v w).scratch = s.scratch := rfl
@[simp] theorem State.setWarp_banks (s : State) (v : View) (w : Warp) : (s.setWarp v w).banks = s.banks := rfl
@[simp] theorem State.setWarp_l1 (s : State) (v : View) (w : Warp) : (s.setWarp v w).l1 = s.l1 := rfl
@[simp] theorem State.setWarp_far (s : State) (v : View) (w : Warp) : (s.setWarp v w).far = s.far := rfl
@[simp] theorem State.setWarp_farGen (s : State) (v : View) (w : Warp) : (s.setWarp v w).farGen = s.farGen := rfl
@[simp] theorem State.setWarp_constK (s : State) (v : View) (w : Warp) : (s.setWarp v w).constK = s.constK := rfl
@[simp] theorem State.setWarp_ibuf (s : State) (v : View) (w : Warp) : (s.setWarp v w).ibuf = s.ibuf := rfl
@[simp] theorem State.setWarp_rlocks (s : State) (v : View) (w : Warp) : (s.setWarp v w).rlocks = s.rlocks := rfl
@[simp] theorem State.setWarp_tlb (s : State) (v : View) (w : Warp) : (s.setWarp v w).tlb = s.tlb := rfl
@[simp] theorem State.setWarp_walks (s : State) (v : View) (w : Warp) : (s.setWarp v w).walks = s.walks := rfl
@[simp] theorem State.setWarp_refused (s : State) (v : View) (w : Warp) : (s.setWarp v w).refused = s.refused := rfl
@[simp] theorem State.setWarp_cols (s : State) (v : View) (w : Warp) : (s.setWarp v w).cols = s.cols := rfl
@[simp] theorem State.setWarp_ports (s : State) (v : View) (w : Warp) : (s.setWarp v w).ports = s.ports := rfl
@[simp] theorem State.setWarp_farBanks (s : State) (v : View) (w : Warp) : (s.setWarp v w).farBanks = s.farBanks := rfl
@[simp] theorem State.setWarp_links (s : State) (v : View) (w : Warp) : (s.setWarp v w).links = s.links := rfl
@[simp] theorem State.setWarp_asks (s : State) (v : View) (w : Warp) : (s.setWarp v w).asks = s.asks := rfl
@[simp] theorem State.setWarp_routed (s : State) (v : View) (w : Warp) : (s.setWarp v w).routed = s.routed := rfl
@[simp] theorem State.setWarp_routes (s : State) (v : View) (w : Warp) : (s.setWarp v w).routes = s.routes := rfl
@[simp] theorem State.setWarp_waking (s : State) (v : View) (w : Warp) : (s.setWarp v w).waking = s.waking := rfl
@[simp] theorem State.setWarp_gangs (s : State) (v : View) (w : Warp) : (s.setWarp v w).gangs = s.gangs := rfl
@[simp] theorem State.setWarp_records (s : State) (v : View) (w : Warp) : (s.setWarp v w).records = s.records := rfl
@[simp] theorem State.setWarp_tasks (s : State) (v : View) (w : Warp) : (s.setWarp v w).tasks = s.tasks := rfl
@[simp] theorem State.setWarp_steals (s : State) (v : View) (w : Warp) : (s.setWarp v w).steals = s.steals := rfl
@[simp] theorem State.setWarp_qServed (s : State) (v : View) (w : Warp) : (s.setWarp v w).qServed = s.qServed := rfl
@[simp] theorem State.setWarp_sServed (s : State) (v : View) (w : Warp) : (s.setWarp v w).sServed = s.sServed := rfl
@[simp] theorem State.setWarp_memOps (s : State) (v : View) (w : Warp) : (s.setWarp v w).memOps = s.memOps := rfl
@[simp] theorem State.setWarp_copies (s : State) (v : View) (w : Warp) : (s.setWarp v w).copies = s.copies := rfl
@[simp] theorem State.setWarp_matOps (s : State) (v : View) (w : Warp) : (s.setWarp v w).matOps = s.matOps := rfl
@[simp] theorem State.setWarp_texOps (s : State) (v : View) (w : Warp) : (s.setWarp v w).texOps = s.texOps := rfl
@[simp] theorem State.setWarp_rays (s : State) (v : View) (w : Warp) : (s.setWarp v w).rays = s.rays := rfl
@[simp] theorem State.setWarp_rayOps (s : State) (v : View) (w : Warp) : (s.setWarp v w).rayOps = s.rayOps := rfl
@[simp] theorem State.setWarp_ncalls (s : State) (v : View) (w : Warp) : (s.setWarp v w).ncalls = s.ncalls := rfl
@[simp] theorem State.setWarp_regroups (s : State) (v : View) (w : Warp) : (s.setWarp v w).regroups = s.regroups := rfl
@[simp] theorem State.setWarp_rgOps (s : State) (v : View) (w : Warp) : (s.setWarp v w).rgOps = s.rgOps := rfl
@[simp] theorem State.setWarp_tokens (s : State) (v : View) (w : Warp) : (s.setWarp v w).tokens = s.tokens := rfl
@[simp] theorem State.setWarp_sends (s : State) (v : View) (w : Warp) : (s.setWarp v w).sends = s.sends := rfl
@[simp] theorem State.setWarp_abroad (s : State) (v : View) (w : Warp) : (s.setWarp v w).abroad = s.abroad := rfl
@[simp] theorem State.setWarp_landings (s : State) (v : View) (w : Warp) : (s.setWarp v w).landings = s.landings := rfl
@[simp] theorem State.setWarp_meetings (s : State) (v : View) (w : Warp) : (s.setWarp v w).meetings = s.meetings := rfl
@[simp] theorem State.setWarp_mbReqs (s : State) (v : View) (w : Warp) : (s.setWarp v w).mbReqs = s.mbReqs := rfl
@[simp] theorem State.setWarp_pairs (s : State) (v : View) (w : Warp) : (s.setWarp v w).pairs = s.pairs := rfl
@[simp] theorem State.setWarp_episodes (s : State) (v : View) (w : Warp) : (s.setWarp v w).episodes = s.episodes := rfl
@[simp] theorem State.setWarp_pmp (s : State) (v : View) (w : Warp) : (s.setWarp v w).pmp = s.pmp := rfl
@[simp] theorem State.setWarp_draws (s : State) (v : View) (w : Warp) : (s.setWarp v w).draws = s.draws := rfl
@[simp] theorem State.setWarp_pixels (s : State) (v : View) (w : Warp) : (s.setWarp v w).pixels = s.pixels := rfl
@[simp] theorem State.setWarp_sampleAt (s : State) (v : View) (w : Warp) : (s.setWarp v w).sampleAt = s.sampleAt := rfl
@[simp] theorem State.setWarp_iuPc (s : State) (v : View) (w : Warp) : (s.setWarp v w).iuPc = s.iuPc := rfl
@[simp] theorem State.setWarp_cur (s : State) (v : View) (w : Warp) : (s.setWarp v w).cur = s.cur := rfl
@[simp] theorem State.setWarp_plan (s : State) (v : View) (w : Warp) : (s.setWarp v w).plan = s.plan := rfl
@[simp] theorem State.setWarp_inputs (s : State) (v : View) (w : Warp) : (s.setWarp v w).inputs = s.inputs := rfl
@[simp] theorem State.setWarp_freeCtr (s : State) (v : View) (w : Warp) : (s.setWarp v w).freeCtr = s.freeCtr := rfl
@[simp] theorem State.setWarp_nextId (s : State) (v : View) (w : Warp) : (s.setWarp v w).nextId = s.nextId := rfl

/-! ## waitWith -/

@[simp] theorem State.waitWith_clock (s : State) (v : View) (w : Wait) : (s.waitWith v w).clock = s.clock := rfl
@[simp] theorem State.waitWith_tick (s : State) (v : View) (w : Wait) : (s.waitWith v w).tick = s.tick := rfl
@[simp] theorem State.waitWith_subClock (s : State) (v : View) (w : Wait) : (s.waitWith v w).subClock = s.subClock := rfl
@[simp] theorem State.waitWith_clkMHz (s : State) (v : View) (w : Wait) : (s.waitWith v w).clkMHz = s.clkMHz := rfl
@[simp] theorem State.waitWith_limits (s : State) (v : View) (w : Wait) : (s.waitWith v w).limits = s.limits := rfl
@[simp] theorem State.waitWith_thSeen (s : State) (v : View) (w : Wait) : (s.waitWith v w).thSeen = s.thSeen := rfl
@[simp] theorem State.waitWith_throttleAt (s : State) (v : View) (w : Wait) : (s.waitWith v w).throttleAt = s.throttleAt := rfl
@[simp] theorem State.waitWith_pwrRefused (s : State) (v : View) (w : Wait) : (s.waitWith v w).pwrRefused = s.pwrRefused := rfl
@[simp] theorem State.waitWith_pwrState (s : State) (v : View) (w : Wait) : (s.waitWith v w).pwrState = s.pwrState := rfl
@[simp] theorem State.waitWith_pwrExit (s : State) (v : View) (w : Wait) : (s.waitWith v w).pwrExit = s.pwrExit := rfl
@[simp] theorem State.waitWith_khmod (s : State) (v : View) (w : Wait) : (s.waitWith v w).khmod = s.khmod := rfl
@[simp] theorem State.waitWith_fwState (s : State) (v : View) (w : Wait) : (s.waitWith v w).fwState = s.fwState := rfl
@[simp] theorem State.waitWith_fwSvn (s : State) (v : View) (w : Wait) : (s.waitWith v w).fwSvn = s.fwSvn := rfl
@[simp] theorem State.waitWith_fwMeasure (s : State) (v : View) (w : Wait) : (s.waitWith v w).fwMeasure = s.fwMeasure := rfl
@[simp] theorem State.waitWith_verifying (s : State) (v : View) (w : Wait) : (s.waitWith v w).verifying = s.verifying := rfl
@[simp] theorem State.waitWith_fwm (s : State) (v : View) (w : Wait) : (s.waitWith v w).fwm = s.fwm := rfl
@[simp] theorem State.waitWith_peerMap (s : State) (v : View) (w : Wait) : (s.waitWith v w).peerMap = s.peerMap := rfl
@[simp] theorem State.waitWith_linkUp (s : State) (v : View) (w : Wait) : (s.waitWith v w).linkUp = s.linkUp := rfl
@[simp] theorem State.waitWith_diagMode (s : State) (v : View) (w : Wait) : (s.waitWith v w).diagMode = s.diagMode := rfl
@[simp] theorem State.waitWith_cecnt (s : State) (v : View) (w : Wait) : (s.waitWith v w).cecnt = s.cecnt := rfl
@[simp] theorem State.waitWith_snapArm (s : State) (v : View) (w : Wait) : (s.waitWith v w).snapArm = s.snapArm := rfl
@[simp] theorem State.waitWith_snapExten (s : State) (v : View) (w : Wait) : (s.waitWith v w).snapExten = s.snapExten := rfl
@[simp] theorem State.waitWith_snapFired (s : State) (v : View) (w : Wait) : (s.waitWith v w).snapFired = s.snapFired := rfl
@[simp] theorem State.waitWith_snap (s : State) (v : View) (w : Wait) : (s.waitWith v w).snap = s.snap := rfl
@[simp] theorem State.waitWith_seqNo (s : State) (v : View) (w : Wait) : (s.waitWith v w).seqNo = s.seqNo := rfl
@[simp] theorem State.waitWith_ctxs (s : State) (v : View) (w : Wait) : (s.waitWith v w).ctxs = s.ctxs := rfl
@[simp] theorem State.waitWith_mem (s : State) (v : View) (w : Wait) : (s.waitWith v w).mem = s.mem := rfl
@[simp] theorem State.waitWith_poison (s : State) (v : View) (w : Wait) : (s.waitWith v w).poison = s.poison := rfl
@[simp] theorem State.waitWith_scratch (s : State) (v : View) (w : Wait) : (s.waitWith v w).scratch = s.scratch := rfl
@[simp] theorem State.waitWith_banks (s : State) (v : View) (w : Wait) : (s.waitWith v w).banks = s.banks := rfl
@[simp] theorem State.waitWith_l1 (s : State) (v : View) (w : Wait) : (s.waitWith v w).l1 = s.l1 := rfl
@[simp] theorem State.waitWith_far (s : State) (v : View) (w : Wait) : (s.waitWith v w).far = s.far := rfl
@[simp] theorem State.waitWith_farGen (s : State) (v : View) (w : Wait) : (s.waitWith v w).farGen = s.farGen := rfl
@[simp] theorem State.waitWith_constK (s : State) (v : View) (w : Wait) : (s.waitWith v w).constK = s.constK := rfl
@[simp] theorem State.waitWith_ibuf (s : State) (v : View) (w : Wait) : (s.waitWith v w).ibuf = s.ibuf := rfl
@[simp] theorem State.waitWith_rlocks (s : State) (v : View) (w : Wait) : (s.waitWith v w).rlocks = s.rlocks := rfl
@[simp] theorem State.waitWith_tlb (s : State) (v : View) (w : Wait) : (s.waitWith v w).tlb = s.tlb := rfl
@[simp] theorem State.waitWith_walks (s : State) (v : View) (w : Wait) : (s.waitWith v w).walks = s.walks := rfl
@[simp] theorem State.waitWith_refused (s : State) (v : View) (w : Wait) : (s.waitWith v w).refused = s.refused := rfl
@[simp] theorem State.waitWith_cols (s : State) (v : View) (w : Wait) : (s.waitWith v w).cols = s.cols := rfl
@[simp] theorem State.waitWith_ports (s : State) (v : View) (w : Wait) : (s.waitWith v w).ports = s.ports := rfl
@[simp] theorem State.waitWith_farBanks (s : State) (v : View) (w : Wait) : (s.waitWith v w).farBanks = s.farBanks := rfl
@[simp] theorem State.waitWith_links (s : State) (v : View) (w : Wait) : (s.waitWith v w).links = s.links := rfl
@[simp] theorem State.waitWith_asks (s : State) (v : View) (w : Wait) : (s.waitWith v w).asks = s.asks := rfl
@[simp] theorem State.waitWith_routed (s : State) (v : View) (w : Wait) : (s.waitWith v w).routed = s.routed := rfl
@[simp] theorem State.waitWith_routes (s : State) (v : View) (w : Wait) : (s.waitWith v w).routes = s.routes := rfl
@[simp] theorem State.waitWith_waking (s : State) (v : View) (w : Wait) : (s.waitWith v w).waking = s.waking := rfl
@[simp] theorem State.waitWith_gangs (s : State) (v : View) (w : Wait) : (s.waitWith v w).gangs = s.gangs := rfl
@[simp] theorem State.waitWith_records (s : State) (v : View) (w : Wait) : (s.waitWith v w).records = s.records := rfl
@[simp] theorem State.waitWith_tasks (s : State) (v : View) (w : Wait) : (s.waitWith v w).tasks = s.tasks := rfl
@[simp] theorem State.waitWith_steals (s : State) (v : View) (w : Wait) : (s.waitWith v w).steals = s.steals := rfl
@[simp] theorem State.waitWith_qServed (s : State) (v : View) (w : Wait) : (s.waitWith v w).qServed = s.qServed := rfl
@[simp] theorem State.waitWith_sServed (s : State) (v : View) (w : Wait) : (s.waitWith v w).sServed = s.sServed := rfl
@[simp] theorem State.waitWith_memOps (s : State) (v : View) (w : Wait) : (s.waitWith v w).memOps = s.memOps := rfl
@[simp] theorem State.waitWith_copies (s : State) (v : View) (w : Wait) : (s.waitWith v w).copies = s.copies := rfl
@[simp] theorem State.waitWith_matOps (s : State) (v : View) (w : Wait) : (s.waitWith v w).matOps = s.matOps := rfl
@[simp] theorem State.waitWith_texOps (s : State) (v : View) (w : Wait) : (s.waitWith v w).texOps = s.texOps := rfl
@[simp] theorem State.waitWith_rays (s : State) (v : View) (w : Wait) : (s.waitWith v w).rays = s.rays := rfl
@[simp] theorem State.waitWith_rayOps (s : State) (v : View) (w : Wait) : (s.waitWith v w).rayOps = s.rayOps := rfl
@[simp] theorem State.waitWith_ncalls (s : State) (v : View) (w : Wait) : (s.waitWith v w).ncalls = s.ncalls := rfl
@[simp] theorem State.waitWith_regroups (s : State) (v : View) (w : Wait) : (s.waitWith v w).regroups = s.regroups := rfl
@[simp] theorem State.waitWith_rgOps (s : State) (v : View) (w : Wait) : (s.waitWith v w).rgOps = s.rgOps := rfl
@[simp] theorem State.waitWith_tokens (s : State) (v : View) (w : Wait) : (s.waitWith v w).tokens = s.tokens := rfl
@[simp] theorem State.waitWith_sends (s : State) (v : View) (w : Wait) : (s.waitWith v w).sends = s.sends := rfl
@[simp] theorem State.waitWith_abroad (s : State) (v : View) (w : Wait) : (s.waitWith v w).abroad = s.abroad := rfl
@[simp] theorem State.waitWith_landings (s : State) (v : View) (w : Wait) : (s.waitWith v w).landings = s.landings := rfl
@[simp] theorem State.waitWith_meetings (s : State) (v : View) (w : Wait) : (s.waitWith v w).meetings = s.meetings := rfl
@[simp] theorem State.waitWith_mbReqs (s : State) (v : View) (w : Wait) : (s.waitWith v w).mbReqs = s.mbReqs := rfl
@[simp] theorem State.waitWith_pairs (s : State) (v : View) (w : Wait) : (s.waitWith v w).pairs = s.pairs := rfl
@[simp] theorem State.waitWith_episodes (s : State) (v : View) (w : Wait) : (s.waitWith v w).episodes = s.episodes := rfl
@[simp] theorem State.waitWith_pmp (s : State) (v : View) (w : Wait) : (s.waitWith v w).pmp = s.pmp := rfl
@[simp] theorem State.waitWith_draws (s : State) (v : View) (w : Wait) : (s.waitWith v w).draws = s.draws := rfl
@[simp] theorem State.waitWith_pixels (s : State) (v : View) (w : Wait) : (s.waitWith v w).pixels = s.pixels := rfl
@[simp] theorem State.waitWith_sampleAt (s : State) (v : View) (w : Wait) : (s.waitWith v w).sampleAt = s.sampleAt := rfl
@[simp] theorem State.waitWith_iuPc (s : State) (v : View) (w : Wait) : (s.waitWith v w).iuPc = s.iuPc := rfl
@[simp] theorem State.waitWith_cur (s : State) (v : View) (w : Wait) : (s.waitWith v w).cur = s.cur := rfl
@[simp] theorem State.waitWith_plan (s : State) (v : View) (w : Wait) : (s.waitWith v w).plan = s.plan := rfl
@[simp] theorem State.waitWith_inputs (s : State) (v : View) (w : Wait) : (s.waitWith v w).inputs = s.inputs := rfl
@[simp] theorem State.waitWith_freeCtr (s : State) (v : View) (w : Wait) : (s.waitWith v w).freeCtr = s.freeCtr := rfl
@[simp] theorem State.waitWith_nextId (s : State) (v : View) (w : Wait) : (s.waitWith v w).nextId = s.nextId := rfl

/-! ## stall -/

@[simp] theorem State.stall_clock (s : State) (v : View) (r : Nat) : (s.stall v r).clock = s.clock := rfl
@[simp] theorem State.stall_tick (s : State) (v : View) (r : Nat) : (s.stall v r).tick = s.tick := rfl
@[simp] theorem State.stall_subClock (s : State) (v : View) (r : Nat) : (s.stall v r).subClock = s.subClock := rfl
@[simp] theorem State.stall_clkMHz (s : State) (v : View) (r : Nat) : (s.stall v r).clkMHz = s.clkMHz := rfl
@[simp] theorem State.stall_limits (s : State) (v : View) (r : Nat) : (s.stall v r).limits = s.limits := rfl
@[simp] theorem State.stall_thSeen (s : State) (v : View) (r : Nat) : (s.stall v r).thSeen = s.thSeen := rfl
@[simp] theorem State.stall_throttleAt (s : State) (v : View) (r : Nat) : (s.stall v r).throttleAt = s.throttleAt := rfl
@[simp] theorem State.stall_pwrRefused (s : State) (v : View) (r : Nat) : (s.stall v r).pwrRefused = s.pwrRefused := rfl
@[simp] theorem State.stall_pwrState (s : State) (v : View) (r : Nat) : (s.stall v r).pwrState = s.pwrState := rfl
@[simp] theorem State.stall_pwrExit (s : State) (v : View) (r : Nat) : (s.stall v r).pwrExit = s.pwrExit := rfl
@[simp] theorem State.stall_khmod (s : State) (v : View) (r : Nat) : (s.stall v r).khmod = s.khmod := rfl
@[simp] theorem State.stall_fwState (s : State) (v : View) (r : Nat) : (s.stall v r).fwState = s.fwState := rfl
@[simp] theorem State.stall_fwSvn (s : State) (v : View) (r : Nat) : (s.stall v r).fwSvn = s.fwSvn := rfl
@[simp] theorem State.stall_fwMeasure (s : State) (v : View) (r : Nat) : (s.stall v r).fwMeasure = s.fwMeasure := rfl
@[simp] theorem State.stall_verifying (s : State) (v : View) (r : Nat) : (s.stall v r).verifying = s.verifying := rfl
@[simp] theorem State.stall_fwm (s : State) (v : View) (r : Nat) : (s.stall v r).fwm = s.fwm := rfl
@[simp] theorem State.stall_peerMap (s : State) (v : View) (r : Nat) : (s.stall v r).peerMap = s.peerMap := rfl
@[simp] theorem State.stall_linkUp (s : State) (v : View) (r : Nat) : (s.stall v r).linkUp = s.linkUp := rfl
@[simp] theorem State.stall_diagMode (s : State) (v : View) (r : Nat) : (s.stall v r).diagMode = s.diagMode := rfl
@[simp] theorem State.stall_cecnt (s : State) (v : View) (r : Nat) : (s.stall v r).cecnt = s.cecnt := rfl
@[simp] theorem State.stall_snapArm (s : State) (v : View) (r : Nat) : (s.stall v r).snapArm = s.snapArm := rfl
@[simp] theorem State.stall_snapExten (s : State) (v : View) (r : Nat) : (s.stall v r).snapExten = s.snapExten := rfl
@[simp] theorem State.stall_snapFired (s : State) (v : View) (r : Nat) : (s.stall v r).snapFired = s.snapFired := rfl
@[simp] theorem State.stall_snap (s : State) (v : View) (r : Nat) : (s.stall v r).snap = s.snap := rfl
@[simp] theorem State.stall_seqNo (s : State) (v : View) (r : Nat) : (s.stall v r).seqNo = s.seqNo := rfl
@[simp] theorem State.stall_ctxs (s : State) (v : View) (r : Nat) : (s.stall v r).ctxs = s.ctxs := rfl
@[simp] theorem State.stall_mem (s : State) (v : View) (r : Nat) : (s.stall v r).mem = s.mem := rfl
@[simp] theorem State.stall_poison (s : State) (v : View) (r : Nat) : (s.stall v r).poison = s.poison := rfl
@[simp] theorem State.stall_scratch (s : State) (v : View) (r : Nat) : (s.stall v r).scratch = s.scratch := rfl
@[simp] theorem State.stall_banks (s : State) (v : View) (r : Nat) : (s.stall v r).banks = s.banks := rfl
@[simp] theorem State.stall_l1 (s : State) (v : View) (r : Nat) : (s.stall v r).l1 = s.l1 := rfl
@[simp] theorem State.stall_far (s : State) (v : View) (r : Nat) : (s.stall v r).far = s.far := rfl
@[simp] theorem State.stall_farGen (s : State) (v : View) (r : Nat) : (s.stall v r).farGen = s.farGen := rfl
@[simp] theorem State.stall_constK (s : State) (v : View) (r : Nat) : (s.stall v r).constK = s.constK := rfl
@[simp] theorem State.stall_ibuf (s : State) (v : View) (r : Nat) : (s.stall v r).ibuf = s.ibuf := rfl
@[simp] theorem State.stall_rlocks (s : State) (v : View) (r : Nat) : (s.stall v r).rlocks = s.rlocks := rfl
@[simp] theorem State.stall_tlb (s : State) (v : View) (r : Nat) : (s.stall v r).tlb = s.tlb := rfl
@[simp] theorem State.stall_walks (s : State) (v : View) (r : Nat) : (s.stall v r).walks = s.walks := rfl
@[simp] theorem State.stall_refused (s : State) (v : View) (r : Nat) : (s.stall v r).refused = s.refused := rfl
@[simp] theorem State.stall_cols (s : State) (v : View) (r : Nat) : (s.stall v r).cols = s.cols := rfl
@[simp] theorem State.stall_ports (s : State) (v : View) (r : Nat) : (s.stall v r).ports = s.ports := rfl
@[simp] theorem State.stall_farBanks (s : State) (v : View) (r : Nat) : (s.stall v r).farBanks = s.farBanks := rfl
@[simp] theorem State.stall_links (s : State) (v : View) (r : Nat) : (s.stall v r).links = s.links := rfl
@[simp] theorem State.stall_asks (s : State) (v : View) (r : Nat) : (s.stall v r).asks = s.asks := rfl
@[simp] theorem State.stall_routed (s : State) (v : View) (r : Nat) : (s.stall v r).routed = s.routed := rfl
@[simp] theorem State.stall_routes (s : State) (v : View) (r : Nat) : (s.stall v r).routes = s.routes := rfl
@[simp] theorem State.stall_waking (s : State) (v : View) (r : Nat) : (s.stall v r).waking = s.waking := rfl
@[simp] theorem State.stall_gangs (s : State) (v : View) (r : Nat) : (s.stall v r).gangs = s.gangs := rfl
@[simp] theorem State.stall_records (s : State) (v : View) (r : Nat) : (s.stall v r).records = s.records := rfl
@[simp] theorem State.stall_tasks (s : State) (v : View) (r : Nat) : (s.stall v r).tasks = s.tasks := rfl
@[simp] theorem State.stall_steals (s : State) (v : View) (r : Nat) : (s.stall v r).steals = s.steals := rfl
@[simp] theorem State.stall_qServed (s : State) (v : View) (r : Nat) : (s.stall v r).qServed = s.qServed := rfl
@[simp] theorem State.stall_sServed (s : State) (v : View) (r : Nat) : (s.stall v r).sServed = s.sServed := rfl
@[simp] theorem State.stall_memOps (s : State) (v : View) (r : Nat) : (s.stall v r).memOps = s.memOps := rfl
@[simp] theorem State.stall_copies (s : State) (v : View) (r : Nat) : (s.stall v r).copies = s.copies := rfl
@[simp] theorem State.stall_matOps (s : State) (v : View) (r : Nat) : (s.stall v r).matOps = s.matOps := rfl
@[simp] theorem State.stall_texOps (s : State) (v : View) (r : Nat) : (s.stall v r).texOps = s.texOps := rfl
@[simp] theorem State.stall_rays (s : State) (v : View) (r : Nat) : (s.stall v r).rays = s.rays := rfl
@[simp] theorem State.stall_rayOps (s : State) (v : View) (r : Nat) : (s.stall v r).rayOps = s.rayOps := rfl
@[simp] theorem State.stall_ncalls (s : State) (v : View) (r : Nat) : (s.stall v r).ncalls = s.ncalls := rfl
@[simp] theorem State.stall_regroups (s : State) (v : View) (r : Nat) : (s.stall v r).regroups = s.regroups := rfl
@[simp] theorem State.stall_rgOps (s : State) (v : View) (r : Nat) : (s.stall v r).rgOps = s.rgOps := rfl
@[simp] theorem State.stall_tokens (s : State) (v : View) (r : Nat) : (s.stall v r).tokens = s.tokens := rfl
@[simp] theorem State.stall_sends (s : State) (v : View) (r : Nat) : (s.stall v r).sends = s.sends := rfl
@[simp] theorem State.stall_abroad (s : State) (v : View) (r : Nat) : (s.stall v r).abroad = s.abroad := rfl
@[simp] theorem State.stall_landings (s : State) (v : View) (r : Nat) : (s.stall v r).landings = s.landings := rfl
@[simp] theorem State.stall_meetings (s : State) (v : View) (r : Nat) : (s.stall v r).meetings = s.meetings := rfl
@[simp] theorem State.stall_mbReqs (s : State) (v : View) (r : Nat) : (s.stall v r).mbReqs = s.mbReqs := rfl
@[simp] theorem State.stall_pairs (s : State) (v : View) (r : Nat) : (s.stall v r).pairs = s.pairs := rfl
@[simp] theorem State.stall_episodes (s : State) (v : View) (r : Nat) : (s.stall v r).episodes = s.episodes := rfl
@[simp] theorem State.stall_pmp (s : State) (v : View) (r : Nat) : (s.stall v r).pmp = s.pmp := rfl
@[simp] theorem State.stall_draws (s : State) (v : View) (r : Nat) : (s.stall v r).draws = s.draws := rfl
@[simp] theorem State.stall_pixels (s : State) (v : View) (r : Nat) : (s.stall v r).pixels = s.pixels := rfl
@[simp] theorem State.stall_sampleAt (s : State) (v : View) (r : Nat) : (s.stall v r).sampleAt = s.sampleAt := rfl
@[simp] theorem State.stall_iuPc (s : State) (v : View) (r : Nat) : (s.stall v r).iuPc = s.iuPc := rfl
@[simp] theorem State.stall_cur (s : State) (v : View) (r : Nat) : (s.stall v r).cur = s.cur := rfl
@[simp] theorem State.stall_plan (s : State) (v : View) (r : Nat) : (s.stall v r).plan = s.plan := rfl
@[simp] theorem State.stall_inputs (s : State) (v : View) (r : Nat) : (s.stall v r).inputs = s.inputs := rfl
@[simp] theorem State.stall_freeCtr (s : State) (v : View) (r : Nat) : (s.stall v r).freeCtr = s.freeCtr := rfl
@[simp] theorem State.stall_nextId (s : State) (v : View) (r : Nat) : (s.stall v r).nextId = s.nextId := rfl

/-! ## haltTeam -/

@[simp] theorem State.haltTeam_clock (s : State) (u : Nat) : (s.haltTeam u).clock = s.clock := rfl
@[simp] theorem State.haltTeam_tick (s : State) (u : Nat) : (s.haltTeam u).tick = s.tick := rfl
@[simp] theorem State.haltTeam_subClock (s : State) (u : Nat) : (s.haltTeam u).subClock = s.subClock := rfl
@[simp] theorem State.haltTeam_clkMHz (s : State) (u : Nat) : (s.haltTeam u).clkMHz = s.clkMHz := rfl
@[simp] theorem State.haltTeam_limits (s : State) (u : Nat) : (s.haltTeam u).limits = s.limits := rfl
@[simp] theorem State.haltTeam_thSeen (s : State) (u : Nat) : (s.haltTeam u).thSeen = s.thSeen := rfl
@[simp] theorem State.haltTeam_throttleAt (s : State) (u : Nat) : (s.haltTeam u).throttleAt = s.throttleAt := rfl
@[simp] theorem State.haltTeam_pwrRefused (s : State) (u : Nat) : (s.haltTeam u).pwrRefused = s.pwrRefused := rfl
@[simp] theorem State.haltTeam_pwrState (s : State) (u : Nat) : (s.haltTeam u).pwrState = s.pwrState := rfl
@[simp] theorem State.haltTeam_pwrExit (s : State) (u : Nat) : (s.haltTeam u).pwrExit = s.pwrExit := rfl
@[simp] theorem State.haltTeam_khmod (s : State) (u : Nat) : (s.haltTeam u).khmod = s.khmod := rfl
@[simp] theorem State.haltTeam_fwState (s : State) (u : Nat) : (s.haltTeam u).fwState = s.fwState := rfl
@[simp] theorem State.haltTeam_fwSvn (s : State) (u : Nat) : (s.haltTeam u).fwSvn = s.fwSvn := rfl
@[simp] theorem State.haltTeam_fwMeasure (s : State) (u : Nat) : (s.haltTeam u).fwMeasure = s.fwMeasure := rfl
@[simp] theorem State.haltTeam_verifying (s : State) (u : Nat) : (s.haltTeam u).verifying = s.verifying := rfl
@[simp] theorem State.haltTeam_fwm (s : State) (u : Nat) : (s.haltTeam u).fwm = s.fwm := rfl
@[simp] theorem State.haltTeam_peerMap (s : State) (u : Nat) : (s.haltTeam u).peerMap = s.peerMap := rfl
@[simp] theorem State.haltTeam_linkUp (s : State) (u : Nat) : (s.haltTeam u).linkUp = s.linkUp := rfl
@[simp] theorem State.haltTeam_diagMode (s : State) (u : Nat) : (s.haltTeam u).diagMode = s.diagMode := rfl
@[simp] theorem State.haltTeam_cecnt (s : State) (u : Nat) : (s.haltTeam u).cecnt = s.cecnt := rfl
@[simp] theorem State.haltTeam_snapArm (s : State) (u : Nat) : (s.haltTeam u).snapArm = s.snapArm := rfl
@[simp] theorem State.haltTeam_snapExten (s : State) (u : Nat) : (s.haltTeam u).snapExten = s.snapExten := rfl
@[simp] theorem State.haltTeam_snapFired (s : State) (u : Nat) : (s.haltTeam u).snapFired = s.snapFired := rfl
@[simp] theorem State.haltTeam_snap (s : State) (u : Nat) : (s.haltTeam u).snap = s.snap := rfl
@[simp] theorem State.haltTeam_seqNo (s : State) (u : Nat) : (s.haltTeam u).seqNo = s.seqNo := rfl
@[simp] theorem State.haltTeam_ctxs (s : State) (u : Nat) : (s.haltTeam u).ctxs = s.ctxs := rfl
@[simp] theorem State.haltTeam_mem (s : State) (u : Nat) : (s.haltTeam u).mem = s.mem := rfl
@[simp] theorem State.haltTeam_poison (s : State) (u : Nat) : (s.haltTeam u).poison = s.poison := rfl
@[simp] theorem State.haltTeam_scratch (s : State) (u : Nat) : (s.haltTeam u).scratch = s.scratch := rfl
@[simp] theorem State.haltTeam_banks (s : State) (u : Nat) : (s.haltTeam u).banks = s.banks := rfl
@[simp] theorem State.haltTeam_l1 (s : State) (u : Nat) : (s.haltTeam u).l1 = s.l1 := rfl
@[simp] theorem State.haltTeam_far (s : State) (u : Nat) : (s.haltTeam u).far = s.far := rfl
@[simp] theorem State.haltTeam_farGen (s : State) (u : Nat) : (s.haltTeam u).farGen = s.farGen := rfl
@[simp] theorem State.haltTeam_constK (s : State) (u : Nat) : (s.haltTeam u).constK = s.constK := rfl
@[simp] theorem State.haltTeam_ibuf (s : State) (u : Nat) : (s.haltTeam u).ibuf = s.ibuf := rfl
@[simp] theorem State.haltTeam_rlocks (s : State) (u : Nat) : (s.haltTeam u).rlocks = s.rlocks := rfl
@[simp] theorem State.haltTeam_tlb (s : State) (u : Nat) : (s.haltTeam u).tlb = s.tlb := rfl
@[simp] theorem State.haltTeam_walks (s : State) (u : Nat) : (s.haltTeam u).walks = s.walks := rfl
@[simp] theorem State.haltTeam_refused (s : State) (u : Nat) : (s.haltTeam u).refused = s.refused := rfl
@[simp] theorem State.haltTeam_cols (s : State) (u : Nat) : (s.haltTeam u).cols = s.cols := rfl
@[simp] theorem State.haltTeam_ports (s : State) (u : Nat) : (s.haltTeam u).ports = s.ports := rfl
@[simp] theorem State.haltTeam_farBanks (s : State) (u : Nat) : (s.haltTeam u).farBanks = s.farBanks := rfl
@[simp] theorem State.haltTeam_links (s : State) (u : Nat) : (s.haltTeam u).links = s.links := rfl
@[simp] theorem State.haltTeam_asks (s : State) (u : Nat) : (s.haltTeam u).asks = s.asks := rfl
@[simp] theorem State.haltTeam_routed (s : State) (u : Nat) : (s.haltTeam u).routed = s.routed := rfl
@[simp] theorem State.haltTeam_routes (s : State) (u : Nat) : (s.haltTeam u).routes = s.routes := rfl
@[simp] theorem State.haltTeam_waking (s : State) (u : Nat) : (s.haltTeam u).waking = s.waking := rfl
@[simp] theorem State.haltTeam_gangs (s : State) (u : Nat) : (s.haltTeam u).gangs = s.gangs := rfl
@[simp] theorem State.haltTeam_records (s : State) (u : Nat) : (s.haltTeam u).records = s.records := rfl
@[simp] theorem State.haltTeam_tasks (s : State) (u : Nat) : (s.haltTeam u).tasks = s.tasks := rfl
@[simp] theorem State.haltTeam_steals (s : State) (u : Nat) : (s.haltTeam u).steals = s.steals := rfl
@[simp] theorem State.haltTeam_qServed (s : State) (u : Nat) : (s.haltTeam u).qServed = s.qServed := rfl
@[simp] theorem State.haltTeam_sServed (s : State) (u : Nat) : (s.haltTeam u).sServed = s.sServed := rfl
@[simp] theorem State.haltTeam_memOps (s : State) (u : Nat) : (s.haltTeam u).memOps = s.memOps := rfl
@[simp] theorem State.haltTeam_copies (s : State) (u : Nat) : (s.haltTeam u).copies = s.copies := rfl
@[simp] theorem State.haltTeam_matOps (s : State) (u : Nat) : (s.haltTeam u).matOps = s.matOps := rfl
@[simp] theorem State.haltTeam_texOps (s : State) (u : Nat) : (s.haltTeam u).texOps = s.texOps := rfl
@[simp] theorem State.haltTeam_rays (s : State) (u : Nat) : (s.haltTeam u).rays = s.rays := rfl
@[simp] theorem State.haltTeam_rayOps (s : State) (u : Nat) : (s.haltTeam u).rayOps = s.rayOps := rfl
@[simp] theorem State.haltTeam_ncalls (s : State) (u : Nat) : (s.haltTeam u).ncalls = s.ncalls := rfl
@[simp] theorem State.haltTeam_regroups (s : State) (u : Nat) : (s.haltTeam u).regroups = s.regroups := rfl
@[simp] theorem State.haltTeam_rgOps (s : State) (u : Nat) : (s.haltTeam u).rgOps = s.rgOps := rfl
@[simp] theorem State.haltTeam_tokens (s : State) (u : Nat) : (s.haltTeam u).tokens = s.tokens := rfl
@[simp] theorem State.haltTeam_sends (s : State) (u : Nat) : (s.haltTeam u).sends = s.sends := rfl
@[simp] theorem State.haltTeam_abroad (s : State) (u : Nat) : (s.haltTeam u).abroad = s.abroad := rfl
@[simp] theorem State.haltTeam_landings (s : State) (u : Nat) : (s.haltTeam u).landings = s.landings := rfl
@[simp] theorem State.haltTeam_meetings (s : State) (u : Nat) : (s.haltTeam u).meetings = s.meetings := rfl
@[simp] theorem State.haltTeam_mbReqs (s : State) (u : Nat) : (s.haltTeam u).mbReqs = s.mbReqs := rfl
@[simp] theorem State.haltTeam_pairs (s : State) (u : Nat) : (s.haltTeam u).pairs = s.pairs := rfl
@[simp] theorem State.haltTeam_episodes (s : State) (u : Nat) : (s.haltTeam u).episodes = s.episodes := rfl
@[simp] theorem State.haltTeam_pmp (s : State) (u : Nat) : (s.haltTeam u).pmp = s.pmp := rfl
@[simp] theorem State.haltTeam_draws (s : State) (u : Nat) : (s.haltTeam u).draws = s.draws := rfl
@[simp] theorem State.haltTeam_pixels (s : State) (u : Nat) : (s.haltTeam u).pixels = s.pixels := rfl
@[simp] theorem State.haltTeam_sampleAt (s : State) (u : Nat) : (s.haltTeam u).sampleAt = s.sampleAt := rfl
@[simp] theorem State.haltTeam_iuPc (s : State) (u : Nat) : (s.haltTeam u).iuPc = s.iuPc := rfl
@[simp] theorem State.haltTeam_cur (s : State) (u : Nat) : (s.haltTeam u).cur = s.cur := rfl
@[simp] theorem State.haltTeam_plan (s : State) (u : Nat) : (s.haltTeam u).plan = s.plan := rfl
@[simp] theorem State.haltTeam_inputs (s : State) (u : Nat) : (s.haltTeam u).inputs = s.inputs := rfl
@[simp] theorem State.haltTeam_freeCtr (s : State) (u : Nat) : (s.haltTeam u).freeCtr = s.freeCtr := rfl
@[simp] theorem State.haltTeam_nextId (s : State) (u : Nat) : (s.haltTeam u).nextId = s.nextId := rfl

/-! ## dbgResult -/

@[simp] theorem State.dbgResult_clock (s : State) (c : Nat) (i : Word) (r : Nat) : (s.dbgResult c i r).clock = s.clock := rfl
@[simp] theorem State.dbgResult_tick (s : State) (c : Nat) (i : Word) (r : Nat) : (s.dbgResult c i r).tick = s.tick := rfl
@[simp] theorem State.dbgResult_subClock (s : State) (c : Nat) (i : Word) (r : Nat) : (s.dbgResult c i r).subClock = s.subClock := rfl
@[simp] theorem State.dbgResult_clkMHz (s : State) (c : Nat) (i : Word) (r : Nat) : (s.dbgResult c i r).clkMHz = s.clkMHz := rfl
@[simp] theorem State.dbgResult_limits (s : State) (c : Nat) (i : Word) (r : Nat) : (s.dbgResult c i r).limits = s.limits := rfl
@[simp] theorem State.dbgResult_thSeen (s : State) (c : Nat) (i : Word) (r : Nat) : (s.dbgResult c i r).thSeen = s.thSeen := rfl
@[simp] theorem State.dbgResult_throttleAt (s : State) (c : Nat) (i : Word) (r : Nat) : (s.dbgResult c i r).throttleAt = s.throttleAt := rfl
@[simp] theorem State.dbgResult_pwrRefused (s : State) (c : Nat) (i : Word) (r : Nat) : (s.dbgResult c i r).pwrRefused = s.pwrRefused := rfl
@[simp] theorem State.dbgResult_pwrState (s : State) (c : Nat) (i : Word) (r : Nat) : (s.dbgResult c i r).pwrState = s.pwrState := rfl
@[simp] theorem State.dbgResult_pwrExit (s : State) (c : Nat) (i : Word) (r : Nat) : (s.dbgResult c i r).pwrExit = s.pwrExit := rfl
@[simp] theorem State.dbgResult_khmod (s : State) (c : Nat) (i : Word) (r : Nat) : (s.dbgResult c i r).khmod = s.khmod := rfl
@[simp] theorem State.dbgResult_fwState (s : State) (c : Nat) (i : Word) (r : Nat) : (s.dbgResult c i r).fwState = s.fwState := rfl
@[simp] theorem State.dbgResult_fwSvn (s : State) (c : Nat) (i : Word) (r : Nat) : (s.dbgResult c i r).fwSvn = s.fwSvn := rfl
@[simp] theorem State.dbgResult_fwMeasure (s : State) (c : Nat) (i : Word) (r : Nat) : (s.dbgResult c i r).fwMeasure = s.fwMeasure := rfl
@[simp] theorem State.dbgResult_verifying (s : State) (c : Nat) (i : Word) (r : Nat) : (s.dbgResult c i r).verifying = s.verifying := rfl
@[simp] theorem State.dbgResult_fwm (s : State) (c : Nat) (i : Word) (r : Nat) : (s.dbgResult c i r).fwm = s.fwm := rfl
@[simp] theorem State.dbgResult_peerMap (s : State) (c : Nat) (i : Word) (r : Nat) : (s.dbgResult c i r).peerMap = s.peerMap := rfl
@[simp] theorem State.dbgResult_linkUp (s : State) (c : Nat) (i : Word) (r : Nat) : (s.dbgResult c i r).linkUp = s.linkUp := rfl
@[simp] theorem State.dbgResult_diagMode (s : State) (c : Nat) (i : Word) (r : Nat) : (s.dbgResult c i r).diagMode = s.diagMode := rfl
@[simp] theorem State.dbgResult_cecnt (s : State) (c : Nat) (i : Word) (r : Nat) : (s.dbgResult c i r).cecnt = s.cecnt := rfl
@[simp] theorem State.dbgResult_snapArm (s : State) (c : Nat) (i : Word) (r : Nat) : (s.dbgResult c i r).snapArm = s.snapArm := rfl
@[simp] theorem State.dbgResult_snapExten (s : State) (c : Nat) (i : Word) (r : Nat) : (s.dbgResult c i r).snapExten = s.snapExten := rfl
@[simp] theorem State.dbgResult_snapFired (s : State) (c : Nat) (i : Word) (r : Nat) : (s.dbgResult c i r).snapFired = s.snapFired := rfl
@[simp] theorem State.dbgResult_snap (s : State) (c : Nat) (i : Word) (r : Nat) : (s.dbgResult c i r).snap = s.snap := rfl
@[simp] theorem State.dbgResult_seqNo (s : State) (c : Nat) (i : Word) (r : Nat) : (s.dbgResult c i r).seqNo = s.seqNo := rfl
@[simp] theorem State.dbgResult_mem (s : State) (c : Nat) (i : Word) (r : Nat) : (s.dbgResult c i r).mem = s.mem := rfl
@[simp] theorem State.dbgResult_poison (s : State) (c : Nat) (i : Word) (r : Nat) : (s.dbgResult c i r).poison = s.poison := rfl
@[simp] theorem State.dbgResult_scratch (s : State) (c : Nat) (i : Word) (r : Nat) : (s.dbgResult c i r).scratch = s.scratch := rfl
@[simp] theorem State.dbgResult_banks (s : State) (c : Nat) (i : Word) (r : Nat) : (s.dbgResult c i r).banks = s.banks := rfl
@[simp] theorem State.dbgResult_l1 (s : State) (c : Nat) (i : Word) (r : Nat) : (s.dbgResult c i r).l1 = s.l1 := rfl
@[simp] theorem State.dbgResult_far (s : State) (c : Nat) (i : Word) (r : Nat) : (s.dbgResult c i r).far = s.far := rfl
@[simp] theorem State.dbgResult_farGen (s : State) (c : Nat) (i : Word) (r : Nat) : (s.dbgResult c i r).farGen = s.farGen := rfl
@[simp] theorem State.dbgResult_constK (s : State) (c : Nat) (i : Word) (r : Nat) : (s.dbgResult c i r).constK = s.constK := rfl
@[simp] theorem State.dbgResult_ibuf (s : State) (c : Nat) (i : Word) (r : Nat) : (s.dbgResult c i r).ibuf = s.ibuf := rfl
@[simp] theorem State.dbgResult_rlocks (s : State) (c : Nat) (i : Word) (r : Nat) : (s.dbgResult c i r).rlocks = s.rlocks := rfl
@[simp] theorem State.dbgResult_tlb (s : State) (c : Nat) (i : Word) (r : Nat) : (s.dbgResult c i r).tlb = s.tlb := rfl
@[simp] theorem State.dbgResult_walks (s : State) (c : Nat) (i : Word) (r : Nat) : (s.dbgResult c i r).walks = s.walks := rfl
@[simp] theorem State.dbgResult_refused (s : State) (c : Nat) (i : Word) (r : Nat) : (s.dbgResult c i r).refused = s.refused := rfl
@[simp] theorem State.dbgResult_cols (s : State) (c : Nat) (i : Word) (r : Nat) : (s.dbgResult c i r).cols = s.cols := rfl
@[simp] theorem State.dbgResult_ports (s : State) (c : Nat) (i : Word) (r : Nat) : (s.dbgResult c i r).ports = s.ports := rfl
@[simp] theorem State.dbgResult_farBanks (s : State) (c : Nat) (i : Word) (r : Nat) : (s.dbgResult c i r).farBanks = s.farBanks := rfl
@[simp] theorem State.dbgResult_links (s : State) (c : Nat) (i : Word) (r : Nat) : (s.dbgResult c i r).links = s.links := rfl
@[simp] theorem State.dbgResult_asks (s : State) (c : Nat) (i : Word) (r : Nat) : (s.dbgResult c i r).asks = s.asks := rfl
@[simp] theorem State.dbgResult_routed (s : State) (c : Nat) (i : Word) (r : Nat) : (s.dbgResult c i r).routed = s.routed := rfl
@[simp] theorem State.dbgResult_routes (s : State) (c : Nat) (i : Word) (r : Nat) : (s.dbgResult c i r).routes = s.routes := rfl
@[simp] theorem State.dbgResult_waking (s : State) (c : Nat) (i : Word) (r : Nat) : (s.dbgResult c i r).waking = s.waking := rfl
@[simp] theorem State.dbgResult_teams (s : State) (c : Nat) (i : Word) (r : Nat) : (s.dbgResult c i r).teams = s.teams := rfl
@[simp] theorem State.dbgResult_gangs (s : State) (c : Nat) (i : Word) (r : Nat) : (s.dbgResult c i r).gangs = s.gangs := rfl
@[simp] theorem State.dbgResult_records (s : State) (c : Nat) (i : Word) (r : Nat) : (s.dbgResult c i r).records = s.records := rfl
@[simp] theorem State.dbgResult_tasks (s : State) (c : Nat) (i : Word) (r : Nat) : (s.dbgResult c i r).tasks = s.tasks := rfl
@[simp] theorem State.dbgResult_steals (s : State) (c : Nat) (i : Word) (r : Nat) : (s.dbgResult c i r).steals = s.steals := rfl
@[simp] theorem State.dbgResult_qServed (s : State) (c : Nat) (i : Word) (r : Nat) : (s.dbgResult c i r).qServed = s.qServed := rfl
@[simp] theorem State.dbgResult_sServed (s : State) (c : Nat) (i : Word) (r : Nat) : (s.dbgResult c i r).sServed = s.sServed := rfl
@[simp] theorem State.dbgResult_memOps (s : State) (c : Nat) (i : Word) (r : Nat) : (s.dbgResult c i r).memOps = s.memOps := rfl
@[simp] theorem State.dbgResult_copies (s : State) (c : Nat) (i : Word) (r : Nat) : (s.dbgResult c i r).copies = s.copies := rfl
@[simp] theorem State.dbgResult_matOps (s : State) (c : Nat) (i : Word) (r : Nat) : (s.dbgResult c i r).matOps = s.matOps := rfl
@[simp] theorem State.dbgResult_texOps (s : State) (c : Nat) (i : Word) (r : Nat) : (s.dbgResult c i r).texOps = s.texOps := rfl
@[simp] theorem State.dbgResult_rays (s : State) (c : Nat) (i : Word) (r : Nat) : (s.dbgResult c i r).rays = s.rays := rfl
@[simp] theorem State.dbgResult_rayOps (s : State) (c : Nat) (i : Word) (r : Nat) : (s.dbgResult c i r).rayOps = s.rayOps := rfl
@[simp] theorem State.dbgResult_ncalls (s : State) (c : Nat) (i : Word) (r : Nat) : (s.dbgResult c i r).ncalls = s.ncalls := rfl
@[simp] theorem State.dbgResult_regroups (s : State) (c : Nat) (i : Word) (r : Nat) : (s.dbgResult c i r).regroups = s.regroups := rfl
@[simp] theorem State.dbgResult_rgOps (s : State) (c : Nat) (i : Word) (r : Nat) : (s.dbgResult c i r).rgOps = s.rgOps := rfl
@[simp] theorem State.dbgResult_tokens (s : State) (c : Nat) (i : Word) (r : Nat) : (s.dbgResult c i r).tokens = s.tokens := rfl
@[simp] theorem State.dbgResult_sends (s : State) (c : Nat) (i : Word) (r : Nat) : (s.dbgResult c i r).sends = s.sends := rfl
@[simp] theorem State.dbgResult_abroad (s : State) (c : Nat) (i : Word) (r : Nat) : (s.dbgResult c i r).abroad = s.abroad := rfl
@[simp] theorem State.dbgResult_landings (s : State) (c : Nat) (i : Word) (r : Nat) : (s.dbgResult c i r).landings = s.landings := rfl
@[simp] theorem State.dbgResult_meetings (s : State) (c : Nat) (i : Word) (r : Nat) : (s.dbgResult c i r).meetings = s.meetings := rfl
@[simp] theorem State.dbgResult_mbReqs (s : State) (c : Nat) (i : Word) (r : Nat) : (s.dbgResult c i r).mbReqs = s.mbReqs := rfl
@[simp] theorem State.dbgResult_pairs (s : State) (c : Nat) (i : Word) (r : Nat) : (s.dbgResult c i r).pairs = s.pairs := rfl
@[simp] theorem State.dbgResult_episodes (s : State) (c : Nat) (i : Word) (r : Nat) : (s.dbgResult c i r).episodes = s.episodes := rfl
@[simp] theorem State.dbgResult_pmp (s : State) (c : Nat) (i : Word) (r : Nat) : (s.dbgResult c i r).pmp = s.pmp := rfl
@[simp] theorem State.dbgResult_draws (s : State) (c : Nat) (i : Word) (r : Nat) : (s.dbgResult c i r).draws = s.draws := rfl
@[simp] theorem State.dbgResult_pixels (s : State) (c : Nat) (i : Word) (r : Nat) : (s.dbgResult c i r).pixels = s.pixels := rfl
@[simp] theorem State.dbgResult_sampleAt (s : State) (c : Nat) (i : Word) (r : Nat) : (s.dbgResult c i r).sampleAt = s.sampleAt := rfl
@[simp] theorem State.dbgResult_iuPc (s : State) (c : Nat) (i : Word) (r : Nat) : (s.dbgResult c i r).iuPc = s.iuPc := rfl
@[simp] theorem State.dbgResult_cur (s : State) (c : Nat) (i : Word) (r : Nat) : (s.dbgResult c i r).cur = s.cur := rfl
@[simp] theorem State.dbgResult_plan (s : State) (c : Nat) (i : Word) (r : Nat) : (s.dbgResult c i r).plan = s.plan := rfl
@[simp] theorem State.dbgResult_inputs (s : State) (c : Nat) (i : Word) (r : Nat) : (s.dbgResult c i r).inputs = s.inputs := rfl
@[simp] theorem State.dbgResult_freeCtr (s : State) (c : Nat) (i : Word) (r : Nat) : (s.dbgResult c i r).freeCtr = s.freeCtr := rfl
@[simp] theorem State.dbgResult_nextId (s : State) (c : Nat) (i : Word) (r : Nat) : (s.dbgResult c i r).nextId = s.nextId := rfl

/-! ## modGang -/

@[simp] theorem State.modGang_clock (s : State) (u : Nat) (f : Gang → Gang) : (s.modGang u f).clock = s.clock := rfl
@[simp] theorem State.modGang_tick (s : State) (u : Nat) (f : Gang → Gang) : (s.modGang u f).tick = s.tick := rfl
@[simp] theorem State.modGang_subClock (s : State) (u : Nat) (f : Gang → Gang) : (s.modGang u f).subClock = s.subClock := rfl
@[simp] theorem State.modGang_clkMHz (s : State) (u : Nat) (f : Gang → Gang) : (s.modGang u f).clkMHz = s.clkMHz := rfl
@[simp] theorem State.modGang_limits (s : State) (u : Nat) (f : Gang → Gang) : (s.modGang u f).limits = s.limits := rfl
@[simp] theorem State.modGang_thSeen (s : State) (u : Nat) (f : Gang → Gang) : (s.modGang u f).thSeen = s.thSeen := rfl
@[simp] theorem State.modGang_throttleAt (s : State) (u : Nat) (f : Gang → Gang) : (s.modGang u f).throttleAt = s.throttleAt := rfl
@[simp] theorem State.modGang_pwrRefused (s : State) (u : Nat) (f : Gang → Gang) : (s.modGang u f).pwrRefused = s.pwrRefused := rfl
@[simp] theorem State.modGang_pwrState (s : State) (u : Nat) (f : Gang → Gang) : (s.modGang u f).pwrState = s.pwrState := rfl
@[simp] theorem State.modGang_pwrExit (s : State) (u : Nat) (f : Gang → Gang) : (s.modGang u f).pwrExit = s.pwrExit := rfl
@[simp] theorem State.modGang_khmod (s : State) (u : Nat) (f : Gang → Gang) : (s.modGang u f).khmod = s.khmod := rfl
@[simp] theorem State.modGang_fwState (s : State) (u : Nat) (f : Gang → Gang) : (s.modGang u f).fwState = s.fwState := rfl
@[simp] theorem State.modGang_fwSvn (s : State) (u : Nat) (f : Gang → Gang) : (s.modGang u f).fwSvn = s.fwSvn := rfl
@[simp] theorem State.modGang_fwMeasure (s : State) (u : Nat) (f : Gang → Gang) : (s.modGang u f).fwMeasure = s.fwMeasure := rfl
@[simp] theorem State.modGang_verifying (s : State) (u : Nat) (f : Gang → Gang) : (s.modGang u f).verifying = s.verifying := rfl
@[simp] theorem State.modGang_fwm (s : State) (u : Nat) (f : Gang → Gang) : (s.modGang u f).fwm = s.fwm := rfl
@[simp] theorem State.modGang_peerMap (s : State) (u : Nat) (f : Gang → Gang) : (s.modGang u f).peerMap = s.peerMap := rfl
@[simp] theorem State.modGang_linkUp (s : State) (u : Nat) (f : Gang → Gang) : (s.modGang u f).linkUp = s.linkUp := rfl
@[simp] theorem State.modGang_diagMode (s : State) (u : Nat) (f : Gang → Gang) : (s.modGang u f).diagMode = s.diagMode := rfl
@[simp] theorem State.modGang_cecnt (s : State) (u : Nat) (f : Gang → Gang) : (s.modGang u f).cecnt = s.cecnt := rfl
@[simp] theorem State.modGang_snapArm (s : State) (u : Nat) (f : Gang → Gang) : (s.modGang u f).snapArm = s.snapArm := rfl
@[simp] theorem State.modGang_snapExten (s : State) (u : Nat) (f : Gang → Gang) : (s.modGang u f).snapExten = s.snapExten := rfl
@[simp] theorem State.modGang_snapFired (s : State) (u : Nat) (f : Gang → Gang) : (s.modGang u f).snapFired = s.snapFired := rfl
@[simp] theorem State.modGang_snap (s : State) (u : Nat) (f : Gang → Gang) : (s.modGang u f).snap = s.snap := rfl
@[simp] theorem State.modGang_seqNo (s : State) (u : Nat) (f : Gang → Gang) : (s.modGang u f).seqNo = s.seqNo := rfl
@[simp] theorem State.modGang_ctxs (s : State) (u : Nat) (f : Gang → Gang) : (s.modGang u f).ctxs = s.ctxs := rfl
@[simp] theorem State.modGang_mem (s : State) (u : Nat) (f : Gang → Gang) : (s.modGang u f).mem = s.mem := rfl
@[simp] theorem State.modGang_poison (s : State) (u : Nat) (f : Gang → Gang) : (s.modGang u f).poison = s.poison := rfl
@[simp] theorem State.modGang_scratch (s : State) (u : Nat) (f : Gang → Gang) : (s.modGang u f).scratch = s.scratch := rfl
@[simp] theorem State.modGang_banks (s : State) (u : Nat) (f : Gang → Gang) : (s.modGang u f).banks = s.banks := rfl
@[simp] theorem State.modGang_l1 (s : State) (u : Nat) (f : Gang → Gang) : (s.modGang u f).l1 = s.l1 := rfl
@[simp] theorem State.modGang_far (s : State) (u : Nat) (f : Gang → Gang) : (s.modGang u f).far = s.far := rfl
@[simp] theorem State.modGang_farGen (s : State) (u : Nat) (f : Gang → Gang) : (s.modGang u f).farGen = s.farGen := rfl
@[simp] theorem State.modGang_constK (s : State) (u : Nat) (f : Gang → Gang) : (s.modGang u f).constK = s.constK := rfl
@[simp] theorem State.modGang_ibuf (s : State) (u : Nat) (f : Gang → Gang) : (s.modGang u f).ibuf = s.ibuf := rfl
@[simp] theorem State.modGang_rlocks (s : State) (u : Nat) (f : Gang → Gang) : (s.modGang u f).rlocks = s.rlocks := rfl
@[simp] theorem State.modGang_tlb (s : State) (u : Nat) (f : Gang → Gang) : (s.modGang u f).tlb = s.tlb := rfl
@[simp] theorem State.modGang_walks (s : State) (u : Nat) (f : Gang → Gang) : (s.modGang u f).walks = s.walks := rfl
@[simp] theorem State.modGang_refused (s : State) (u : Nat) (f : Gang → Gang) : (s.modGang u f).refused = s.refused := rfl
@[simp] theorem State.modGang_cols (s : State) (u : Nat) (f : Gang → Gang) : (s.modGang u f).cols = s.cols := rfl
@[simp] theorem State.modGang_ports (s : State) (u : Nat) (f : Gang → Gang) : (s.modGang u f).ports = s.ports := rfl
@[simp] theorem State.modGang_farBanks (s : State) (u : Nat) (f : Gang → Gang) : (s.modGang u f).farBanks = s.farBanks := rfl
@[simp] theorem State.modGang_links (s : State) (u : Nat) (f : Gang → Gang) : (s.modGang u f).links = s.links := rfl
@[simp] theorem State.modGang_asks (s : State) (u : Nat) (f : Gang → Gang) : (s.modGang u f).asks = s.asks := rfl
@[simp] theorem State.modGang_routed (s : State) (u : Nat) (f : Gang → Gang) : (s.modGang u f).routed = s.routed := rfl
@[simp] theorem State.modGang_routes (s : State) (u : Nat) (f : Gang → Gang) : (s.modGang u f).routes = s.routes := rfl
@[simp] theorem State.modGang_waking (s : State) (u : Nat) (f : Gang → Gang) : (s.modGang u f).waking = s.waking := rfl
@[simp] theorem State.modGang_teams (s : State) (u : Nat) (f : Gang → Gang) : (s.modGang u f).teams = s.teams := rfl
@[simp] theorem State.modGang_records (s : State) (u : Nat) (f : Gang → Gang) : (s.modGang u f).records = s.records := rfl
@[simp] theorem State.modGang_tasks (s : State) (u : Nat) (f : Gang → Gang) : (s.modGang u f).tasks = s.tasks := rfl
@[simp] theorem State.modGang_steals (s : State) (u : Nat) (f : Gang → Gang) : (s.modGang u f).steals = s.steals := rfl
@[simp] theorem State.modGang_qServed (s : State) (u : Nat) (f : Gang → Gang) : (s.modGang u f).qServed = s.qServed := rfl
@[simp] theorem State.modGang_sServed (s : State) (u : Nat) (f : Gang → Gang) : (s.modGang u f).sServed = s.sServed := rfl
@[simp] theorem State.modGang_memOps (s : State) (u : Nat) (f : Gang → Gang) : (s.modGang u f).memOps = s.memOps := rfl
@[simp] theorem State.modGang_copies (s : State) (u : Nat) (f : Gang → Gang) : (s.modGang u f).copies = s.copies := rfl
@[simp] theorem State.modGang_matOps (s : State) (u : Nat) (f : Gang → Gang) : (s.modGang u f).matOps = s.matOps := rfl
@[simp] theorem State.modGang_texOps (s : State) (u : Nat) (f : Gang → Gang) : (s.modGang u f).texOps = s.texOps := rfl
@[simp] theorem State.modGang_rays (s : State) (u : Nat) (f : Gang → Gang) : (s.modGang u f).rays = s.rays := rfl
@[simp] theorem State.modGang_rayOps (s : State) (u : Nat) (f : Gang → Gang) : (s.modGang u f).rayOps = s.rayOps := rfl
@[simp] theorem State.modGang_ncalls (s : State) (u : Nat) (f : Gang → Gang) : (s.modGang u f).ncalls = s.ncalls := rfl
@[simp] theorem State.modGang_regroups (s : State) (u : Nat) (f : Gang → Gang) : (s.modGang u f).regroups = s.regroups := rfl
@[simp] theorem State.modGang_rgOps (s : State) (u : Nat) (f : Gang → Gang) : (s.modGang u f).rgOps = s.rgOps := rfl
@[simp] theorem State.modGang_tokens (s : State) (u : Nat) (f : Gang → Gang) : (s.modGang u f).tokens = s.tokens := rfl
@[simp] theorem State.modGang_sends (s : State) (u : Nat) (f : Gang → Gang) : (s.modGang u f).sends = s.sends := rfl
@[simp] theorem State.modGang_abroad (s : State) (u : Nat) (f : Gang → Gang) : (s.modGang u f).abroad = s.abroad := rfl
@[simp] theorem State.modGang_landings (s : State) (u : Nat) (f : Gang → Gang) : (s.modGang u f).landings = s.landings := rfl
@[simp] theorem State.modGang_meetings (s : State) (u : Nat) (f : Gang → Gang) : (s.modGang u f).meetings = s.meetings := rfl
@[simp] theorem State.modGang_mbReqs (s : State) (u : Nat) (f : Gang → Gang) : (s.modGang u f).mbReqs = s.mbReqs := rfl
@[simp] theorem State.modGang_pairs (s : State) (u : Nat) (f : Gang → Gang) : (s.modGang u f).pairs = s.pairs := rfl
@[simp] theorem State.modGang_episodes (s : State) (u : Nat) (f : Gang → Gang) : (s.modGang u f).episodes = s.episodes := rfl
@[simp] theorem State.modGang_pmp (s : State) (u : Nat) (f : Gang → Gang) : (s.modGang u f).pmp = s.pmp := rfl
@[simp] theorem State.modGang_draws (s : State) (u : Nat) (f : Gang → Gang) : (s.modGang u f).draws = s.draws := rfl
@[simp] theorem State.modGang_pixels (s : State) (u : Nat) (f : Gang → Gang) : (s.modGang u f).pixels = s.pixels := rfl
@[simp] theorem State.modGang_sampleAt (s : State) (u : Nat) (f : Gang → Gang) : (s.modGang u f).sampleAt = s.sampleAt := rfl
@[simp] theorem State.modGang_iuPc (s : State) (u : Nat) (f : Gang → Gang) : (s.modGang u f).iuPc = s.iuPc := rfl
@[simp] theorem State.modGang_cur (s : State) (u : Nat) (f : Gang → Gang) : (s.modGang u f).cur = s.cur := rfl
@[simp] theorem State.modGang_plan (s : State) (u : Nat) (f : Gang → Gang) : (s.modGang u f).plan = s.plan := rfl
@[simp] theorem State.modGang_inputs (s : State) (u : Nat) (f : Gang → Gang) : (s.modGang u f).inputs = s.inputs := rfl
@[simp] theorem State.modGang_freeCtr (s : State) (u : Nat) (f : Gang → Gang) : (s.modGang u f).freeCtr = s.freeCtr := rfl
@[simp] theorem State.modGang_nextId (s : State) (u : Nat) (f : Gang → Gang) : (s.modGang u f).nextId = s.nextId := rfl

/-! ## modTask -/

@[simp] theorem State.modTask_clock (s : State) (u : Nat) (f : Task → Task) : (s.modTask u f).clock = s.clock := rfl
@[simp] theorem State.modTask_tick (s : State) (u : Nat) (f : Task → Task) : (s.modTask u f).tick = s.tick := rfl
@[simp] theorem State.modTask_subClock (s : State) (u : Nat) (f : Task → Task) : (s.modTask u f).subClock = s.subClock := rfl
@[simp] theorem State.modTask_clkMHz (s : State) (u : Nat) (f : Task → Task) : (s.modTask u f).clkMHz = s.clkMHz := rfl
@[simp] theorem State.modTask_limits (s : State) (u : Nat) (f : Task → Task) : (s.modTask u f).limits = s.limits := rfl
@[simp] theorem State.modTask_thSeen (s : State) (u : Nat) (f : Task → Task) : (s.modTask u f).thSeen = s.thSeen := rfl
@[simp] theorem State.modTask_throttleAt (s : State) (u : Nat) (f : Task → Task) : (s.modTask u f).throttleAt = s.throttleAt := rfl
@[simp] theorem State.modTask_pwrRefused (s : State) (u : Nat) (f : Task → Task) : (s.modTask u f).pwrRefused = s.pwrRefused := rfl
@[simp] theorem State.modTask_pwrState (s : State) (u : Nat) (f : Task → Task) : (s.modTask u f).pwrState = s.pwrState := rfl
@[simp] theorem State.modTask_pwrExit (s : State) (u : Nat) (f : Task → Task) : (s.modTask u f).pwrExit = s.pwrExit := rfl
@[simp] theorem State.modTask_khmod (s : State) (u : Nat) (f : Task → Task) : (s.modTask u f).khmod = s.khmod := rfl
@[simp] theorem State.modTask_fwState (s : State) (u : Nat) (f : Task → Task) : (s.modTask u f).fwState = s.fwState := rfl
@[simp] theorem State.modTask_fwSvn (s : State) (u : Nat) (f : Task → Task) : (s.modTask u f).fwSvn = s.fwSvn := rfl
@[simp] theorem State.modTask_fwMeasure (s : State) (u : Nat) (f : Task → Task) : (s.modTask u f).fwMeasure = s.fwMeasure := rfl
@[simp] theorem State.modTask_verifying (s : State) (u : Nat) (f : Task → Task) : (s.modTask u f).verifying = s.verifying := rfl
@[simp] theorem State.modTask_fwm (s : State) (u : Nat) (f : Task → Task) : (s.modTask u f).fwm = s.fwm := rfl
@[simp] theorem State.modTask_peerMap (s : State) (u : Nat) (f : Task → Task) : (s.modTask u f).peerMap = s.peerMap := rfl
@[simp] theorem State.modTask_linkUp (s : State) (u : Nat) (f : Task → Task) : (s.modTask u f).linkUp = s.linkUp := rfl
@[simp] theorem State.modTask_diagMode (s : State) (u : Nat) (f : Task → Task) : (s.modTask u f).diagMode = s.diagMode := rfl
@[simp] theorem State.modTask_cecnt (s : State) (u : Nat) (f : Task → Task) : (s.modTask u f).cecnt = s.cecnt := rfl
@[simp] theorem State.modTask_snapArm (s : State) (u : Nat) (f : Task → Task) : (s.modTask u f).snapArm = s.snapArm := rfl
@[simp] theorem State.modTask_snapExten (s : State) (u : Nat) (f : Task → Task) : (s.modTask u f).snapExten = s.snapExten := rfl
@[simp] theorem State.modTask_snapFired (s : State) (u : Nat) (f : Task → Task) : (s.modTask u f).snapFired = s.snapFired := rfl
@[simp] theorem State.modTask_snap (s : State) (u : Nat) (f : Task → Task) : (s.modTask u f).snap = s.snap := rfl
@[simp] theorem State.modTask_seqNo (s : State) (u : Nat) (f : Task → Task) : (s.modTask u f).seqNo = s.seqNo := rfl
@[simp] theorem State.modTask_ctxs (s : State) (u : Nat) (f : Task → Task) : (s.modTask u f).ctxs = s.ctxs := rfl
@[simp] theorem State.modTask_mem (s : State) (u : Nat) (f : Task → Task) : (s.modTask u f).mem = s.mem := rfl
@[simp] theorem State.modTask_poison (s : State) (u : Nat) (f : Task → Task) : (s.modTask u f).poison = s.poison := rfl
@[simp] theorem State.modTask_scratch (s : State) (u : Nat) (f : Task → Task) : (s.modTask u f).scratch = s.scratch := rfl
@[simp] theorem State.modTask_banks (s : State) (u : Nat) (f : Task → Task) : (s.modTask u f).banks = s.banks := rfl
@[simp] theorem State.modTask_l1 (s : State) (u : Nat) (f : Task → Task) : (s.modTask u f).l1 = s.l1 := rfl
@[simp] theorem State.modTask_far (s : State) (u : Nat) (f : Task → Task) : (s.modTask u f).far = s.far := rfl
@[simp] theorem State.modTask_farGen (s : State) (u : Nat) (f : Task → Task) : (s.modTask u f).farGen = s.farGen := rfl
@[simp] theorem State.modTask_constK (s : State) (u : Nat) (f : Task → Task) : (s.modTask u f).constK = s.constK := rfl
@[simp] theorem State.modTask_ibuf (s : State) (u : Nat) (f : Task → Task) : (s.modTask u f).ibuf = s.ibuf := rfl
@[simp] theorem State.modTask_rlocks (s : State) (u : Nat) (f : Task → Task) : (s.modTask u f).rlocks = s.rlocks := rfl
@[simp] theorem State.modTask_tlb (s : State) (u : Nat) (f : Task → Task) : (s.modTask u f).tlb = s.tlb := rfl
@[simp] theorem State.modTask_walks (s : State) (u : Nat) (f : Task → Task) : (s.modTask u f).walks = s.walks := rfl
@[simp] theorem State.modTask_refused (s : State) (u : Nat) (f : Task → Task) : (s.modTask u f).refused = s.refused := rfl
@[simp] theorem State.modTask_cols (s : State) (u : Nat) (f : Task → Task) : (s.modTask u f).cols = s.cols := rfl
@[simp] theorem State.modTask_ports (s : State) (u : Nat) (f : Task → Task) : (s.modTask u f).ports = s.ports := rfl
@[simp] theorem State.modTask_farBanks (s : State) (u : Nat) (f : Task → Task) : (s.modTask u f).farBanks = s.farBanks := rfl
@[simp] theorem State.modTask_links (s : State) (u : Nat) (f : Task → Task) : (s.modTask u f).links = s.links := rfl
@[simp] theorem State.modTask_asks (s : State) (u : Nat) (f : Task → Task) : (s.modTask u f).asks = s.asks := rfl
@[simp] theorem State.modTask_routed (s : State) (u : Nat) (f : Task → Task) : (s.modTask u f).routed = s.routed := rfl
@[simp] theorem State.modTask_routes (s : State) (u : Nat) (f : Task → Task) : (s.modTask u f).routes = s.routes := rfl
@[simp] theorem State.modTask_waking (s : State) (u : Nat) (f : Task → Task) : (s.modTask u f).waking = s.waking := rfl
@[simp] theorem State.modTask_teams (s : State) (u : Nat) (f : Task → Task) : (s.modTask u f).teams = s.teams := rfl
@[simp] theorem State.modTask_gangs (s : State) (u : Nat) (f : Task → Task) : (s.modTask u f).gangs = s.gangs := rfl
@[simp] theorem State.modTask_records (s : State) (u : Nat) (f : Task → Task) : (s.modTask u f).records = s.records := rfl
@[simp] theorem State.modTask_steals (s : State) (u : Nat) (f : Task → Task) : (s.modTask u f).steals = s.steals := rfl
@[simp] theorem State.modTask_qServed (s : State) (u : Nat) (f : Task → Task) : (s.modTask u f).qServed = s.qServed := rfl
@[simp] theorem State.modTask_sServed (s : State) (u : Nat) (f : Task → Task) : (s.modTask u f).sServed = s.sServed := rfl
@[simp] theorem State.modTask_memOps (s : State) (u : Nat) (f : Task → Task) : (s.modTask u f).memOps = s.memOps := rfl
@[simp] theorem State.modTask_copies (s : State) (u : Nat) (f : Task → Task) : (s.modTask u f).copies = s.copies := rfl
@[simp] theorem State.modTask_matOps (s : State) (u : Nat) (f : Task → Task) : (s.modTask u f).matOps = s.matOps := rfl
@[simp] theorem State.modTask_texOps (s : State) (u : Nat) (f : Task → Task) : (s.modTask u f).texOps = s.texOps := rfl
@[simp] theorem State.modTask_rays (s : State) (u : Nat) (f : Task → Task) : (s.modTask u f).rays = s.rays := rfl
@[simp] theorem State.modTask_rayOps (s : State) (u : Nat) (f : Task → Task) : (s.modTask u f).rayOps = s.rayOps := rfl
@[simp] theorem State.modTask_ncalls (s : State) (u : Nat) (f : Task → Task) : (s.modTask u f).ncalls = s.ncalls := rfl
@[simp] theorem State.modTask_regroups (s : State) (u : Nat) (f : Task → Task) : (s.modTask u f).regroups = s.regroups := rfl
@[simp] theorem State.modTask_rgOps (s : State) (u : Nat) (f : Task → Task) : (s.modTask u f).rgOps = s.rgOps := rfl
@[simp] theorem State.modTask_tokens (s : State) (u : Nat) (f : Task → Task) : (s.modTask u f).tokens = s.tokens := rfl
@[simp] theorem State.modTask_sends (s : State) (u : Nat) (f : Task → Task) : (s.modTask u f).sends = s.sends := rfl
@[simp] theorem State.modTask_abroad (s : State) (u : Nat) (f : Task → Task) : (s.modTask u f).abroad = s.abroad := rfl
@[simp] theorem State.modTask_landings (s : State) (u : Nat) (f : Task → Task) : (s.modTask u f).landings = s.landings := rfl
@[simp] theorem State.modTask_meetings (s : State) (u : Nat) (f : Task → Task) : (s.modTask u f).meetings = s.meetings := rfl
@[simp] theorem State.modTask_mbReqs (s : State) (u : Nat) (f : Task → Task) : (s.modTask u f).mbReqs = s.mbReqs := rfl
@[simp] theorem State.modTask_pairs (s : State) (u : Nat) (f : Task → Task) : (s.modTask u f).pairs = s.pairs := rfl
@[simp] theorem State.modTask_episodes (s : State) (u : Nat) (f : Task → Task) : (s.modTask u f).episodes = s.episodes := rfl
@[simp] theorem State.modTask_pmp (s : State) (u : Nat) (f : Task → Task) : (s.modTask u f).pmp = s.pmp := rfl
@[simp] theorem State.modTask_draws (s : State) (u : Nat) (f : Task → Task) : (s.modTask u f).draws = s.draws := rfl
@[simp] theorem State.modTask_pixels (s : State) (u : Nat) (f : Task → Task) : (s.modTask u f).pixels = s.pixels := rfl
@[simp] theorem State.modTask_sampleAt (s : State) (u : Nat) (f : Task → Task) : (s.modTask u f).sampleAt = s.sampleAt := rfl
@[simp] theorem State.modTask_iuPc (s : State) (u : Nat) (f : Task → Task) : (s.modTask u f).iuPc = s.iuPc := rfl
@[simp] theorem State.modTask_cur (s : State) (u : Nat) (f : Task → Task) : (s.modTask u f).cur = s.cur := rfl
@[simp] theorem State.modTask_plan (s : State) (u : Nat) (f : Task → Task) : (s.modTask u f).plan = s.plan := rfl
@[simp] theorem State.modTask_inputs (s : State) (u : Nat) (f : Task → Task) : (s.modTask u f).inputs = s.inputs := rfl
@[simp] theorem State.modTask_freeCtr (s : State) (u : Nat) (f : Task → Task) : (s.modTask u f).freeCtr = s.freeCtr := rfl
@[simp] theorem State.modTask_nextId (s : State) (u : Nat) (f : Task → Task) : (s.modTask u f).nextId = s.nextId := rfl

/-! ## writeHome -/

@[simp] theorem State.writeHome_clock (s : State) (k : Nat) (bs : List Byte) : (s.writeHome k bs).clock = s.clock := rfl
@[simp] theorem State.writeHome_tick (s : State) (k : Nat) (bs : List Byte) : (s.writeHome k bs).tick = s.tick := rfl
@[simp] theorem State.writeHome_subClock (s : State) (k : Nat) (bs : List Byte) : (s.writeHome k bs).subClock = s.subClock := rfl
@[simp] theorem State.writeHome_clkMHz (s : State) (k : Nat) (bs : List Byte) : (s.writeHome k bs).clkMHz = s.clkMHz := rfl
@[simp] theorem State.writeHome_limits (s : State) (k : Nat) (bs : List Byte) : (s.writeHome k bs).limits = s.limits := rfl
@[simp] theorem State.writeHome_thSeen (s : State) (k : Nat) (bs : List Byte) : (s.writeHome k bs).thSeen = s.thSeen := rfl
@[simp] theorem State.writeHome_throttleAt (s : State) (k : Nat) (bs : List Byte) : (s.writeHome k bs).throttleAt = s.throttleAt := rfl
@[simp] theorem State.writeHome_pwrRefused (s : State) (k : Nat) (bs : List Byte) : (s.writeHome k bs).pwrRefused = s.pwrRefused := rfl
@[simp] theorem State.writeHome_pwrState (s : State) (k : Nat) (bs : List Byte) : (s.writeHome k bs).pwrState = s.pwrState := rfl
@[simp] theorem State.writeHome_pwrExit (s : State) (k : Nat) (bs : List Byte) : (s.writeHome k bs).pwrExit = s.pwrExit := rfl
@[simp] theorem State.writeHome_khmod (s : State) (k : Nat) (bs : List Byte) : (s.writeHome k bs).khmod = s.khmod := rfl
@[simp] theorem State.writeHome_fwState (s : State) (k : Nat) (bs : List Byte) : (s.writeHome k bs).fwState = s.fwState := rfl
@[simp] theorem State.writeHome_fwSvn (s : State) (k : Nat) (bs : List Byte) : (s.writeHome k bs).fwSvn = s.fwSvn := rfl
@[simp] theorem State.writeHome_fwMeasure (s : State) (k : Nat) (bs : List Byte) : (s.writeHome k bs).fwMeasure = s.fwMeasure := rfl
@[simp] theorem State.writeHome_verifying (s : State) (k : Nat) (bs : List Byte) : (s.writeHome k bs).verifying = s.verifying := rfl
@[simp] theorem State.writeHome_fwm (s : State) (k : Nat) (bs : List Byte) : (s.writeHome k bs).fwm = s.fwm := rfl
@[simp] theorem State.writeHome_peerMap (s : State) (k : Nat) (bs : List Byte) : (s.writeHome k bs).peerMap = s.peerMap := rfl
@[simp] theorem State.writeHome_linkUp (s : State) (k : Nat) (bs : List Byte) : (s.writeHome k bs).linkUp = s.linkUp := rfl
@[simp] theorem State.writeHome_diagMode (s : State) (k : Nat) (bs : List Byte) : (s.writeHome k bs).diagMode = s.diagMode := rfl
@[simp] theorem State.writeHome_cecnt (s : State) (k : Nat) (bs : List Byte) : (s.writeHome k bs).cecnt = s.cecnt := rfl
@[simp] theorem State.writeHome_snapArm (s : State) (k : Nat) (bs : List Byte) : (s.writeHome k bs).snapArm = s.snapArm := rfl
@[simp] theorem State.writeHome_snapExten (s : State) (k : Nat) (bs : List Byte) : (s.writeHome k bs).snapExten = s.snapExten := rfl
@[simp] theorem State.writeHome_snapFired (s : State) (k : Nat) (bs : List Byte) : (s.writeHome k bs).snapFired = s.snapFired := rfl
@[simp] theorem State.writeHome_snap (s : State) (k : Nat) (bs : List Byte) : (s.writeHome k bs).snap = s.snap := rfl
@[simp] theorem State.writeHome_seqNo (s : State) (k : Nat) (bs : List Byte) : (s.writeHome k bs).seqNo = s.seqNo := rfl
@[simp] theorem State.writeHome_ctxs (s : State) (k : Nat) (bs : List Byte) : (s.writeHome k bs).ctxs = s.ctxs := rfl
@[simp] theorem State.writeHome_scratch (s : State) (k : Nat) (bs : List Byte) : (s.writeHome k bs).scratch = s.scratch := rfl
@[simp] theorem State.writeHome_banks (s : State) (k : Nat) (bs : List Byte) : (s.writeHome k bs).banks = s.banks := rfl
@[simp] theorem State.writeHome_l1 (s : State) (k : Nat) (bs : List Byte) : (s.writeHome k bs).l1 = s.l1 := rfl
@[simp] theorem State.writeHome_far (s : State) (k : Nat) (bs : List Byte) : (s.writeHome k bs).far = s.far := rfl
@[simp] theorem State.writeHome_farGen (s : State) (k : Nat) (bs : List Byte) : (s.writeHome k bs).farGen = s.farGen := rfl
@[simp] theorem State.writeHome_constK (s : State) (k : Nat) (bs : List Byte) : (s.writeHome k bs).constK = s.constK := rfl
@[simp] theorem State.writeHome_ibuf (s : State) (k : Nat) (bs : List Byte) : (s.writeHome k bs).ibuf = s.ibuf := rfl
@[simp] theorem State.writeHome_rlocks (s : State) (k : Nat) (bs : List Byte) : (s.writeHome k bs).rlocks = s.rlocks := rfl
@[simp] theorem State.writeHome_tlb (s : State) (k : Nat) (bs : List Byte) : (s.writeHome k bs).tlb = s.tlb := rfl
@[simp] theorem State.writeHome_walks (s : State) (k : Nat) (bs : List Byte) : (s.writeHome k bs).walks = s.walks := rfl
@[simp] theorem State.writeHome_refused (s : State) (k : Nat) (bs : List Byte) : (s.writeHome k bs).refused = s.refused := rfl
@[simp] theorem State.writeHome_cols (s : State) (k : Nat) (bs : List Byte) : (s.writeHome k bs).cols = s.cols := rfl
@[simp] theorem State.writeHome_ports (s : State) (k : Nat) (bs : List Byte) : (s.writeHome k bs).ports = s.ports := rfl
@[simp] theorem State.writeHome_farBanks (s : State) (k : Nat) (bs : List Byte) : (s.writeHome k bs).farBanks = s.farBanks := rfl
@[simp] theorem State.writeHome_links (s : State) (k : Nat) (bs : List Byte) : (s.writeHome k bs).links = s.links := rfl
@[simp] theorem State.writeHome_asks (s : State) (k : Nat) (bs : List Byte) : (s.writeHome k bs).asks = s.asks := rfl
@[simp] theorem State.writeHome_routed (s : State) (k : Nat) (bs : List Byte) : (s.writeHome k bs).routed = s.routed := rfl
@[simp] theorem State.writeHome_routes (s : State) (k : Nat) (bs : List Byte) : (s.writeHome k bs).routes = s.routes := rfl
@[simp] theorem State.writeHome_waking (s : State) (k : Nat) (bs : List Byte) : (s.writeHome k bs).waking = s.waking := rfl
@[simp] theorem State.writeHome_teams (s : State) (k : Nat) (bs : List Byte) : (s.writeHome k bs).teams = s.teams := rfl
@[simp] theorem State.writeHome_gangs (s : State) (k : Nat) (bs : List Byte) : (s.writeHome k bs).gangs = s.gangs := rfl
@[simp] theorem State.writeHome_records (s : State) (k : Nat) (bs : List Byte) : (s.writeHome k bs).records = s.records := rfl
@[simp] theorem State.writeHome_tasks (s : State) (k : Nat) (bs : List Byte) : (s.writeHome k bs).tasks = s.tasks := rfl
@[simp] theorem State.writeHome_steals (s : State) (k : Nat) (bs : List Byte) : (s.writeHome k bs).steals = s.steals := rfl
@[simp] theorem State.writeHome_qServed (s : State) (k : Nat) (bs : List Byte) : (s.writeHome k bs).qServed = s.qServed := rfl
@[simp] theorem State.writeHome_sServed (s : State) (k : Nat) (bs : List Byte) : (s.writeHome k bs).sServed = s.sServed := rfl
@[simp] theorem State.writeHome_memOps (s : State) (k : Nat) (bs : List Byte) : (s.writeHome k bs).memOps = s.memOps := rfl
@[simp] theorem State.writeHome_copies (s : State) (k : Nat) (bs : List Byte) : (s.writeHome k bs).copies = s.copies := rfl
@[simp] theorem State.writeHome_matOps (s : State) (k : Nat) (bs : List Byte) : (s.writeHome k bs).matOps = s.matOps := rfl
@[simp] theorem State.writeHome_texOps (s : State) (k : Nat) (bs : List Byte) : (s.writeHome k bs).texOps = s.texOps := rfl
@[simp] theorem State.writeHome_rays (s : State) (k : Nat) (bs : List Byte) : (s.writeHome k bs).rays = s.rays := rfl
@[simp] theorem State.writeHome_rayOps (s : State) (k : Nat) (bs : List Byte) : (s.writeHome k bs).rayOps = s.rayOps := rfl
@[simp] theorem State.writeHome_ncalls (s : State) (k : Nat) (bs : List Byte) : (s.writeHome k bs).ncalls = s.ncalls := rfl
@[simp] theorem State.writeHome_regroups (s : State) (k : Nat) (bs : List Byte) : (s.writeHome k bs).regroups = s.regroups := rfl
@[simp] theorem State.writeHome_rgOps (s : State) (k : Nat) (bs : List Byte) : (s.writeHome k bs).rgOps = s.rgOps := rfl
@[simp] theorem State.writeHome_tokens (s : State) (k : Nat) (bs : List Byte) : (s.writeHome k bs).tokens = s.tokens := rfl
@[simp] theorem State.writeHome_sends (s : State) (k : Nat) (bs : List Byte) : (s.writeHome k bs).sends = s.sends := rfl
@[simp] theorem State.writeHome_abroad (s : State) (k : Nat) (bs : List Byte) : (s.writeHome k bs).abroad = s.abroad := rfl
@[simp] theorem State.writeHome_landings (s : State) (k : Nat) (bs : List Byte) : (s.writeHome k bs).landings = s.landings := rfl
@[simp] theorem State.writeHome_meetings (s : State) (k : Nat) (bs : List Byte) : (s.writeHome k bs).meetings = s.meetings := rfl
@[simp] theorem State.writeHome_mbReqs (s : State) (k : Nat) (bs : List Byte) : (s.writeHome k bs).mbReqs = s.mbReqs := rfl
@[simp] theorem State.writeHome_pairs (s : State) (k : Nat) (bs : List Byte) : (s.writeHome k bs).pairs = s.pairs := rfl
@[simp] theorem State.writeHome_episodes (s : State) (k : Nat) (bs : List Byte) : (s.writeHome k bs).episodes = s.episodes := rfl
@[simp] theorem State.writeHome_pmp (s : State) (k : Nat) (bs : List Byte) : (s.writeHome k bs).pmp = s.pmp := rfl
@[simp] theorem State.writeHome_draws (s : State) (k : Nat) (bs : List Byte) : (s.writeHome k bs).draws = s.draws := rfl
@[simp] theorem State.writeHome_pixels (s : State) (k : Nat) (bs : List Byte) : (s.writeHome k bs).pixels = s.pixels := rfl
@[simp] theorem State.writeHome_sampleAt (s : State) (k : Nat) (bs : List Byte) : (s.writeHome k bs).sampleAt = s.sampleAt := rfl
@[simp] theorem State.writeHome_iuPc (s : State) (k : Nat) (bs : List Byte) : (s.writeHome k bs).iuPc = s.iuPc := rfl
@[simp] theorem State.writeHome_cur (s : State) (k : Nat) (bs : List Byte) : (s.writeHome k bs).cur = s.cur := rfl
@[simp] theorem State.writeHome_plan (s : State) (k : Nat) (bs : List Byte) : (s.writeHome k bs).plan = s.plan := rfl
@[simp] theorem State.writeHome_inputs (s : State) (k : Nat) (bs : List Byte) : (s.writeHome k bs).inputs = s.inputs := rfl
@[simp] theorem State.writeHome_freeCtr (s : State) (k : Nat) (bs : List Byte) : (s.writeHome k bs).freeCtr = s.freeCtr := rfl
@[simp] theorem State.writeHome_nextId (s : State) (k : Nat) (bs : List Byte) : (s.writeHome k bs).nextId = s.nextId := rfl

/-! ## scrWrite -/

@[simp] theorem State.scrWrite_clock (s : State) (c o : Nat) (bs : List Byte) : (s.scrWrite c o bs).clock = s.clock := rfl
@[simp] theorem State.scrWrite_tick (s : State) (c o : Nat) (bs : List Byte) : (s.scrWrite c o bs).tick = s.tick := rfl
@[simp] theorem State.scrWrite_subClock (s : State) (c o : Nat) (bs : List Byte) : (s.scrWrite c o bs).subClock = s.subClock := rfl
@[simp] theorem State.scrWrite_clkMHz (s : State) (c o : Nat) (bs : List Byte) : (s.scrWrite c o bs).clkMHz = s.clkMHz := rfl
@[simp] theorem State.scrWrite_limits (s : State) (c o : Nat) (bs : List Byte) : (s.scrWrite c o bs).limits = s.limits := rfl
@[simp] theorem State.scrWrite_thSeen (s : State) (c o : Nat) (bs : List Byte) : (s.scrWrite c o bs).thSeen = s.thSeen := rfl
@[simp] theorem State.scrWrite_throttleAt (s : State) (c o : Nat) (bs : List Byte) : (s.scrWrite c o bs).throttleAt = s.throttleAt := rfl
@[simp] theorem State.scrWrite_pwrRefused (s : State) (c o : Nat) (bs : List Byte) : (s.scrWrite c o bs).pwrRefused = s.pwrRefused := rfl
@[simp] theorem State.scrWrite_pwrState (s : State) (c o : Nat) (bs : List Byte) : (s.scrWrite c o bs).pwrState = s.pwrState := rfl
@[simp] theorem State.scrWrite_pwrExit (s : State) (c o : Nat) (bs : List Byte) : (s.scrWrite c o bs).pwrExit = s.pwrExit := rfl
@[simp] theorem State.scrWrite_khmod (s : State) (c o : Nat) (bs : List Byte) : (s.scrWrite c o bs).khmod = s.khmod := rfl
@[simp] theorem State.scrWrite_fwState (s : State) (c o : Nat) (bs : List Byte) : (s.scrWrite c o bs).fwState = s.fwState := rfl
@[simp] theorem State.scrWrite_fwSvn (s : State) (c o : Nat) (bs : List Byte) : (s.scrWrite c o bs).fwSvn = s.fwSvn := rfl
@[simp] theorem State.scrWrite_fwMeasure (s : State) (c o : Nat) (bs : List Byte) : (s.scrWrite c o bs).fwMeasure = s.fwMeasure := rfl
@[simp] theorem State.scrWrite_verifying (s : State) (c o : Nat) (bs : List Byte) : (s.scrWrite c o bs).verifying = s.verifying := rfl
@[simp] theorem State.scrWrite_fwm (s : State) (c o : Nat) (bs : List Byte) : (s.scrWrite c o bs).fwm = s.fwm := rfl
@[simp] theorem State.scrWrite_peerMap (s : State) (c o : Nat) (bs : List Byte) : (s.scrWrite c o bs).peerMap = s.peerMap := rfl
@[simp] theorem State.scrWrite_linkUp (s : State) (c o : Nat) (bs : List Byte) : (s.scrWrite c o bs).linkUp = s.linkUp := rfl
@[simp] theorem State.scrWrite_diagMode (s : State) (c o : Nat) (bs : List Byte) : (s.scrWrite c o bs).diagMode = s.diagMode := rfl
@[simp] theorem State.scrWrite_cecnt (s : State) (c o : Nat) (bs : List Byte) : (s.scrWrite c o bs).cecnt = s.cecnt := rfl
@[simp] theorem State.scrWrite_snapArm (s : State) (c o : Nat) (bs : List Byte) : (s.scrWrite c o bs).snapArm = s.snapArm := rfl
@[simp] theorem State.scrWrite_snapExten (s : State) (c o : Nat) (bs : List Byte) : (s.scrWrite c o bs).snapExten = s.snapExten := rfl
@[simp] theorem State.scrWrite_snapFired (s : State) (c o : Nat) (bs : List Byte) : (s.scrWrite c o bs).snapFired = s.snapFired := rfl
@[simp] theorem State.scrWrite_snap (s : State) (c o : Nat) (bs : List Byte) : (s.scrWrite c o bs).snap = s.snap := rfl
@[simp] theorem State.scrWrite_seqNo (s : State) (c o : Nat) (bs : List Byte) : (s.scrWrite c o bs).seqNo = s.seqNo := rfl
@[simp] theorem State.scrWrite_ctxs (s : State) (c o : Nat) (bs : List Byte) : (s.scrWrite c o bs).ctxs = s.ctxs := rfl
@[simp] theorem State.scrWrite_mem (s : State) (c o : Nat) (bs : List Byte) : (s.scrWrite c o bs).mem = s.mem := rfl
@[simp] theorem State.scrWrite_poison (s : State) (c o : Nat) (bs : List Byte) : (s.scrWrite c o bs).poison = s.poison := rfl
@[simp] theorem State.scrWrite_banks (s : State) (c o : Nat) (bs : List Byte) : (s.scrWrite c o bs).banks = s.banks := rfl
@[simp] theorem State.scrWrite_l1 (s : State) (c o : Nat) (bs : List Byte) : (s.scrWrite c o bs).l1 = s.l1 := rfl
@[simp] theorem State.scrWrite_far (s : State) (c o : Nat) (bs : List Byte) : (s.scrWrite c o bs).far = s.far := rfl
@[simp] theorem State.scrWrite_farGen (s : State) (c o : Nat) (bs : List Byte) : (s.scrWrite c o bs).farGen = s.farGen := rfl
@[simp] theorem State.scrWrite_constK (s : State) (c o : Nat) (bs : List Byte) : (s.scrWrite c o bs).constK = s.constK := rfl
@[simp] theorem State.scrWrite_ibuf (s : State) (c o : Nat) (bs : List Byte) : (s.scrWrite c o bs).ibuf = s.ibuf := rfl
@[simp] theorem State.scrWrite_rlocks (s : State) (c o : Nat) (bs : List Byte) : (s.scrWrite c o bs).rlocks = s.rlocks := rfl
@[simp] theorem State.scrWrite_tlb (s : State) (c o : Nat) (bs : List Byte) : (s.scrWrite c o bs).tlb = s.tlb := rfl
@[simp] theorem State.scrWrite_walks (s : State) (c o : Nat) (bs : List Byte) : (s.scrWrite c o bs).walks = s.walks := rfl
@[simp] theorem State.scrWrite_refused (s : State) (c o : Nat) (bs : List Byte) : (s.scrWrite c o bs).refused = s.refused := rfl
@[simp] theorem State.scrWrite_cols (s : State) (c o : Nat) (bs : List Byte) : (s.scrWrite c o bs).cols = s.cols := rfl
@[simp] theorem State.scrWrite_ports (s : State) (c o : Nat) (bs : List Byte) : (s.scrWrite c o bs).ports = s.ports := rfl
@[simp] theorem State.scrWrite_farBanks (s : State) (c o : Nat) (bs : List Byte) : (s.scrWrite c o bs).farBanks = s.farBanks := rfl
@[simp] theorem State.scrWrite_links (s : State) (c o : Nat) (bs : List Byte) : (s.scrWrite c o bs).links = s.links := rfl
@[simp] theorem State.scrWrite_asks (s : State) (c o : Nat) (bs : List Byte) : (s.scrWrite c o bs).asks = s.asks := rfl
@[simp] theorem State.scrWrite_routed (s : State) (c o : Nat) (bs : List Byte) : (s.scrWrite c o bs).routed = s.routed := rfl
@[simp] theorem State.scrWrite_routes (s : State) (c o : Nat) (bs : List Byte) : (s.scrWrite c o bs).routes = s.routes := rfl
@[simp] theorem State.scrWrite_waking (s : State) (c o : Nat) (bs : List Byte) : (s.scrWrite c o bs).waking = s.waking := rfl
@[simp] theorem State.scrWrite_teams (s : State) (c o : Nat) (bs : List Byte) : (s.scrWrite c o bs).teams = s.teams := rfl
@[simp] theorem State.scrWrite_gangs (s : State) (c o : Nat) (bs : List Byte) : (s.scrWrite c o bs).gangs = s.gangs := rfl
@[simp] theorem State.scrWrite_records (s : State) (c o : Nat) (bs : List Byte) : (s.scrWrite c o bs).records = s.records := rfl
@[simp] theorem State.scrWrite_tasks (s : State) (c o : Nat) (bs : List Byte) : (s.scrWrite c o bs).tasks = s.tasks := rfl
@[simp] theorem State.scrWrite_steals (s : State) (c o : Nat) (bs : List Byte) : (s.scrWrite c o bs).steals = s.steals := rfl
@[simp] theorem State.scrWrite_qServed (s : State) (c o : Nat) (bs : List Byte) : (s.scrWrite c o bs).qServed = s.qServed := rfl
@[simp] theorem State.scrWrite_sServed (s : State) (c o : Nat) (bs : List Byte) : (s.scrWrite c o bs).sServed = s.sServed := rfl
@[simp] theorem State.scrWrite_memOps (s : State) (c o : Nat) (bs : List Byte) : (s.scrWrite c o bs).memOps = s.memOps := rfl
@[simp] theorem State.scrWrite_copies (s : State) (c o : Nat) (bs : List Byte) : (s.scrWrite c o bs).copies = s.copies := rfl
@[simp] theorem State.scrWrite_matOps (s : State) (c o : Nat) (bs : List Byte) : (s.scrWrite c o bs).matOps = s.matOps := rfl
@[simp] theorem State.scrWrite_texOps (s : State) (c o : Nat) (bs : List Byte) : (s.scrWrite c o bs).texOps = s.texOps := rfl
@[simp] theorem State.scrWrite_rays (s : State) (c o : Nat) (bs : List Byte) : (s.scrWrite c o bs).rays = s.rays := rfl
@[simp] theorem State.scrWrite_rayOps (s : State) (c o : Nat) (bs : List Byte) : (s.scrWrite c o bs).rayOps = s.rayOps := rfl
@[simp] theorem State.scrWrite_ncalls (s : State) (c o : Nat) (bs : List Byte) : (s.scrWrite c o bs).ncalls = s.ncalls := rfl
@[simp] theorem State.scrWrite_regroups (s : State) (c o : Nat) (bs : List Byte) : (s.scrWrite c o bs).regroups = s.regroups := rfl
@[simp] theorem State.scrWrite_rgOps (s : State) (c o : Nat) (bs : List Byte) : (s.scrWrite c o bs).rgOps = s.rgOps := rfl
@[simp] theorem State.scrWrite_tokens (s : State) (c o : Nat) (bs : List Byte) : (s.scrWrite c o bs).tokens = s.tokens := rfl
@[simp] theorem State.scrWrite_sends (s : State) (c o : Nat) (bs : List Byte) : (s.scrWrite c o bs).sends = s.sends := rfl
@[simp] theorem State.scrWrite_abroad (s : State) (c o : Nat) (bs : List Byte) : (s.scrWrite c o bs).abroad = s.abroad := rfl
@[simp] theorem State.scrWrite_landings (s : State) (c o : Nat) (bs : List Byte) : (s.scrWrite c o bs).landings = s.landings := rfl
@[simp] theorem State.scrWrite_meetings (s : State) (c o : Nat) (bs : List Byte) : (s.scrWrite c o bs).meetings = s.meetings := rfl
@[simp] theorem State.scrWrite_mbReqs (s : State) (c o : Nat) (bs : List Byte) : (s.scrWrite c o bs).mbReqs = s.mbReqs := rfl
@[simp] theorem State.scrWrite_pairs (s : State) (c o : Nat) (bs : List Byte) : (s.scrWrite c o bs).pairs = s.pairs := rfl
@[simp] theorem State.scrWrite_episodes (s : State) (c o : Nat) (bs : List Byte) : (s.scrWrite c o bs).episodes = s.episodes := rfl
@[simp] theorem State.scrWrite_pmp (s : State) (c o : Nat) (bs : List Byte) : (s.scrWrite c o bs).pmp = s.pmp := rfl
@[simp] theorem State.scrWrite_draws (s : State) (c o : Nat) (bs : List Byte) : (s.scrWrite c o bs).draws = s.draws := rfl
@[simp] theorem State.scrWrite_pixels (s : State) (c o : Nat) (bs : List Byte) : (s.scrWrite c o bs).pixels = s.pixels := rfl
@[simp] theorem State.scrWrite_sampleAt (s : State) (c o : Nat) (bs : List Byte) : (s.scrWrite c o bs).sampleAt = s.sampleAt := rfl
@[simp] theorem State.scrWrite_iuPc (s : State) (c o : Nat) (bs : List Byte) : (s.scrWrite c o bs).iuPc = s.iuPc := rfl
@[simp] theorem State.scrWrite_cur (s : State) (c o : Nat) (bs : List Byte) : (s.scrWrite c o bs).cur = s.cur := rfl
@[simp] theorem State.scrWrite_plan (s : State) (c o : Nat) (bs : List Byte) : (s.scrWrite c o bs).plan = s.plan := rfl
@[simp] theorem State.scrWrite_inputs (s : State) (c o : Nat) (bs : List Byte) : (s.scrWrite c o bs).inputs = s.inputs := rfl
@[simp] theorem State.scrWrite_freeCtr (s : State) (c o : Nat) (bs : List Byte) : (s.scrWrite c o bs).freeCtr = s.freeCtr := rfl
@[simp] theorem State.scrWrite_nextId (s : State) (c o : Nat) (bs : List Byte) : (s.scrWrite c o bs).nextId = s.nextId := rfl

/-! ## farFill -/

@[simp] theorem State.farFill_clock (s : State) (d k : Nat) : (s.farFill d k).clock = s.clock := rfl
@[simp] theorem State.farFill_tick (s : State) (d k : Nat) : (s.farFill d k).tick = s.tick := rfl
@[simp] theorem State.farFill_subClock (s : State) (d k : Nat) : (s.farFill d k).subClock = s.subClock := rfl
@[simp] theorem State.farFill_clkMHz (s : State) (d k : Nat) : (s.farFill d k).clkMHz = s.clkMHz := rfl
@[simp] theorem State.farFill_limits (s : State) (d k : Nat) : (s.farFill d k).limits = s.limits := rfl
@[simp] theorem State.farFill_thSeen (s : State) (d k : Nat) : (s.farFill d k).thSeen = s.thSeen := rfl
@[simp] theorem State.farFill_throttleAt (s : State) (d k : Nat) : (s.farFill d k).throttleAt = s.throttleAt := rfl
@[simp] theorem State.farFill_pwrRefused (s : State) (d k : Nat) : (s.farFill d k).pwrRefused = s.pwrRefused := rfl
@[simp] theorem State.farFill_pwrState (s : State) (d k : Nat) : (s.farFill d k).pwrState = s.pwrState := rfl
@[simp] theorem State.farFill_pwrExit (s : State) (d k : Nat) : (s.farFill d k).pwrExit = s.pwrExit := rfl
@[simp] theorem State.farFill_khmod (s : State) (d k : Nat) : (s.farFill d k).khmod = s.khmod := rfl
@[simp] theorem State.farFill_fwState (s : State) (d k : Nat) : (s.farFill d k).fwState = s.fwState := rfl
@[simp] theorem State.farFill_fwSvn (s : State) (d k : Nat) : (s.farFill d k).fwSvn = s.fwSvn := rfl
@[simp] theorem State.farFill_fwMeasure (s : State) (d k : Nat) : (s.farFill d k).fwMeasure = s.fwMeasure := rfl
@[simp] theorem State.farFill_verifying (s : State) (d k : Nat) : (s.farFill d k).verifying = s.verifying := rfl
@[simp] theorem State.farFill_fwm (s : State) (d k : Nat) : (s.farFill d k).fwm = s.fwm := rfl
@[simp] theorem State.farFill_peerMap (s : State) (d k : Nat) : (s.farFill d k).peerMap = s.peerMap := rfl
@[simp] theorem State.farFill_linkUp (s : State) (d k : Nat) : (s.farFill d k).linkUp = s.linkUp := rfl
@[simp] theorem State.farFill_diagMode (s : State) (d k : Nat) : (s.farFill d k).diagMode = s.diagMode := rfl
@[simp] theorem State.farFill_cecnt (s : State) (d k : Nat) : (s.farFill d k).cecnt = s.cecnt := rfl
@[simp] theorem State.farFill_snapArm (s : State) (d k : Nat) : (s.farFill d k).snapArm = s.snapArm := rfl
@[simp] theorem State.farFill_snapExten (s : State) (d k : Nat) : (s.farFill d k).snapExten = s.snapExten := rfl
@[simp] theorem State.farFill_snapFired (s : State) (d k : Nat) : (s.farFill d k).snapFired = s.snapFired := rfl
@[simp] theorem State.farFill_snap (s : State) (d k : Nat) : (s.farFill d k).snap = s.snap := rfl
@[simp] theorem State.farFill_seqNo (s : State) (d k : Nat) : (s.farFill d k).seqNo = s.seqNo := rfl
@[simp] theorem State.farFill_ctxs (s : State) (d k : Nat) : (s.farFill d k).ctxs = s.ctxs := rfl
@[simp] theorem State.farFill_mem (s : State) (d k : Nat) : (s.farFill d k).mem = s.mem := rfl
@[simp] theorem State.farFill_poison (s : State) (d k : Nat) : (s.farFill d k).poison = s.poison := rfl
@[simp] theorem State.farFill_scratch (s : State) (d k : Nat) : (s.farFill d k).scratch = s.scratch := rfl
@[simp] theorem State.farFill_banks (s : State) (d k : Nat) : (s.farFill d k).banks = s.banks := rfl
@[simp] theorem State.farFill_l1 (s : State) (d k : Nat) : (s.farFill d k).l1 = s.l1 := rfl
@[simp] theorem State.farFill_farGen (s : State) (d k : Nat) : (s.farFill d k).farGen = s.farGen := rfl
@[simp] theorem State.farFill_constK (s : State) (d k : Nat) : (s.farFill d k).constK = s.constK := rfl
@[simp] theorem State.farFill_ibuf (s : State) (d k : Nat) : (s.farFill d k).ibuf = s.ibuf := rfl
@[simp] theorem State.farFill_rlocks (s : State) (d k : Nat) : (s.farFill d k).rlocks = s.rlocks := rfl
@[simp] theorem State.farFill_tlb (s : State) (d k : Nat) : (s.farFill d k).tlb = s.tlb := rfl
@[simp] theorem State.farFill_walks (s : State) (d k : Nat) : (s.farFill d k).walks = s.walks := rfl
@[simp] theorem State.farFill_refused (s : State) (d k : Nat) : (s.farFill d k).refused = s.refused := rfl
@[simp] theorem State.farFill_cols (s : State) (d k : Nat) : (s.farFill d k).cols = s.cols := rfl
@[simp] theorem State.farFill_ports (s : State) (d k : Nat) : (s.farFill d k).ports = s.ports := rfl
@[simp] theorem State.farFill_farBanks (s : State) (d k : Nat) : (s.farFill d k).farBanks = s.farBanks := rfl
@[simp] theorem State.farFill_links (s : State) (d k : Nat) : (s.farFill d k).links = s.links := rfl
@[simp] theorem State.farFill_asks (s : State) (d k : Nat) : (s.farFill d k).asks = s.asks := rfl
@[simp] theorem State.farFill_routed (s : State) (d k : Nat) : (s.farFill d k).routed = s.routed := rfl
@[simp] theorem State.farFill_routes (s : State) (d k : Nat) : (s.farFill d k).routes = s.routes := rfl
@[simp] theorem State.farFill_waking (s : State) (d k : Nat) : (s.farFill d k).waking = s.waking := rfl
@[simp] theorem State.farFill_teams (s : State) (d k : Nat) : (s.farFill d k).teams = s.teams := rfl
@[simp] theorem State.farFill_gangs (s : State) (d k : Nat) : (s.farFill d k).gangs = s.gangs := rfl
@[simp] theorem State.farFill_records (s : State) (d k : Nat) : (s.farFill d k).records = s.records := rfl
@[simp] theorem State.farFill_tasks (s : State) (d k : Nat) : (s.farFill d k).tasks = s.tasks := rfl
@[simp] theorem State.farFill_steals (s : State) (d k : Nat) : (s.farFill d k).steals = s.steals := rfl
@[simp] theorem State.farFill_qServed (s : State) (d k : Nat) : (s.farFill d k).qServed = s.qServed := rfl
@[simp] theorem State.farFill_sServed (s : State) (d k : Nat) : (s.farFill d k).sServed = s.sServed := rfl
@[simp] theorem State.farFill_memOps (s : State) (d k : Nat) : (s.farFill d k).memOps = s.memOps := rfl
@[simp] theorem State.farFill_copies (s : State) (d k : Nat) : (s.farFill d k).copies = s.copies := rfl
@[simp] theorem State.farFill_matOps (s : State) (d k : Nat) : (s.farFill d k).matOps = s.matOps := rfl
@[simp] theorem State.farFill_texOps (s : State) (d k : Nat) : (s.farFill d k).texOps = s.texOps := rfl
@[simp] theorem State.farFill_rays (s : State) (d k : Nat) : (s.farFill d k).rays = s.rays := rfl
@[simp] theorem State.farFill_rayOps (s : State) (d k : Nat) : (s.farFill d k).rayOps = s.rayOps := rfl
@[simp] theorem State.farFill_ncalls (s : State) (d k : Nat) : (s.farFill d k).ncalls = s.ncalls := rfl
@[simp] theorem State.farFill_regroups (s : State) (d k : Nat) : (s.farFill d k).regroups = s.regroups := rfl
@[simp] theorem State.farFill_rgOps (s : State) (d k : Nat) : (s.farFill d k).rgOps = s.rgOps := rfl
@[simp] theorem State.farFill_tokens (s : State) (d k : Nat) : (s.farFill d k).tokens = s.tokens := rfl
@[simp] theorem State.farFill_sends (s : State) (d k : Nat) : (s.farFill d k).sends = s.sends := rfl
@[simp] theorem State.farFill_abroad (s : State) (d k : Nat) : (s.farFill d k).abroad = s.abroad := rfl
@[simp] theorem State.farFill_landings (s : State) (d k : Nat) : (s.farFill d k).landings = s.landings := rfl
@[simp] theorem State.farFill_meetings (s : State) (d k : Nat) : (s.farFill d k).meetings = s.meetings := rfl
@[simp] theorem State.farFill_mbReqs (s : State) (d k : Nat) : (s.farFill d k).mbReqs = s.mbReqs := rfl
@[simp] theorem State.farFill_pairs (s : State) (d k : Nat) : (s.farFill d k).pairs = s.pairs := rfl
@[simp] theorem State.farFill_episodes (s : State) (d k : Nat) : (s.farFill d k).episodes = s.episodes := rfl
@[simp] theorem State.farFill_pmp (s : State) (d k : Nat) : (s.farFill d k).pmp = s.pmp := rfl
@[simp] theorem State.farFill_draws (s : State) (d k : Nat) : (s.farFill d k).draws = s.draws := rfl
@[simp] theorem State.farFill_pixels (s : State) (d k : Nat) : (s.farFill d k).pixels = s.pixels := rfl
@[simp] theorem State.farFill_sampleAt (s : State) (d k : Nat) : (s.farFill d k).sampleAt = s.sampleAt := rfl
@[simp] theorem State.farFill_iuPc (s : State) (d k : Nat) : (s.farFill d k).iuPc = s.iuPc := rfl
@[simp] theorem State.farFill_cur (s : State) (d k : Nat) : (s.farFill d k).cur = s.cur := rfl
@[simp] theorem State.farFill_plan (s : State) (d k : Nat) : (s.farFill d k).plan = s.plan := rfl
@[simp] theorem State.farFill_inputs (s : State) (d k : Nat) : (s.farFill d k).inputs = s.inputs := rfl
@[simp] theorem State.farFill_freeCtr (s : State) (d k : Nat) : (s.farFill d k).freeCtr = s.freeCtr := rfl
@[simp] theorem State.farFill_nextId (s : State) (d k : Nat) : (s.farFill d k).nextId = s.nextId := rfl

/-! ## farRefresh -/

@[simp] theorem State.farRefresh_clock (s : State) (d k n : Nat) : (s.farRefresh d k n).clock = s.clock := rfl
@[simp] theorem State.farRefresh_tick (s : State) (d k n : Nat) : (s.farRefresh d k n).tick = s.tick := rfl
@[simp] theorem State.farRefresh_subClock (s : State) (d k n : Nat) : (s.farRefresh d k n).subClock = s.subClock := rfl
@[simp] theorem State.farRefresh_clkMHz (s : State) (d k n : Nat) : (s.farRefresh d k n).clkMHz = s.clkMHz := rfl
@[simp] theorem State.farRefresh_limits (s : State) (d k n : Nat) : (s.farRefresh d k n).limits = s.limits := rfl
@[simp] theorem State.farRefresh_thSeen (s : State) (d k n : Nat) : (s.farRefresh d k n).thSeen = s.thSeen := rfl
@[simp] theorem State.farRefresh_throttleAt (s : State) (d k n : Nat) : (s.farRefresh d k n).throttleAt = s.throttleAt := rfl
@[simp] theorem State.farRefresh_pwrRefused (s : State) (d k n : Nat) : (s.farRefresh d k n).pwrRefused = s.pwrRefused := rfl
@[simp] theorem State.farRefresh_pwrState (s : State) (d k n : Nat) : (s.farRefresh d k n).pwrState = s.pwrState := rfl
@[simp] theorem State.farRefresh_pwrExit (s : State) (d k n : Nat) : (s.farRefresh d k n).pwrExit = s.pwrExit := rfl
@[simp] theorem State.farRefresh_khmod (s : State) (d k n : Nat) : (s.farRefresh d k n).khmod = s.khmod := rfl
@[simp] theorem State.farRefresh_fwState (s : State) (d k n : Nat) : (s.farRefresh d k n).fwState = s.fwState := rfl
@[simp] theorem State.farRefresh_fwSvn (s : State) (d k n : Nat) : (s.farRefresh d k n).fwSvn = s.fwSvn := rfl
@[simp] theorem State.farRefresh_fwMeasure (s : State) (d k n : Nat) : (s.farRefresh d k n).fwMeasure = s.fwMeasure := rfl
@[simp] theorem State.farRefresh_verifying (s : State) (d k n : Nat) : (s.farRefresh d k n).verifying = s.verifying := rfl
@[simp] theorem State.farRefresh_fwm (s : State) (d k n : Nat) : (s.farRefresh d k n).fwm = s.fwm := rfl
@[simp] theorem State.farRefresh_peerMap (s : State) (d k n : Nat) : (s.farRefresh d k n).peerMap = s.peerMap := rfl
@[simp] theorem State.farRefresh_linkUp (s : State) (d k n : Nat) : (s.farRefresh d k n).linkUp = s.linkUp := rfl
@[simp] theorem State.farRefresh_diagMode (s : State) (d k n : Nat) : (s.farRefresh d k n).diagMode = s.diagMode := rfl
@[simp] theorem State.farRefresh_cecnt (s : State) (d k n : Nat) : (s.farRefresh d k n).cecnt = s.cecnt := rfl
@[simp] theorem State.farRefresh_snapArm (s : State) (d k n : Nat) : (s.farRefresh d k n).snapArm = s.snapArm := rfl
@[simp] theorem State.farRefresh_snapExten (s : State) (d k n : Nat) : (s.farRefresh d k n).snapExten = s.snapExten := rfl
@[simp] theorem State.farRefresh_snapFired (s : State) (d k n : Nat) : (s.farRefresh d k n).snapFired = s.snapFired := rfl
@[simp] theorem State.farRefresh_snap (s : State) (d k n : Nat) : (s.farRefresh d k n).snap = s.snap := rfl
@[simp] theorem State.farRefresh_seqNo (s : State) (d k n : Nat) : (s.farRefresh d k n).seqNo = s.seqNo := rfl
@[simp] theorem State.farRefresh_ctxs (s : State) (d k n : Nat) : (s.farRefresh d k n).ctxs = s.ctxs := rfl
@[simp] theorem State.farRefresh_mem (s : State) (d k n : Nat) : (s.farRefresh d k n).mem = s.mem := rfl
@[simp] theorem State.farRefresh_poison (s : State) (d k n : Nat) : (s.farRefresh d k n).poison = s.poison := rfl
@[simp] theorem State.farRefresh_scratch (s : State) (d k n : Nat) : (s.farRefresh d k n).scratch = s.scratch := rfl
@[simp] theorem State.farRefresh_banks (s : State) (d k n : Nat) : (s.farRefresh d k n).banks = s.banks := rfl
@[simp] theorem State.farRefresh_l1 (s : State) (d k n : Nat) : (s.farRefresh d k n).l1 = s.l1 := rfl
@[simp] theorem State.farRefresh_farGen (s : State) (d k n : Nat) : (s.farRefresh d k n).farGen = s.farGen := rfl
@[simp] theorem State.farRefresh_constK (s : State) (d k n : Nat) : (s.farRefresh d k n).constK = s.constK := rfl
@[simp] theorem State.farRefresh_ibuf (s : State) (d k n : Nat) : (s.farRefresh d k n).ibuf = s.ibuf := rfl
@[simp] theorem State.farRefresh_rlocks (s : State) (d k n : Nat) : (s.farRefresh d k n).rlocks = s.rlocks := rfl
@[simp] theorem State.farRefresh_tlb (s : State) (d k n : Nat) : (s.farRefresh d k n).tlb = s.tlb := rfl
@[simp] theorem State.farRefresh_walks (s : State) (d k n : Nat) : (s.farRefresh d k n).walks = s.walks := rfl
@[simp] theorem State.farRefresh_refused (s : State) (d k n : Nat) : (s.farRefresh d k n).refused = s.refused := rfl
@[simp] theorem State.farRefresh_cols (s : State) (d k n : Nat) : (s.farRefresh d k n).cols = s.cols := rfl
@[simp] theorem State.farRefresh_ports (s : State) (d k n : Nat) : (s.farRefresh d k n).ports = s.ports := rfl
@[simp] theorem State.farRefresh_farBanks (s : State) (d k n : Nat) : (s.farRefresh d k n).farBanks = s.farBanks := rfl
@[simp] theorem State.farRefresh_links (s : State) (d k n : Nat) : (s.farRefresh d k n).links = s.links := rfl
@[simp] theorem State.farRefresh_asks (s : State) (d k n : Nat) : (s.farRefresh d k n).asks = s.asks := rfl
@[simp] theorem State.farRefresh_routed (s : State) (d k n : Nat) : (s.farRefresh d k n).routed = s.routed := rfl
@[simp] theorem State.farRefresh_routes (s : State) (d k n : Nat) : (s.farRefresh d k n).routes = s.routes := rfl
@[simp] theorem State.farRefresh_waking (s : State) (d k n : Nat) : (s.farRefresh d k n).waking = s.waking := rfl
@[simp] theorem State.farRefresh_teams (s : State) (d k n : Nat) : (s.farRefresh d k n).teams = s.teams := rfl
@[simp] theorem State.farRefresh_gangs (s : State) (d k n : Nat) : (s.farRefresh d k n).gangs = s.gangs := rfl
@[simp] theorem State.farRefresh_records (s : State) (d k n : Nat) : (s.farRefresh d k n).records = s.records := rfl
@[simp] theorem State.farRefresh_tasks (s : State) (d k n : Nat) : (s.farRefresh d k n).tasks = s.tasks := rfl
@[simp] theorem State.farRefresh_steals (s : State) (d k n : Nat) : (s.farRefresh d k n).steals = s.steals := rfl
@[simp] theorem State.farRefresh_qServed (s : State) (d k n : Nat) : (s.farRefresh d k n).qServed = s.qServed := rfl
@[simp] theorem State.farRefresh_sServed (s : State) (d k n : Nat) : (s.farRefresh d k n).sServed = s.sServed := rfl
@[simp] theorem State.farRefresh_memOps (s : State) (d k n : Nat) : (s.farRefresh d k n).memOps = s.memOps := rfl
@[simp] theorem State.farRefresh_copies (s : State) (d k n : Nat) : (s.farRefresh d k n).copies = s.copies := rfl
@[simp] theorem State.farRefresh_matOps (s : State) (d k n : Nat) : (s.farRefresh d k n).matOps = s.matOps := rfl
@[simp] theorem State.farRefresh_texOps (s : State) (d k n : Nat) : (s.farRefresh d k n).texOps = s.texOps := rfl
@[simp] theorem State.farRefresh_rays (s : State) (d k n : Nat) : (s.farRefresh d k n).rays = s.rays := rfl
@[simp] theorem State.farRefresh_rayOps (s : State) (d k n : Nat) : (s.farRefresh d k n).rayOps = s.rayOps := rfl
@[simp] theorem State.farRefresh_ncalls (s : State) (d k n : Nat) : (s.farRefresh d k n).ncalls = s.ncalls := rfl
@[simp] theorem State.farRefresh_regroups (s : State) (d k n : Nat) : (s.farRefresh d k n).regroups = s.regroups := rfl
@[simp] theorem State.farRefresh_rgOps (s : State) (d k n : Nat) : (s.farRefresh d k n).rgOps = s.rgOps := rfl
@[simp] theorem State.farRefresh_tokens (s : State) (d k n : Nat) : (s.farRefresh d k n).tokens = s.tokens := rfl
@[simp] theorem State.farRefresh_sends (s : State) (d k n : Nat) : (s.farRefresh d k n).sends = s.sends := rfl
@[simp] theorem State.farRefresh_abroad (s : State) (d k n : Nat) : (s.farRefresh d k n).abroad = s.abroad := rfl
@[simp] theorem State.farRefresh_landings (s : State) (d k n : Nat) : (s.farRefresh d k n).landings = s.landings := rfl
@[simp] theorem State.farRefresh_meetings (s : State) (d k n : Nat) : (s.farRefresh d k n).meetings = s.meetings := rfl
@[simp] theorem State.farRefresh_mbReqs (s : State) (d k n : Nat) : (s.farRefresh d k n).mbReqs = s.mbReqs := rfl
@[simp] theorem State.farRefresh_pairs (s : State) (d k n : Nat) : (s.farRefresh d k n).pairs = s.pairs := rfl
@[simp] theorem State.farRefresh_episodes (s : State) (d k n : Nat) : (s.farRefresh d k n).episodes = s.episodes := rfl
@[simp] theorem State.farRefresh_pmp (s : State) (d k n : Nat) : (s.farRefresh d k n).pmp = s.pmp := rfl
@[simp] theorem State.farRefresh_draws (s : State) (d k n : Nat) : (s.farRefresh d k n).draws = s.draws := rfl
@[simp] theorem State.farRefresh_pixels (s : State) (d k n : Nat) : (s.farRefresh d k n).pixels = s.pixels := rfl
@[simp] theorem State.farRefresh_sampleAt (s : State) (d k n : Nat) : (s.farRefresh d k n).sampleAt = s.sampleAt := rfl
@[simp] theorem State.farRefresh_iuPc (s : State) (d k n : Nat) : (s.farRefresh d k n).iuPc = s.iuPc := rfl
@[simp] theorem State.farRefresh_cur (s : State) (d k n : Nat) : (s.farRefresh d k n).cur = s.cur := rfl
@[simp] theorem State.farRefresh_plan (s : State) (d k n : Nat) : (s.farRefresh d k n).plan = s.plan := rfl
@[simp] theorem State.farRefresh_inputs (s : State) (d k n : Nat) : (s.farRefresh d k n).inputs = s.inputs := rfl
@[simp] theorem State.farRefresh_freeCtr (s : State) (d k n : Nat) : (s.farRefresh d k n).freeCtr = s.freeCtr := rfl
@[simp] theorem State.farRefresh_nextId (s : State) (d k n : Nat) : (s.farRefresh d k n).nextId = s.nextId := rfl

/-! ## setL1 -/

@[simp] theorem State.setL1_clock (s : State) (c : Nat) (t : List (Nat × L1Byte)) : (s.setL1 c t).clock = s.clock := rfl
@[simp] theorem State.setL1_tick (s : State) (c : Nat) (t : List (Nat × L1Byte)) : (s.setL1 c t).tick = s.tick := rfl
@[simp] theorem State.setL1_subClock (s : State) (c : Nat) (t : List (Nat × L1Byte)) : (s.setL1 c t).subClock = s.subClock := rfl
@[simp] theorem State.setL1_clkMHz (s : State) (c : Nat) (t : List (Nat × L1Byte)) : (s.setL1 c t).clkMHz = s.clkMHz := rfl
@[simp] theorem State.setL1_limits (s : State) (c : Nat) (t : List (Nat × L1Byte)) : (s.setL1 c t).limits = s.limits := rfl
@[simp] theorem State.setL1_thSeen (s : State) (c : Nat) (t : List (Nat × L1Byte)) : (s.setL1 c t).thSeen = s.thSeen := rfl
@[simp] theorem State.setL1_throttleAt (s : State) (c : Nat) (t : List (Nat × L1Byte)) : (s.setL1 c t).throttleAt = s.throttleAt := rfl
@[simp] theorem State.setL1_pwrRefused (s : State) (c : Nat) (t : List (Nat × L1Byte)) : (s.setL1 c t).pwrRefused = s.pwrRefused := rfl
@[simp] theorem State.setL1_pwrState (s : State) (c : Nat) (t : List (Nat × L1Byte)) : (s.setL1 c t).pwrState = s.pwrState := rfl
@[simp] theorem State.setL1_pwrExit (s : State) (c : Nat) (t : List (Nat × L1Byte)) : (s.setL1 c t).pwrExit = s.pwrExit := rfl
@[simp] theorem State.setL1_khmod (s : State) (c : Nat) (t : List (Nat × L1Byte)) : (s.setL1 c t).khmod = s.khmod := rfl
@[simp] theorem State.setL1_fwState (s : State) (c : Nat) (t : List (Nat × L1Byte)) : (s.setL1 c t).fwState = s.fwState := rfl
@[simp] theorem State.setL1_fwSvn (s : State) (c : Nat) (t : List (Nat × L1Byte)) : (s.setL1 c t).fwSvn = s.fwSvn := rfl
@[simp] theorem State.setL1_fwMeasure (s : State) (c : Nat) (t : List (Nat × L1Byte)) : (s.setL1 c t).fwMeasure = s.fwMeasure := rfl
@[simp] theorem State.setL1_verifying (s : State) (c : Nat) (t : List (Nat × L1Byte)) : (s.setL1 c t).verifying = s.verifying := rfl
@[simp] theorem State.setL1_fwm (s : State) (c : Nat) (t : List (Nat × L1Byte)) : (s.setL1 c t).fwm = s.fwm := rfl
@[simp] theorem State.setL1_peerMap (s : State) (c : Nat) (t : List (Nat × L1Byte)) : (s.setL1 c t).peerMap = s.peerMap := rfl
@[simp] theorem State.setL1_linkUp (s : State) (c : Nat) (t : List (Nat × L1Byte)) : (s.setL1 c t).linkUp = s.linkUp := rfl
@[simp] theorem State.setL1_diagMode (s : State) (c : Nat) (t : List (Nat × L1Byte)) : (s.setL1 c t).diagMode = s.diagMode := rfl
@[simp] theorem State.setL1_cecnt (s : State) (c : Nat) (t : List (Nat × L1Byte)) : (s.setL1 c t).cecnt = s.cecnt := rfl
@[simp] theorem State.setL1_snapArm (s : State) (c : Nat) (t : List (Nat × L1Byte)) : (s.setL1 c t).snapArm = s.snapArm := rfl
@[simp] theorem State.setL1_snapExten (s : State) (c : Nat) (t : List (Nat × L1Byte)) : (s.setL1 c t).snapExten = s.snapExten := rfl
@[simp] theorem State.setL1_snapFired (s : State) (c : Nat) (t : List (Nat × L1Byte)) : (s.setL1 c t).snapFired = s.snapFired := rfl
@[simp] theorem State.setL1_snap (s : State) (c : Nat) (t : List (Nat × L1Byte)) : (s.setL1 c t).snap = s.snap := rfl
@[simp] theorem State.setL1_seqNo (s : State) (c : Nat) (t : List (Nat × L1Byte)) : (s.setL1 c t).seqNo = s.seqNo := rfl
@[simp] theorem State.setL1_ctxs (s : State) (c : Nat) (t : List (Nat × L1Byte)) : (s.setL1 c t).ctxs = s.ctxs := rfl
@[simp] theorem State.setL1_mem (s : State) (c : Nat) (t : List (Nat × L1Byte)) : (s.setL1 c t).mem = s.mem := rfl
@[simp] theorem State.setL1_poison (s : State) (c : Nat) (t : List (Nat × L1Byte)) : (s.setL1 c t).poison = s.poison := rfl
@[simp] theorem State.setL1_scratch (s : State) (c : Nat) (t : List (Nat × L1Byte)) : (s.setL1 c t).scratch = s.scratch := rfl
@[simp] theorem State.setL1_banks (s : State) (c : Nat) (t : List (Nat × L1Byte)) : (s.setL1 c t).banks = s.banks := rfl
@[simp] theorem State.setL1_far (s : State) (c : Nat) (t : List (Nat × L1Byte)) : (s.setL1 c t).far = s.far := rfl
@[simp] theorem State.setL1_farGen (s : State) (c : Nat) (t : List (Nat × L1Byte)) : (s.setL1 c t).farGen = s.farGen := rfl
@[simp] theorem State.setL1_constK (s : State) (c : Nat) (t : List (Nat × L1Byte)) : (s.setL1 c t).constK = s.constK := rfl
@[simp] theorem State.setL1_ibuf (s : State) (c : Nat) (t : List (Nat × L1Byte)) : (s.setL1 c t).ibuf = s.ibuf := rfl
@[simp] theorem State.setL1_rlocks (s : State) (c : Nat) (t : List (Nat × L1Byte)) : (s.setL1 c t).rlocks = s.rlocks := rfl
@[simp] theorem State.setL1_tlb (s : State) (c : Nat) (t : List (Nat × L1Byte)) : (s.setL1 c t).tlb = s.tlb := rfl
@[simp] theorem State.setL1_walks (s : State) (c : Nat) (t : List (Nat × L1Byte)) : (s.setL1 c t).walks = s.walks := rfl
@[simp] theorem State.setL1_refused (s : State) (c : Nat) (t : List (Nat × L1Byte)) : (s.setL1 c t).refused = s.refused := rfl
@[simp] theorem State.setL1_cols (s : State) (c : Nat) (t : List (Nat × L1Byte)) : (s.setL1 c t).cols = s.cols := rfl
@[simp] theorem State.setL1_ports (s : State) (c : Nat) (t : List (Nat × L1Byte)) : (s.setL1 c t).ports = s.ports := rfl
@[simp] theorem State.setL1_farBanks (s : State) (c : Nat) (t : List (Nat × L1Byte)) : (s.setL1 c t).farBanks = s.farBanks := rfl
@[simp] theorem State.setL1_links (s : State) (c : Nat) (t : List (Nat × L1Byte)) : (s.setL1 c t).links = s.links := rfl
@[simp] theorem State.setL1_asks (s : State) (c : Nat) (t : List (Nat × L1Byte)) : (s.setL1 c t).asks = s.asks := rfl
@[simp] theorem State.setL1_routed (s : State) (c : Nat) (t : List (Nat × L1Byte)) : (s.setL1 c t).routed = s.routed := rfl
@[simp] theorem State.setL1_routes (s : State) (c : Nat) (t : List (Nat × L1Byte)) : (s.setL1 c t).routes = s.routes := rfl
@[simp] theorem State.setL1_waking (s : State) (c : Nat) (t : List (Nat × L1Byte)) : (s.setL1 c t).waking = s.waking := rfl
@[simp] theorem State.setL1_teams (s : State) (c : Nat) (t : List (Nat × L1Byte)) : (s.setL1 c t).teams = s.teams := rfl
@[simp] theorem State.setL1_gangs (s : State) (c : Nat) (t : List (Nat × L1Byte)) : (s.setL1 c t).gangs = s.gangs := rfl
@[simp] theorem State.setL1_records (s : State) (c : Nat) (t : List (Nat × L1Byte)) : (s.setL1 c t).records = s.records := rfl
@[simp] theorem State.setL1_tasks (s : State) (c : Nat) (t : List (Nat × L1Byte)) : (s.setL1 c t).tasks = s.tasks := rfl
@[simp] theorem State.setL1_steals (s : State) (c : Nat) (t : List (Nat × L1Byte)) : (s.setL1 c t).steals = s.steals := rfl
@[simp] theorem State.setL1_qServed (s : State) (c : Nat) (t : List (Nat × L1Byte)) : (s.setL1 c t).qServed = s.qServed := rfl
@[simp] theorem State.setL1_sServed (s : State) (c : Nat) (t : List (Nat × L1Byte)) : (s.setL1 c t).sServed = s.sServed := rfl
@[simp] theorem State.setL1_memOps (s : State) (c : Nat) (t : List (Nat × L1Byte)) : (s.setL1 c t).memOps = s.memOps := rfl
@[simp] theorem State.setL1_copies (s : State) (c : Nat) (t : List (Nat × L1Byte)) : (s.setL1 c t).copies = s.copies := rfl
@[simp] theorem State.setL1_matOps (s : State) (c : Nat) (t : List (Nat × L1Byte)) : (s.setL1 c t).matOps = s.matOps := rfl
@[simp] theorem State.setL1_texOps (s : State) (c : Nat) (t : List (Nat × L1Byte)) : (s.setL1 c t).texOps = s.texOps := rfl
@[simp] theorem State.setL1_rays (s : State) (c : Nat) (t : List (Nat × L1Byte)) : (s.setL1 c t).rays = s.rays := rfl
@[simp] theorem State.setL1_rayOps (s : State) (c : Nat) (t : List (Nat × L1Byte)) : (s.setL1 c t).rayOps = s.rayOps := rfl
@[simp] theorem State.setL1_ncalls (s : State) (c : Nat) (t : List (Nat × L1Byte)) : (s.setL1 c t).ncalls = s.ncalls := rfl
@[simp] theorem State.setL1_regroups (s : State) (c : Nat) (t : List (Nat × L1Byte)) : (s.setL1 c t).regroups = s.regroups := rfl
@[simp] theorem State.setL1_rgOps (s : State) (c : Nat) (t : List (Nat × L1Byte)) : (s.setL1 c t).rgOps = s.rgOps := rfl
@[simp] theorem State.setL1_tokens (s : State) (c : Nat) (t : List (Nat × L1Byte)) : (s.setL1 c t).tokens = s.tokens := rfl
@[simp] theorem State.setL1_sends (s : State) (c : Nat) (t : List (Nat × L1Byte)) : (s.setL1 c t).sends = s.sends := rfl
@[simp] theorem State.setL1_abroad (s : State) (c : Nat) (t : List (Nat × L1Byte)) : (s.setL1 c t).abroad = s.abroad := rfl
@[simp] theorem State.setL1_landings (s : State) (c : Nat) (t : List (Nat × L1Byte)) : (s.setL1 c t).landings = s.landings := rfl
@[simp] theorem State.setL1_meetings (s : State) (c : Nat) (t : List (Nat × L1Byte)) : (s.setL1 c t).meetings = s.meetings := rfl
@[simp] theorem State.setL1_mbReqs (s : State) (c : Nat) (t : List (Nat × L1Byte)) : (s.setL1 c t).mbReqs = s.mbReqs := rfl
@[simp] theorem State.setL1_pairs (s : State) (c : Nat) (t : List (Nat × L1Byte)) : (s.setL1 c t).pairs = s.pairs := rfl
@[simp] theorem State.setL1_episodes (s : State) (c : Nat) (t : List (Nat × L1Byte)) : (s.setL1 c t).episodes = s.episodes := rfl
@[simp] theorem State.setL1_pmp (s : State) (c : Nat) (t : List (Nat × L1Byte)) : (s.setL1 c t).pmp = s.pmp := rfl
@[simp] theorem State.setL1_draws (s : State) (c : Nat) (t : List (Nat × L1Byte)) : (s.setL1 c t).draws = s.draws := rfl
@[simp] theorem State.setL1_pixels (s : State) (c : Nat) (t : List (Nat × L1Byte)) : (s.setL1 c t).pixels = s.pixels := rfl
@[simp] theorem State.setL1_sampleAt (s : State) (c : Nat) (t : List (Nat × L1Byte)) : (s.setL1 c t).sampleAt = s.sampleAt := rfl
@[simp] theorem State.setL1_iuPc (s : State) (c : Nat) (t : List (Nat × L1Byte)) : (s.setL1 c t).iuPc = s.iuPc := rfl
@[simp] theorem State.setL1_cur (s : State) (c : Nat) (t : List (Nat × L1Byte)) : (s.setL1 c t).cur = s.cur := rfl
@[simp] theorem State.setL1_plan (s : State) (c : Nat) (t : List (Nat × L1Byte)) : (s.setL1 c t).plan = s.plan := rfl
@[simp] theorem State.setL1_inputs (s : State) (c : Nat) (t : List (Nat × L1Byte)) : (s.setL1 c t).inputs = s.inputs := rfl
@[simp] theorem State.setL1_freeCtr (s : State) (c : Nat) (t : List (Nat × L1Byte)) : (s.setL1 c t).freeCtr = s.freeCtr := rfl
@[simp] theorem State.setL1_nextId (s : State) (c : Nat) (t : List (Nat × L1Byte)) : (s.setL1 c t).nextId = s.nextId := rfl

/-! ## tlbInsert -/

@[simp] theorem State.tlbInsert_clock (s : State) (c x b n : Nat) (e : BitVec 64) : (s.tlbInsert c x b n e).clock = s.clock := rfl
@[simp] theorem State.tlbInsert_tick (s : State) (c x b n : Nat) (e : BitVec 64) : (s.tlbInsert c x b n e).tick = s.tick := rfl
@[simp] theorem State.tlbInsert_subClock (s : State) (c x b n : Nat) (e : BitVec 64) : (s.tlbInsert c x b n e).subClock = s.subClock := rfl
@[simp] theorem State.tlbInsert_clkMHz (s : State) (c x b n : Nat) (e : BitVec 64) : (s.tlbInsert c x b n e).clkMHz = s.clkMHz := rfl
@[simp] theorem State.tlbInsert_limits (s : State) (c x b n : Nat) (e : BitVec 64) : (s.tlbInsert c x b n e).limits = s.limits := rfl
@[simp] theorem State.tlbInsert_thSeen (s : State) (c x b n : Nat) (e : BitVec 64) : (s.tlbInsert c x b n e).thSeen = s.thSeen := rfl
@[simp] theorem State.tlbInsert_throttleAt (s : State) (c x b n : Nat) (e : BitVec 64) : (s.tlbInsert c x b n e).throttleAt = s.throttleAt := rfl
@[simp] theorem State.tlbInsert_pwrRefused (s : State) (c x b n : Nat) (e : BitVec 64) : (s.tlbInsert c x b n e).pwrRefused = s.pwrRefused := rfl
@[simp] theorem State.tlbInsert_pwrState (s : State) (c x b n : Nat) (e : BitVec 64) : (s.tlbInsert c x b n e).pwrState = s.pwrState := rfl
@[simp] theorem State.tlbInsert_pwrExit (s : State) (c x b n : Nat) (e : BitVec 64) : (s.tlbInsert c x b n e).pwrExit = s.pwrExit := rfl
@[simp] theorem State.tlbInsert_khmod (s : State) (c x b n : Nat) (e : BitVec 64) : (s.tlbInsert c x b n e).khmod = s.khmod := rfl
@[simp] theorem State.tlbInsert_fwState (s : State) (c x b n : Nat) (e : BitVec 64) : (s.tlbInsert c x b n e).fwState = s.fwState := rfl
@[simp] theorem State.tlbInsert_fwSvn (s : State) (c x b n : Nat) (e : BitVec 64) : (s.tlbInsert c x b n e).fwSvn = s.fwSvn := rfl
@[simp] theorem State.tlbInsert_fwMeasure (s : State) (c x b n : Nat) (e : BitVec 64) : (s.tlbInsert c x b n e).fwMeasure = s.fwMeasure := rfl
@[simp] theorem State.tlbInsert_verifying (s : State) (c x b n : Nat) (e : BitVec 64) : (s.tlbInsert c x b n e).verifying = s.verifying := rfl
@[simp] theorem State.tlbInsert_fwm (s : State) (c x b n : Nat) (e : BitVec 64) : (s.tlbInsert c x b n e).fwm = s.fwm := rfl
@[simp] theorem State.tlbInsert_peerMap (s : State) (c x b n : Nat) (e : BitVec 64) : (s.tlbInsert c x b n e).peerMap = s.peerMap := rfl
@[simp] theorem State.tlbInsert_linkUp (s : State) (c x b n : Nat) (e : BitVec 64) : (s.tlbInsert c x b n e).linkUp = s.linkUp := rfl
@[simp] theorem State.tlbInsert_diagMode (s : State) (c x b n : Nat) (e : BitVec 64) : (s.tlbInsert c x b n e).diagMode = s.diagMode := rfl
@[simp] theorem State.tlbInsert_cecnt (s : State) (c x b n : Nat) (e : BitVec 64) : (s.tlbInsert c x b n e).cecnt = s.cecnt := rfl
@[simp] theorem State.tlbInsert_snapArm (s : State) (c x b n : Nat) (e : BitVec 64) : (s.tlbInsert c x b n e).snapArm = s.snapArm := rfl
@[simp] theorem State.tlbInsert_snapExten (s : State) (c x b n : Nat) (e : BitVec 64) : (s.tlbInsert c x b n e).snapExten = s.snapExten := rfl
@[simp] theorem State.tlbInsert_snapFired (s : State) (c x b n : Nat) (e : BitVec 64) : (s.tlbInsert c x b n e).snapFired = s.snapFired := rfl
@[simp] theorem State.tlbInsert_snap (s : State) (c x b n : Nat) (e : BitVec 64) : (s.tlbInsert c x b n e).snap = s.snap := rfl
@[simp] theorem State.tlbInsert_seqNo (s : State) (c x b n : Nat) (e : BitVec 64) : (s.tlbInsert c x b n e).seqNo = s.seqNo := rfl
@[simp] theorem State.tlbInsert_ctxs (s : State) (c x b n : Nat) (e : BitVec 64) : (s.tlbInsert c x b n e).ctxs = s.ctxs := rfl
@[simp] theorem State.tlbInsert_mem (s : State) (c x b n : Nat) (e : BitVec 64) : (s.tlbInsert c x b n e).mem = s.mem := rfl
@[simp] theorem State.tlbInsert_poison (s : State) (c x b n : Nat) (e : BitVec 64) : (s.tlbInsert c x b n e).poison = s.poison := rfl
@[simp] theorem State.tlbInsert_scratch (s : State) (c x b n : Nat) (e : BitVec 64) : (s.tlbInsert c x b n e).scratch = s.scratch := rfl
@[simp] theorem State.tlbInsert_banks (s : State) (c x b n : Nat) (e : BitVec 64) : (s.tlbInsert c x b n e).banks = s.banks := rfl
@[simp] theorem State.tlbInsert_l1 (s : State) (c x b n : Nat) (e : BitVec 64) : (s.tlbInsert c x b n e).l1 = s.l1 := rfl
@[simp] theorem State.tlbInsert_far (s : State) (c x b n : Nat) (e : BitVec 64) : (s.tlbInsert c x b n e).far = s.far := rfl
@[simp] theorem State.tlbInsert_farGen (s : State) (c x b n : Nat) (e : BitVec 64) : (s.tlbInsert c x b n e).farGen = s.farGen := rfl
@[simp] theorem State.tlbInsert_constK (s : State) (c x b n : Nat) (e : BitVec 64) : (s.tlbInsert c x b n e).constK = s.constK := rfl
@[simp] theorem State.tlbInsert_ibuf (s : State) (c x b n : Nat) (e : BitVec 64) : (s.tlbInsert c x b n e).ibuf = s.ibuf := rfl
@[simp] theorem State.tlbInsert_rlocks (s : State) (c x b n : Nat) (e : BitVec 64) : (s.tlbInsert c x b n e).rlocks = s.rlocks := rfl
@[simp] theorem State.tlbInsert_walks (s : State) (c x b n : Nat) (e : BitVec 64) : (s.tlbInsert c x b n e).walks = s.walks := rfl
@[simp] theorem State.tlbInsert_refused (s : State) (c x b n : Nat) (e : BitVec 64) : (s.tlbInsert c x b n e).refused = s.refused := rfl
@[simp] theorem State.tlbInsert_cols (s : State) (c x b n : Nat) (e : BitVec 64) : (s.tlbInsert c x b n e).cols = s.cols := rfl
@[simp] theorem State.tlbInsert_ports (s : State) (c x b n : Nat) (e : BitVec 64) : (s.tlbInsert c x b n e).ports = s.ports := rfl
@[simp] theorem State.tlbInsert_farBanks (s : State) (c x b n : Nat) (e : BitVec 64) : (s.tlbInsert c x b n e).farBanks = s.farBanks := rfl
@[simp] theorem State.tlbInsert_links (s : State) (c x b n : Nat) (e : BitVec 64) : (s.tlbInsert c x b n e).links = s.links := rfl
@[simp] theorem State.tlbInsert_asks (s : State) (c x b n : Nat) (e : BitVec 64) : (s.tlbInsert c x b n e).asks = s.asks := rfl
@[simp] theorem State.tlbInsert_routed (s : State) (c x b n : Nat) (e : BitVec 64) : (s.tlbInsert c x b n e).routed = s.routed := rfl
@[simp] theorem State.tlbInsert_routes (s : State) (c x b n : Nat) (e : BitVec 64) : (s.tlbInsert c x b n e).routes = s.routes := rfl
@[simp] theorem State.tlbInsert_waking (s : State) (c x b n : Nat) (e : BitVec 64) : (s.tlbInsert c x b n e).waking = s.waking := rfl
@[simp] theorem State.tlbInsert_teams (s : State) (c x b n : Nat) (e : BitVec 64) : (s.tlbInsert c x b n e).teams = s.teams := rfl
@[simp] theorem State.tlbInsert_gangs (s : State) (c x b n : Nat) (e : BitVec 64) : (s.tlbInsert c x b n e).gangs = s.gangs := rfl
@[simp] theorem State.tlbInsert_records (s : State) (c x b n : Nat) (e : BitVec 64) : (s.tlbInsert c x b n e).records = s.records := rfl
@[simp] theorem State.tlbInsert_tasks (s : State) (c x b n : Nat) (e : BitVec 64) : (s.tlbInsert c x b n e).tasks = s.tasks := rfl
@[simp] theorem State.tlbInsert_steals (s : State) (c x b n : Nat) (e : BitVec 64) : (s.tlbInsert c x b n e).steals = s.steals := rfl
@[simp] theorem State.tlbInsert_qServed (s : State) (c x b n : Nat) (e : BitVec 64) : (s.tlbInsert c x b n e).qServed = s.qServed := rfl
@[simp] theorem State.tlbInsert_sServed (s : State) (c x b n : Nat) (e : BitVec 64) : (s.tlbInsert c x b n e).sServed = s.sServed := rfl
@[simp] theorem State.tlbInsert_memOps (s : State) (c x b n : Nat) (e : BitVec 64) : (s.tlbInsert c x b n e).memOps = s.memOps := rfl
@[simp] theorem State.tlbInsert_copies (s : State) (c x b n : Nat) (e : BitVec 64) : (s.tlbInsert c x b n e).copies = s.copies := rfl
@[simp] theorem State.tlbInsert_matOps (s : State) (c x b n : Nat) (e : BitVec 64) : (s.tlbInsert c x b n e).matOps = s.matOps := rfl
@[simp] theorem State.tlbInsert_texOps (s : State) (c x b n : Nat) (e : BitVec 64) : (s.tlbInsert c x b n e).texOps = s.texOps := rfl
@[simp] theorem State.tlbInsert_rays (s : State) (c x b n : Nat) (e : BitVec 64) : (s.tlbInsert c x b n e).rays = s.rays := rfl
@[simp] theorem State.tlbInsert_rayOps (s : State) (c x b n : Nat) (e : BitVec 64) : (s.tlbInsert c x b n e).rayOps = s.rayOps := rfl
@[simp] theorem State.tlbInsert_ncalls (s : State) (c x b n : Nat) (e : BitVec 64) : (s.tlbInsert c x b n e).ncalls = s.ncalls := rfl
@[simp] theorem State.tlbInsert_regroups (s : State) (c x b n : Nat) (e : BitVec 64) : (s.tlbInsert c x b n e).regroups = s.regroups := rfl
@[simp] theorem State.tlbInsert_rgOps (s : State) (c x b n : Nat) (e : BitVec 64) : (s.tlbInsert c x b n e).rgOps = s.rgOps := rfl
@[simp] theorem State.tlbInsert_tokens (s : State) (c x b n : Nat) (e : BitVec 64) : (s.tlbInsert c x b n e).tokens = s.tokens := rfl
@[simp] theorem State.tlbInsert_sends (s : State) (c x b n : Nat) (e : BitVec 64) : (s.tlbInsert c x b n e).sends = s.sends := rfl
@[simp] theorem State.tlbInsert_abroad (s : State) (c x b n : Nat) (e : BitVec 64) : (s.tlbInsert c x b n e).abroad = s.abroad := rfl
@[simp] theorem State.tlbInsert_landings (s : State) (c x b n : Nat) (e : BitVec 64) : (s.tlbInsert c x b n e).landings = s.landings := rfl
@[simp] theorem State.tlbInsert_meetings (s : State) (c x b n : Nat) (e : BitVec 64) : (s.tlbInsert c x b n e).meetings = s.meetings := rfl
@[simp] theorem State.tlbInsert_mbReqs (s : State) (c x b n : Nat) (e : BitVec 64) : (s.tlbInsert c x b n e).mbReqs = s.mbReqs := rfl
@[simp] theorem State.tlbInsert_pairs (s : State) (c x b n : Nat) (e : BitVec 64) : (s.tlbInsert c x b n e).pairs = s.pairs := rfl
@[simp] theorem State.tlbInsert_episodes (s : State) (c x b n : Nat) (e : BitVec 64) : (s.tlbInsert c x b n e).episodes = s.episodes := rfl
@[simp] theorem State.tlbInsert_pmp (s : State) (c x b n : Nat) (e : BitVec 64) : (s.tlbInsert c x b n e).pmp = s.pmp := rfl
@[simp] theorem State.tlbInsert_draws (s : State) (c x b n : Nat) (e : BitVec 64) : (s.tlbInsert c x b n e).draws = s.draws := rfl
@[simp] theorem State.tlbInsert_pixels (s : State) (c x b n : Nat) (e : BitVec 64) : (s.tlbInsert c x b n e).pixels = s.pixels := rfl
@[simp] theorem State.tlbInsert_sampleAt (s : State) (c x b n : Nat) (e : BitVec 64) : (s.tlbInsert c x b n e).sampleAt = s.sampleAt := rfl
@[simp] theorem State.tlbInsert_iuPc (s : State) (c x b n : Nat) (e : BitVec 64) : (s.tlbInsert c x b n e).iuPc = s.iuPc := rfl
@[simp] theorem State.tlbInsert_cur (s : State) (c x b n : Nat) (e : BitVec 64) : (s.tlbInsert c x b n e).cur = s.cur := rfl
@[simp] theorem State.tlbInsert_plan (s : State) (c x b n : Nat) (e : BitVec 64) : (s.tlbInsert c x b n e).plan = s.plan := rfl
@[simp] theorem State.tlbInsert_inputs (s : State) (c x b n : Nat) (e : BitVec 64) : (s.tlbInsert c x b n e).inputs = s.inputs := rfl
@[simp] theorem State.tlbInsert_freeCtr (s : State) (c x b n : Nat) (e : BitVec 64) : (s.tlbInsert c x b n e).freeCtr = s.freeCtr := rfl
@[simp] theorem State.tlbInsert_nextId (s : State) (c x b n : Nat) (e : BitVec 64) : (s.tlbInsert c x b n e).nextId = s.nextId := rfl

/-! ## fresh -/

@[simp] theorem State.fresh_clock (s : State) : (s.fresh.1).clock = s.clock := rfl
@[simp] theorem State.fresh_tick (s : State) : (s.fresh.1).tick = s.tick := rfl
@[simp] theorem State.fresh_subClock (s : State) : (s.fresh.1).subClock = s.subClock := rfl
@[simp] theorem State.fresh_clkMHz (s : State) : (s.fresh.1).clkMHz = s.clkMHz := rfl
@[simp] theorem State.fresh_limits (s : State) : (s.fresh.1).limits = s.limits := rfl
@[simp] theorem State.fresh_thSeen (s : State) : (s.fresh.1).thSeen = s.thSeen := rfl
@[simp] theorem State.fresh_throttleAt (s : State) : (s.fresh.1).throttleAt = s.throttleAt := rfl
@[simp] theorem State.fresh_pwrRefused (s : State) : (s.fresh.1).pwrRefused = s.pwrRefused := rfl
@[simp] theorem State.fresh_pwrState (s : State) : (s.fresh.1).pwrState = s.pwrState := rfl
@[simp] theorem State.fresh_pwrExit (s : State) : (s.fresh.1).pwrExit = s.pwrExit := rfl
@[simp] theorem State.fresh_khmod (s : State) : (s.fresh.1).khmod = s.khmod := rfl
@[simp] theorem State.fresh_fwState (s : State) : (s.fresh.1).fwState = s.fwState := rfl
@[simp] theorem State.fresh_fwSvn (s : State) : (s.fresh.1).fwSvn = s.fwSvn := rfl
@[simp] theorem State.fresh_fwMeasure (s : State) : (s.fresh.1).fwMeasure = s.fwMeasure := rfl
@[simp] theorem State.fresh_verifying (s : State) : (s.fresh.1).verifying = s.verifying := rfl
@[simp] theorem State.fresh_fwm (s : State) : (s.fresh.1).fwm = s.fwm := rfl
@[simp] theorem State.fresh_peerMap (s : State) : (s.fresh.1).peerMap = s.peerMap := rfl
@[simp] theorem State.fresh_linkUp (s : State) : (s.fresh.1).linkUp = s.linkUp := rfl
@[simp] theorem State.fresh_diagMode (s : State) : (s.fresh.1).diagMode = s.diagMode := rfl
@[simp] theorem State.fresh_cecnt (s : State) : (s.fresh.1).cecnt = s.cecnt := rfl
@[simp] theorem State.fresh_snapArm (s : State) : (s.fresh.1).snapArm = s.snapArm := rfl
@[simp] theorem State.fresh_snapExten (s : State) : (s.fresh.1).snapExten = s.snapExten := rfl
@[simp] theorem State.fresh_snapFired (s : State) : (s.fresh.1).snapFired = s.snapFired := rfl
@[simp] theorem State.fresh_snap (s : State) : (s.fresh.1).snap = s.snap := rfl
@[simp] theorem State.fresh_seqNo (s : State) : (s.fresh.1).seqNo = s.seqNo := rfl
@[simp] theorem State.fresh_ctxs (s : State) : (s.fresh.1).ctxs = s.ctxs := rfl
@[simp] theorem State.fresh_mem (s : State) : (s.fresh.1).mem = s.mem := rfl
@[simp] theorem State.fresh_poison (s : State) : (s.fresh.1).poison = s.poison := rfl
@[simp] theorem State.fresh_scratch (s : State) : (s.fresh.1).scratch = s.scratch := rfl
@[simp] theorem State.fresh_banks (s : State) : (s.fresh.1).banks = s.banks := rfl
@[simp] theorem State.fresh_l1 (s : State) : (s.fresh.1).l1 = s.l1 := rfl
@[simp] theorem State.fresh_far (s : State) : (s.fresh.1).far = s.far := rfl
@[simp] theorem State.fresh_farGen (s : State) : (s.fresh.1).farGen = s.farGen := rfl
@[simp] theorem State.fresh_constK (s : State) : (s.fresh.1).constK = s.constK := rfl
@[simp] theorem State.fresh_ibuf (s : State) : (s.fresh.1).ibuf = s.ibuf := rfl
@[simp] theorem State.fresh_rlocks (s : State) : (s.fresh.1).rlocks = s.rlocks := rfl
@[simp] theorem State.fresh_tlb (s : State) : (s.fresh.1).tlb = s.tlb := rfl
@[simp] theorem State.fresh_walks (s : State) : (s.fresh.1).walks = s.walks := rfl
@[simp] theorem State.fresh_refused (s : State) : (s.fresh.1).refused = s.refused := rfl
@[simp] theorem State.fresh_cols (s : State) : (s.fresh.1).cols = s.cols := rfl
@[simp] theorem State.fresh_ports (s : State) : (s.fresh.1).ports = s.ports := rfl
@[simp] theorem State.fresh_farBanks (s : State) : (s.fresh.1).farBanks = s.farBanks := rfl
@[simp] theorem State.fresh_links (s : State) : (s.fresh.1).links = s.links := rfl
@[simp] theorem State.fresh_asks (s : State) : (s.fresh.1).asks = s.asks := rfl
@[simp] theorem State.fresh_routed (s : State) : (s.fresh.1).routed = s.routed := rfl
@[simp] theorem State.fresh_routes (s : State) : (s.fresh.1).routes = s.routes := rfl
@[simp] theorem State.fresh_waking (s : State) : (s.fresh.1).waking = s.waking := rfl
@[simp] theorem State.fresh_teams (s : State) : (s.fresh.1).teams = s.teams := rfl
@[simp] theorem State.fresh_gangs (s : State) : (s.fresh.1).gangs = s.gangs := rfl
@[simp] theorem State.fresh_records (s : State) : (s.fresh.1).records = s.records := rfl
@[simp] theorem State.fresh_tasks (s : State) : (s.fresh.1).tasks = s.tasks := rfl
@[simp] theorem State.fresh_steals (s : State) : (s.fresh.1).steals = s.steals := rfl
@[simp] theorem State.fresh_qServed (s : State) : (s.fresh.1).qServed = s.qServed := rfl
@[simp] theorem State.fresh_sServed (s : State) : (s.fresh.1).sServed = s.sServed := rfl
@[simp] theorem State.fresh_memOps (s : State) : (s.fresh.1).memOps = s.memOps := rfl
@[simp] theorem State.fresh_copies (s : State) : (s.fresh.1).copies = s.copies := rfl
@[simp] theorem State.fresh_matOps (s : State) : (s.fresh.1).matOps = s.matOps := rfl
@[simp] theorem State.fresh_texOps (s : State) : (s.fresh.1).texOps = s.texOps := rfl
@[simp] theorem State.fresh_rays (s : State) : (s.fresh.1).rays = s.rays := rfl
@[simp] theorem State.fresh_rayOps (s : State) : (s.fresh.1).rayOps = s.rayOps := rfl
@[simp] theorem State.fresh_ncalls (s : State) : (s.fresh.1).ncalls = s.ncalls := rfl
@[simp] theorem State.fresh_regroups (s : State) : (s.fresh.1).regroups = s.regroups := rfl
@[simp] theorem State.fresh_rgOps (s : State) : (s.fresh.1).rgOps = s.rgOps := rfl
@[simp] theorem State.fresh_tokens (s : State) : (s.fresh.1).tokens = s.tokens := rfl
@[simp] theorem State.fresh_sends (s : State) : (s.fresh.1).sends = s.sends := rfl
@[simp] theorem State.fresh_abroad (s : State) : (s.fresh.1).abroad = s.abroad := rfl
@[simp] theorem State.fresh_landings (s : State) : (s.fresh.1).landings = s.landings := rfl
@[simp] theorem State.fresh_meetings (s : State) : (s.fresh.1).meetings = s.meetings := rfl
@[simp] theorem State.fresh_mbReqs (s : State) : (s.fresh.1).mbReqs = s.mbReqs := rfl
@[simp] theorem State.fresh_pairs (s : State) : (s.fresh.1).pairs = s.pairs := rfl
@[simp] theorem State.fresh_episodes (s : State) : (s.fresh.1).episodes = s.episodes := rfl
@[simp] theorem State.fresh_pmp (s : State) : (s.fresh.1).pmp = s.pmp := rfl
@[simp] theorem State.fresh_draws (s : State) : (s.fresh.1).draws = s.draws := rfl
@[simp] theorem State.fresh_pixels (s : State) : (s.fresh.1).pixels = s.pixels := rfl
@[simp] theorem State.fresh_sampleAt (s : State) : (s.fresh.1).sampleAt = s.sampleAt := rfl
@[simp] theorem State.fresh_iuPc (s : State) : (s.fresh.1).iuPc = s.iuPc := rfl
@[simp] theorem State.fresh_cur (s : State) : (s.fresh.1).cur = s.cur := rfl
@[simp] theorem State.fresh_plan (s : State) : (s.fresh.1).plan = s.plan := rfl
@[simp] theorem State.fresh_inputs (s : State) : (s.fresh.1).inputs = s.inputs := rfl
@[simp] theorem State.fresh_freeCtr (s : State) : (s.fresh.1).freeCtr = s.freeCtr := rfl

/-! ## flip -/

@[simp] theorem State.flip_clock (s : State) : (s.flip.1).clock = s.clock := rfl
@[simp] theorem State.flip_tick (s : State) : (s.flip.1).tick = s.tick := rfl
@[simp] theorem State.flip_subClock (s : State) : (s.flip.1).subClock = s.subClock := rfl
@[simp] theorem State.flip_clkMHz (s : State) : (s.flip.1).clkMHz = s.clkMHz := rfl
@[simp] theorem State.flip_limits (s : State) : (s.flip.1).limits = s.limits := rfl
@[simp] theorem State.flip_thSeen (s : State) : (s.flip.1).thSeen = s.thSeen := rfl
@[simp] theorem State.flip_throttleAt (s : State) : (s.flip.1).throttleAt = s.throttleAt := rfl
@[simp] theorem State.flip_pwrRefused (s : State) : (s.flip.1).pwrRefused = s.pwrRefused := rfl
@[simp] theorem State.flip_pwrState (s : State) : (s.flip.1).pwrState = s.pwrState := rfl
@[simp] theorem State.flip_pwrExit (s : State) : (s.flip.1).pwrExit = s.pwrExit := rfl
@[simp] theorem State.flip_khmod (s : State) : (s.flip.1).khmod = s.khmod := rfl
@[simp] theorem State.flip_fwState (s : State) : (s.flip.1).fwState = s.fwState := rfl
@[simp] theorem State.flip_fwSvn (s : State) : (s.flip.1).fwSvn = s.fwSvn := rfl
@[simp] theorem State.flip_fwMeasure (s : State) : (s.flip.1).fwMeasure = s.fwMeasure := rfl
@[simp] theorem State.flip_verifying (s : State) : (s.flip.1).verifying = s.verifying := rfl
@[simp] theorem State.flip_fwm (s : State) : (s.flip.1).fwm = s.fwm := rfl
@[simp] theorem State.flip_peerMap (s : State) : (s.flip.1).peerMap = s.peerMap := rfl
@[simp] theorem State.flip_linkUp (s : State) : (s.flip.1).linkUp = s.linkUp := rfl
@[simp] theorem State.flip_diagMode (s : State) : (s.flip.1).diagMode = s.diagMode := rfl
@[simp] theorem State.flip_cecnt (s : State) : (s.flip.1).cecnt = s.cecnt := rfl
@[simp] theorem State.flip_snapArm (s : State) : (s.flip.1).snapArm = s.snapArm := rfl
@[simp] theorem State.flip_snapExten (s : State) : (s.flip.1).snapExten = s.snapExten := rfl
@[simp] theorem State.flip_snapFired (s : State) : (s.flip.1).snapFired = s.snapFired := rfl
@[simp] theorem State.flip_snap (s : State) : (s.flip.1).snap = s.snap := rfl
@[simp] theorem State.flip_seqNo (s : State) : (s.flip.1).seqNo = s.seqNo := rfl
@[simp] theorem State.flip_ctxs (s : State) : (s.flip.1).ctxs = s.ctxs := rfl
@[simp] theorem State.flip_mem (s : State) : (s.flip.1).mem = s.mem := rfl
@[simp] theorem State.flip_poison (s : State) : (s.flip.1).poison = s.poison := rfl
@[simp] theorem State.flip_scratch (s : State) : (s.flip.1).scratch = s.scratch := rfl
@[simp] theorem State.flip_banks (s : State) : (s.flip.1).banks = s.banks := rfl
@[simp] theorem State.flip_l1 (s : State) : (s.flip.1).l1 = s.l1 := rfl
@[simp] theorem State.flip_far (s : State) : (s.flip.1).far = s.far := rfl
@[simp] theorem State.flip_farGen (s : State) : (s.flip.1).farGen = s.farGen := rfl
@[simp] theorem State.flip_constK (s : State) : (s.flip.1).constK = s.constK := rfl
@[simp] theorem State.flip_ibuf (s : State) : (s.flip.1).ibuf = s.ibuf := rfl
@[simp] theorem State.flip_rlocks (s : State) : (s.flip.1).rlocks = s.rlocks := rfl
@[simp] theorem State.flip_tlb (s : State) : (s.flip.1).tlb = s.tlb := rfl
@[simp] theorem State.flip_walks (s : State) : (s.flip.1).walks = s.walks := rfl
@[simp] theorem State.flip_refused (s : State) : (s.flip.1).refused = s.refused := rfl
@[simp] theorem State.flip_cols (s : State) : (s.flip.1).cols = s.cols := rfl
@[simp] theorem State.flip_ports (s : State) : (s.flip.1).ports = s.ports := rfl
@[simp] theorem State.flip_farBanks (s : State) : (s.flip.1).farBanks = s.farBanks := rfl
@[simp] theorem State.flip_links (s : State) : (s.flip.1).links = s.links := rfl
@[simp] theorem State.flip_asks (s : State) : (s.flip.1).asks = s.asks := rfl
@[simp] theorem State.flip_routed (s : State) : (s.flip.1).routed = s.routed := rfl
@[simp] theorem State.flip_routes (s : State) : (s.flip.1).routes = s.routes := rfl
@[simp] theorem State.flip_waking (s : State) : (s.flip.1).waking = s.waking := rfl
@[simp] theorem State.flip_teams (s : State) : (s.flip.1).teams = s.teams := rfl
@[simp] theorem State.flip_gangs (s : State) : (s.flip.1).gangs = s.gangs := rfl
@[simp] theorem State.flip_records (s : State) : (s.flip.1).records = s.records := rfl
@[simp] theorem State.flip_tasks (s : State) : (s.flip.1).tasks = s.tasks := rfl
@[simp] theorem State.flip_steals (s : State) : (s.flip.1).steals = s.steals := rfl
@[simp] theorem State.flip_qServed (s : State) : (s.flip.1).qServed = s.qServed := rfl
@[simp] theorem State.flip_sServed (s : State) : (s.flip.1).sServed = s.sServed := rfl
@[simp] theorem State.flip_memOps (s : State) : (s.flip.1).memOps = s.memOps := rfl
@[simp] theorem State.flip_copies (s : State) : (s.flip.1).copies = s.copies := rfl
@[simp] theorem State.flip_matOps (s : State) : (s.flip.1).matOps = s.matOps := rfl
@[simp] theorem State.flip_texOps (s : State) : (s.flip.1).texOps = s.texOps := rfl
@[simp] theorem State.flip_rays (s : State) : (s.flip.1).rays = s.rays := rfl
@[simp] theorem State.flip_rayOps (s : State) : (s.flip.1).rayOps = s.rayOps := rfl
@[simp] theorem State.flip_ncalls (s : State) : (s.flip.1).ncalls = s.ncalls := rfl
@[simp] theorem State.flip_regroups (s : State) : (s.flip.1).regroups = s.regroups := rfl
@[simp] theorem State.flip_rgOps (s : State) : (s.flip.1).rgOps = s.rgOps := rfl
@[simp] theorem State.flip_tokens (s : State) : (s.flip.1).tokens = s.tokens := rfl
@[simp] theorem State.flip_sends (s : State) : (s.flip.1).sends = s.sends := rfl
@[simp] theorem State.flip_abroad (s : State) : (s.flip.1).abroad = s.abroad := rfl
@[simp] theorem State.flip_landings (s : State) : (s.flip.1).landings = s.landings := rfl
@[simp] theorem State.flip_meetings (s : State) : (s.flip.1).meetings = s.meetings := rfl
@[simp] theorem State.flip_mbReqs (s : State) : (s.flip.1).mbReqs = s.mbReqs := rfl
@[simp] theorem State.flip_pairs (s : State) : (s.flip.1).pairs = s.pairs := rfl
@[simp] theorem State.flip_episodes (s : State) : (s.flip.1).episodes = s.episodes := rfl
@[simp] theorem State.flip_pmp (s : State) : (s.flip.1).pmp = s.pmp := rfl
@[simp] theorem State.flip_draws (s : State) : (s.flip.1).draws = s.draws := rfl
@[simp] theorem State.flip_pixels (s : State) : (s.flip.1).pixels = s.pixels := rfl
@[simp] theorem State.flip_sampleAt (s : State) : (s.flip.1).sampleAt = s.sampleAt := rfl
@[simp] theorem State.flip_iuPc (s : State) : (s.flip.1).iuPc = s.iuPc := rfl
@[simp] theorem State.flip_cur (s : State) : (s.flip.1).cur = s.cur := rfl
@[simp] theorem State.flip_plan (s : State) : (s.flip.1).plan = s.plan := rfl
@[simp] theorem State.flip_inputs (s : State) : (s.flip.1).inputs = s.inputs := rfl
@[simp] theorem State.flip_nextId (s : State) : (s.flip.1).nextId = s.nextId := rfl

end Sys2Proof.Machine
end

