-- ==== Sys2Proof/Laws/Tab.lean ====
section
/-!
SUPPORT. What the sorted tables guarantee: a read after a write gives the value written, a write leaves every other key
alone, and every operation keeps the canonical form.
-/

namespace Sys2Proof.Machine

variable {α : Type}

/-! ## Reads -/

theorem Tab.find?_ins (t : List (Nat × α)) (q r : Nat) (x : α) :
    Tab.find? (Tab.ins t q x) r = if r = q then some x else Tab.find? t r := by
  induction t with
  | nil => simp [Tab.ins, Tab.find?]
  | cons e t ih =>
    obtain ⟨k, v⟩ := e
    simp only [Tab.ins]
    split
    · simp [Tab.find?]
    · split
      · next h => subst h; by_cases hr : r = q <;> simp [Tab.find?, hr]
      · next h => by_cases hk : r = k
                  · subst hk; simp [Tab.find?, Ne.symm h]
                  · simp [Tab.find?, hk, ih]

theorem Tab.find?_del (t : List (Nat × α)) (q r : Nat) :
    Tab.find? (Tab.del t q) r = if r = q then none else Tab.find? t r := by
  induction t with
  | nil => simp [Tab.del, Tab.find?]
  | cons e t ih =>
    obtain ⟨k, v⟩ := e
    simp only [Tab.del]
    split
    · next hq =>
      subst hq
      by_cases hr : r = q
      · subst hr; simpa using ih
      · simp [Tab.find?, hr, ih]
    · next hq =>
      by_cases hr : r = k
      · subst hr; simp [Tab.find?, Ne.symm hq]
      · simp [Tab.find?, hr, ih]

/-! ## The canonical form -/

/-- Every key of a table in canonical form from lo is at least lo. -/
theorem Tab.find?_below [DecidableEq α] {d : α} {t : List (Nat × α)} {lo q : Nat} (h : Tab.wfFrom d lo t = true)
    (hq : q < lo) : Tab.find? t q = none := by
  induction t generalizing lo with
  | nil => rfl
  | cons e t ih =>
    obtain ⟨k, v⟩ := e
    simp only [Tab.wfFrom, Bool.and_eq_true, decide_eq_true_eq] at h
    have hk : q ≠ k := by omega
    simp only [Tab.find?, hk, if_false]
    exact ih h.2 (by omega)

theorem Tab.wfFrom_mono [DecidableEq α] {d : α} {t : List (Nat × α)} {lo lo' : Nat} (hl : lo' ≤ lo)
    (h : Tab.wfFrom d lo t = true) : Tab.wfFrom d lo' t = true := by
  cases t with
  | nil => rfl
  | cons e t =>
    obtain ⟨k, v⟩ := e
    simp only [Tab.wfFrom, Bool.and_eq_true, decide_eq_true_eq] at h ⊢
    exact ⟨⟨by omega, h.1.2⟩, h.2⟩

theorem Tab.wfFrom_ins [DecidableEq α] {d : α} {t : List (Nat × α)} {lo q : Nat} {x : α} (h : Tab.wfFrom d lo t = true)
    (hq : lo ≤ q) (hx : x ≠ d) : Tab.wfFrom d lo (Tab.ins t q x) = true := by
  induction t generalizing lo with
  | nil => simp [Tab.ins, Tab.wfFrom, hq, hx]
  | cons e t ih =>
    obtain ⟨k, v⟩ := e
    simp only [Tab.wfFrom, Bool.and_eq_true, decide_eq_true_eq] at h
    simp only [Tab.ins]
    split
    · next hlt =>
      simp only [Tab.wfFrom, Bool.and_eq_true, decide_eq_true_eq]
      exact ⟨⟨hq, hx⟩, ⟨by omega, h.1.2⟩, h.2⟩
    · split
      · next he => subst he; simp only [Tab.wfFrom, Bool.and_eq_true, decide_eq_true_eq]; exact ⟨⟨hq, hx⟩, h.2⟩
      · simp only [Tab.wfFrom, Bool.and_eq_true, decide_eq_true_eq]
        exact ⟨h.1, ih h.2 (by omega)⟩

theorem Tab.wfFrom_del [DecidableEq α] {d : α} {t : List (Nat × α)} {lo : Nat} (h : Tab.wfFrom d lo t = true) (q : Nat) :
    Tab.wfFrom d lo (Tab.del t q) = true := by
  induction t generalizing lo with
  | nil => rfl
  | cons e t ih =>
    obtain ⟨k, v⟩ := e
    simp only [Tab.wfFrom, Bool.and_eq_true, decide_eq_true_eq] at h
    simp only [Tab.del]
    split
    · exact Tab.wfFrom_mono (by omega) (ih h.2)
    · simp only [Tab.wfFrom, Bool.and_eq_true, decide_eq_true_eq]
      exact ⟨h.1, ih h.2⟩

theorem Tab.wf_put [DecidableEq α] {d : α} {t : List (Nat × α)} (h : Tab.wf d t = true) (q : Nat) (x : α) :
    Tab.wf d (Tab.put d t q x) = true := by
  unfold Tab.put
  split
  · exact Tab.wfFrom_del h q
  · exact Tab.wfFrom_ins h (Nat.zero_le q) ‹_›

theorem Tab.wf_putRange [DecidableEq α] {d : α} (xs : List α) : ∀ {t : List (Nat × α)}, Tab.wf d t = true → ∀ q,
    Tab.wf d (Tab.putRange d t q xs) = true := by
  induction xs with
  | nil => intro t h _; exact h
  | cons x xs ih => intro t h q; exact ih (Tab.wf_put h q x) (q + 1)

theorem Tab.wfFrom_filter [DecidableEq α] {d : α} {t : List (Nat × α)} {lo : Nat} (p : Nat × α → Bool)
    (h : Tab.wfFrom d lo t = true) : Tab.wfFrom d lo (t.filter p) = true := by
  induction t generalizing lo with
  | nil => rfl
  | cons e t ih =>
    obtain ⟨k, v⟩ := e
    simp only [Tab.wfFrom, Bool.and_eq_true, decide_eq_true_eq] at h
    simp only [List.filter_cons]
    split
    · simp only [Tab.wfFrom, Bool.and_eq_true, decide_eq_true_eq]; exact ⟨h.1, ih h.2⟩
    · exact Tab.wfFrom_mono (by omega) (ih h.2)

theorem Tab.wf_filter [DecidableEq α] {d : α} {t : List (Nat × α)} (p : Nat × α → Bool) (h : Tab.wf d t = true) :
    Tab.wf d (t.filter p) = true := Tab.wfFrom_filter p h

/-! ## Read after write -/

/-- A read gives the value of the last write to its key, and that of the table before for every other key. -/
theorem Tab.get_put [DecidableEq α] (d : α) (t : List (Nat × α)) (q r : Nat) (x : α) :
    Tab.get d (Tab.put d t q x) r = if r = q then x else Tab.get d t r := by
  unfold Tab.get Tab.put
  split
  · next hx => rw [Tab.find?_del]; split <;> simp [hx]
  · rw [Tab.find?_ins]; split <;> rfl

/-- Writing a run of values changes the keys of the run and no other. -/
theorem Tab.get_putRange [DecidableEq α] (d : α) (xs : List α) : ∀ (t : List (Nat × α)) (q r : Nat),
    Tab.get d (Tab.putRange d t q xs) r = if q ≤ r ∧ r < q + xs.length then xs.getD (r - q) d else Tab.get d t r := by
  induction xs with
  | nil => intro t q r; simp [Tab.putRange] <;> omega
  | cons x xs ih =>
    intro t q r
    simp only [Tab.putRange, ih (Tab.put d t q x) (q + 1) r, Tab.get_put, List.length_cons]
    by_cases hr : r = q
    · subst hr; simp <;> omega
    · by_cases hin : q + 1 ≤ r ∧ r < q + 1 + xs.length
      · have h2 : q ≤ r ∧ r < q + (xs.length + 1) := by omega
        have h3 : r - q = (r - (q + 1)) + 1 := by omega
        simp [hin, h2, h3]
      · have h2 : ¬(q ≤ r ∧ r < q + (xs.length + 1)) := by omega
        rw [if_neg hin, if_neg hr, if_neg h2]

/-- A canonical table is determined by what it reads as. -/
theorem Tab.ext_wfFrom [DecidableEq α] {d : α} : ∀ {t u : List (Nat × α)} {lo : Nat}, Tab.wfFrom d lo t = true →
    Tab.wfFrom d lo u = true → (∀ q, Tab.get d t q = Tab.get d u q) → t = u
  | [], [], _, _, _, _ => rfl
  | [], (k, v) :: u, lo, _, hu, h => by
    simp only [Tab.wfFrom, Bool.and_eq_true, decide_eq_true_eq] at hu
    have := h k
    simp [Tab.get, Tab.find?] at this
    exact absurd this.symm hu.1.2
  | (k, v) :: t, [], lo, ht, _, h => by
    simp only [Tab.wfFrom, Bool.and_eq_true, decide_eq_true_eq] at ht
    have := h k
    simp [Tab.get, Tab.find?] at this
    exact absurd this ht.1.2
  | (k, v) :: t, (k', v') :: u, lo, ht, hu, h => by
    simp only [Tab.wfFrom, Bool.and_eq_true, decide_eq_true_eq] at ht hu
    have hkk : k = k' := by
      rcases Nat.lt_trichotomy k k' with hlt | he | hgt
      · have := h k
        rw [show Tab.get d ((k', v') :: u) k = d by
          simp [Tab.get, Tab.find?, show k ≠ k' by omega, Tab.find?_below hu.2 (show k < k' + 1 by omega)]] at this
        simp [Tab.get, Tab.find?] at this
        exact absurd this ht.1.2
      · exact he
      · have := h k'
        rw [show Tab.get d ((k, v) :: t) k' = d by
          simp [Tab.get, Tab.find?, show k' ≠ k by omega, Tab.find?_below ht.2 (show k' < k + 1 by omega)]] at this
        simp [Tab.get, Tab.find?] at this
        exact absurd this.symm hu.1.2
    subst hkk
    have hv : v = v' := by simpa [Tab.get, Tab.find?] using h k
    subst hv
    congr 1
    refine Tab.ext_wfFrom ht.2 hu.2 fun q => ?_
    by_cases hq : q = k
    · subst hq
      simp [Tab.get, Tab.find?_below ht.2 (Nat.lt_succ_self q), Tab.find?_below hu.2 (Nat.lt_succ_self q)]
    · simpa [Tab.get, Tab.find?, hq] using h q

theorem Tab.ext_wf [DecidableEq α] {d : α} {t u : List (Nat × α)} (ht : Tab.wf d t = true) (hu : Tab.wf d u = true)
    (h : ∀ q, Tab.get d t q = Tab.get d u q) : t = u := Tab.ext_wfFrom ht hu h

/-! ## Numbers and bytes -/

@[simp] theorem bytesOfNat_length (n v : Nat) : (bytesOfNat n v).length = n := by
  induction n generalizing v with
  | zero => rfl
  | succ n ih => simp [bytesOfNat, ih]

theorem natOfBytes_bytesOfNat (n v : Nat) : natOfBytes (bytesOfNat n v) = v % 256 ^ n := by
  induction n generalizing v with
  | zero => simp [bytesOfNat, natOfBytes, Nat.mod_one]
  | succ n ih =>
    rw [bytesOfNat, natOfBytes, ih, BitVec.toNat_ofNat, show (256 : Nat) ^ (n + 1) = 256 * 256 ^ n from Nat.pow_succ',
      Nat.mod_mul]

@[simp] theorem Tab.getRange_length (d : α) (t : List (Nat × α)) (q n : Nat) : (Tab.getRange d t q n).length = n := by
  induction n generalizing q with
  | zero => rfl
  | succ n ih => simp [Tab.getRange, ih]

/-! ## The first element of a kind -/

theorem find?_modFirst {p : α → Bool} {f : α → α} (hf : ∀ a, p a = true → p (f a) = true) (l : List α) :
    (modFirst p f l).find? p = (l.find? p).map f := by
  induction l with
  | nil => rfl
  | cons a l ih =>
    by_cases h : p a = true
    · simp [modFirst, h, hf a h]
    · simp [modFirst, h, ih]

theorem find?_modFirst_other {p q : α → Bool} {f : α → α} (hq : ∀ a, p a = true → q a = false ∧ q (f a) = false)
    (l : List α) : (modFirst p f l).find? q = l.find? q := by
  induction l with
  | nil => rfl
  | cons a l ih =>
    by_cases h : p a = true
    · simp [modFirst, h, (hq a h).1, (hq a h).2]
    · simp [modFirst, h, List.find?_cons, ih]

end Sys2Proof.Machine
end

