-- ==== Sys2Proof/Laws/Ops.lean ====
section
/-!
SUPPORT. The shared operations, each said once: what finding, updating, issuing and retiring answer.
-/

namespace Sys2Proof.Machine

/-! ## Finding -/

theorem State.team?_modTeam {s : State} {u : Nat} {f : Team → Team} (hf : ∀ t, (f t).uid = t.uid) :
    (s.modTeam u f).team? u = (s.team? u).map f :=
  find?_modFirst (fun t h => by simpa [hf t] using h) s.teams

theorem State.team?_modTeam_other {s : State} {u w : Nat} {f : Team → Team} (hf : ∀ t, (f t).uid = t.uid) (h : w ≠ u) :
    (s.modTeam u f).team? w = s.team? w :=
  find?_modFirst_other (fun t ht => by
    have : t.uid = u := by simpa using ht
    constructor <;> simp [hf t, this, Ne.symm h]) s.teams

theorem Team.warp?_modWarp {t : Team} {n : Nat} {f : Warp → Warp} (hf : ∀ w, (f w).num = w.num ∨ (f w).num = n) :
    (t.modWarp n f).warp? n = (t.warp? n).map f :=
  find?_modFirst (fun w h => by
    have hn : w.num = n := by simpa using h
    rcases hf w with h1 | h1 <;> simp [h1, hn]) t.warps

theorem Team.warp?_modWarp_other {t : Team} {n m : Nat} {f : Warp → Warp} (hf : ∀ w, w.num = n → (f w).num = n)
    (h : m ≠ n) : (t.modWarp n f).warp? m = t.warp? m :=
  find?_modFirst_other (fun w hw => by
    have hn : w.num = n := by simpa using hw
    constructor <;> simp [hn, hf w hn, Ne.symm h]) t.warps

/-- What a view is a view of. -/
theorem State.viewOf?_some {s : State} {x : Sel} {v : View} (h : s.viewOf? x = some v) :
    s.team? x.team = some v.team ∧ v.team.warp? x.warp = some v.warp ∧ v.warp.splitOf? x.slice = some v.split := by
  simp only [State.viewOf?, Option.bind_eq_bind, Option.bind_eq_some_iff] at h
  obtain ⟨t, ht, w, hw, sp, hsp, he⟩ := h
  cases he
  exact ⟨ht, hw, hsp⟩

theorem State.team?_uid {s : State} {u : Nat} {t : Team} (h : s.team? u = some t) : t.uid = u := by
  simpa using List.find?_some h

theorem Team.warp?_num {t : Team} {n : Nat} {w : Warp} (h : t.warp? n = some w) : w.num = n := by
  simpa using List.find?_some h

theorem State.view_team {s : State} {v : View} (h : s.view? = some v) : s.team? v.team.uid = some v.team := by
  have h1 := (State.viewOf?_some h).1
  rw [State.team?_uid h1]
  exact h1

theorem State.view_warp {s : State} {v : View} (h : s.view? = some v) : v.team.warp? v.warp.num = some v.warp := by
  have h1 := (State.viewOf?_some h).2.1
  rw [Team.warp?_num h1]
  exact h1

/-! ## Issuing -/

theorem State.issue_ok {s s' : State} {v : View} {body : View → Except Trap State} (hv : s.view? = some v)
    (hb : body v = .ok s') : s.issue body = .next s' := by
  simp [State.issue, hv, hb]

theorem State.issue_trap {s : State} {v : View} {body : View → Except Trap State} {t : Trap} (hv : s.view? = some v)
    (hb : body v = .error t) : s.issue body = .next (s.takeFault v t v.pc) := by
  simp [State.issue, hv, hb]

/-- An instruction whose operands are legal does what its body says. -/
theorem State.run_ok {s s' : State} {v : View} {i : Instr} {body : View → Except Trap State} (hv : s.view? = some v)
    (ho : v.operandsOk i = true) (hb : body v = .ok s') : s.run i body = .next s' :=
  State.issue_ok hv (by simp [ho, hb])

theorem State.run_trap {s : State} {v : View} {i : Instr} {body : View → Except Trap State} {t : Trap}
    (hv : s.view? = some v) (ho : v.operandsOk i = true) (hb : body v = .error t) :
    s.run i body = .next (s.takeFault v t v.pc) :=
  State.issue_trap hv (by simp [ho, hb])

/-- An instruction that names a register it may not takes ILLREG with its word 0. -/
theorem State.run_illreg {s : State} {v : View} {i : Instr} {body : View → Except Trap State} (hv : s.view? = some v)
    (ho : v.operandsOk i = false) :
    s.run i body = .next (s.takeFault v ⟨fILLREG, Instr.word0 i, 0, 0⟩ v.pc) :=
  State.issue_trap hv (by simp [ho])

theorem State.runSync_ok {s s' : State} {v : View} {i : Instr} {body : View → Except Trap State} (hv : s.view? = some v)
    (ho : v.operandsOk i = true) (hb : body v = .ok s') : s.runSync i body = .next (s'.chunkAfter v) :=
  State.run_ok hv ho (by simp [hb, Except.map])

/-! ## Lane and uniform instructions -/

/-- The flags of a trap-free FCTL raise no trap. -/
theorem trapOf_quiet {fctl flags : Word} (h : fctlESCTRAP fctl = false ∧ fctlTRAPINV fctl = false ∧ fctlTRAPOVF fctl = false) :
    trapOf fctl flags = none := by
  simp [trapOf, h.1, h.2.1, h.2.2]

theorem trapOf_zero (fctl : Word) : trapOf fctl 0 = none := by
  simp [trapOf]

theorem State.laneOp_ok {s : State} {v : View} {i : Instr} {g : BitVec 3} {gn : BitVec 1} {len : Nat}
    {f : View → Nat → LaneOut} (hv : s.view? = some v) (ho : v.operandsOk i = true)
    (ht : trapOf v.team.fctl (outFlags ((v.part g gn).map fun l => (l, f v l))) = none) :
    s.laneOp i g gn len f =
      .next (s.retire v (v.warp.writeLanes ((v.part g gn).map fun l => (l, f v l)))
        (outFlags ((v.part g gn).map fun l => (l, f v l))) len) :=
  State.run_ok hv ho (by simp [State.commitLanes, ht])

theorem State.uniOp_ok {s : State} {v : View} {i : Instr} {q : BitVec 3} {n : BitVec 1} {len : Nat}
    {g : View → Except Trap UOut} {o : UOut} (hv : s.view? = some v) (ho : v.operandsOk i = true)
    (hq : v.qGuard q n = true) (hg : g v = .ok o) (ht : trapOf v.team.fctl o.flags = none) :
    s.uniOp i q n len g = .next (s.retire v (v.warp.writeUni v.split.mask o) o.flags len) :=
  State.run_ok hv ho (by simp [hq, hg, Except.bind, State.commitUni, ht])

theorem State.uniOp_skip {s : State} {v : View} {i : Instr} {q : BitVec 3} {n : BitVec 1} {len : Nat}
    {g : View → Except Trap UOut} (hv : s.view? = some v) (ho : v.operandsOk i = true) (hq : v.qGuard q n = false) :
    s.uniOp i q n len g = .next (s.skip v len) :=
  State.run_ok hv ho (by simp [hq])

end Sys2Proof.Machine
end

