-- ==== Sys2Proof/Laws/Retire.lean ====
section
/-!
SUPPORT. Retiring an instruction, said once: which fields of the state, the team, the warp and its slices it may change
(spec/03 R36, R37; spec/05 R86; spec/29 R405).
-/

namespace Sys2Proof.Machine

/-! ## Slices -/

theorem padNth_getD {α : Type} (f : α → α) (d : α) : ∀ (n k : Nat) (l : List α),
    (padNth d f n l).getD k d = if k = n then f (l.getD k d) else l.getD k d
  | 0, 0, [] => by simp [padNth]
  | 0, k + 1, [] => by simp [padNth]
  | n + 1, 0, [] => by simp [padNth]
  | n + 1, k + 1, [] => by simpa [padNth] using padNth_getD f d n k []
  | 0, 0, a :: l => by simp [padNth]
  | 0, k + 1, a :: l => by simp [padNth]
  | n + 1, 0, a :: l => by simp [padNth]
  | n + 1, k + 1, a :: l => by simpa [padNth] using padNth_getD f d n k l

/-- Slice k of a warp after a change of slice n. -/
theorem Warp.sl_modSl (w : Warp) (n k : Nat) (f : Slice → Slice) :
    (w.modSl n f).sl k = if k = n then f (w.sl k) else w.sl k := padNth_getD f {} n k w.slices

/-- A warp that differs from w in its slices alone. -/
def Warp.SameBut (w w' : Warp) : Prop := w' = { w with slices := w'.slices }

theorem Warp.foldl_modSl_same {α : Type} (l : List α) (g : α → Nat) (f : α → Slice → Slice) (w : Warp) :
    w.SameBut (l.foldl (fun w a => w.modSl (g a) (f a)) w) := by
  induction l generalizing w with
  | nil => rfl
  | cons a l ih =>
    have h1 := ih (w.modSl (g a) (f a))
    simp only [Warp.SameBut, List.foldl_cons] at h1 ⊢
    rw [h1]
    rfl

/-- A property of a slice that every change of a fold keeps. -/
theorem Warp.foldl_modSl_rel {α : Type} (R : Slice → Slice → Prop) (hr : ∀ x, R x x)
    (l : List α) (g : α → Nat) (f : α → Slice → Slice) (w : Warp) (k : Nat)
    (hf : ∀ a ∈ l, g a = k → ∀ w' : Warp, R (w.sl k) (w'.sl k) → R (w.sl k) (f a (w'.sl k))) :
    R (w.sl k) ((l.foldl (fun w a => w.modSl (g a) (f a)) w).sl k) := by
  suffices H : ∀ (l' : List α) (w' : Warp), (∀ a ∈ l', a ∈ l) → R (w.sl k) (w'.sl k) →
      R (w.sl k) ((l'.foldl (fun w a => w.modSl (g a) (f a)) w').sl k) from H l w (fun _ h => h) (hr _)
  intro l'
  induction l' with
  | nil => intro w' _ h; exact h
  | cons a l' ih =>
    intro w' hsub h
    refine ih (w'.modSl (g a) (f a)) (fun b hb => hsub b (List.mem_cons_of_mem a hb)) ?_
    rw [Warp.sl_modSl]
    split
    · next hk => exact hf a (hsub a List.mem_cons_self) hk.symm w' h
    · exact h

/-- Slice k of a warp after the same change in every slice of a mask. -/
theorem Warp.sl_modSls (w : Warp) (mask : BitVec 8) (f : Slice → Slice) (k : Nat) :
    (w.modSls mask f).sl k = if mask.getLsbD k then f (w.sl k) else w.sl k := by
  have key : ∀ (l : List Nat), l.Nodup → ∀ w : Warp,
      (l.foldl (fun w k => w.modSl k f) w).sl k = if k ∈ l then f (w.sl k) else w.sl k := by
    intro l
    induction l with
    | nil => intro _ w; simp
    | cons a l ih =>
      intro hn w
      rw [List.foldl_cons, ih (List.nodup_cons.mp hn).2, Warp.sl_modSl]
      by_cases hk : k = a
      · subst hk; simp [(List.nodup_cons.mp hn).1]
      · simp [hk]
  have hmem : (k ∈ slicesOf mask) = (mask.getLsbD k = true) := by
    simp only [slicesOf, List.mem_filter, List.mem_range, eq_iff_iff]
    exact ⟨fun h => h.2, fun h => ⟨BitVec.lt_of_getLsbD h, h⟩⟩
  unfold Warp.modSls
  rw [key (slicesOf mask) (List.Pairwise.filter _ List.nodup_range) w]
  simp only [hmem]

/-! ## The deferral stack moves only the active lanes and the stack -/

theorem followStack_frame (n : Nat) (sl : Slice) (pc : Addr) :
    (followStack n sl pc).1 = { sl with act := (followStack n sl pc).1.act, dstack := (followStack n sl pc).1.dstack } := by
  induction n generalizing sl pc with
  | zero => rfl
  | succ n ih =>
    unfold followStack
    split
    · rfl
    · split
      · split
        · rw [ih]
        · rw [ih]
      · rfl

/-- What placing a split may change in a slice: its active lanes and its deferral stack. -/
def Slice.Moved (a b : Slice) : Prop := b = { a with act := b.act, dstack := b.dstack }

theorem Slice.Moved.refl (a : Slice) : a.Moved a := rfl

theorem Slice.Moved.trans {a b c : Slice} (h1 : a.Moved b) (h2 : b.Moved c) : a.Moved c := by
  unfold Slice.Moved at *
  rw [h2, h1]

theorem Slice.settle_moved (sl : Slice) (pc : Addr) : sl.Moved (sl.settle pc).1 := followStack_frame _ sl pc

/-! ## Resolution moves only the splits, the records and the fuse groups -/

theorem Warp.resolve1_frame {w w' : Warp} (h : w.resolve1 = some w') :
    w' = { w with splits := w'.splits, recs := w'.recs } := by
  simp only [Warp.resolve1, Option.map_eq_some_iff] at h
  obtain ⟨x, _, rfl⟩ := h
  rfl

theorem Warp.resolveLoop_frame (n : Nat) (w : Warp) :
    Warp.resolveLoop n w = { w with splits := (Warp.resolveLoop n w).splits, recs := (Warp.resolveLoop n w).recs } := by
  induction n generalizing w with
  | zero => rfl
  | succ n ih =>
    unfold Warp.resolveLoop
    split
    · next w' h =>
      rw [ih w', Warp.resolve1_frame h]
    · rfl

theorem Warp.resolve_frame (w : Warp) :
    w.resolve = { w with splits := w.resolve.splits, recs := w.resolve.recs, groups := w.resolve.groups } := by
  unfold Warp.resolve
  rw [Warp.resolveLoop_frame]

/-- Settling reads the lanes and the stack alone. -/
theorem followStack_congr (n : Nat) (a b : Slice) (pc : Addr) (ha : b.act = a.act) (hl : b.live = a.live)
    (hd : b.dstack = a.dstack) :
    (followStack n b pc).2 = (followStack n a pc).2 ∧ (followStack n b pc).1.act = (followStack n a pc).1.act ∧
      (followStack n b pc).1.dstack = (followStack n a pc).1.dstack := by
  induction n generalizing a b pc with
  | zero => exact ⟨rfl, ha, hd⟩
  | succ n ih =>
    unfold followStack
    rw [hd, ha, hl]
    split
    · next h => exact ⟨rfl, ha, hd⟩
    · split
      · split
        · exact ih _ _ _ rfl rfl rfl
        · exact ih _ _ _ rfl rfl rfl
      · exact ⟨rfl, ha, hd⟩

theorem Slice.settle_congr {a b : Slice} (pc : Addr) (ha : b.act = a.act) (hl : b.live = a.live) (hd : b.dstack = a.dstack) :
    (b.settle pc).2 = (a.settle pc).2 ∧ (b.settle pc).1.act = (a.settle pc).1.act ∧
      (b.settle pc).1.dstack = (a.settle pc).1.dstack := by
  unfold Slice.settle
  rw [hd]
  exact followStack_congr _ a b pc ha hl hd

/-- A slice that has nothing deferred stays where it is put. -/
theorem Slice.settle_nil {sl : Slice} (h : sl.dstack = []) (pc : Addr) : sl.settle pc = (sl, pc) := by
  simp [Slice.settle, h, followStack]

/-! ## Which split holds a slice -/

/-- Slices and address of every split, in order. -/
def Warp.stands (w : Warp) : List (BitVec 8 × Addr) := w.splits.map fun sp => (sp.mask, sp.pc)

theorem Warp.splitOf?_stands (w : Warp) (k : Nat) :
    (w.splitOf? k).map (·.pc) = (w.stands.find? (·.1.getLsbD k)).map (·.2) := by
  simp only [Warp.splitOf?, Warp.stands, List.find?_map, Option.map_map]
  rfl

theorem modFirst_map {α β : Type} (p : α → Bool) (f : α → α) (g : α → β) (hg : ∀ a, g (f a) = g a) (l : List α) :
    (modFirst p f l).map g = l.map g := by
  induction l with
  | nil => rfl
  | cons a l ih => simp only [modFirst]; split <;> simp [hg, ih]

theorem Warp.resolve1_stands {w w' : Warp} (h : w.resolve1 = some w') : w'.stands = w.stands := by
  simp only [Warp.resolve1, Option.map_eq_some_iff] at h
  obtain ⟨x, _, rfl⟩ := h
  exact modFirst_map _ (fun sp : Split => { sp with parent := x.2.outer.getD 0 }) (fun sp => (sp.mask, sp.pc)) (fun _ => rfl) _

theorem Warp.resolveLoop_stands (n : Nat) (w : Warp) : (Warp.resolveLoop n w).stands = w.stands := by
  induction n generalizing w with
  | zero => rfl
  | succ n ih =>
    unfold Warp.resolveLoop
    split
    · next w' h => rw [ih w', Warp.resolve1_stands h]
    · rfl

theorem Warp.resolve_stands (w : Warp) : w.resolve.stands = w.stands := by
  unfold Warp.resolve
  rw [Warp.resolveLoop_stands]
  rfl

theorem mem_distinct {α : Type} [DecidableEq α] (l : List α) (a : α) : a ∈ distinct l ↔ a ∈ l := by
  induction l with
  | nil => simp [distinct]
  | cons b l ih =>
    simp only [distinct, List.mem_cons, List.mem_filter, ih, decide_eq_true_eq]
    by_cases h : a = b <;> simp [h]

theorem slicesOf_lt {m : BitVec 8} {k : Nat} (h : k ∈ slicesOf m) : k < 8 ∧ m.getLsbD k = true := by
  simpa [slicesOf] using h

theorem getLsbD_one_hot (j k : Nat) (hk : k < 8) : (BitVec.ofNat 8 (2 ^ j)).getLsbD k = decide (k = j) := by
  rw [BitVec.getLsbD_ofNat, Nat.testBit_two_pow]
  by_cases h : k = j
  · simp [h, h ▸ hk]
  · simp [h, Ne.symm h]

theorem getLsbD_maskOf (l : List Nat) (k : Nat) (hk : k < 8) : (maskOf l).getLsbD k = decide (k ∈ l) := by
  have H : ∀ (l : List Nat) (m : BitVec 8),
      (l.foldl (fun m k => m ||| BitVec.ofNat 8 (2 ^ k)) m).getLsbD k = (m.getLsbD k || decide (k ∈ l)) := by
    intro l
    induction l with
    | nil => intro m; simp
    | cons a l ih =>
      intro m
      rw [List.foldl_cons, ih, BitVec.getLsbD_or, getLsbD_one_hot a k hk]
      simp [Bool.or_assoc]
  simpa [maskOf] using H l 0

/-! ## Placing -/

/-- What placing changes of the warp: slices, splits, records, identifiers and fuse groups. -/
theorem Warp.place_frame (w : Warp) (clock : Nat) (sp : Split) (next : Nat → Addr) :
    let p := w.place clock sp next
    p = { w with slices := p.slices, splits := p.splits, recs := p.recs, idCtr := p.idCtr, groups := p.groups } := by
  intro p
  have h := Warp.foldl_modSl_same
    (((slicesOf sp.mask).filter fun k => (w.sl k).live != 0).map fun k => (k, (w.sl k).settle (next k)))
    (fun m => m.1) (fun m _ => m.2.1) w
  simp only [p, Warp.place]
  rw [Warp.resolve_frame]
  rw [Warp.SameBut] at h
  rw [h]

/-- In each slice placing changes the active lanes and the deferral stack alone. -/
theorem Warp.place_slice (w : Warp) (clock : Nat) (sp : Split) (next : Nat → Addr) (k : Nat) :
    (w.sl k).Moved ((w.place clock sp next).sl k) := by
  have h := Warp.foldl_modSl_rel Slice.Moved Slice.Moved.refl
    (((slicesOf sp.mask).filter fun k => (w.sl k).live != 0).map fun k => (k, (w.sl k).settle (next k)))
    (fun m => m.1) (fun m _ => m.2.1) w k (by
      intro a ha hk w' _
      simp only [List.mem_map] at ha
      obtain ⟨j, _, rfl⟩ := ha
      subst hk
      exact Slice.settle_moved _ _)
  simp only [Warp.place]
  rw [Warp.resolve_frame]
  exact h

/-- A live slice of the split that is placed acts on its stack, and every other slice stays as it is. -/
theorem Warp.place_sl (w : Warp) (clock : Nat) (sp : Split) (next : Nat → Addr) (k : Nat) :
    (w.place clock sp next).sl k =
      if sp.mask.getLsbD k = true ∧ (w.sl k).live ≠ 0 then ((w.sl k).settle (next k)).1 else w.sl k := by
  have key : ∀ (ks : List Nat), ks.Nodup → ∀ u : Warp,
      ((ks.map fun k => (k, (w.sl k).settle (next k))).foldl (fun u m => u.modSl m.1 fun _ => m.2.1) u).sl k =
        if k ∈ ks then ((w.sl k).settle (next k)).1 else u.sl k := by
    intro ks
    induction ks with
    | nil => intro _ u; simp
    | cons a l ih =>
      intro hn u
      rw [List.map_cons, List.foldl_cons, ih (List.nodup_cons.mp hn).2, Warp.sl_modSl]
      by_cases hk : k = a
      · subst hk; simp
      · simp [hk]
  simp only [Warp.place]
  rw [Warp.resolve_frame]
  refine (key _ ?_ w).trans ?_
  · exact (List.nodup_range.filter _).filter _
  · congr 1
    simp only [List.mem_filter, slicesOf, List.mem_range, bne_iff_ne, ne_eq, eq_iff_iff]
    exact ⟨fun h => ⟨h.1.2, h.2⟩, fun h => ⟨⟨BitVec.lt_of_getLsbD h.1, h.1⟩, h.2⟩⟩

/-- A live slice of the split that is placed stands where its stack lets it. -/
theorem Warp.place_pc (w : Warp) (clock : Nat) (sp : Split) (next : Nat → Addr) (k : Nat)
    (hk : sp.mask.getLsbD k = true) (hl : (w.sl k).live ≠ 0) :
    ((w.place clock sp next).splitOf? k).map (·.pc) = some ((w.sl k).settle (next k)).2 := by
  have hk8 : k < 8 := BitVec.lt_of_getLsbD hk
  rw [Warp.splitOf?_stands]
  simp only [Warp.place]
  rw [Warp.resolve_stands]
  simp only [Warp.stands, List.map_append, List.find?_append]
  have h1 : (List.map (fun sp : Split => (sp.mask, sp.pc))
      (List.filter (fun x => x.mask &&& sp.mask == 0) w.splits)).find? (·.1.getLsbD k) = none := by
    rw [List.find?_eq_none]
    intro x hx
    simp only [List.mem_map, List.mem_filter, beq_iff_eq] at hx
    obtain ⟨s', ⟨_, h0⟩, rfl⟩ := hx
    have := congrArg (fun m : BitVec 8 => m.getLsbD k) h0
    simpa [hk] using this
  have hspl : ∀ (u : Warp) (l : List (Nat × Slice × Addr)),
      (l.foldl (fun u m => u.modSl m.1 fun _ => m.2.1) u).splits = u.splits := by
    intro u l
    have := Warp.foldl_modSl_same l (fun m => m.1) (fun m _ => m.2.1) u
    rw [Warp.SameBut] at this
    rw [this]
  rw [hspl, h1, Option.none_or]
  generalize hks : (slicesOf sp.mask).filter (fun k => (w.sl k).live != 0) = ks
  have hmem : k ∈ ks := by
    rw [← hks]
    simpa [List.mem_filter, slicesOf, hk8, hk] using hl
  have hlt : ∀ j ∈ ks, j < 8 := by
    intro j hj
    rw [← hks] at hj
    exact (slicesOf_lt (List.mem_filter.mp hj).1).1
  generalize hmv : ks.map (fun k => (k, (w.sl k).settle (next k))) = moved
  have hbit : ∀ a : Addr × Addr, (maskOf ((moved.filter fun m => (next m.1, m.2.2) == a).map Prod.fst)).getLsbD k =
      decide ((next k, ((w.sl k).settle (next k)).2) = a) := by
    intro a
    rw [getLsbD_maskOf _ _ hk8]
    rw [decide_eq_decide]
    subst hmv
    simp only [List.mem_map, List.mem_filter, beq_iff_eq]
    constructor
    · rintro ⟨m, ⟨⟨j, _, rfl⟩, he⟩, rfl⟩
      exact he
    · intro he
      exact ⟨_, ⟨⟨k, hmem, rfl⟩, he⟩, rfl⟩
  rw [List.map_map]
  generalize hp : distinct (moved.map fun m => (next m.1, m.2.2)) = places
  have hin : (next k, ((w.sl k).settle (next k)).2) ∈ places := by
    rw [← hp, mem_distinct, ← hmv]
    simp only [List.mem_map]
    exact ⟨_, ⟨k, hmem, rfl⟩, rfl⟩
  generalize hq : List.find? _ _ = r
  cases r with
  | none =>
    rw [List.find?_eq_none] at hq
    obtain ⟨i, hi, he⟩ := List.getElem_of_mem hin
    have hz : (places[i], i) ∈ places.zip (List.range places.length) := by
      rw [List.mem_iff_getElem]
      exact ⟨i, by simpa using hi, by simp⟩
    have := hq _ (List.mem_map.mpr ⟨_, hz, rfl⟩)
    simp only [Function.comp, hbit, he] at this
    simp at this
  | some x =>
    have hx := List.find?_some hq
    have hm := List.mem_of_find?_eq_some hq
    simp only [List.mem_map] at hm
    obtain ⟨⟨a, i⟩, _, rfl⟩ := hm
    simp only [Function.comp, hbit, decide_eq_true_eq] at hx
    simp [Function.comp, ← hx]

/-! ## What placing leaves of the other splits, the records and the fuse groups -/

/-- Split b is split a, but that a complete record of warp w may have taken it to its outer identifier. -/
def Split.Resolved (w : Warp) (a b : Split) : Prop :=
  b = { a with parent := b.parent } ∧ (b.parent = a.parent ∨ ∃ r ∈ w.recs, r.id = a.parent ∧ r.mask &&& w.liveSlices = a.mask)

/-- What resolution makes of warp w: x, whose splits are those of w one by one, resolved where their masks differ. -/
structure Warp.Resolution (w x : Warp) : Prop where
  splits : List.Forall₂ (fun a b => b = { a with parent := b.parent }) w.splits x.splits
  apart  : (w.splits.map (·.mask)).Nodup → List.Forall₂ (Split.Resolved w) w.splits x.splits
  recs   : ∀ r ∈ x.recs, r ∈ w.recs
  kept   : ∀ r ∈ w.recs, r ∈ x.recs ∨ ∃ q ∈ w.recs, q.id = r.id ∧ ∃ a ∈ w.splits, a.mask = q.mask &&& w.liveSlices

theorem Warp.Resolution.refl (w : Warp) : w.Resolution w :=
  ⟨List.forall₂_same.mpr fun _ _ => rfl, fun _ => List.forall₂_same.mpr fun _ _ => ⟨rfl, .inl rfl⟩, fun _ h => h,
    fun _ h => .inl h⟩

theorem forall₂_modFirst {α : Type} {R : α → α → Prop} (p : α → Bool) (f : α → α) (l : List α) (hr : ∀ a, R a a)
    (hf : ∀ a ∈ l, p a = true → R a (f a)) : List.Forall₂ R l (modFirst p f l) := by
  induction l with
  | nil => exact .nil
  | cons a l ih =>
    simp only [modFirst]
    split
    · next h => exact .cons (hf a List.mem_cons_self h) (List.forall₂_same.mpr fun _ _ => hr _)
    · exact .cons (hr a) (ih fun b hb => hf b (List.mem_cons_of_mem a hb))

/-- In a list whose keys differ, an element is the one of its key. -/
theorem eq_of_nodup_map {α β : Type} {g : α → β} {l : List α} (h : (l.map g).Nodup) {a b : α} (ha : a ∈ l) (hb : b ∈ l)
    (he : g a = g b) : a = b := List.inj_on_of_nodup_map h ha hb he

theorem Warp.resolve1_resolution {w x : Warp} (h : w.resolve1 = some x) : w.Resolution x := by
  simp only [Warp.resolve1, Option.map_eq_some_iff] at h
  obtain ⟨⟨sp, r⟩, hit, rfl⟩ := h
  obtain ⟨sp', hsp, hr⟩ := List.exists_of_findSome?_eq_some hit
  split at hr
  · cases hr
  · simp only [Option.map_eq_some_iff, Prod.mk.injEq] at hr
    obtain ⟨r', hr', rfl, rfl⟩ := hr
    have hmem := List.mem_of_find?_eq_some hr'
    have hprop := List.find?_some hr'
    simp only [Bool.and_eq_true, beq_iff_eq] at hprop
    refine ⟨forall₂_modFirst _ _ _ (fun _ => rfl) fun _ _ _ => rfl, fun hn => ?_, fun q hq => (List.mem_filter.mp hq).1, fun q hq => ?_⟩
    · refine forall₂_modFirst _ _ _ (fun _ => ⟨rfl, .inl rfl⟩) fun a ha hm => ⟨rfl, .inr ⟨r', hmem, ?_, ?_⟩⟩
      · rw [hprop.1, eq_of_nodup_map hn ha hsp (by simpa using hm)]
      · rw [hprop.2, eq_of_nodup_map hn ha hsp (by simpa using hm)]
    · by_cases hid : q.id = r'.id
      · exact .inr ⟨r', hmem, hid.symm, sp', hsp, hprop.2.symm⟩
      · exact .inl (List.mem_filter.mpr ⟨hq, by simpa using hid⟩)

theorem Warp.resolve1_slices {w x : Warp} (h : w.resolve1 = some x) : x.slices = w.slices := by
  rw [Warp.resolve1_frame h]

theorem Warp.liveSlices_slices {w x : Warp} (h : x.slices = w.slices) : x.liveSlices = w.liveSlices := by
  simp only [Warp.liveSlices, Warp.sl, h]

theorem masks_forall₂ {l m : List Split} (h : List.Forall₂ (fun a b => b = { a with parent := b.parent }) l m) :
    m.map (·.mask) = l.map (·.mask) := by
  induction h with
  | nil => rfl
  | cons h _ ih => simp only [List.map_cons, ih]; rw [h]

theorem forall₂_trans {α : Type} {R S T : α → α → Prop} (h : ∀ a b c, R a b → S b c → T a c) :
    ∀ {l m n : List α}, List.Forall₂ R l m → List.Forall₂ S m n → List.Forall₂ T l n
  | _, _, _, .nil, .nil => .nil
  | _, _, _, .cons h1 t1, .cons h2 t2 => .cons (h _ _ _ h1 h2) (forall₂_trans h t1 t2)

theorem Warp.Resolution.trans {w x y : Warp} (h1 : w.Resolution x) (hs : x.slices = w.slices) (h2 : x.Resolution y) :
    w.Resolution y := by
  have hl := Warp.liveSlices_slices hs
  have hm := masks_forall₂ h1.splits
  refine ⟨forall₂_trans (fun a b c hb hc => by rw [hc, hb]) h1.splits h2.splits, fun hn => ?_, fun r hr => h1.recs r (h2.recs r hr),
    fun r hr => ?_⟩
  · refine forall₂_trans (fun a b c hb hc => ?_) (h1.apart hn) (h2.apart (by rw [hm]; exact hn))
    refine ⟨by rw [hc.1, hb.1], ?_⟩
    rcases hc.2 with hc2 | ⟨r, hr, hid, hmask⟩
    · rw [hc2]; exact hb.2
    · rcases hb.2 with hb2 | hb2
      · exact .inr ⟨r, h1.recs r hr, hid.trans hb2, by rw [← hl, hmask, hb.1]⟩
      · exact .inr hb2
  · rcases h1.kept r hr with hk | hk
    · rcases h2.kept r hk with hk | ⟨q, hq, hid, a, ha, hmask⟩
      · exact .inl hk
      · have ham : a.mask ∈ w.splits.map (·.mask) := hm ▸ List.mem_map_of_mem ha
        obtain ⟨a', ha', he⟩ := List.mem_map.mp ham
        exact .inr ⟨q, h1.recs q hq, hid, a', ha', by rw [he, hmask, hl]⟩
    · exact .inr hk

theorem Warp.resolveLoop_resolution (n : Nat) (w : Warp) : w.Resolution (Warp.resolveLoop n w) := by
  induction n generalizing w with
  | zero => exact .refl w
  | succ n ih =>
    unfold Warp.resolveLoop
    split
    · next x h => exact (Warp.resolve1_resolution h).trans (Warp.resolve1_slices h) (ih x)
    · exact .refl w

/-! ## Placing, said once -/

theorem nodup_distinct {α : Type} [DecidableEq α] (l : List α) : (distinct l).Nodup := by
  induction l with
  | nil => exact .nil
  | cons a l ih => exact List.nodup_cons.mpr ⟨fun h => by simpa using (List.mem_filter.mp h).2, ih.filter _⟩

theorem newId_bounds (w : Warp) : 1 ≤ w.newId ∧ w.newId ≤ 255 := by
  unfold Warp.newId
  generalize hf : List.find? _ _ = r
  cases r with
  | none => simp
  | some n =>
    obtain ⟨i, _, rfl⟩ := List.mem_map.mp (List.mem_of_find?_eq_some hf)
    simp only [Option.getD_some]
    omega

/-- A division: two live slices of the split that go to different addresses. -/
theorem Warp.divides_of_distinct {w : Warp} {sp : Split} {next : Nat → Addr}
    (h : 1 < (distinct (((slicesOf sp.mask).filter fun k => (w.sl k).live != 0).map next)).length) : w.Divides sp next := by
  obtain ⟨a, b, l, hl⟩ : ∃ a b l, distinct (((slicesOf sp.mask).filter fun k => (w.sl k).live != 0).map next) = a :: b :: l := by
    match hd : distinct (((slicesOf sp.mask).filter fun k => (w.sl k).live != 0).map next), h with
    | a :: b :: l, _ => exact ⟨a, b, l, rfl⟩
  have hne : a ≠ b := by
    have := hl ▸ nodup_distinct (((slicesOf sp.mask).filter fun k => (w.sl k).live != 0).map next)
    exact fun h => (List.nodup_cons.mp this).1 (h ▸ List.mem_cons_self)
  have hin : ∀ c ∈ [a, b], ∃ k, sp.mask.getLsbD k = true ∧ (w.sl k).live ≠ 0 ∧ next k = c := by
    intro c hc
    have : c ∈ distinct (((slicesOf sp.mask).filter fun k => (w.sl k).live != 0).map next) := by
      rw [hl]; simp at hc ⊢; rcases hc with h | h <;> simp [h]
    obtain ⟨k, hk, rfl⟩ := List.mem_map.mp ((mem_distinct _ _).mp this)
    obtain ⟨h1, h2⟩ := List.mem_filter.mp hk
    exact ⟨k, (slicesOf_lt h1).2, by simpa using h2, rfl⟩
  obtain ⟨j, hj, hjl, rfl⟩ := hin a (by simp)
  obtain ⟨k, hk, hkl, rfl⟩ := hin b (by simp)
  exact ⟨j, k, hj, hk, hjl, hkl, hne⟩

theorem Warp.liveSlices_moved {w u : Warp} (h : ∀ k, (u.sl k).live = (w.sl k).live) : u.liveSlices = w.liveSlices := by
  simp only [Warp.liveSlices, h]

/-- Slice j of the list has place f j: the masks of the places are nonempty, lie within the list and have no two equal. -/
theorem masks_of_places {α : Type} [DecidableEq α] [BEq α] [LawfulBEq α] (js : List Nat) (hj : ∀ j ∈ js, j < 8) (f : Nat → α) :
    ((distinct (js.map f)).map fun a => maskOf (js.filter fun j => f j == a)).Nodup ∧
    ∀ a ∈ distinct (js.map f), maskOf (js.filter fun j => f j == a) ≠ 0 := by
  have hne : ∀ a ∈ distinct (js.map f), ∃ j ∈ js, f j = a := fun a ha => by
    simpa using (mem_distinct _ _).mp ha
  have hbit : ∀ a, ∀ j ∈ js, (maskOf (js.filter fun j => f j == a)).getLsbD j = decide (f j = a) := by
    intro a j hjm
    rw [getLsbD_maskOf _ _ (hj j hjm)]
    simp [hjm]
  refine ⟨List.Nodup.map_on (fun a ha b hb he => ?_) (nodup_distinct _), fun a ha h0 => ?_⟩
  · obtain ⟨j, hjm, rfl⟩ := hne a ha
    have := hbit b j hjm
    rw [← he, hbit _ j hjm] at this
    simpa using this
  · obtain ⟨j, hjm, rfl⟩ := hne a ha
    have := hbit (f j) j hjm
    rw [h0] at this
    simp at this

theorem and_eq_zero_of_within {a b m : BitVec 8} (h : a &&& m = 0) (hb : b &&& m = b) : a &&& b = 0 := by
  rw [← hb, BitVec.and_comm b m, ← BitVec.and_assoc, h]; simp

theorem maskOf_within {js : List Nat} {m : BitVec 8} (h : ∀ j ∈ js, m.getLsbD j = true) : maskOf js &&& m = maskOf js := by
  ext k hk
  simp only [← BitVec.getLsbD_eq_getElem, BitVec.getLsbD_and, getLsbD_maskOf _ _ hk]
  by_cases hm : k ∈ js
  · simp [hm, h k hm]
  · simp [hm]

theorem forall₂_mem {α : Type} {R : α → α → Prop} {l m : List α} (h : List.Forall₂ R l m) {a : α} (ha : a ∈ l) :
    ∃ b ∈ m, R a b := by
  induction h with
  | nil => cases ha
  | cons h _ ih =>
    rcases List.mem_cons.mp ha with rfl | ha
    · exact ⟨_, List.mem_cons_self, h⟩
    · obtain ⟨b, hb, hr⟩ := ih ha
      exact ⟨b, List.mem_cons_of_mem _ hb, hr⟩

theorem forall₂_mem_right {α : Type} {R : α → α → Prop} {l m : List α} (h : List.Forall₂ R l m) {b : α} (hb : b ∈ m) :
    ∃ a ∈ l, R a b := forall₂_mem (R := fun b a => R a b) h.flip hb

/-- What placing a split leaves of the other splits, the records and the fuse groups. -/
theorem Warp.place_placed (w : Warp) (clock : Nat) (sp : Split) (next : Nat → Addr) :
    w.Placed (w.place clock sp next) sp next := by
  generalize hks : (slicesOf sp.mask).filter (fun k => (w.sl k).live != 0) = ks
  have hin : ∀ k ∈ ks, sp.mask.getLsbD k = true := by
    intro k hk; rw [← hks] at hk; exact (slicesOf_lt (List.mem_filter.mp hk).1).2
  have hlt : ∀ k ∈ ks, k < 8 := fun k hk => BitVec.lt_of_getLsbD (hin k hk)
  let place := fun k => (next k, ((w.sl k).settle (next k)).2)
  let u := (ks.map fun k => (k, (w.sl k).settle (next k))).foldl (fun w m => w.modSl m.1 fun _ => m.2.1) w
  have hu : w.SameBut u := Warp.foldl_modSl_same _ (fun m : Nat × Slice × Addr => m.1) (fun m _ => m.2.1) w
  have hul : u.liveSlices = w.liveSlices := Warp.liveSlices_moved fun k => by
    have := Warp.foldl_modSl_rel (fun a b : Slice => b.live = a.live) (fun _ => rfl)
      (ks.map fun k => (k, (w.sl k).settle (next k))) (fun m : Nat × Slice × Addr => m.1) (fun m _ => m.2.1) w k (by
        intro a ha hk w' _
        simp only [List.mem_map] at ha
        obtain ⟨j, _, rfl⟩ := ha
        subst hk
        rw [Slice.settle_moved (w.sl j) (next j)])
    exact this
  generalize hdv : decide (1 < (distinct (ks.map next)).length) = dv
  have hdiv : dv = true → w.Divides sp next := by
    intro h; rw [← hdv] at h; subst hks; exact Warp.divides_of_distinct (by simpa using h)
  generalize hnews : ((distinct (ks.map place)).zip (List.range (distinct (ks.map place)).length)).map (fun (a, i) =>
    { mask := maskOf (ks.filter fun k => place k == a), pc := a.2, parent := if dv then u.newId else sp.parent
      lastIssue := if (distinct (ks.map place)).length = 1 then sp.lastIssue else clock
      deferred := if i = 0 then sp.deferred else sp.deferred.filter (·.all) : Split }) = news
  have hmasks : news.map (·.mask) = (distinct (ks.map place)).map fun a => maskOf (ks.filter fun k => place k == a) := by
    rw [← hnews, List.map_map]
    conv_rhs => rw [← List.map_fst_zip (l₁ := distinct (ks.map place)) (l₂ := List.range (distinct (ks.map place)).length) (by simp)]
    rw [List.map_map]
    rfl
  have hwithin : ∀ n ∈ news, n.mask &&& sp.mask = n.mask := by
    intro n hn
    rw [← hnews] at hn
    obtain ⟨a, _, rfl⟩ := List.mem_map.mp hn
    exact maskOf_within fun j hj => hin j (List.mem_filter.mp hj).1
  have hmoved : ∀ a : Addr × Addr, ((ks.map fun k => (k, (w.sl k).settle (next k))).filter fun m => (next m.1, m.2.2) == a).map Prod.fst =
      ks.filter fun k => place k == a := by
    intro a
    rw [List.filter_map, List.map_map]
    exact List.map_id _
  let mid : Warp := { u with
    splits := u.splits.filter (·.mask &&& sp.mask == 0) ++ news
    recs := if dv then u.recs ++ [⟨u.newId, maskOf ks, some sp.parent⟩] else u.recs
    idCtr := if dv then u.newId % 255 + 1 else u.idCtr }
  have hx : w.place clock sp next = mid.resolve := by
    subst hks hdv hnews
    simp only [Warp.place, hmoved, List.map_map, gt_iff_lt, decide_eq_true_eq, mid]
    rfl
  have hml : mid.liveSlices = w.liveSlices := hul
  rw [hx]
  unfold Warp.resolve
  rw [hml]
  dsimp only
  generalize hpre : ({ mid with
    recs := mid.recs.filter fun r => r.id == 0 || r.mask &&& w.liveSlices != 0
    groups := (mid.groups.map fun g => { g with mask := g.mask &&& w.liveSlices }).filter (·.mask != 0) } : Warp) = pre
  have hpl : pre.liveSlices = w.liveSlices := by rw [← hpre]; exact hul
  have husplits : u.splits = w.splits := by rw [hu]
  have hurecs : u.recs = w.recs := by rw [hu]
  have hugroups : u.groups = w.groups := by rw [hu]
  have huid : u.idCtr = w.idCtr := by rw [hu]
  have hspl : pre.splits = w.splits.filter (·.mask &&& sp.mask == 0) ++ news := by rw [← hpre, ← husplits]
  have hrecs : ∀ r, r ∈ pre.recs ↔ (r ∈ w.recs ∨ (dv = true ∧ r = ⟨u.newId, maskOf ks, some sp.parent⟩)) ∧
      (r.id = 0 ∨ r.mask &&& w.liveSlices ≠ 0) := by
    intro r
    rw [← hpre, List.mem_filter]
    simp only [mid, Bool.or_eq_true, beq_iff_eq, bne_iff_ne, ne_eq]
    refine and_congr ?_ Iff.rfl
    split <;> simp_all
  have hgr : pre.groups = (w.groups.map fun g => { g with mask := g.mask &&& w.liveSlices }).filter (·.mask != 0) := by
    rw [← hpre, ← hugroups]
  have hid : dv = false → pre.idCtr = w.idCtr := by
    intro h; rw [← hpre]; simp only [mid, h, Bool.false_eq_true, if_false]; exact huid
  generalize List.length _ = fuel
  have hR := Warp.resolveLoop_resolution fuel pre
  have hF := Warp.resolveLoop_frame fuel pre
  generalize Warp.resolveLoop fuel pre = x at hR hF
  have hnodup : (w.splits.map (·.mask)).Nodup → (pre.splits.map (·.mask)).Nodup := by
    intro hn
    rw [hspl, List.map_append, hmasks]
    refine List.Nodup.append ((hn.sublist ((List.filter_sublist).map _))) (masks_of_places ks hlt place).1 fun m hm hm' => ?_
    obtain ⟨a, ha, rfl⟩ := List.mem_map.mp hm
    obtain ⟨p, hp, he⟩ := List.mem_map.mp hm'
    have h0 : a.mask &&& sp.mask = 0 := by simpa using (List.mem_filter.mp ha).2
    have hw : a.mask &&& sp.mask = a.mask := by
      rw [← he]; exact maskOf_within fun j hj => hin j (List.mem_filter.mp hj).1
    exact (masks_of_places ks hlt place).2 p hp (by rw [he, ← hw, h0])
  refine ⟨fun a ha h0 => ?_, fun b hb => ?_, ?_, fun r hr => ?_, fun r hr => ?_, fun h => ?_⟩
  · have hap : a ∈ pre.splits := by rw [hspl]; exact List.mem_append_left _ (List.mem_filter.mpr ⟨ha, by simpa using h0⟩)
    by_cases hn : (w.splits.map (·.mask)).Nodup
    · obtain ⟨b, hb, hab⟩ := forall₂_mem (hR.apart (hnodup hn)) hap
      refine ⟨b, hb, hab.1, fun _ hz => hab.2.imp_right ?_⟩
      rintro ⟨r, hr, hid, hm⟩
      rw [hpl] at hm
      rcases ((hrecs r).mp hr).1 with hw | ⟨-, rfl⟩
      · exact ⟨r, hw, hid, hm⟩
      · refine absurd ?_ hz
        have : a.mask &&& sp.mask = a.mask := by
          rw [← hm, BitVec.and_assoc, BitVec.and_comm w.liveSlices, ← BitVec.and_assoc, maskOf_within hin]
        rw [← this, h0]
    · obtain ⟨b, hb, hab⟩ := forall₂_mem hR.splits hap
      exact ⟨b, hb, hab, fun h => absurd h hn⟩
  · obtain ⟨a, ha, hab⟩ := forall₂_mem_right hR.splits hb
    rw [hspl] at ha
    rcases List.mem_append.mp ha with ha | ha
    · obtain ⟨ha, h0⟩ := List.mem_filter.mp ha
      exact .inr ⟨a, ha, by simpa using h0, hab⟩
    · refine .inl ?_
      have hm : b.mask = a.mask := by rw [hab]
      rw [hm]; exact hwithin a ha
  · rw [hF]; exact hgr
  · by_cases hz : r.id = 0 ∨ r.mask &&& w.liveSlices ≠ 0
    · rcases hR.kept r ((hrecs r).mpr ⟨.inl hr, hz⟩) with h | ⟨q, hq, hid, a, ha, hm⟩
      · exact .inl h
      · obtain ⟨b, hb, hab⟩ := forall₂_mem hR.splits ha
        refine .inr (.inr ⟨q, ((hrecs q).mp hq).1.imp_right fun h => hdiv h.1, hid, b, hb, ?_⟩)
        rw [hab, ← hpl]; exact hm
    · rw [not_or, not_not] at hz
      exact .inr (.inl hz)
  · rcases ((hrecs r).mp (hR.recs r hr)).1 with h | ⟨h, rfl⟩
    · exact .inl h
    · refine .inr ⟨hdiv h, rfl, (newId_bounds u).1, (newId_bounds u).2, fun k hk => ?_⟩
      simp only [getLsbD_maskOf _ _ hk, ← hks, List.mem_filter, slicesOf, List.mem_range, hk, true_and]
      simp
  · rw [hF]
    refine hid ?_
    cases dv
    · rfl
    · exact absurd (hdiv rfl) h

/-- Placing a warp with the live slices, splits, records, counter and groups of b places b. -/
theorem Warp.Placed.of_same {w b x : Warp} {sp : Split} {next : Nat → Addr} (h : w.Placed x sp next)
    (hl : ∀ k, (w.sl k).live = (b.sl k).live) (hs : w.splits = b.splits) (hr : w.recs = b.recs) (hi : w.idCtr = b.idCtr)
    (hg : w.groups = b.groups) : b.Placed x sp next := by
  have hm : w.liveSlices = b.liveSlices := by simp only [Warp.liveSlices, hl]
  have hd : w.Divides sp next ↔ b.Divides sp next := by simp only [Warp.Divides, hl]
  obtain ⟨h1, h2, h3, h4, h5, h6⟩ := h
  simp only [hl, hs, hr, hi, hg, hm, hd] at h1 h2 h3 h4 h5 h6
  exact ⟨h1, h2, h3, h4, h5, h6⟩

/-! ## After an instruction retires -/

/-- What the debugger, the record and the replay change of a team. -/
def Team.Quiet (a b : Team) : Prop := b = { a with halted := b.halted, stepping := b.stepping, chunk := b.chunk }

/-- What the debugger and the replay change of a context's registers. -/
def Ctx.Quiet (a b : Ctx) : Prop := b = { a with stop := b.stop, dbgStat := b.dbgStat, rlHead := b.rlHead }

theorem Ctx.Quiet.trans {a b c : Ctx} (h1 : a.Quiet b) (h2 : b.Quiet c) : a.Quiet c := by
  unfold Ctx.Quiet at *
  rw [h2, h1]

/-- The plan may gain the end of a full chunk. -/
def PlanQuiet (u : Nat) (a b : List Pick) : Prop := b = a ∨ b = .event (.recordChunkLimit u) :: a

/-- A state that differs from s in what the debugger and the replay keep, and in team u only in that. -/
structure State.Debugged (u : Nat) (s t : State) : Prop where
  fields : t = { s with teams := t.teams, ctxs := t.ctxs }
  ctxs   : ∀ c, (s.ctxOf c).Quiet (t.ctxOf c)
  others : ∀ w, w ≠ u → t.team? w = s.team? w
  team   : ∀ a, s.team? u = some a → ∃ b, t.team? u = some b ∧ a.Quiet b

theorem State.Debugged.refl (u : Nat) (s : State) : State.Debugged u s s :=
  ⟨rfl, fun _ => rfl, fun _ _ => rfl, fun a h => ⟨a, h, rfl⟩⟩

theorem State.Debugged.trans {u : Nat} {s t r : State} (h1 : State.Debugged u s t) (h2 : State.Debugged u t r) :
    State.Debugged u s r := by
  refine ⟨?_, fun c => (h1.ctxs c).trans (h2.ctxs c), fun w hw => (h2.others w hw).trans (h1.others w hw), fun a ha => ?_⟩
  · rw [h2.fields, h1.fields]
  · obtain ⟨b, hb, hq⟩ := h1.team a ha
    obtain ⟨c, hc, hq'⟩ := h2.team b hb
    refine ⟨c, hc, ?_⟩
    unfold Team.Quiet at *
    rw [hq', hq]

theorem State.ctxOf_modCtx (s : State) (c d : Nat) (f : Ctx → Ctx) :
    (s.modCtx c f).ctxOf d = if d = c then f (s.ctxOf c) else s.ctxOf d :=
  Tab.get_put ({} : Ctx) s.ctxs c d (f (s.ctxOf c))

theorem State.Debugged.modCtx (u : Nat) (s : State) (c : Nat) (f : Ctx → Ctx) (hf : ∀ x : Ctx, x.Quiet (f x)) :
    State.Debugged u s (s.modCtx c f) := by
  refine ⟨rfl, fun d => ?_, fun _ _ => rfl, fun a h => ⟨a, h, rfl⟩⟩
  rw [State.ctxOf_modCtx]
  split
  · next h => subst h; exact hf _
  · rfl

theorem State.Debugged.modTeam (u : Nat) (s : State) (f : Team → Team) (hf : ∀ t : Team, t.Quiet (f t)) :
    State.Debugged u s (s.modTeam u f) := by
  have hu : ∀ t : Team, (f t).uid = t.uid := fun t => by rw [hf t]
  exact ⟨rfl, fun _ => rfl, fun w hw => State.team?_modTeam_other hu hw,
    fun a h => ⟨f a, by rw [State.team?_modTeam hu, h]; rfl, hf a⟩⟩

theorem State.Debugged.halt (s : State) (u c : Nat) (i : Word) (r : Nat) :
    State.Debugged u s ((s.haltTeam u).dbgResult c i r) :=
  (State.Debugged.modTeam u s (fun t => { t with halted := true, stepping := none }) fun _ => rfl).trans
    (State.Debugged.modCtx u _ c (fun x => { x with dbgStat := BitVec.ofNat 64 (i.toNat * 2 ^ 32 + r * 2 ^ 28) }) fun _ => rfl)

theorem State.Debugged.chunk (s : State) (u : Nat) (f : Nat → Nat) :
    State.Debugged u s (s.modTeam u fun t => { t with chunk := f t.chunk }) :=
  State.Debugged.modTeam u s (fun t => { t with chunk := f t.chunk }) fun _ => rfl

theorem State.replayRetire_debugged (s : State) (t : Team) : State.Debugged t.uid s (s.replayRetire t) := by
  unfold State.replayRetire
  split
  · split
    · exact (State.Debugged.modCtx t.uid s t.ctx (fun x => { x with rlHead := x.rlHead + 1 }) fun _ => rfl).trans (State.Debugged.chunk _ _ fun _ => 0)
    · exact State.Debugged.chunk _ _ fun n => n + 1
  · exact State.Debugged.chunk _ _ fun n => n + 1

theorem State.endStep_debugged (s : State) (v : View) : State.Debugged v.team.uid s (s.endStep v) := by
  unfold State.endStep
  split
  · split
    · exact State.Debugged.halt _ _ _ _ _
    · exact .refl _ _
  · exact .refl _ _

theorem State.endStop_debugged (s : State) (v : View) : State.Debugged v.team.uid s (s.endStop v) := by
  unfold State.endStop
  dsimp only
  split
  · split
    · exact ((State.Debugged.modTeam v.team.uid s (fun t => { t with halted := true, stepping := none }) fun _ => rfl).trans
        (State.Debugged.modCtx _ _ _ (fun x => { x with stop := none }) fun _ => rfl)).trans
          (State.Debugged.modCtx _ _ v.team.ctx (fun x => { x with dbgStat := BitVec.ofNat 64 (v.team.inst.toNat * 2 ^ 32 + 0 * 2 ^ 28) })
            fun _ => rfl)
    · exact .refl _ _
  · exact .refl _ _

/-- Counting an instruction of a chunk: as the debugger, and perhaps the end of a full chunk comes into the plan. -/
theorem State.countChunk_debugged (s : State) (v : View) :
    ∃ t, State.Debugged v.team.uid s t ∧ ∃ p, PlanQuiet v.team.uid s.plan p ∧ s.countChunk v = { t with plan := p } := by
  unfold State.countChunk
  dsimp only
  split
  · have h := State.Debugged.chunk s v.team.uid fun n => n + 1
    refine ⟨_, h, ?_⟩
    split
    · exact ⟨_, .inr rfl, rfl⟩
    · exact ⟨_, .inl rfl, rfl⟩
  · split
    · have h := State.replayRetire_debugged s v.team
      have hp : (s.replayRetire v.team).plan = s.plan := by rw [h.fields]
      refine ⟨_, h, ?_⟩
      split
      · exact ⟨_, .inr rfl, by rw [hp]⟩
      · exact ⟨_, .inl rfl, by rw [← hp]⟩
    · exact ⟨s, .refl _ _, _, .inl rfl, rfl⟩

theorem State.afterRetire_debugged (s : State) (v : View) :
    ∃ t, State.Debugged v.team.uid s t ∧ ∃ p, PlanQuiet v.team.uid s.plan p ∧ s.afterRetire v = { t with plan := p } := by
  have h := (State.endStep_debugged s v).trans (State.endStop_debugged _ v)
  obtain ⟨t, ht, p, hp, he⟩ := State.countChunk_debugged ((s.endStep v).endStop v) v
  have hpl : ((s.endStep v).endStop v).plan = s.plan := by rw [h.fields]
  exact ⟨t, h.trans ht, p, hpl ▸ hp, he⟩

/-- Nobody debugs, records or replays the team of the view. -/
def State.unwatched (s : State) (v : View) : Prop :=
  v.team.stepping = none ∧ (s.ctxOf v.team.ctx).stop = none ∧ v.team.recorded = false ∧ v.team.replayed = false

theorem State.afterRetire_unwatched {s : State} {v : View} (h : s.unwatched v) : s.afterRetire v = s := by
  obtain ⟨h1, h2, h3, h4⟩ := h
  simp [State.afterRetire, State.endStep, State.endStop, State.countChunk, h1, h2, h3, h4]

/-- What retiring changes of a team beside its warps. -/
def Team.Retired (a b : Team) (flags : Word) : Prop :=
  b = { a with warps := b.warps, flags := a.flags ||| flags, raised := b.raised, raisedAt := b.raisedAt
               halted := b.halted, stepping := b.stepping, chunk := b.chunk }

theorem Team.raise_frame (t : Team) (c : Nat) (f : Word) :
    t.raise c f = { t with flags := t.flags ||| f, raised := (t.raise c f).raised, raisedAt := (t.raise c f).raisedAt } := by
  unfold Team.raise
  split
  · next h => subst h; simp
  · rfl

/-- The warp that retiring leaves: w with RETIRED one higher in the slices of the split, and placed. -/
def View.retired (v : View) (w : Warp) (clock : Nat) (next : Nat → Addr) : Warp :=
  (w.modSls v.split.mask fun sl => { sl with retired := sl.retired + 1 }).place clock v.split next

theorem View.retired_frame (v : View) (w : Warp) (clock : Nat) (next : Nat → Addr) :
    let p := v.retired w clock next
    p = { w with slices := p.slices, splits := p.splits, recs := p.recs, idCtr := p.idCtr, groups := p.groups } := by
  intro p
  simp only [p, View.retired]
  rw [Warp.place_frame]
  have h := (Warp.foldl_modSl_same (slicesOf v.split.mask) (fun k => k)
    (fun _ (sl : Slice) => { sl with retired := sl.retired + 1 }) w)
  rw [Warp.SameBut] at h
  simp only [Warp.modSls]
  rw [h]

/-- In each slice retiring changes the retired count, the active lanes and the deferral stack alone. -/
theorem View.retired_slice (v : View) (w : Warp) (clock : Nat) (next : Nat → Addr) (k : Nat) :
    let a := w.sl k
    let b := (v.retired w clock next).sl k
    b = { a with retired := b.retired, act := b.act, dstack := b.dstack } := by
  intro a b
  have h1 := Warp.foldl_modSl_rel (fun a b : Slice => b = { a with retired := b.retired }) (fun _ => rfl)
    (slicesOf v.split.mask) (fun k => k) (fun _ (sl : Slice) => { sl with retired := sl.retired + 1 }) w k
    (fun _ _ _ w' h => by rw [h])
  have h2 := Warp.place_slice (w.modSls v.split.mask fun sl => { sl with retired := sl.retired + 1 }) clock v.split next k
  simp only [Slice.Moved] at h2
  simp only [a, b, View.retired]
  rw [h2, show ((w.modSls v.split.mask fun sl => { sl with retired := sl.retired + 1 }).sl k) = _ from h1]

/-- RETIRED rises by one in each slice of the split. -/
theorem View.retired_count (v : View) (w : Warp) (clock : Nat) (next : Nat → Addr) (k : Nat) :
    ((v.retired w clock next).sl k).retired = if v.split.mask.getLsbD k then (w.sl k).retired + 1 else (w.sl k).retired := by
  have h2 := Warp.place_slice (w.modSls v.split.mask fun sl => { sl with retired := sl.retired + 1 }) clock v.split next k
  simp only [Slice.Moved] at h2
  simp only [View.retired]
  rw [h2, Warp.sl_modSls]
  split <;> rfl

/-- A warp given for a retirement reads as writes over the warp before. -/
structure Warp.Wrote (w b : Warp) (wr : Writes) : Prop where
  rest   : w = { b with entries := w.entries, preds := w.preds, slices := w.slices }
  vregs  : ∀ r l, l < 32 → w.v r l = (wr.v r l).getD (b.v r l)
  preds  : ∀ n l, n < 7 → l < 32 → w.p n l = (wr.p n l).getD (b.p n l)
  slices : ∀ k, w.sl k = { b.sl k with sregs := (w.sl k).sregs, q := (w.sl k).q }
  sregs  : ∀ k r, (w.sl k).s r = (wr.s k r).getD ((b.sl k).s r)
  qregs  : ∀ k n, n < 7 → (w.sl k).getQ n = (wr.q k n).getD ((b.sl k).getQ n)

theorem Warp.Wrote.refl (w : Warp) : w.Wrote w {} :=
  ⟨rfl, fun _ _ _ => rfl, fun _ _ _ _ => rfl, fun _ => rfl, fun _ _ => rfl, fun _ _ _ => rfl⟩

/-- The slices of the warp that retiring leaves. -/
theorem View.retired_sl (v : View) (w : Warp) (clock : Nat) (next : Nat → Addr) (k : Nat) :
    (v.retired w clock next).sl k =
      if v.split.mask.getLsbD k = true then
        if (w.sl k).live ≠ 0 then (({ w.sl k with retired := (w.sl k).retired + 1 } : Slice).settle (next k)).1
        else { w.sl k with retired := (w.sl k).retired + 1 }
      else w.sl k := by
  unfold View.retired
  rw [Warp.place_sl, Warp.sl_modSls]
  by_cases h : v.split.mask.getLsbD k = true
  · simp only [h, true_and, if_true]
  · simp [h]

/-- Retiring a warp that wrote: the warp it leaves follows the one before. -/
theorem Warp.Wrote.after {v : View} {w b : Warp} {wr : Writes} (h : w.Wrote b wr) (clock : Nat) (next : Nat → Addr) :
    b.After (v.retired w clock next) v.split wr next := by
  have hf := View.retired_frame v w clock next
  dsimp only at hf
  have he : (v.retired w clock next).entries = w.entries := by rw [hf]
  have hp : (v.retired w clock next).preds = w.preds := by rw [hf]
  refine ⟨?_, fun r l hl => ?_, fun n l hn hl => ?_, fun k => ?_, fun k hk hl => ?_, ?_⟩
  · rw [hf, h.rest]
  · rw [← h.vregs r l hl]; simp only [Warp.v, he]
  · rw [← h.preds n l hn hl]; simp only [Warp.p, hp]
  · have hm := View.retired_slice v w clock next k
    dsimp only at hm
    have hss : ((v.retired w clock next).sl k).sregs = (w.sl k).sregs := by rw [hm]
    have hqq : ((v.retired w clock next).sl k).q = (w.sl k).q := by rw [hm]
    refine ⟨?_, fun r => ?_, fun n hn => ?_, ?_, ?_⟩
    · rw [hm, h.slices k]
    · rw [← h.sregs k r]; simp only [Slice.s, hss]
    · rw [← h.qregs k n hn]; simp only [Slice.getQ, hqq]
    · rw [View.retired_count, h.slices k]
    · have hsl := h.slices k
      have hds : (w.sl k).dstack = (b.sl k).dstack := by rw [hsl]
      have hac : (w.sl k).act = (b.sl k).act := by rw [hsl]
      have hlv : (w.sl k).live = (b.sl k).live := by rw [hsl]
      rw [View.retired_sl]
      by_cases hc : v.split.mask.getLsbD k = true
      · by_cases hz : (b.sl k).live = 0
        · simp [hc, hlv, hz, hds, hac]
        · have hz' : (w.sl k).live ≠ 0 := by rw [hlv]; exact hz
          simp only [if_pos hc, if_pos hz', if_pos (And.intro hc hz)]
          exact (Slice.settle_congr (a := b.sl k) (b := { w.sl k with retired := (w.sl k).retired + 1 }) (next k) hac hlv hds).2
      · simp [hc, hds, hac]
  · have hsl := h.slices k
    have hlv : (w.sl k).live = (b.sl k).live := by rw [hsl]
    have hds : (w.sl k).dstack = (b.sl k).dstack := by rw [hsl]
    have hac : (w.sl k).act = (b.sl k).act := by rw [hsl]
    unfold View.retired
    rw [Warp.place_pc _ _ _ _ _ hk (by rw [Warp.sl_modSls, if_pos hk]; simpa [hlv] using hl), Warp.sl_modSls, if_pos hk,
      (Slice.settle_congr (a := b.sl k) (b := { w.sl k with retired := (w.sl k).retired + 1 }) (next k) hac hlv hds).1]
  · have hm := Warp.foldl_modSl_same (slicesOf v.split.mask) (fun k => k)
      (fun _ (sl : Slice) => { sl with retired := sl.retired + 1 }) w
    have hb : ∀ {γ : Type} (g : Warp → γ), (∀ w' s', g { w' with slices := s' } = g w') →
        (∀ w' e p s', g { w' with entries := e, preds := p, slices := s' } = g w') →
        g (w.modSls v.split.mask fun sl => { sl with retired := sl.retired + 1 }) = g b := by
      intro γ g h1 h2
      rw [show w.modSls v.split.mask (fun sl => { sl with retired := sl.retired + 1 }) = _ from hm, h1, h.rest]
      exact h2 b w.entries w.preds w.slices
    refine (Warp.place_placed _ clock v.split next).of_same (fun k => ?_) (hb (·.splits) (fun _ _ => rfl) fun _ _ _ _ => rfl)
      (hb (·.recs) (fun _ _ => rfl) fun _ _ _ _ => rfl) (hb (·.idCtr) (fun _ _ => rfl) fun _ _ _ _ => rfl)
      (hb (·.groups) (fun _ _ => rfl) fun _ _ _ _ => rfl)
    rw [Warp.sl_modSls, h.slices k]
    split <;> rfl

/-- RETIRING, SAID ONCE: the split's warp follows the one before it as its writes say, FLAGS are ORed, and nothing else
changes but what the debugger, the record and the replay keep. -/
theorem State.retireTo_retires {s : State} {v : View} {w b : Warp} {wr : Writes} {next : Nat → Addr}
    (hv : s.team? v.team.uid = some v.team) (hvw : v.team.warp? v.warp.num = some v.warp) (hn : b.num = v.warp.num)
    (hw : w.Wrote b wr) : s.Retires (s.retireTo v w wr.flags next) v b wr next := by
  let w1 := v.retired w s.clock next
  let g : Team → Team := fun t => (t.modWarp v.warp.num fun _ => w1).raise s.clock wr.flags
  obtain ⟨t, hd, p, hp, he⟩ := State.afterRetire_debugged (s.modTeam v.team.uid g) v
  have hg : ∀ t, (g t).uid = t.uid := fun t => by simp only [g]; rw [Team.raise_frame]; rfl
  have hn1 : w1.num = v.warp.num := by
    have := View.retired_frame v w s.clock next
    simp only at this
    simp only [w1]; rw [this, hw.rest]; exact hn
  have hr : s.retireTo v w wr.flags next = { t with plan := p } := he
  rw [hr]
  refine ⟨by rw [hd.fields]; rfl, hd.ctxs, hp, fun u hu => (hd.others u hu).trans (State.team?_modTeam_other hg hu), ?_⟩
  have hteam : (s.modTeam v.team.uid g).team? v.team.uid = some (g v.team) := by
    rw [State.team?_modTeam hg, hv]; rfl
  obtain ⟨c, hc, hq⟩ := hd.team _ hteam
  have hwarps : c.warps = (v.team.modWarp v.warp.num fun _ => w1).warps := by
    rw [hq]; simp only [g]; rw [Team.raise_frame]
  have hwp : ∀ n, c.warp? n = (v.team.modWarp v.warp.num fun _ => w1).warp? n := fun n => by
    simp only [Team.warp?, hwarps]
  refine ⟨c, w1, hc, ?_, hw.after s.clock next, fun n hne => ?_, ?_⟩
  · rw [hwp, Team.warp?_modWarp (fun _ => .inr hn1), hvw]; rfl
  · rw [hwp]
    exact Team.warp?_modWarp_other (fun _ _ => hn1) hne
  · rw [hq]; simp only [g]; rw [Team.raise_frame]; rfl

/-- Retiring to the next instruction. -/
theorem State.retire_retires {s : State} {v : View} {w : Warp} {wr : Writes} (len : Nat) (hv : s.view? = some v)
    (hw : w.Wrote v.warp wr) :
    s.Retires (s.retire v w wr.flags len) v v.warp wr fun _ => v.pc + BitVec.ofNat 64 len :=
  State.retireTo_retires (State.view_team hv) (State.view_warp hv) rfl hw

end Sys2Proof.Machine
end

