-- ==== Sys2Proof/Laws/Lanes.lean ====
section
/-!
SUPPORT. What lane and uniform results write (spec/11 R161, R165; spec/13 R210), said once, and the completion of the
instructions that do nothing but write them.
-/

namespace Sys2Proof.Machine

/-- The last entry of a list of writes for key n. -/
def lastOf {α : Type} (l : List (Nat × α)) (n : Nat) : Option α := l.foldl (fun b x => if x.1 = n then some x.2 else b) none

theorem lastOf_foldl {α : Type} (l : List (Nat × α)) (n : Nat) (b : Option α) :
    l.foldl (fun b x => if x.1 = n then some x.2 else b) b = (lastOf l n).or b := by
  unfold lastOf
  induction l generalizing b with
  | nil => simp
  | cons x l ih =>
    simp only [List.foldl_cons]
    rw [ih, ih (if x.1 = n then some x.2 else none)]
    split <;> simp

theorem lastOf_cons {α : Type} (x : Nat × α) (l : List (Nat × α)) (n : Nat) :
    lastOf (x :: l) n = (lastOf l n).or (if x.1 = n then some x.2 else none) := by
  rw [← lastOf_foldl]; rfl

@[simp] theorem lastOf_nil {α : Type} (n : Nat) : lastOf ([] : List (Nat × α)) n = none := rfl

theorem lastOf_one {α : Type} (x : Nat × α) (n : Nat) : lastOf [x] n = if x.1 = n then some x.2 else none := by
  simp [lastOf_cons]

/-! ## Vector registers and predicates -/

theorem Warp.v_setV (w : Warp) (r l : Nat) (x : Word) (r' l' : Nat) (h : l < 32) (h' : l' < 32) :
    (w.setV r l x).v r' l' = if r' = r ∧ l' = l then x else w.v r' l' := by
  simp only [Warp.v, Warp.setV, Tab.get_put]
  have : (32 * r' + l' = 32 * r + l) ↔ (r' = r ∧ l' = l) := by omega
  simp only [this]

theorem Warp.p_setP (w : Warp) (n l : Nat) (b : Bool) (m l' : Nat) (hm : m < 7) (h : l < 32) (h' : l' < 32) :
    (w.setP n l b).p m l' = if m = n ∧ l' = l then b else w.p m l' := by
  unfold Warp.setP
  split
  · next hn =>
    have : n = 7 := by simpa using hn
    simp [show m ≠ n by omega]
  · have hm7 : (m == 7) = false := by simp; omega
    simp only [Warp.p, hm7, Bool.false_or, Tab.upd, Tab.get_put]
    by_cases hmn : m = n
    · subst hmn
      have hb : (BitVec.ofNat 32 (2 ^ l)).getLsbD l' = decide (l' = l) := by
        rw [BitVec.getLsbD_ofNat, Nat.testBit_two_pow]
        by_cases hl : l' = l
        · simp [hl, h]
        · simp [hl, Ne.symm hl]
      simp only [if_true, true_and]
      generalize BitVec.ofNat 32 (2 ^ l) = bit at hb ⊢
      by_cases hl : l' = l
      · subst hl
        cases b <;> simp [BitVec.getLsbD_or, BitVec.getLsbD_and, BitVec.getLsbD_not, hb, h, -BitVec.getLsbD_eq_getElem]
      · cases b <;> simp [BitVec.getLsbD_or, BitVec.getLsbD_and, BitVec.getLsbD_not, hb, hl, h', -BitVec.getLsbD_eq_getElem]
    · simp [hmn]

/-- A fold of writes of vector registers of one lane. -/
theorem Warp.foldl_setV (vs : List (Nat × Word)) (l : Nat) (hl : l < 32) (w : Warp) (r l' : Nat) (h' : l' < 32) :
    (vs.foldl (fun w x => w.setV x.1 l x.2) w).v r l' =
      if l' = l then (lastOf vs r).getD (w.v r l') else w.v r l' := by
  induction vs generalizing w with
  | nil => simp
  | cons x vs ih =>
    rw [List.foldl_cons, ih, Warp.v_setV _ _ _ _ _ _ hl h', lastOf_cons]
    by_cases h : l' = l
    · subst h
      by_cases hx : x.1 = r
      · cases lastOf vs r <;> simp [hx]
      · cases lastOf vs r <;> simp [hx, Ne.symm hx]
    · simp [h]

theorem Warp.foldl_setV_preds (vs : List (Nat × Word)) (l : Nat) (w : Warp) :
    vs.foldl (fun w x => w.setV x.1 l x.2) w =
      { w with entries := (vs.foldl (fun w x => w.setV x.1 l x.2) w).entries } := by
  induction vs generalizing w with
  | nil => rfl
  | cons x vs ih => rw [List.foldl_cons, ih]; rfl

theorem Warp.setP_frame (w : Warp) (n l : Nat) (b : Bool) : w.setP n l b = { w with preds := (w.setP n l b).preds } := by
  unfold Warp.setP; split <;> rfl

theorem Warp.foldl_setP_frame (ps : List (Nat × Bool)) (l : Nat) (w : Warp) :
    ps.foldl (fun w x => w.setP x.1 l x.2) w =
      { w with preds := (ps.foldl (fun w x => w.setP x.1 l x.2) w).preds } := by
  induction ps generalizing w with
  | nil => rfl
  | cons x ps ih =>
    rw [List.foldl_cons, ih, Warp.setP_frame]

theorem Warp.foldl_setP (ps : List (Nat × Bool)) (l : Nat) (hl : l < 32) (w : Warp) (n l' : Nat) (hn : n < 7) (h' : l' < 32) :
    (ps.foldl (fun w x => w.setP x.1 l x.2) w).p n l' =
      if l' = l then (lastOf ps n).getD (w.p n l') else w.p n l' := by
  induction ps generalizing w with
  | nil => simp
  | cons x ps ih =>
    rw [List.foldl_cons, ih, Warp.p_setP _ _ _ _ _ _ hn hl h', lastOf_cons]
    by_cases h : l' = l
    · subst h
      by_cases hx : x.1 = n
      · cases lastOf ps n <;> simp [hx]
      · cases lastOf ps n <;> simp [hx, Ne.symm hx]
    · simp [h]

theorem Warp.writeLane_frame (w : Warp) (l : Nat) (o : LaneOut) :
    w.writeLane l o = { w with entries := (w.writeLane l o).entries, preds := (w.writeLane l o).preds } := by
  simp only [Warp.writeLane]
  rw [Warp.foldl_setP_frame, Warp.foldl_setV_preds]

theorem Warp.writeLane_v (w : Warp) (l : Nat) (hl : l < 32) (o : LaneOut) (r l' : Nat) (h' : l' < 32) :
    (w.writeLane l o).v r l' = if l' = l then (lastOf o.vs r).getD (w.v r l') else w.v r l' := by
  simp only [Warp.writeLane]
  rw [Warp.foldl_setP_frame]
  exact Warp.foldl_setV o.vs l hl w r l' h'

theorem Warp.writeLane_p (w : Warp) (l : Nat) (hl : l < 32) (o : LaneOut) (n l' : Nat) (hn : n < 7) (h' : l' < 32) :
    (w.writeLane l o).p n l' = if l' = l then (lastOf o.ps n).getD (w.p n l') else w.p n l' := by
  simp only [Warp.writeLane]
  rw [Warp.foldl_setP _ _ hl _ _ _ hn h', Warp.foldl_setV_preds]
  rfl

/-- Every lane of a list writes what f says. -/
def Writes.ofLanes (lanes : List Nat) (f : Nat → LaneOut) : Writes where
  v := fun r l => if l ∈ lanes then lastOf (f l).vs r else none
  p := fun n l => if l ∈ lanes then lastOf (f l).ps n else none
  flags := outFlags (lanes.map fun l => (l, f l))

theorem Warp.writeLanes_wrote (w : Warp) (lanes : List Nat) (hn : lanes.Nodup) (hl : ∀ l ∈ lanes, l < 32)
    (f : Nat → LaneOut) : (w.writeLanes (lanes.map fun l => (l, f l))).Wrote w (Writes.ofLanes lanes f) := by
  have key : ∀ (lanes : List Nat), lanes.Nodup → (∀ l ∈ lanes, l < 32) → ∀ u : Warp,
      let x := u.writeLanes (lanes.map fun l => (l, f l))
      x = { u with entries := x.entries, preds := x.preds } ∧
      (∀ r l, l < 32 → x.v r l = (if l ∈ lanes then lastOf (f l).vs r else none).getD (u.v r l)) ∧
      (∀ n l, n < 7 → l < 32 → x.p n l = (if l ∈ lanes then lastOf (f l).ps n else none).getD (u.p n l)) := by
    intro lanes
    induction lanes with
    | nil => intro _ _ u; exact ⟨rfl, fun _ _ _ => by simp [Warp.writeLanes], fun _ _ _ _ => by simp [Warp.writeLanes]⟩
    | cons a lanes ih =>
      intro hn hl u
      obtain ⟨h1, h2, h3⟩ := ih (List.nodup_cons.mp hn).2 (fun l h => hl l (List.mem_cons_of_mem a h)) (u.writeLane a (f a))
      have ha : a < 32 := hl a List.mem_cons_self
      have hna := (List.nodup_cons.mp hn).1
      have he : u.writeLanes ((a :: lanes).map fun l => (l, f l)) =
          (u.writeLane a (f a)).writeLanes (lanes.map fun l => (l, f l)) := rfl
      intro x
      simp only [x, he]
      refine ⟨?_, fun r l h => ?_, fun n l hn h => ?_⟩
      · rw [h1, Warp.writeLane_frame]
      · rw [h2 r l h, Warp.writeLane_v u a ha (f a) r l h]
        by_cases hla : l = a
        · subst hla; simp [hna]
        · simp [hla]
      · rw [h3 n l hn h, Warp.writeLane_p u a ha (f a) n l hn h]
        by_cases hla : l = a
        · subst hla; simp [hna]
        · simp [hla]
  obtain ⟨h1, h2, h3⟩ := key lanes hn hl w
  refine ⟨by rw [h1], h2, h3, fun k => ?_, fun k r => ?_, fun k n _ => ?_⟩ <;>
    simp only [Writes.ofLanes, Option.getD_none, Slice.s, Slice.getQ, Warp.sl] <;> rw [h1]

theorem View.lanes_nodup (v : View) : v.lanes.Nodup := List.nodup_range.filter _
theorem View.lanes_lt (v : View) : ∀ l ∈ v.lanes, l < 32 := fun l h => by
  simpa using (List.mem_filter.mp h).1
theorem View.part_nodup (v : View) (g : BitVec 3) (gn : BitVec 1) : (v.part g gn).Nodup := v.lanes_nodup.filter _
theorem View.part_lt (v : View) (g : BitVec 3) (gn : BitVec 1) : ∀ l ∈ v.part g gn, l < 32 := fun l h =>
  v.lanes_lt l (List.mem_filter.mp h).1

theorem View.mem_part (v : View) (g : BitVec 3) (gn : BitVec 1) (l : Nat) :
    l ∈ v.part g gn ↔ v.takesPart g gn l = true := by
  simp only [View.part, View.lanes, View.takesPart, List.mem_filter, List.mem_range, Bool.and_eq_true, decide_eq_true_eq]

theorem outFlags_zero {lanes : List Nat} {f : Nat → LaneOut} (h : ∀ l ∈ lanes, (f l).flags = 0) :
    outFlags (lanes.map fun l => (l, f l)) = 0 := by
  have : ∀ (ls : List Nat) (a : Word), (∀ l ∈ ls, (f l).flags = 0) →
      (ls.map fun l => (l, f l)).foldl (fun a x => a ||| x.2.flags) a = a := by
    intro ls
    induction ls with
    | nil => intro a _; rfl
    | cons b ls ih =>
      intro a h
      rw [List.map_cons, List.foldl_cons, ih _ fun l hl => h l (List.mem_cons_of_mem b hl), h b List.mem_cons_self]
      simp
  exact this lanes 0 h

/-- Two descriptions of the same writes. -/
theorem State.Retires.congr {s t : State} {v : View} {w : Warp} {a b : Writes} {next : Nat → Addr}
    (h : s.Retires t v w a next) (hv : ∀ r l, l < 32 → a.v r l = b.v r l) (hp : ∀ n l, l < 32 → a.p n l = b.p n l)
    (hs : a.s = b.s) (hq : a.q = b.q) (hf : a.flags = b.flags) : s.Retires t v w b next := by
  obtain ⟨h1, h2, h3, h4, c, x, h5, h6, h7, h8, h9⟩ := h
  refine ⟨h1, h2, h3, h4, c, x, h5, h6, ⟨h7.rest, fun r l hl => ?_, fun n l hn hl => ?_, fun k => ?_, h7.stands, h7.placed⟩, h8, ?_⟩
  · rw [h7.vregs r l hl, hv r l hl]
  · rw [h7.preds n l hn hl, hp n l hl]
  · have := h7.slices k
    rwa [hs, hq] at this
  · rw [h9, hf]

/-! ## Lane instructions -/

/-- A lane instruction whose flags raise no trap does what its lanes say. -/
theorem State.laneOp_retires {s : State} {v : View} {i : Instr} {g : BitVec 3} {gn : BitVec 1} {len : Nat}
    {f : View → Nat → LaneOut} {wr : Writes} (h : s.Issues v i)
    (ht : trapOf v.team.fctl wr.flags = none)
    (hv : ∀ r l, l < 32 → wr.v r l = if v.takesPart g gn l then lastOf (f v l).vs r else none)
    (hp : ∀ n l, l < 32 → wr.p n l = if v.takesPart g gn l then lastOf (f v l).ps n else none)
    (hs : wr.s = fun _ _ => none) (hq : wr.q = fun _ _ => none)
    (hf : outFlags ((v.part g gn).map fun l => (l, f v l)) = wr.flags) :
    ∃ t, s.laneOp i g gn len f = .next t ∧ s.Retires t v v.warp wr fun _ => v.pc + BitVec.ofNat 64 len := by
  refine ⟨_, State.laneOp_ok h.1 h.2.1 (hf ▸ ht), ?_⟩
  refine State.Retires.congr (State.retire_retires (wr := Writes.ofLanes (v.part g gn) (f v)) len h.1
    (Warp.writeLanes_wrote v.warp _ (v.part_nodup g gn) (v.part_lt g gn) (f v)))
    (fun r l hl => ?_) (fun n l hl => ?_) hs.symm hq.symm hf
  · simp only [Writes.ofLanes, hv r l hl, View.mem_part]
  · simp only [Writes.ofLanes, hp n l hl, View.mem_part]

theorem lastOf_writesOf (w : BitVec 2) (r : BitVec 8) (x n : Nat) :
    lastOf (writesOf w r x) n =
      if n = r.toNat then some (BitVec.ofNat 32 x)
      else if w = 2 ∧ n = r.toNat + 1 then some (BitVec.ofNat 32 (x / 2 ^ 32)) else none := by
  unfold writesOf
  by_cases hw : w = 2
  · subst hw
    simp only [if_true, lastOf_cons, lastOf_nil, true_and]
    by_cases h : n = r.toNat
    · subst h; simp
    · simp only [h, if_false, Ne.symm h]
      by_cases h2 : n = r.toNat + 1
      · simp [h2]
      · simp [h2, Ne.symm h2]
  · rw [if_neg hw]
    by_cases h : n = r.toNat
    · simp [h, lastOf_cons]
    · rw [lastOf_one, if_neg (Ne.symm h), if_neg h, if_neg fun hc => hw hc.1]

/-- A lane instruction that writes one number to a register, or to a pair under W = 10. -/
theorem State.laneOp_lanes {s : State} {v : View} {i : Instr} {g : BitVec 3} {gn : BitVec 1} {len : Nat}
    {f : View → Nat → LaneOut} {w : BitVec 2} {r : BitVec 8} {flags : Word} (x : Nat → Nat) (h : s.Issues v i)
    (hx : ∀ l, (f v l).vs = writesOf w r (x l) ∧ (f v l).ps = [])
    (hf : outFlags ((v.part g gn).map fun l => (l, f v l)) = flags) (ht : trapOf v.team.fctl flags = none) :
    ∃ t, s.laneOp i g gn len f = .next t ∧
      s.Retires t v v.warp (Writes.lanes (v.takesPart g gn) w r x flags) fun _ => v.pc + BitVec.ofNat 64 len := by
  refine State.laneOp_retires (wr := Writes.lanes (v.takesPart g gn) w r x flags) h ht (fun n l _ => ?_) (fun n l _ => ?_)
    rfl rfl hf
  · rw [(hx l).1, lastOf_writesOf]; rfl
  · rw [(hx l).2]; simp [Writes.lanes]

/-- A lane instruction that writes one predicate. -/
theorem State.laneOp_preds {s : State} {v : View} {i : Instr} {g : BitVec 3} {gn : BitVec 1} {len : Nat}
    {f : View → Nat → LaneOut} {n : Nat} {flags : Word} (x : Nat → Bool) (h : s.Issues v i)
    (hx : ∀ l, (f v l).ps = [(n, x l)] ∧ (f v l).vs = [])
    (hf : outFlags ((v.part g gn).map fun l => (l, f v l)) = flags) (ht : trapOf v.team.fctl flags = none) :
    ∃ t, s.laneOp i g gn len f = .next t ∧
      s.Retires t v v.warp (Writes.preds (v.takesPart g gn) n x flags) fun _ => v.pc + BitVec.ofNat 64 len := by
  refine State.laneOp_retires (wr := Writes.preds (v.takesPart g gn) n x flags) h ht (fun m l _ => ?_) (fun m l _ => ?_)
    rfl rfl hf
  · rw [(hx l).2]; simp [Writes.preds]
  · rw [(hx l).1, lastOf_one]
    simp only [Writes.preds]
    by_cases hm : m = n
    · subst hm; simp
    · simp [hm, Ne.symm hm]

/-! ## Flags -/

theorem raises_fold {α : Type} (l : List α) (f : α → Word) (bit : Word) (P : α → Prop)
    (h : ∀ a ∈ l, Raises (f a) bit (P a)) : Raises (l.foldl (fun g a => g ||| f a) 0) bit (∃ a ∈ l, P a) := by
  have key : ∀ (l : List α) (g : Word) (Q : Prop), Raises g bit Q → (∀ a ∈ l, Raises (f a) bit (P a)) →
      Raises (l.foldl (fun g a => g ||| f a) g) bit (Q ∨ ∃ a ∈ l, P a) := by
    intro l
    induction l with
    | nil => intro g Q hg _; simpa using hg
    | cons a l ih =>
      intro g Q hg h
      have hstep : Raises (g ||| f a) bit (Q ∨ P a) := by
        rcases hg with ⟨hq, rfl⟩ | ⟨hq, rfl⟩ <;> rcases h a List.mem_cons_self with ⟨ha, e⟩ | ⟨ha, e⟩ <;> rw [e]
        · exact .inl ⟨.inl hq, BitVec.or_self⟩
        · exact .inl ⟨.inl hq, BitVec.or_zero⟩
        · exact .inl ⟨.inr ha, BitVec.zero_or⟩
        · exact .inr ⟨fun h => h.elim hq ha, BitVec.or_zero⟩
      have := ih (g ||| f a) _ hstep fun b hb => h b (List.mem_cons_of_mem a hb)
      have he : (∃ b ∈ a :: l, P b) ↔ P a ∨ ∃ b ∈ l, P b := by simp
      rw [List.foldl_cons, he, ← or_assoc]
      exact this
  have := key l 0 False (.inr ⟨not_false, rfl⟩) h
  simpa using this

theorem raises_outFlags (v : View) (g : BitVec 3) (gn : BitVec 1) (f : Nat → LaneOut) (bit : Word) (P : Nat → Prop)
    (h : ∀ l, v.takesPart g gn l = true → Raises (f l).flags bit (P l)) :
    Raises (outFlags ((v.part g gn).map fun l => (l, f l))) bit (∃ l, v.takesPart g gn l = true ∧ P l) := by
  have := raises_fold (v.part g gn) (fun l => (f l).flags) bit P fun l hl => h l ((v.mem_part g gn l).mp hl)
  have he : outFlags ((v.part g gn).map fun l => (l, f l)) = (v.part g gn).foldl (fun a l => a ||| (f l).flags) 0 := by
    simp [outFlags, List.foldl_map]
  rw [he]
  simpa only [View.mem_part] using this

theorem trapOf_raises {fctl flags f : Word} {P : Prop} (h : Raises flags f P)
    (hf : f &&& flagESCX = 0 ∧ f &&& flagINV = 0 ∧ f &&& flagOVF = 0) : trapOf fctl flags = none := by
  rcases h with ⟨_, rfl⟩ | ⟨_, rfl⟩
  · simp [trapOf, hf.1, hf.2.1, hf.2.2]
  · exact trapOf_zero _

/-! ## Elements -/

theorem packElems_lt (n : Nat) (xs : List Nat) : packElems n xs < 2 ^ (n * xs.length) := by
  induction xs with
  | nil => simp [packElems]
  | cons x xs ih =>
    simp only [packElems, List.length_cons, Nat.mul_add, Nat.mul_one]
    have h1 : x % 2 ^ n < 2 ^ n := Nat.mod_lt _ (Nat.two_pow_pos n)
    rw [Nat.add_comm (n * xs.length), Nat.pow_add]
    calc x % 2 ^ n + 2 ^ n * packElems n xs < 2 ^ n + 2 ^ n * packElems n xs := by omega
      _ = 2 ^ n * (packElems n xs + 1) := by rw [Nat.mul_add]; omega
      _ ≤ _ := Nat.mul_le_mul_left _ ih

theorem bitsOf_packElems (n : Nat) (xs : List Nat) (j : Nat) (h : j < xs.length) :
    bitsOf (packElems n xs) (n * j) n = xs[j] % 2 ^ n := by
  induction xs generalizing j with
  | nil => simp at h
  | cons x xs ih =>
    have h1 : x % 2 ^ n < 2 ^ n := Nat.mod_lt _ (Nat.two_pow_pos n)
    cases j with
    | zero => simp [bitsOf, packElems]
    | succ j =>
      have := ih j (by simpa using h)
      simp only [List.getElem_cons_succ, ← this, bitsOf, packElems, Nat.mul_add, Nat.mul_one]
      rw [Nat.add_comm (n * j) n, Nat.pow_add, ← Nat.div_div_eq_div_mul, Nat.add_mul_div_left _ _ (Nat.two_pow_pos n),
        Nat.div_eq_of_lt h1, Nat.zero_add]

/-- A lane instruction whose elements are given one by one. -/
theorem State.laneOp_elements {s : State} {v : View} {i : Instr} {f : LR} {len : Nat} {g : View → Nat → LaneOut}
    {flags : Word} (outs : Nat → List Nat) (res : Nat → Nat → Nat) (h : s.Issues v i)
    (hx : ∀ l, (g v l).vs = writesOf f.w f.vd (packElems (elemBits f.w) (outs l)) ∧ (g v l).ps = [])
    (hl : ∀ l, (outs l).length = elemCount f.w)
    (hr : ∀ l j (hj : j < (outs l).length), v.takesPart f.g f.gn l = true → (outs l)[j] % 2 ^ elemBits f.w = res l j)
    (hf : outFlags ((v.part f.g f.gn).map fun l => (l, g v l)) = flags) (ht : trapOf v.team.fctl flags = none)
    (he : exec i s = s.laneOp i f.g f.gn len g) : s.Elementwise v i f len res flags := by
  obtain ⟨t, h1, h2⟩ := State.laneOp_lanes (fun l => packElems (elemBits f.w) (outs l)) h hx hf ht
  refine ⟨fun l => packElems (elemBits f.w) (outs l), fun l hp j hj => ?_, t, he.trans h1, h2⟩
  rw [bitsOf_packElems _ _ _ (hl l ▸ hj), hr l j (hl l ▸ hj) hp]

/-! ## Uniform registers and predicates -/

theorem Slice.s_setS (sl : Slice) (n r : Nat) (x : Word) : (sl.setS n x).s r = if r = n then x else sl.s r := by
  simp only [Slice.s, Slice.setS, Tab.get_put]

theorem Slice.getQ_setQ (sl : Slice) (n m : Nat) (b : Bool) (hm : m < 7) :
    (sl.setQ n b).getQ m = if m = n then b else sl.getQ m := by
  unfold Slice.setQ
  split
  · next hn =>
    have : n = 7 := by simpa using hn
    simp [show m ≠ n by omega]
  · have hm7 : (m == 7) = false := by simp; omega
    have hb : (BitVec.ofNat 7 (2 ^ n)).getLsbD m = decide (m = n) := by
      rw [BitVec.getLsbD_ofNat, Nat.testBit_two_pow]
      by_cases h : m = n
      · simp [h, h ▸ hm]
      · simp [h, Ne.symm h]
    simp only [Slice.getQ, hm7, Bool.false_or]
    generalize BitVec.ofNat 7 (2 ^ n) = bit at hb ⊢
    by_cases h : m = n
    · subst h
      cases b <;> simp [BitVec.getLsbD_or, BitVec.getLsbD_and, BitVec.getLsbD_not, hb, hm, -BitVec.getLsbD_eq_getElem]
    · cases b <;> simp [BitVec.getLsbD_or, BitVec.getLsbD_and, BitVec.getLsbD_not, hb, h, hm, -BitVec.getLsbD_eq_getElem]

theorem Slice.setQ_frame (sl : Slice) (n : Nat) (b : Bool) : sl.setQ n b = { sl with q := (sl.setQ n b).q } := by
  unfold Slice.setQ; split <;> rfl

/-- Every slice of the mask writes what o says. -/
def Writes.ofUni (mask : BitVec 8) (o : UOut) : Writes where
  s := fun k r => if mask.getLsbD k then lastOf o.ss r else none
  q := fun k n => if mask.getLsbD k then lastOf o.qs n else none
  flags := o.flags

theorem Warp.setS_same (w : Warp) (mask : BitVec 8) (n : Nat) (x : Word) : w.SameBut (w.setS mask n x) :=
  Warp.foldl_modSl_same (slicesOf mask) (fun k => k) (fun _ sl => sl.setS n x) w

theorem Warp.setQ_same (w : Warp) (mask : BitVec 8) (n : Nat) (b : Bool) : w.SameBut (w.setQ mask n b) :=
  Warp.foldl_modSl_same (slicesOf mask) (fun k => k) (fun _ sl => sl.setQ n b) w

/-- A slice that differs from a in its uniform registers and predicates as these writes say. -/
structure Slice.Wrote (b a : Slice) (s : Nat → Option Word) (q : Nat → Option Bool) : Prop where
  rest  : b = { a with sregs := b.sregs, q := b.q }
  sregs : ∀ r, b.s r = (s r).getD (a.s r)
  qregs : ∀ n, n < 7 → b.getQ n = (q n).getD (a.getQ n)

theorem Slice.Wrote.refl (a : Slice) : a.Wrote a (fun _ => none) (fun _ => none) := ⟨rfl, fun _ => rfl, fun _ _ => rfl⟩

/-- A warp that differs from b in the slices of the mask, each as the writes say. -/
structure Warp.WroteUni (w b : Warp) (mask : BitVec 8) (s : Nat → Option Word) (q : Nat → Option Bool) : Prop where
  rest   : b.SameBut w
  slices : ∀ k, (w.sl k).Wrote (b.sl k) (if mask.getLsbD k then s else fun _ => none) (if mask.getLsbD k then q else fun _ => none)

theorem Warp.WroteUni.wrote {w b : Warp} {mask : BitVec 8} {s : Nat → Option Word} {q : Nat → Option Bool}
    (h : w.WroteUni b mask s q) (f : Word) :
    w.Wrote b { s := fun k r => if mask.getLsbD k then s r else none, q := fun k n => if mask.getLsbD k then q n else none
                flags := f } := by
  have hr := h.rest
  rw [Warp.SameBut] at hr
  refine ⟨by rw [hr], fun r l _ => ?_, fun n l _ _ => ?_, fun k => ?_, fun k r => ?_, fun k n hn => ?_⟩
  · simp only [Option.getD_none, Warp.v]; rw [hr]
  · simp only [Option.getD_none, Warp.p]; rw [hr]
  · exact (h.slices k).rest
  · rw [(h.slices k).sregs r]; by_cases hm : mask.getLsbD k = true <;> simp [hm]
  · rw [(h.slices k).qregs n hn]; by_cases hm : mask.getLsbD k = true <;> simp [hm]

theorem Warp.setS_wroteUni {w b : Warp} {mask : BitVec 8} {s : Nat → Option Word} {q : Nat → Option Bool}
    (h : w.WroteUni b mask s q) (n : Nat) (x : Word) :
    (w.setS mask n x).WroteUni b mask (fun r => if r = n then some x else s r) q := by
  refine ⟨?_, fun k => ?_⟩
  · have h1 := h.rest; have h2 := Warp.setS_same w mask n x
    rw [Warp.SameBut] at *; rw [h2, h1]
  · have hk := h.slices k
    rw [Warp.setS, Warp.sl_modSls]
    by_cases hm : mask.getLsbD k = true
    · simp only [hm, if_true] at hk ⊢
      refine ⟨?_, fun r => ?_, fun m hm' => ?_⟩
      · rw [Slice.setS, hk.rest]
      · rw [Slice.s_setS]; split <;> simp [hk.sregs]
      · exact hk.qregs m hm'
    · simp only [hm] at hk ⊢; exact hk

theorem Warp.setQ_wroteUni {w b : Warp} {mask : BitVec 8} {s : Nat → Option Word} {q : Nat → Option Bool}
    (h : w.WroteUni b mask s q) (n : Nat) (x : Bool) :
    (w.setQ mask n x).WroteUni b mask s (fun r => if r = n then some x else q r) := by
  refine ⟨?_, fun k => ?_⟩
  · have h1 := h.rest; have h2 := Warp.setQ_same w mask n x
    rw [Warp.SameBut] at *; rw [h2, h1]
  · have hk := h.slices k
    rw [Warp.setQ, Warp.sl_modSls]
    by_cases hm : mask.getLsbD k = true
    · simp only [hm, if_true] at hk ⊢
      refine ⟨?_, fun r => ?_, fun m hm' => ?_⟩
      · rw [Slice.setQ_frame, hk.rest]
      · rw [Slice.setQ_frame]; exact hk.sregs r
      · rw [Slice.getQ_setQ _ _ _ _ hm']; split <;> simp [hk.qregs m hm']
    · simp only [hm] at hk ⊢; exact hk

theorem lastOf_step {α : Type} (x : Nat × α) (l : List (Nat × α)) (b : Nat → Option α) (r : Nat) :
    (lastOf l r).or (if r = x.1 then some x.2 else b r) = (lastOf (x :: l) r).or (b r) := by
  rw [lastOf_cons]
  by_cases h : x.1 = r
  · cases lastOf l r <;> simp [h]
  · cases lastOf l r <;> simp [h, Ne.symm h]

theorem Warp.foldl_setS_wroteUni (ss : List (Nat × Word)) {w b : Warp} {mask : BitVec 8} {s : Nat → Option Word}
    {q : Nat → Option Bool} (h : w.WroteUni b mask s q) :
    (ss.foldl (fun w x => w.setS mask x.1 x.2) w).WroteUni b mask (fun r => (lastOf ss r).or (s r)) q := by
  induction ss generalizing w s with
  | nil => simpa using h
  | cons x ss ih =>
    have := ih (Warp.setS_wroteUni h x.1 x.2)
    simp only [lastOf_step] at this
    exact this

theorem Warp.foldl_setQ_wroteUni (qs : List (Nat × Bool)) {w b : Warp} {mask : BitVec 8} {s : Nat → Option Word}
    {q : Nat → Option Bool} (h : w.WroteUni b mask s q) :
    (qs.foldl (fun w x => w.setQ mask x.1 x.2) w).WroteUni b mask s (fun r => (lastOf qs r).or (q r)) := by
  induction qs generalizing w q with
  | nil => simpa using h
  | cons x qs ih =>
    have := ih (Warp.setQ_wroteUni h x.1 x.2)
    simp only [lastOf_step] at this
    exact this

theorem Warp.writeUni_wrote (w : Warp) (mask : BitVec 8) (o : UOut) : (w.writeUni mask o).Wrote w (Writes.ofUni mask o) := by
  have h0 : w.WroteUni w mask (fun _ => none) (fun _ => none) := ⟨rfl, fun k => by simpa using Slice.Wrote.refl _⟩
  have := (Warp.foldl_setQ_wroteUni o.qs (Warp.foldl_setS_wroteUni o.ss h0)).wrote o.flags
  simp only [Option.or_none] at this
  exact this

/-- A guarded uniform instruction whose guard holds writes its result. -/
theorem State.uniOp_retires {s : State} {v : View} {i : Instr} {q : BitVec 3} {n : BitVec 1} {len : Nat}
    {g : View → Except Trap UOut} {o : UOut} {wr : Writes} (h : s.Issues v i) (hq : v.qGuard q n = true)
    (hg : g v = .ok o) (ht : trapOf v.team.fctl o.flags = none)
    (hv : wr.v = fun _ _ => none) (hp : wr.p = fun _ _ => none)
    (hs : ∀ k r, wr.s k r = if v.split.mask.getLsbD k then lastOf o.ss r else none)
    (hqq : ∀ k m, wr.q k m = if v.split.mask.getLsbD k then lastOf o.qs m else none) (hf : wr.flags = o.flags) :
    ∃ t, s.uniOp i q n len g = .next t ∧ s.Retires t v v.warp wr fun _ => v.pc + BitVec.ofNat 64 len := by
  refine ⟨_, State.uniOp_ok h.1 h.2.1 hq hg ht, ?_⟩
  refine State.Retires.congr (State.retire_retires (wr := Writes.ofUni v.split.mask o) len h.1
    (Warp.writeUni_wrote v.warp _ o)) (fun r l _ => by rw [hv]; rfl) (fun m l _ => by rw [hp]; rfl) ?_ ?_ hf.symm
  · funext k r; rw [hs]; rfl
  · funext k m; rw [hqq]; rfl

/-- A uniform instruction whose guard is false only goes on. -/
theorem State.uniOp_skips {s : State} {v : View} {i : Instr} {q : BitVec 3} {n : BitVec 1} {len : Nat}
    {g : View → Except Trap UOut} (h : s.Issues v i) (hq : v.qGuard q n = false) :
    ∃ t, s.uniOp i q n len g = .next t ∧ s.Retires t v v.warp {} fun _ => v.pc + BitVec.ofNat 64 len :=
  ⟨_, State.uniOp_skip h.1 h.2.1 hq, State.retire_retires (wr := {}) len h.1 (Warp.Wrote.refl _)⟩

end Sys2Proof.Machine
end

