-- ==== Sys2Proof/Laws/Cross.lean ====
section
/-!
SUPPORT. Wide extents said once: a split that holds its extents alone runs the instruction at once, one whose extents are
scattered waits (spec/03 R40, spec/11 R195).
-/

namespace Sys2Proof.Machine

theorem getLsbD_foldl_or_mask {α : Type} (l : List α) (g : α → BitVec 8) (m : BitVec 8) (k : Nat) :
    (l.foldl (fun x y => x ||| g y) m).getLsbD k = true ↔ m.getLsbD k = true ∨ ∃ y ∈ l, (g y).getLsbD k = true := by
  induction l generalizing m with
  | nil => simp
  | cons y l ih => rw [List.foldl_cons, ih, BitVec.getLsbD_or]; simp [or_assoc]

theorem mem_maskUnion (ps : List Split) (k : Nat) :
    (maskUnion ps).getLsbD k = true ↔ ∃ sp ∈ ps, sp.mask.getLsbD k = true := by
  unfold maskUnion
  rw [getLsbD_foldl_or_mask]
  simp

theorem getLsbD_of_and_not {a m : BitVec 8} (h : a &&& ~~~m = 0) {k : Nat} (hk : a.getLsbD k = true) : m.getLsbD k = true := by
  have hb := congrArg (fun m : BitVec 8 => m.getLsbD k) h
  have hk8 : k < 8 := BitVec.lt_of_getLsbD hk
  simpa [BitVec.getLsbD_and, BitVec.getLsbD_not, hk, hk8, -BitVec.getLsbD_eq_getElem] using hb

theorem and_not_eq_zero {a m : BitVec 8} (h : ∀ k, a.getLsbD k = true → m.getLsbD k = true) : a &&& ~~~m = 0 := by
  apply BitVec.eq_of_getLsbD_eq
  intro k hk
  cases ha : a.getLsbD k
  · simp [ha, -BitVec.getLsbD_eq_getElem]
  · simp [ha, h k ha, hk, -BitVec.getLsbD_eq_getElem]

/-- The slices of an extent, by slice. -/
theorem getLsbD_extentSlices (width : Nat) (mask : BitVec 8) (k : Nat) (hk : k < 8) :
    (extentSlices width mask).getLsbD k = true ↔ ∃ j, mask.getLsbD j = true ∧ j / (width / 4) = k / (width / 4) := by
  unfold extentSlices
  rw [getLsbD_maskOf _ _ hk, decide_eq_true_eq, List.mem_filter, List.any_eq_true]
  constructor
  · rintro ⟨-, j, hj, he⟩
    exact ⟨j, (slicesOf_lt hj).2, by simpa using he⟩
  · rintro ⟨j, hj, he⟩
    exact ⟨by simpa using hk, j, by simpa [slicesOf, hj] using BitVec.lt_of_getLsbD hj, by simpa using he⟩

/-- What is left is of the list, and complete among itself when the rounds suffice. -/
theorem completeSplits_spec (width : Nat) (live : BitVec 8) : ∀ (n : Nat) (ps : List Split), ps.length ≤ n →
    (∀ sp ∈ completeSplits width live n ps, sp ∈ ps) ∧
    ∀ sp ∈ completeSplits width live n ps,
      extentSlices width sp.mask &&& live &&& ~~~(maskUnion (completeSplits width live n ps)) = 0 := by
  intro n
  induction n with
  | zero =>
    intro ps h
    rw [List.eq_nil_of_length_eq_zero (Nat.le_zero.mp h)]
    exact ⟨fun _ h => h, fun _ h => by cases h⟩
  | succ n ih =>
    intro ps h
    simp only [completeSplits]
    generalize hq : ps.filter (fun sp => extentSlices width sp.mask &&& live &&& ~~~(maskUnion ps) == 0) = q
    have hsub : ∀ sp ∈ q, sp ∈ ps := fun sp hs => by rw [← hq] at hs; exact (List.mem_filter.mp hs).1
    by_cases hl : q.length ≤ n
    · exact ⟨fun sp hs => hsub sp ((ih q hl).1 sp hs), (ih q hl).2⟩
    · have hle : ps.length ≤ q.length := by omega
      have he : q = ps := by
        rw [← hq] at hle ⊢
        exact (List.filter_sublist).eq_of_length_le hle
      have hfix : ∀ m, completeSplits width live m q = q := by
        intro m
        induction m with
        | zero => rfl
        | succ m ihm => simp only [completeSplits]; rw [he, hq]; exact ihm.trans he
      rw [hfix n]
      refine ⟨hsub, fun sp hs => ?_⟩
      have hs' := hs
      rw [← hq] at hs'
      simpa [he] using (List.mem_filter.mp hs').2

theorem State.view_split {s : State} {v : View} (h : s.view? = some v) : v.split ∈ v.warp.splits :=
  List.mem_of_find?_eq_some (State.viewOf?_some h).2.2

theorem foldl_or_same {α : Type} (l : List α) (g : α → BitVec 8) (m : BitVec 8) (hne : l ≠ []) (h : ∀ y ∈ l, g y = m) :
    l.foldl (fun x y => x ||| g y) 0 = m := by
  have key : ∀ l : List α, (∀ y ∈ l, g y = m) → ∀ a, a = m → l.foldl (fun x y => x ||| g y) a = m := by
    intro l
    induction l with
    | nil => intro _ a ha; exact ha
    | cons y l ih =>
      intro h a ha
      rw [List.foldl_cons]
      exact ih (fun z hz => h z (List.mem_cons_of_mem y hz)) _ (by rw [h y List.mem_cons_self, ha, BitVec.or_self])
  cases l with
  | nil => exact absurd rfl hne
  | cons y l =>
    rw [List.foldl_cons]
    exact key l (fun z hz => h z (List.mem_cons_of_mem y hz)) _ (by rw [h y List.mem_cons_self]; exact BitVec.zero_or)

/-- A split that holds its extents alone goes on at once. -/
theorem State.gather_here {s : State} {v : View} {width : Nat} {part : Option Nat}
    {k : State → View → Except Trap State} (hv : s.view? = some v) (hg : v.Gathered width) :
    s.gather v width part k = k s v := by
  unfold State.gather
  split
  · rfl
  · next hw =>
    rcases hg with hg | ⟨h1, h2⟩
    · exact absurd hg hw
    · have hin := State.view_split hv
      have hall : ∀ sp ∈ v.warp.splits.filter (fun sp => sp.pc == v.pc), sp.mask = v.split.mask := fun sp hs => by
        obtain ⟨h3, h4⟩ := List.mem_filter.mp hs
        exact h2 sp h3 (by simpa using h4)
      have hmem : v.split ∈ v.warp.splits.filter (fun sp => sp.pc == v.pc) := List.mem_filter.mpr ⟨hin, by simp [View.pc]⟩
      have hmask : maskUnion (v.warp.splits.filter fun sp => sp.pc == v.pc) = v.split.mask :=
        foldl_or_same _ _ _ (List.ne_nil_of_mem hmem) hall
      have hready : v.warp.readySplits width v.pc = v.warp.splits.filter fun sp => sp.pc == v.pc := by
        have hf : ∀ n, completeSplits width v.warp.liveSlices n (v.warp.splits.filter fun sp => sp.pc == v.pc) =
            v.warp.splits.filter fun sp => sp.pc == v.pc := by
          intro n
          induction n with
          | zero => rfl
          | succ n ihn =>
            simp only [completeSplits, hmask]
            rw [List.filter_eq_self.mpr fun sp hs => by rw [hall sp hs]; simpa using h1]
            exact ihn
        exact hf _
      have he : v.warp.extentReady width v.pc v.split = true := by
        unfold Warp.extentReady
        rw [hready, List.any_eq_true]
        exact ⟨v.split, hmem, by simp⟩
      simp only [he, hready, hmask, Bool.not_true, Bool.false_eq_true, if_false, if_true]

/-- A split whose extents are scattered waits. -/
theorem State.gather_waits {s : State} {v : View} {width : Nat} {part : Option Nat}
    {k : State → View → Except Trap State} (hg : v.Scattered width) : s.gather v width part k = .ok (s.stall v 15) := by
  obtain ⟨hw, hno⟩ := hg
  unfold State.gather
  rw [if_neg (by omega)]
  have : v.warp.extentReady width v.pc v.split = false := by
    rw [Bool.eq_false_iff]
    intro hr
    obtain ⟨a, ha, hm⟩ := List.any_eq_true.mp hr
    have hm : a.mask = v.split.mask := by simpa using hm
    obtain ⟨hsub, hfull⟩ := completeSplits_spec width v.warp.liveSlices v.warp.splits.length
      (v.warp.splits.filter fun sp => sp.pc == v.pc) (List.length_filter_le _ _)
    refine hno (maskUnion (v.warp.readySplits width v.pc)) ⟨fun k hk => ?_, and_not_eq_zero fun k hk => ?_⟩
      (and_not_eq_zero fun k hk => (mem_maskUnion _ _).mpr ⟨a, ha, hm ▸ hk⟩)
    · obtain ⟨sp, hs, hb⟩ := (mem_maskUnion _ _).mp hk
      obtain ⟨h3, h4⟩ := List.mem_filter.mp (hsub sp hs)
      exact ⟨sp, h3, by simpa using h4, hb, and_not_eq_zero fun j hj => (mem_maskUnion _ _).mpr ⟨sp, hs, hj⟩⟩
    · rw [BitVec.getLsbD_and, Bool.and_eq_true] at hk
      obtain ⟨j, hj, he⟩ := (getLsbD_extentSlices _ _ _ (BitVec.lt_of_getLsbD hk.1)).mp hk.1
      obtain ⟨sp, hs, hb⟩ := (mem_maskUnion _ _).mp hj
      refine getLsbD_of_and_not (hfull sp hs) (k := k) ?_
      rw [BitVec.getLsbD_and, Bool.and_eq_true]
      exact ⟨(getLsbD_extentSlices _ _ _ (BitVec.lt_of_getLsbD hk.1)).mpr ⟨j, hb, he⟩, hk.2⟩
  simp [this]

/-- A list of lane results, committed. -/
theorem State.commitOuts {s : State} {v : View} {i : Instr} {outs : View → List (Nat × LaneOut)} {w : View → Nat} {part : View → Option Nat} {wr : Writes}
    (h : s.Issues v i) (hg : v.Gathered (w v))
    (he : exec i s = s.run i fun v => s.gather v (w v) (part v) fun s v => s.trapHere v (s.commitLanes v 8 (outs v)))
    (hw : (v.warp.writeLanes (outs v)).Wrote v.warp wr) (hf : outFlags (outs v) = wr.flags) : s.ComputesOrTraps i v 8 wr := by
  have hrun : ∀ r, s.trapHere v (s.commitLanes v 8 (outs v)) = .ok r → exec i s = .next r := fun r hr => by
    rw [he]; exact State.run_ok h.1 h.2.1 (by rw [State.gather_here h.1 hg]; exact hr)
  refine ⟨fun ht => ⟨_, hrun (s.retire v (v.warp.writeLanes (outs v)) wr.flags 8) ?_, State.retire_retires 8 h.1 hw⟩,
    fun t ht => hrun _ ?_⟩
  · simp only [State.commitLanes, hf, ht, State.trapHere]
  · simp only [State.commitLanes, hf, ht, State.trapHere]

theorem View.part_tile (v : View) (g : BitVec 3) (gn : BitVec 1) (l : Nat) :
    (v.part g gn).filter (fun m => m / v.warp.tileWidth == l / v.warp.tileWidth) = v.tile g gn l := by
  simp only [View.part, View.lanes, View.tile, List.filter_filter]
  apply List.filter_congr
  intro m hm
  simp only [List.mem_range] at hm
  simp only [View.takesPart, hm, decide_true, Bool.true_and]
  cases v.laneOn m <;> cases v.pGuard g gn m <;> simp

/-- A tile collective gives each participating lane what F says of its tile. -/
theorem State.tileOp_computes {s : State} {v : View} {i : Instr} {f : LR} {c : Bool} {F : View → Nat → List Nat → Nat → LaneOut} {wr : Writes}
    (h : s.Issues v i) (hg : v.Gathered v.warp.tileWidth) (he : exec i s = s.tileOp i f c F)
    (hv : ∀ r l, l < 32 → wr.v r l = if v.takesPart f.g f.gn l then lastOf (F v v.warp.tileWidth (v.tile f.g f.gn l) l).vs r else none)
    (hp : ∀ n l, l < 32 → wr.p n l = if v.takesPart f.g f.gn l then lastOf (F v v.warp.tileWidth (v.tile f.g f.gn l) l).ps n else none)
    (hs : wr.s = fun _ _ => none) (hq : wr.q = fun _ _ => none)
    (hf : outFlags ((v.part f.g f.gn).map fun l => (l, F v v.warp.tileWidth (v.tile f.g f.gn l) l)) = wr.flags) :
    s.ComputesOrTraps i v 8 wr := by
  have hw := Warp.writeLanes_wrote v.warp _ (v.part_nodup f.g f.gn) (v.part_lt f.g f.gn) (fun l => F v v.warp.tileWidth (v.tile f.g f.gn l) l)
  have he' : exec i s = s.run i fun v => s.gather v v.warp.tileWidth (if c then some v.warp.tileWidth else none) fun s v' =>
      s.trapHere v' (s.commitLanes v' 8 ((v'.part f.g f.gn).map fun l => (l, F v' v.warp.tileWidth ((v'.part f.g f.gn).filter fun m => m / v.warp.tileWidth == l / v.warp.tileWidth) l))) := he
  have hrun : ∀ r, s.trapHere v (s.commitLanes v 8 ((v.part f.g f.gn).map fun l => (l, F v v.warp.tileWidth (v.tile f.g f.gn l) l))) = .ok r → exec i s = .next r := fun r hr => by
    rw [he']; refine State.run_ok h.1 h.2.1 ?_
    rw [State.gather_here h.1 hg]
    simp only [View.part_tile]; exact hr
  refine ⟨fun ht => ⟨_, hrun (s.retire v (v.warp.writeLanes ((v.part f.g f.gn).map fun l =>
    (l, F v v.warp.tileWidth (v.tile f.g f.gn l) l))) wr.flags 8) ?_, ?_⟩, fun t ht => hrun _ ?_⟩
  · simp only [State.commitLanes, hf, ht, State.trapHere]
  · have hr := State.retire_retires (s := s) 8 h.1 hw
    have hfl : (Writes.ofLanes (v.part f.g f.gn) fun l => F v v.warp.tileWidth (v.tile f.g f.gn l) l).flags = wr.flags := hf
    rw [hfl] at hr
    refine State.Retires.congr hr (fun r l hl => ?_) (fun n l hl => ?_) hs.symm hq.symm hfl
    · simp only [Writes.ofLanes, hv r l hl, View.mem_part]
    · simp only [Writes.ofLanes, hp n l hl, View.mem_part]
  · simp only [State.commitLanes, hf, ht, State.trapHere]

end Sys2Proof.Machine
end

