-- ==== Sys2Proof/Laws/Encode.lean ====
section
/-!
SUPPORT. The formats: reading the fields of words that were written from fields gives them back, and a well-formed
instruction decodes from its words when its opcode row reads it.
-/

namespace Sys2Proof

theorem LR.op_word0 (f : LR) (op : BitVec 8) :
    (f.word0 op).getLsbD 31 = false ∧ (f.word0 op).getLsbD 30 = true ∧ opField (f.word0 op) = op := by
  refine ⟨by simp only [LR.word0, BitVec.getLsbD_append]; rfl, by simp only [LR.word0, BitVec.getLsbD_append]; rfl, ?_⟩
  apply BitVec.eq_of_getLsbD_eq; intro i hi
  simp only [opField, LR.word0, BitVec.getLsbD_extractLsb', BitVec.getLsbD_append, hi, decide_true, Bool.true_and]
  repeat (rw [if_neg (by omega)])
  rw [if_pos (by omega)]; congr 1; omega

theorem LR.ofWords_words (f : LR) (op : BitVec 8) : LR.ofWords (f.word0 op) f.word1 = f := by
  obtain ⟨vd, va, g, gn, w, vb, vc, m, s⟩ := f
  simp only [LR.ofWords, LR.word0, LR.word1, LR.mk.injEq]
  refine ⟨?_, ?_, ?_, ?_, ?_, ?_, ?_, ?_, ?_⟩ <;>
  · apply BitVec.eq_of_getLsbD_eq; intro i hi
    simp only [BitVec.getLsbD_extractLsb', BitVec.getLsbD_append, hi, decide_true, Bool.true_and]
    repeat (rw [if_neg (by omega)])
    try rw [if_pos (by omega)]
    congr 1; try omega

theorem LI.op_word0 (f : LI) (op : BitVec 8) :
    (f.word0 op).getLsbD 31 = false ∧ (f.word0 op).getLsbD 30 = true ∧ opField (f.word0 op) = op := by
  refine ⟨by simp only [LI.word0, BitVec.getLsbD_append]; rfl, by simp only [LI.word0, BitVec.getLsbD_append]; rfl, ?_⟩
  apply BitVec.eq_of_getLsbD_eq; intro i hi
  simp only [opField, LI.word0, BitVec.getLsbD_extractLsb', BitVec.getLsbD_append, hi, decide_true, Bool.true_and]
  repeat (rw [if_neg (by omega)])
  rw [if_pos (by omega)]; congr 1; omega

theorem LI.ofWords_words (f : LI) (op : BitVec 8) : LI.ofWords (f.word0 op) f.imm = f := by
  obtain ⟨vd, va, g, gn, w, imm⟩ := f
  simp only [LI.ofWords, LI.word0, LI.mk.injEq]
  refine ⟨?_, ?_, ?_, ?_, ?_, trivial⟩ <;>
  · apply BitVec.eq_of_getLsbD_eq; intro i hi
    simp only [BitVec.getLsbD_extractLsb', BitVec.getLsbD_append, hi, decide_true, Bool.true_and]
    repeat (rw [if_neg (by omega)])
    try rw [if_pos (by omega)]
    congr 1; try omega

theorem LU.op_word0 (f : LU) (op : BitVec 8) (sub : BitVec 6) :
    (f.word0 op sub).getLsbD 31 = false ∧ (f.word0 op sub).getLsbD 30 = false ∧ opField (f.word0 op sub) = op := by
  refine ⟨by simp only [LU.word0, BitVec.getLsbD_append]; rfl, by simp only [LU.word0, BitVec.getLsbD_append]; rfl, ?_⟩
  apply BitVec.eq_of_getLsbD_eq; intro i hi
  simp only [opField, LU.word0, BitVec.getLsbD_extractLsb', BitVec.getLsbD_append, hi, decide_true, Bool.true_and]
  repeat (rw [if_neg (by omega)])
  rw [if_pos (by omega)]; congr 1; omega

theorem LU.ofWords_words (f : LU) (op : BitVec 8) (sub : BitVec 6) : LU.ofWord (f.word0 op sub) = f := by
  obtain ⟨vd, va⟩ := f
  simp only [LU.ofWord, LU.word0, LU.mk.injEq]
  refine ⟨?_, ?_⟩ <;>
  · apply BitVec.eq_of_getLsbD_eq; intro i hi
    simp only [BitVec.getLsbD_extractLsb', BitVec.getLsbD_append, hi, decide_true, Bool.true_and]
    repeat (rw [if_neg (by omega)])
    try rw [if_pos (by omega)]
    congr 1; try omega

theorem LM.op_word0 (f : LM) (op : BitVec 8) :
    (f.word0 op).getLsbD 31 = false ∧ (f.word0 op).getLsbD 30 = true ∧ opField (f.word0 op) = op := by
  refine ⟨by simp only [LM.word0, BitVec.getLsbD_append]; rfl, by simp only [LM.word0, BitVec.getLsbD_append]; rfl, ?_⟩
  apply BitVec.eq_of_getLsbD_eq; intro i hi
  simp only [opField, LM.word0, BitVec.getLsbD_extractLsb', BitVec.getLsbD_append, hi, decide_true, Bool.true_and]
  repeat (rw [if_neg (by omega)])
  rw [if_pos (by omega)]; congr 1; omega

theorem LM.ofWords_words (f : LM) (op : BitVec 8) : LM.ofWords (f.word0 op) f.word1 = f := by
  obtain ⟨vd, va, g, gn, sp, size, scope, order, hint, off⟩ := f
  simp only [LM.ofWords, LM.word0, LM.word1, LM.mk.injEq]
  refine ⟨?_, ?_, ?_, ?_, ?_, ?_, ?_, ?_, ?_, ?_⟩ <;>
  · apply BitVec.eq_of_getLsbD_eq; intro i hi
    simp only [BitVec.getLsbD_extractLsb', BitVec.getLsbD_append, hi, decide_true, Bool.true_and]
    repeat (rw [if_neg (by omega)])
    try rw [if_pos (by omega)]
    congr 1; try omega

theorem LB.op_word0 (f : LB) (op : BitVec 8) :
    (f.word0 op).getLsbD 31 = false ∧ (f.word0 op).getLsbD 30 = true ∧ opField (f.word0 op) = op := by
  refine ⟨by simp only [LB.word0, BitVec.getLsbD_append]; rfl, by simp only [LB.word0, BitVec.getLsbD_append]; rfl, ?_⟩
  apply BitVec.eq_of_getLsbD_eq; intro i hi
  simp only [opField, LB.word0, BitVec.getLsbD_extractLsb', BitVec.getLsbD_append, hi, decide_true, Bool.true_and]
  repeat (rw [if_neg (by omega)])
  rw [if_pos (by omega)]; congr 1; omega

theorem LB.ofWords_words (f : LB) (op : BitVec 8) : LB.ofWords (f.word0 op) f.word1 = f := by
  obtain ⟨p, neg, off, hi, mid, lo⟩ := f
  simp only [LB.ofWords, LB.word0, LB.word1, LB.mk.injEq]
  refine ⟨?_, ?_, ?_, ?_, ?_, ?_⟩ <;>
  · apply BitVec.eq_of_getLsbD_eq; intro i hi
    simp only [BitVec.getLsbD_extractLsb', BitVec.getLsbD_append, hi, decide_true, Bool.true_and]
    repeat (rw [if_neg (by omega)])
    try rw [if_pos (by omega)]
    congr 1; try omega

theorem UR.op_word0 (f : UR) (op : BitVec 8) :
    (f.word0 op).getLsbD 31 = true ∧ (f.word0 op).getLsbD 30 = false ∧ opField (f.word0 op) = op := by
  refine ⟨by simp only [UR.word0, BitVec.getLsbD_append]; rfl, by simp only [UR.word0, BitVec.getLsbD_append]; rfl, ?_⟩
  apply BitVec.eq_of_getLsbD_eq; intro i hi
  simp only [opField, UR.word0, BitVec.getLsbD_extractLsb', BitVec.getLsbD_append, hi, decide_true, Bool.true_and]
  repeat (rw [if_neg (by omega)])
  rw [if_pos (by omega)]; congr 1; omega

theorem UR.ofWords_words (f : UR) (op : BitVec 8) : UR.ofWord (f.word0 op) = f := by
  obtain ⟨d, a, b, q, n⟩ := f
  simp only [UR.ofWord, UR.word0, UR.mk.injEq]
  refine ⟨?_, ?_, ?_, ?_, ?_⟩ <;>
  · apply BitVec.eq_of_getLsbD_eq; intro i hi
    simp only [BitVec.getLsbD_extractLsb', BitVec.getLsbD_append, hi, decide_true, Bool.true_and]
    repeat (rw [if_neg (by omega)])
    try rw [if_pos (by omega)]
    congr 1; try omega

theorem UI.op_word0 (f : UI) (op : BitVec 8) :
    (f.word0 op).getLsbD 31 = true ∧ (f.word0 op).getLsbD 30 = true ∧ opField (f.word0 op) = op := by
  refine ⟨by simp only [UI.word0, BitVec.getLsbD_append]; rfl, by simp only [UI.word0, BitVec.getLsbD_append]; rfl, ?_⟩
  apply BitVec.eq_of_getLsbD_eq; intro i hi
  simp only [opField, UI.word0, BitVec.getLsbD_extractLsb', BitVec.getLsbD_append, hi, decide_true, Bool.true_and]
  repeat (rw [if_neg (by omega)])
  rw [if_pos (by omega)]; congr 1; omega

theorem UI.ofWords_words (f : UI) (op : BitVec 8) : UI.ofWords (f.word0 op) f.imm = f := by
  obtain ⟨d, a, b, q, n, imm⟩ := f
  simp only [UI.ofWords, UI.word0, UI.mk.injEq]
  refine ⟨?_, ?_, ?_, ?_, ?_, trivial⟩ <;>
  · apply BitVec.eq_of_getLsbD_eq; intro i hi
    simp only [BitVec.getLsbD_extractLsb', BitVec.getLsbD_append, hi, decide_true, Bool.true_and]
    repeat (rw [if_neg (by omega)])
    try rw [if_pos (by omega)]
    congr 1; try omega

theorem UB.op_word0 (f : UB) (op : BitVec 8) :
    (f.word0 op).getLsbD 31 = true ∧ (f.word0 op).getLsbD 30 = false ∧ opField (f.word0 op) = op := by
  refine ⟨by simp only [UB.word0, BitVec.getLsbD_append]; rfl, by simp only [UB.word0, BitVec.getLsbD_append]; rfl, ?_⟩
  apply BitVec.eq_of_getLsbD_eq; intro i hi
  simp only [opField, UB.word0, BitVec.getLsbD_extractLsb', BitVec.getLsbD_append, hi, decide_true, Bool.true_and]
  repeat (rw [if_neg (by omega)])
  rw [if_pos (by omega)]; congr 1; omega

theorem UB.ofWords_words (f : UB) (op : BitVec 8) : UB.ofWord (f.word0 op) = f := by
  obtain ⟨q, n, off⟩ := f
  simp only [UB.ofWord, UB.word0, UB.mk.injEq]
  refine ⟨?_, ?_, ?_⟩ <;>
  · apply BitVec.eq_of_getLsbD_eq; intro i hi
    simp only [BitVec.getLsbD_extractLsb', BitVec.getLsbD_append, hi, decide_true, Bool.true_and]
    repeat (rw [if_neg (by omega)])
    try rw [if_pos (by omega)]
    congr 1; try omega

theorem UE.op_word0 (f : UE) (op : BitVec 8) :
    (f.word0 op).getLsbD 31 = true ∧ (f.word0 op).getLsbD 30 = true ∧ opField (f.word0 op) = op := by
  refine ⟨by simp only [UE.word0, BitVec.getLsbD_append]; rfl, by simp only [UE.word0, BitVec.getLsbD_append]; rfl, ?_⟩
  apply BitVec.eq_of_getLsbD_eq; intro i hi
  simp only [opField, UE.word0, BitVec.getLsbD_extractLsb', BitVec.getLsbD_append, hi, decide_true, Bool.true_and]
  repeat (rw [if_neg (by omega)])
  rw [if_pos (by omega)]; congr 1; omega

theorem UE.ofWords_words (f : UE) (op : BitVec 8) : UE.ofWords (f.word0 op) f.w1 = f := by
  obtain ⟨d, a, b, sub, w1⟩ := f
  simp only [UE.ofWords, UE.word0, UE.mk.injEq]
  refine ⟨?_, ?_, ?_, ?_, trivial⟩ <;>
  · apply BitVec.eq_of_getLsbD_eq; intro i hi
    simp only [BitVec.getLsbD_extractLsb', BitVec.getLsbD_append, hi, decide_true, Bool.true_and]
    repeat (rw [if_neg (by omega)])
    try rw [if_pos (by omega)]
    congr 1; try omega

theorem UW.op_word0 (f : UW) (op : BitVec 8) :
    (f.word0 op).getLsbD 31 = true ∧ (f.word0 op).getLsbD 30 = false ∧ opField (f.word0 op) = op := by
  refine ⟨by simp only [UW.word0, BitVec.getLsbD_append]; rfl, by simp only [UW.word0, BitVec.getLsbD_append]; rfl, ?_⟩
  apply BitVec.eq_of_getLsbD_eq; intro i hi
  simp only [opField, UW.word0, BitVec.getLsbD_extractLsb', BitVec.getLsbD_append, hi, decide_true, Bool.true_and]
  repeat (rw [if_neg (by omega)])
  rw [if_pos (by omega)]; congr 1; omega

theorem UW.ofWords_words (f : UW) (op : BitVec 8) : UW.ofWord (f.word0 op) = f := by
  obtain ⟨ld, st, cp, mb, mode⟩ := f
  simp only [UW.ofWord, UW.word0, UW.mk.injEq]
  refine ⟨?_, ?_, ?_, ?_, ?_⟩ <;>
  · apply BitVec.eq_of_getLsbD_eq; intro i hi
    simp only [BitVec.getLsbD_extractLsb', BitVec.getLsbD_append, hi, decide_true, Bool.true_and]
    repeat (rw [if_neg (by omega)])
    try rw [if_pos (by omega)]
    congr 1; try omega

theorem LU.sub_word0 (f : LU) (op : BitVec 8) (sub : BitVec 6) : (f.word0 op sub).extractLsb' 0 6 = sub := by
  apply BitVec.eq_of_getLsbD_eq; intro i hi
  simp only [LU.word0, BitVec.getLsbD_extractLsb', BitVec.getLsbD_append, hi, decide_true, Bool.true_and]
  rw [if_pos (by omega)]; congr 1; omega

/-! ## From a row of the opcode table to the decoder -/

/-- What decides on word 0 also decides on both: an instruction whose row reads its two words, and whose word 0 alone is
accepted, decodes. -/
theorem decode_of {w0 w1 : Word} {i j : Instr} (h0 : rawDecode w0 0 = some j) (hj : j.wf0 = true)
    (h : rawDecode w0 w1 = some i) (hi : i.wf = true) : decode w0 w1 = .ok i := by
  simp only [decode, word0Ok, h0, hj, h, hi, if_true]

theorem Instr.wf0_of_wf {i : Instr} (h : i.wf = true) : i.wf0 = true := by
  simp only [Instr.wf, Bool.and_eq_true] at h; exact h.1

theorem rawDecode_lane2 {w0 : Word} (h : w0.getLsbD 31 = false) (h' : w0.getLsbD 30 = true) (w1 : Word) :
    rawDecode w0 w1 = decodeLane2 (opField w0) w0 w1 := by simp only [rawDecode, h, h']; rfl

theorem rawDecode_lane1 {w0 : Word} (h : w0.getLsbD 31 = false) (h' : w0.getLsbD 30 = false) (w1 : Word) :
    rawDecode w0 w1 = decodeLane1 (opField w0) w0 := by simp only [rawDecode, h, h']; rfl

theorem rawDecode_uni2 {w0 : Word} (h : w0.getLsbD 31 = true) (h' : w0.getLsbD 30 = true) (w1 : Word) :
    rawDecode w0 w1 = decodeUni2 (opField w0) w0 w1 := by simp only [rawDecode, h, h']; rfl

theorem rawDecode_uni1 {w0 : Word} (h : w0.getLsbD 31 = true) (h' : w0.getLsbD 30 = false) (w1 : Word) :
    rawDecode w0 w1 = decodeUni1 (opField w0) w0 := by simp only [rawDecode, h, h']; rfl

/-- A row of the LR format that reads every word: its well-formed instructions decode from their words. -/
theorem LR.round {f : LR} (c : LR → Instr) (op : BitVec 8) (h : ∀ w0 w1, decodeLane2 op w0 w1 = some (c (LR.ofWords w0 w1)))
    (h0 : ∀ w0 w1, (c (LR.ofWords w0 0)).wf0 = (c (LR.ofWords w0 w1)).wf0) (hi : (c f).wf = true) :
    decode (f.word0 op) f.word1 = .ok (c f) := by
  obtain ⟨h31, h30, ho⟩ := f.op_word0 op
  have hw := LR.ofWords_words f op
  refine decode_of (j := c (LR.ofWords (f.word0 op) 0)) (by rw [rawDecode_lane2 h31 h30, ho, h]) ?_ ?_ hi
  · rw [h0 _ (f.word1), hw]; exact Instr.wf0_of_wf hi
  · rw [rawDecode_lane2 h31 h30, ho, h, hw]

/-- A row of the LI format that reads every word: its well-formed instructions decode from their words. -/
theorem LI.round {f : LI} (c : LI → Instr) (op : BitVec 8) (h : ∀ w0 w1, decodeLane2 op w0 w1 = some (c (LI.ofWords w0 w1)))
    (h0 : ∀ w0 w1, (c (LI.ofWords w0 0)).wf0 = (c (LI.ofWords w0 w1)).wf0) (hi : (c f).wf = true) :
    decode (f.word0 op) f.imm = .ok (c f) := by
  obtain ⟨h31, h30, ho⟩ := f.op_word0 op
  have hw := LI.ofWords_words f op
  refine decode_of (j := c (LI.ofWords (f.word0 op) 0)) (by rw [rawDecode_lane2 h31 h30, ho, h]) ?_ ?_ hi
  · rw [h0 _ (f.imm), hw]; exact Instr.wf0_of_wf hi
  · rw [rawDecode_lane2 h31 h30, ho, h, hw]

/-- A row of the LM format that reads every word: its well-formed instructions decode from their words. -/
theorem LM.round {f : LM} (c : LM → Instr) (op : BitVec 8) (h : ∀ w0 w1, decodeLane2 op w0 w1 = some (c (LM.ofWords w0 w1)))
    (h0 : ∀ w0 w1, (c (LM.ofWords w0 0)).wf0 = (c (LM.ofWords w0 w1)).wf0) (hi : (c f).wf = true) :
    decode (f.word0 op) f.word1 = .ok (c f) := by
  obtain ⟨h31, h30, ho⟩ := f.op_word0 op
  have hw := LM.ofWords_words f op
  refine decode_of (j := c (LM.ofWords (f.word0 op) 0)) (by rw [rawDecode_lane2 h31 h30, ho, h]) ?_ ?_ hi
  · rw [h0 _ (f.word1), hw]; exact Instr.wf0_of_wf hi
  · rw [rawDecode_lane2 h31 h30, ho, h, hw]

/-- A row of the LB format that reads every word: its well-formed instructions decode from their words. -/
theorem LB.round {f : LB} (c : LB → Instr) (op : BitVec 8) (h : ∀ w0 w1, decodeLane2 op w0 w1 = some (c (LB.ofWords w0 w1)))
    (h0 : ∀ w0 w1, (c (LB.ofWords w0 0)).wf0 = (c (LB.ofWords w0 w1)).wf0) (hi : (c f).wf = true) :
    decode (f.word0 op) f.word1 = .ok (c f) := by
  obtain ⟨h31, h30, ho⟩ := f.op_word0 op
  have hw := LB.ofWords_words f op
  refine decode_of (j := c (LB.ofWords (f.word0 op) 0)) (by rw [rawDecode_lane2 h31 h30, ho, h]) ?_ ?_ hi
  · rw [h0 _ (f.word1), hw]; exact Instr.wf0_of_wf hi
  · rw [rawDecode_lane2 h31 h30, ho, h, hw]

/-- A row of the UI format that reads every word: its well-formed instructions decode from their words. -/
theorem UI.round {f : UI} (c : UI → Instr) (op : BitVec 8) (h : ∀ w0 w1, decodeUni2 op w0 w1 = some (c (UI.ofWords w0 w1)))
    (h0 : ∀ w0 w1, (c (UI.ofWords w0 0)).wf0 = (c (UI.ofWords w0 w1)).wf0) (hi : (c f).wf = true) :
    decode (f.word0 op) f.imm = .ok (c f) := by
  obtain ⟨h31, h30, ho⟩ := f.op_word0 op
  have hw := UI.ofWords_words f op
  refine decode_of (j := c (UI.ofWords (f.word0 op) 0)) (by rw [rawDecode_uni2 h31 h30, ho, h]) ?_ ?_ hi
  · rw [h0 _ (f.imm), hw]; exact Instr.wf0_of_wf hi
  · rw [rawDecode_uni2 h31 h30, ho, h, hw]

/-- A row of the UE format that reads every word: its well-formed instructions decode from their words. -/
theorem UE.round {f : UE} (c : UE → Instr) (op : BitVec 8) (h : ∀ w0 w1, decodeUni2 op w0 w1 = some (c (UE.ofWords w0 w1)))
    (h0 : ∀ w0 w1, (c (UE.ofWords w0 0)).wf0 = (c (UE.ofWords w0 w1)).wf0) (hi : (c f).wf = true) :
    decode (f.word0 op) f.w1 = .ok (c f) := by
  obtain ⟨h31, h30, ho⟩ := f.op_word0 op
  have hw := UE.ofWords_words f op
  refine decode_of (j := c (UE.ofWords (f.word0 op) 0)) (by rw [rawDecode_uni2 h31 h30, ho, h]) ?_ ?_ hi
  · rw [h0 _ (f.w1), hw]; exact Instr.wf0_of_wf hi
  · rw [rawDecode_uni2 h31 h30, ho, h, hw]

theorem UR.round {f : UR} (c : UR → Instr) (op : BitVec 8) (h : ∀ w0, decodeUni1 op w0 = some (c (UR.ofWord w0)))
    (hi : (c f).wf = true) : decode (f.word0 op) 0 = .ok (c f) := by
  obtain ⟨h31, h30, ho⟩ := f.op_word0 op
  have h' : rawDecode (f.word0 op) 0 = some (c f) := by rw [rawDecode_uni1 h31 h30, ho, h, UR.ofWords_words]
  exact decode_of h' (Instr.wf0_of_wf hi) h' hi

theorem UB.round {f : UB} (c : UB → Instr) (op : BitVec 8) (h : ∀ w0, decodeUni1 op w0 = some (c (UB.ofWord w0)))
    (hi : (c f).wf = true) : decode (f.word0 op) 0 = .ok (c f) := by
  obtain ⟨h31, h30, ho⟩ := f.op_word0 op
  have h' : rawDecode (f.word0 op) 0 = some (c f) := by rw [rawDecode_uni1 h31 h30, ho, h, UB.ofWords_words]
  exact decode_of h' (Instr.wf0_of_wf hi) h' hi

theorem UW.round {f : UW} (c : UW → Instr) (op : BitVec 8) (h : ∀ w0, decodeUni1 op w0 = some (c (UW.ofWord w0)))
    (hi : (c f).wf = true) : decode (f.word0 op) 0 = .ok (c f) := by
  obtain ⟨h31, h30, ho⟩ := f.op_word0 op
  have h' : rawDecode (f.word0 op) 0 = some (c f) := by rw [rawDecode_uni1 h31 h30, ho, h, UW.ofWords_words]
  exact decode_of h' (Instr.wf0_of_wf hi) h' hi

theorem LU.round {f : LU} (c : LU → Instr) (op : BitVec 8) (sub : BitVec 6)
    (h : ∀ w0 : Word, w0.extractLsb' 0 6 = sub → decodeLane1 op w0 = some (c (LU.ofWord w0))) (hi : (c f).wf = true) :
    decode (f.word0 op sub) 0 = .ok (c f) := by
  obtain ⟨h31, h30, ho⟩ := f.op_word0 op sub
  have h' : rawDecode (f.word0 op sub) 0 = some (c f) := by
    rw [rawDecode_lane1 h31 h30, ho, h _ (f.sub_word0 op sub), LU.ofWords_words]
  exact decode_of h' (Instr.wf0_of_wf hi) h' hi

end Sys2Proof
end

