-- ==== Sys2Proof/Laws/Memory.lean ====
section
/-!
SUPPORT. Every operation over memory, scratchpad and L1 keeps their canonical form (State.memoryOk), and reset has it.
-/

namespace Sys2Proof.Machine

/-! ## Sorted tables without a default -/

/-- The keys of a table rise strictly. -/
def Tab.Rises {α : Type} (t : List (Nat × α)) : Prop := (t.map (·.1)).Pairwise (· < ·)

theorem Tab.rises_nil {α : Type} : Tab.Rises ([] : List (Nat × α)) := List.Pairwise.nil

theorem Tab.rises_filter {α : Type} {t : List (Nat × α)} (p : Nat × α → Bool) (h : Tab.Rises t) :
    Tab.Rises (t.filter p) :=
  List.Pairwise.sublist (List.filter_sublist.map _) h

theorem Tab.rises_del {α : Type} {t : List (Nat × α)} (q : Nat) (h : Tab.Rises t) : Tab.Rises (Tab.del t q) := by
  have : (Tab.del t q).Sublist t := by
    clear h
    induction t with
    | nil => exact .slnil
    | cons e t ih =>
      simp only [Tab.del]
      split
      · exact .cons _ ih
      · exact .cons_cons _ ih
  exact List.Pairwise.sublist (this.map _) h

theorem Tab.mem_keys_ins {α : Type} {t : List (Nat × α)} {q k : Nat} {x : α} (h : k ∈ (Tab.ins t q x).map (·.1)) :
    k = q ∨ k ∈ t.map (·.1) := by
  induction t with
  | nil => simpa [Tab.ins] using h
  | cons e t ih =>
    obtain ⟨j, v⟩ := e
    simp only [Tab.ins] at h
    split at h
    · simpa using h
    · split at h
      · next hq => subst hq; simp only [List.map_cons, List.mem_cons] at h ⊢; exact h.elim .inl fun h => .inr (.inr h)
      · simp only [List.map_cons, List.mem_cons] at h ⊢
        exact h.elim (fun h => .inr (.inl h)) fun h => (ih h).elim .inl fun h => .inr (.inr h)

theorem Tab.rises_ins {α : Type} {t : List (Nat × α)} (q : Nat) (x : α) (h : Tab.Rises t) : Tab.Rises (Tab.ins t q x) := by
  induction t with
  | nil => simp [Tab.Rises, Tab.ins]
  | cons e t ih =>
    obtain ⟨k, v⟩ := e
    simp only [Tab.Rises, List.map_cons, List.pairwise_cons] at h
    simp only [Tab.ins]
    split
    · next hq =>
      simp only [Tab.Rises, List.map_cons, List.pairwise_cons, List.mem_cons, forall_eq_or_imp]
      exact ⟨⟨hq, fun a ha => Nat.lt_trans hq (h.1 a ha)⟩, h⟩
    · split
      · next hq => subst hq; simpa only [Tab.Rises, List.map_cons, List.pairwise_cons] using h
      · simp only [Tab.Rises, List.map_cons, List.pairwise_cons]
        refine ⟨fun a ha => ?_, ih h.2⟩
        rcases Tab.mem_keys_ins ha with rfl | ha
        · omega
        · exact h.1 a ha

theorem Tab.rises_foldl {α β : Type} {f : List (Nat × α) → β → List (Nat × α)} (hf : ∀ t b, Tab.Rises t → Tab.Rises (f t b))
    (l : List β) : ∀ {t : List (Nat × α)}, Tab.Rises t → Tab.Rises (l.foldl f t) := by
  induction l with
  | nil => intro t h; exact h
  | cons b l ih => intro t h; exact ih (hf t b h)

theorem Tab.wf_foldl {α β : Type} [DecidableEq α] {d : α} {f : List (Nat × α) → β → List (Nat × α)}
    (hf : ∀ t b, Tab.wf d t = true → Tab.wf d (f t b) = true) (l : List β) :
    ∀ {t : List (Nat × α)}, Tab.wf d t = true → Tab.wf d (l.foldl f t) = true := by
  induction l with
  | nil => intro t h; exact h
  | cons b l ih => intro t h; exact ih (hf t b h)

/-! ## The parts of a state -/

/-- State.memoryOk of the three lists it looks at. -/
def MemParts (m x : List Host.Cell) (l1 : List (Nat × List (Nat × L1Byte))) : Prop :=
  Memory.wf m = true ∧ Memory.wf x = true ∧ ∀ c, ((Tab.get [] l1 c).map (·.1)).Pairwise (· < ·)

/-- The memory of s is in its form; written so that a change of any other field is none. -/
abbrev State.Keeps (s : State) : Prop := MemParts s.mem s.scratch s.l1

theorem State.memoryOk_iff {s : State} : s.memoryOk ↔ s.Keeps := Iff.rfl

/-- State.reset has its memory in the form. -/
theorem State.reset_memoryOk : State.reset.memoryOk := ⟨rfl, rfl, fun _ => List.Pairwise.nil⟩

theorem foldl_keeps {α : Type} {f : State → α → State} (hf : ∀ s a, s.Keeps → (f s a).Keeps) (l : List α) :
    ∀ {s : State}, s.Keeps → (l.foldl f s).Keeps := by
  induction l with
  | nil => intro s h; exact h
  | cons a l ih => intro s h; exact ih (hf s a h)

theorem foldl_keeps_fst {α β : Type} {f : State × β → α → State × β} (hf : ∀ s a, s.1.Keeps → (f s a).1.Keeps) (l : List α) :
    ∀ {s : State × β}, s.1.Keeps → (l.foldl f s).1.Keeps := by
  induction l with
  | nil => intro s h; exact h
  | cons a l ih => intro s h; exact ih (hf s a h)

theorem MemParts.putRange {m x : List Host.Cell} {l1 : List (Nat × List (Nat × L1Byte))} (h : MemParts m x l1) (q : Nat)
    (bs : List Byte) : MemParts (Tab.putRange Memory.unwritten m q bs) x l1 := ⟨Tab.wf_putRange bs h.1 q, h.2⟩

theorem MemParts.filter {m x : List Host.Cell} {l1 : List (Nat × List (Nat × L1Byte))} (h : MemParts m x l1)
    (p : Host.Cell → Bool) : MemParts (m.filter p) x l1 := ⟨Tab.wf_filter p h.1, h.2⟩

theorem MemParts.scratch {m x y : List Host.Cell} {l1 : List (Nat × List (Nat × L1Byte))} (h : MemParts m x l1)
    (hy : Memory.wf y = true) : MemParts m y l1 := ⟨h.1, hy, h.2.2⟩

theorem MemParts.setL1 {m x : List Host.Cell} {l1 : List (Nat × List (Nat × L1Byte))} (h : MemParts m x l1) (core : Nat)
    {t : List (Nat × L1Byte)} (ht : Tab.Rises t) : MemParts m x (Tab.put [] l1 core t) := by
  refine ⟨h.1, h.2.1, fun c => ?_⟩
  rw [Tab.get_put]
  split
  · exact ht
  · exact h.2.2 c

theorem State.l1Of_rises {s : State} (h : s.Keeps) (core : Nat) : Tab.Rises (s.l1Of core) := h.2.2 core

/-! ## The operations of Mem.lean -/

variable {s : State}

theorem State.writeHome_keeps (h : s.Keeps) (key : Nat) (bs : List Byte) : (s.writeHome key bs).Keeps := h.putRange key bs

theorem State.farFill_keeps (h : s.Keeps) (die key : Nat) : (s.farFill die key).Keeps := h
theorem State.farRefresh_keeps (h : s.Keeps) (die key n : Nat) : (s.farRefresh die key n).Keeps := h

theorem State.writeThrough_keeps (h : s.Keeps) (die key : Nat) (bs : List Byte) : (s.writeThrough die key bs).Keeps := by
  unfold State.writeThrough; dsimp only; split <;> exact State.writeHome_keeps h key bs

theorem State.fillBelow_keeps (h : s.Keeps) (die key : Nat) : (s.fillBelow die key).Keeps := by
  unfold State.fillBelow; split <;> exact h

theorem State.engineWrite_keeps (h : s.Keeps) (die key : Nat) (bs : List Byte) : (s.engineWrite die key bs).Keeps :=
  State.writeThrough_keeps h die key bs

theorem State.scrWrite_keeps (h : s.Keeps) (cluster off : Nat) (bs : List Byte) : (s.scrWrite cluster off bs).Keeps :=
  MemParts.scratch h (Tab.wf_putRange bs h.2.1 _)

theorem State.setL1_keeps (h : s.Keeps) (core : Nat) {t : List (Nat × L1Byte)} (ht : Tab.Rises t) : (s.setL1 core t).Keeps :=
  MemParts.setL1 h core ht

theorem State.dropClean_keeps (h : s.Keeps) (core : Nat) (p : Nat → Bool) : (s.dropClean core p).Keeps :=
  State.setL1_keeps h core (Tab.rises_filter _ (State.l1Of_rises h core))

theorem State.ctxWrite?_keeps (h : s.Keeps) {ctx va : Nat} {bs : List Byte} {t : State} (ht : s.ctxWrite? ctx va bs = some t) :
    t.Keeps := by
  unfold State.ctxWrite? at ht
  split at ht
  · cases ht; exact State.engineWrite_keeps h _ _ _
  · cases ht

theorem State.fqPut_keeps (h : s.Keeps) (c : Nat) (bs : List Byte) : (s.fqPut c bs).Keeps := by
  unfold State.fqPut
  dsimp only
  split
  · next u ht => exact (State.ctxWrite?_keeps h ht : u.Keeps)
  · exact h

theorem State.faultRecord_keeps (h : s.Keeps) (c kind code : Nat) (inst core : Word) (addr : Nat) (info : Word) :
    (s.faultRecord c kind code inst core addr info).Keeps := by
  unfold State.faultRecord
  dsimp only
  split
  · exact State.fqPut_keeps (s := s.modCtx c _) h _ _
  · exact h

theorem State.pageRecords_keeps (h : s.Keeps) (c : Nat) : (s.pageRecords c).Keeps := by
  unfold State.pageRecords
  refine foldl_keeps (fun t r ht => ?_) _ h
  dsimp only
  split
  · exact ht
  · exact State.fqPut_keeps (s := t.modCtx c _) ht _ _

theorem State.requestPage_keeps (h : s.Keeps) (c va level : Nat) (inst core info : Word) (who : Requester) :
    (s.requestPage c va level inst core info who).1.Keeps := by
  unfold State.requestPage
  dsimp only
  split
  · exact h
  · refine State.pageRecords_keeps ?_ c; exact h

theorem State.unitXlate_keeps (h : s.Keeps) (c va : Nat) (kind : Access) (who : Requester) (inst core : Word) :
    (s.unitXlate c va kind who inst core).1.Keeps := by
  unfold State.unitXlate
  split
  · exact h
  · split
    · exact h
    · split
      · exact h
      · exact h
      · exact State.requestPage_keeps h ..

theorem State.logPut_keeps (h : s.Keeps) (c : Nat) (bs : List Byte) : (s.logPut c bs).Keeps := by
  unfold State.logPut
  dsimp only
  split
  · next u ht => exact (State.ctxWrite?_keeps h ht : u.Keeps)
  · exact h

theorem State.logEntry_keeps (h : s.Keeps) (c : Nat) (inst third : Word) : (s.logEntry c inst third).Keeps := by
  unfold State.logEntry
  dsimp only
  split
  · exact h
  · split
    · exact h
    · exact State.logPut_keeps (s := { s with seqNo := s.seqNo + 1 }) h ..

theorem State.writeBack_keeps (h : s.Keeps) (core : Nat) (p : Nat × L1Byte → Bool) : (s.writeBack core p).Keeps := by
  unfold State.writeBack
  exact foldl_keeps (fun t e ht => State.setL1_keeps (State.writeThrough_keeps ht ..) _
    (Tab.rises_ins _ _ (State.l1Of_rises ht core))) _ h

theorem State.endChunk_keeps (h : s.Keeps) (uid : Nat) : (s.endChunk uid).Keeps := by
  unfold State.endChunk
  split
  · split
    · exact State.logEntry_keeps (State.writeBack_keeps h ..) ..
    · exact h
  · exact h

theorem State.flushIf_keeps (h : s.Keeps) (core : Nat) (p : Nat → Bool) : (s.flushIf core p).Keeps := by
  unfold State.flushIf
  exact foldl_keeps (fun t e ht => State.endChunk_keeps ht _) _ (State.writeBack_keeps h ..)

theorem State.flushRange_keeps (h : s.Keeps) (core key n : Nat) : (s.flushRange core key n).Keeps := State.flushIf_keeps h ..
theorem State.flushCore_keeps (h : s.Keeps) (core : Nat) : (s.flushCore core).Keeps := State.flushIf_keeps h ..

theorem State.loadWeak_keeps (h : s.Keeps) (core key n : Nat) (alloc : Bool) : (s.loadWeak core key n alloc).1.Keeps := by
  unfold State.loadWeak
  dsimp only
  split
  · exact h
  · split
    · refine State.setL1_keeps (State.fillBelow_keeps h ..) _ (Tab.rises_foldl (fun t i ht => ?_) _ (State.l1Of_rises h core))
      split
      · exact ht
      · exact Tab.rises_ins _ _ ht
    · exact State.fillBelow_keeps h ..

theorem dirtyBytes_rises (owner : Nat) (bs : List Byte) : ∀ {t : List (Nat × L1Byte)} (key : Nat), Tab.Rises t →
    Tab.Rises (dirtyBytes t owner key bs) := by
  induction bs with
  | nil => intro t key h; exact h
  | cons b bs ih => intro t key h; exact ih (key + 1) (Tab.rises_ins _ _ h)

theorem State.storeWeak_keeps (h : s.Keeps) (core owner key : Nat) (bs : List Byte) (alloc : Bool) :
    (s.storeWeak core owner key bs alloc).Keeps := by
  unfold State.storeWeak
  split
  · exact State.setL1_keeps h _ (dirtyBytes_rises _ _ _ (State.l1Of_rises h core))
  · exact State.writeThrough_keeps h ..

theorem State.release_keeps (h : s.Keeps) (core scope : Nat) : (s.release core scope).Keeps := by
  unfold State.release; split
  · exact h
  · exact State.flushCore_keeps h core

theorem State.bumpFar_keeps (h : s.Keeps) (die : Nat) : (s.bumpFar die).Keeps := h

theorem State.acquire_keeps (h : s.Keeps) (core scope : Nat) : (s.acquire core scope).Keeps := by
  unfold State.acquire
  split
  · exact h
  · have h' := State.dropClean_keeps h core fun _ => true
    dsimp only
    split <;> exact h'

theorem State.strongLoad_keeps (h : s.Keeps) (core scope key n : Nat) (alloc : Bool) :
    (s.strongLoad core scope key n alloc).1.Keeps := by
  unfold State.strongLoad
  split
  · exact State.loadWeak_keeps h ..
  · have h' := State.dropClean_keeps (State.flushRange_keeps h core key n) core fun k => key ≤ k && k < key + n
    dsimp only
    split
    · exact State.fillBelow_keeps h' ..
    · dsimp only; split <;> exact h'

theorem State.strongStore_keeps (h : s.Keeps) (core owner scope key : Nat) (bs : List Byte) (alloc : Bool) :
    (s.strongStore core owner scope key bs alloc).Keeps := by
  unfold State.strongStore
  split
  · exact State.storeWeak_keeps h ..
  · refine State.writeThrough_keeps (State.setL1_keeps h _ (Tab.rises_foldl (fun t i ht => ?_) _ (State.l1Of_rises h core))) ..
    split
    · exact Tab.rises_ins _ _ ht
    · exact ht

theorem State.loadBytes_keeps (h : s.Keeps) (core scope order key n : Nat) (alloc : Bool) :
    (s.loadBytes core scope order key n alloc).1.Keeps := by
  unfold State.loadBytes
  split
  · exact State.loadWeak_keeps h ..
  · dsimp only
    split
    · exact State.acquire_keeps (State.strongLoad_keeps h ..) ..
    · exact State.strongLoad_keeps h ..

theorem State.storeBytes_keeps (h : s.Keeps) (core owner scope order key : Nat) (bs : List Byte) (alloc : Bool) :
    (s.storeBytes core owner scope order key bs alloc).Keeps := by
  unfold State.storeBytes
  split
  · exact State.storeWeak_keeps h ..
  · split
    · exact State.strongStore_keeps (State.release_keeps h ..) ..
    · exact State.strongStore_keeps h ..

theorem State.loadConst_keeps (h : s.Keeps) (core key n : Nat) : (s.loadConst core key n).1.Keeps := by
  have h' := State.fillBelow_keeps h (dieOfCore core) key
  unfold State.loadConst
  generalize s.fillBelow (dieOfCore core) key = u at h' ⊢
  exact h'

/-! ## The operations of Access.lean -/

theorem State.loadLoc_keeps (h : s.Keeps) (core scope order : Nat) (l : Loc) (n : Nat) (alloc : Bool) :
    (s.loadLoc core scope order l n alloc).1.Keeps := by
  unfold State.loadLoc
  split
  · dsimp only; split
    · exact State.acquire_keeps h ..
    · exact h
  · exact State.loadBytes_keeps h ..

theorem State.storeLoc_keeps (h : s.Keeps) (core owner scope order : Nat) (l : Loc) (bs : List Byte) (alloc : Bool) :
    (s.storeLoc core owner scope order l bs alloc).Keeps := by
  unfold State.storeLoc
  split
  · have h' : (if isRelease order then s.release core 1 else s).Keeps := by
      split
      · exact State.release_keeps h ..
      · exact h
    exact MemParts.scratch h' (Tab.wf_putRange bs h'.2.1 _)
  · exact State.storeBytes_keeps h ..

theorem State.atomStep_keeps (h : s.Keeps) (core owner : Nat) (r : AtomReq) : (s.atomStep core owner r).1.Keeps := by
  have hr : ∀ c, (if isRelease r.order.toNat then s.release core c else s).Keeps := fun c => by
    split
    · exact State.release_keeps h ..
    · exact h
  unfold State.atomStep
  dsimp only
  split
  · split
    · refine State.acquire_keeps ?_ ..
      exact MemParts.scratch (hr _) (Tab.wf_putRange _ (hr _).2.1 _)
    · exact MemParts.scratch (hr _) (Tab.wf_putRange _ (hr _).2.1 _)
  · have h' := State.strongLoad_keeps (hr r.scope.toNat) core (if r.scope.toNat < 2 then r.scope.toNat else 3) r.key r.bytes true
    split
    · exact State.acquire_keeps (State.strongStore_keeps h' ..) ..
    · exact State.strongStore_keeps h' ..

theorem State.atomNext_keeps (h : s.Keeps) (m : MemOp) : (s.atomNext m).Keeps := by
  unfold State.atomNext
  split
  · exact h
  · exact State.atomStep_keeps h ..

theorem State.atomAll_keeps : ∀ (fuel id : Nat) {s : State}, s.Keeps → (State.atomAll fuel id s).Keeps := by
  intro fuel id
  induction fuel with
  | zero => intro s h; exact h
  | succ n ih =>
    intro s h
    simp only [State.atomAll]
    split
    · split
      · exact h
      · exact ih (State.atomNext_keeps h _)
    · exact h

theorem State.settleAtoms_keeps (h : s.Keeps) (team warp : Nat) : (s.settleAtoms team warp).Keeps :=
  foldl_keeps (fun _ m ht => State.atomAll_keeps m.atoms.length m.id ht) _ h

end Sys2Proof.Machine
end

