-- ==== Sys2Proof/Laws/PerInstr.lean ====
section
/-!
SUPPORT. Per instruction: decoding the words of its encoding gives it back (spec/09 R127 to R149). A step that no word
encodes is not well-formed, and its case is empty.
-/

namespace Sys2Proof.Laws.RoundTrip

/-- A well-formed instruction decodes from the words of its encoding. -/
def Statement (i : Instr) : Prop := i.wf = true → decode (encode i).1 ((encode i).2.getD 0) = .ok i

theorem of_not_wf {i : Instr} (h : i.wf = false) : Statement i := fun hi => absurd hi (by rw [h]; decide)

theorem illegalInstruction (w0 : Word) (why : Reject) : Statement (.illegalInstruction w0 why) := of_not_wf rfl
theorem iadd (f : LR) : Statement (.iadd f) := LR.round .iadd 0x01 (fun _ _ => rfl) fun _ _ => rfl
theorem isub (f : LR) : Statement (.isub f) := LR.round .isub 0x02 (fun _ _ => rfl) fun _ _ => rfl
theorem imul (f : LR) : Statement (.imul f) := LR.round .imul 0x03 (fun _ _ => rfl) fun _ _ => rfl
theorem imad (f : LR) : Statement (.imad f) := LR.round .imad 0x04 (fun _ _ => rfl) fun _ _ => rfl
theorem imin (f : LR) : Statement (.imin f) := LR.round .imin 0x05 (fun _ _ => rfl) fun _ _ => rfl
theorem imax (f : LR) : Statement (.imax f) := LR.round .imax 0x06 (fun _ _ => rfl) fun _ _ => rfl
theorem iabs (f : LR) : Statement (.iabs f) := LR.round .iabs 0x07 (fun _ _ => rfl) fun _ _ => rfl
theorem iabsLu (f : LU) : Statement (.iabsLu f) := LU.round .iabsLu 0x07 0 fun _ h => by simp [decodeLane1, h]
theorem shl (f : LR) : Statement (.shl f) := LR.round .shl 0x08 (fun _ _ => rfl) fun _ _ => rfl
theorem shr (f : LR) : Statement (.shr f) := LR.round .shr 0x09 (fun _ _ => rfl) fun _ _ => rfl
theorem sar (f : LR) : Statement (.sar f) := LR.round .sar 0x0A (fun _ _ => rfl) fun _ _ => rfl
theorem blut (f : LR) : Statement (.blut f) := LR.round .blut 0x0B (fun _ _ => rfl) fun _ _ => rfl
theorem popc (f : LR) : Statement (.popc f) := LR.round .popc 0x0C (fun _ _ => rfl) fun _ _ => rfl
theorem popcLu (f : LU) : Statement (.popcLu f) := LU.round .popcLu 0x0C 0 fun _ h => by simp [decodeLane1, h]
theorem clz (f : LR) : Statement (.clz f) := LR.round .clz 0x0D (fun _ _ => rfl) fun _ _ => rfl
theorem clzLu (f : LU) : Statement (.clzLu f) := LU.round .clzLu 0x0D 0 fun _ h => by simp [decodeLane1, h]
theorem brev (f : LR) : Statement (.brev f) := LR.round .brev 0x0E (fun _ _ => rfl) fun _ _ => rfl
theorem brevLu (f : LU) : Statement (.brevLu f) := LU.round .brevLu 0x0E 0 fun _ h => by simp [decodeLane1, h]
theorem bfe (f : LR) : Statement (.bfe f) := LR.round .bfe 0x0F (fun _ _ => rfl) fun _ _ => rfl
theorem bfi (f : LR) : Statement (.bfi f) := LR.round .bfi 0x10 (fun _ _ => rfl) fun _ _ => rfl
theorem sel (f : LR) : Statement (.sel f) := LR.round .sel 0x11 (fun _ _ => rfl) fun _ _ => rfl
theorem icmp (f : LR) : Statement (.icmp f) := LR.round .icmp 0x12 (fun _ _ => rfl) fun _ _ => rfl
theorem lea (f : LR) : Statement (.lea f) := LR.round .lea 0x13 (fun _ _ => rfl) fun _ _ => rfl
theorem idot4 (f : LR) : Statement (.idot4 f) := LR.round .idot4 0x14 (fun _ _ => rfl) fun _ _ => rfl
theorem clmul (f : LR) : Statement (.clmul f) := LR.round .clmul 0x15 (fun _ _ => rfl) fun _ _ => rfl
theorem fadd (f : LR) : Statement (.fadd f) := LR.round .fadd 0x20 (fun _ _ => rfl) fun _ _ => rfl
theorem fsub (f : LR) : Statement (.fsub f) := LR.round .fsub 0x21 (fun _ _ => rfl) fun _ _ => rfl
theorem fmul (f : LR) : Statement (.fmul f) := LR.round .fmul 0x22 (fun _ _ => rfl) fun _ _ => rfl
theorem ffma (f : LR) : Statement (.ffma f) := LR.round .ffma 0x23 (fun _ _ => rfl) fun _ _ => rfl
theorem fmin (f : LR) : Statement (.fmin f) := LR.round .fmin 0x24 (fun _ _ => rfl) fun _ _ => rfl
theorem fmax (f : LR) : Statement (.fmax f) := LR.round .fmax 0x25 (fun _ _ => rfl) fun _ _ => rfl
theorem fcmp (f : LR) : Statement (.fcmp f) := LR.round .fcmp 0x26 (fun _ _ => rfl) fun _ _ => rfl
theorem fclass (f : LR) : Statement (.fclass f) := LR.round .fclass 0x27 (fun _ _ => rfl) fun _ _ => rfl
theorem frnd (f : LR) : Statement (.frnd f) := LR.round .frnd 0x28 (fun _ _ => rfl) fun _ _ => rfl
theorem frcp (f : LR) : Statement (.frcp f) := LR.round .frcp 0x29 (fun _ _ => rfl) fun _ _ => rfl
theorem frcpLu (f : LU) : Statement (.frcpLu f) := LU.round .frcpLu 0x29 0 fun _ h => by simp [decodeLane1, h]
theorem frsq (f : LR) : Statement (.frsq f) := LR.round .frsq 0x2A (fun _ _ => rfl) fun _ _ => rfl
theorem frsqLu (f : LU) : Statement (.frsqLu f) := LU.round .frsqLu 0x2A 0 fun _ h => by simp [decodeLane1, h]
theorem fsqrt (f : LR) : Statement (.fsqrt f) := LR.round .fsqrt 0x2B (fun _ _ => rfl) fun _ _ => rfl
theorem fsqrtLu (f : LU) : Statement (.fsqrtLu f) := LU.round .fsqrtLu 0x2B 0 fun _ h => by simp [decodeLane1, h]
theorem fex2 (f : LR) : Statement (.fex2 f) := LR.round .fex2 0x2C (fun _ _ => rfl) fun _ _ => rfl
theorem fex2Lu (f : LU) : Statement (.fex2Lu f) := LU.round .fex2Lu 0x2C 0 fun _ h => by simp [decodeLane1, h]
theorem flg2 (f : LR) : Statement (.flg2 f) := LR.round .flg2 0x2D (fun _ _ => rfl) fun _ _ => rfl
theorem flg2Lu (f : LU) : Statement (.flg2Lu f) := LU.round .flg2Lu 0x2D 0 fun _ h => by simp [decodeLane1, h]
theorem fsin (f : LR) : Statement (.fsin f) := LR.round .fsin 0x2E (fun _ _ => rfl) fun _ _ => rfl
theorem fsinLu (f : LU) : Statement (.fsinLu f) := LU.round .fsinLu 0x2E 0 fun _ h => by simp [decodeLane1, h]
theorem fcos (f : LR) : Statement (.fcos f) := LR.round .fcos 0x2F (fun _ _ => rfl) fun _ _ => rfl
theorem fcosLu (f : LU) : Statement (.fcosLu f) := LU.round .fcosLu 0x2F 0 fun _ h => by simp [decodeLane1, h]
theorem ftanh (f : LR) : Statement (.ftanh f) := LR.round .ftanh 0x30 (fun _ _ => rfl) fun _ _ => rfl
theorem ftanhLu (f : LU) : Statement (.ftanhLu f) := LU.round .ftanhLu 0x30 0 fun _ h => by simp [decodeLane1, h]
theorem fsgm (f : LR) : Statement (.fsgm f) := LR.round .fsgm 0x31 (fun _ _ => rfl) fun _ _ => rfl
theorem fsgmLu (f : LU) : Statement (.fsgmLu f) := LU.round .fsgmLu 0x31 0 fun _ h => by simp [decodeLane1, h]
theorem cvt (f : LR) : Statement (.cvt f) := LR.round .cvt 0x40 (fun _ _ => rfl) fun _ _ => rfl
theorem cvtn (f : LR) : Statement (.cvtn f) := LR.round .cvtn 0x41 (fun _ _ => rfl) fun _ _ => rfl
theorem blkpack (f : LR) : Statement (.blkpack f) := LR.round .blkpack 0x42 (fun _ _ => rfl) fun _ _ => rfl
theorem blkunpk (f : LR) : Statement (.blkunpk f) := LR.round .blkunpk 0x43 (fun _ _ => rfl) fun _ _ => rfl
theorem shfl (f : LR) : Statement (.shfl f) := LR.round .shfl 0x50 (fun _ _ => rfl) fun _ _ => rfl
theorem vote (f : LR) : Statement (.vote f) := LR.round .vote 0x51 (fun _ _ => rfl) fun _ _ => rfl
theorem matchLanes (f : LR) : Statement (.matchLanes f) := LR.round .matchLanes 0x52 (fun _ _ => rfl) fun _ _ => rfl
theorem redux (f : LR) : Statement (.redux f) := LR.round .redux 0x53 (fun _ _ => rfl) fun _ _ => rfl
theorem scan (f : LR) : Statement (.scan f) := LR.round .scan 0x54 (fun _ _ => rfl) fun _ _ => rfl
theorem rdlane (f : LR) : Statement (.rdlane f) := LR.round .rdlane 0x62 (fun _ _ => rfl) fun _ _ => rfl
theorem bcast (f : LR) : Statement (.bcast f) := LR.round .bcast 0x63 (fun _ _ => rfl) fun _ _ => rfl
theorem mov (f : LU) : Statement (.mov f) := LU.round .mov 0x60 0 fun _ h => by simp [decodeLane1, h]
theorem movUniform (f : LU) : Statement (.movUniform f) := LU.round .movUniform 0x60 1 fun _ h => by simp [decodeLane1, h]
theorem movB64 (f : LU) : Statement (.movB64 f) := LU.round .movB64 0x60 2 fun _ h => by simp [decodeLane1, h]
theorem movImm (f : LI) : Statement (.movImm f) := LI.round .movImm 0x60 (fun _ _ => rfl) fun _ _ => rfl
theorem s2v (f : LU) : Statement (.s2v f) := LU.round .s2v 0x61 0 fun _ h => by simp [decodeLane1, h]
theorem plop (f : LR) : Statement (.plop f) := LR.round .plop 0x64 (fun _ _ => rfl) fun _ _ => rfl
theorem pmovGet (f : LR) : Statement (.pmovGet f) := fun hi => by
  obtain ⟨h31, h30, ho⟩ := f.op_word0 0x65
  have row : ∀ w1, rawDecode (f.word0 0x65) w1 = decodeLane2 0x65 (f.word0 0x65) w1 := fun w1 => by rw [rawDecode_lane2 h31 h30, ho]
  have hb : f.s.getLsbD 0 = false := by
    have h : ((f.f0 [0]) && (f.va == 0 && f.vb == 0 && f.vc == 0 && f.m == 0 && f.s == 0)) = true := hi
    simp only [Bool.and_eq_true, beq_iff_eq] at h
    simp [h]
  have h1 : decodeLane2 0x65 (f.word0 0x65) f.word1 = some (.pmovGet f) := by
    show some (if (LR.ofWords (f.word0 0x65) f.word1).s.getLsbD 0 then Instr.pmovSet (LR.ofWords (f.word0 0x65) f.word1) else .pmovGet (LR.ofWords (f.word0 0x65) f.word1)) = _
    rw [f.ofWords_words, hb]; rfl
  have h0 : decodeLane2 0x65 (f.word0 0x65) 0 = some (.pmovGet (LR.ofWords (f.word0 0x65) 0)) := by
    have hs : (LR.ofWords (f.word0 0x65) 0).s = 0 := by show (0#32).extractLsb' 0 8 = 0; decide
    show some (if (LR.ofWords (f.word0 0x65) 0).s.getLsbD 0 then Instr.pmovSet (LR.ofWords (f.word0 0x65) 0) else .pmovGet (LR.ofWords (f.word0 0x65) 0)) = _
    rw [hs]; rfl
  refine decode_of ((row 0).trans h0) ?_ ((row _).trans h1) hi
  show (Instr.pmovGet (LR.ofWords (f.word0 0x65) f.word1)).wf0 = true
  rw [f.ofWords_words]; exact Instr.wf0_of_wf hi
theorem pmovSet (f : LR) : Statement (.pmovSet f) := fun hi => by
  obtain ⟨h31, h30, ho⟩ := f.op_word0 0x65
  have row : ∀ w1, rawDecode (f.word0 0x65) w1 = decodeLane2 0x65 (f.word0 0x65) w1 := fun w1 => by rw [rawDecode_lane2 h31 h30, ho]
  have hb : f.s.getLsbD 0 = true := by
    have h : ((f.f0 [0]) && (f.vd == 0 && f.vb == 0 && f.vc == 0 && f.m == 0 && f.s == 1)) = true := hi
    simp only [Bool.and_eq_true, beq_iff_eq] at h
    simp [h]
  have h1 : decodeLane2 0x65 (f.word0 0x65) f.word1 = some (.pmovSet f) := by
    show some (if (LR.ofWords (f.word0 0x65) f.word1).s.getLsbD 0 then Instr.pmovSet (LR.ofWords (f.word0 0x65) f.word1) else .pmovGet (LR.ofWords (f.word0 0x65) f.word1)) = _
    rw [f.ofWords_words, hb]; rfl
  have h0 : decodeLane2 0x65 (f.word0 0x65) 0 = some (.pmovGet (LR.ofWords (f.word0 0x65) 0)) := by
    have hs : (LR.ofWords (f.word0 0x65) 0).s = 0 := by show (0#32).extractLsb' 0 8 = 0; decide
    show some (if (LR.ofWords (f.word0 0x65) 0).s.getLsbD 0 then Instr.pmovSet (LR.ofWords (f.word0 0x65) 0) else .pmovGet (LR.ofWords (f.word0 0x65) 0)) = _
    rw [hs]; rfl
  refine decode_of ((row 0).trans h0) ?_ ((row _).trans h1) hi
  show (Instr.pmovSet (LR.ofWords (f.word0 0x65) f.word1)).wf0 = true
  rw [f.ofWords_words]; exact Instr.wf0_of_wf hi
theorem rng (f : LR) : Statement (.rng f) := LR.round .rng 0x66 (fun _ _ => rfl) fun _ _ => rfl
theorem ld (f : LM) : Statement (.ld f) := LM.round .ld 0x70 (fun _ _ => rfl) fun _ _ => rfl
theorem st (f : LM) : Statement (.st f) := LM.round .st 0x71 (fun _ _ => rfl) fun _ _ => rfl
theorem lds (f : LM) : Statement (.lds f) := LM.round .lds 0x72 (fun _ _ => rfl) fun _ _ => rfl
theorem sts (f : LM) : Statement (.sts f) := LM.round .sts 0x73 (fun _ _ => rfl) fun _ _ => rfl
theorem atom (f : LM) : Statement (.atom f) := LM.round .atom 0x74 (fun _ _ => rfl) fun _ _ => rfl
theorem red (f : LM) : Statement (.red f) := LM.round .red 0x75 (fun _ _ => rfl) fun _ _ => rfl
theorem pref (f : LM) : Statement (.pref f) := LM.round .pref 0x76 (fun _ _ => rfl) fun _ _ => rfl
theorem tex (f : LR) : Statement (.tex f) := LR.round .tex 0x90 (fun _ _ => rfl) fun _ _ => rfl
theorem tfetch (f : LR) : Statement (.tfetch f) := LR.round .tfetch 0x91 (fun _ _ => rfl) fun _ _ => rfl
theorem rayq (f : LR) : Statement (.rayq f) := LR.round .rayq 0x92 (fun _ _ => rfl) fun _ _ => rfl
theorem raycont (f : LR) : Statement (.raycont f) := LR.round .raycont 0x93 (fun _ _ => rfl) fun _ _ => rfl
theorem rayget (f : LR) : Statement (.rayget f) := LR.round .rayget 0x94 (fun _ _ => rfl) fun _ _ => rfl
theorem ncall (f : LR) : Statement (.ncall f) := LR.round .ncall 0xA0 (fun _ _ => rfl) fun _ _ => rfl
theorem rgdisp (f : LR) : Statement (.rgdisp f) := LR.round .rgdisp 0xA1 (fun _ _ => rfl) fun _ _ => rfl
theorem brx (f : LB) : Statement (.brx f) := LB.round .brx 0xA8 (fun _ _ => rfl) fun _ _ => rfl
theorem jtabx (f : LB) : Statement (.jtabx f) := LB.round .jtabx 0xA9 (fun _ _ => rfl) fun _ _ => rfl
theorem retx (f : LU) : Statement (.retx f) := LU.round .retx 0xAA 0 fun _ h => by simp [decodeLane1, h]
theorem discardLu : Statement .discardLu := fun _ => rfl
theorem discard (f : LR) : Statement (.discard f) := LR.round .discard 0xAB (fun _ _ => rfl) fun _ _ => rfl
theorem sadd (f : UR) : Statement (.sadd f) := UR.round .sadd 0x01 fun _ => rfl
theorem saddImm (f : UI) : Statement (.saddImm f) := UI.round .saddImm 0x01 (fun _ _ => rfl) fun _ _ => rfl
theorem ssub (f : UR) : Statement (.ssub f) := UR.round .ssub 0x02 fun _ => rfl
theorem ssubImm (f : UI) : Statement (.ssubImm f) := UI.round .ssubImm 0x02 (fun _ _ => rfl) fun _ _ => rfl
theorem smul (f : UR) : Statement (.smul f) := UR.round .smul 0x03 fun _ => rfl
theorem smulImm (f : UI) : Statement (.smulImm f) := UI.round .smulImm 0x03 (fun _ _ => rfl) fun _ _ => rfl
theorem smad (f : UR) : Statement (.smad f) := UR.round .smad 0x04 fun _ => rfl
theorem smadImm (f : UI) : Statement (.smadImm f) := UI.round .smadImm 0x04 (fun _ _ => rfl) fun _ _ => rfl
theorem smin (f : UR) : Statement (.smin f) := UR.round .smin 0x05 fun _ => rfl
theorem sminImm (f : UI) : Statement (.sminImm f) := UI.round .sminImm 0x05 (fun _ _ => rfl) fun _ _ => rfl
theorem smax (f : UR) : Statement (.smax f) := UR.round .smax 0x06 fun _ => rfl
theorem smaxImm (f : UI) : Statement (.smaxImm f) := UI.round .smaxImm 0x06 (fun _ _ => rfl) fun _ _ => rfl
theorem sshl (f : UR) : Statement (.sshl f) := UR.round .sshl 0x07 fun _ => rfl
theorem sshlImm (f : UI) : Statement (.sshlImm f) := UI.round .sshlImm 0x07 (fun _ _ => rfl) fun _ _ => rfl
theorem sshr (f : UR) : Statement (.sshr f) := UR.round .sshr 0x08 fun _ => rfl
theorem sshrImm (f : UI) : Statement (.sshrImm f) := UI.round .sshrImm 0x08 (fun _ _ => rfl) fun _ _ => rfl
theorem ssar (f : UR) : Statement (.ssar f) := UR.round .ssar 0x09 fun _ => rfl
theorem ssarImm (f : UI) : Statement (.ssarImm f) := UI.round .ssarImm 0x09 (fun _ _ => rfl) fun _ _ => rfl
theorem sblut (f : UR) : Statement (.sblut f) := UR.round .sblut 0x0A fun _ => rfl
theorem sblutImm (f : UI) : Statement (.sblutImm f) := UI.round .sblutImm 0x0A (fun _ _ => rfl) fun _ _ => rfl
theorem spopc (f : UR) : Statement (.spopc f) := UR.round .spopc 0x0B fun _ => rfl
theorem spopcImm (f : UI) : Statement (.spopcImm f) := UI.round .spopcImm 0x0B (fun _ _ => rfl) fun _ _ => rfl
theorem sclz (f : UR) : Statement (.sclz f) := UR.round .sclz 0x0C fun _ => rfl
theorem sclzImm (f : UI) : Statement (.sclzImm f) := UI.round .sclzImm 0x0C (fun _ _ => rfl) fun _ _ => rfl
theorem sbfe (f : UR) : Statement (.sbfe f) := UR.round .sbfe 0x0D fun _ => rfl
theorem sbfeImm (f : UI) : Statement (.sbfeImm f) := UI.round .sbfeImm 0x0D (fun _ _ => rfl) fun _ _ => rfl
theorem sbfi (f : UR) : Statement (.sbfi f) := UR.round .sbfi 0x0E fun _ => rfl
theorem sbfiImm (f : UI) : Statement (.sbfiImm f) := UI.round .sbfiImm 0x0E (fun _ _ => rfl) fun _ _ => rfl
theorem ssel (f : UR) : Statement (.ssel f) := UR.round .ssel 0x0F fun _ => rfl
theorem sselImm (f : UI) : Statement (.sselImm f) := UI.round .sselImm 0x0F (fun _ _ => rfl) fun _ _ => rfl
theorem scmp (f : UR) : Statement (.scmp f) := UR.round .scmp 0x10 fun _ => rfl
theorem scmpImm (f : UI) : Statement (.scmpImm f) := UI.round .scmpImm 0x10 (fun _ _ => rfl) fun _ _ => rfl
theorem slea (f : UR) : Statement (.slea f) := UR.round .slea 0x11 fun _ => rfl
theorem sleaImm (f : UI) : Statement (.sleaImm f) := UI.round .sleaImm 0x11 (fun _ _ => rfl) fun _ _ => rfl
theorem smov (f : UR) : Statement (.smov f) := UR.round .smov 0x12 fun _ => rfl
theorem smovImm (f : UI) : Statement (.smovImm f) := UI.round .smovImm 0x12 (fun _ _ => rfl) fun _ _ => rfl
theorem sfadd (f : UR) : Statement (.sfadd f) := UR.round .sfadd 0x20 fun _ => rfl
theorem sfaddImm (f : UI) : Statement (.sfaddImm f) := UI.round .sfaddImm 0x20 (fun _ _ => rfl) fun _ _ => rfl
theorem sfmul (f : UR) : Statement (.sfmul f) := UR.round .sfmul 0x21 fun _ => rfl
theorem sfmulImm (f : UI) : Statement (.sfmulImm f) := UI.round .sfmulImm 0x21 (fun _ _ => rfl) fun _ _ => rfl
theorem sffma (f : UR) : Statement (.sffma f) := UR.round .sffma 0x22 fun _ => rfl
theorem sffmaImm (f : UI) : Statement (.sffmaImm f) := UI.round .sffmaImm 0x22 (fun _ _ => rfl) fun _ _ => rfl
theorem scvt (f : UR) : Statement (.scvt f) := UR.round .scvt 0x23 fun _ => rfl
theorem scvtImm (f : UI) : Statement (.scvtImm f) := UI.round .scvtImm 0x23 (fun _ _ => rfl) fun _ _ => rfl
theorem sld (f : UE) : Statement (.sld f) := UE.round .sld 0x28 (fun _ _ => rfl) fun _ _ => rfl
theorem sst (f : UE) : Statement (.sst f) := UE.round .sst 0x29 (fun _ _ => rfl) fun _ _ => rfl
theorem satom (f : UE) : Statement (.satom f) := UE.round .satom 0x2A (fun _ _ => rfl) fun _ _ => rfl
theorem nop (f : UR) : Statement (.nop f) := UR.round .nop 0x30 fun _ => rfl
theorem bra (f : UB) : Statement (.bra f) := UB.round .bra 0x31 fun _ => rfl
theorem call (f : UB) : Statement (.call f) := UB.round .call 0x32 fun _ => rfl
theorem ret (f : UR) : Statement (.ret f) := UR.round .ret 0x33 fun _ => rfl
theorem jtab (f : UI) : Statement (.jtab f) := UI.round .jtab 0x34 (fun _ _ => rfl) fun _ _ => rfl
theorem regang (f : UI) : Statement (.regang f) := UI.round .regang 0x35 (fun _ _ => rfl) fun _ _ => rfl
theorem exit (f : UR) : Statement (.exit f) := UR.round .exit 0x36 fun _ => rfl
theorem dbnz (f : UI) : Statement (.dbnz f) := UI.round .dbnz 0x37 (fun _ _ => rfl) fun _ _ => rfl
theorem wait (f : UW) : Statement (.wait f) := UW.round .wait 0x40 fun _ => rfl
theorem waitc (f : UE) : Statement (.waitc f) := UE.round .waitc 0x41 (fun _ _ => rfl) fun _ _ => rfl
theorem bari (f : UR) : Statement (.bari f) := UR.round .bari 0x42 fun _ => rfl
theorem bariImm (f : UI) : Statement (.bariImm f) := UI.round .bariImm 0x42 (fun _ _ => rfl) fun _ _ => rfl
theorem bara (f : UR) : Statement (.bara f) := UR.round .bara 0x43 fun _ => rfl
theorem baraImm (f : UI) : Statement (.baraImm f) := UI.round .baraImm 0x43 (fun _ _ => rfl) fun _ _ => rfl
theorem barw (f : UR) : Statement (.barw f) := UR.round .barw 0x44 fun _ => rfl
theorem barwImm (f : UI) : Statement (.barwImm f) := UI.round .barwImm 0x44 (fun _ _ => rfl) fun _ _ => rfl
theorem bars (f : UR) : Statement (.bars f) := UR.round .bars 0x45 fun _ => rfl
theorem barsImm (f : UI) : Statement (.barsImm f) := UI.round .barsImm 0x45 (fun _ _ => rfl) fun _ _ => rfl
theorem bard (f : UR) : Statement (.bard f) := UR.round .bard 0x46 fun _ => rfl
theorem bardImm (f : UI) : Statement (.bardImm f) := UI.round .bardImm 0x46 (fun _ _ => rfl) fun _ _ => rfl
theorem fence (f : UR) : Statement (.fence f) := UR.round .fence 0x47 fun _ => rfl
theorem srd (f : UR) : Statement (.srd f) := UR.round .srd 0x50 fun _ => rfl
theorem swr (f : UR) : Statement (.swr f) := UR.round .swr 0x51 fun _ => rfl
theorem setpart (f : UR) : Statement (.setpart f) := UR.round .setpart 0x52 fun _ => rfl
theorem setpartImm (f : UI) : Statement (.setpartImm f) := UI.round .setpartImm 0x52 (fun _ _ => rfl) fun _ _ => rfl
theorem setbound (f : UR) : Statement (.setbound f) := UR.round .setbound 0x53 fun _ => rfl
theorem setboundImm (f : UI) : Statement (.setboundImm f) := UI.round .setboundImm 0x53 (fun _ _ => rfl) fun _ _ => rfl
theorem rngseed (f : UR) : Statement (.rngseed f) := UR.round .rngseed 0x54 fun _ => rfl
theorem mloop (f : UE) : Statement (.mloop f) := UE.round .mloop 0x60 (fun _ _ => rfl) fun _ _ => rfl
theorem mclr (f : UE) : Statement (.mclr f) := UE.round .mclr 0x61 (fun _ _ => rfl) fun _ _ => rfl
theorem manchor (f : UE) : Statement (.manchor f) := UE.round .manchor 0x62 (fun _ _ => rfl) fun _ _ => rfl
theorem mround (f : UE) : Statement (.mround f) := UE.round .mround 0x63 (fun _ _ => rfl) fun _ _ => rfl
theorem mloada (f : UE) : Statement (.mloada f) := UE.round .mloada 0x64 (fun _ _ => rfl) fun _ _ => rfl
theorem mbatch (f : UE) : Statement (.mbatch f) := UE.round .mbatch 0x65 (fun _ _ => rfl) fun _ _ => rfl
theorem mxform (f : UE) : Statement (.mxform f) := UE.round .mxform 0x66 (fun _ _ => rfl) fun _ _ => rfl
theorem mesc (f : UE) : Statement (.mesc f) := UE.round .mesc 0x67 (fun _ _ => rfl) fun _ _ => rfl
theorem mstat (f : UE) : Statement (.mstat f) := UE.round .mstat 0x68 (fun _ _ => rfl) fun _ _ => rfl
theorem cpy (f : UE) : Statement (.cpy f) := UE.round .cpy 0x80 (fun _ _ => rfl) fun _ _ => rfl
theorem cpyg (f : UE) : Statement (.cpyg f) := UE.round .cpyg 0x81 (fun _ _ => rfl) fun _ _ => rfl
theorem cpyx (f : UE) : Statement (.cpyx f) := UE.round .cpyx 0x82 (fun _ _ => rfl) fun _ _ => rfl
theorem tspawn (f : UE) : Statement (.tspawn f) := UE.round .tspawn 0x90 (fun _ _ => rfl) fun _ _ => rfl
theorem tnotify (f : UE) : Statement (.tnotify f) := UE.round .tnotify 0x91 (fun _ _ => rfl) fun _ _ => rfl
theorem prsv (f : UE) : Statement (.prsv f) := UE.round .prsv 0x92 (fun _ _ => rfl) fun _ _ => rfl
theorem pput (f : UE) : Statement (.pput f) := UE.round .pput 0x93 (fun _ _ => rfl) fun _ _ => rfl
theorem pget (f : UE) : Statement (.pget f) := UE.round .pget 0x94 (fun _ _ => rfl) fun _ _ => rfl
theorem prel (f : UE) : Statement (.prel f) := UE.round .prel 0x95 (fun _ _ => rfl) fun _ _ => rfl
theorem twtag (f : UE) : Statement (.twtag f) := UE.round .twtag 0xA0 (fun _ _ => rfl) fun _ _ => rfl
theorem twfree (f : UE) : Statement (.twfree f) := UE.round .twfree 0xA1 (fun _ _ => rfl) fun _ _ => rfl
theorem twsend (f : UE) : Statement (.twsend f) := UE.round .twsend 0xA2 (fun _ _ => rfl) fun _ _ => rfl
theorem twrecv (f : UE) : Statement (.twrecv f) := fun hi => by
  obtain ⟨h31, h30, ho⟩ := f.op_word0 0xA3
  have row : ∀ w1, rawDecode (f.word0 0xA3) w1 = decodeUni2 0xA3 (f.word0 0xA3) w1 := fun w1 => by rw [rawDecode_uni2 h31 h30, ho]
  have hb : f.sub.getLsbD 0 = false := by
    have h : ((f.sub == 0) && (f.w1 == 0)) = true := hi
    simp only [Bool.and_eq_true, beq_iff_eq] at h
    simp [h]
  have h1 : decodeUni2 0xA3 (f.word0 0xA3) f.w1 = some (.twrecv f) := by
    show some (if (UE.ofWords (f.word0 0xA3) f.w1).sub.getLsbD 0 then Instr.twrecvSt (UE.ofWords (f.word0 0xA3) f.w1) else .twrecv (UE.ofWords (f.word0 0xA3) f.w1)) = _
    rw [f.ofWords_words, hb]; rfl
  have h0 : decodeUni2 0xA3 (f.word0 0xA3) 0 = some (.twrecv (UE.ofWords (f.word0 0xA3) 0)) := by
    have hs : (UE.ofWords (f.word0 0xA3) 0).sub = f.sub := by have h := congrArg UE.sub (f.ofWords_words 0xA3); exact h
    show some (if (UE.ofWords (f.word0 0xA3) 0).sub.getLsbD 0 then Instr.twrecvSt (UE.ofWords (f.word0 0xA3) 0) else .twrecv (UE.ofWords (f.word0 0xA3) 0)) = _
    rw [hs, hb]; rfl
  refine decode_of ((row 0).trans h0) ?_ ((row _).trans h1) hi
  show (Instr.twrecv (UE.ofWords (f.word0 0xA3) f.w1)).wf0 = true
  rw [f.ofWords_words]; exact Instr.wf0_of_wf hi
theorem twrecvSt (f : UE) : Statement (.twrecvSt f) := fun hi => by
  obtain ⟨h31, h30, ho⟩ := f.op_word0 0xA3
  have row : ∀ w1, rawDecode (f.word0 0xA3) w1 = decodeUni2 0xA3 (f.word0 0xA3) w1 := fun w1 => by rw [rawDecode_uni2 h31 h30, ho]
  have hb : f.sub.getLsbD 0 = true := by
    have h : ((f.sub == 1 && f.b == 0) && (f.w1 == 0)) = true := hi
    simp only [Bool.and_eq_true, beq_iff_eq] at h
    simp [h]
  have h1 : decodeUni2 0xA3 (f.word0 0xA3) f.w1 = some (.twrecvSt f) := by
    show some (if (UE.ofWords (f.word0 0xA3) f.w1).sub.getLsbD 0 then Instr.twrecvSt (UE.ofWords (f.word0 0xA3) f.w1) else .twrecv (UE.ofWords (f.word0 0xA3) f.w1)) = _
    rw [f.ofWords_words, hb]; rfl
  have h0 : decodeUni2 0xA3 (f.word0 0xA3) 0 = some (.twrecvSt (UE.ofWords (f.word0 0xA3) 0)) := by
    have hs : (UE.ofWords (f.word0 0xA3) 0).sub = f.sub := by have h := congrArg UE.sub (f.ofWords_words 0xA3); exact h
    show some (if (UE.ofWords (f.word0 0xA3) 0).sub.getLsbD 0 then Instr.twrecvSt (UE.ofWords (f.word0 0xA3) 0) else .twrecv (UE.ofWords (f.word0 0xA3) 0)) = _
    rw [hs, hb]; rfl
  refine decode_of ((row 0).trans h0) ?_ ((row _).trans h1) hi
  show (Instr.twrecvSt (UE.ofWords (f.word0 0xA3) f.w1)).wf0 = true
  rw [f.ofWords_words]; exact Instr.wf0_of_wf hi
theorem mbput (f : UE) : Statement (.mbput f) := UE.round .mbput 0xB0 (fun _ _ => rfl) fun _ _ => rfl
theorem mbget (f : UE) : Statement (.mbget f) := UE.round .mbget 0xB1 (fun _ _ => rfl) fun _ _ => rfl
theorem mbstat (f : UE) : Statement (.mbstat f) := UE.round .mbstat 0xB2 (fun _ _ => rfl) fun _ _ => rfl
theorem wpref (f : UE) : Statement (.wpref f) := UE.round .wpref 0xB8 (fun _ _ => rfl) fun _ _ => rfl
theorem wpin (f : UE) : Statement (.wpin f) := UE.round .wpin 0xB9 (fun _ _ => rfl) fun _ _ => rfl
theorem wunpin (f : UE) : Statement (.wunpin f) := UE.round .wunpin 0xBA (fun _ _ => rfl) fun _ _ => rfl
theorem wver (f : UE) : Statement (.wver f) := UE.round .wver 0xBB (fun _ _ => rfl) fun _ _ => rfl
theorem nflush (f : UE) : Statement (.nflush f) := UE.round .nflush 0xBC (fun _ _ => rfl) fun _ _ => rfl
theorem trap (f : UI) : Statement (.trap f) := UI.round .trap 0xC0 (fun _ _ => rfl) fun _ _ => rfl
theorem bkpt (f : UR) : Statement (.bkpt f) := UR.round .bkpt 0xC1 fun _ => rfl
theorem mark (f : UI) : Statement (.mark f) := UI.round .mark 0xC2 (fun _ _ => rfl) fun _ _ => rfl
theorem snap (f : UR) : Statement (.snap f) := UR.round .snap 0xC3 fun _ => rfl
theorem tret (f : UR) : Statement (.tret f) := UR.round .tret 0xC4 fun _ => rfl
theorem commit (f : UR) : Statement (.commit f) := UR.round .commit 0xC5 fun _ => rfl
theorem regangTimeout (team warp : Nat) (pc : Addr) (parent : Nat) : Statement (.regangTimeout team warp pc parent) := of_not_wf rfl
theorem waitcReread (x : Sel) : Statement (.waitcReread x) := of_not_wf rfl
theorem waitcExpiry (x : Sel) : Statement (.waitcExpiry x) := of_not_wf rfl
theorem loadComplete (id : Nat) : Statement (.loadComplete id) := of_not_wf rfl
theorem storeComplete (id : Nat) : Statement (.storeComplete id) := of_not_wf rfl
theorem atomicAtMemory (id : Nat) : Statement (.atomicAtMemory id) := of_not_wf rfl
theorem l1Writeback (core line : Nat) : Statement (.l1Writeback core line) := of_not_wf rfl
theorem xbarRequest (die port : Nat) (line : Nat) : Statement (.xbarRequest die port line) := of_not_wf rfl
theorem l2FillComplete (die slice line : Nat) : Statement (.l2FillComplete die slice line) := of_not_wf rfl
theorem columnPowerDown (die slice : Nat) : Statement (.columnPowerDown die slice) := of_not_wf rfl
theorem columnPowerUpComplete (die slice : Nat) : Statement (.columnPowerUpComplete die slice) := of_not_wf rfl
theorem d2dBeatReceive (src dst : Nat) (beat : Beat) : Statement (.d2dBeatReceive src dst beat) := of_not_wf rfl
theorem cxlMemAccess (a : HostAccess) : Statement (.cxlMemAccess a) := of_not_wf rfl
theorem peerAccess (a : PeerReq) : Statement (.peerAccess a) := of_not_wf rfl
theorem murusLinkChange (link : Nat) (up : Bool) : Statement (.murusLinkChange link up) := of_not_wf rfl
theorem copyComplete (id : Nat) : Statement (.copyComplete id) := of_not_wf rfl
theorem copyEngineFault (id : Nat) : Statement (.copyEngineFault id) := of_not_wf rfl
theorem matrixStep (core : Nat) : Statement (.matrixStep core) := of_not_wf rfl
theorem textureComplete (id : Nat) : Statement (.textureComplete id) := of_not_wf rfl
theorem rayStop (id : Nat) : Statement (.rayStop id) := of_not_wf rfl
theorem rgdispComplete (id : Nat) : Statement (.rgdispComplete id) := of_not_wf rfl
theorem ncallAccept (cluster : Nat) : Statement (.ncallAccept cluster) := of_not_wf rfl
theorem rowPlace (cluster : Nat) : Statement (.rowPlace cluster) := of_not_wf rfl
theorem binAgeDispatch (cluster : Nat) : Statement (.binAgeDispatch cluster) := of_not_wf rfl
theorem binStallDispatch (cluster : Nat) : Statement (.binStallDispatch cluster) := of_not_wf rfl
theorem weightVersionLoad (cluster ctx set ver : Nat) : Statement (.weightVersionLoad cluster ctx set ver) := of_not_wf rfl
theorem tileComplete (cluster : Nat) : Statement (.tileComplete cluster) := of_not_wf rfl
theorem twillArrival (id : Nat) : Statement (.twillArrival id) := of_not_wf rfl
theorem twillSendRetry (id : Nat) : Statement (.twillSendRetry id) := of_not_wf rfl
theorem twillDelivery (router : Nat) (ctx : Nat) (tag : Word) : Statement (.twillDelivery router ctx tag) := of_not_wf rfl
theorem twillDeliveryRetry (router : Nat) (ctx : Nat) (tag : Word) : Statement (.twillDeliveryRetry router ctx tag) := of_not_wf rfl
theorem twillOrphan (router : Nat) (ctx : Nat) (tag : Word) : Statement (.twillOrphan router ctx tag) := of_not_wf rfl
theorem twillLandingTimeout (id : Nat) : Statement (.twillLandingTimeout id) := of_not_wf rfl
theorem qtailWrite (c p : Nat) (v : BitVec 64) : Statement (.qtailWrite c p v) := of_not_wf rfl
theorem queueReconfigure (c p : Nat) (isBase : Bool) (v : BitVec 64) : Statement (.queueReconfigure c p isBase v) := of_not_wf rfl
theorem takeLaunchRecord (die : Nat) : Statement (.takeLaunchRecord die) := of_not_wf rfl
theorem parkedRecordReady (id : Nat) : Statement (.parkedRecordReady id) := of_not_wf rfl
theorem sendTask (die : Nat) : Statement (.sendTask die) := of_not_wf rfl
theorem placeTask (cluster : Nat) : Statement (.placeTask cluster) := of_not_wf rfl
theorem stagingCopyFault (task : Nat) : Statement (.stagingCopyFault task) := of_not_wf rfl
theorem gangStart (task : Nat) : Statement (.gangStart task) := of_not_wf rfl
theorem stealRequest (cluster : Nat) : Statement (.stealRequest cluster) := of_not_wf rfl
theorem stealRequestArrival (cluster : Nat) : Statement (.stealRequestArrival cluster) := of_not_wf rfl
theorem teamExit (team : Nat) : Statement (.teamExit team) := of_not_wf rfl
theorem warpBudgetReturn (team warp : Nat) : Statement (.warpBudgetReturn team warp) := of_not_wf rfl
theorem priorityPreempt (task : Nat) : Statement (.priorityPreempt task) := of_not_wf rfl
theorem preemptDrainExpiry (gang : Nat) : Statement (.preemptDrainExpiry gang) := of_not_wf rfl
theorem ctxctlHold (c : Nat) (on : Bool) : Statement (.ctxctlHold c on) := of_not_wf rfl
theorem ctxctlKill (c : Nat) : Statement (.ctxctlKill c) := of_not_wf rfl
theorem ctxctlKillDone (c : Nat) : Statement (.ctxctlKillDone c) := of_not_wf rfl
theorem deferredFaultTake (x : Sel) : Statement (.deferredFaultTake x) := of_not_wf rfl
theorem teamWatchdog (team : Nat) : Statement (.teamWatchdog team) := of_not_wf rfl
theorem faultDrainExpiry (team : Nat) : Statement (.faultDrainExpiry team) := of_not_wf rfl
theorem pageWalkComplete (id : Nat) : Statement (.pageWalkComplete id) := of_not_wf rfl
theorem pgrespRetry (c : Nat) (seq : Word) : Statement (.pgrespRetry c seq) := of_not_wf rfl
theorem pgrespRefusePage (c : Nat) (seq : Word) : Statement (.pgrespRefusePage c seq) := of_not_wf rfl
theorem pgrespRefuseProt (c : Nat) (seq : Word) : Statement (.pgrespRefuseProt c seq) := of_not_wf rfl
theorem tlbinvPage (c : Nat) (va : Addr) : Statement (.tlbinvPage c va) := of_not_wf rfl
theorem tlbinv2m (c : Nat) (va : Addr) : Statement (.tlbinv2m c va) := of_not_wf rfl
theorem tlbinv1g (c : Nat) (va : Addr) : Statement (.tlbinv1g c va) := of_not_wf rfl
theorem tlbinvAll (c : Nat) : Statement (.tlbinvAll c) := of_not_wf rfl
theorem tlbinvDone (c : Nat) : Statement (.tlbinvDone c) := of_not_wf rfl
theorem eccCorrected : Statement (.eccCorrected) := of_not_wf rfl
theorem eccUncorrectable (w : EccSite) : Statement (.eccUncorrectable w) := of_not_wf rfl
theorem breakpointHit (x : Sel) : Statement (.breakpointHit x) := of_not_wf rfl
theorem dbgHalt (c : Nat) : Statement (.dbgHalt c) := of_not_wf rfl
theorem dbgResume (c : Nat) : Statement (.dbgResume c) := of_not_wf rfl
theorem dbgStep (c : Nat) : Statement (.dbgStep c) := of_not_wf rfl
theorem dbgStop (c : Nat) (region : Bool) (target : Word) : Statement (.dbgStop c region target) := of_not_wf rfl
theorem dbgKill (c : Nat) : Statement (.dbgKill c) := of_not_wf rfl
theorem dbgHaltall (c : Nat) (on : Bool) : Statement (.dbgHaltall c on) := of_not_wf rfl
theorem stateWindowWrite (c off : Nat) (v : Word) : Statement (.stateWindowWrite c off v) := of_not_wf rfl
theorem sampleTake (core : Nat) : Statement (.sampleTake core) := of_not_wf rfl
theorem recordChunkLimit (team : Nat) : Statement (.recordChunkLimit team) := of_not_wf rfl
theorem snapshotExternalTrigger : Statement (.snapshotExternalTrigger) := of_not_wf rfl
theorem powerOn : Statement (.powerOn) := of_not_wf rfl
theorem firmwareVerifyComplete (image : Option FwImage) (svn : BitVec 16) : Statement (.firmwareVerifyComplete image svn) := of_not_wf rfl
theorem fwAttest (tag : Byte) : Statement (.fwAttest tag) := of_not_wf rfl
theorem fwIdkey (tag : Byte) : Statement (.fwIdkey tag) := of_not_wf rfl
theorem fwmUnknownCommand (tag cmd : Byte) : Statement (.fwmUnknownCommand tag cmd) := of_not_wf rfl
theorem fwmCommandComplete : Statement (.fwmCommandComplete) := of_not_wf rfl
theorem pwrReqM0 : Statement (.pwrReqM0) := of_not_wf rfl
theorem pwrReqM1 : Statement (.pwrReqM1) := of_not_wf rfl
theorem pwrReqM2 : Statement (.pwrReqM2) := of_not_wf rfl
theorem pwrReqM3 : Statement (.pwrReqM3) := of_not_wf rfl
theorem powerWake : Statement (.powerWake) := of_not_wf rfl
theorem powerExitComplete : Statement (.powerExitComplete) := of_not_wf rfl
theorem throttleLimitChange (limits : BitVec 4) : Statement (.throttleLimitChange limits) := of_not_wf rfl
theorem throttleStep : Statement (.throttleStep) := of_not_wf rfl
theorem twtagsWrite (c : Nat) (isBase : Bool) (v : BitVec 64) : Statement (.twtagsWrite c isBase v) := of_not_wf rfl
theorem epqtailWrite (c : Nat) (v : Word) : Statement (.epqtailWrite c v) := of_not_wf rfl
theorem episodeCreate (c : Nat) : Statement (.episodeCreate c) := of_not_wf rfl
theorem epkill (c : Nat) (v : Word) : Statement (.epkill c v) := of_not_wf rfl
theorem episodeTimeslice (die core : Nat) : Statement (.episodeTimeslice die core) := of_not_wf rfl
theorem episodeTickBudgetExpiry (pair : Nat) : Statement (.episodeTickBudgetExpiry pair) := of_not_wf rfl
theorem episodeInstrBudgetExpiry (pair : Nat) : Statement (.episodeInstrBudgetExpiry pair) := of_not_wf rfl
theorem epObsPost (pair : Nat) (payload len : BitVec 64) (status : BitVec 64) : Statement (.epObsPost pair payload len status) := of_not_wf rfl
theorem epActWait (pair : Nat) (buf cap : BitVec 64) : Statement (.epActWait pair buf cap) := of_not_wf rfl
theorem epReward (pair : Nat) (v : BitVec 64) : Statement (.epReward pair v) := of_not_wf rfl
theorem epBudget (pair : Nat) : Statement (.epBudget pair) := of_not_wf rfl
theorem epLogver (pair : Nat) : Statement (.epLogver pair) := of_not_wf rfl
theorem episodeFault (pair : Nat) : Statement (.episodeFault pair) := of_not_wf rfl
theorem mailboxActionArrival (id : Nat) : Statement (.mailboxActionArrival id) := of_not_wf rfl
theorem mailboxGetArrival (id : Nat) : Statement (.mailboxGetArrival id) := of_not_wf rfl
theorem pairRelease (pair : Nat) : Statement (.pairRelease pair) := of_not_wf rfl
theorem drawSubmit (c : Nat) (desc : Addr) : Statement (.drawSubmit c desc) := of_not_wf rfl
theorem primitiveRasterise (front : FrontEnd) (prim : Nat) : Statement (.primitiveRasterise front prim) := of_not_wf rfl
theorem pixelExportApply (cluster : Nat) : Statement (.pixelExportApply cluster) := of_not_wf rfl
theorem registerWrite (off : Nat) (size : Nat) (v : BitVec 64) : Statement (.registerWrite off size v) := of_not_wf rfl
theorem sorghumInstruction (pair core : Nat) : Statement (.sorghumInstruction pair core) := of_not_wf rfl
theorem diagnosticModeChange (on : Bool) : Statement (.diagnosticModeChange on) := of_not_wf rfl
theorem abandonedOperationStopped (id : Nat) : Statement (.abandonedOperationStopped id) := of_not_wf rfl

end Sys2Proof.Laws.RoundTrip
end

