-- ==== Sys2Proof/Tests/Slice0.lean ====
section
/-!
SUPPORT. The author's own tests: words written out from the spec's encodings, forms that are refused, one step each of
some instructions, and for each obligation states and operands that meet its hypotheses.
-/

namespace Sys2Proof.Tests

open Sys2Proof.Machine

/-! ## Words of the spec's encodings -/

/-- The decoder reads instruction i from these words. -/
def reads (w0 w1 : Word) (i : Instr) : Bool := (decode w0 w1).toOption == some i

theorem test_words_of_control :
    reads 0x8C00000E 0 (.nop ⟨0, 0, 0, 7, 0⟩) = true ∧ reads 0x8C780002 0 (.bra ⟨7, 0, 2⟩) = true ∧
    reads 0x8D80000E 0 (.exit ⟨0, 0, 0, 7, 0⟩) = true ∧ reads 0xB140000E 0 (.commit ⟨0, 0, 0, 7, 0⟩) = true ∧
    reads 0xCDC5000E 0x0003FFF8 (.dbnz ⟨5, 0, 0, 7, 0, 0x0003FFF8⟩) = true ∧
    reads 0x903FFF80 0 (.wait ⟨31, 31, 31, 0, 0⟩) = true ∧ reads 0xD0411C90 0x82 (.waitc ⟨1, 7, 9, 0, 0x82⟩) = true ∧
    reads 0x6A180010 0x00080000 (.brx ⟨3, 0, 0x10, 0x20, 0, 0⟩) = true ∧
    reads 0x6A780040 0x140 (.jtabx ⟨7, 0, 0x40, 0, 5, 0⟩) = true := by decide

theorem test_words_of_arithmetic :
    reads 0xC043100E 0x64 (.saddImm ⟨3, 4, 0, 7, 0, 0x64⟩) = true ∧
    reads 0xC432140E 0x40 (.scmpImm ⟨50, 5, 0, 7, 0, 0x40⟩) = true ∧
    reads 0x500280B9 0x00100C30 (.cvt ⟨10, 2, 7, 0, 1, 0, 0x10, 0x0C, 0x30⟩) = true ∧
    reads 0x54024138 0x01024003 (.shfl ⟨9, 4, 7, 0, 0, 1, 2, 0x40, 3⟩) = true := by decide

theorem test_words_of_memory :
    reads 0x5C0200B8 0x49000040 (.ld ⟨8, 2, 7, 0, 0, 2, 2, 2, 0, 0x40⟩) = true ∧
    reads 0x5D0100B8 0x4C800008 (.atom ⟨4, 2, 7, 0, 0, 2, 3, 1, 0, 8⟩) = true ∧
    reads 0x5D4180B8 0x8C8193D8 (.red ⟨6, 2, 7, 0, 0, 4, 3, 1, 0, 0x193D8⟩) = true ∧
    reads 0xCA6E4002 0x12A (.sst ⟨46, 16, 0, 2, 0x12A⟩) = true ∧
    reads 0xE01420C0 0x03F20010 (.cpy ⟨20, 8, 12, 0, 0x03F20010⟩) = true ∧
    reads 0xE01A5180 0x17F0 (.cpy ⟨26, 20, 24, 0, 0x17F0⟩) = true := by decide

theorem test_words_of_units :
    reads 0xD81020C1 0x33000040 (.mloop ⟨16, 8, 12, 1, 0x33000040⟩) = true ∧
    reads 0xD9540000 0 (.mbatch ⟨20, 0, 0, 0, 0⟩) = true ∧ reads 0xD8C00000 0x33FD0000 (.mround ⟨0, 0, 0, 0, 0x33FD0000⟩) = true ∧
    reads 0xE50B0001 3 (.pget ⟨11, 0, 0, 1, 3⟩) = true ∧ reads 0x680A0238 0x001E0F03 (.ncall ⟨40, 8, 7, 0, 0, 0, 30, 15, 3⟩) = true ∧
    reads 0x68430178 0x14068000 (.rgdisp ⟨12, 5, 7, 0, 0, 20, 6, 128, 0⟩) = true ∧
    reads 0x64050138 0x08008000 (.tex ⟨20, 4, 7, 0, 0, 8, 0, 128, 0⟩) = true ∧
    reads 0x648A0238 0x0A008000 (.rayq ⟨40, 8, 7, 0, 0, 10, 0, 128, 0⟩) = true := by decide

theorem test_words_of_mail_and_twill :
    reads 0xE8040000 0 (.twtag ⟨4, 0, 0, 0, 0⟩) = true ∧ reads 0xE8D410C0 0 (.twrecv ⟨20, 4, 12, 0, 0⟩) = true ∧
    reads 0xE8D75401 0 (.twrecvSt ⟨23, 21, 0, 1, 0⟩) = true ∧ reads 0xE89514A0 0 (.twsend ⟨21, 5, 10, 0, 0⟩) = true ∧
    reads 0xE8401400 0 (.twfree ⟨0, 5, 0, 0, 0⟩) = true ∧ reads 0xEC1420A1 0 (.mbput ⟨20, 8, 10, 1, 0⟩) = true ∧
    reads 0xEC5530E0 0 (.mbget ⟨21, 12, 14, 0, 0⟩) = true ∧ reads 0xEC895401 0 (.mbstat ⟨9, 21, 0, 1, 0⟩) = true := by decide
/-! One word for every instruction, its opcode from the maps of spec/09 R146 and R147, its fields where the format puts
them (R130 to R139). -/

def readsAll (l : List (Word × Word × Instr)) : Bool := l.all fun x => reads x.1 x.2.1 x.2.2

theorem test_words_iadd_to_fadd : readsAll
    [(0x40634FBB, 0x9000000, .iadd ⟨0x8d, 0x3e, 7, 0, 3, 9, 0, 0, 0⟩), (0x409E7F6B, 0x0, .isub ⟨0x79, 0xfd, 5, 0, 3, 0, 0, 0, 0⟩),
     (0x40DEBB3B, 0x5000100, .imul ⟨0x7a, 0xec, 7, 0, 3, 5, 0, 1, 0⟩), (0x413C3A59, 0x9000100, .imad ⟨0xf0, 0xe9, 3, 0, 1, 9, 0, 1, 0⟩),
     (0x416FD6FA, 0x3000000, .imin ⟨0xbf, 0x5b, 7, 0, 2, 3, 0, 0, 0⟩), (0x41ABAB68, 0x3008000, .imax ⟨0xae, 0xad, 5, 0, 0, 3, 0, 0x80, 0⟩),
     (0x41E3C990, 0x0, .iabs ⟨0x8f, 0x26, 2, 0, 0, 0, 0, 0, 0⟩), (0x01FDFF00, 0x0, .iabsLu ⟨0xf7, 0xfc⟩),
     (0x4212A67A, 0x9000000, .shl ⟨0x4a, 0x99, 7, 0, 2, 9, 0, 0, 0⟩), (0x424685EB, 0x9004000, .shr ⟨0x1a, 0x17, 5, 0, 3, 9, 0, 0x40, 0⟩),
     (0x42BDA6BA, 0x3000000, .sar ⟨0xf6, 0x9a, 7, 0, 2, 3, 0, 0, 0⟩), (0x42FCFD6A, 0x9060013, .blut ⟨0xf3, 0xf5, 5, 0, 2, 9, 6, 0, 0x13⟩),
     (0x432FAE10, 0x0, .popc ⟨0xbe, 0xb8, 2, 0, 0, 0, 0, 0, 0⟩), (0x033DBDC0, 0x0, .popcLu ⟨0xf6, 0xf7⟩),
     (0x43408028, 0x0, .clz ⟨2, 0, 5, 0, 0, 0, 0, 0, 0⟩), (0x036FFAC0, 0x0, .clzLu ⟨0xbf, 0xeb⟩),
     (0x43800012, 0x0, .brev ⟨0, 0, 2, 0, 2, 0, 0, 0, 0⟩), (0x03BF5DC0, 0x0, .brevLu ⟨0xfd, 0x77⟩),
     (0x43D5F792, 0x9000000, .bfe ⟨0x57, 0xde, 2, 0, 2, 9, 0, 0, 0⟩), (0x441F7F92, 0x5060000, .bfi ⟨0x7d, 0xfe, 2, 0, 2, 5, 6, 0, 0⟩),
     (0x444E6F98, 0x3028000, .sel ⟨0x39, 0xbe, 3, 0, 0, 3, 2, 0x80, 0⟩), (0x448100FA, 0x9020113, .icmp ⟨4, 3, 7, 0, 2, 9, 2, 1, 0x13⟩),
     (0x44D67BB8, 0x3008000, .lea ⟨0x59, 0xee, 7, 0, 0, 3, 0, 0x80, 0⟩), (0x45031E6B, 0x5060400, .idot4 ⟨0xc, 0x79, 5, 0, 3, 5, 6, 4, 0⟩),
     (0x457AD0F8, 0x5000000, .clmul ⟨0xeb, 0x43, 7, 0, 0, 5, 0, 0, 0⟩), (0x482567F8, 0x3000800, .fadd ⟨0x95, 0x9f, 7, 0, 0, 3, 0, 8, 0⟩)] = true := by decide

theorem test_words_fsub_to_fsgmLu : readsAll
    [(0x485FC8F9, 0x100, .fsub ⟨0x7f, 0x23, 7, 0, 1, 0, 0, 1, 0⟩), (0x48B22379, 0x3001800, .fmul ⟨0xc8, 0x8d, 7, 0, 1, 3, 0, 0x18, 0⟩),
     (0x48CE7AF8, 0x5020400, .ffma ⟨0x39, 0xeb, 7, 0, 0, 5, 2, 4, 0⟩), (0x491B6628, 0x9008000, .fmin ⟨0x6d, 0x98, 5, 0, 0, 9, 0, 0x80, 0⟩),
     (0x494B5DB8, 0x8000, .fmax ⟨0x2d, 0x76, 7, 0, 0, 0, 0, 0x80, 0⟩), (0x49810038, 0x3060013, .fcmp ⟨4, 0, 7, 0, 0, 3, 6, 0, 0x13⟩),
     (0x49C2AE18, 0x0, .fclass ⟨0xa, 0xb8, 3, 0, 0, 0, 0, 0, 0⟩), (0x4A284D58, 0x800, .frnd ⟨0xa1, 0x35, 3, 0, 0, 0, 0, 8, 0⟩),
     (0x4A614029, 0x800, .frcp ⟨0x85, 0, 5, 0, 1, 0, 0, 8, 0⟩), (0x0A7FBBC0, 0x0, .frcpLu ⟨0xfe, 0xef⟩),
     (0x4ABB5558, 0x800, .frsq ⟨0xed, 0x55, 3, 0, 0, 0, 0, 8, 0⟩), (0x0AB5FFC0, 0x0, .frsqLu ⟨0xd7, 0xff⟩),
     (0x4AC751F9, 0x100, .fsqrt ⟨0x1d, 0x47, 7, 0, 1, 0, 0, 1, 0⟩), (0x0AFFF740, 0x0, .fsqrtLu ⟨0xff, 0xdd⟩),
     (0x4B0B24B9, 0x0, .fex2 ⟨0x2c, 0x92, 7, 0, 1, 0, 0, 0, 0⟩), (0x0B3FEFC0, 0x0, .fex2Lu ⟨0xff, 0xbf⟩),
     (0x4B5CDA39, 0x0, .flg2 ⟨0x73, 0x68, 7, 0, 1, 0, 0, 0, 0⟩), (0x0B7FE7C0, 0x0, .flg2Lu ⟨0xff, 0x9f⟩),
     (0x4B8622F8, 0x1800, .fsin ⟨0x18, 0x8b, 7, 0, 0, 0, 0, 0x18, 0⟩), (0x0BBAF7C0, 0x0, .fsinLu ⟨0xeb, 0xdf⟩),
     (0x4BC618E8, 0x0, .fcos ⟨0x18, 0x63, 5, 0, 0, 0, 0, 0, 0⟩), (0x0BF77FC0, 0x0, .fcosLu ⟨0xdd, 0xff⟩),
     (0x4C004718, 0x1800, .ftanh ⟨1, 0x1c, 3, 0, 0, 0, 0, 0x18, 0⟩), (0x0C3FBEC0, 0x0, .ftanhLu ⟨0xfe, 0xfb⟩),
     (0x4C7C74F9, 0x800, .fsgm ⟨0xf1, 0xd3, 7, 0, 1, 0, 0, 8, 0⟩), (0x0C7FFB80, 0x0, .fsgmLu ⟨0xff, 0xee⟩)] = true := by decide

theorem test_words_cvt_to_red : readsAll
    [(0x501F9DF9, 0x100830, .cvt ⟨0x7e, 0x77, 7, 0, 1, 0, 0x10, 8, 0x30⟩), (0x504F58AB, 0x3000C03, .cvtn ⟨0x3d, 0x62, 5, 0, 3, 3, 0, 0xc, 3⟩),
     (0x50B2C638, 0x5004005, .blkpack ⟨0xcb, 0x18, 7, 0, 0, 5, 0, 0x40, 5⟩), (0x50EAEBF8, 0x5100006, .blkunpk ⟨0xab, 0xaf, 7, 0, 0, 5, 0x10, 0, 6⟩),
     (0x543F4DDA, 0x9008002, .shfl ⟨0xfd, 0x37, 3, 0, 2, 9, 0, 0x80, 2⟩), (0x54600028, 0x3, .vote ⟨0x80, 0, 5, 0, 0, 0, 0, 0, 3⟩),
     (0x54ABC7D8, 0x60001, .matchLanes ⟨0xaf, 0x1f, 3, 0, 0, 0, 6, 0, 1⟩), (0x54D503F8, 0x3, .redux ⟨0x54, 0xf, 7, 0, 0, 0, 0, 0, 3⟩),
     (0x55093D78, 0x1, .scan ⟨0x24, 0xf5, 7, 0, 0, 0, 0, 0, 1⟩), (0x588848D8, 0x3004000, .rdlane ⟨0x21, 0x23, 3, 0, 0, 3, 0, 0x40, 0⟩),
     (0x58E9A4D0, 0x1, .bcast ⟨0xa6, 0x93, 2, 0, 0, 0, 0, 0, 1⟩), (0x183FF940, 0x0, .mov ⟨0xff, 0xe5⟩),
     (0x182E4BC1, 0x0, .movUniform ⟨0xb9, 0x2f⟩), (0x1836FFC2, 0x0, .movB64 ⟨0xdb, 0xff⟩),
     (0x580A8038, 0x456487B0, .movImm ⟨0x2a, 0, 7, 0, 0, 0x456487b0⟩), (0x185DCBC0, 0x0, .s2v ⟨0x77, 0x2f⟩),
     (0x59000038, 0x50200A5, .plop ⟨0, 0, 7, 0, 0, 5, 2, 0, 0xa5⟩), (0x59400018, 0x0, .pmovGet ⟨0, 0, 3, 0, 0, 0, 0, 0, 0⟩),
     (0x59403FE8, 0x1, .pmovSet ⟨0, 0xff, 5, 0, 0, 0, 0, 0, 1⟩), (0x59800010, 0x0, .rng ⟨0, 0, 2, 0, 0, 0, 0, 0, 0⟩),
     (0x5C1FD93A, 0xC8B6C7F, .ld ⟨0x7f, 0x64, 7, 0, 2, 0, 3, 1, 0, 0xb6c7f⟩), (0x5C67E5D8, 0x4E993CA7, .st ⟨0x9f, 0x97, 3, 0, 0, 2, 3, 5, 1, 0x93ca7⟩),
     (0x5CA7EBE8, 0x22BF5335, .lds ⟨0x9f, 0xaf, 5, 0, 0, 1, 0, 5, 3, 0xf5335⟩), (0x5CD22658, 0x29A65F5D, .sts ⟨0x48, 0x99, 3, 0, 0, 1, 2, 3, 2, 0x65f5d⟩),
     (0x5D1A2710, 0x42090799, .atom ⟨0x68, 0x9c, 2, 0, 0, 2, 0, 4, 0, 0x90799⟩), (0x5D5565A8, 0x6D818977, .red ⟨0x55, 0x96, 5, 0, 0, 3, 3, 3, 0, 0x18977⟩)] = true := by decide

theorem test_words_pref_to_sshl : readsAll
    [(0x5D802092, 0x106A93, .pref ⟨0, 0x82, 2, 0, 2, 0, 0, 0, 1, 0x6a93⟩), (0x64238FB8, 0x3068005, .tex ⟨0x8e, 0x3e, 7, 0, 0, 3, 6, 0x80, 5⟩),
     (0x647547B8, 0x68001, .tfetch ⟨0xd5, 0x1e, 7, 0, 0, 0, 6, 0x80, 1⟩), (0x649D31E8, 0x5008003, .rayq ⟨0x74, 0xc7, 5, 0, 0, 5, 0, 0x80, 3⟩),
     (0x64C03F68, 0x30001, .raycont ⟨0, 0xfd, 5, 0, 0, 0, 3, 0, 1⟩), (0x65030728, 0x0, .rayget ⟨0xc, 0x1c, 5, 0, 0, 0, 0, 0, 0⟩),
     (0x6803F7A8, 0x11803, .ncall ⟨0xf, 0xde, 5, 0, 0, 0, 1, 0x18, 3⟩), (0x6866E1F8, 0x3008001, .rgdisp ⟨0x9b, 0x87, 7, 0, 0, 3, 0, 0x80, 1⟩),
     (0x6A390202, 0x73430000, .brx ⟨7, 0, 0x10202, 0x1cd0c, 0, 0⟩), (0x6A401045, 0xC00, .jtabx ⟨0, 0, 0x1045, 0, 0x30, 0⟩),
     (0x2A800EC0, 0x0, .retx ⟨0, 0x3b⟩), (0x2AC00000, 0x0, .discardLu),
     (0x6AC00038, 0x0, .discard ⟨0, 0, 7, 0, 0, 0, 0, 0, 0⟩), (0x807BFDFE, 0x0, .sadd ⟨0x3b, 0x3f, 0x1f, 7, 0⟩),
     (0xC04D6002, 0xE0EE2F6D, .saddImm ⟨0xd, 0x18, 0, 1, 0, 0xe0ee2f6d⟩), (0x80B4DFFE, 0x0, .ssub ⟨0x34, 0x37, 0x3f, 7, 0⟩),
     (0xC083F808, 0x556CD373, .ssubImm ⟨3, 0x3e, 0, 4, 0, 0x556cd373⟩), (0x80F7FFEE, 0x0, .smul ⟨0x37, 0x3f, 0x3e, 7, 0⟩),
     (0xC0C3DC02, 0xAABBA8B9, .smulImm ⟨3, 0x37, 0, 1, 0, 0xaabba8b9⟩), (0x813FF9DE, 0x0, .smad ⟨0x3f, 0x3e, 0x1d, 7, 0⟩),
     (0xC11E3002, 0x7EAC93E4, .smadImm ⟨0x1e, 0xc, 0, 1, 0, 0x7eac93e4⟩), (0x817BFD3E, 0x0, .smin ⟨0x3b, 0x3f, 0x13, 7, 0⟩),
     (0xC158A40E, 0xFFBFD6A8, .sminImm ⟨0x18, 0x29, 0, 7, 0, 0xffbfd6a8⟩), (0x819FFBF2, 0x0, .smax ⟨0x1f, 0x3e, 0x3f, 1, 0⟩),
     (0xC1B45C08, 0x39B041F5, .smaxImm ⟨0x34, 0x17, 0, 4, 0, 0x39b041f5⟩), (0x81DFFF2E, 0x0, .sshl ⟨0x1f, 0x3f, 0x32, 7, 0⟩)] = true := by decide

theorem test_words_sshlImm_to_sfmul : readsAll
    [(0xC1F3C008, 0x757F75D0, .sshlImm ⟨0x33, 0x30, 0, 4, 0, 0x757f75d0⟩), (0x8237F3FE, 0x0, .sshr ⟨0x37, 0x3c, 0x3f, 7, 0⟩),
     (0xC226080E, 0xEFAEFE3B, .sshrImm ⟨0x26, 2, 0, 7, 0, 0xefaefe3b⟩), (0x826BFBF8, 0x0, .ssar ⟨0x2b, 0x3e, 0x3f, 4, 0⟩),
     (0xC27CA808, 0xFF49EAC7, .ssarImm ⟨0x3c, 0x2a, 0, 4, 0, 0xff49eac7⟩), (0x829FFABE, 0x0, .sblut ⟨0x1f, 0x3e, 0x2b, 7, 0⟩),
     (0xC2B0FC08, 0x91E3A6C7, .sblutImm ⟨0x30, 0x3f, 0, 4, 0, 0x91e3a6c7⟩), (0x82E5037E, 0x0, .spopc ⟨0x25, 0, 0x37, 7, 0⟩),
     (0xC2CA0002, 0xFC825690, .spopcImm ⟨0xa, 0, 0, 1, 0, 0xfc825690⟩), (0x832F00DE, 0x0, .sclz ⟨0x2f, 0, 0xd, 7, 0⟩),
     (0xC314000E, 0xE4155080, .sclzImm ⟨0x14, 0, 0, 7, 0, 0xe4155080⟩), (0x83773FDE, 0x0, .sbfe ⟨0x37, 0xf, 0x3d, 7, 0⟩),
     (0xC377D402, 0xB5B6BDB7, .sbfeImm ⟨0x37, 0x35, 0, 1, 0, 0xb5b6bdb7⟩), (0x83BBAFEE, 0x0, .sbfi ⟨0x3b, 0x2b, 0x3e, 7, 0⟩),
     (0xC382AC08, 0xF73B21DD, .sbfiImm ⟨2, 0x2b, 0, 4, 0, 0xf73b21dd⟩), (0x83E1FEFE, 0x0, .ssel ⟨0x21, 0x3f, 0x2f, 7, 0⟩),
     (0xC3D98C02, 0x57D7BAAF, .sselImm ⟨0x19, 0x23, 0, 1, 0, 0x57d7baaf⟩), (0x842FF5DE, 0x0, .scmp ⟨0x2f, 0x3d, 0x1d, 7, 0⟩),
     (0xC428C40E, 0xF7B72E7F, .scmpImm ⟨0x28, 0x31, 0, 7, 0, 0xf7b72e7f⟩), (0x847DB6FE, 0x0, .slea ⟨0x3d, 0x2d, 0x2f, 7, 0⟩),
     (0xC45F0C02, 0x2775AD33, .sleaImm ⟨0x1f, 3, 0, 1, 0, 0x2775ad33⟩), (0x84AA032E, 0x0, .smov ⟨0x2a, 0, 0x32, 7, 0⟩),
     (0xC4B10008, 0x567A0505, .smovImm ⟨0x31, 0, 0, 4, 0, 0x567a0505⟩), (0x882F3FFE, 0x0, .sfadd ⟨0x2f, 0xf, 0x3f, 7, 0⟩),
     (0xC81ECC08, 0xF04BE29D, .sfaddImm ⟨0x1e, 0x33, 0, 4, 0, 0xf04be29d⟩), (0x887EDFEE, 0x0, .sfmul ⟨0x3e, 0x37, 0x3e, 7, 0⟩)] = true := by decide

theorem test_words_sfmulImm_to_barsImm : readsAll
    [(0xC855EC0E, 0x9C69B52B, .sfmulImm ⟨0x15, 0x3b, 0, 7, 0, 0x9c69b52b⟩), (0x8893F7FE, 0x0, .sffma ⟨0x13, 0x3d, 0x3f, 7, 0⟩),
     (0xC8A8A80E, 0xCD699CBA, .sffmaImm ⟨0x28, 0x2a, 0, 7, 0, 0xcd699cba⟩), (0x88EDB7FE, 0x0, .scvt ⟨0x2d, 0x2d, 0x3f, 7, 0⟩),
     (0xC8C39408, 0x3C78544B, .scvtImm ⟨3, 0x25, 0, 4, 0, 0x3c78544b⟩), (0xCA063400, 0x64808F42, .sld ⟨6, 0xd, 0, 0, 0x64808f42⟩),
     (0xCA700400, 0x9E822D, .sst ⟨0x30, 1, 0, 0, 0x9e822d⟩), (0xCA8C0C00, 0x42204400, .satom ⟨0xc, 3, 0, 0, 0x42204400⟩),
     (0x8C00000E, 0x0, .nop ⟨0, 0, 0, 7, 0⟩), (0x8C6F9FFF, 0x0, .bra ⟨5, 1, 0x39fff⟩),
     (0x8C9FBFFB, 0x0, .call ⟨3, 1, 0x3bffb⟩), (0x8CC0000E, 0x0, .ret ⟨0, 0, 0, 7, 0⟩),
     (0xCD00000E, 0x3410, .jtab ⟨0, 0, 0, 7, 0, 0x3410⟩), (0xCD40000E, 0x8, .regang ⟨0, 0, 0, 7, 0, 8⟩),
     (0x8D80000E, 0x0, .exit ⟨0, 0, 0, 7, 0⟩), (0xCDC1000E, 0x9108, .dbnz ⟨1, 0, 0, 7, 0, 0x9108⟩),
     (0x903BBFD9, 0x0, .wait ⟨0x1d, 0x1b, 0x1f, 0x16, 1⟩), (0xD0405C01, 0xD6652A3B, .waitc ⟨0, 0x17, 0, 1, 0xd6652a3b⟩),
     (0x9080AFFE, 0x0, .bari ⟨0, 0x2b, 0x3f, 7, 0⟩), (0xD080900E, 0x0, .bariImm ⟨0, 0x24, 0, 7, 0, 0⟩),
     (0x90EB024E, 0x0, .bara ⟨0x2b, 0, 0x24, 7, 0⟩), (0xD0C1000E, 0x8, .baraImm ⟨1, 0, 0, 7, 0, 8⟩),
     (0x9100A66E, 0x0, .barw ⟨0, 0x29, 0x26, 7, 0⟩), (0xD100C00E, 0x60, .barwImm ⟨0, 0x30, 0, 7, 0, 0x60⟩),
     (0x914002CE, 0x0, .bars ⟨0, 0, 0x2c, 7, 0⟩), (0xD140000E, 0x100, .barsImm ⟨0, 0, 0, 7, 0, 0x100⟩)] = true := by decide

theorem test_words_bard_to_pput : readsAll
    [(0x9180029E, 0x0, .bard ⟨0, 0, 0x29, 7, 0⟩), (0xD180000E, 0x4, .bardImm ⟨0, 0, 0, 7, 0, 4⟩),
     (0x91C0084E, 0x0, .fence ⟨0, 2, 4, 7, 0⟩), (0x943D900E, 0x0, .srd ⟨0x3d, 0x24, 0, 7, 0⟩),
     (0x945B580E, 0x0, .swr ⟨0x1b, 0x16, 0, 7, 0⟩), (0x9480038E, 0x0, .setpart ⟨0, 0, 0x38, 7, 0⟩),
     (0xD480000E, 0x204524C4, .setpartImm ⟨0, 0, 0, 7, 0, 0x204524c4⟩), (0x94C0016E, 0x0, .setbound ⟨0, 0, 0x16, 7, 0⟩),
     (0xD4C0000E, 0x1103500, .setboundImm ⟨0, 0, 0, 7, 0, 0x1103500⟩), (0x9500F5F2, 0x0, .rngseed ⟨0, 0x3d, 0x1f, 1, 0⟩),
     (0xD8008040, 0x22589002, .mloop ⟨0, 0x20, 4, 0, 0x22589002⟩), (0xD8400001, 0x8, .mclr ⟨0, 0, 0, 1, 8⟩),
     (0xD8800000, 0x82000004, .manchor ⟨0, 0, 0, 0, 0x82000004⟩), (0xD8C00001, 0x1594008, .mround ⟨0, 0, 0, 1, 0x1594008⟩),
     (0xD9000000, 0x10009B80, .mloada ⟨0, 0, 0, 0, 0x10009b80⟩), (0xD9600000, 0x0, .mbatch ⟨0x20, 0, 0, 0, 0⟩),
     (0xD9800201, 0x20400000, .mxform ⟨0, 0, 0x20, 1, 0x20400000⟩), (0xD9C00001, 0x0, .mesc ⟨0, 0, 0, 1, 0⟩),
     (0xDA010000, 0x22, .mstat ⟨1, 0, 0, 0, 0x22⟩), (0xE00D60F2, 0x7EE7B860, .cpy ⟨0xd, 0x18, 0xf, 2, 0x7ee7b860⟩),
     (0xE07001D0, 0x29C649D0, .cpyg ⟨0x30, 0, 0x1d, 0, 0x29c649d0⟩), (0xE090B1E8, 0x1113E000, .cpyx ⟨0x10, 0x2c, 0x1e, 8, 0x1113e000⟩),
     (0xE4210000, 0x0, .tspawn ⟨0x21, 0, 0, 0, 0⟩), (0xE4404000, 0x0, .tnotify ⟨0, 0x10, 0, 0, 0⟩),
     (0xE4910000, 0x0, .prsv ⟨0x11, 0, 0, 0, 0⟩), (0xE4C05000, 0x0, .pput ⟨0, 0x14, 0, 0, 0⟩)] = true := by decide

theorem test_words_pget_to_commit : readsAll
    [(0xE5020000, 0x9, .pget ⟨2, 0, 0, 0, 9⟩), (0xE5401000, 0x8, .prel ⟨0, 4, 0, 0, 8⟩),
     (0xE8020000, 0x0, .twtag ⟨2, 0, 0, 0, 0⟩), (0xE8407000, 0x0, .twfree ⟨0, 0x1c, 0, 0, 0⟩),
     (0xE888E400, 0x0, .twsend ⟨8, 0x39, 0, 0, 0⟩), (0xE8FFE7E0, 0x0, .twrecv ⟨0x3f, 0x39, 0x3e, 0, 0⟩),
     (0xE8FEFC01, 0x0, .twrecvSt ⟨0x3e, 0x3f, 0, 1, 0⟩), (0xEC128010, 0x0, .mbput ⟨0x12, 0x20, 1, 0, 0⟩),
     (0xEC510020, 0x0, .mbget ⟨0x11, 0, 2, 0, 0⟩), (0xEC868000, 0x0, .mbstat ⟨6, 0x20, 0, 0, 0⟩),
     (0xEE00C000, 0x0, .wpref ⟨0, 0x30, 0, 0, 0⟩), (0xEE440800, 0x0, .wpin ⟨4, 2, 0, 0, 0⟩),
     (0xEE804800, 0x0, .wunpin ⟨0, 0x12, 0, 0, 0⟩), (0xEEC08910, 0x0, .wver ⟨0, 0x22, 0x11, 0, 0⟩),
     (0xEF000000, 0x0, .nflush ⟨0, 0, 0, 0, 0⟩), (0xF000000E, 0x9A0, .trap ⟨0, 0, 0, 7, 0, 0x9a0⟩),
     (0xB040000E, 0x0, .bkpt ⟨0, 0, 0, 7, 0⟩), (0xF080000E, 0x23050054, .mark ⟨0, 0, 0, 7, 0, 0x23050054⟩),
     (0xB0C0000E, 0x0, .snap ⟨0, 0, 0, 7, 0⟩), (0xB100000E, 0x0, .tret ⟨0, 0, 0, 7, 0⟩),
     (0xB140000E, 0x0, .commit ⟨0, 0, 0, 7, 0⟩)] = true := by decide

/-! ## Ill-formed terms, one for each check (spec/09 R140 to R150 and the rules of the instructions) -/

def allRefused (l : List Instr) : Bool := l.all fun i => !i.wf

theorem test_ill_formed_guards_and_widths : allRefused
    [.iadd ⟨1, 2, 7, 1, 0, 3, 0, 0, 0⟩, .ld ⟨1, 2, 7, 1, 0, 2, 0, 0, 0, 0⟩, .movImm ⟨1, 0, 7, 1, 0, 5⟩, .brx ⟨7, 1, 4, 8, 0, 0⟩,
     .sadd ⟨1, 2, 3, 7, 1⟩, .saddImm ⟨1, 2, 0, 7, 1, 5⟩, .saddImm ⟨1, 2, 1, 7, 0, 5⟩, .bra ⟨7, 1, 2⟩,
     .imad ⟨1, 2, 7, 0, 2, 3, 4, 0, 0⟩, .popc ⟨1, 2, 7, 0, 1, 0, 0, 0, 0⟩, .idot4 ⟨1, 2, 7, 0, 0, 3, 4, 0, 0⟩,
     .clmul ⟨1, 2, 7, 0, 1, 3, 0, 0, 0⟩, .fadd ⟨1, 2, 7, 0, 2, 3, 0, 0, 0⟩, .frcp ⟨1, 2, 7, 0, 3, 0, 0, 0, 0⟩,
     .cvt ⟨1, 2, 7, 0, 2, 0, 0, 0, 0x10⟩, .cvtn ⟨1, 2, 7, 0, 0, 3, 0, 0, 1⟩, .blkpack ⟨1, 2, 7, 0, 1, 0, 8, 0, 6⟩,
     .shfl ⟨1, 2, 7, 0, 1, 3, 7, 0, 0⟩, .redux ⟨1, 2, 7, 0, 2, 0, 0, 0, 0⟩, .tex ⟨1, 2, 7, 0, 1, 8, 0, 0x80, 0⟩,
     .pmovGet ⟨1, 0, 7, 0, 1, 0, 0, 0, 0⟩, .rng ⟨1, 0, 7, 0, 1, 0, 0, 0, 0⟩, .rdlane ⟨1, 2, 7, 0, 1, 3, 0, 0x40, 0⟩] = true := by
  decide

theorem test_ill_formed_operand_fields : allRefused
    [.iadd ⟨1, 2, 7, 0, 0, 3, 0, 0xC0, 0⟩, .iadd ⟨1, 2, 7, 0, 0, 0x40, 0, 0x80, 0⟩, .fadd ⟨1, 2, 7, 0, 0, 3, 0, 0x40, 0⟩,
     .rdlane ⟨1, 2, 7, 0, 0, 3, 0, 0, 0⟩, .rdlane ⟨0x41, 2, 7, 0, 0, 3, 0, 0x40, 0⟩, .iabs ⟨1, 2, 7, 0, 0, 3, 0, 0, 0⟩,
     .iadd ⟨1, 2, 7, 0, 0, 3, 4, 0, 0⟩, .iadd ⟨1, 2, 7, 0, 0, 3, 0, 2, 0⟩, .iadd ⟨1, 2, 7, 0, 0, 3, 0, 0, 1⟩,
     .imul ⟨1, 2, 7, 0, 1, 3, 0, 2, 0⟩, .imul ⟨1, 2, 7, 0, 0, 3, 0, 4, 0⟩, .imin ⟨1, 2, 7, 0, 0, 3, 0, 4, 0⟩,
     .shl ⟨1, 2, 7, 0, 0, 3, 0, 1, 0⟩, .blut ⟨1, 2, 7, 0, 0, 3, 4, 1, 0x55⟩, .sel ⟨1, 2, 7, 0, 0, 3, 0x10, 0, 0⟩,
     .icmp ⟨8, 2, 7, 0, 0, 3, 0, 0, 0⟩, .icmp ⟨1, 2, 7, 0, 0, 3, 0, 0, 6⟩, .icmp ⟨1, 2, 7, 0, 0, 3, 0, 0, 8⟩,
     .icmp ⟨1, 2, 7, 0, 0, 3, 1, 0, 0⟩, .icmp ⟨1, 2, 7, 0, 0, 3, 0, 0, 0x40⟩, .fcmp ⟨1, 2, 7, 0, 0, 3, 0, 0, 0xE⟩,
     .lea ⟨1, 2, 7, 0, 0, 3, 0, 1, 0⟩, .lea ⟨1, 2, 7, 0, 2, 3, 0, 0, 8⟩, .fadd ⟨1, 2, 7, 0, 0, 3, 0, 1, 0⟩,
     .fadd ⟨1, 2, 7, 0, 0, 3, 0, 0x28, 0⟩, .fadd ⟨1, 2, 7, 0, 0, 3, 0, 2, 0⟩, .fclass ⟨1, 2, 7, 0, 0, 0, 0, 4, 0⟩,
     .frcp ⟨1, 2, 7, 0, 0, 0, 0, 4, 0⟩] = true := by decide

theorem test_ill_formed_conversions_and_exchanges : allRefused
    [.cvt ⟨1, 2, 7, 0, 0, 0, 0, 0, 0x05⟩, .cvt ⟨1, 2, 7, 0, 0, 0, 0, 0, 0xD0⟩, .cvt ⟨1, 2, 7, 0, 0, 0, 0x80, 0, 0x10⟩,
     .cvt ⟨1, 2, 7, 0, 0, 0, 0x20, 0, 0x10⟩, .cvt ⟨1, 2, 7, 0, 1, 0, 0, 0x28, 0x10⟩, .cvt ⟨1, 2, 7, 0, 0, 0, 0, 0x08, 0x9C⟩,
     .cvtn ⟨1, 2, 7, 0, 1, 3, 0, 0, 3⟩, .cvtn ⟨1, 2, 7, 0, 3, 3, 2, 0, 11⟩, .cvtn ⟨1, 2, 7, 0, 1, 3, 0, 0, 0x11⟩,
     .blkpack ⟨1, 2, 7, 0, 0, 3, 0, 0, 5⟩, .blkpack ⟨1, 2, 7, 0, 0, 0, 1, 0, 6⟩, .blkpack ⟨1, 2, 7, 0, 0, 0, 8, 0, 4⟩,
     .blkunpk ⟨1, 2, 7, 0, 0, 0, 33, 0, 6⟩, .blkunpk ⟨1, 2, 7, 0, 0, 1, 0, 0, 5⟩, .shfl ⟨1, 2, 7, 0, 0, 3, 8, 0, 0⟩,
     .shfl ⟨1, 2, 7, 0, 0, 3, 7, 0, 4⟩, .vote ⟨8, 2, 7, 0, 0, 0, 0, 0, 0⟩, .vote ⟨1, 0x10, 7, 0, 0, 0, 0, 0, 0⟩,
     .vote ⟨1, 2, 7, 0, 0, 0, 0, 0, 4⟩, .matchLanes ⟨1, 2, 7, 0, 0, 0, 7, 0, 2⟩, .redux ⟨1, 2, 7, 0, 0, 0, 0, 0, 9⟩,
     .redux ⟨1, 2, 7, 0, 0, 0, 0, 1, 0⟩, .scan ⟨1, 2, 7, 0, 0, 0, 0, 0, 6⟩, .bcast ⟨1, 2, 7, 0, 0, 0, 0, 0, 2⟩,
     .movUniform ⟨1, 0x40⟩, .movImm ⟨1, 2, 7, 0, 0, 5⟩, .s2v ⟨1, 0x30⟩, .plop ⟨8, 1, 7, 0, 0, 2, 3, 0, 0⟩,
     .plop ⟨1, 1, 7, 0, 0, 2, 8, 0, 0⟩, .pmovGet ⟨1, 0, 7, 0, 0, 0, 0, 0, 1⟩, .pmovSet ⟨0, 2, 7, 0, 0, 0, 0, 0, 0⟩,
     .rng ⟨1, 0, 7, 0, 0, 0, 0, 0, 2⟩, .rng ⟨1, 0, 7, 0, 2, 0, 0, 0, 1⟩] = true := by decide

theorem test_ill_formed_memory_forms : allRefused
    [.ld ⟨1, 2, 7, 0, 3, 2, 0, 0, 0, 0⟩, .st ⟨1, 2, 7, 0, 1, 2, 0, 0, 0, 0⟩, .lds ⟨1, 2, 7, 0, 1, 2, 0, 0, 0, 0⟩,
     .ld ⟨1, 2, 7, 0, 0, 5, 0, 0, 0, 0⟩, .ld ⟨1, 2, 7, 0, 0, 2, 5, 1, 0, 0⟩, .ld ⟨1, 2, 7, 0, 0, 2, 0, 0, 4, 0⟩,
     .ld ⟨1, 2, 7, 0, 0, 2, 1, 0, 0, 0⟩, .ld ⟨1, 2, 7, 0, 0, 2, 1, 3, 0, 0⟩, .ld ⟨1, 2, 7, 0, 1, 2, 1, 1, 0, 0⟩,
     .st ⟨1, 2, 7, 0, 0, 2, 1, 2, 0, 0⟩, .atom ⟨1, 2, 7, 0, 0, 2, 1, 0, 0, 0⟩, .atom ⟨1, 2, 7, 0, 0, 1, 1, 1, 0, 0⟩,
     .atom ⟨1, 2, 7, 0, 0, 2, 1, 1, 0, 0x0B000⟩, .red ⟨1, 2, 7, 0, 0, 2, 1, 1, 0, 0x08000⟩, .atom ⟨1, 2, 7, 0, 2, 2, 1, 1, 0, 0x80000⟩,
     .red ⟨1, 2, 7, 0, 0, 4, 1, 1, 0, 0x19400⟩, .pref ⟨1, 2, 7, 0, 0, 0, 0, 0, 0, 0⟩, .pref ⟨0, 2, 7, 0, 0, 0, 0, 0, 3, 0⟩,
     .sld ⟨1, 2, 0, 3, 0x40000000⟩, .sld ⟨1, 2, 1, 0, 0x40000000⟩, .sld ⟨1, 2, 0, 1, 0x40800000⟩, .sst ⟨1, 2, 0, 1, 0x40000000⟩,
     .satom ⟨1, 2, 0, 2, 0x40800000⟩, .satom ⟨1, 2, 3, 0, 0x40800000⟩] = true := by decide

theorem test_ill_formed_control_forms : allRefused
    [.brx ⟨7, 0, 4, 8, 1, 0⟩, .jtabx ⟨7, 0, 4, 8, 5, 0⟩, .retx ⟨1, 2⟩, .discard ⟨0, 1, 7, 0, 0, 0, 0, 0, 0⟩, .nop ⟨1, 0, 0, 7, 0⟩,
     .jtab ⟨0, 1, 0, 7, 0, 0x40000⟩, .regang ⟨0, 0, 0, 7, 0, 0x400⟩, .dbnz ⟨1, 2, 0, 7, 0, 4⟩, .dbnz ⟨1, 0, 0, 7, 0, 0x40000⟩,
     .wait ⟨0, 0, 0, 0, 2⟩, .waitc ⟨8, 1, 0, 0, 0x22⟩, .waitc ⟨1, 1, 0, 4, 0x22⟩, .waitc ⟨1, 1, 0, 0, 0⟩, .waitc ⟨1, 1, 2, 0, 0x22⟩,
     .waitc ⟨1, 1, 0, 0, 0x81⟩, .bariImm ⟨0, 1, 0, 7, 0, 0x400⟩, .bari ⟨1, 1, 2, 7, 0⟩, .bara ⟨1, 1, 2, 7, 0⟩, .bars ⟨0, 1, 2, 7, 0⟩,
     .fence ⟨0, 5, 2, 7, 0⟩, .fence ⟨0, 1, 1, 7, 0⟩, .srd ⟨1, 0, 0, 7, 0⟩, .srd ⟨1, 0x30, 0, 7, 0⟩, .swr ⟨0x30, 1, 0, 7, 0⟩,
     .rngseed ⟨1, 2, 3, 7, 0⟩, .spopc ⟨1, 2, 3, 7, 0⟩, .scvtImm ⟨1, 2, 0, 7, 0, 5⟩, .scvtImm ⟨1, 2, 0, 7, 0, 0x510⟩,
     .trap ⟨0, 0, 0, 7, 0, 0x10000⟩, .illegalInstruction 0 .illop] = true := by decide

theorem test_ill_formed_engine_forms : allRefused
    [.mloop ⟨0, 1, 2, 4, 0x33000000⟩, .mloop ⟨0, 1, 2, 0, 0x31000000⟩, .mloop ⟨1, 1, 2, 0, 0x33000000⟩, .mloop ⟨1, 1, 2, 0, 0x55000040⟩,
     .mloop ⟨0, 1, 2, 0, 0x33000001⟩, .mclr ⟨1, 0, 0, 0, 0⟩, .mclr ⟨0, 0, 0, 2, 0⟩, .manchor ⟨0, 1, 0, 0, 0⟩, .manchor ⟨0, 1, 0, 1, 0x400000⟩,
     .mround ⟨0, 0, 0, 15, 0x00000006⟩, .mround ⟨0, 0, 0, 0, 0x50000000⟩, .mround ⟨0, 0, 0, 0, 0x9A000000⟩, .mloada ⟨0, 0, 0, 0, 0x01000000⟩,
     .mbatch ⟨1, 0, 0, 0, 1⟩, .mxform ⟨0, 1, 0, 0, 0x30C00000⟩, .mxform ⟨0, 1, 2, 0, 0x30000000⟩, .mesc ⟨0, 1, 0, 0, 0⟩, .mstat ⟨1, 0, 0, 2, 0⟩,
     .cpy ⟨1, 2, 4, 0, 1⟩, .cpyg ⟨1, 2, 4, 1, 0⟩, .cpyx ⟨1, 2, 4, 12, 0⟩, .cpyx ⟨1, 2, 4, 0, 0x800⟩, .tspawn ⟨1, 2, 1, 0, 0⟩,
     .tnotify ⟨1, 2, 0, 0, 0⟩, .prsv ⟨1, 0, 0, 2, 0⟩, .prsv ⟨1, 0, 0, 0, 0x10⟩, .pput ⟨1, 2, 0, 0, 0⟩, .twtag ⟨1, 2, 0, 0, 0⟩,
     .twfree ⟨0, 2, 1, 0, 0⟩, .twsend ⟨1, 2, 4, 0, 6⟩, .twrecv ⟨1, 2, 4, 2, 0⟩, .twrecvSt ⟨1, 2, 4, 1, 0⟩, .mbput ⟨1, 2, 4, 2, 0⟩,
     .mbget ⟨1, 2, 4, 1, 0⟩, .mbstat ⟨1, 2, 3, 0, 0⟩, .wpref ⟨1, 2, 0, 0, 0⟩, .wpin ⟨1, 2, 1, 0, 0⟩, .wver ⟨1, 2, 4, 1, 0⟩,
     .nflush ⟨1, 0, 0, 0, 0⟩, .tex ⟨1, 2, 7, 0, 0, 8, 1, 0x80, 0⟩, .tex ⟨1, 2, 7, 0, 0, 8, 0, 0x80, 3⟩, .tfetch ⟨1, 2, 7, 0, 0, 8, 0, 0x80, 3⟩,
     .rayq ⟨1, 2, 7, 0, 0, 8, 0, 0x80, 8⟩, .raycont ⟨1, 2, 7, 0, 0, 0, 0, 0, 0⟩, .rayget ⟨1, 2, 7, 0, 0, 0, 0, 0, 1⟩,
     .ncall ⟨1, 2, 7, 0, 0, 1, 3, 0, 0⟩, .ncall ⟨1, 2, 7, 0, 0, 0, 3, 0x20, 0⟩, .rgdisp ⟨1, 2, 7, 0, 0, 8, 3, 0x80, 3⟩] = true := by decide

/-- Opcode 0, a reserved opcode, and a length that the opcode lacks (spec/09 R146 to R148, R150). -/
theorem test_words_refused : ([0x00000000, 0x80000000, 0x60000000, 0x5E000000, 0x45C00000, 0x00400000, 0x8A000000, 0xCC00000E,
    0xFC000000, 0x4C00000E] : List Word).all (fun w => (decode w 0).toOption.isNone) = true := by decide

/-! ## A small machine: one team of one warp of one split, a page at address 0 that may be read, written and fetched -/

def split : Split := { mask := 0xFF, pc := 0, parent := 0, lastIssue := 0 }

def warp : Warp := {
  num := 0, iu := 0, role := 1, budget := 1024, vbound := 64
  slices := List.replicate 8 {}, splits := [split], recs := [⟨0, 0xFF, none⟩] }

def team (w : Warp) : Team := {
  uid := 1, ctx := 0, inst := 1, core := 0, gang := 2, num := 0, taskIdx := 0, prod := 0, warps := [w]
  scrBase := 0, scrBytes := 65536, entry := 0, bars := [{}, {}], startTick := 0 }

def gang : Gang := {
  uid := 2, ctx := 0, gangId := 0, cluster := 0, task := 3, prio := 0, teams := [1], drain := true, started := 0 }

def st (w : Warp) : State := { State.reset with
  fwState := 1, tlb := [⟨0, 0, 0, 65536, 0x3D⟩], teams := [team w], gangs := [gang], nextId := 10, cur := ⟨1, 0, 0⟩ }

def view (w : Warp) : View := ⟨team w, w, split⟩

/-- Values in lane 0 of vector registers. -/
def lane0 (vs : List (Nat × Word)) : Warp := vs.foldl (fun w x => w.setV x.1 0 x.2) warp

/-- Values in uniform registers of every slice. -/
def uniform (ss : List (Nat × Word)) : Warp :=
  { warp with slices := List.replicate 8 (ss.foldl (fun (sl : Slice) x => sl.setS x.1 x.2) {}) }

/-- The outcome is a next state of which p holds. -/
def next (o : Host.Outcome State Fault Refusal) (p : State → Bool) : Bool := match o with | .next s => p s | _ => false

/-- Lane 0 of vector register r, and uniform register r of slice 0, of the warp. -/
def vIs (r : Nat) (x : Word) (s : State) : Bool := (s.warpAt 1 0).any fun w => w.v r 0 == x
def sIs (r : Nat) (x : Word) (s : State) : Bool := (s.warpAt 1 0).any fun w => (w.sl 0).s r == x
def flagsAre (x : Word) (s : State) : Bool := (s.team? 1).any fun t => t.flags == x
def pcIs (x : Addr) (s : State) : Bool := (s.warpAt 1 0).any fun w => w.splits.map (·.pc) == [x]

/-! ## One step each; the expected values are computed by hand from the rules named -/

/-- spec/11 R168: saturation at 2^31 − 1 with the flag SAT; wrapping without it. -/
theorem test_iadd : next (exec (.iadd ⟨1, 2, 7, 0, 0, 3, 0, 0x04, 0⟩) (st (lane0 [(2, 0x7FFFFFFF), (3, 1)])))
      (fun s => vIs 1 0x7FFFFFFF s && flagsAre 0x20 s) = true ∧
    next (exec (.iadd ⟨1, 2, 7, 0, 0, 3, 0, 0, 0⟩) (st (lane0 [(2, 0x7FFFFFFF), (3, 1)])))
      (fun s => vIs 1 0x80000000 s && flagsAre 0 s) = true := by decide

/-- spec/11 R168: HI gives the upper half of the product. -/
theorem test_imul_hi : next (exec (.imul ⟨1, 2, 7, 0, 0, 3, 0, 0x02, 0⟩) (st (lane0 [(2, 0xFFFFFFFF), (3, 2)])))
    (vIs 1 0xFFFFFFFF) = true := by decide

/-- spec/11 R169: a shift of the width gives 0, an arithmetic one copies of the sign. -/
theorem test_shifts : next (exec (.shl ⟨1, 2, 7, 0, 0, 32, 0, 0x40, 0⟩) (st (lane0 [(2, 1)]))) (vIs 1 0) = true ∧
    next (exec (.sar ⟨1, 2, 7, 0, 0, 33, 0, 0x40, 0⟩) (st (lane0 [(2, 0x80000000)]))) (vIs 1 0xFFFFFFFF) = true := by decide

/-- spec/11 R171, R172. -/
theorem test_clz_and_bfe : next (exec (.clz ⟨1, 2, 7, 0, 0, 0, 0, 0, 0⟩) (st (lane0 [(2, 0x00010000)]))) (vIs 1 15) = true ∧
    next (exec (.bfe ⟨1, 2, 7, 0, 0, 3, 0, 0, 0⟩) (st (lane0 [(2, 0xF80), (3, 0x0504)]))) (vIs 1 0xFFFFFFF8) = true := by decide

/-- spec/11 R179: 1.0 + 2.0 = 3.0 in FP32, and ∞ − ∞ is the canonical NaN with INV. -/
theorem test_fadd : next (exec (.fadd ⟨1, 2, 7, 0, 0, 3, 0, 0, 0⟩) (st (lane0 [(2, 0x3F800000), (3, 0x40000000)])))
      (fun s => vIs 1 0x40400000 s && flagsAre 0 s) = true ∧
    next (exec (.fadd ⟨1, 2, 7, 0, 0, 3, 0, 0, 0⟩) (st (lane0 [(2, 0x7F800000), (3, 0xFF800000)])))
      (fun s => vIs 1 0x7FC00000 s && flagsAre 1 s) = true := by decide

/-- spec/11 R187: FP32 1.5 to BF16 is 0x3FC0, in the low half of the destination. -/
theorem test_cvt : next (exec (.cvt ⟨1, 2, 7, 0, 0, 0, 0, 0, 0x10⟩) (st (lane0 [(1, 0xABCD0000), (2, 0x3FC00000)])))
    (vIs 1 0xABCD3FC0) = true := by decide

/-- spec/13 R212, R219. -/
theorem test_scalar : next (exec (.sadd ⟨1, 2, 3, 7, 0⟩) (st (uniform [(2, 5), (3, 0xFFFFFFFF)]))) (sIs 1 4) = true ∧
    next (exec (.dbnz ⟨5, 0, 0, 7, 0, 0x0003FFFE⟩) (st (uniform [(5, 2)]))) (fun s => sIs 5 1 s && pcIs (-8) s) = true ∧
    next (exec (.dbnz ⟨5, 0, 0, 7, 0, 0x0003FFFE⟩) (st (uniform [(5, 1)]))) (fun s => sIs 5 0 s && pcIs 8 s) = true := by decide

/-- spec/13 R217, R218. -/
theorem test_branches : next (exec (.bra ⟨7, 0, 3⟩) (st warp)) (pcIs 12) = true ∧
    next (exec (.call ⟨7, 0, 3⟩) (st warp)) (fun s => pcIs 12 s && (s.warpAt 1 0).any fun w => (w.sl 7).rstack == [4]) = true := by
  decide

/-- spec/13 R224: the lanes of slice 0 with p0 go first, the others are deferred. -/
theorem test_brx : next (exec (.brx ⟨0, 0, 4, 8, 0, 0⟩) (st (warp.setP 0 0 true)))
    (fun s => (s.warpAt 1 0).any fun w => (w.sl 0).act == 1 && (w.sl 0).dstack == [⟨14, 8, 32, false, 15⟩] &&
      w.pcOf 0 == 16 && w.pcOf 1 == 8) = true := by decide

/-- spec/15 R254, R255, spec/00 R2: a load of four bytes, lowest first, in flight until it completes. -/
theorem test_ld : next (exec (.ld ⟨8, 2, 0, 0, 0, 2, 0, 0, 0, 4⟩)
      { st ((lane0 [(2, 0x100)]).setP 0 0 true) with mem := [(0x104, 0x78), (0x105, 0x56), (0x106, 0x34), (0x107, 0x12)] })
    (fun s => s.memOps.map (·.vwrites) == [[(8, 0, 0x12345678)]] && (s.warpAt 1 0).any fun w => w.ld == 1) = true := by decide

/-- spec/07 R99: a weak store lies dirty in L1, and the home is as it was. -/
theorem test_st : next (exec (.st ⟨8, 2, 0, 0, 0, 1, 0, 0, 0, 0⟩) (st ((lane0 [(2, 0x100), (8, 0xAABBCCDD)]).setP 0 0 true)))
    (fun s => s.mem == [] && s.look 0 0x100 == 0xDD && s.look 0 0x101 == 0xCC && s.look 1 0x100 == 0) = true := by decide

/-- spec/15 R251: a load off its size is MISALIGN with its address; without a handler the team is killed. -/
theorem test_ld_misaligned : next (exec (.ld ⟨8, 2, 0, 0, 0, 2, 0, 0, 0, 2⟩) (st ((lane0 [(2, 0x100)]).setP 0 0 true)))
    (fun s => s.teams == [] && (s.ctxOf 0).fqSeq == 1) = true := by decide

/-- spec/15 R259, spec/07 R120: a relaxed add at device scope, and its execution at the home. -/
theorem test_atom : next (exec (.atom ⟨8, 2, 0, 0, 0, 2, 3, 1, 0, 0⟩)
      { st ((lane0 [(2, 0x100), (8, 3)]).setP 0 0 true) with mem := [(0x100, 0xFF)] })
    (fun s => next (exec (.atomicAtMemory 10) s) fun t => t.mem == [(0x100, 2), (0x101, 1)] &&
      t.memOps.map (·.vwrites) == [[(8, 0, 0xFF)]]) = true := by decide

/-- spec/13 R242, spec/29 R396: TRAP with a handler at TBASE. -/
theorem test_trap : next (exec (.trap ⟨0, 0, 0, 7, 0, 0x55⟩) { st warp with teams := [{ team warp with tbase := 0x40 }] })
    (fun s => pcIs 0x40 s && (s.warpAt 1 0).any fun w => (w.sl 0).trapInfo == 0x55 && (w.sl 0).trapCode == 0 &&
      (w.sl 0).inHandler && (w.sl 0).resume == 8) = true := by decide

/-- spec/13 R223: every lane dies. -/
theorem test_exit : next (exec (.exit ⟨0, 0, 0, 7, 0⟩) (st warp)) (fun s => (s.warpAt 1 0).any Warp.dead) = true := by decide

/-- spec/13 R237, spec/09 R144: SLICEID and TASKIDX read; CLOCKLO latches the upper half. -/
theorem test_srd : next (exec (.srd ⟨1, 0x10, 0, 7, 0⟩) { st warp with clock := 2 ^ 32 + 5 })
    (fun s => sIs 1 5 s && (s.warpAt 1 0).any fun w => (w.sl 3).clockHi == some 1) = true := by decide

/-- spec/13 R232, R233: BARI starts phase 0 with one member. -/
theorem test_barrier_init : next (exec (.bariImm ⟨0, 2, 0, 7, 0, 1⟩) (st (uniform [(2, 1)]))) (fun s =>
    ((s.team? 1).bind (·.bars[1]?)).any fun b => b.init && b.members == 1 && b.phase == 0) = true := by decide

set_option maxRecDepth 4000 in
/-- spec/13 R233, R234: the only member's BARA completes the phase at the end of the clock. -/
theorem test_barrier_arrive : next (exec (.baraImm ⟨3, 0, 0, 7, 0, 1⟩)
      { st warp with teams := [{ team warp with bars := [{}, { init := true, members := 1 }] }] })
    (fun s => sIs 3 0 s && ((s.updateBarriers.team? 1).bind (·.bars[1]?)).any fun b => b.phase == 1) = true := by decide

/-- spec/15 R264, R266: CPY of one row of 16 bytes in scratchpad, then its completion. -/
theorem test_copy : next (exec (.cpy ⟨20, 8, 12, 3, 0⟩)
      { st (uniform [(8, 0), (10, 0x40), (12, 16), (13, 16)]) with scratch := [(1, 0x77)] })
    (fun s => s.copies.length == 1 && next (exec (.copyComplete 10) s) fun t => t.copies == [] && t.rlocks == [] &&
      t.scratch == [(1, 0x77), (0x41, 0x77)]) = true := by decide

/-- spec/19 R316, R317: PRSV takes a free slot. -/
theorem test_prsv : next (exec (.prsv ⟨20, 0, 0, 0, 3⟩)
      { st warp with gangs := [{ gang with pipes := [⟨3, false, 1024, 0x4000, [(.free, none), (.free, none)], 1, 0⟩] }] })
    (fun s => sIs 20 0x4400 s && s.gangs.map (fun g => g.pipes.map (·.prod)) == [[0]]) = true := by decide

/-- spec/25 R371: an ENDED pair is FREE after 1,000 ticks. -/
theorem test_pair_release : next (exec (.pairRelease 5)
      { State.reset with tick := 1000, pairs := [(5, { st := .ended, endTick := 0, last := 3 })] })
    (fun s => (s.pair 5).st == .free) = true := by decide

/-- spec/01 R20: a QTAIL past the ring sets QERR. -/
theorem test_qtail : next (exec (.qtailWrite 1 2 5) State.reset) (fun s => (s.ctxOf 1).qerr == 4) = true := by decide

/-- spec/29 R404: corrected errors are counted. -/
theorem test_ecc : next (exec .eccCorrected State.reset) (fun s => s.cecnt == 1) = true := by decide

/-- A step that fetches: SADD s3, s4, 0x64 (spec/09 R127, R136; spec/13 R212). -/
theorem test_step : next (step (State.reset.withFetchWord 64 0x00000064C043100E))
    (fun s => s.teams.all fun t => t.warps.all fun w => (w.sl 5).s 3 == 0x64) = true := by decide

/-- State.reset stands in recovery, at 1,200 MHz, with no team (spec/01 R25, R29). -/
theorem test_reset : State.reset.fwState = 0 ∧ State.reset.clkMHz = 1200 ∧ State.reset.teams = [] ∧ State.reset.mem = [] := by decide


/-! ## Witnesses: for each statement, states and operands that meet the hypotheses of its clauses -/

theorem issues {s : State} {v : View} {i : Instr} (h : (decide (s.view? = some v) && v.operandsOk i && i.wf) = true) :
    s.Issues v i := by
  simp only [Bool.and_eq_true, decide_eq_true_eq] at h
  exact ⟨h.1.1, h.1.2, h.2⟩

/-- Each instruction of a list issues. -/
def issueAll (s : State) (v : View) (l : List Instr) : Bool := decide (s.view? = some v) && l.all fun i => v.operandsOk i && i.wf

theorem all_issue {s : State} {v : View} {l : List Instr} (h : issueAll s v l = true) : ∀ i ∈ l, s.Issues v i := by
  simp only [issueAll, Bool.and_eq_true, decide_eq_true_eq, List.all_eq_true] at h
  exact fun i hi => ⟨h.1, (h.2 i hi).1, (h.2 i hi).2⟩

/-- Nothing is cached, recorded, poisoned or on its way. -/
def calm (s : State) : Bool :=
  s.l1 == [] && Memory.wf s.mem && Memory.wf s.scratch && s.teams.all (!·.recorded) && s.memOps == [] && s.poison == []

theorem calm_memory {s : State} (h : calm s = true) : s.unrecorded ∧ s.memoryOk ∧ s.poison = [] ∧ ∀ v, s.noAtoms v := by
  simp only [calm, Bool.and_eq_true, beq_iff_eq, List.all_eq_true, Bool.not_eq_true'] at h
  obtain ⟨⟨⟨⟨⟨h1, h2⟩, h3⟩, h4⟩, h5⟩, h6⟩ := h
  refine ⟨h4, ⟨h2, h3, fun c => ?_⟩, h6, fun v m hm => ?_⟩
  · simp [State.l1Of, h1, Tab.get, Tab.find?]
  · rw [h5] at hm; cases hm

/-- Lanes that all participate, in register form. -/
def lr (w : BitVec 2) (m s : BitVec 8) : LR := ⟨8, 16, 7, 0, w, 24, 32, m, s⟩
def lr2 (w : BitVec 2) (m s : BitVec 8) : LR := ⟨8, 16, 7, 0, w, 24, 0, m, s⟩
def lr1 (w : BitVec 2) (m s : BitVec 8) : LR := ⟨8, 16, 7, 0, w, 0, 0, m, s⟩
def lu : LU := ⟨8, 16⟩

theorem test_witness_IntegerArithmeticByElement : ∀ i ∈ [Instr.iadd (lr2 1 4 0), .isub (lr2 3 1 0), .imul (lr2 2 1 0), .imul (lr2 0 2 0),
    .imad (lr 0 0 0), .imin (lr2 2 1 0), .imax (lr2 0 0 0), .iabs (lr1 0 4 0), .iabsLu lu], (st warp).Issues (view warp) i :=
  all_issue (by decide)

theorem test_witness_ShiftsAndTruthTables : ∀ i ∈ [Instr.shl (lr2 0 0 0), .shr (lr2 1 0 0), .sar (lr2 2 0 0), .blut (lr 0 0 0xCA),
    .plop ⟨1, 2, 7, 0, 0, 3, 4, 0, 0x80⟩], (st warp).Issues (view warp) i :=
  all_issue (by decide)

theorem test_witness_BitCountsAndFields : ∀ i ∈ [Instr.popc (lr1 2 0 0), .popcLu lu, .clz (lr1 0 0 0), .clzLu lu, .brev (lr1 2 0 0),
    .brevLu lu, .bfe (lr2 0 0 0), .bfe (lr2 2 1 0), .bfi (lr 0 0 0)], (st warp).Issues (view warp) i :=
  all_issue (by decide)

theorem test_witness_SelectCompareAndProducts : ∀ i ∈ [Instr.sel ⟨8, 16, 7, 0, 2, 24, 9, 0, 0⟩, .icmp ⟨1, 16, 7, 0, 0, 24, 2, 1, 0x12⟩,
    .fcmp ⟨1, 16, 7, 0, 0, 24, 2, 0, 0x1A⟩, .lea (lr2 2 0 7), .idot4 (lr 3 4 0), .clmul (lr2 0 2 0)], (st warp).Issues (view warp) i :=
  all_issue (by decide)

theorem test_witness_FloatArithmeticByElement : ∀ i ∈ [Instr.fadd (lr2 0 0 0), .fsub (lr2 1 0 0), .fmul (lr2 1 1 0), .ffma (lr 0 8 0),
    .fmin (lr2 0 0 0), .fmax (lr2 1 0 0), .fclass (lr1 0 0 0), .frnd (lr1 0 0 0)], (st warp).Issues (view warp) i :=
  all_issue (by decide)

theorem test_witness_FloatFunctionsByElement : ∀ i ∈ [Instr.frcp (lr1 0 0 0), .frcpLu lu, .frsq (lr1 0 0 0), .frsqLu lu,
    .fsqrt (lr1 1 0 0), .fsqrtLu lu, .fex2 (lr1 0 0 0), .fex2Lu lu, .flg2 (lr1 0 0 0), .flg2Lu lu, .fsin (lr1 0 0 0), .fsinLu lu,
    .fcos (lr1 0 0 0), .fcosLu lu, .ftanh (lr1 0 0 0), .ftanhLu lu, .fsgm (lr1 0 0 0), .fsgmLu lu], (st warp).Issues (view warp) i :=
  all_issue (by decide)

theorem test_witness_FloatRounding :
    (fp32.decode 0x7FC00000).isNan = true ∧ fp32.decode 0x7F800000 = .inf false ∧ bf16.decode 0xFF80 = .inf true ∧
    fp16.decode 0 = .num ⟨false, 0, -24⟩ ∧ fp16.decode 0x8000 = .num ⟨true, 0, -24⟩ ∧
    fp32.decode 0x3F800000 = .num ⟨false, 2 ^ 23, -23⟩ ∧ e2m1.decode 7 = .num ⟨false, 3, 1⟩ := by decide

theorem test_witness_GroupConversions : ∀ i ∈ [Instr.cvt (lr1 0 0 0x10), .cvt (lr1 1 0 0xC1), .cvt (lr1 3 0 0x39), .cvtn ⟨8, 16, 7, 0, 3, 24, 1, 0, 11⟩,
    .cvtn (lr2 1 0 1)], (st warp).Issues (view warp) i := all_issue (by decide)

theorem gathered : (view warp).Gathered 16 ∧ (view warp).Gathered 32 := ⟨.inr (by decide), .inr (by decide)⟩

theorem test_witness_BlockConversions : (∀ i ∈ [Instr.cvt (lr1 0 0x28 0x10), .blkpack (lr2 0 0x40 5), .blkpack (lr1 0 0 7),
    .blkunpk (lr1 0 0 5), .blkunpk (lr2 0 0 6)], (st warp).Issues (view warp) i) ∧ (view warp).Gathered 16 ∧ (view warp).Gathered 32 ∧
    ((view warp).vec 16 0).extractLsb' 16 8 ≠ 255 ∧ ((view (lane0 [(16, 0xFF0000)])).vec 16 0).extractLsb' 16 8 = 255 :=
  ⟨all_issue (by decide), gathered.1, gathered.2, by decide⟩

/-- Two splits at different addresses. -/
def warp2 : Warp := { warp with
  splits := [⟨0x0F, 0, 1, 0, .none, none, []⟩, ⟨0xF0, 64, 1, 0, .none, none, []⟩], recs := [⟨0, 0xFF, none⟩, ⟨1, 0xFF, some 0⟩], idCtr := 2 }
def view2 : View := ⟨team warp2, warp2, ⟨0x0F, 0, 1, 0, .none, none, []⟩⟩

/-- A mask that holds the split and fills its extents of 32 lanes takes in slice 4. -/
theorem takes_in : ∀ m : BitVec 8,
    extentSlices 32 m &&& view2.warp.liveSlices &&& ~~~m = 0 → view2.split.mask &&& ~~~m = 0 → m.getLsbD 4 = true := by decide

theorem not_there {m : BitVec 8}
    (h : ∃ sp ∈ view2.warp.splits, sp.pc = view2.pc ∧ sp.mask.getLsbD 4 = true ∧ sp.mask &&& ~~~m = 0) : False := by
  have none : ∀ sp ∈ view2.warp.splits, sp.pc = view2.pc → ¬sp.mask.getLsbD 4 = true := by decide
  obtain ⟨sp, h1, h2, h3, _⟩ := h
  exact none sp h1 h2 h3

theorem test_witness_WideExtentsWait : (∀ i ∈ [Instr.shfl ⟨8, 16, 7, 0, 0, 24, 1, 0, 1⟩, .vote ⟨1, 1, 7, 0, 0, 0, 0, 0, 0⟩,
    .matchLanes ⟨8, 16, 7, 0, 0, 0, 1, 0, 0⟩, .redux (lr1 0 0 3), .scan (lr1 0 0 1), .bcast (lr1 0 0 1), .rdlane (lr2 0 0x40 0),
    .blkpack (lr2 0 0x40 5), .blkunpk (lr1 0 0 5)], (st warp2).Issues view2 i) ∧ view2.Scattered 32 ∧
    (st { warp2 with splits := [⟨0x07, 0, 1, 0, .none, none, []⟩, ⟨0xF8, 64, 1, 0, .none, none, []⟩] }).Issues
      ⟨team { warp2 with splits := [⟨0x07, 0, 1, 0, .none, none, []⟩, ⟨0xF8, 64, 1, 0, .none, none, []⟩] },
        { warp2 with splits := [⟨0x07, 0, 1, 0, .none, none, []⟩, ⟨0xF8, 64, 1, 0, .none, none, []⟩] }, ⟨0x07, 0, 1, 0, .none, none, []⟩⟩
      (.cvt (lr1 0 0x28 0x10)) :=
  ⟨all_issue (by decide), ⟨by decide, fun m hc h => not_there (hc.1 4 (takes_in m hc.2 h))⟩, issues (by decide)⟩

theorem test_witness_LaneExchanges : (∀ i ∈ [Instr.shfl ⟨8, 16, 7, 0, 0, 24, 1, 0, 0⟩, .shfl ⟨8, 16, 7, 0, 2, 24, 1, 0, 3⟩, .bcast (lr1 0 0 1),
    .rdlane (lr2 0 0x40 0), .vote ⟨1, 1, 7, 0, 0, 0, 0, 0, 0⟩, .vote ⟨1, 1, 7, 0, 0, 0, 0, 0, 1⟩, .vote ⟨1, 1, 7, 0, 0, 0, 0, 0, 2⟩,
    .vote ⟨8, 1, 7, 0, 0, 0, 0, 0, 3⟩, .matchLanes ⟨8, 16, 7, 0, 0, 0, 1, 0, 0⟩], (st warp).Issues (view warp) i) ∧
    warp.tileWidth = 32 ∧ (view warp).Gathered 32 :=
  ⟨all_issue (by decide), by decide, gathered.2⟩

theorem test_witness_ReduceAndScan : (∀ n, n < 9 → (st warp).Issues (view warp) (.redux (lr1 0 0 (BitVec.ofNat 8 n)))) ∧
    (∀ n, n < 6 → (st warp).Issues (view warp) (.scan (lr1 0 0 (BitVec.ofNat 8 (8 + n))))) ∧ warp.tileWidth = 2 ^ 5 ∧ (view warp).Gathered 32 :=
  ⟨fun n h => all_issue (l := (List.range 9).map fun n => .redux (lr1 0 0 (BitVec.ofNat 8 n))) (by decide) _
      (List.mem_map.2 ⟨n, List.mem_range.2 h, rfl⟩),
   fun n h => all_issue (l := (List.range 6).map fun n => .scan (lr1 0 0 (BitVec.ofNat 8 (8 + n)))) (by decide) _
      (List.mem_map.2 ⟨n, List.mem_range.2 h, rfl⟩), by decide, gathered.2⟩

theorem test_witness_MovesAndRandomWords : (∀ i ∈ [Instr.mov lu, .movUniform lu, .movB64 lu, .movImm ⟨8, 0, 7, 0, 0, 5⟩,
    .pmovGet ⟨8, 0, 7, 0, 0, 0, 0, 0, 0⟩, .pmovSet ⟨0, 16, 7, 0, 0, 0, 0, 0, 1⟩, .rng ⟨8, 0, 7, 0, 0, 0, 0, 0, 0⟩, .rng ⟨8, 0, 0, 0, 2, 0, 0, 0, 0⟩,
    .rng ⟨8, 0, 7, 0, 0, 0, 0, 0, 1⟩], (st warp).Issues (view warp) i) ∧ warp.num < 32 :=
  ⟨all_issue (by decide), by decide⟩

theorem both_guards {p : BitVec 3 → Prop} (h7 : p 7) (h0 : p 0) : ∀ q ∈ [(7 : BitVec 3), 0], p q := by
  simpa using ⟨h7, h0⟩

/-- Uniform forms: the guard is true (q = 7) or false (q0, which is 0). -/
def ur (q : BitVec 3) : UR := ⟨8, 16, 24, q, 0⟩
def ui (q : BitVec 3) : UI := ⟨8, 16, 0, q, 0, 0x00050004⟩
def ur0 (q : BitVec 3) : UR := ⟨8, 0, 24, q, 0⟩
def ui0 (q : BitVec 3) : UI := ⟨8, 0, 0, q, 0, 0x00050004⟩

theorem guards : (view warp).qGuard 7 0 = true ∧ (view warp).qGuard 0 0 = false := by decide

theorem test_witness_ScalarIntegerAndCompare : ∀ q ∈ [(7 : BitVec 3), 0], ∀ i ∈ [Instr.sadd (ur q), .saddImm (ui q), .ssub (ur q),
    .ssubImm (ui q), .smul (ur q), .smulImm (ui q), .smad (ur q), .smadImm (ui q), .smin (ur q), .sminImm (ui q), .smax (ur q),
    .smaxImm (ui q), .sshl (ur q), .sshlImm (ui q), .sshr (ur q), .sshrImm (ui q), .ssar (ur q), .ssarImm (ui q), .sblut (ur q),
    .sblutImm (ui q), .spopc (ur0 q), .spopcImm (ui0 q), .sclz (ur0 q), .sclzImm (ui0 q), .sbfe (ur q), .sbfeImm (ui q), .sbfi (ur q),
    .sbfiImm (ui q), .ssel (ur q), .sselImm (ui q), .smov (ur0 q), .smovImm (ui0 q), .scmp (ur q), .scmpImm (ui q), .slea (ur q),
    .sleaImm (ui q)], (st warp).Issues (view warp) i :=
  both_guards (all_issue (by decide)) (all_issue (by decide))

theorem test_witness_ScalarFloatAndConversion : (∀ q ∈ [(7 : BitVec 3), 0], ∀ i ∈ [Instr.sfadd (ur q), .sfaddImm (ui q), .sfmul (ur q),
    .sfmulImm (ui q), .sffma (ur q), .sffmaImm (ui q), .scvt (ur q), .scvtImm { ui q with imm := 0x0C }],
      (st warp).Issues (view warp) i) ∧
    scvtControl ((view warp).s 24) = true ∧ scvtControl ((view (uniform [(24, 0xF)])).s 24) = false :=
  ⟨both_guards (all_issue (by decide)) (all_issue (by decide)), by decide, by decide⟩

theorem test_witness_SpecialRegisters :
    (∀ n, n < 47 → ∀ i ∈ [Instr.srd ⟨8, BitVec.ofNat 6 (n + 1), 0, 7, 0⟩, .srd ⟨8, BitVec.ofNat 6 (n + 1), 0, 0, 0⟩,
        .s2v ⟨8, BitVec.ofNat 8 (n + 1)⟩], (st warp).Issues (view warp) i) ∧
    (∀ i ∈ [Instr.s2v ⟨8, 0⟩, .rngseed ⟨0, 16, 24, 7, 0⟩, .rngseed ⟨0, 16, 24, 0, 0⟩, .swr ⟨0x01, 16, 0, 7, 0⟩], (st warp).Issues (view warp) i) ∧
    (∀ d ∈ [(0x0B : BitVec 6), 0x0C, 0x14, 0x15, 0x16, 0x1B], ∀ q ∈ [(7 : BitVec 3), 0], (st warp).Issues (view warp) (.swr ⟨d, 16, 0, q, 0⟩)) := by
  have h : issueAll (st warp) (view warp) ((List.range 47).flatMap fun n => [Instr.srd ⟨8, BitVec.ofNat 6 (n + 1), 0, 7, 0⟩,
      .srd ⟨8, BitVec.ofNat 6 (n + 1), 0, 0, 0⟩, .s2v ⟨8, BitVec.ofNat 8 (n + 1)⟩]) = true := by decide
  have g : issueAll (st warp) (view warp) ([(0x0B : BitVec 6), 0x0C, 0x14, 0x15, 0x16, 0x1B].flatMap fun d => [(7 : BitVec 3), 0].map fun q =>
      .swr ⟨d, 16, 0, q, 0⟩) = true := by decide
  exact ⟨fun n hn i hi => all_issue h i (List.mem_flatMap.2 ⟨n, List.mem_range.2 hn, hi⟩), all_issue (by decide),
    fun d hd q hq => all_issue g _ (List.mem_flatMap.2 ⟨d, hd, List.mem_map.2 ⟨q, hq, rfl⟩⟩)⟩

/-- A matrix operation of the warp is queued. -/
def matOp (k : MatKind) : MatOp := ⟨20, 0, ⟨1, 0, 0⟩, 0xFF, 0, 0, k, 0xFF, 0, 0⟩

theorem test_witness_PartAndBoundSettings :
    (∀ i ∈ [Instr.setpart ⟨0, 0, 24, 7, 0⟩, .setpart ⟨0, 0, 24, 0, 0⟩, .setpartImm ⟨0, 0, 0, 7, 0, 2⟩, .setpartImm ⟨0, 0, 0, 7, 0, 32⟩,
      .setpartImm ⟨0, 0, 0, 7, 0, 64⟩, .setbound ⟨0, 0, 24, 7, 0⟩, .setboundImm ⟨0, 0, 0, 0, 0, 8⟩, .setboundImm ⟨0, 0, 0, 7, 0, 8⟩,
      .setboundImm ⟨0, 0, 0, 7, 0, 256⟩, .setboundImm ⟨0, 0, 0, 7, 0, 264⟩], (st warp).Issues (view warp) i) ∧
    { st warp with matOps := [matOp (.mclr false)] }.Issues (view warp) (.setboundImm ⟨0, 0, 0, 7, 0, 8⟩) ∧
    256 ≤ warp.budget ∧ warp.slots = [] ∧ (st warp).matOps = [] :=
  ⟨all_issue (by decide), issues (by decide), by decide, rfl, rfl⟩

/-- Return stacks that are full in one slice, and that hold one address in each. -/
def stacked (n : Nat) : Warp := { warp with slices := List.replicate 8 { rstack := List.replicate n 0x40 } }

theorem test_witness_BranchesCallsAndReturns :
    (∀ q ∈ [(7 : BitVec 3), 0], ∀ i ∈ [Instr.nop ⟨0, 0, 0, q, 0⟩, .bra ⟨q, 0, 3⟩, .call ⟨q, 0, 0x3FFFF⟩, .ret ⟨0, 0, 0, q, 0⟩,
      .dbnz ⟨8, 0, 0, q, 0, 0x3FFFF⟩], (st (stacked 15)).Issues (view (stacked 15)) i) ∧
    ((stacked 15).sl 0).rstack.length = 15 ∧ (st (stacked 16)).Issues (view (stacked 16)) (.call ⟨7, 0, 1⟩) ∧
    ((stacked 16).sl 7).rstack.length = 16 ∧ (st warp).Issues (view warp) (.ret ⟨0, 0, 0, 7, 0⟩) ∧ (warp.sl 0).rstack = [] :=
  ⟨both_guards (all_issue (by decide)) (all_issue (by decide)), by decide, issues (by decide), by decide, issues (by decide), rfl⟩

/-- A table at 0x40 with its header (two entries, reconvergence 8 words on), an entry of each kind, and a third one. -/
def tables (w : Warp) (h e : Nat) : State := { st w with
  mem := ((bytesOfNat 4 h ++ bytesOfNat 4 8 ++ bytesOfNat 4 e).zip (List.range 12)).filterMap fun x =>
    if x.1 == 0 then none else some (0x40 + x.2, x.1) }

def ji (q : BitVec 3) : UI := ⟨0, 16, 0, q, 0, 16⟩
def jx : LB := ⟨7, 0, 16, 0, 16, 0⟩

theorem test_witness_TableBranches :
    (∀ i ∈ [Instr.jtab (ji 7), .jtab (ji 0), .jtabx jx], (tables warp 0x20001 12).Issues (view warp) i) ∧
    (tables warp 0x20001 12).fetchWord 0 0 0x40 = .word 0x20001 ∧ (tables warp 0x20001 12).fetchWord 0 0 0x44 = .word 8 ∧
    (tables warp 0x20001 12).fetchWord 0 0 0x48 = .word 12 ∧ (0x20001 : Word).extractLsb' 12 2 = 0 ∧
    (tables warp 0x3001 12).fetchWord 0 0 0x40 = .word 0x3001 ∧ (0x3001 : Word).extractLsb' 12 2 ≠ 0 ∧
    (tables warp 0x20001 0x40000).fetchWord 0 0 0x48 = .word 0x40000 ∧ (0x40000 : Word).extractLsb' 18 14 ≠ 0 ∧
    (tables (uniform [(16, 1)]) 0x20001 12).Issues (view (uniform [(16, 1)])) (.jtab (ji 7)) ∧
    (tables (uniform [(16, 2)]) 0x20001 12).Issues (view (uniform [(16, 2)])) (.jtab (ji 7)) ∧
    (tables (lane0 [(16, 1)]) 0x20001 12).Issues (view (lane0 [(16, 1)])) (.jtabx jx) ∧
    (tables (lane0 [(16, 2)]) 0x20001 12).Issues (view (lane0 [(16, 2)])) (.jtabx jx) ∧
    { st warp with tlb := [⟨0, 0, 0x10000, 65536, 0x3D⟩] }.fetchWord 0 0 0x40 = .miss ∧
    ((view { warp with slices := List.replicate 8 { dstack := List.replicate 8 ⟨1, 0, 0, false, 1⟩ } }).warp.sl 0).dstack.length = 8 :=
  ⟨all_issue (by decide), by decide, by decide, by decide, by decide, by decide, by decide, by decide, by decide, issues (by decide),
    issues (by decide), issues (by decide), issues (by decide), by decide, by decide⟩

theorem test_witness_LaneBranchAndReturn :
    (st (warp.setP 0 0 true)).Issues (view (warp.setP 0 0 true)) (.brx ⟨0, 0, 4, 8, 0, 0⟩) ∧
    (view (warp.setP 0 0 true)).among 0 (fun l => (view (warp.setP 0 0 true)).pGuard 0 0 l) = 1 ∧
    (view (warp.setP 0 0 true)).among 0 (fun l => !(view (warp.setP 0 0 true)).pGuard 0 0 l) = 14 ∧
    (let w : Warp := { warp with slices := List.replicate 8 { dstack := List.replicate 8 ⟨1, 0, 0, false, 1⟩ } }
     (st (w.setP 0 0 true)).Issues (view (w.setP 0 0 true)) (.brx ⟨0, 0, 4, 8, 0, 0⟩)) ∧
    (st warp).Issues (view warp) (.retx ⟨0, 16⟩) ∧
    (let w := (List.range 32).foldl (fun w l => w.setV 16 l 2) warp
     (st w).Issues (view w) (.retx ⟨0, 16⟩) ∧ ∀ l < 32, (view w).vec64 16 l = 2) ∧
    (st (lane0 [(16, 4)])).Issues (view (lane0 [(16, 4)])) (.retx ⟨0, 16⟩) ∧
    (view (lane0 [(16, 4)])).vec64 16 0 ≠ (view (lane0 [(16, 4)])).vec64 16 1 :=
  ⟨issues (by decide), by decide, by decide, issues (by decide), issues (by decide), ⟨issues (by decide), by decide⟩, issues (by decide),
    by decide⟩

theorem test_witness_ReconvergenceThroughTheStack :
    let e : DefEntry := ⟨14, 8, 32, false, 15⟩
    let sl : Slice := { act := 1, dstack := [e] }
    sl.dstack = e :: [] ∧ sl.act &&& sl.live ≠ 0 ∧ (16 : Addr) ≠ e.reconv ∧ (32 : Addr) = e.reconv ∧ e.lanes &&& sl.live ≠ 0 ∧
      ({ sl with act := 0 } : Slice).act &&& sl.live = 0 ∧ { e with deferred := true }.deferred = true := by decide

/-- The same state with a team that shades pixels. -/
def pixels (w : Warp) : State := { st w with teams := [{ team w with kind := .pixel 1 0 [] [] }] }

theorem test_witness_ExitAndDiscard :
    (∀ i ∈ [Instr.exit ⟨0, 0, 0, 7, 0⟩, .exit ⟨0, 0, 0, 0, 0⟩, .discardLu, .discard ⟨0, 0, 7, 0, 0, 0, 0, 0, 0⟩], (st warp).Issues (view warp) i) ∧
    (∀ i ∈ [Instr.exit ⟨0, 0, 0, 7, 0⟩, .discardLu, .discard ⟨0, 0, 7, 0, 0, 0, 0, 0, 0⟩],
      (pixels warp).Issues { view warp with team := { team warp with kind := .pixel 1 0 [] [] } } i) :=
  ⟨all_issue (by decide), all_issue (by decide)⟩

theorem test_witness_Regang :
    (∀ i ∈ [Instr.regang ⟨0, 0, 0, 7, 0, 0⟩, .regang ⟨0, 0, 0, 7, 0, 1023⟩, .regang ⟨0, 0, 0, 0, 0, 0⟩], (st warp2).Issues view2 i) ∧
    warp2.recs.find? (·.id == 1) = some ⟨1, 0xFF, some 0⟩ ∧ (0xFF : BitVec 8) &&& warp2.liveSlices ≠ 0x0F ∧
    (st warp).Issues (view warp) (.regang ⟨0, 0, 0, 7, 0, 0⟩) ∧ (∀ r, warp.recs.find? (·.id == 0) = some r → r.mask &&& warp.liveSlices = 0xFF) ∧
    (∀ sp ∈ warp.splits, sp.mask ≠ 0 ∧ sp.mask &&& 0xFF = sp.mask ∧ sp.pc = (view warp).pc) :=
  ⟨all_issue (by decide), by decide, by decide, issues (by decide), by decide, by decide⟩

/-- A group whose wait has elapsed, and one that waits on. -/
theorem test_witness_Regang_timeout :
    let g : FuseGroup := ⟨0, 1, 0x0F, 0, 5⟩
    let w : Warp := { warp2 with groups := [g] }
    let s : State := { st w with clock := 5 }
    s.warpAt 1 0 = some w ∧ g.first + g.limit ≤ s.clock ∧ (∃ sp ∈ w.splits, sp.mask &&& g.mask ≠ 0) ∧
    (∀ sp ∈ w.splits, sp.mask ≠ 0 ∧ (sp.mask &&& g.mask = 0 ∨ sp.mask &&& g.mask = sp.mask ∧ sp.pc = 0)) ∧
    (st w).warpAt 1 0 = some w ∧ ¬g.first + g.limit ≤ (st w).clock ∧ w.recs.find? (·.id == g.parent) = some ⟨1, 0xFF, some 0⟩ ∧
    (0xFF : BitVec 8) &&& w.liveSlices ≠ g.mask := by decide

/-! ### Memory -/

def reachesAll (s : State) (v : View) (n : Nat) (write reads : Bool) (ps : List (Nat × Place)) (loc : Nat → Loc) : Bool :=
  ps.all fun x => (s.accessChecks v n write).all (fun c => c x.2 == none) &&
    (match x.2 with
     | .glob va => (match s.xlate v.core v.ctx va (if write then .store else .load) with
       | .ok k => k == (loc x.1).key
       | _ => false) && !(loc x.1).scratch
     | .scr off => loc x.1 == ⟨true, scrKey (clusterOfCore v.core) off.toNat⟩) &&
    (!reads || !s.consumesPoison v.core (loc x.1) n)

theorem reaches {s : State} {v : View} {n : Nat} {write reads : Bool} {ps : List (Nat × Place)} {loc : Nat → Loc}
    (h : reachesAll s v n write reads ps loc = true) : s.Reaches v n write reads ps loc := by
  intro x hx
  have := List.all_eq_true.1 h x hx
  simp only [Bool.and_eq_true, List.all_eq_true, beq_iff_eq] at this
  obtain ⟨⟨h1, h2⟩, h3⟩ := this
  refine ⟨h1, ?_, ?_⟩
  · revert h2
    cases x.2 with
    | glob va =>
      dsimp only
      intro h2
      rw [Bool.and_eq_true] at h2
      obtain ⟨h2, h4⟩ := h2
      constructor
      · split at h2
        · rename_i k hk; rw [hk, beq_iff_eq.1 h2]
        · cases h2
      · simpa using h4
    | scr off => simp
  · intro hr
    simpa [hr] using h3

/-- Lane 0 alone takes part under p0. -/
def one (vs : List (Nat × Word)) : Warp := (lane0 vs).setP 0 0 true
def lm (sp : BitVec 2) (size scope order : BitVec 3) (off : BitVec 20) : LM := ⟨8, 2, 0, 0, sp, size, scope, order, 0, off⟩
def page (k : Nat) : Nat → Loc := fun _ => ⟨false, k⟩
def scratchAt (k : Nat) : Nat → Loc := fun _ => ⟨true, k⟩

/-- A state whose scratchpad banks are occupied by an earlier instruction, and what sixteen bytes at 0x100 touch. -/
def busy (w : Warp) : State := { st w with clock := 1, banks := (List.range 32).map fun b => (b, ⟨0, 9⟩) }
def units : List Nat := scrUnits [(0, scratchAt 0x100 0)] 16

/-- In a state of one warp an LDS or STS of lane 0 reaches its place, whose banks are free there and busy in the other. -/
theorem test_witness_banks (write : Bool) (reads : Bool) :
    let w := one [(2, 0x100)]
    (st w).banksBusy units = false ∧ (busy w).banksBusy units = true ∧ (busy w).view? = some (view w) ∧
    (busy w).Reaches (view w) 16 write reads [(0, LM.place (lm 0 4 0 0 0) (view w) true 0)] (scratchAt 0x100) := by
  refine ⟨by decide, by decide, by decide, reaches ?_⟩
  revert write reads; decide

theorem test_witness_AccessChecks :
    (∀ i ∈ [Instr.ld (lm 0 2 0 0 0), .lds (lm 0 0 0 0 0), .st (lm 0 2 0 0 2), .sts (lm 0 4 0 0 0), .sld ⟨8, 16, 0, 0, 0x40000000⟩,
      .sst ⟨8, 16, 0, 2, 0x40000000⟩], (st (one [(2, 0x100)])).Issues (view (one [(2, 0x100)])) i) ∧
    (view (one [(2, 0x100)])).part 0 0 = [0] ∧
    (st { one [(2, 0x100)] with ld := 1023, st := 1023 }).Issues (view { one [(2, 0x100)] with ld := 1023, st := 1023 }) (.ld (lm 0 2 0 0 0)) ∧
    ((st warp).accessChecks (view warp) 4 true).map (· (.glob 0x102)) = [some (3, 0x102), none, none, none] ∧
    ((st warp).accessChecks (view warp) 4 true).map (· (.glob (2 ^ 60))) = [none, some (4, 0x20000000), none, none] ∧
    ((st warp).accessChecks (view warp) 4 true).map (· (.scr (-4))) = [none, none, some (5, 0xFFFFFFFC), none] ∧
    (State.accessChecks { st warp with rlocks := [⟨9, 0, true, 0, 64, true, false⟩] } (view warp) 4 true).map (· (.scr 60)) =
      [none, none, none, some (6, 60)] :=
  ⟨all_issue (by decide), by decide, issues (by decide), by decide, by decide, by decide, by decide⟩

theorem test_witness_Loads :
    let w := one [(2, 0x100)]
    let s := st w
    let v := view w
    v.warp.ld < 1023 ∧ s.diagMode = false ∧ s.noAtoms v ∧ s.unrecorded ∧ s.memoryOk ∧
    (∀ i ∈ [Instr.ld (lm 0 2 0 0 0), .ld (lm 0 2 3 1 0), .ld (lm 0 0 4 5 0), .lds (lm 0 4 0 0 0), .lds (lm 0 2 3 2 0),
      .ld ⟨8, 2, 1, 0, 0, 2, 0, 0, 0, 0⟩, .sld ⟨8, 16, 0, 0, 0x40000000⟩, .sld ⟨8, 16, 0, 1, 0x40000000⟩, .sld ⟨8, 16, 0, 2, 0x40000000⟩,
      .sld ⟨8, 16, 0, 0, 0x4C800000⟩], s.Issues v i) ∧
    v.part 0 0 = [0] ∧ v.part 1 0 = [] ∧
    s.Reaches v 4 false true [(0, LM.place (lm 0 2 0 0 0) v false 0)] (page 0x100) ∧
    s.Reaches v 16 false true [(0, LM.place (lm 0 4 0 0 0) v true 0)] (scratchAt 0x100) ∧
    s.Reaches v 4 false true [(0, .glob (v.s64 16).toNat)] (page 0) ∧ s.Reaches v 4 false true [(0, .scr 0)] (scratchAt 0) :=
  ⟨by decide, rfl, (calm_memory (by decide)).2.2.2 _, (calm_memory (by decide)).1, (calm_memory (by decide)).2.1, all_issue (by decide),
    by decide, by decide, reaches (by decide), reaches (by decide), reaches (by decide), reaches (by decide)⟩

theorem test_witness_Stores :
    let w := one [(2, 0x100)]
    let s := st w
    let v := view w
    v.warp.st < 1023 ∧ s.noAtoms v ∧ s.unrecorded ∧ s.memoryOk ∧
    (∀ i ∈ [Instr.st (lm 0 2 0 0 0), .st (lm 0 2 3 1 0), .st (lm 0 0 2 5 0), .sts (lm 0 4 0 0 0), .st ⟨8, 2, 1, 0, 0, 2, 0, 0, 0, 0⟩,
      .sst ⟨8, 16, 0, 0, 0x40000000⟩, .sst ⟨8, 16, 0, 2, 0x40000000⟩, .sst ⟨8, 16, 0, 0, 0x4C800000⟩], s.Issues v i) ∧
    v.part 0 0 = [0] ∧ v.part 1 0 = [] ∧
    s.Reaches v 4 true false [(0, LM.place (lm 0 2 0 0 0) v false 0)] (page 0x100) ∧
    s.Reaches v 16 true false [(0, LM.place (lm 0 4 0 0 0) v true 0)] (scratchAt 0x100) ∧
    s.Reaches v 4 true false [(0, .glob (v.s64 16).toNat)] (page 0) ∧ s.Reaches v 4 true false [(0, .scr 0)] (scratchAt 0) :=
  ⟨by decide, (calm_memory (by decide)).2.2.2 _, (calm_memory (by decide)).1, (calm_memory (by decide)).2.1, all_issue (by decide),
    by decide, by decide, reaches (by decide), reaches (by decide), reaches (by decide), reaches (by decide)⟩

theorem test_witness_VisibilityOfStrongAccesses :
    (st warp).unrecorded ∧ (st warp).memoryOk ∧ (st warp).diagMode = false ∧ (st warp).farGenOf 0 + 1 ≤ 2 ^ 16 ∧
    keyHome (0x100 + 3) = keyHome 0x100 ∧ ∀ k b, Tab.find? ((st warp).farOf 0) k = some b → b.gen ≤ (st warp).farGenOf 0 :=
  ⟨(calm_memory (by decide)).1, (calm_memory (by decide)).2.1, rfl, by decide, by decide, fun k b h => by simp [st, State.reset, State.farOf, Tab.get, Tab.find?] at h⟩

theorem test_witness_AtomicsIssue :
    let w := one [(2, 0x100)]
    let s := st w
    let v := view w
    s.noAtoms v ∧ (∀ i ∈ [Instr.atom (lm 0 2 3 1 0), .atom (lm 0 3 2 5 0x9000), .red (lm 0 2 3 1 0x10000), .red (lm 0 4 3 1 0x19000),
      .atom ⟨8, 2, 1, 0, 0, 2, 3, 1, 0, 0⟩, .satom ⟨8, 16, 0, 0, 0x4C800000⟩, .satom ⟨8, 16, 0, 1, 0x4C880000⟩], s.Issues v i) ∧
    v.part 0 0 = [0] ∧ v.part 1 0 = [] ∧ v.warp.ld < 1023 ∧ v.warp.st < 1023 ∧
    s.Reaches v 4 true true [(0, LM.atomPlace (lm 0 2 3 1 0) v 0)] (page 0x100) ∧
    s.Reaches v 4 true true [(0, .glob (v.s64 16).toNat)] (page 0) ∧ s.onDevice v 0x100 = true ∧
    trapOf v.team.fctl 0x3FF = none ∧ trapOf 0x20 1 = some ⟨0x0D, 1, 0, 1⟩ ∧
    s.banksBusy (scrUnits [(0, page 0x100 0)] 4) = false :=
  ⟨(calm_memory (by decide)).2.2.2 _, all_issue (by decide), by decide, by decide, by decide, by decide, reaches (by decide),
    reaches (by decide), by decide, by decide, by decide, by decide⟩

/-- An atomic addition of 3 at a place, on its way. -/
def adds (scr : Bool) : AtomReq := ⟨scr, 0x100, 4, 0, 3, 0, 1, 3, 0, 8, true⟩
def flying (scr : Bool) : State := { st warp with
  memOps := [{ id := 9, x := ⟨1, 0, 0⟩, mask := 0xFF, core := 0, isLoad := true, uniform := false, atoms := [adds scr] }] }

theorem test_witness_AtomicOperations :
    (flying true).unrecorded ∧ (flying true).memoryOk ∧ (flying false).memoryOk ∧ (adds false).scope.toNat = 3 ∧
    ((flying false).memOps.find? (·.id == 9)).map (·.atoms) = some [adds false] ∧ (flying false).diagMode = false ∧
    0 < (adds true).bytes ∧ keyHome ((adds true).key + (adds true).bytes - 1) = keyHome (adds true).key ∧
    fp32.decode ((fp32.finish 0 false (fAdd 0 (fp32.decode 0x3F800000) (fp32.decode 0x33800000)).1).1) = .num ⟨false, 2 ^ 23, -23⟩ :=
  ⟨by unfold State.unrecorded; decide, ⟨by decide, by decide, fun _ => .nil⟩, ⟨by decide, by decide, fun _ => .nil⟩, by and_intros <;> decide⟩

theorem test_witness_PrefetchFenceAndWait :
    let w : Warp := { one [(2, 0x100)] with ld := 3, mb := 1 }
    (∀ i ∈ [Instr.pref { lm 0 0 0 0 0 with vd := 0 }, .fence ⟨0, 3, 4, 7, 0⟩, .fence ⟨0, 1, 2, 7, 0⟩, .fence ⟨0, 0, 3, 0, 0⟩, .wait ⟨3, 0, 0, 1, 0⟩,
      .wait ⟨2, 31, 31, 31, 0⟩, .wait ⟨2, 31, 0, 31, 1⟩, .wait ⟨31, 31, 31, 31, 1⟩], (st w).Issues (view w) i) ∧
    (st w).diagMode = false ∧ (st w).noAtoms (view w) ∧ (st w).unrecorded ∧ (st w).memoryOk :=
  ⟨all_issue (by decide), rfl, (calm_memory (by decide)).2.2.2 _, (calm_memory (by decide)).1, (calm_memory (by decide)).2.1⟩

/-- Codes of WAITC: barrier 1, pipe 3, a token, and memory equal to, in s2 to s8; the limit in s24, the time limit in s16. -/
def waits (sub : BitVec 4) : UE := ⟨1, 16, 24, sub, 0x88644322⟩
def waitWarp (waitc : Option WaitcRun) : Warp :=
  { uniform [(2, 1), (3, 3), (4, 7), (8, 0x200), (16, 5)] with splits := [{ split with waitc }] }
def waitTeam (waitc : Option WaitcRun) : Team := { team (waitWarp waitc) with bars := [{}, { init := true, members := 1 }] }
def waitView (waitc : Option WaitcRun) : View := ⟨waitTeam waitc, waitWarp waitc, { split with waitc }⟩
def waiting (waitc : Option WaitcRun) : State := { st warp with
  teams := [waitTeam waitc], tick := 5, clock := 16
  gangs := [{ gang with pipes := [⟨3, false, 1024, 0x4000, [(.free, none), (.free, none)], 0, 0⟩] }] }

/-- It has just come, and it has waited since tick 0 with its last reads in clock 0. -/
def runs (sub : BitVec 4) : List (Option WaitcRun) := [none, some ⟨waits sub, 0, 0, [false, false, false, false]⟩]

theorem test_witness_WaitForConditions : ∀ sub ∈ [(0 : BitVec 4), 1, 2, 3], ∀ x ∈ runs sub,
    (waiting x).Issues (waitView x) (.waitc (waits sub)) ∧ (x.getD ⟨waits sub, 5, 0, []⟩).f = waits sub ∧
    (waiting x).viewOf? (waitView x).sel = some (waitView x) ∧ (waiting x).noAtoms (waitView x) ∧
    (waiting x).unrecorded ∧ (waiting x).memoryOk ∧ (waiting x).poison = [] ∧
    (waitcCodes (waits sub).w1).map (fun c => (c.extractLsb' 5 3).toNat) = [1, 2, 3, 4] ∧
    (waiting x).Reaches (waitView x) 4 false true [(0, .glob ((waitView x).s64 8).toNat)] (page 0x200) := by
  have h : ∀ sub ∈ [(0 : BitVec 4), 1, 2, 3], ∀ x ∈ runs sub,
      (issueAll (waiting x) (waitView x) [.waitc (waits sub)] && calm (waiting x) &&
        reachesAll (waiting x) (waitView x) 4 false true [(0, .glob ((waitView x).s64 8).toNat)] (page 0x200) &&
        (waiting x).poison == [] && decide ((x.getD ⟨waits sub, 5, 0, []⟩).f = waits sub) &&
        decide ((waiting x).viewOf? (waitView x).sel = some (waitView x)) &&
        ((waitcCodes (waits sub).w1).map (fun c => (c.extractLsb' 5 3).toNat) == [1, 2, 3, 4])) = true := by decide
  intro sub hs x hx
  have := h sub hs x hx
  simp only [Bool.and_eq_true, decide_eq_true_eq, beq_iff_eq] at this
  obtain ⟨⟨⟨⟨⟨⟨h1, h2⟩, h3⟩, h4⟩, h5⟩, h6⟩, h7⟩ := this
  have c := calm_memory h2
  exact ⟨all_issue h1 _ (.head _), h5, h6, c.2.2.2 _, c.1, c.2.1, h4, h7, reaches h3⟩

/-! ### Barriers, copies, matrix operations, tasks, pipes -/

/-- The warp's team with barrier 1 in this state; operand a names warps 0, b barrier 1. -/
def barred (b : Barrier) : State := { st warp with teams := [{ team warp with bars := [{}, b] }] }
def barView (b : Barrier) : View := { view warp with team := { team warp with bars := [{}, b] } }

def barForms (q : BitVec 3) : List Instr := [.bari ⟨0, 16, 24, q, 0⟩, .bariImm ⟨0, 16, 0, q, 0, 1⟩, .bara ⟨8, 0, 24, q, 0⟩,
  .baraImm ⟨8, 0, 0, q, 0, 1⟩, .bard ⟨0, 0, 24, q, 0⟩, .bardImm ⟨0, 0, 0, q, 0, 2⟩, .bars ⟨0, 0, 24, q, 0⟩, .barsImm ⟨0, 0, 0, q, 0, 1⟩,
  .barw ⟨0, 16, 24, q, 0⟩, .barwImm ⟨0, 16, 0, q, 0, 1⟩]
def barStates : List Barrier := [{}, { init := true, members := 1 }, { init := true, members := 2 },
  { init := true, members := 1, slices := [(0, 0xFF)], byStay := 1 }, { init := true, members := 1, byLeave := 1 }]

theorem test_witness_BarrierInstructions : ∀ b ∈ barStates, ∀ q ∈ [(7 : BitVec 3), 0],
    (∀ i ∈ barForms q, (barred b).Issues (barView b) i) ∧ (barred b).noAtoms (barView b) := by
  have h : ∀ b ∈ barStates, ∀ q ∈ [(7 : BitVec 3), 0], issueAll (barred b) (barView b) (barForms q) = true := by decide
  exact fun b hb q hq => ⟨all_issue (h b hb q hq), fun m hm => by simp [barred, st, State.reset] at hm⟩

set_option maxRecDepth 4000 in
theorem test_witness_BarrierPhases :
    let b : Barrier := { init := true, members := 1, slices := [(0, 0xFF)] }
    (b.update [warp]).2 = true ∧ (({ b with slices := [(0, 0x7F)] } : Barrier).update [warp]).2 = false ∧
    (barred b).team? 1 = some (barView b).team ∧ (barView b).team.bars[1]? = some b ∧ (barView b).team.waitingAt 1 = [] ∧
    (let w : Warp := { warp with splits := [{ split with wait := .barrier 1 8 true }] }
     let t : Team := { team w with bars := [{}, b] }
     t.waitingAt 1 = [(⟨1, 0, 0⟩, 8)] ∧ ({ st w with teams := [t] } : State).viewOf? ⟨1, 0, 0⟩ = some ⟨t, w, { split with wait := .barrier 1 8 true }⟩) := by
  decide

def cpUE (sub : BitVec 4) (w1 : Word) : UE := ⟨20, 8, 12, sub, w1⟩

/-- A page table: PTROOT names the table at 0x10000, whose entry 0 names the one at 0x20000, and that the one at 0x30000, whose
entry 0 is a page of 1 GiB at 0 that may be read, written and fetched (spec/29 R399). -/
def tableCells : List Host.Cell := [(0x10000, 0x01), (0x10002, 0x02), (0x20000, 0x01), (0x20002, 0x03), (0x30000, 0x3D)]
def mapped (x : Ctx) (w : Warp) : State := { st w with ctxs := [(0, { x with ptRoot := 0x10001 })], mem := tableCells }

def copyOp (k : CopyKind) (rot : Nat) : CopyOp := ⟨10, 0, 0, 0, ⟨1, 0, 0⟩, 7, k, 0, 0x40, 0x80, 16, 16, rot, none, none, none, false⟩
def copying (c : CopyOp) : State := { mapped {} warp with copies := [c] }

/-- The first row of a copy is read, and written to its place. -/
def moves (c : CopyOp) : Bool := match (copying c).copyRow c 0 with
  | .ok (u, bs) => (match u.copyPut c 0 bs with | .ok _ => true | .error _ => false)
  | .error _ => false

theorem test_witness_CopiesAndTheirCompletion :
    (∀ i ∈ [Instr.cpy (cpUE 0 0x00100010), .cpy (cpUE 3 0), .cpyg (cpUE 0 0), .cpyx (cpUE 8 0x03030000)], (st warp).Issues (view warp) i) ∧
    (∀ k ∈ [CopyKind.cpy true true 2 2, .cpy true false 1 16, .cpy false true 1 16, .cpyg 1 16, .cpyx true true 2 2 1, .cpyx false false 1 1 4],
      (copying (copyOp k 5)).copies.find? (·.id == 10) = some (copyOp k 5) ∧ (copyOp k 5).dead = false ∧ (copyOp k 5).waitFor = none ∧
      (copyOp k 5).failed = none ∧ (copyOp k 5).staging = none ∧ moves (copyOp k 5) = true) ∧
    (let c := copyOp (.cpy true true 2 2) 5
     let src := fun i j => scrKey 0 (bankAddr c.src c.spitch c.rot i j)
     let dst := fun i j => scrKey 0 (bankAddr c.dst c.dpitch c.rot i j)
     ∀ i j p q : Fin 2, (dst i j = dst p q → i = p ∧ j = q) ∧ src i j ≠ dst p q) ∧
    (mapped {} warp).xlateNow 0 0x40 .store = .ok 0x40 ∧ (mapped {} warp).xlateNow 0 0 .load = .ok 0 ∧
    (mapped {} warp).poisoned 0 16 = false ∧ (mapped {} warp).unrecorded ∧ (mapped {} warp).memoryOk :=
  ⟨all_issue (by decide), by decide, by decide +revert, by decide, by decide, by decide, (calm_memory (by decide)).1, (calm_memory (by decide)).2.1⟩

theorem test_witness_MatrixInstructionsIssue : ∀ i ∈ [Instr.mloop ⟨0, 16, 24, 0, 0x99000000⟩, .mloop ⟨8, 16, 24, 3, 0x99001046⟩,
    .mxform ⟨0, 16, 24, 0, 0x90400000⟩, .mxform ⟨0, 16, 0, 1, 0x90800000⟩, .mclr ⟨0, 0, 0, 0, 0⟩, .mclr ⟨0, 0, 0, 1, 0x3E⟩,
    .manchor ⟨0, 0, 0, 0, 0xFF800000⟩, .manchor ⟨0, 16, 0, 1, 0⟩, .mloada ⟨0, 0, 0, 15, 0x18000000⟩, .mround ⟨0, 0, 0, 0, 0x11000000⟩,
    .mstat ⟨8, 0, 0, 1, 0⟩, .mbatch ⟨8, 0, 0, 0, 0⟩, .mesc ⟨0, 16, 24, 3, 0⟩, .mesc ⟨0, 0, 0, 0, 0⟩], (st warp).Issues (view warp) i :=
  all_issue (by decide)

/-- A matrix operation alone at the unit of core 0. -/
def matrix (k : MatKind) : State := { st { warp with openOps := [20] } with matOps := [matOp k] }

theorem test_witness_MatrixStepsAndAccumulators :
    (∀ k ∈ [MatKind.mclr false, .manchor (-512), .mloada 12 true 0 60 4, .mround 1 0 true 0 0 0 4, .mstat true 63,
        .mloop 9 9 (.scratch 0 64 64 0) (.scratch 0x2000 64 64 0) 1 none none none, .mxform 9 0 (.scratch 0 64 64 0) 0 none],
      (matrix k).matOps.find? (·.core == 0) = some (matOp k) ∧ (matrix k).warpAt 1 0 = some { warp with openOps := [20] }) ∧
    fctlESCTRAP 0 = false ∧ fctlTRAPNAN 0 = false ∧ fctlTRAPINV 0 = false ∧ fctlTRAPOVF 0 = false ∧
    accMin ≤ 0 + (unitsOf 0 ⟨false, 3, 0⟩).1 ∧ 0 + (unitsOf 0 ⟨false, 3, 0⟩).1 ≤ accMax ∧ accMax < accMax + (unitsOf 0 ⟨false, 1, -64⟩).1 ∧
    (({} : AccElem).pinned = false ∧ ({ cls := .posInf, posNote := true } : AccElem).negNote = false) := by
  refine ⟨fun k _ => ⟨rfl, rfl⟩, by decide, by decide, by decide, by decide, by decide, by decide, by decide, by decide⟩

/-- A context with a spawn ring of 16 places and dependency counters, all in the page at 0. -/
def context : Ctx := { spBase := 0x1000, spSize := 16, depBase := 0x3000, depSize := 4 }
def served (x : Ctx) (w : Warp) : State := { st w with ctxs := [(0, x)] }

theorem test_witness_SpawnAndNotify :
    (let w := uniform [(16, 0x80)]
     (∀ i ∈ [Instr.tspawn ⟨8, 16, 0, 0, 0⟩, .tnotify ⟨0, 24, 0, 0, 0⟩], (served context w).Issues (view w) i) ∧
     (served context w).noAtoms (view w) ∧ (served context w).unrecorded ∧ (served context w).memoryOk ∧
     (served context w).xlate 0 0 0x80 .load = .ok 0x80 ∧ (served context w).xlate 0 0 0x1000 .store = .ok 0x1000 ∧
     (served context w).xlate 0 0 0x3000 .store = .ok 0x3000 ∧ canonical 0x80 = true ∧ canonical 0x1000 = true) ∧
    (∀ x ∈ [{ context with spTail := 16 }, { context with spSize := 0 }], (served x warp).Issues (view warp) (.tspawn ⟨8, 16, 0, 0, 0⟩)) ∧
    (let w := uniform [(16, 0x7C), (24, 4)]
     ∀ i ∈ [Instr.tspawn ⟨8, 16, 0, 0, 0⟩, .tnotify ⟨0, 24, 0, 0, 0⟩], (served context w).Issues (view w) i) ∧
    (let w := uniform [(17, 0x80000000)]
     (served context w).Issues (view w) (.tspawn ⟨8, 16, 0, 0, 0⟩) ∧ canonical (2 ^ 63) = false) ∧
    ({ served context warp with mem := [(0x3000, 1)] } : State).Issues (view warp) (.tnotify ⟨0, 24, 0, 0, 0⟩) :=
  ⟨⟨all_issue (by decide), (calm_memory (by decide)).2.2.2 _, (calm_memory (by decide)).1, (calm_memory (by decide)).2.1, by decide,
    by decide, by decide, by decide, by decide⟩,
   fun x h => (by
     rcases (by simpa using h : x = { context with spTail := 16 } ∨ x = { context with spSize := 0 }) with rfl | rfl <;>
       exact issues (by decide)),
   all_issue (by decide), ⟨issues (by decide), by decide⟩, issues (by decide)⟩

/-- Pipe 3 with two slots, the first in this state. -/
def piped (p : PipeSt × Option Nat) (durable : Bool) (w : Warp) : State := { st w with
  gangs := [{ gang with pipes := [⟨3, durable, 1024, 0x4000, [p, (.free, none)], 0, 0⟩] }] }

def pipeForms : List Instr := [.prsv ⟨8, 0, 0, 0, 3⟩, .prsv ⟨8, 0, 0, 1, 3⟩, .pget ⟨8, 0, 0, 0, 3⟩, .pget ⟨8, 0, 0, 1, 3⟩,
  .pput ⟨0, 16, 0, 0, 3⟩, .prel ⟨0, 16, 0, 0, 3⟩, .prsv ⟨8, 0, 0, 0, 5⟩, .pget ⟨8, 0, 0, 0, 5⟩, .pput ⟨0, 16, 0, 0, 5⟩, .prel ⟨0, 16, 0, 0, 5⟩]
def pipeStates : List ((PipeSt × Option Nat) × Bool) := [((.free, none), true), ((.full, some 0), true), ((.reserved, some 0), true),
  ((.reserved, some 0), false), ((.taken, some 0), false)]

theorem test_witness_NamedPipes : ∀ x ∈ pipeStates,
    let w := uniform [(16, 0x4000)]
    let s := piped x.1 x.2 w
    (∀ i ∈ pipeForms, s.Issues (view w) i) ∧ s.noAtoms (view w) ∧ s.unrecorded ∧ s.memoryOk ∧
    ((s.gang? 2).bind fun g => g.pipes.find? (·.num == 3)) = some ⟨3, x.2, 1024, 0x4000, [x.1, (.free, none)], 0, 0⟩ ∧
    ((s.gang? 2).bind fun g => g.pipes.find? (·.num == 5)) = none ∧ BitVec.ofNat 32 (0x4000 + 0 * 1024) = (view w).s 16 := by
  have h : ∀ x ∈ pipeStates, (issueAll (piped x.1 x.2 (uniform [(16, 0x4000)])) (view (uniform [(16, 0x4000)])) pipeForms &&
      calm (piped x.1 x.2 (uniform [(16, 0x4000)]))) = true := by decide
  intro x hx
  have hx := Bool.and_eq_true_iff.1 (h x hx)
  have c := calm_memory hx.2
  exact ⟨all_issue hx.1, c.2.2.2 _, c.1, c.2.1, rfl, rfl, by decide⟩

theorem test_witness_TakingAFault :
    (st warp).view? = some (view warp) ∧ (view warp).team.stepping = none ∧ (view warp).team.tbase = 0xFFFFFFFF ∧
    (let t := { team warp with tbase := 0x40 }
     let w : Warp := { warp with slices := List.replicate 8 { inHandler := true } }
     ({ st warp with teams := [t] } : State).view? = some { view warp with team := t } ∧ t.tbase ≠ 0xFFFFFFFF ∧
     ({ view warp with team := t } : View).inHandler = false ∧ (view w).inHandler = true ∧ (st w).view? = some (view w)) ∧
    (let o : Team := { team warp with uid := 5, num := 1, core := 1 }
     let s : State := { st warp with teams := [team warp, o] }
     s.view? = some (view warp) ∧ s.named ∧ s.team? 5 = some o ∧ o.gang = 2) ∧
    (view warp).operandsOk (.mov ⟨64, 0⟩) = false :=
  ⟨by decide, rfl, rfl, ⟨by decide, by decide, by decide, by decide, by decide⟩,
    ⟨by decide, ⟨by decide, by unfold Warp.partitioned; decide⟩, by decide, rfl⟩, by decide⟩

theorem test_witness_SystemInstructions :
    let w : Warp := { warp with slices := List.replicate 8 { inHandler := true, lastRites := true, resume := 0x80 } }
    (∀ q ∈ [(7 : BitVec 3), 0], ∀ i ∈ [Instr.trap ⟨0, 0, 0, q, 0, 0xFFFF⟩, .bkpt ⟨0, 0, 0, q, 0⟩, .mark ⟨0, 0, 0, q, 0, 7⟩, .snap ⟨0, 0, 0, q, 0⟩,
      .tret ⟨0, 0, 0, q, 0⟩, .commit ⟨0, 0, 0, q, 0⟩], (st warp).Issues (view warp) i) ∧
    (st warp).viewOf? (view warp).sel = some (view warp) ∧ (view warp).team.recorded = false ∧ (view warp).team.replayed = false ∧
    (view warp).team.stepping = none ∧ ((st warp).ctxOf 0).stop = none ∧ (view warp).inHandler = false ∧
    (served { dbgCtl := 6 } warp).Issues (view warp) (.bkpt ⟨0, 0, 0, 7, 0⟩) ∧ ((served { dbgCtl := 6 } warp).ctxOf 0).dbgCtl.getLsbD 1 = true ∧
    (st w).Issues (view w) (.tret ⟨0, 0, 0, 7, 0⟩) ∧ (view w).inHandler = true ∧
    ({ st warp with snapArm := true } : State).Issues (view warp) (.snap ⟨0, 0, 0, 7, 0⟩) :=
  ⟨both_guards (all_issue (by decide)) (all_issue (by decide)), by decide, rfl, rfl, rfl, rfl, by decide, issues (by decide), by decide,
    issues (by decide), by decide, issues (by decide)⟩

/-- Splits with held faults: a fault with this code, raised in this clock. -/
def fault (code : Nat) (clock : Nat) : Deferred := ⟨code, 0, 0, clock, true, 0⟩
def held (ds : List Deferred) : Warp := { warp with splits := [{ split with deferred := ds }] }
def heldView (ds : List Deferred) : View := ⟨team (held ds), held ds, { split with deferred := ds }⟩

theorem test_witness_HeldFaultsAndWatchdogs :
    (∀ ds ∈ [([] : List Deferred), [fault 0x15 3, fault 0x0D 3], [fault 0x0D 1, fault 0x19 2], [fault 0x19 1, fault 0x1B 2]],
      (st (held ds)).viewOf? ⟨1, 0, 0⟩ = some (heldView ds) ∧ (heldView ds).sel = ⟨1, 0, 0⟩) ∧
    (heldView []).faultDue = false ∧ (heldView [fault 0x15 3]).faultDue = true ∧
    ((served { dbgCtl := 0x100, bpAddr := [1, 0, 0, 0] } warp).ctxOf 0).breaksAt 0 = true ∧
    (let s : State := { served { teamWd := 0, drainB := 5 } warp with tick := 3 }
     s.named ∧ s.team? 1 = some (team warp) ∧ (s.ctxOf 0).teamWd ≠ 0xFFFFFFFF ∧ 0 + (s.ctxOf 0).teamWd.toNat ≤ s.tick) ∧
    (let t := { team warp with removeAt := some 3 }
     ({ st warp with teams := [t], tick := 3 } : State).team? 1 = some t ∧ t.exited = false) :=
  ⟨by decide, by decide, by decide, by decide, ⟨⟨by decide, by unfold Warp.partitioned; decide⟩, by decide, by decide, by decide⟩,
    by decide⟩

/-! ### Graphics, networks, Twill -/

def texLr (s vc : BitVec 8) : LR := ⟨8, 16, 7, 0, 0, 40, vc, 0x80, s⟩

theorem test_witness_TextureInstructions :
    (let w := uniform [(40, 0x1000), (42, 0x2000)]
     (∀ i ∈ [Instr.tex (texLr 0 0), .tex (texLr 8 24), .tfetch (texLr 0 24), .tfetch (texLr 2 24)], (st w).Issues (view w) i) ∧
     (st w).noAtoms (view w) ∧ (st w).poison = [] ∧ ((view w).part 7 0).length = 32 ∧ (view w).warp.ld < 1023 ∧
     (view w).s64 40 = 0x1000 ∧ (st w).reads (view w) 0x1000 64 0x1000 ∧ (st w).reads (view w) 0x2000 32 0x2000) ∧
    (let w := uniform [(40, 0x1020), (42, 0x2010)]
     (st w).Issues (view w) (.tex (texLr 8 24)) ∧ ((view w).s64 40).toNat % 64 ≠ 0 ∧ ((view w).s64 42).toNat % 32 ≠ 0) ∧
    (st { warp with ld := 1023 }).Issues (view { warp with ld := 1023 }) (.tfetch (texLr 0 24)) ∧
    (st warp).Issues (view warp) (.tfetch ⟨8, 16, 0, 0, 0, 40, 24, 0x80, 0⟩) ∧ (view warp).part 0 0 = [] ∧
    (let m : TexOp := ⟨20, ⟨1, 0, 0⟩, 0xFF, [(8, 0, 1), (9, 0, 2), (8, 31, 3)], none⟩
     ({ st warp with texOps := [m] } : State).texOps.find? (·.id == m.id) = some m ∧ (st warp).warpAt 1 0 = some warp ∧
     (∀ x ∈ m.vwrites, x.2.1 < 32) ∧ m.vwrites.Pairwise (fun x y => ¬(x.1 = y.1 ∧ x.2.1 = y.2.1))) :=
  ⟨⟨all_issue (by decide), (calm_memory (by decide)).2.2.2 _, rfl, by decide, by decide, by decide, ⟨by decide, by decide, by decide⟩,
    ⟨by decide, by decide, by decide⟩⟩, ⟨issues (by decide), by decide, by decide⟩, issues (by decide), issues (by decide), by decide,
    by decide⟩

/-- A descriptor that is good, and a sampler that is. -/
theorem test_witness_descriptors : (texDesc (bytesOfNat 64 0x10000)).2 = true ∧ (texDesc (bytesOfNat 64 0x10000)).1.fmt ≠ 9 ∧
    (samplerDesc (bytesOfNat 32 0)).2 = true := by decide

/-- Level 0 of ten, the texel of a coordinate, and an address mode that keeps it (R386, R387). -/
theorem test_witness_nearest : levelsTo 0 10 0 ∧ floorsTo 0x3E800000 4 1 ∧ addressesTo 0 4 1 1 := by
  exact ⟨⟨0, 2 ^ 149, 0, ⟨_, rfl, by decide⟩, by decide⟩, ⟨2 ^ 23, 2 ^ 25, ⟨_, rfl, by decide⟩, by decide⟩,
    by unfold addressesTo; decide⟩

def ray (st : RaySt) : Ray := ⟨20, 0, ⟨1, 0, 0⟩, 0xFF, 0x77, 0, List.replicate 8 0x3F800000, 0x1000, false, false, false, st,
  some ⟨1, 2, 3, 4, true⟩, some ⟨5, 6, 7, 8, false⟩, [], false, 0, 1⟩
def rayed (r : Ray) : State := { st (one [(16, 0x77)]) with rays := [r], rayOps := [⟨9, ⟨1, 0, 0⟩, [20]⟩] }
def rayView : View := view (one [(16, 0x77)])

theorem test_witness_RayInstructions :
    (let w := uniform [(40, 0x1000)]
     (st w).Issues (view w) (.rayq ⟨8, 16, 7, 0, 0, 40, 0, 0x80, 7⟩) ∧ ((view w).s64 40).toNat % 128 = 0 ∧ (st w).noAtoms (view w) ∧
     (view w).warp.ld < 1023 ∧ (st w).rays.countP (fun r => r.core == 0 && !r.ended) + ((view w).part 7 0).length ≤ 256) ∧
    (let w := uniform [(40, 0x1004)]
     (st w).Issues (view w) (.rayq ⟨8, 16, 7, 0, 0, 40, 0, 0x80, 0⟩) ∧ ((view w).s64 40).toNat % 128 ≠ 0) ∧
    (∀ x ∈ [RaySt.running, .miss, .hit, .candidate, .error], (rayed (ray x)).view? = some rayView ∧
      (rayed (ray x)).rays.find? (·.id == 20) = some (ray x) ∧
      ((rayed (ray x)).rays.find? fun r => r.token == rayView.vec 16 0 && r.x.team == 1) = some (ray x)) ∧
    rayView.part 0 0 = [0] ∧ (rayed (ray .candidate)).Issues rayView (.raycont ⟨0, 16, 0, 0, 0, 0, 1, 0, 1⟩) ∧
    (rayed (ray .candidate)).Issues rayView (.raycont ⟨0, 16, 0, 0, 0, 0, 1, 0, 0⟩) ∧
    (rayed (ray .hit)).Issues rayView (.rayget ⟨8, 16, 0, 0, 0, 0, 0, 0, 0⟩) ∧ ((rayed (ray .candidate)).rays.map (·.id)).Nodup ∧
    (rayed (ray .running)).Issues rayView (.raycont ⟨0, 16, 0, 0, 0, 0, 1, 0, 0⟩) ∧
    (st warp).Issues (view warp) (.raycont ⟨0, 16, 7, 0, 0, 0, 1, 0, 0⟩) ∧
    finite32 ((({ ray .running with geom := List.replicate 8 0x7F800000 } : Ray).geom.getD 6 0).toNat) = none :=
  ⟨⟨issues (by decide), by decide, (calm_memory (by decide)).2.2.2 _, by decide, by decide⟩, ⟨issues (by decide), by decide⟩, by decide,
    by decide, issues (by decide), issues (by decide), issues (by decide), by decide, issues (by decide), issues (by decide), by decide⟩

theorem maps (x : Ctx) (w : Warp) : (mapped x w).untroubled 0 ↔ x.reqs = [] := by
  simp [State.untroubled, mapped, State.ctxOf, Tab.get, Tab.find?, st, State.reset]

def kern : KernelDesc := ⟨0, 0, 0, 1, 64, 64, 64, 64, 0⟩
def draw : Draw := {
  id := 4, ctx := 0, vkern := kern, pkern := kern, nattr := 0, dfunc := 5, dwr := true, zout := false, blend := 0, recb := 0
  nprim := 1, base := 0x40000, width := 64, height := 64, block := 0x8000, done := [0] }
def pixel : PixelWork := ⟨0, 4, 0, 3, 5, 0, 0, 1, true, .exported [1, 2, 3, 4] 5⟩
/-- The draw, with this pixel waiting for its export. -/
def drawing (l : List PixelWork) : State := { mapped {} warp with draws := [draw], pixels := l }

theorem test_witness_DrawsAndPixels :
    (0x20 : BitVec 64).toNat % 32 = 0 ∧ (0x24 : BitVec 64).toNat % 32 ≠ 0 ∧ (mapped {} warp).untroubled 0 ∧
    (mapped {} warp).xlateNow 0 0x20 .load = .ok 0x20 ∧ (mapped {} warp).xlateNow 0 0x8000 .store = .ok 0x8000 ∧
    drawOf 9 0 (List.replicate 32 0) (List.replicate 32 0) (List.replicate 32 0) (List.replicate 64 0) = none ∧
    (let bs := bytesOfNat 32 (0x100 + 2 ^ 64 * 0x100 + 2 ^ 160 * 1 + 2 ^ 192 * 0x200)
     let k := List.replicate 32 0
     (drawOf 9 0 bs k k (bytesOfNat 64 (0x40000 + 2 ^ 64 * 0x003F003F + 2 ^ 128 * 8))).any (fun d =>
       (rasterRecord 0 0 0x20 d.vkern).fits && (rasterRecord 0 0 0x20 d.pkern).fits) = true ∧ fieldAt bs 0x18 8 % 64 = 0) ∧
    (drawing []).draws.find? (·.id == 4) = some draw ∧ (∀ die < 4, draw.next.getD die draw.nprim = 0) ∧ 0 < draw.nprim ∧
    ((drawing []).draws.map (·.id)).Nodup ∧ allSome ((List.range 3).map fun i => (drawing []).vertexDone draw (3 * 0 + i)) = some [true, true, true] ∧
    (drawing [pixel]).prunePixels 0 = drawing [pixel] ∧ (drawing [pixel]).nextExport 0 = some pixel ∧
    pixel.st = .exported [1, 2, 3, 4] 5 ∧ (mapped {} warp).xlateNow 0 (draw.colourAt 3 5) .store = .ok (draw.colourAt 3 5) ∧
    (mapped {} warp).xlateNow 0 (draw.depthAt 3 5) .store = .ok (draw.depthAt 3 5) := by
  exact ⟨by decide, by decide, (maps {} warp).2 rfl, by and_intros <;> decide⟩

/-- Mapped memory with more cells, all below the tables. -/
def mappedWith (cells : List Host.Cell) (x : Ctx) (w : Warp) : State := { mapped x w with mem := cells ++ tableCells }

/-- Weight set 0 at 0x5000: version 1 of a network at 0x600 of one layer of four by four. -/
def netCells : List Host.Cell := [(0x604, 0x20), (0x60A, 1), (0x5001, 0x06), (0x5008, 1), (0x500B, 0x80)]
def netCtx : Ctx := { wsBase := 0x5000, wsSize := 1 }
def netted (w : Warp) : State := mappedWith netCells netCtx w
def netBytes : List Byte := (netted warp).homeBytes 0x600 96
def key : VerKey := ⟨0, 0, 1⟩
def call (rows : List (Nat × List Word × Word)) (accepted : Bool) : NCall :=
  ⟨20, ⟨1, 0, 0⟩, 0xFF, 0, 0, 8, 4, rows, accepted, 0, 1, false⟩
def unitOf (r : Regroup) (calls : List NCall) (w : Warp) : State := { netted w with regroups := [(0, r)], ncalls := calls }

theorem test_witness_NeuralCalls :
    (∀ i ∈ [Instr.ncall ⟨8, 16, 7, 0, 0, 0, 24, 3, 3⟩, .ncall ⟨8, 16, 0, 0, 0, 0, 24, 3, 3⟩, .nflush ⟨0, 0, 0, 0, 0⟩], (st warp).Issues (view warp) i) ∧
    ((view warp).part 7 0).length + (st warp).placesTaken 0 ≤ 2048 ∧ warp.ntok < 63 ∧
    (st { warp with ntok := 63 }).Issues (view { warp with ntok := 63 }) (.ncall ⟨8, 16, 7, 0, 0, 0, 24, 3, 3⟩) ∧
    ((unitOf {} [call [(0, [1], 0)] false] warp).ncalls.any fun c => !c.accepted && clusterOfCore c.core == 0) = true ∧
    (let s := unitOf { queue := [20], bins := [(0, ⟨key, [], 0⟩)] } [call [(31, [1], 0)] true] warp
     ((s.regroup 0).queue.findSome? fun id => s.ncalls.find? fun c => c.id == id && !c.rows.isEmpty) = some (call [(31, [1], 0)] true) ∧
     (s.resolveHandle (s.regroup 0).resident 0 0 (.unit 20)).2 = .ok key 0x600 ∧ ((s.regroup 0).bins.map (·.1)).Nodup) ∧
    (let w : Warp := { warp with ntok := 1, splits := [{ split with wait := .stall 6 }] }
     ∀ u ∈ [w], u.ntok ≠ 0 ∧ (∀ sp ∈ u.splits, sp.wait ≠ .none) ∧ ∃ sp ∈ u.splits, sp.wait = .stall 6) ∧
    (let s := unitOf { tiles := [⟨key, [⟨20, 31, 0, [1, 2], 0⟩], 0, 0⟩], cache := [⟨key, netBytes, false, 0, []⟩] } [call [] true] warp
     (s.regroup 0).tiles = ⟨key, [⟨20, 31, 0, [1, 2], 0⟩], 0, 0⟩ :: [] ∧ (s.regroup 0).cache.find? (·.key == key) = some ⟨key, netBytes, false, 0, []⟩ ∧
     s.ncalls.find? (·.id == 20) = some (call [] true) ∧ s.team? 1 = some (team warp) ∧ (team warp).warp? 0 = some warp) :=
  ⟨all_issue (by decide), by decide, by decide, issues (by decide), by decide, by decide, by decide, by decide⟩

theorem test_witness_WeightSetsAndDispatch :
    (∀ i ∈ [Instr.wpref ⟨0, 16, 0, 0, 0⟩, .wpin ⟨8, 16, 0, 0, 0⟩, .wunpin ⟨0, 16, 0, 0, 0⟩, .wver ⟨8, 16, 24, 0, 0⟩,
      .rgdisp ⟨8, 16, 7, 0, 0, 40, 24, 0x80, 2⟩, .rgdisp ⟨8, 16, 0, 0, 0, 40, 24, 0x80, 0⟩], (netted warp).Issues (view warp) i) ∧
    ((view warp).s 16).extractLsb' 0 8 = 0 ∧ ((view warp).s 16).toNat < (netted warp |>.ctxOf 0).wsSize.toNat ∧
    ((view (uniform [(16, 0x100)])).s 16).extractLsb' 8 8 ≠ 0 ∧ ((view (uniform [(16, 1)])).s 16).extractLsb' 0 8 ≠ 0 ∧
    (netted warp).noAtoms (view warp) ∧ (netted warp).unrecorded ∧ (netted warp).memoryOk ∧ (netted warp).poison = [] ∧
    (netted warp).xlate 0 0 0x5000 .store = .ok 0x5000 ∧ (netted warp |>.gang? 2).map (·.drain) = some true ∧
    (let l : WLoad := ⟨30, key, some 0x600, true, [], []⟩
     let s := unitOf { loads := [l] } [] warp
     (s.regroup 0).loads.filter (·.key == key) = [l] ∧ (s.readVersion 0 0x600 (.unit 30)).2 = .ok netBytes ∧ netOk netBytes = true) ∧
    (let op : RgOp := ⟨20, ⟨1, 0, 0⟩, 0xFF, 0, 0x7000, 8, [(31, 1, [7])]⟩
     let s := { mappedWith [(0x7000, 2), (0x7021, 0x08), (0x702C, 1)] {} warp with rgOps := [op] }
     s.rgOps.find? (·.id == op.id) = some op ∧ s.team? 1 = some (team warp) ∧ s.l1Of 0 = [] ∧ (s.ctxOf 0).reqs = [] ∧
     s.xlateNow 0 0x7000 .load = .ok 0x7000 ∧ natOfBytes (s.homeBytes 0x7000 4) = 2 ∧ s.xlateNow 0 0x7020 .load = .ok 0x7020 ∧
     natOfBytes (s.homeBytes 0x7028 4) < natOfBytes (s.homeBytes 0x702C 4) ∧ s.xlateNow 0 0x800 .store = .ok 0x800 ∧
     (s.writeHome 0x7028 (bytesOfNat 4 1)).xlateNow 0 0x800 .store = .ok 0x800) :=
  ⟨all_issue (by decide), by decide, by decide, by decide, by decide, (calm_memory (by decide)).2.2.2 _, (calm_memory (by decide)).1,
    (calm_memory (by decide)).2.1, rfl, by decide, by decide, by decide, by decide⟩

/-- A tag pool of two tags at 0x1800, tag 0 live with generation 0. -/
def twCtx : Ctx := { twtBase := 0x1800, twTags := 2, twOvBase := 0x2000, twOrph := 5 }
def twilled (cells : List Host.Cell) (w : Warp) : State := mappedWith cells twCtx w
def twWarp (tag dest : Word) : Warp := uniform [(16, tag), (24, 0x400), (25, dest)]

theorem test_witness_TwillInstructions :
    (∀ cells ∈ [([] : List Host.Cell), [(0x1800, 1)], [(0x1800, 1), (0x1804, 1)], [(0x1800, 3)]],
      issueAll (twilled cells (twWarp 0 0)) (view (twWarp 0 0)) [.twtag ⟨8, 0, 0, 0, 0⟩, .twfree ⟨0, 16, 0, 0, 0⟩, .twsend ⟨8, 16, 24, 0, 5⟩,
        .twrecv ⟨8, 16, 24, 0, 0⟩, .twrecvSt ⟨8, 16, 0, 1, 0⟩] = true ∧ calm (twilled cells (twWarp 0 0)) = true) ∧
    (twilled [] (twWarp 0 0)).xlate 0 0 0x1800 .store = .ok 0x1800 ∧ (twilled [] (twWarp 0 0)).xlate 0 0 0x1804 .store = .ok 0x1804 ∧
    (twilled [] (twWarp 0 0)).newestNat 0 0x1800 4 % 4 = 0 ∧ (twilled [(0x1800, 1)] (twWarp 0 0)).newestNat 0 0x1800 4 % 4 ≠ 0 ∧
    (twilled [(0x1800, 1)] (twWarp 0 0)).scrAllowed (team (twWarp 0 0)) 0x400 1024 = true ∧
    (twilled [(0x1800, 1)] (twWarp 0 0)).deadConflict [⟨10, 0, true, 0x400, 0x800, false, false⟩] = false ∧
    (twilled [(0x1800, 1)] (twWarp 0 0)).rangesConflict? [⟨10, 0, true, 0x400, 0x800, true, false⟩] = none ∧
    (twilled [] (twWarp 2 0)).Issues (view (twWarp 2 0)) (.twfree ⟨0, 16, 0, 0, 0⟩) ∧
    (twilled [] (twWarp 2 0)).view? = some (view (twWarp 2 0)) ∧ (twWarp 0 0x80).slices.all (fun sl => sl.s 25 &&& 0xF000FF80 != 0) = true ∧
    (let g := { gang with drain := false }
     ({ st warp with gangs := [g] } : State).Issues (view warp) (.twtag ⟨8, 0, 0, 0, 0⟩) ∧ g.drain = false) :=
  ⟨by decide, by decide, by decide, by decide, by decide, by decide, by decide, by decide, issues (by decide), by decide, by decide,
    issues (by decide), rfl⟩

def send (next : Nat) (tries : Nat) : TwSend := ⟨20, 0, 0, ⟨1, 0, 0⟩, 0xFF, 0, 0, 0x00000000, List.replicate 16 0, 7, tries, next, next != 0, none⟩
def meet (combined spilled : Bool) (op retryAt : Nat) : Meeting := ⟨30, 0, 0, 0, combined, op, 0, if spilled then [] else List.replicate 16 0, 0, [], spilled, retryAt⟩
def landing : Landing := ⟨40, 0, 0, ⟨1, 0, 0⟩, 0, 0x400, 9, 0⟩
def routed (l : List TwSend) (m : List Meeting) (ls : List Landing) : State :=
  { twilled [(0x1800, 1)] warp with sends := l, meetings := m, landings := ls, clock := 100, tick := 50 }

theorem test_witness_TwillRouters :
    (∀ x ∈ [send 0 0, send 100 63], (routed [x] [] []).sends.find? (·.id == 20) = some x ∧ (x.next = 0 ∨ x.next ≤ 100)) ∧
    (routed [] [] []).untroubled 0 ∧ ((send 0 0).dest.extractLsb' 22 6).toNat = (routed [] [] []).khmod.toNat ∧
    (routed [] [] []).xlateNow 0 0x1800 .load = .ok 0x1800 ∧ natOfBytes ((routed [] [] []).homeBytes 0x1800 4) = 1 ∧
    ((0x00400000 : Word).extractLsb' 22 6).toNat ≠ (routed [] [] []).khmod.toNat ∧
    (∀ m ∈ [meet false false 0 0, meet false false 1 0, meet false true 0 0, meet true false 0 0, meet true true 0 0, meet true false 0 100],
      ((routed [send 0 0] [m] []).meetings.find? fun y => y.router == 0 && y.ctx == 0 && y.tag == 0) = some m) ∧
    (routed [] [] []).xlateNow 0 0x2000 .load = .ok 0x2000 ∧ (routed [] [] []).xlateNow 0 0x2000 .store = .ok 0x2000 ∧
    ((routed [] [meet true false 0 0] [landing]).landings.find? fun l => l.core == 0 && l.ctx == 0 && l.tag == 0) = some landing ∧
    (routed [] [] [landing]).landings.find? (·.id == 40) = some landing ∧ landing.tick + 5 ≤ (routed [] [] []).tick ∧
    (meet false false 0 0).tick + 5 < (routed [] [] []).tick ∧ ((routed [] [] []).ctxOf 0).twOrph = 5 ∧ ((routed [] [] []).ctxOf 0).fqRoom = false :=
  ⟨by decide, ⟨rfl, rfl, rfl⟩, by and_intros <;> decide⟩

def reqOf (put : Bool) (h : BitVec 64) : MbReq := ⟨20, 0, 0, ⟨1, 0, 0⟩, 0xFF, put, h, [1, 2, 3, 4], 5, 8, 7, 0x400, true⟩
def episode : Episode := {
  pair := 5, ctx := 0, num := 0, wbase := 0x10000, wsize := 0x10000, entry := 0x10000, tbud := some 0, ibud := some 0
  reward := true, follow := false, pver := 0, result := 0x1000, bound := none, core := some 0 }
def mailed (p : Pair) (l : List MbReq) (es : List Episode) : State := { mapped {} warp with pairs := [(5, p)], mbReqs := l, episodes := es, tick := 1000 }

theorem test_witness_StepMailboxes :
    (∀ i ∈ [Instr.mbput ⟨8, 16, 24, 0, 0⟩, .mbput ⟨8, 16, 24, 1, 0⟩, .mbget ⟨8, 16, 24, 0, 0⟩, .mbstat ⟨8, 16, 0, 0, 0⟩, .mbstat ⟨8, 16, 0, 1, 0⟩],
      (st warp).Issues (view warp) i) ∧ (st warp).noAtoms (view warp) ∧ (st warp).unrecorded ∧ (st warp).memoryOk ∧
    (∀ x ∈ [PairSt.free, .obsWait, .obsReady, .actWait, .ended], (mailed { st := x } [reqOf true 0x100000, reqOf false 0] []).pair 5 = { st := x }) ∧
    (mailed {} [reqOf true 0x100000] []).mbReqs.find? (·.id == 20) = some (reqOf true 0x100000) ∧
    (mailed {} [reqOf false 0] []).mbReqs.find? (·.id == 20) = some (reqOf false 0) ∧ (st warp).warpAt 1 0 = some warp ∧ warp.partitioned ∧
    ((0x100000 : BitVec 64).extractLsb' 44 20).toNat = 0 ∧ ((0x100000 : BitVec 64).extractLsb' 20 24).toNat = 0 + 1 ∧
    (mailed { st := .actWait } [reqOf true 0x100000] [episode]).episode? 5 = some episode ∧ episode.pver = 0 ∧
    ({ st := .ended, endTick := 0 } : Pair).endTick + 1000 ≤ (mailed {} [] []).tick :=
  ⟨all_issue (by decide), (calm_memory (by decide)).2.2.2 _, (calm_memory (by decide)).1, (calm_memory (by decide)).2.1, by decide, by decide,
    by decide, by decide, ⟨by decide, by decide⟩, by decide, by decide, by decide, rfl, by decide⟩

/-! ### Episodes, tasks, the host -/

/-- An EPQ of 16 places at 0x4000 with an accepted descriptor whose window is 0x10000 to 0x10FFF, entry 0x10000, pair 5. -/
def epCells : List Host.Cell := [(0x4002, 1), (0x4009, 0x10), (0x4012, 1), (0x4018, 3), (0x401C, 1), (0x4024, 5), (0x4029, 0x10)]
def epCtx : Ctx := { epqBase := 0x4000, epqSize := 16, epqTail := 1 }
def epState (cells : List Host.Cell) (p : Pair) (es : List Episode) : State :=
  { mappedWith cells epCtx warp with pairs := [(5, p)], episodes := es }
def other (n : Nat) : Episode := { episode with pair := n, tbud := none, ibud := none, core := none, order := n }

theorem test_witness_Episodes :
    ((epState [] {} []).ctxOf 0).epqOn = true ∧ ((5 : Word) - 0).toNat ≤ ((epState [] {} []).ctxOf 0).epqSize.toNat ∧
    ¬((17 : Word) - 0).toNat ≤ ((epState [] {} []).ctxOf 0).epqSize.toNat ∧
    ((mapped {} warp).ctxOf 0).epqOn = false ∧
    (let s := epState epCells {} []
     let bs := s.homeBytes 0x4000 64
     s.xlateNow 0 0x4000 .load = .ok 0x4000 ∧ fieldAt bs 0 8 = 0x10000 ∧ fieldAt bs 8 8 = 0x1000 ∧ fieldAt bs 16 8 = 0x10000 ∧
     bitsOf (fieldAt bs 0x24 4) 0 14 = 5 ∧ fieldAt bs 0x28 8 = 0x1000 ∧ fieldAt bs 0x34 12 = 0 ∧ (s.pair 5).st = .free ∧
     (s.bindWeights 0 0 (.queue 0 8)).2 ≠ .waits ∧ fieldAt ((epState [] {} []).homeBytes 0x4000 64) 8 8 < 4096) ∧
    (∀ p ∈ [({ st := .obsReady } : Pair), { st := .obsWait }, { st := .actWait }, { st := .obsWait, landing := some (reqOf false 0) },
        { st := .obsReady, action := some (7, [1, 2, 3, 4]) }],
      (epState [] p [episode]).episode? 5 = some episode ∧ p.st ≠ .free ∧ p.st ≠ .ended ∧ p.terminal = none) ∧
    (epState [] {} [episode]).xlateNow 0 0x1000 .store = .ok 0x1000 ∧ episode.core.isSome = true ∧ episode.waiting = none ∧
    episode.tbud = some 0 ∧ episode.ibud = some 0 ∧
    (epState [] {} [episode]).xlateNow 0 0x10000 .load = .ok 0x10000 ∧ episode.wbase ≤ 0x10000 ∧ 0x10000 + 4 ≤ episode.wbase + episode.wsize ∧
    (∀ c, c < 16 → ∃ f ∈ (List.range 16).map (fun c => { other c with core := some c }), f.core = some c ∧ f.pair / 4096 = 0) :=
  by and_intros <;> decide

/-- Tables of satp: 0x1000 names 0x2000, that names 0x3000, and that the page at 0x14000, for user mode; ADDI at 0x18000. -/
def satpCells : List Host.Cell := [(0x1000, 0x01), (0x1001, 0x08), (0x2000, 0x01), (0x2001, 0x0C), (0x3000, 0xDF), (0x3001, 0x50)]
def user (satp pc : BitVec 64) : Episode := { episode with satp, pc }
def hart (e : Episode) : State := { epState [] {} [e] with
  mem := satpCells ++ tableCells.take 2 ++ [(0x18000, 0x13)] ++ tableCells.drop 2, pmp := [(0, openPmp)] }

theorem test_witness_Episodes_tables :
    let e := user 0x8000000000000001 0
    let s := hart e
    (∀ at' ∈ [0x1000, 0x2000, 0x3000], s.pmpGrants e .load at' 8 = true ∧ s.xlateNow 0 (globalAddr at') .load = .ok at') ∧
    (∀ x ∈ [(0x1000, 0x801), (0x2000, 0xC01), (0x3000, 0x50DF)], natOfBytes (s.homeBytes x.1 8) = x.2) ∧ signedOf 39 0x10 = signedOf 64 0x10 ∧
    signedOf 39 (2 ^ 38) ≠ signedOf 64 (2 ^ 38) ∧ s.untroubled 0 :=
  ⟨by decide, by decide, by decide, by decide, rfl, rfl, rfl⟩

theorem translates {r : State × UserRes Nat} {s : State} {a : Nat}
    (h : (match r with | (t, .ok b) => decide (t = s ∧ b = a) | _ => false) = true) : r = (s, .ok a) := by
  obtain ⟨t, r⟩ := r
  cases r <;> simp_all

/-- A load through those tables, an access outside the window, and instructions of two and of four bytes. -/
theorem test_witness_Episodes_load : let e := user 0x8000000000000001 0
    (hart e).UserAt e .load 0x10 8 0x14010 0x14010 ∧ (hart e).UserBad e .load (2 ^ 38) 8 :=
  ⟨⟨by decide, by decide, translates (by decide), by decide, by decide, by decide, by decide⟩, by decide, by decide, .inl rfl⟩

theorem test_witness_Episodes_compressed : let e := user 0 0x10000
    (hart e).UserFetch e (expandC 1) 2 ∧ (hart e).UserBad e .store 0x100 8 :=
  ⟨⟨0x10000, 0x10000, ⟨by decide, by decide, rfl, by decide, by decide, by decide, by decide⟩, .inl ⟨rfl, by decide, by decide⟩⟩,
    by decide, by decide, .inr ⟨0x100, rfl, by decide⟩⟩

theorem test_witness_Episodes_word : let e := user 0 0x18000
    (hart e).UserFetch e 0x13 4 :=
  ⟨0x18000, 0x18000, ⟨by decide, by decide, rfl, by decide, by decide, by decide, by decide⟩, .inr ⟨rfl, by decide,
    0x18002, 0x18002, ⟨by decide, by decide, rfl, by decide, by decide, by decide, by decide⟩, by decide⟩⟩

def runner (c : Nat) : Episode := { other c with core := some c }
theorem test_witness_Episodes_slice :
    let es := (List.range 16).map runner ++ [other 100]
    let s := { epState [] {} es with nextId := 200, tick := 1000 }
    (s.episodes.find? fun e => dieOfPair e.pair == 0 && e.core == some 3) = some (runner 3) ∧ (runner 3).sliceEnd ≤ s.tick ∧
    (s.episodes.map (·.pair)).Nodup ∧ s.episode? 100 = some (other 100) ∧ (other 100).order < s.nextId ∧
    (∀ f ∈ s.episodes, f.core = none → f = other 100) ∧ (∀ f ∈ s.episodes, f.core = some 3 → f = runner 3) := by decide

/-- Queue 0 of context 0 at 0x4000 with 16 places. -/
def qCtx (tail : Word) : Ctx := { q0 := { base := 0x4000, size := 16, head := 0, tail }, depBase := 0x3000, depSize := 4 }
def record : Record := ⟨60, 0, 0, 0x4000, true, 2, some 0, [], [kern], [], [], [], true, 0, 2⟩
def task (st : TaskSt) (n : Nat) : Task := { uid := 61, record := 60, idx := 0, ctx := 0, prio := 3, cluster := 0, arrival := 0, tick := 0, bypassed := n, st }
def tasked (rs : List Record) (ts : List Task) : State :=
  { mapped (qCtx 0) warp with teams := [], gangs := [], records := rs, tasks := ts, nextId := 70, tick := 20000 }

theorem test_witness_LaunchRecordsAndTasks :
    (((mapped (qCtx 0) warp).ctxOf 0).queue 0).enabled = true ∧ ((16 : Word) - 0).toNat ≤ 16 ∧ ¬((17 : Word) - 0).toNat ≤ 16 ∧
    (mapped (qCtx 0) warp).asked 0 (.queue 0 0) = false ∧ (mapped (qCtx 0) warp).offers 0 = [] ∧
    (mapped (qCtx 1) warp).offers 0 = [(0, 0, .host 0)] ∧ (mapped (qCtx 1) warp).xlateNow 0 0x4000 .load = .ok 0x4000 ∧
    recordOk (List.replicate 128 0xFF) 4 (some 0) = false ∧
    (let s := mapped (qCtx 1) warp
     let bs := s.homeBytes 0x4000 128
     recordOk bs 4 (some 0) = true ∧ recWait bs = none ∧ true = (match s.unitReads 0 (.queue 0 0) (descReads bs) with
       | (_, .ok ds) => (recordOf 9 0 0x4000 bs ds).isSome
       | _ => false)) ∧
    ((tasked [{ record with ready := false }] []).records.find? fun q => q.uid == 60 && !q.ready) = some { record with ready := false } ∧
    (mapped (qCtx 1) warp).xlateNow 0 0x3000 .load = .ok 0x3000 ∧
    (tasked [record] []).nextReady 0 = some record ∧ 0 < (tasked [record] []).freeSlots 0 ∧
    (∀ k, k < 8 → (tasked [record] []).freeSlots k ≤ (tasked [record] []).freeSlots 0) ∧
    (tasked [record] [task .unplaced 0]).waitingTasks 0 = [] ++ task .unplaced 0 :: [] ∧ (tasked [record] []).record? 60 = some record ∧
    ((tasked [record] []).placement? (task .unplaced 0) record).isSome = true ∧
    (firstFit [(0, 1024), (2048, 1024)] 1024 = some 1024) ∧ (firstFit [(0, 2 ^ 22)] 1 = none) ∧
    (let c : CopyOp := ⟨62, 0, 0, 0, ⟨0, 0, 0⟩, 0, .cpy false true 1 16, 2 ^ 50, 0, 0, 16, 16, 0, some 61, none, none, false⟩
     let s := { tasked [record] [task (.staged 0 [0] [] [62]) 0] with copies := [c] }
     s.task? 61 = some (task (.staged 0 [0] [] [62]) 0) ∧ (s.copies.filter fun c => c.staging == some 61 && c.runs) = [c] ∧
     (s.copyRun c).2.isSome = true) ∧
    ({ tasked [record] [task .unplaced 0] with steals := [(4, 0)] } : State).steals.find? (·.2 == 0) = some (4, 0) ∧
    (tasked [record] [task .unplaced 0]).tasks.countP (fun t => t.cluster == 0 && t.st == .unplaced && t.work == .compute) = 1 :=
  by and_intros <;> decide

theorem test_witness_GangsAndTeams :
    (let t := task (.staged 0 [0] [] []) 0
     let s := tasked [record] [t]
     s.task? 61 = some t ∧ t.st = .staged 0 [0] [] [] ∧ s.record? 60 = some record ∧ (s.ctxOf 0).dbgCtl.getLsbD 4 = false ∧
     (∀ g ∈ s.gangs, g.uid < s.nextId) ∧ (s.ctxOf 0).hold = false ∧ s.oldest t record 0 = true ∧ s.roomFor t record 0 = true) ∧
    (let w : Warp := { warp with slices := List.replicate 8 { live := 0, act := 0 }, splits := [] }
     let s := { st w with tasks := [{ task (.running 2) 0 with uid := 3 }], records := [record] }
     s.team? 1 = some (team w) ∧ s.unrecorded ∧ s.memoryOk ∧ (∀ x ∈ (team w).warps, x.dead = true) ∧ s.teamBusy 1 = false ∧
     s.gang? 2 = some gang ∧ gang.killed = false ∧ s.task? 3 = some { task (.running 2) 0 with uid := 3 } ∧
     s.warpAt 1 0 = some w ∧ s.warpBusy 1 0 = false ∧ pow2In 16 (2 ^ 24) (s.ctxOf 0).trSize.toNat = false) ∧
    (let s := { st warp with tasks := [task .unplaced 0], records := [record], tick := 10000 }
     s.task? 61 = some (task .unplaced 0) ∧ (s.gangs.map (·.uid)).Nodup ∧ (task .unplaced 0).tick + 10000 ≤ s.tick ∧ (s.ctxOf 0).hold = false) ∧
    (let g := { gang with drainAt := some 3 }
     let s := { st warp with gangs := [g], tick := 3 }
     s.gang? 2 = some g ∧ s.named ∧ (∀ b ∈ s.teams, b.halted = false) ∧ (s.tasks.map (·.uid)).Nodup) ∧
    ((st warp).ctxOf 0).hold = false ∧ ((served { hold := true } warp).ctxOf 0).hold = true ∧
    ((epState [] {} [episode]).episodes.filter fun e => e.ctx == 0 && !e.posted) = [episode] :=
  ⟨by decide, ⟨by decide, (calm_memory (by decide)).1, (calm_memory (by decide)).2.1, by decide, by decide, by decide, rfl, by decide, by decide,
    by decide, by decide⟩, by decide, ⟨by decide, ⟨by decide, by unfold Warp.partitioned; decide⟩, by decide, by decide⟩, by decide, by decide,
    by decide⟩

def flight (load : Bool) : MemOp := {
  id := 20, x := ⟨1, 0, 0⟩, mask := 0xFF, core := 0, isLoad := load, uniform := false
  vwrites := if load then [(8, 0, 1), (9, 0, 2), (8, 31, 3)] else [], swrites := if load then [(4, 7)] else [] }
/-- Barrier 1 and a token are waited for, in this wait of the split, since tick 0, with the last reads in clock 0. -/
def inWaitc (sub : BitVec 4) (w1 : Word) (wait : Wait) (tick clock : Nat) : State :=
  let w : Warp := { uniform [(2, 1), (3, 9), (16, 5)] with
    splits := [{ split with wait, waitc := some ⟨⟨1, 16, 0, sub, w1⟩, 0, 0, [false, false]⟩ }] }
  { st w with teams := [{ team w with bars := [{}, { init := true, members := 1 }] }], tick, clock }
def copy (dead : Bool) (failed : Option (Nat × Word)) (src : Nat) : CopyOp :=
  ⟨20, 0, 0, 0, ⟨1, 0, 0⟩, 7, .cpy false true 1 16, src, 0x40, 0, 16, 16, 0, none, none, failed, dead⟩
def engaged (c : CopyOp) : State := { mapped {} warp with copies := [c], tokens := [⟨7, 1, none, false⟩] }

theorem test_witness_CompletionsAndTraffic :
    (∀ x ∈ [(0, 0x00006322, Wait.waitc, 4, 15), (1, 0x00006322, .walk 7, 5, 15), (2, 0x00000088, .waitc, 6, 16), (3, 0x00000088, .walk 7, 6, 16)],
      ((inWaitc x.1 x.2.1 x.2.2.1 x.2.2.2.1 x.2.2.2.2).viewOf? ⟨1, 0, 0⟩).any (fun v => v.split.wait == x.2.2.1 &&
        v.split.waitc.isSome && (v.s 16).toNat == 5) = true) ∧
    (∀ c ∈ waitcCodes 0x00006322, (c.extractLsb' 5 3).toNat < 4) ∧ (∃ c ∈ waitcCodes 0x00000088, 4 ≤ (c.extractLsb' 5 3).toNat) ∧
    (∀ b ∈ [true, false], ({ st warp with memOps := [flight b] } : State).memOps.find? (·.id == 20) = some (flight b) ∧
      (flight b).atoms = [] ∧ (∀ x ∈ (flight b).vwrites, x.2.1 < 32) ∧
      (flight b).vwrites.Pairwise (fun x y => ¬(x.1 = y.1 ∧ x.2.1 = y.2.1)) ∧ ((flight b).swrites.map (·.1)).Nodup) ∧
    (st warp).warpAt 1 0 = some warp ∧ warp.partitioned ∧ (st warp).unrecorded ∧ (st warp).memoryOk ∧
    (∀ c ∈ [copy true none 0, copy false (some (4, 7)) 0, copy false none 0, copy false none (2 ^ 62), copy false none (2 ^ 40)],
      (engaged c).copies.find? (·.id == 20) = some c ∧ c.staging = none ∧ c.waitFor = none ∧
      ((engaged c).tokens.find? fun x => x.val == c.token && x.team == c.x.team) = some ⟨7, 1, none, false⟩) ∧
    ((engaged (copy false none 0)).copyRun (copy false none 0)).2 = none ∧
    ((engaged (copy false none (2 ^ 62))).copyRun (copy false none (2 ^ 62))).2.isSome = true ∧
    (∃ va l w, ((engaged (copy false none (2 ^ 40))).copyRun (copy false none (2 ^ 40))).2 = some (.notPresent va l w)) :=
  ⟨by decide, by decide, by decide, by decide, by decide, ⟨by decide, by decide⟩, (calm_memory (by decide)).1, (calm_memory (by decide)).2.1,
    by decide, by decide, by decide, ⟨2 ^ 40, 1, false, by decide⟩⟩

/-- Requests of two cores for lines homed on die 0, a column that holds them, and a link with a message for each. -/
def asksFor (core line : Nat) : XReq := ⟨.core core, 0, 256 * line, false, 1⟩
def waitingPort : Port := { waiting := [asksFor 0 7, asksFor 1 9], served := [.core 0] }
def fullColumn : Column := { held := [asksFor 0 7, asksFor 1 9], lines := [7], prio := [(asksFor 1 9).port, (asksFor 0 7).port] }
def carrying : Link := { msgs := [⟨.request (asksFor 0 7), []⟩, ⟨.request (asksFor 1 9), List.replicate 64 0⟩, ⟨.steal 3, []⟩] }

theorem test_witness_CompletionsAndTraffic_lines :
    waitingPort.next? = some (asksFor 1 9) ∧ (asksFor 0 7).home = 0 ∧ (asksFor 0 7).src.die = 0 ∧ (asksFor 0 7).line = 7 ∧
    ({ asksFor 0 7 with src := .core 32 } : XReq).src.die ≠ (asksFor 0 7).home ∧
    fullColumn.power = .on ∧ fullColumn.replay = [] ∧ (∀ r ∈ fullColumn.held, r.port ∈ fullColumn.prio ∧ r.at' < 2) ∧
    (fullColumn.prio.headD 0) = (asksFor 1 9).port ∧ (asksFor 1 9).port ≠ (asksFor 0 7).port ∧
    ({ fullColumn with replay := [asksFor 0 7] } : Column).replay.find? (fun q => fullColumn.lines.contains q.line) = some (asksFor 0 7) ∧
    ({ fullColumn with power := .waking 4 } : Column).power = .waking 4 ∧
    carrying.ready? 0 = some ⟨.request (asksFor 0 7), []⟩ ∧ carrying.ready? 2 = some ⟨.steal 3, []⟩ ∧ carrying.ready? 3 = none := by decide

/-- Accesses from outside: the module runs, sleeps, or has not been started, and link 0 is up. -/
theorem test_witness_CompletionsAndTraffic_outside :
    let s : State := { State.reset with fwState := 1, linkUp := 1 }
    s.fwState = 1 ∧ s.pwrState = 0 ∧ ({ s with pwrState := 2 } : State).pwrState ≠ 0 ∧ State.reset.fwState ≠ 1 ∧ s.linkUp.getLsbD 0 = true ∧
    State.reset.linkUp.getLsbD 0 = false ∧ s.landing? 0 0 0 = none ∧
    ({ s with landings := [landing] } : State).landing? 0 0 ((BitVec.zeroExtend 32 s.khmod) <<< 16) = some landing := by decide

/-- A flipped L2 fill: the line is on its way, or it is not. -/
theorem test_witness_CompletionsAndTraffic_fill :
    let c : Column := { filling := [5] }
    5 ∈ c.filling ∧ 6 ∉ c.filling ∧ c.lines.length < 4096 ∧ c.power = .on ∧ c.held = [] ∧ c.idleAt + 64 ≤ 64 := by decide

def walkOf (va : Nat) : Walk := ⟨20, 0, 0, va, [⟨⟨1, 0, 0⟩, 0, 3, va, .load⟩], []⟩
def walking (va : Nat) (w : Warp) : State := { mapped {} w with walks := [walkOf va] }
def request (who : Requester) : PageReq := ⟨30, some 4, 0x10000, 65536, 0x10000, 1, 0, 0, 0, [who]⟩
def asking (who : Requester) : State := mapped { reqs := [request who] } warp

theorem test_witness_PageServiceAndErrors :
    (∀ va ∈ [0x10000, 2 ^ 40], (walking va warp).walks.find? (·.id == 20) = some (walkOf va) ∧ (walkOf va).cores = [0]) ∧
    (walking 0x10000 warp).walk ((walking 0x10000 warp).ctxOf 0).ptRoot 0x10000 = .page 0x3D (2 ^ 30) ∧
    (walking (2 ^ 40) warp).walk ((walking (2 ^ 40) warp).ctxOf 0).ptRoot (2 ^ 40) = .notPresent 1 ∧
    (st warp).walk 0x10003 0 = .bad ∧ (st warp).viewOf? ⟨1, 0, 0⟩ = some (view warp) ∧ (st warp).gang? 2 = some gang ∧
    (∀ who ∈ [Requester.split ⟨1, 0, 0⟩ 3 0x10000, .task 3 1 0 0x10000, .staging 3 0x10000, .copy 20 0x10000, .counter 0 1, .unit 8, .queue 0 8, .episode 5],
      (((asking who).ctxOf 0).reqs.find? fun r => r.seq == some 4) = some (request who) ∧ (request who).who = [who]) ∧
    ((mapped {} warp).ctxOf 0).tlbInv = none ∧ ((mapped { tlbInv := some ⟨0, 65536⟩ } warp).ctxOf 0).tlbInv = some ⟨0, 65536⟩ ∧
    (st warp).team? 1 = some (team warp) ∧
    (let s := { st warp with l1 := [(0, [(0x100, ⟨7, true, 1⟩), (0x300, ⟨7, false, 9⟩)])] }
     (∀ e ∈ s.l1Of 0, e.2.dirty = true → e.1 / 256 = 1 → e.2.owner = 1) ∧ ∃ e ∈ s.l1Of 0, e.2.dirty = true ∧ e.1 / 256 = 1) :=
  ⟨by decide, by decide, by decide, by decide, by decide, by decide, by decide, by decide, by decide, by decide, by decide⟩

def struck : Meeting := { meet true false 0 0 with senders := [(⟨1, 0, 0⟩, 0xFF), (⟨1, 0, 0⟩, 0xFF)] }

theorem test_witness_PageServiceAndErrors_meeting :
    (({ st warp with meetings := [struck] } : State).meetings.find? fun e => e.router == struck.router && e.ctx == struck.ctx &&
      e.tag == struck.tag && !e.spilled) = some struck ∧ ({ st warp with meetings := [struck] } : State).team? 1 = some (team warp) := by
  decide

/-- DBGPOS names the team of instance 1, warp 0, slice 0. -/
def debugged (halted : Bool) : State := { served { dbgPos := 0x100000000 } warp with teams := [{ team warp with halted }] }

theorem test_witness_DebuggerAndRegisters :
    (∀ b ∈ [true, false], ((debugged b).teams.find? fun t => t.ctx == 0 && t.inst == ((debugged b).ctxOf 0).dbgPos.extractLsb' 32 32) =
      some { team warp with halted := b } ∧ (debugged b).team? 1 = some { team warp with halted := b }) ∧
    ((st warp).teams.find? fun t => t.ctx == 0 && t.inst == ((st warp).ctxOf 0).dbgPos.extractLsb' 32 32) = none ∧
    ((debugged true).viewOf? ⟨1, 0, 0⟩).isSome = true ∧ (debugged true).gang? 2 = some gang ∧ gang.pending = false ∧ (team warp).warp? 0 = some warp ∧
    winPlace 0x5FFFF = .entry 1023 31 ∧ winPlace 0x61FFF = .slice 7 0x3FC ∧ winPlace 0x62000 = .outside ∧ (debugged false).named ∧ (st warp).samplesDue = [] ∧
    ({ served { dbgCtl := 0x1000000000 } warp with clock := 4096 } : State).samplesDue = [0] ∧
    (((served { dbgCtl := 0x1000000000 } warp).coreWarps 0).filter fun x => x.1.ctx == 0)[0]? = some (team warp, warp) ∧
    (let s := { served { rlBase := 0x1000, rlSize := 16 } warp with teams := [{ team warp with recorded := true, chunk := 65536 }] }
     s.team? 1 = some { team warp with recorded := true, chunk := 65536 } ∧ (s.ctxOf 0).rlSize ≠ 0 ∧ s.poison = [] ∧
     s.xlate 0 0 0x1000 .store = .ok 0x1000) :=
  ⟨by decide, by decide, by decide, by decide, by decide, by decide, by decide, by decide, by decide, ⟨by decide, by unfold Warp.partitioned; decide⟩,
    by decide, by decide, by decide, by decide⟩

theorem test_witness_FirmwarePowerAndThrottle :
    ({ State.reset with verifying := true } : State).verifying = true ∧ State.reset.fwm.busy = false ∧
    (∀ c ∈ [(1 : Byte), 2, 3], ({ State.reset with fwm := { cmd := c, busy := true }, fwState := 1 } : State).fwm.cmd = c) ∧
    (st warp).teams ≠ [] ∧ State.reset.teams = [] ∧ State.reset.tasks = [] ∧ State.reset.records = [] ∧ State.reset.episodes = [] ∧
    (∀ p ∈ State.reset.pairs, p.2.st = .free) ∧ (∀ x ∈ State.reset.ctxs, x.2.spHead = x.2.spTail) ∧ State.reset.pwrExit = none ∧
    ({ State.reset with pwrState := 1, pwrExit := some 10, tick := 10 } : State).pwrExit = some 10 ∧ 600 ≤ State.reset.clkMHz ∧
    State.reset.clkMHz ≤ 1200 ∧ State.reset.throttleAt ≤ State.reset.tick ∧ ({ State.reset with limits := 1 } : State).limits ≠ 0 := by decide

/-- The state after withFetchWord is about to fetch and issue its word (NOP). -/
def aboutTo : State := State.reset.withFetchWord 32 0x8C00000E

theorem test_witness_StepRunsTheDecodedInstruction :
    (∃ x rest, aboutTo.plan = .issue x :: rest ∧ (let u := { aboutTo with plan := rest, cur := x }
      (u.view?).any (fun v => v.goes && v.split.wait.mayIssue && !v.faultDue && !(u.ctxOf v.ctx).breaksAt v.pc &&
        u.fetch v.core v.ctx v.pc == .instr (.nop ⟨0, 0, 0, 7, 0⟩) && u.holdsBack? v (.nop ⟨0, 0, 0, 7, 0⟩) == none) = true)) ∧
    ({ aboutTo with plan := [.event .throttleStep] } : State).plan = .event .throttleStep :: [] ∧ State.reset.plan = [] ∧
    (let s := { st warp with mem := [(0, 0x0E), (3, 0x8C)] }
     s.xlate 0 0 0 .fetch = .ok 0 ∧ s.poisoned 0 4 = false ∧ twoWords (BitVec.ofNat 32 (natOfBytes (s.homeBytes 0 4))) = false ∧
     reads (BitVec.ofNat 32 (natOfBytes (s.homeBytes 0 4))) 0 (.nop ⟨0, 0, 0, 7, 0⟩) = true) := by
  refine ⟨⟨_, _, rfl, by decide⟩, rfl, rfl, by decide⟩

theorem test_witness_StepKeepsMemory : State.reset.memoryOk ∧ step State.reset = .next State.reset.beginClock :=
  ⟨State.reset_memoryOk, rfl⟩

theorem test_witness_DecodeEncodeAgree : (Instr.nop ⟨0, 0, 0, 7, 0⟩).wf = true ∧ (Instr.movImm ⟨255, 0, 7, 0, 0, 0xFFFFFFFF⟩).wf = true ∧
    reads 0x8C00000E 0 (.nop ⟨0, 0, 0, 7, 0⟩) = true := by decide

end Sys2Proof.Tests
end

section
/-!
SUPPORT. Numbers cut to a width, read as signed, and built bit by bit; what well-formedness says of the fields of a lane
instruction; lane instructions that write one number or one predicate (spec/11 R163, R168 to R172).
-/

namespace Sys2Proof.Machine

theorem wrapNat_lt (n : Nat) (x : Int) : wrapNat n x < 2 ^ n := by
  have hpos : (0 : Int) < (2 ^ n : Nat) := mod_cast Nat.two_pow_pos n
  have hlt := Int.emod_lt_of_pos x hpos
  have hge := Int.emod_nonneg x hpos.ne'
  unfold wrapNat
  omega

/-- The signed reading is that of a bit vector, so the library's facts about BitVec.toInt apply. -/
theorem signedOf_eq_toInt (n x : Nat) : signedOf n x = (BitVec.ofNat n x).toInt := by
  rw [BitVec.toInt_eq_toNat_cond, BitVec.toNat_ofNat, signedOf]
  cases n with
  | zero => simp [Nat.mod_one]
  | succ n =>
    have hhalf : x % 2 ^ (n + 1) < 2 ^ n ↔ 2 * (x % 2 ^ (n + 1)) < 2 ^ (n + 1) := by rw [Nat.pow_succ]; omega
    simp only [Nat.add_sub_cancel, hhalf]

theorem signedOf_bounds (n x : Nat) : -(2 ^ n : Int) ≤ signedOf n x ∧ signedOf n x < 2 ^ n := by
  have hmod : ((x % 2 ^ n : Nat) : Int) < 2 ^ n := mod_cast Nat.mod_lt x (Nat.two_pow_pos n)
  unfold signedOf
  push_cast at hmod ⊢
  have hnn : (0 : Int) ≤ x % 2 ^ n := Int.emod_nonneg _ (by positivity)
  split <;> constructor <;> omega

/-- Shifting a w-bit signed value right by w places or more leaves copies of its sign alone. -/
theorem signedOf_div_two_pow_min (w x n : Nat) : signedOf w x / (2 ^ min n w : Nat) = signedOf w x / 2 ^ n := by
  obtain hn | hn := Nat.le_total n w
  · rw [Nat.min_eq_left hn]; push_cast; rfl
  · obtain ⟨hlo, hhi⟩ := signedOf_bounds w x
    have hp : (2 : Int) ^ w ≤ 2 ^ n := pow_le_pow_right₀ (by norm_num) hn
    rw [Nat.min_eq_right hn]
    push_cast
    obtain hx | hx := Int.lt_or_le (signedOf w x) 0
    · rw [Int.ediv_eq_neg_one_of_neg_of_le hx (by omega), Int.ediv_eq_neg_one_of_neg_of_le hx (by omega)]
    · rw [Int.ediv_eq_zero_of_lt hx (by omega), Int.ediv_eq_zero_of_lt hx (by omega)]

/-- Sign extension from n to w bits, bit by bit. -/
theorem testBit_wrapNat_signedOf {n w x k : Nat} (hk : k < w) :
    (wrapNat w (signedOf n x)).testBit k = if k < n then x.testBit k else decide (0 < n) && x.testBit (n - 1) := by
  have hext : wrapNat w (signedOf n x) = ((BitVec.ofNat n x).signExtend w).toNat := by
    rw [BitVec.signExtend, BitVec.toNat_ofInt, signedOf_eq_toInt, wrapNat]
  rw [hext, BitVec.testBit_toNat, BitVec.getLsbD_signExtend, BitVec.msb_eq_getLsbD_last, BitVec.getLsbD_ofNat,
    BitVec.getLsbD_ofNat]
  by_cases hn : k < n <;> simp [hk, hn]

/-! ## Numbers from bits -/

theorem bitsFrom_succ (n : Nat) (f : Nat → Bool) : bitsFrom (n + 1) f = 2 ^ n * (f n).toNat + bitsFrom n f := by
  rw [bitsFrom, List.range_succ, List.foldl_append, ← bitsFrom]
  cases hf : f n <;> simp [hf, Nat.add_comm]

theorem bitsFrom_lt (n : Nat) (f : Nat → Bool) : bitsFrom n f < 2 ^ n := by
  induction n with
  | zero => simp [bitsFrom]
  | succ n ih =>
    rw [bitsFrom_succ, Nat.pow_succ]
    cases f n <;> simp <;> omega

theorem testBit_bitsFrom (n : Nat) (f : Nat → Bool) (j : Nat) : (bitsFrom n f).testBit j = (decide (j < n) && f j) := by
  induction n with
  | zero => simp [bitsFrom]
  | succ n ih =>
    rw [bitsFrom_succ, Nat.testBit_two_pow_mul_add _ (bitsFrom_lt n f), ih, Nat.testBit_bool_toNat]
    obtain hj | rfl | hj := Nat.lt_trichotomy j n
    · simp [hj, Nat.lt_succ_of_lt hj]
    · simp
    · simp [show ¬j < n by omega, show ¬j < n + 1 by omega, show j - n ≠ 0 by omega]

/-! ## Elements and fields -/

/-- An element of a register has as many bits as its width says. -/
theorem View.elem_lt (v : View) (w : BitVec 2) (r : BitVec 8) (l j : Nat) : v.elem w r l j < 2 ^ elemBits w := by
  unfold View.elem
  split
  · next hw => subst hw; exact (v.vec64 r l).isLt
  · exact Nat.mod_lt _ (Nat.two_pow_pos _)

theorem Instr.wf1_of_wf {i : Instr} (h : i.wf = true) : i.wf1 = true := (Bool.and_eq_true_iff.mp h).2

/-- The bits of M that a row of the opcode table does not list are zero (spec/11 R163). -/
theorem LR.getLsbD_of_mOnly {f : LR} {mask : BitVec 8} (h : f.mOnly mask = true) {n : Nat} (hn : n < 6)
    (hm : mask.getLsbD n = false) : f.m.getLsbD n = false := by
  have hand : f.m &&& 0x3F#8 &&& ~~~mask = 0 := by simpa [LR.mOnly] using h
  have hbit := congrArg (BitVec.getLsbD · n) hand
  have h3f : (0x3F#8).getLsbD n = true := by interval_cases n <;> rfl
  simpa only [BitVec.getLsbD_and, BitVec.getLsbD_not, hm, h3f, show n < 8 by omega, decide_true, Bool.not_false,
    Bool.and_true, BitVec.ofNat_eq_ofNat, BitVec.getLsbD_zero] using hbit

/-- Under W = 00 or 10 the one element of a lane fills the register or the pair. -/
theorem LR.elemBits_of_f0 {f : LR} (h : f.f0 [0, 2] = true) : elemBits f.w = if f.w = 2 then 64 else 32 := by
  have hw : f.w = 0 ∨ f.w = 2 := by simpa [LR.wIn] using (Bool.and_eq_true_iff.mp h).2
  obtain hw | hw := hw <;> rw [hw] <;> rfl

/-- A predicate field whose bits [7:3] are zero names the predicate of its value. -/
theorem toNat_of_predField {x : BitVec 8} (h : predField x = true) : (x.extractLsb' 0 3).toNat = x.toNat := by
  have hhi : (x.extractLsb' 3 5).toNat = 0 := by
    rw [eq_of_beq (show (x.extractLsb' 3 5 == 0) = true from h)]; rfl
  rw [BitVec.extractLsb'_toNat, Nat.shiftRight_eq_div_pow] at hhi ⊢
  have := x.isLt
  omega

/-! ## One number or one predicate in each lane -/

/-- A lane instruction that writes one number x of the operand width, and nothing else, whose numbers meet P. -/
theorem State.laneOp_lanewise {s : State} {v : View} {i : Instr} {f : LR} {len : Nat} {g : View → Nat → LaneOut}
    {P : Nat → Nat → Prop} (x : Nat → Nat) (h : s.Issues v i) (hw : f.f0 [0, 2] = true)
    (he : exec i s = s.laneOp i f.g f.gn len g) (hx : ∀ l, g v l = { vs := writesOf f.w f.vd (x l) })
    (hlt : ∀ l, x l < 2 ^ elemBits f.w) (hP : ∀ l, P l (x l)) : s.Lanewise v i f.g f.gn f.w f.vd len P := by
  obtain ⟨t, hexec, hret⟩ := State.laneOp_lanes (g := f.g) (gn := f.gn) (len := len) (f := g) x h
    (fun l => by rw [hx]; exact ⟨rfl, rfl⟩) (outFlags_zero fun l _ => by rw [hx]) (trapOf_zero _)
  exact ⟨x, fun l _ => ⟨LR.elemBits_of_f0 hw ▸ hlt l, hP l⟩, t, he.trans hexec, hret⟩

/-- A lane instruction that writes one predicate and nothing else. -/
theorem State.laneOp_predicate {s : State} {v : View} {i : Instr} {g : BitVec 3} {gn : BitVec 1} {len n : Nat}
    {o : View → Nat → LaneOut} (x : Nat → Bool) (h : s.Issues v i) (he : exec i s = s.laneOp i g gn len o)
    (hx : ∀ l, o v l = { ps := [(n, x l)] }) : s.Computes i v len (Writes.preds (v.takesPart g gn) n x 0) := by
  obtain ⟨t, hexec, hret⟩ := State.laneOp_preds (g := g) (gn := gn) (len := len) (f := o) x h
    (fun l => by rw [hx]; exact ⟨rfl, rfl⟩) (outFlags_zero fun l _ => by rw [hx]) (trapOf_zero _)
  exact ⟨t, he.trans hexec, hret⟩

/-! ## The two forms of a unary instruction (spec/09 R133) -/

/-- What an LR instruction's lanes do, its LU form does with the fields that it stands for. -/
theorem unaryForms.exec_eq {lr : LR → Instr} {lu : LU → Instr} {i : Instr} {f : LR} {len : Nat} {s : State}
    {g : LR → View → Nat → LaneOut} (h : unaryForms lr lu i f len) (hlr : ∀ f, exec (lr f) s = s.lrOp (lr f) f (g f))
    (hlu : ∀ u, exec (lu u) s = s.luOp (lu u) (g (LU.asLR u))) : exec i s = s.laneOp i f.g f.gn len (g f) := by
  obtain ⟨rfl, rfl⟩ | ⟨u, rfl, rfl, rfl⟩ := h
  · exact hlr f
  · exact hlu u

/-- What well-formedness says of the fields of the LR form, and the LU form's fields meet, holds of both. -/
theorem unaryForms.fields {lr : LR → Instr} {lu : LU → Instr} {i : Instr} {f : LR} {len : Nat} {Q : LR → Prop}
    (h : unaryForms lr lu i f len) (hi : i.wf = true) (hlr : ∀ f, (lr f).wf = true → Q f)
    (hlu : ∀ u, Q (LU.asLR u)) : Q f := by
  obtain ⟨rfl, -⟩ | ⟨u, -, rfl, -⟩ := h
  · exact hlr f hi
  · exact hlu u

end Sys2Proof.Machine
end

section
/-!
SUPPORT. Integer arithmetic of elements, for any of the operations (spec/11 R168).
-/

namespace Sys2Proof.Machine

/-! ## Narrowing -/

theorem intMin_eq_elemMin (uns : Bool) (w : Nat) : intMin (w, !uns) = elemMin uns w := by
  cases uns <;> rfl

theorem intMax_eq_elemMax (uns : Bool) (w : Nat) : intMax (w, !uns) = elemMax uns w := by
  cases uns <;> rfl

theorem elemMin_le_elemMax (uns : Bool) (w : Nat) : elemMin uns w ≤ elemMax uns w := by
  have h1 := Nat.two_pow_pos w
  have h2 := Nat.two_pow_pos (w - 1)
  cases uns <;> simp only [elemMin, elemMax, if_true, Bool.false_eq_true, if_false] <;> omega

/-- Saturation takes the nearest value of the element, and raises SAT just when the exact result is none. -/
theorem narrowInt_narrows (sat uns : Bool) (w : Nat) (x : Int) :
    (narrowInt sat uns w x).1 = narrowed sat uns w x ∧
      Raises (narrowInt sat uns w x).2 flagSAT (sat = true ∧ outside uns w x) := by
  have hle := elemMin_le_elemMax uns w
  simp only [narrowInt, narrowed, outside, Raises, intMin_eq_elemMin, intMax_eq_elemMax]
  cases sat with
  | false => simp
  | true =>
    obtain hx | hx := Int.lt_or_le (elemMax uns w) x
    · simp [hx, hx.le, hle]
    · obtain hy | hy := Int.lt_or_le x (elemMin uns w)
      · simp [hx, hx.not_gt, hy, hy.le]
      · simp [hx, hx.not_gt, hy, hy.not_gt]

/-! ## One element -/

/-- The exact integer of element j of lane l. -/
def intExact (op : IntOp) (f : LR) (v : View) (l j : Nat) : Int :=
  let w := elemBits f.w
  op.eval (intVal f.uns w (v.elem f.w f.va l j)) (intVal f.uns w (v.elemB f l j)) (intVal f.uns w (v.elem f.w f.vc l j))

/-- What intLane makes of element j of lane l: its number and its flags. -/
def intElem (op : IntOp) (f : LR) (v : View) (l j : Nat) : Nat × Word :=
  if op = .mul && f.hi then (wrapNat 32 (intExact op f v l j / (2 ^ 32 : Nat)), 0)
  else narrowInt f.sat f.uns (elemBits f.w) (intExact op f v l j)

/-- An operation looks only at the operands it has, so intLane may read the others as 0. -/
theorem IntOp.eval_used (op : IntOp) (a b c : Int) :
    op.eval a (if op = .abs then 0 else b) (if op = .mad then c else 0) = op.eval a b c := by
  cases op <;> rfl

theorem intLane_eq (op : IntOp) (f : LR) (v : View) (l : Nat) :
    intLane op f v l =
      { vs := writesOf f.w f.vd (packElems (elemBits f.w) ((List.range (elemCount f.w)).map fun j => (intElem op f v l j).1))
        flags := (List.range (elemCount f.w)).foldl (fun g j => g ||| (intElem op f v l j).2) 0 } := by
  simp only [intLane, IntOp.eval_used, List.map_map, List.foldl_map]
  rfl

/-- IntOp.abs is the absolute value. -/
theorem IntOp.eval_abs (a b c : Int) : IntOp.abs.eval a b c = (a.natAbs : Int) := by
  simp only [IntOp.eval]
  split <;> omega

/-! ## All elements of all participating lanes -/

section
variable {s : State} {v : View} {i : Instr} {f : LR} {len : Nat} {op : IntOp}

/-- An integer instruction writes the number of each element, if the flags of its elements trap nothing. -/
theorem State.intOp_elementwise {flags : Word} {res : Nat → Nat → Nat} (h : s.Issues v i)
    (he : exec i s = s.laneOp i f.g f.gn len (intLane op f))
    (hr : ∀ l j, (intElem op f v l j).1 % 2 ^ elemBits f.w = res l j)
    (hf : outFlags ((v.part f.g f.gn).map fun l => (l, intLane op f v l)) = flags)
    (ht : trapOf v.team.fctl flags = none) : s.Elementwise v i f len res flags :=
  State.laneOp_elements (fun l => (List.range (elemCount f.w)).map fun j => (intElem op f v l j).1) res h
    (fun l => by rw [intLane_eq]; exact ⟨rfl, rfl⟩) (fun l => by simp)
    (fun l j hj _ => by simpa using hr l j) hf ht he

/-- Without HI every element is narrowed, and SAT is raised when some element of some lane saturates. -/
theorem State.intOp_narrows (h : s.Issues v i) (he : exec i s = s.laneOp i f.g f.gn len (intLane op f))
    (hlow : (op = .mul && f.hi) = false) :
    ∃ flags, Raises flags flagSAT (f.sat = true ∧ ∃ l j, v.takesPart f.g f.gn l = true ∧ j < elemCount f.w ∧
        outside f.uns (elemBits f.w) (intExact op f v l j)) ∧
      s.Elementwise v i f len (fun l j => narrowed f.sat f.uns (elemBits f.w) (intExact op f v l j)) flags := by
  have helem : ∀ l j, intElem op f v l j = narrowInt f.sat f.uns (elemBits f.w) (intExact op f v l j) := fun l j => by
    rw [intElem, hlow]; rfl
  have hlane : ∀ l, Raises (intLane op f v l).flags flagSAT
      (∃ j ∈ List.range (elemCount f.w), f.sat = true ∧ outside f.uns (elemBits f.w) (intExact op f v l j)) := fun l => by
    rw [intLane_eq]
    exact raises_fold _ _ _ _ fun j _ => helem l j ▸ (narrowInt_narrows _ _ _ _).2
  have hall := raises_outFlags v f.g f.gn (intLane op f v) flagSAT _ fun l _ => hlane l
  refine ⟨_, ?_, State.intOp_elementwise h he (fun l j => ?_) rfl (trapOf_raises hall (by decide))⟩
  · convert hall using 1
    simp only [List.mem_range]
    exact ⟨fun ⟨hs, l, j, hl, hj, ho⟩ => ⟨l, hl, j, hj, hs, ho⟩, fun ⟨l, hl, j, hj, hs, ho⟩ => ⟨hs, l, j, hl, hj, ho⟩⟩
  · rw [helem, (narrowInt_narrows _ _ _ _).1]
    exact Nat.mod_eq_of_lt (wrapNat_lt _ _)

/-- IABS has no unsigned form (spec/11 R168). -/
theorem LR.uns_of_iabs {f : LR} (h : (Instr.iabs f).wf = true) : f.uns = false := by
  have hwf : (f.bNone && f.vc == 0 && f.mOnly 0x04 && f.s == 0) = true := Instr.wf1_of_wf h
  simp only [Bool.and_eq_true] at hwf
  obtain ⟨⟨-, hm⟩, -⟩ := hwf
  exact LR.getLsbD_of_mOnly hm (by decide : 0 < 6) (by decide)

/-- HI selects the upper half of the 64-bit product, which saturates nothing. -/
theorem State.imul_high (h : s.Issues v (.imul f)) (hhi : f.hi = true) :
    f.w = 0 ∧ s.Elementwise v (.imul f) f 8 (fun l j => wrapNat 32 (intExact .mul f v l j / 2 ^ 32)) 0 := by
  have hw : f.w = 0 := by
    have hwf : (f.bAny && f.vc == 0 && f.mOnly 0x03 && (!f.hi || f.w == 0) && f.s == 0) = true := Instr.wf1_of_wf h.2.2
    simp only [hhi, Bool.and_eq_true, Bool.not_true, Bool.false_or, beq_iff_eq] at hwf
    obtain ⟨⟨-, hw⟩, -⟩ := hwf
    exact hw
  have helem : ∀ l j, intElem .mul f v l j = (wrapNat 32 (intExact .mul f v l j / 2 ^ 32), 0) := fun l j => by
    simp [intElem, hhi]
  have hflags : ∀ l, (intLane .mul f v l).flags = 0 := fun l => by
    rw [intLane_eq]
    simp [helem]
  refine ⟨hw, State.intOp_elementwise h rfl (fun l j => ?_) (outFlags_zero fun l _ => hflags l) (trapOf_zero _)⟩
  rw [helem, hw]
  exact Nat.mod_eq_of_lt (wrapNat_lt 32 _)

/-- The clause of R168 for one binary or ternary instruction: f is its LR fields, op its operation. -/
theorem State.intOp_clause (h : s.Issues v i) (he : exec i s = s.lrOp i f (intLane op f))
    (hmul : i = .imul f ↔ op = .mul) :
    let w := elemBits f.w
    let x := intExact op f v
    let high := i = .imul f ∧ f.hi = true
    ∃ flags, Raises flags flagSAT (f.sat = true ∧ ¬high ∧
        ∃ l j, v.takesPart f.g f.gn l = true ∧ j < elemCount f.w ∧ outside f.uns w (x l j)) ∧
      (¬high → s.Elementwise v i f 8 (fun l j => narrowed f.sat f.uns w (x l j)) flags) ∧
      (high → f.w = 0 ∧ s.Elementwise v i f 8 (fun l j => wrapNat 32 (x l j / 2 ^ 32)) flags) := by
  intro w x high
  by_cases hh : high
  · obtain ⟨rfl, hhi⟩ := hh
    obtain rfl := hmul.mp rfl
    exact ⟨0, .inr ⟨fun hp => hp.2.1 ⟨rfl, hhi⟩, rfl⟩, fun hn => absurd ⟨rfl, hhi⟩ hn, fun _ => State.imul_high h hhi⟩
  · have hlow : (op = .mul && f.hi) = false := by
      rw [← Bool.not_eq_true, Bool.and_eq_true, decide_eq_true_eq, ← hmul]; exact hh
    obtain ⟨flags, hr, hx⟩ := State.intOp_narrows h he hlow
    refine ⟨flags, ?_, fun _ => hx, fun hc => absurd hc hh⟩
    simpa only [hh, not_false_eq_true, true_and] using hr

end

/-- Settles O1: each instruction is intLane of its operation, whose elements State.intOp_clause gives. -/
theorem integerArithmeticByElement : Obligations.IntegerArithmeticByElement := by
  intro s v f
  refine ⟨?_, fun i g len hform h => ?_⟩
  · refine List.forall_mem_cons.2 ⟨fun h => State.intOp_clause (op := .add) h rfl (by simp), ?_⟩
    refine List.forall_mem_cons.2 ⟨fun h => State.intOp_clause (op := .sub) h rfl (by simp), ?_⟩
    refine List.forall_mem_cons.2 ⟨fun h => State.intOp_clause (op := .mul) h rfl (by simp), ?_⟩
    refine List.forall_mem_cons.2 ⟨fun h => State.intOp_clause (op := .mad) h rfl (by simp), ?_⟩
    refine List.forall_mem_cons.2 ⟨fun h => State.intOp_clause (op := .min) h rfl (by simp), ?_⟩
    exact List.forall_mem_singleton.2 fun h => State.intOp_clause (op := .max) h rfl (by simp)
  · have huns : g.uns = false := hform.fields (Q := fun f => f.uns = false) h.2.2 (fun _ => LR.uns_of_iabs)
      fun _ => BitVec.getLsbD_zero
    have := State.intOp_narrows h (hform.exec_eq (g := intLane .abs) (fun _ => rfl) fun _ => rfl) rfl
    simpa only [intExact, IntOp.eval_abs, huns, intVal, Bool.false_eq_true, if_false] using this

end Sys2Proof.Machine
end

section
/-!
SUPPORT. Shifts of elements and truth tables (spec/11 R169, R170, R206).
-/

namespace Sys2Proof.Machine

theorem ShiftOp.eval_lt (op : ShiftOp) (w a n : Nat) : op.eval w a n < 2 ^ w := by
  have hpos := Nat.two_pow_pos w
  cases op with
  | shl =>
    simp only [ShiftOp.eval]
    split
    · exact Nat.mod_lt _ hpos
    · exact hpos
  | shr =>
    simp only [ShiftOp.eval]
    split
    · exact (Nat.div_le_self _ _).trans_lt (Nat.mod_lt _ hpos)
    · exact hpos
  | sar => exact wrapNat_lt _ _

/-- A shift writes each element of a, shifted by the low 8 bits of that element of b. -/
theorem State.shift_elementwise {s : State} {v : View} {i : Instr} {f : LR} {op : ShiftOp} (h : s.Issues v i)
    (he : exec i s = s.lrOp i f (shiftLane op f)) :
    s.Elementwise v i f 8 (fun l j => op.eval (elemBits f.w) (v.elem f.w f.va l j) (v.elemB f l j % 256)) 0 :=
  State.laneOp_elements
    (fun l => (List.range (elemCount f.w)).map fun j => op.eval (elemBits f.w) (v.elem f.w f.va l j) (v.elemB f l j % 256))
    _ h (fun _ => ⟨rfl, rfl⟩) (fun l => by simp)
    (fun l j hj _ => by simpa using Nat.mod_eq_of_lt (ShiftOp.eval_lt op _ _ _))
    (outFlags_zero fun _ _ => rfl) (trapOf_zero _) he

/-- Settles O2: the shifts element by element, BLUT and PLOP by the table bit that their operands select. -/
theorem shiftsAndTruthTables : Obligations.ShiftsAndTruthTables := by
  refine ⟨fun s v f => ⟨fun h => State.shift_elementwise (op := .shl) h rfl, fun h => ?_, fun h => ?_⟩,
    fun s v f => ⟨fun h => ?_, fun h => ?_⟩⟩
  · have := State.shift_elementwise (op := .shr) h rfl
    simpa only [ShiftOp.eval, Nat.mod_eq_of_lt (View.elem_lt ..)] using this
  · have := State.shift_elementwise (op := .sar) h rfl
    simpa only [ShiftOp.eval, signedOf_div_two_pow_min] using this
  · refine State.laneOp_lanewise _ h (Instr.wf0_of_wf h.2.2) rfl (fun _ => rfl) (fun _ => bitsFrom_lt _ _) fun l j hj => ?_
    rw [testBit_bitsFrom, decide_eq_true hj, Bool.true_and]
    rfl
  · have h0 : (f.f0 [0] && predField f.vd && predField f.va) = true := Instr.wf0_of_wf h.2.2
    have h1 : (predField f.vb && predField f.vc && f.m == 0) = true := Instr.wf1_of_wf h.2.2
    simp only [Bool.and_eq_true] at h0 h1
    obtain ⟨⟨-, hvd⟩, hva⟩ := h0
    obtain ⟨⟨hvb, hvc⟩, -⟩ := h1
    refine State.laneOp_predicate _ h rfl fun l => ?_
    simp only [View.pOf, toNat_of_predField hvd, toNat_of_predField hva, toNat_of_predField hvb, toNat_of_predField hvc]
    rfl

end Sys2Proof.Machine
end

section
/-!
SUPPORT. Counts, reversal and fields of a number of w bits (spec/11 R171, R172).
-/

namespace Sys2Proof.Machine

theorem popCount_eq_countP (w a : Nat) : popCount w a = (List.range w).countP fun j => a.testBit j :=
  (List.countP_eq_length_filter ..).symm

theorem popCount_le (w a : Nat) : popCount w a ≤ w := by
  simpa [popCount] using List.length_filter_le (fun j => a.testBit j) (List.range w)

/-- CLZ places the most significant one bit: a is below the power of two above it, and not below its own. -/
theorem leadingZeros_spec {w a : Nat} (ha : a < 2 ^ w) :
    leadingZeros w a ≤ w ∧ a < 2 ^ (w - leadingZeros w a) ∧
      (leadingZeros w a < w → 2 ^ (w - leadingZeros w a - 1) ≤ a) := by
  unfold leadingZeros
  rw [Nat.mod_eq_of_lt ha]
  split
  · next h0 => subst h0; simp
  · next h0 =>
    have hlog : a.log2 < w := (Nat.log2_lt h0).mpr ha
    rw [show w - (w - 1 - a.log2) = a.log2 + 1 by omega]
    exact ⟨by omega, Nat.lt_log2_self, fun _ => Nat.log2_self_le h0⟩

theorem BitOp.eval_lt (op : BitOp) {w a : Nat} (ha : a < 2 ^ w) : op.eval w a < 2 ^ w := by
  cases op with
  | popc => exact (popCount_le w a).trans_lt Nat.lt_two_pow_self
  | clz => exact (leadingZeros_spec ha).1.trans_lt Nat.lt_two_pow_self
  | brev => exact bitsFrom_lt _ _

theorem testBit_bitReverse {w a j : Nat} (hj : j < w) : (bitReverse w a).testBit (w - 1 - j) = a.testBit j := by
  rw [bitReverse, testBit_bitsFrom, show w - 1 - (w - 1 - j) = j by omega, decide_eq_true (by omega : w - 1 - j < w),
    Bool.true_and]

theorem bfe_lt (w a pos len : Nat) (uns : Bool) : bfe w a pos len uns < 2 ^ w := by
  simp only [bfe]
  split
  · exact Nat.two_pow_pos w
  · cases uns with
    | true => exact (bitsFrom_lt _ _).trans_le (Nat.pow_le_pow_right (by decide) (Nat.min_le_right _ _))
    | false => exact wrapNat_lt _ _

/-- Bit k of the field that BFE reads, before it is extended: beyond the element it is zero or the sign (spec/11 R172). -/
def fieldBit (w a pos : Nat) (uns : Bool) (k : Nat) : Bool :=
  if pos + k < w then a.testBit (pos + k) else !uns && a.testBit (w - 1)

theorem testBit_bfe {w a pos len k : Nat} {uns : Bool} (hk : k < w) :
    (bfe w a pos len uns).testBit k =
      if min len w = 0 then false
      else if k < min len w then fieldBit w a pos uns k else !uns && fieldBit w a pos uns (min len w - 1) := by
  simp only [bfe, ← fieldBit.eq_def w a pos uns]
  split
  · simp
  · next h0 =>
    cases uns with
    | true => simp [testBit_bitsFrom]
    | false =>
      have hlast : min len w - 1 < min len w := by omega
      simp only [Bool.false_eq_true, if_false, testBit_wrapNat_signedOf hk, testBit_bitsFrom, hlast,
        Nat.pos_of_ne_zero h0, decide_true, Bool.true_and, Bool.not_false]
      split <;> simp [*]

theorem testBit_bfi {w a c pos len k : Nat} (hk : k < w) :
    (bfi w a c pos len).testBit k =
      if pos ≤ k ∧ k < pos + min len w then a.testBit (k - pos) else c.testBit k := by
  simp [bfi, testBit_bitsFrom, hk]

/-- POPC, CLZ and BREV, in the LR form and the LU form. -/
theorem State.bitOp_lanewise {s : State} {v : View} {f : LR} {i : Instr} {len : Nat} {op : BitOp} {lr : LR → Instr}
    {lu : LU → Instr} {P : Nat → Nat → Prop} (hform : unaryForms lr lu i f len) (h : s.Issues v i)
    (hwf : ∀ f, (lr f).wf = true → f.f0 [0, 2] = true) (hlr : ∀ f, exec (lr f) s = s.lrOp (lr f) f (bitLane op f))
    (hlu : ∀ u, exec (lu u) s = s.luOp (lu u) (bitLane op (LU.asLR u)))
    (hP : ∀ l, P l (op.eval (elemBits f.w) (v.elem f.w f.va l 0))) : s.Lanewise v i f.g f.gn f.w f.vd len P :=
  State.laneOp_lanewise (fun l => op.eval (elemBits f.w) (v.elem f.w f.va l 0)) h
    (hform.fields (Q := fun f => f.f0 [0, 2] = true) h.2.2 hwf fun _ => rfl) (hform.exec_eq hlr hlu) (fun _ => rfl)
    (fun _ => BitOp.eval_lt op (View.elem_lt ..)) hP

/-- Settles O3: each instruction writes the number that the model computes, read bit by bit or by its bounds. -/
theorem bitCountsAndFields : Obligations.BitCountsAndFields := by
  refine ⟨fun s v f i len h => ⟨fun hform => ?_, fun hform => ?_, fun hform => ?_⟩,
    fun s v f => ⟨fun h => ?_, fun h => ?_⟩⟩
  · exact State.bitOp_lanewise (op := .popc) hform h (fun _ => Instr.wf0_of_wf) (fun _ => rfl) (fun _ => rfl)
      fun l => popCount_eq_countP _ _
  · exact State.bitOp_lanewise (op := .clz) hform h (fun _ => Instr.wf0_of_wf) (fun _ => rfl) (fun _ => rfl)
      fun l => leadingZeros_spec (View.elem_lt ..)
  · exact State.bitOp_lanewise (op := .brev) hform h (fun _ => Instr.wf0_of_wf) (fun _ => rfl) (fun _ => rfl)
      fun l j hj => testBit_bitReverse hj
  · exact State.laneOp_lanewise _ h (Instr.wf0_of_wf h.2.2) rfl (fun _ => rfl) (fun _ => bfe_lt _ _ _ _ _)
      fun l k hk => testBit_bfe hk
  · exact State.laneOp_lanewise _ h (Instr.wf0_of_wf h.2.2) rfl (fun _ => rfl) (fun _ => bitsFrom_lt _ _)
      fun l k hk => testBit_bfi hk

end Sys2Proof.Machine
end

section
/-!
SUPPORT. Guarded uniform instructions (spec/13 R210, R211): what a false guard leaves, and how a true one goes on.
-/

namespace Sys2Proof.Machine

/-! ## Writes of a uniform result, by its shape -/

theorem Writes.ofUni_register (mask : BitVec 8) (n : Nat) (x : Word) :
    Writes.ofUni mask { ss := [(n, x)] } = Writes.uniform mask n x 0 := by
  simp only [Writes.ofUni, Writes.uniform, lastOf_one, lastOf_nil, ite_self, ← ite_and, @eq_comm _ n]

theorem Writes.ofUni_predicate (mask : BitVec 8) (n : Nat) (x : Bool) :
    Writes.ofUni mask { qs := [(n, x)] } = Writes.flag mask n x 0 := by
  simp only [Writes.ofUni, Writes.flag, lastOf_one, lastOf_nil, ite_self, ← ite_and, @eq_comm _ n]

/-- The two halves of a pair go to different registers, so the order of their writes does not show. -/
theorem Writes.ofUni_pair (mask : BitVec 8) (n : Nat) (lo hi : Word) :
    Writes.ofUni mask { ss := [(n, lo), (n + 1, hi)] } =
      (Writes.uniform mask n lo 0).both (Writes.uniform mask (n + 1) hi 0) := by
  have hs : ∀ k r, (if mask.getLsbD k = true then lastOf [(n, lo), (n + 1, hi)] r else none) =
      (if mask.getLsbD k = true ∧ r = n then some lo else none).or
        (if mask.getLsbD k = true ∧ r = n + 1 then some hi else none) := fun k r => by
    by_cases hk : mask.getLsbD k = true
    · simp only [hk, true_and, if_true, lastOf_cons, lastOf_nil, Option.none_or]
      obtain rfl | hr := eq_or_ne r n
      · simp
      · simp [hr, hr.symm, @eq_comm _ r]
    · simp [hk]
  simp only [Writes.ofUni, Writes.both, Writes.uniform, hs, lastOf_nil, ite_self, Option.or_none]
  rfl

/-! ## The guard -/

section
variable {s : State} {v : View} {i : Instr} {q : BitVec 3} {n : BitVec 1} {len : Nat} {yes : View → Except Trap State}

/-- A false guard only goes on. -/
theorem State.guarded_skips (he : exec i s = s.run i fun v => if v.qGuard q n then yes v else .ok (s.skip v len))
    (h : s.Issues v i) (hq : v.qGuard q n = false) : s.Computes i v len {} :=
  ⟨_, he.trans (State.run_ok h.1 h.2.1 (if_neg (Bool.eq_false_iff.mp hq))),
    State.retire_retires (wr := {}) len h.1 (Warp.Wrote.refl _)⟩

/-- A true guard under which warp w retires goes on as its writes over warp b say. -/
theorem State.guarded_goes {w b : Warp} {wr : Writes} {next : Nat → Addr}
    (he : exec i s = s.run i fun v => if v.qGuard q n then yes v else .ok (s.skip v len))
    (h : s.Issues v i) (hq : v.qGuard q n = true) (hy : yes v = .ok (s.retireTo v w wr.flags next))
    (hn : b.num = v.warp.num) (hw : w.Wrote b wr) : s.Goes i s v b wr next :=
  ⟨_, he.trans (State.run_ok h.1 h.2.1 ((if_pos hq).trans hy)),
    State.retireTo_retires (State.view_team h.1) (State.view_warp h.1) hn hw⟩

/-- A true guard under which the instruction cannot complete takes its fault. -/
theorem State.guarded_traps {t : Trap} (he : exec i s = s.run i fun v => if v.qGuard q n then yes v else .ok (s.skip v len))
    (h : s.Issues v i) (hq : v.qGuard q n = true) (hy : yes v = .error t) : exec i s = .next (s.takeFault v t v.pc) :=
  he.trans (State.run_trap h.1 h.2.1 ((if_pos hq).trans hy))

/-- A uniform instruction under a true guard writes its result, unless the flags of the result trap. -/
theorem State.uniOp_computesOrTraps {g : View → Except Trap UOut} {o : UOut} (he : exec i s = s.uniOp i q n len g)
    (h : s.Issues v i) (hq : v.qGuard q n = true) (hg : g v = .ok o) :
    s.ComputesOrTraps i v len (Writes.ofUni v.split.mask o) := by
  have hcommit : (g v).bind (s.commitUni v len) = s.commitUni v len o := by rw [hg]; rfl
  refine ⟨fun ht => ?_, fun t ht => State.guarded_traps he h hq (hcommit.trans ?_)⟩
  · obtain ⟨t, hexec, hret⟩ := State.uniOp_retires (wr := Writes.ofUni v.split.mask o) (len := len) h hq hg ht rfl rfl
      (fun _ _ => rfl) (fun _ _ => rfl) rfl
    exact ⟨t, he.trans hexec, hret⟩
  · rw [State.commitUni, show trapOf v.team.fctl o.flags = some t from ht]

end

/-! ## The register form and the immediate form -/

section
variable {s : State} {v : View} {ur : UR → Instr} {ui : UI → Instr}

/-- A scalar instruction whose results are `out`. -/
theorem State.scalarWrites_of_out {out : View → BitVec 6 → BitVec 6 → Word → UOut}
    {wr : BitVec 6 → BitVec 6 → Word → Writes}
    (hur : ∀ f, exec (ur f) s = s.uniOp (ur f) f.q f.n 4 fun v => .ok (out v f.d f.a (v.s f.b.toNat)))
    (hui : ∀ f, exec (ui f) s = s.uniOp (ui f) f.q f.n 8 fun v => .ok (out v f.d f.a f.imm))
    (hwr : ∀ d a b, Writes.ofUni v.split.mask (out v d a b) = wr d a b) : s.ScalarWrites v ur ui wr := by
  refine ⟨fun f h => ⟨fun hq => ?_, State.guarded_skips (hur f) h⟩, fun f h => ⟨fun hq => ?_, State.guarded_skips (hui f) h⟩⟩
  · exact hwr _ _ _ ▸ State.uniOp_computesOrTraps (hur f) h hq rfl
  · exact hwr _ _ _ ▸ State.uniOp_computesOrTraps (hui f) h hq rfl

/-- A scalar instruction whose values are `g`, of which P holds: a value alone raises no flag, so nothing traps. -/
theorem State.scalar_of_value {g : SVal} {P : Word → Word → Word → Word → Prop}
    (hur : ∀ f, exec (ur f) s = s.urVal (ur f) f g) (hui : ∀ f, exec (ui f) s = s.uiVal (ui f) f g)
    (hP : ∀ d a b, P d a b (g d a b)) : s.Scalar v ur ui P := by
  obtain ⟨hr, hi⟩ : s.ScalarWrites v ur ui fun d a b =>
      Writes.uniform v.split.mask d.toNat (g (v.s d.toNat) (v.s a.toNat) b) 0 :=
    State.scalarWrites_of_out (out := fun v d a b => { ss := [(d.toNat, g (v.s d.toNat) (v.s a.toNat) b)] }) hur hui
      fun _ _ _ => Writes.ofUni_register _ _ _
  exact ⟨fun f h => ⟨fun hq => ⟨_, hP _ _ _, ((hr f h).1 hq).1 (trapOf_zero _)⟩, (hr f h).2⟩,
    fun f h => ⟨fun hq => ⟨_, hP _ _ _, ((hi f h).1 hq).1 (trapOf_zero _)⟩, (hi f h).2⟩⟩

end

end Sys2Proof.Machine
end

section
/-!
SUPPORT. The scalar integer instructions, SCMP and SLEA (spec/13 R212 to R214): the value of each.
-/

namespace Sys2Proof.Machine

theorem toInt_sminVal (d a b : Word) : (sminVal d a b).toInt = min a.toInt b.toInt := by
  simp only [sminVal, min_def, apply_ite BitVec.toInt]

theorem toInt_smaxVal (d a b : Word) : (smaxVal d a b).toInt = max a.toInt b.toInt := by
  simp only [smaxVal, max_def, apply_ite BitVec.toInt]

/-! ## Shifts: a count of 32 or more leaves zero, or copies of the sign -/

theorem shiftVal_shl (d a b : Word) : shiftVal .shl d a b = a <<< (b.toNat % 256) := by
  apply BitVec.eq_of_toNat_eq
  rw [BitVec.toNat_shiftLeft, Nat.shiftLeft_eq, shiftVal, ShiftOp.eval, BitVec.toNat_ofNat]
  split
  · rw [Nat.mod_mod]
  · next hn =>
    obtain ⟨k, hk⟩ := Nat.exists_eq_add_of_le (Nat.le_of_not_lt hn)
    rw [hk, Nat.pow_add, Nat.mul_left_comm, Nat.mul_mod_right, Nat.zero_mod]

theorem shiftVal_shr (d a b : Word) : shiftVal .shr d a b = a >>> (b.toNat % 256) := by
  apply BitVec.eq_of_toNat_eq
  rw [BitVec.toNat_ushiftRight, Nat.shiftRight_eq_div_pow, shiftVal, BitVec.toNat_ofNat,
    Nat.mod_eq_of_lt (ShiftOp.eval_lt .shr 32 _ _), ShiftOp.eval, Nat.mod_eq_of_lt a.isLt]
  split
  · rfl
  · next hn =>
    exact (Nat.div_eq_of_lt (a.isLt.trans_le (Nat.pow_le_pow_right (by decide) (Nat.le_of_not_lt hn)))).symm

theorem ofNat_wrapNat (n : Nat) (x : Int) : BitVec.ofNat n (wrapNat n x) = BitVec.ofInt n x := by
  apply BitVec.eq_of_toNat_eq
  rw [BitVec.toNat_ofNat, BitVec.toNat_ofInt, Nat.mod_eq_of_lt (wrapNat_lt n x), wrapNat]

theorem shiftVal_sar (d a b : Word) : shiftVal .sar d a b = a.sshiftRight (b.toNat % 256) := by
  rw [shiftVal, ShiftOp.eval, ofNat_wrapNat, signedOf_div_two_pow_min, signedOf_eq_toInt, BitVec.ofNat_toNat,
    BitVec.setWidth_eq, BitVec.sshiftRight, Int.shiftRight_eq_div_pow]
  rfl

/-! ## Truth table, counts and fields, bit by bit -/

theorem getLsbD_sblutVal (d a b : Word) {j : Nat} (hj : j < 32) :
    (sblutVal d a b).getLsbD j = b.getLsbD (2 * (a.getLsbD j).toNat + (d.getLsbD j).toNat) := by
  rw [sblutVal, BitVec.getLsbD_ofNat, testBit_bitsFrom, decide_eq_true hj, Bool.true_and, Bool.true_and]

theorem toNat_spopcVal (d a b : Word) : (spopcVal d a b).toNat = (List.range 32).countP fun j => b.getLsbD j := by
  rw [spopcVal, BitVec.toNat_ofNat, Nat.mod_eq_of_lt ((popCount_le 32 _).trans_lt (by decide)), popCount_eq_countP]
  rfl

theorem toNat_sclzVal (d a b : Word) : (sclzVal d a b).toNat = leadingZeros 32 b.toNat := by
  rw [sclzVal, BitVec.toNat_ofNat, Nat.mod_eq_of_lt ((leadingZeros_spec b.isLt).1.trans_lt (by decide))]

theorem getLsbD_sbfeVal (d a b : Word) {k : Nat} (hk : k < 32) :
    (sbfeVal d a b).getLsbD k = (bfe 32 a.toNat (b.toNat % 256) (b.toNat / 256 % 256) (b.getLsbD 16)).testBit k := by
  rw [sbfeVal, BitVec.getLsbD_ofNat, decide_eq_true hk, Bool.true_and]

theorem getLsbD_sbfiVal (d a b : Word) {k : Nat} (hk : k < 32) :
    (sbfiVal d a b).getLsbD k = (bfi 32 a.toNat d.toNat (b.toNat % 256) (b.toNat / 256 % 256)).testBit k := by
  rw [sbfiVal, BitVec.getLsbD_ofNat, decide_eq_true hk, Bool.true_and]

/-! ## The relations of SCMP -/

theorem scmpRel_eq (a b : Word) : scmpRel 0 a b = (a == b) := by
  rw [Bool.eq_iff_iff]; simp [scmpRel, relOf, BitVec.toInt_inj]

theorem scmpRel_ne (a b : Word) : scmpRel 1 a b = (a != b) := by
  rw [Bool.eq_iff_iff]; simp [scmpRel, relOf, BitVec.toInt_inj]

theorem scmpRel_lt (a b : Word) : scmpRel 2 a b = decide (a.toInt < b.toInt) := by
  rw [Bool.eq_iff_iff]; simp [scmpRel, relOf, compare_lt_iff_lt]

theorem scmpRel_le (a b : Word) : scmpRel 3 a b = decide (a.toInt ≤ b.toInt) := by
  rw [Bool.eq_iff_iff]; simp [scmpRel, relOf, compare_gt_iff_gt]

theorem scmpRel_gt (a b : Word) : scmpRel 4 a b = decide (a.toInt > b.toInt) := by
  rw [Bool.eq_iff_iff]; simp [scmpRel, relOf, compare_gt_iff_gt]

theorem scmpRel_ge (a b : Word) : scmpRel 5 a b = decide (a.toInt ≥ b.toInt) := by
  rw [Bool.eq_iff_iff]; simp [scmpRel, relOf, compare_lt_iff_lt]

theorem scmpRel_ltu (a b : Word) : scmpRel 6 a b = decide (a.toNat < b.toNat) := rfl

theorem scmpRel_geu (a b : Word) : scmpRel 7 a b = decide (a.toNat ≥ b.toNat) := rfl

/-- Settles O14: each instruction writes the value of its function in the model, which is that of its rule. -/
theorem scalarIntegerAndCompare : Obligations.ScalarIntegerAndCompare := by
  refine ⟨fun s v => ?_, fun s v => ⟨?_, ?_⟩⟩
  · simp only [List.forall_mem_cons]
    refine ⟨?_, ?_, ?_, ?_, ?_, ?_, ?_, ?_, ?_, ?_, ?_, ?_, ?_, ?_, ?_, ?_, List.forall_mem_nil _⟩
    · exact State.scalar_of_value (g := saddVal) (fun _ => rfl) (fun _ => rfl) fun _ _ _ => rfl
    · exact State.scalar_of_value (g := ssubVal) (fun _ => rfl) (fun _ => rfl) fun _ _ _ => rfl
    · exact State.scalar_of_value (g := smulVal) (fun _ => rfl) (fun _ => rfl) fun _ _ _ => rfl
    · exact State.scalar_of_value (g := smadVal) (fun _ => rfl) (fun _ => rfl) fun _ _ _ => rfl
    · exact State.scalar_of_value (fun _ => rfl) (fun _ => rfl) toInt_sminVal
    · exact State.scalar_of_value (fun _ => rfl) (fun _ => rfl) toInt_smaxVal
    · exact State.scalar_of_value (fun _ => rfl) (fun _ => rfl) shiftVal_shl
    · exact State.scalar_of_value (fun _ => rfl) (fun _ => rfl) shiftVal_shr
    · exact State.scalar_of_value (fun _ => rfl) (fun _ => rfl) shiftVal_sar
    · exact State.scalar_of_value (fun _ => rfl) (fun _ => rfl) fun d a b _ => getLsbD_sblutVal d a b
    · exact State.scalar_of_value (fun _ => rfl) (fun _ => rfl) toNat_spopcVal
    · exact State.scalar_of_value (g := sclzVal) (fun _ => rfl) (fun _ => rfl) fun d a b =>
        toNat_sclzVal d a b ▸ leadingZeros_spec b.isLt
    · exact State.scalar_of_value (fun _ => rfl) (fun _ => rfl) fun d a b _ hk =>
        (getLsbD_sbfeVal d a b hk).trans (testBit_bfe hk)
    · exact State.scalar_of_value (fun _ => rfl) (fun _ => rfl) fun d a b _ hk =>
        (getLsbD_sbfiVal d a b hk).trans (testBit_bfi hk)
    · exact State.scalar_of_value (g := sselVal) (fun _ => rfl) (fun _ => rfl) fun _ _ _ => rfl
    · exact State.scalar_of_value (g := smovVal) (fun _ => rfl) (fun _ => rfl) fun _ _ _ => rfl
  · refine State.scalarWrites_of_out (out := fun v d a b => scmpOut d (v.s a.toNat) b) (fun _ => rfl) (fun _ => rfl)
      fun d a b => (Writes.ofUni_predicate _ _ _).trans (congrArg (Writes.flag _ _ · 0) ?_)
    have hrel := (d.extractLsb' 3 3).isLt
    generalize (d.extractLsb' 3 3).toNat = rel at hrel ⊢
    interval_cases rel
    · exact scmpRel_eq _ _
    · exact scmpRel_ne _ _
    · exact scmpRel_lt _ _
    · exact scmpRel_le _ _
    · exact scmpRel_gt _ _
    · exact scmpRel_ge _ _
    · exact scmpRel_ltu _ _
    · exact scmpRel_geu _ _
  · exact State.scalarWrites_of_out (out := fun v d a b => sleaOut d (v.s64 a.toNat) b) (fun _ => rfl) (fun _ => rfl)
      fun _ _ _ => Writes.ofUni_pair _ _ _ _

end Sys2Proof.Machine
end

section
/-!
SUPPORT. NOP, BRA, CALL, RET and DBNZ (spec/13 R217 to R219, R221).
-/

namespace Sys2Proof.Machine

theorem any_slicesOf (mask : BitVec 8) (p : Nat → Bool) :
    (slicesOf mask).any p = true ↔ ∃ k, k < 8 ∧ mask.getLsbD k = true ∧ p k = true := by
  simp only [slicesOf, List.any_eq_true, List.mem_filter, List.mem_range, and_assoc]

theorem Warp.modSls_slices (w : Warp) (mask : BitVec 8) (f : Slice → Slice) :
    w.Slices (w.modSls mask f) fun k sl => if mask.getLsbD k then f sl else sl :=
  ⟨Warp.foldl_modSl_same _ (fun k => k) (fun _ => f) w, Warp.sl_modSls w mask f⟩

theorem Warp.Slices.num {w w' : Warp} {f : Nat → Slice → Slice} (h : w.Slices w' f) : w'.num = w.num := by
  rw [h.1]

theorem Warp.setS_wrote (w : Warp) (mask : BitVec 8) (n : Nat) (x : Word) :
    (w.setS mask n x).Wrote w (Writes.uniform mask n x 0) :=
  Writes.ofUni_register mask n x ▸ Warp.writeUni_wrote w mask { ss := [(n, x)] }

/-- Settles O18: a false guard skips; a true one retires to the address of the rule, or takes RETSTK. -/
theorem branchesCallsAndReturns : Obligations.BranchesCallsAndReturns := by
  intro s v mine
  refine ⟨fun f h => ?nop, fun f h => ⟨fun hq => ?bra, State.guarded_skips rfl h⟩,
    fun f h => ⟨fun hq hfull => ?call, fun hq hfull => ?callFull, State.guarded_skips rfl h⟩,
    fun f h => ⟨fun hq hempty => ?ret, fun hq hempty => ?retEmpty, State.guarded_skips rfl h⟩,
    fun f h => ⟨fun hq => ?dbnz, State.guarded_skips rfl h⟩⟩
  case nop =>
    have he : exec (.nop f) s = s.run (.nop f) fun v => .ok (s.skip v 4) := rfl
    exact ⟨_, he.trans (State.run_ok h.1 h.2.1 rfl), State.retire_retires (wr := {}) 4 h.1 (Warp.Wrote.refl _)⟩
  case bra => exact State.guarded_goes rfl h hq rfl rfl (Warp.Wrote.refl _)
  case call =>
    have hw := Warp.modSls_slices v.warp v.split.mask fun sl => { sl with rstack := (v.pc + 4) :: sl.rstack }
    refine ⟨_, hw, State.guarded_goes rfl h hq (if_neg fun hany => hfull ?_) hw.num (Warp.Wrote.refl _)⟩
    simpa only [any_slicesOf, decide_eq_true_eq] using hany
  case callFull =>
    refine State.guarded_traps rfl h hq (if_pos ?_)
    simpa only [any_slicesOf, decide_eq_true_eq] using hfull
  case ret =>
    have hw := Warp.modSls_slices v.warp v.split.mask fun sl => { sl with rstack := sl.rstack.drop 1 }
    refine ⟨_, by simpa only [List.drop_one] using hw,
      State.guarded_goes rfl h hq (if_neg fun hany => hempty ?_) hw.num (Warp.Wrote.refl _)⟩
    simpa only [any_slicesOf, List.isEmpty_iff] using hany
  case retEmpty =>
    refine State.guarded_traps rfl h hq (if_pos ?_)
    simpa only [any_slicesOf, List.isEmpty_iff] using hempty
  case dbnz => exact State.guarded_goes rfl h hq rfl rfl (Warp.setS_wrote v.warp v.split.mask f.d.toNat _)

end Sys2Proof.Machine
end
